-- ==== Sys2Proof/Word.lean ====
section
/-!
DEFINITION. The word types of the X4 and their plainest arithmetic: the 64-bit lane value, the byte, the 96-bit instruction
word. Nothing here decides what an instruction does.
-/

namespace Sys2Proof

/-- A 64-bit register value of one lane, an address or a 64-bit memory word (03_numbers). -/
abbrev Word := BitVec 64

/-- The addressable unit of every space. -/
abbrev Byte := BitVec 8

/-- One instruction word (R42). -/
abbrev IWord := BitVec 96

/-- A set of lanes of one fibre: bit `L` stands for lane `L` (R83). -/
abbrev LaneMask := BitVec 64

/-- Bit `i` of a lane mask. -/
def LaneMask.has (m : LaneMask) (i : Nat) : Bool := m.getLsbD i

/-- The lanes of a mask in ascending order. -/
def LaneMask.lanes (m : LaneMask) : List Nat := (List.range 64).filter fun i => m.getLsbD i

/-- The mask of the listed lanes. -/
def LaneMask.ofLanes (ls : List Nat) : LaneMask := ls.foldl (fun m l => m ||| (1#64 <<< l)) 0

/-- The lanes `0` to `n - 1`. -/
def LaneMask.below (n : Nat) : LaneMask := BitVec.ofNat 64 (2 ^ n - 1)

end Sys2Proof
end

