-- ==== Sys2Proof/Config.lean ====
section
/-!
DEFINITION. What one X4 fixes and the spec does not give: the free values (no body, so nothing can be proved of their value), and
the choices of a number the spec leaves to the part.
-/

namespace Sys2Proof

/-- An Ultra Ethernet registration (R317). -/
structure RmaReg where
  key : BitVec 32
  ctx : Nat
  base : Word
  len : Nat
  read : Bool
  write : Bool
  word : Word
  deriving DecidableEq, Repr

end Sys2Proof

namespace Sys2Proof.Config

/-- The value an X4 gives for an approximate function before it is confined to R40's bound: function (0 `frcp`, 1 `frsq`, 2 `fexp2`,
3 `flog2`, 4 `fsin`, 5 `fcos`), format code (R22), `.ftz`, input encoding. "The manual does not publish which value within the
bound that is" (R40): a free value, assumption 13. -/
opaque approx : Nat → Nat → Bool → Nat → Nat

/-- SHA3-256 of a byte string (R332 names it and does not describe it): free, assumption 11. -/
opaque sha3_256 : List Byte → List Byte

/-- ML-DSA-44 verification: public key, message, signature (R332): free, assumption 11. -/
opaque mlDsaVerify : List Byte → List Byte → List Byte → Bool

/-- ML-DSA-44 signature of a message by the device's key (R333): free, assumption 11. -/
opaque mlDsaSign : List Byte → List Byte

/-- The fused digest of the firmware key (R331, R332): free, assumption 11. -/
opaque fusedKeyDigest : List Byte

/-- The fused security counter before the first boot (R332): free, assumption 11. -/
opaque fusedCounter : Nat

/-- Sensor readings the spec names and gives no number for (R333): power, die temperature, coolant temperature: free, assumption
14. -/
opaque sensor : Nat → Nat

/-- Which cached entry, overlay or slot a full structure gives up when the spec leaves the choice: free, assumption 15. -/
opaque victim : Nat → Nat

/-- Bytes of the parts of the save area that stand in "the device's own layout" (R301): a free value, assumption 16. -/
opaque saveByte : Nat → Nat → Byte

/-- Length of a fibre's streams, walks and latch in the save area, for how many of them there are (R301): free, assumption 16. -/
opaque saveLen : Nat → Nat

/-- How many of the concurrent inserts into a node a walk sees as it reads the node (R201 and R289 allow any), by the walk and its number of the
read: free, assumption 46. -/
opaque walkSees : Nat → Nat → Nat

/-- Whether a waiting thread that nothing has marked returns at a restore (R177 and R179 allow both), by a counter and the thread: free,
assumption 71. -/
opaque spurious : Nat → Nat → Bool

/-- How many writes ago a read takes its bytes from, where R187 leaves more than the last write open, for each read by its identity and its lane
or part: free, assumption 70. -/
opaque older : Nat → Nat → Nat

/-- How far ahead of its progress a Trowel command moves its next element, where R215 leaves the order open, for each command and how many it has
moved: free, assumption 41. -/
opaque ahead : Nat → Nat → Nat

/-- The peer class of a send to the service endpoint, by its instant (R316 checks it, and R317 gives the send no other sign of it): free,
assumption 30. -/
opaque sendClass : Nat → Nat

/-- How many nodes a Quarter's Quoin store and spill region hold beyond 2^18 (R278 gives the region's bytes and no node's size): free,
assumption 17. -/
opaque nodeExtra : Nat

/-- Which SRAM a way of it belongs to (R335 numbers none): 0 an L2, 1 to 4 the Mortar store of Quarter 0 to 3, 5 to 8 a Quoin node store:
free, assumption 64. -/
opaque waySram : Nat → Nat

/-- How many records or nodes a way of a Mortar or Quoin store holds (R335): free, assumption 64. -/
opaque waySize : Nat → Nat

/-- Whether the service's reservation of the spill, shadow and queue regions succeeds, by the instant of boot stage 4 (R331): free, assumption
64. -/
opaque reserves : Nat → Bool

/-- The buffers the resident service has registered for Ultra Ethernet at an instant (R317): no instruction or register the spec gives
registers one: free, assumption 30. -/
opaque registered : Nat → List RmaReg

end Sys2Proof.Config
end

