-- ==== Sys2Proof/Syntax.lean ====
section
/-!
DEFINITION. The instructions and events of the X4 as syntax: one constructor of `Instr` per row of spec/opcode_table.json. The
first 200 are instructions with their operands (04_encoding and the family chapters); the last 76 are the events of the table,
which have no encoding and carry what identifies the event.
-/

namespace Sys2Proof

/-- A vector register index: 0 to 254, and 255 for `vz` (R48, R49). -/
abbrev Reg := BitVec 8

/-- A predicate index: 0 to 23, and 31 for `pt` (R42, R48). -/
abbrev PredIdx := BitVec 5

/-- Guard and scheduling hints of a word, bits 83 to 70 (R42, R45). -/
structure Hdr where
  neg   : Bool
  guard : PredIdx
  stall : BitVec 4
  sw    : Bool
  ru    : Bool
  lp    : Bool
  tm    : Bool
  deriving DecidableEq, Repr

/-- Integer types, codes 0x0 to 0x7 (R22). -/
inductive ITy where
  | i8 | i16 | i32 | i64 | n8 | n16 | n32 | n64
  deriving DecidableEq, Repr

/-- Binary floating-point types, codes 0x8 to 0xB (R22). -/
inductive FTy where
  | f16 | bf16 | f32 | f64
  deriving DecidableEq, Repr

/-- Bond block types, codes 0xC to 0xE (R22). -/
inductive BTy where
  | bd2 | bd4 | bd7
  deriving DecidableEq, Repr

/-- Types 0x0 to 0xB. -/
inductive NTy where
  | int (t : ITy)
  | flt (t : FTy)
  deriving DecidableEq, Repr

/-- Every element type of R22. -/
inductive Ty where
  | num (t : NTy)
  | bond (t : BTy)
  deriving DecidableEq, Repr

/-- Width in bits (R22). -/
def ITy.width : ITy → Nat
  | .i8 | .n8 => 8
  | .i16 | .n16 => 16
  | .i32 | .n32 => 32
  | .i64 | .n64 => 64

/-- Whether the type is signed (R22). -/
def ITy.signed : ITy → Bool
  | .i8 | .i16 | .i32 | .i64 => true
  | .n8 | .n16 | .n32 | .n64 => false

/-- Width in bits (R22). -/
def FTy.width : FTy → Nat
  | .f16 | .bf16 => 16
  | .f32 => 32
  | .f64 => 64

/-- Width in bits (R22). -/
def NTy.width : NTy → Nat
  | .int t => t.width
  | .flt t => t.width

/-- The `m` of `bd m` (R33). -/
def BTy.m : BTy → Nat
  | .bd2 => 2
  | .bd4 => 4
  | .bd7 => 7

/-- Registers of a block: 1, 2 or 3 (R22). -/
def BTy.regs : BTy → Nat
  | .bd2 => 1
  | .bd4 => 2
  | .bd7 => 3

/-- The types of `mma` (R207). -/
inductive MmaTy where
  | f16 | bf16 | bd2 | bd4 | bd7
  deriving DecidableEq, Repr

/-- Registers of the A group of `mma` (R209). -/
def MmaTy.regs : MmaTy → Nat
  | .f16 | .bf16 => 4
  | .bd2 => 1
  | .bd4 => 2
  | .bd7 => 3

/-- The types of `atom` and `red` (R164). -/
inductive ATy where
  | i32 | i64 | n32 | n64 | f32 | f64
  deriving DecidableEq, Repr

/-- The types of `cas` (R164). -/
inductive CTy where
  | i32 | i64 | n32 | n64
  deriving DecidableEq, Repr

/-- Rounding modes (R27). -/
inductive Rnd where
  | rn | rz | rp | rm
  deriving DecidableEq, Repr

/-- Scopes (R48, R173). -/
inductive Scope where
  | team | die | dev | sys
  deriving DecidableEq, Repr

/-- Ordering bits of a memory instruction (R49, R174). -/
inductive MOrd where
  | rlx | acq | rel | sc
  deriving DecidableEq, Repr

/-- Address spaces (R56). -/
inductive Space where
  | g | sp | stk
  deriving DecidableEq, Repr

/-- Lane and sub-element patterns with their amount (R53). -/
inductive Pat where
  | none
  | rot (k : BitVec 6)
  | bc (k : BitVec 6)
  | bf (k : BitVec 6)
  | mir
  | srot (k : BitVec 6)
  | sbc (k : BitVec 6)
  deriving DecidableEq, Repr

/-- A vector-register source with its pattern and modifiers (R49, R53, R54). -/
structure RegOp where
  idx : Reg
  pat : Pat
  neg : Bool
  abs : Bool
  deriving DecidableEq, Repr

/-- A vector-register source with a pattern and no modifier, as `match` takes it (R95). -/
structure RegPat where
  idx : Reg
  pat : Pat
  deriving DecidableEq, Repr

/-- Special registers readable as operands, indices 0x80 to 0x8E (R51). -/
inductive SReg where
  | lane | tid | team | launch | fibre | depth | tsize | width | core | psig | agelimit | chk | mwin | wavewait | stklim
  deriving DecidableEq, Repr

/-- An integer source (R113). -/
inductive Src where
  | reg (r : RegOp)
  | imm (v : BitVec 22)
  | sr (n : SReg)
  deriving DecidableEq, Repr

/-- A float source (R129). -/
inductive FSrc where
  | reg (r : RegOp)
  | imm (v : BitVec 22)
  deriving DecidableEq, Repr

/-- A plain vector register or an immediate, as `rxld`, `rxst` and `mma` take it (R78, R207). -/
inductive RegImm where
  | reg (r : Reg)
  | imm (v : BitVec 22)
  deriving DecidableEq, Repr

/-- A predicate source with its negate bit (R49). -/
structure POp where
  idx : PredIdx
  neg : Bool
  deriving DecidableEq, Repr

/-- The address operands of a memory instruction: base register in A, offset in B (R56). -/
structure MAddr where
  base : Reg
  off  : RegImm
  deriving DecidableEq, Repr

/-- Size field of `ld` and `st` (R165). -/
inductive Size where
  | e | r | r2 | r4
  deriving DecidableEq, Repr

/-- Conditions of `icmp` (R118). -/
inductive ICond where
  | eq | ne | lt | le | gt | ge
  deriving DecidableEq, Repr

/-- Conditions of `fcmp` (R133). -/
inductive FCond where
  | eq | ne | lt | le | gt | ge | un | ord
  deriving DecidableEq, Repr

/-- Destination of a compare: a predicate with its `.any` bit, or a vector register (R118, R133). -/
inductive CmpDst where
  | pred (p : PredIdx) (any : Bool)
  | vec (d : Reg)
  deriving DecidableEq, Repr

/-- Operations of `lred` and `lscan` (R144). -/
inductive RedOp where
  | add | min | max | and | or | xor
  deriving DecidableEq, Repr

/-- Integer operation with two sources and `.sat` (R114). -/
structure I3s where
  t : ITy
  sat : Bool
  d : Reg
  a : Src
  b : Src
  deriving DecidableEq, Repr

/-- Integer operation with two sources (R114). -/
structure I3 where
  t : ITy
  d : Reg
  a : Src
  b : Src
  deriving DecidableEq, Repr

/-- Integer operation with one source and `.sat` (R114). -/
structure I2s where
  t : ITy
  sat : Bool
  d : Reg
  a : Src
  deriving DecidableEq, Repr

/-- Integer operation with one source (R114). -/
structure I2 where
  t : ITy
  d : Reg
  a : Src
  deriving DecidableEq, Repr

/-- 64-bit operation with a 4-bit field in the sub-operation: `iaddc`'s carry predicate, `lea`'s shift (R114).
`uns` is the type `n64` (otherwise `i64`). -/
structure I64 where
  uns : Bool
  k : BitVec 4
  d : Reg
  a : Src
  b : Src
  deriving DecidableEq, Repr

/-- Float operation with two sources (R130). -/
structure F3 where
  t : FTy
  rnd : Rnd
  ftz : Bool
  d : Reg
  a : FSrc
  b : FSrc
  deriving DecidableEq, Repr

/-- Float operation with two sources whose rounding bits are zero (R130). -/
structure F3x where
  t : FTy
  ftz : Bool
  d : Reg
  a : FSrc
  b : FSrc
  deriving DecidableEq, Repr

/-- Float operation with one source (R130). -/
structure F2 where
  t : FTy
  rnd : Rnd
  ftz : Bool
  d : Reg
  a : FSrc
  deriving DecidableEq, Repr

/-- `ld` and `st` operands (R164, R165). -/
structure MemOp where
  size : Size
  sp : Space
  ord : MOrd
  sc : Scope
  t : NTy
  d : Reg
  addr : MAddr
  deriving DecidableEq, Repr

/-- `atom` and `red` operands (R164); `ftz` is D bit 50. -/
structure AtomOp where
  sp : Space
  ord : MOrd
  sc : Scope
  t : ATy
  ftz : Bool
  d : Reg
  addr : MAddr
  deriving DecidableEq, Repr

/-- Operands of an addressed instruction that moves 64-bit words of a space: `waitaddr`, `wake` (R164). -/
structure WaitOp where
  sp : Space
  ord : MOrd
  sc : Scope
  d : Reg
  addr : MAddr
  deriving DecidableEq, Repr

/-- Operands of `accld` and `accst` (R207): tile, space, ordering, scope, address. -/
structure TileMem where
  sp : Space
  ord : MOrd
  sc : Scope
  ta : BitVec 4
  addr : MAddr
  deriving DecidableEq, Repr

/-- Operands of `mma` (R207). -/
structure MmaOp where
  t : MmaTy
  z : Bool
  ta : BitVec 4
  a : Reg
  b : RegImm
  deriving DecidableEq, Repr

/-- The operations of a pair half (R58). -/
inductive HalfOp where
  | hnop | iadd | isub | imul | imins | iminu | imaxs | imaxu | and | or | xor | shl | shr | sar | mov | not
  | fadd | fsub | fmul | ffma | fmin | fmax
  deriving DecidableEq, Repr

/-- One half of a pair word (R57): destination, two sources, each source's 2-bit pattern. -/
structure Half where
  op : HalfOp
  d : Reg
  s1 : Reg
  p1 : BitVec 2
  s2 : Reg
  p2 : BitVec 2
  deriving DecidableEq, Repr

/-- A pair word's own fields (R57). -/
structure PairOp where
  t1 : BitVec 2
  t0 : BitVec 2
  rnd : Rnd
  ftz : Bool
  h1 : Half
  h0 : Half
  deriving DecidableEq, Repr

/-- A subfield of a parameter block: a literal, or a marker naming a vector register (R61, R62). -/
inductive Sub where
  | lit (v : BitVec 22)
  | mark (r : Reg)
  deriving DecidableEq, Repr

/-- The twelve subfields of a parameter block (R61). -/
structure ParamBlock where
  s0 : Sub
  s1 : Sub
  s2 : Sub
  s3 : Sub
  s4 : Sub
  s5 : Sub
  s6 : Sub
  s7 : Sub
  s8 : BitVec 22
  s9 : Sub
  s10 : Sub
  deriving DecidableEq, Repr

/-- Spaces of a Trowel command (R213): a source is `.g`, `.sp` or `.pl`; a destination may also be `.ta`. -/
inductive TSpace where
  | g | sp | pl | ta
  deriving DecidableEq, Repr

/-- Operands of `cpy`, `gth` and `sct` (R213). -/
structure TrowelOp where
  dst : TSpace
  src : TSpace
  bar : Option (BitVec 4)
  a : Reg
  pb : ParamBlock
  deriving DecidableEq, Repr

/-- A firmware image as its bytes (R332): a 4,096-byte header and the body. -/
abbrev Image := List Byte

/-- The instructions (rows 0 to 199 of the opcode table) and the events (rows 200 to 275). -/
inductive Instr where
  -- control (R95)
  | nop (h : Hdr)
  | bra (h : Hdr) (off : BitVec 22)
  | brx (h : Hdr) (t : Reg)
  | call (h : Hdr) (off : BitVec 22)
  | callx (h : Hdr) (t : Reg)
  | ret (h : Hdr)
  | exit (h : Hdr)
  | yield (h : Hdr)
  | voteAny (h : Hdr) (d : PredIdx) (p : POp)
  | voteAll (h : Hdr) (d : PredIdx) (p : POp)
  | voteMask (h : Hdr) (d : Reg) (p : POp)
  | matchAny (h : Hdr) (d : Reg) (a : RegPat)
  | matchAll (h : Hdr) (d : PredIdx) (a : RegPat)
  -- integer, logic, predicates (R114)
  | iadd (h : Hdr) (o : I3s)
  | isub (h : Hdr) (o : I3s)
  | iaddc (h : Hdr) (o : I64)
  | imul (h : Hdr) (o : I3s)
  | imulh (h : Hdr) (o : I3)
  | imad (h : Hdr) (o : I3s)
  | idiv (h : Hdr) (o : I3s)
  | irem (h : Hdr) (o : I3)
  | ineg (h : Hdr) (o : I2s)
  | iabs (h : Hdr) (o : I2s)
  | imin (h : Hdr) (o : I3)
  | imax (h : Hdr) (o : I3)
  | icmp (h : Hdr) (t : ITy) (c : ICond) (d : CmpDst) (a : Src) (b : Src)
  | isel (h : Hdr) (p : BitVec 4) (o : I3)
  | and (h : Hdr) (o : I3)
  | or (h : Hdr) (o : I3)
  | xor (h : Hdr) (o : I3)
  | not (h : Hdr) (o : I2)
  | bmix (h : Hdr) (tt : BitVec 8) (o : I3)
  | shl (h : Hdr) (o : I3)
  | shr (h : Hdr) (o : I3)
  | sar (h : Hdr) (o : I3)
  | rot (h : Hdr) (o : I3)
  | bfe (h : Hdr) (o : I3)
  | bfi (h : Hdr) (o : I3)
  | popc (h : Hdr) (o : I2)
  | clz (h : Hdr) (o : I2)
  | ctz (h : Hdr) (o : I2)
  | brev (h : Hdr) (o : I2)
  | lea (h : Hdr) (o : I64)
  | mov (h : Hdr) (o : I2)
  | movi (h : Hdr) (t : ITy) (d : Reg) (v : BitVec 22)
  | movhM (h : Hdr) (d : Reg) (a : Reg) (v : BitVec 22)
  | movhH (h : Hdr) (d : Reg) (a : Reg) (v : BitVec 20)
  | plop (h : Hdr) (tt : BitVec 4) (d : PredIdx) (a : POp) (b : POp)
  | p2v (h : Hdr) (d : Reg) (a : POp)
  | p2vAll (h : Hdr) (d : Reg)
  | v2p (h : Hdr) (d : PredIdx) (a : Src)
  | v2pAll (h : Hdr) (a : Src)
  | pack (h : Hdr) (o : I3s)
  | unpkLo (h : Hdr) (o : I2)
  | unpkHi (h : Hdr) (o : I2)
  | pair (h : Hdr) (o : PairOp)
  -- floating point, cross-lane, random, quantise (R130)
  | fadd (h : Hdr) (o : F3)
  | fsub (h : Hdr) (o : F3)
  | fmul (h : Hdr) (o : F3)
  | ffma (h : Hdr) (o : F3)
  | fmin (h : Hdr) (o : F3x)
  | fmax (h : Hdr) (o : F3x)
  | fcmp (h : Hdr) (t : FTy) (ftz : Bool) (c : FCond) (d : CmpDst) (a : FSrc) (b : FSrc)
  | fdiv (h : Hdr) (o : F3)
  | fsqrt (h : Hdr) (o : F2)
  | frcp (h : Hdr) (o : F2)
  | frsq (h : Hdr) (o : F2)
  | fexp2 (h : Hdr) (o : F2)
  | flog2 (h : Hdr) (o : F2)
  | fsin (h : Hdr) (o : F2)
  | fcos (h : Hdr) (o : F2)
  | fclass (h : Hdr) (t : FTy) (d : Reg) (a : FSrc)
  | fcvt (h : Hdr) (s : FTy) (hi : Bool) (o : F2)
  | f2i (h : Hdr) (t : ITy) (s : FTy) (hi : Bool) (rnd : Rnd) (ftz : Bool) (d : Reg) (a : FSrc)
  | i2f (h : Hdr) (t : FTy) (s : ITy) (hi : Bool) (rnd : Rnd) (ftz : Bool) (d : Reg) (a : Src)
  | frnd (h : Hdr) (o : F2)
  | frndX (h : Hdr) (o : F2)
  | fscale (h : Hdr) (t : FTy) (rnd : Rnd) (ftz : Bool) (d : Reg) (a : FSrc) (b : Src)
  | fdot2 (h : Hdr) (bf : Bool) (rnd : Rnd) (ftz : Bool) (d : Reg) (a : FSrc) (b : FSrc)
  | fflag (h : Hdr) (d : Reg) (mask : BitVec 7)
  | lpull (h : Hdr) (t : NTy) (d : Reg) (a : Src) (b : Src)
  | lpush (h : Hdr) (t : NTy) (d : Reg) (a : Src) (b : Src)
  | lred (h : Hdr) (op : RedOp) (t : NTy) (rnd : Rnd) (ftz : Bool) (sat : Bool) (d : Reg) (a : Src)
  | lscan (h : Hdr) (op : RedOp) (ex : Bool) (t : NTy) (rnd : Rnd) (ftz : Bool) (sat : Bool) (d : Reg) (a : Src)
  | rnd (h : Hdr) (d : Reg) (a : Src) (b : Src)
  | rndF32 (h : Hdr) (d : Reg) (a : Src) (b : Src)
  | rndF64 (h : Hdr) (d : Reg) (a : Src) (b : Src)
  | qnt (h : Hdr) (t : BTy) (rnd : Rnd) (ftz : Bool) (d : Reg) (a : Reg)
  | dqnt (h : Hdr) (s : BTy) (rnd : Rnd) (ftz : Bool) (d : Reg) (a : Reg)
  -- memory (R164, R175, R182, R161)
  | ld (h : Hdr) (o : MemOp)
  | st (h : Hdr) (o : MemOp)
  | stMc (h : Hdr) (o : MemOp)
  | atomAdd (h : Hdr) (o : AtomOp)
  | atomMin (h : Hdr) (o : AtomOp)
  | atomMax (h : Hdr) (o : AtomOp)
  | atomExch (h : Hdr) (o : AtomOp)
  | atomAnd (h : Hdr) (o : AtomOp)
  | atomOr (h : Hdr) (o : AtomOp)
  | atomXor (h : Hdr) (o : AtomOp)
  | cas (h : Hdr) (spc : Space) (ord : MOrd) (sc : Scope) (t : CTy) (d : Reg) (addr : MAddr)
  | redAdd (h : Hdr) (o : AtomOp)
  | redMin (h : Hdr) (o : AtomOp)
  | redMax (h : Hdr) (o : AtomOp)
  | redAnd (h : Hdr) (o : AtomOp)
  | redOr (h : Hdr) (o : AtomOp)
  | redXor (h : Hdr) (o : AtomOp)
  | fenceAcq (h : Hdr) (sc : Scope)
  | fenceRel (h : Hdr) (sc : Scope)
  | fenceSc (h : Hdr) (sc : Scope)
  | fenceUo (h : Hdr) (sc : Scope)
  | waitaddr (h : Hdr) (o : WaitOp)
  | wake (h : Hdr) (o : WaitOp)
  | pfL1 (h : Hdr) (addr : MAddr)
  | pfL2 (h : Hdr) (addr : MAddr)
  | sopenR (h : Hdr) (n : BitVec 3) (a : Reg)
  | sopenW (h : Hdr) (n : BitVec 3) (a : Reg)
  | snext (h : Hdr) (d : Reg) (n : BitVec 3)
  | stest (h : Hdr) (d : PredIdx) (n : BitVec 3)
  | sput (h : Hdr) (n : BitVec 3) (a : Reg)
  | sclose (h : Hdr) (d : PredIdx) (n : BitVec 3)
  | pginfo (h : Hdr) (d : Reg) (addr : MAddr)
  | tlbiPg (h : Hdr) (dev : Bool) (d : PredIdx) (a : Reg) (b : Src)
  | tlbiCtx (h : Hdr) (dev : Bool) (d : PredIdx) (b : Src)
  | tlbiAll (h : Hdr) (dev : Bool) (d : PredIdx)
  -- computed registers and shapes (R78, R81)
  | rxld (h : Hdr) (d : Reg) (i : RegImm)
  | rxst (h : Hdr) (i : RegImm) (b : Reg)
  | shpget (h : Hdr) (d : Reg) (a : Reg)
  | shpsetU (h : Hdr) (d : Reg) (a : Reg)
  | shpsetA (h : Hdr) (d : Reg) (a : Reg)
  | shpsetG (h : Hdr) (d : Reg) (a : Reg)
  -- fibres (R105, R108, R112)
  | fspawn (h : Hdr) (d : PredIdx) (a : Reg) (off : BitVec 22)
  | fexit (h : Hdr)
  | fbarArrive (h : Hdr)
  | fbarWait (h : Hdr)
  | fbarSync (h : Hdr)
  | fstat (h : Hdr) (d : Reg)
  -- tiles, Pallet, Trowel (R207, R213, R217)
  | plres (h : Hdr) (d : PredIdx) (pl : BitVec 3) (b : Reg)
  | plrel (h : Hdr) (pl : BitVec 3)
  | cvsetN (h : Hdr) (cv : BitVec 4) (a : Src)
  | cvsetF (h : Hdr) (cv : BitVec 4)
  | cvsign (h : Hdr) (cv : BitVec 4)
  | mma (h : Hdr) (o : MmaOp)
  | mmaCv (h : Hdr) (cv : BitVec 4) (o : MmaOp)
  | mmaShape (h : Hdr) (pl : BitVec 3) (pb : ParamBlock)
  | accld (h : Hdr) (o : TileMem)
  | accst (h : Hdr) (o : TileMem)
  | acczero (h : Hdr) (ta : BitVec 4)
  | tlive (h : Hdr) (mask : BitVec 16)
  | cpy (h : Hdr) (o : TrowelOp)
  | gth (h : Hdr) (o : TrowelOp)
  | sct (h : Hdr) (o : TrowelOp)
  | pub (h : Hdr) (sc : Scope) (a : Src)
  | pubReg (h : Hdr) (d : PredIdx) (a : Reg) (k : BitVec 3)
  | pubUnreg (h : Hdr) (k : BitVec 3)
  -- barriers (R230)
  | barv (h : Hdr) (b : BitVec 4) (a : Src)
  | bars (h : Hdr) (b : BitVec 4) (a : Src)
  | barw (h : Hdr) (b : BitVec 4)
  | barq (h : Hdr) (d : PredIdx) (b : BitVec 4)
  | barqSt (h : Hdr) (d : Reg) (b : BitVec 4)
  -- queues (R251)
  | qputM (h : Hdr) (d : PredIdx) (a : Reg) (q : Src)
  | qputV (h : Hdr) (d : PredIdx) (a : Src) (q : Src)
  | task (h : Hdr) (d : PredIdx) (a : Reg) (g : Reg)
  | tend (h : Hdr)
  | launch (h : Hdr) (d : Reg) (a : Reg)
  | join (h : Hdr) (d : Reg) (a : Src)
  | joinPoll (h : Hdr) (d : Reg) (a : Src)
  | qfireEx (h : Hdr) (d : PredIdx) (q : Src)
  | qfireGn (h : Hdr) (d : PredIdx) (n : Src)
  | qstat (h : Hdr) (d : Reg) (q : Src)
  | qstatArg (h : Hdr) (d : Reg) (k : BitVec 3)
  -- Mortar (R266)
  | vappEye (h : Hdr) (d : Reg) (a : Reg) (p : Reg)
  | vappLight (h : Hdr) (d : Reg) (a : Reg) (p : Reg)
  | vseal (h : Hdr) (sc : Scope) (d : PredIdx) (a : Reg)
  | vld (h : Hdr) (sc : Scope) (d : PredIdx) (g : Reg) (a : Reg)
  | vcon (h : Hdr) (sc : Scope) (d : PredIdx) (w : Reg) (g : Reg)
  | vconAll (h : Hdr) (sc : Scope) (d : PredIdx) (w : Reg) (g : Reg)
  | vmrg (h : Hdr) (sc : Scope) (d : PredIdx) (w : Reg) (g : Reg)
  | vrew (h : Hdr) (d : PredIdx) (a : Reg) (b : Src)
  | vpin (h : Hdr) (d : PredIdx) (a : Reg)
  | vunpin (h : Hdr) (d : PredIdx) (a : Reg)
  | vframe (h : Hdr) (d : Reg)
  -- Quoin (R290)
  | qnins (h : Hdr) (sc : Scope) (d : Reg) (a : Reg) (b : Reg)
  | qnbld (h : Hdr) (pad : Bool) (d : Reg) (a : Reg) (pb : ParamBlock)
  | qnset (h : Hdr) (a : Reg) (dot : Bool) (depth : BitVec 8)
  | qnwalk (h : Hdr) (sc : Scope) (d : PredIdx) (a : Reg) (b : Reg)
  | qnnext (h : Hdr) (d : Reg)
  | qnend (h : Hdr) (d : PredIdx)
  | qnsum (h : Hdr) (k : BitVec 4) (d : PredIdx) (g : Reg)
  -- system, time and trace (R308, R322)
  | trap (h : Hdr) (code : BitVec 16)
  | brk (h : Hdr) (code : BitVec 16)
  | sysr (h : Hdr) (d : Reg) (a : Src)
  | sysw (h : Hdr) (a : Src) (b : Src)
  | haltCtx (h : Hdr) (d : PredIdx) (a : Src)
  | haltCore (h : Hdr) (d : PredIdx) (a : Src) (b : Src)
  | rfe (h : Hdr) (d : PredIdx) (a : Src) (b : Src)
  | clk (h : Hdr) (d : Reg)
  | sleepAbs (h : Hdr) (a : Src)
  | sleepRel (h : Hdr) (a : Src)
  | mark (h : Hdr) (a : Src) (code : BitVec 16)
  | markAll (h : Hdr) (a : Src) (code : BitVec 16)
  -- events: fibres, memory and engines
  | resultReturn (id : Nat)
  | holdLimit (core : Nat) (quad : Nat) (slot : Nat)
  | helperReady (fibre : Nat)
  | overlayLoadComplete (core : Nat) (ctx : Nat) (base : Word) (evict : List Word)
  | frameFillComplete (fibre : Nat) (lane : Nat)
  | zeroingComplete (entry : Nat)
  | waitaddrDeadline (fibre : Nat) (lane : Nat)
  | sleepWake (fibre : Nat) (lane : Nat)
  | streamRunAhead (fibre : Nat) (n : Nat)
  | streamDrainComplete (fibre : Nat) (n : Nat)
  | trowelCommandStart (core : Nat)
  | completionArrival (cmd : Nat)
  | commandFault (cmd : Nat)
  | flipPerform (id : Nat) (quarter : Nat)
  | mmaComplete (id : Nat)
  | buildComplete (id : Nat)
  | walkItemPush (fibre : Nat) (lane : Nat)
  | vertexRetirement (quarter : Nat) (slot : Nat)
  | vertexSpill (quarter : Nat)
  -- events: queues, launches, placement
  | launchDispatch (ctx : Nat) (queue : Nat)
  | teamPlacement (quarter : Nat)
  | teamRetirement (team : Nat)
  | gridRetirement (ctx : Nat) (launch : Word)
  | waveReleaseTimer (ctx : Nat) (queue : Nat) (plaza : Nat) (entry : Word)
  | waveSteal (plaza : Nat)
  | expertFire (ctx : Nat) (queue : Nat)
  | expertTimer (ctx : Nat) (queue : Nat)
  -- events: host
  | hostAppend (ctx : Nat) (queue : Nat) (ws : List Word)
  | hostWindowWrite (off : Nat) (bytes : List Byte)
  | hostWindowRead (off : Nat) (len : Nat)
  | ccmdCreate (ctx : Nat)
  | ccmdStart (ctx : Nat)
  | ccmdHalt (ctx : Nat)
  | ccmdDestroy (ctx : Nat)
  | qsel (ctx : Nat) (v : Word)
  | gsel (ctx : Nat) (v : Word)
  | dstopt (ctx : Nat) (v : Word)
  | controlRegisterWrite (ctx : Option Nat) (off : Nat) (v : Word)
  | tset (v : Word)
  | trarm (v : Word)
  -- events: contexts
  | debugThreadStop (ctx : Nat)
  | preemptionDecision
  | timeSliceExpiry (ctx : Nat)
  | haltRequest (ctx : Nat)
  | saveComplete (ctx : Nat)
  | teamRestore (ctx : Nat)
  | faultRecordWrite (ctx : Nat)
  | stallSample
  -- events: links and time
  | rmaWrite (cls : Nat) (key : BitVec 32) (off : Nat) (bytes : List Byte)
  | rmaRead (cls : Nat) (key : BitVec 32) (off : Nat) (len : Nat)
  | serviceSend (ctx : Nat) (queue : Nat) (ws : List Word)
  | peerAtomic (port : Nat)
  | ptpMessage (port : Nat) (master : Nat)
  | holdover
  | flitReplay (link : Nat)
  | linkFailure (link : Nat)
  -- events: package and management
  | powerCapSet (watts : Nat)
  | clockStep (up : Bool)
  | dieShutdown (die : Nat)
  | powerGate (core : Nat)
  | gatedCoreWake (core : Nat)
  | bootRomCheck (monitor : Image)
  | monitorInit (trained : Bool)
  | serviceLoad (service : Image)
  | regionReserve
  | pldmDiscovery
  | pldmSensors
  | firmwareUpdate (img : Image)
  | attestation (nonce : List Byte)
  | accessTableChange (master : Nat) (target : Nat) (r : Bool) (w : Bool)
  | softErrorCorrected (kind : Nat) (unit : Nat)
  | errorWindowAge (kind : Nat) (unit : Nat)
  | uncorrectableError (kind : Nat) (unit : Nat) (ctxs : List Nat)
  | storePerform (id : Nat)
  | destroyComplete (ctx : Nat)
  | hostLinkTraining (gen : Nat) (lanes : Nat)
  deriving DecidableEq, Repr

end Sys2Proof
end

