-- ==== Sys2Proof/WellFormed.lean ====
section
/-!
DEFINITION. Which instruction terms a word of the X4 encodes: the checks on the word itself that the types of Syntax.lean do
not already make (R42, R44 to R66 and the encoding rule of each family). An event has no word and is not well formed.
-/

namespace Sys2Proof

/-- `p0`–`p23` or `pt` (R42, R48). -/
def predOk (p : PredIdx) : Bool := p.toNat ≤ 23 || p.toNat == 31

/-- R42: codes 24 to 30 of the guard are reserved. -/
def Hdr.ok (h : Hdr) : Bool := predOk h.guard

/-- The header of an instruction on which `ru` is not accepted (R45). -/
def Hdr.okNoRu (h : Hdr) : Bool := predOk h.guard && !h.ru

/-- Whether an integer source is of vector kind (R45). -/
def Src.isReg : Src → Bool
  | .reg _ => true
  | _ => false

/-- Whether a float source is of vector kind (R45). -/
def FSrc.isReg : FSrc → Bool
  | .reg _ => true
  | .imm _ => false

/-- Whether a plain operand is of vector kind (R45). -/
def RegImm.isReg : RegImm → Bool
  | .reg _ => true
  | .imm _ => false

/-- The header of an instruction whose A field is `a`: `ru` only where A is of vector kind (R45). -/
def Hdr.okA (h : Hdr) (isReg : Bool) : Bool := predOk h.guard && (!h.ru || isReg)

/-- R52: an `f16` or `bf16` immediate has bits 21:16 zero. -/
def FSrc.okFor (t : FTy) : FSrc → Bool
  | .reg _ => true
  | .imm v => t.width != 16 || v.toNat < 65536

/-- R52 for an operand of `lpull`, `lpush`, `lred` or `lscan`, whose type may be a float. -/
def Src.okFor (t : NTy) (s : Src) : Bool :=
  match t, s with
  | .flt f, .imm v => f.width != 16 || v.toNat < 65536
  | .flt _, .sr _ => false
  | _, _ => true

/-- A predicate source or destination (R48, R49). -/
def POp.ok (p : POp) : Bool := predOk p.idx

/-- R164: the scope of an access follows its space. -/
def scopeOk (spc : Space) (sc : Scope) : Bool := spc == .g || sc == .team

/-- R164: an access in `.stk` accepts `.rlx` only. -/
def stkOk (spc : Space) (ord : MOrd) : Bool := spc != .stk || ord == .rlx

/-- A compare destination: a predicate exists (R48); a vector destination has no `.any` bit, by its type (R114). -/
def CmpDst.ok : CmpDst → Bool
  | .pred p _ => predOk p
  | .vec _ => true

/-- A group of `n` registers from `r` that holds no `vz` (R204, R213, R266, R290). -/
def noVz (r : Reg) (n : Nat) : Bool := r.toNat + n ≤ 255

/-- R170: which operation codes accept a float type. -/
def ATy.isFloat : ATy → Bool
  | .f32 | .f64 => true
  | _ => false

/-- `atom` and `red`: spaces, scope, and `.ftz` on a float `add` only (R164, R170). -/
def AtomOp.ok (o : AtomOp) (add flt : Bool) : Bool :=
  o.sp != .stk && scopeOk o.sp o.sc && (!o.ftz || (add && o.t.isFloat)) && (flt || !o.t.isFloat)

/-- `red` accepts `.rlx` and `.rel` (R164). -/
def AtomOp.okRed (o : AtomOp) (add flt : Bool) : Bool := o.ok add flt && (o.ord == .rlx || o.ord == .rel)

/-- `accld` and `accst` (R207): `.g` or `.sp`, scope as R164, and the one ordering besides `.rlx`. -/
def TileMem.ok (o : TileMem) (second : MOrd) : Bool :=
  o.sp != .stk && scopeOk o.sp o.sc && (o.ord == .rlx || o.ord == second)

/-- R144: a float type has no `and`, `or`, `xor`; `.sat` only on an integer `add`. -/
def redOk (op : RedOp) (t : NTy) (sat : Bool) : Bool :=
  match t with
  | .int _ => !sat || op == .add
  | .flt _ => !sat && (op == .add || op == .min || op == .max)

/-- Number of dimensions of a parameter block (R61, S8 bits 9:8). -/
def ParamBlock.ndims (b : ParamBlock) : Nat := (b.s8.toNat / 256) % 4 + 1

/-- Element format code of a parameter block (R61, S8 bits 3:0). -/
def ParamBlock.fmt (b : ParamBlock) : Nat := b.s8.toNat % 16

/-- Block-length code of a parameter block (R61, S8 bits 7:4). -/
def ParamBlock.blk (b : ParamBlock) : Nat := (b.s8.toNat / 16) % 16

/-- A subfield that must be literal 0 (R61). -/
def Sub.isZero : Sub → Bool
  | .lit v => v == 0
  | .mark _ => false

/-- R61: format, block length, zero bits of S8, and unused dimensions literal 0. -/
def ParamBlock.ok (b : ParamBlock) : Bool :=
  b.s8.toNat < 1024 && b.fmt != 15 && (b.blk == 0 || (b.blk == 1 && 12 ≤ b.fmt)) &&
  (b.ndims ≥ 2 || (b.s1.isZero && b.s5.isZero)) && (b.ndims ≥ 3 || (b.s2.isZero && b.s6.isZero)) &&
  (b.ndims ≥ 4 || (b.s3.isZero && b.s7.isZero))

/-- Whether a half is of FMA class (R58). -/
def HalfOp.isFma : HalfOp → Bool
  | .fadd | .fsub | .fmul | .ffma | .fmin | .fmax => true
  | _ => false

/-- Whether a half reads source 1 only (R58). -/
def HalfOp.oneSrc : HalfOp → Bool
  | .mov | .not => true
  | _ => false

/-- R58: `hnop` is otherwise zero; a half with one source has 255 and pattern 0 in source 2. -/
def Half.ok (h : Half) : Bool :=
  match h.op with
  | .hnop => h.d == 0 && h.s1 == 0 && h.p1 == 0 && h.s2 == 0 && h.p2 == 0
  | .mov | .not => h.s2 == 255 && h.p2 == 0
  | _ => true

/-- The distinct registers a half reads, without `vz` (R59). -/
def Half.reads (h : Half) : List Reg :=
  (match h.op with
   | .hnop => []
   | .mov | .not => [h.s1]
   | .ffma => [h.s1, h.s2, h.d]
   | _ => [h.s1, h.s2]).filter (· != 255)

/-- The register a half writes, without `vz` (R59). -/
def Half.writes (h : Half) : List Reg :=
  if h.op == .hnop || h.d == 255 then [] else [h.d]

/-- No two different registers of the list share a bank (R59). -/
def banksOk : List Reg → Bool
  | [] => true
  | r :: rs => rs.all (fun q => q == r || q.toNat % 4 != r.toNat % 4) && banksOk rs

/-- R59: classes, destination banks and read banks. Two halves that name one destination name one bank. -/
def PairOp.ok (o : PairOp) : Bool :=
  o.h0.ok && o.h1.ok &&
  !(o.h0.op.isFma && o.h1.op.isFma) &&
  (o.h0.op.isFma || o.h1.op.isFma || (o.rnd == .rn && !o.ftz)) &&
  (match o.h0.writes, o.h1.writes with
   | [a], [b] => a.toNat % 4 != b.toNat % 4
   | _, _ => true) &&
  banksOk (o.h0.reads ++ o.h1.reads)

/-- R49, R56: A and B of a memory instruction carry no other condition. `sp`, `ord` and `sc` of `ld` (R164). -/
def MemOp.okLd (o : MemOp) : Bool :=
  scopeOk o.sp o.sc && stkOk o.sp o.ord && o.ord != .rel

/-- `st` (R164). -/
def MemOp.okSt (o : MemOp) : Bool :=
  scopeOk o.sp o.sc && stkOk o.sp o.ord && o.ord != .acq

/-- A Trowel command: its register group holds no `vz` (R213) and its parameter block is well formed (R61). -/
def TrowelOp.ok (o : TrowelOp) (n : Nat) : Bool := noVz o.a n && o.pb.ok && o.src != .ta

/-- Float source and type of a float operation with two sources. -/
def F3.ok (h : Hdr) (o : F3) : Bool := h.okA o.a.isReg && o.a.okFor o.t && o.b.okFor o.t

/-- Float operation with one source. -/
def F2.ok (h : Hdr) (o : F2) : Bool := h.okA o.a.isReg && o.a.okFor o.t

/-- Float operation with two sources and no rounding. -/
def F3x.ok (h : Hdr) (o : F3x) : Bool := h.okA o.a.isReg && o.a.okFor o.t && o.b.okFor o.t

/-- The terms that are the reading of some word of the spec's encoding. -/
def wellFormed : Instr → Bool
  | .nop h | .bra h _ | .call h _ | .ret h | .exit h | .yield h => h.okNoRu
  | .brx h _ | .callx h _ => h.ok
  | .voteAny h d p | .voteAll h d p => h.okNoRu && predOk d && p.ok
  | .voteMask h _ p => h.okNoRu && p.ok
  | .matchAny h _ _ => h.ok
  | .matchAll h d _ => h.ok && predOk d
  | .iadd h o | .isub h o | .imul h o | .imad h o | .idiv h o => h.okA o.a.isReg
  | .imulh h o | .irem h o | .imin h o | .imax h o | .and h o | .or h o | .xor h o | .shl h o | .shr h o | .sar h o
  | .rot h o | .bfe h o | .bfi h o => h.okA o.a.isReg
  | .iaddc h o | .lea h o => h.okA o.a.isReg
  | .ineg h o | .iabs h o => h.okA o.a.isReg
  | .not h o | .popc h o | .clz h o | .ctz h o | .brev h o | .mov h o => h.okA o.a.isReg
  | .icmp h _ _ d a _ => h.okA a.isReg && d.ok
  | .isel h _ o => h.okA o.a.isReg
  | .bmix h _ o => h.okA o.a.isReg
  | .movi h _ _ _ => h.okNoRu
  | .movhM h _ _ _ | .movhH h _ _ _ => h.ok
  | .plop h _ d a b => h.okNoRu && predOk d && a.ok && b.ok
  | .p2v h _ a => h.okNoRu && a.ok
  | .p2vAll h _ => h.okNoRu
  | .v2p h d a => h.okA a.isReg && predOk d
  | .v2pAll h a => h.okA a.isReg
  | .pack h o => h.okA o.a.isReg && o.t.width != 64
  | .unpkLo h o | .unpkHi h o => h.okA o.a.isReg && o.t.width != 64
  | .pair h o => h.okNoRu && o.ok
  | .fadd h o | .fsub h o | .fmul h o | .ffma h o | .fdiv h o => o.ok h
  | .fmin h o | .fmax h o => o.ok h
  | .fcmp h t _ _ d a b => h.okA a.isReg && d.ok && a.okFor t && b.okFor t
  | .fsqrt h o | .frcp h o | .frsq h o | .fexp2 h o | .flog2 h o | .fsin h o | .fcos h o | .frnd h o | .frndX h o => o.ok h
  | .fclass h t _ a => h.okA a.isReg && a.okFor t
  | .fcvt h s hi o => h.okA o.a.isReg && o.a.okFor s && (!hi || s.width != o.t.width)
  | .f2i h t s hi _ _ _ a => h.okA a.isReg && a.okFor s && (!hi || s.width != t.width)
  | .i2f h t s hi _ _ _ a => h.okA a.isReg && (!hi || s.width != t.width)
  | .fscale h t _ _ _ a _ => h.okA a.isReg && a.okFor t
  | .fdot2 h bf _ _ _ a b => h.okA a.isReg && a.okFor (if bf then .bf16 else .f16) && b.okFor (if bf then .bf16 else .f16)
  | .fflag h _ _ => h.okNoRu
  | .lpull h t _ a _ | .lpush h t _ a _ => h.okA a.isReg && a.okFor t
  | .lred h op t _ _ sat _ a => h.okA a.isReg && a.okFor t && redOk op t sat
  | .lscan h op _ t _ _ sat _ a => h.okA a.isReg && a.okFor t && redOk op t sat
  | .rnd h _ a _ | .rndF32 h _ a _ | .rndF64 h _ a _ => h.okA a.isReg
  | .qnt h _ _ _ _ _ | .dqnt h _ _ _ _ _ => h.ok
  | .ld h o => h.ok && o.okLd
  | .st h o => h.ok && o.okSt
  | .stMc h o => h.ok && o.okSt && o.sp == .g
  | .atomAdd h o => h.ok && o.ok true true
  | .atomMin h o | .atomMax h o | .atomExch h o => h.ok && o.ok false true
  | .atomAnd h o | .atomOr h o | .atomXor h o => h.ok && o.ok false false
  | .cas h spc _ sc _ _ _ => h.ok && spc != .stk && scopeOk spc sc
  | .redAdd h o => h.ok && o.okRed true true
  | .redMin h o | .redMax h o => h.ok && o.okRed false true
  | .redAnd h o | .redOr h o | .redXor h o => h.ok && o.okRed false false
  | .fenceAcq h _ | .fenceRel h _ | .fenceSc h _ | .fenceUo h _ => h.okNoRu
  | .waitaddr h o => h.ok && o.sp != .stk && scopeOk o.sp o.sc && (o.ord == .rlx || o.ord == .acq)
  | .wake h o => h.ok && o.sp != .stk && scopeOk o.sp o.sc && (o.ord == .rlx || o.ord == .rel)
  | .pfL1 h _ | .pfL2 h _ => h.ok
  | .sopenR h _ _ | .sopenW h _ _ => h.ok
  | .snext h _ _ => h.okNoRu
  | .stest h d _ | .sclose h d _ => h.okNoRu && predOk d
  | .sput h _ _ => h.ok
  | .pginfo h _ _ => h.ok
  | .tlbiPg h _ d _ _ => h.ok && predOk d
  | .tlbiCtx h _ d _ | .tlbiAll h _ d => h.okNoRu && predOk d
  | .rxld h _ i => h.okA i.isReg
  | .rxst h i _ => h.okA i.isReg
  | .shpget h _ _ | .shpsetU h _ _ | .shpsetA h _ _ | .shpsetG h _ _ => h.ok
  | .fspawn h d _ _ => h.ok && predOk d
  | .fexit h | .fbarArrive h | .fbarWait h | .fbarSync h | .fstat h _ => h.okNoRu
  | .plres h d _ _ => h.okNoRu && predOk d
  | .plrel h _ => h.okNoRu
  | .cvsetN h _ _ => h.okNoRu
  | .cvsetF h _ | .cvsign h _ => h.okNoRu
  | .mma h o => h.ok && noVz o.a o.t.regs
  | .mmaCv h _ o => h.ok && noVz o.a o.t.regs
  | .mmaShape h _ pb => h.okNoRu && pb.ok
  | .accld h o => h.okNoRu && o.ok .acq
  | .accst h o => h.okNoRu && o.ok .rel
  | .acczero h _ | .tlive h _ => h.okNoRu
  | .cpy h o => h.ok && o.ok 2
  | .gth h o | .sct h o => h.ok && o.ok 3
  | .pub h _ a => h.okA a.isReg
  | .pubReg h d _ _ => h.ok && predOk d
  | .pubUnreg h _ => h.okNoRu
  | .barv h _ a | .bars h _ a => h.okA a.isReg
  | .barw h _ => h.okNoRu
  | .barq h d _ => h.okNoRu && predOk d
  | .barqSt h _ _ => h.okNoRu
  | .qputM h d _ _ => h.ok && predOk d
  | .qputV h d a _ => h.okA a.isReg && predOk d
  | .task h d _ _ => h.ok && predOk d
  | .tend h => h.okNoRu
  | .launch h _ _ => h.ok
  | .join h _ a | .joinPoll h _ a => h.okA a.isReg
  | .qfireEx h d q | .qfireGn h d q => h.okA q.isReg && predOk d
  | .qstat h _ q => h.okA q.isReg
  | .qstatArg h _ _ => h.okNoRu
  | .vappEye h _ a _ | .vappLight h _ a _ => h.ok && noVz a 8
  | .vseal h _ d a => h.ok && predOk d && noVz a 1
  | .vld h _ d g _ => h.ok && predOk d && noVz g 8
  | .vcon h _ d w g => h.ok && predOk d && noVz w 1 && noVz g 4
  | .vconAll h _ d w g => h.ok && predOk d && noVz w 9 && noVz g 4
  | .vmrg h _ d w g => h.ok && predOk d && noVz w 1 && noVz g 4
  | .vrew h d a _ => h.ok && predOk d && noVz a 1
  | .vpin h d a | .vunpin h d a => h.ok && predOk d && noVz a 1
  | .vframe h _ => h.okNoRu
  | .qnins h _ _ a _ => h.ok && noVz a 1
  | .qnbld h _ _ a pb => h.ok && noVz a 3 && pb.ok
  | .qnset h _ _ _ => h.ok
  | .qnwalk h _ d a _ => h.ok && predOk d && noVz a 1
  | .qnnext h _ => h.okNoRu
  | .qnend h d => h.okNoRu && predOk d
  | .qnsum h k d g => h.ok && predOk d && k.toNat ≤ 12 && noVz g 8
  | .trap h _ | .brk h _ => h.okNoRu
  | .sysr h _ a => h.okA a.isReg
  | .sysw h a _ => h.okA a.isReg
  | .haltCtx h d a | .haltCore h d a _ | .rfe h d a _ => h.okA a.isReg && predOk d
  | .clk h _ => h.okNoRu
  | .sleepAbs h a | .sleepRel h a => h.okA a.isReg
  | .mark h a _ | .markAll h a _ => h.okA a.isReg
  | .resultReturn .. | .holdLimit .. | .helperReady .. | .overlayLoadComplete .. | .frameFillComplete .. | .zeroingComplete ..
  | .waitaddrDeadline .. | .sleepWake .. | .streamRunAhead .. | .streamDrainComplete .. | .trowelCommandStart ..
  | .completionArrival .. | .commandFault .. | .flipPerform .. | .mmaComplete .. | .buildComplete .. | .walkItemPush ..
  | .vertexRetirement .. | .vertexSpill .. | .launchDispatch .. | .teamPlacement .. | .teamRetirement .. | .gridRetirement ..
  | .waveReleaseTimer .. | .waveSteal .. | .expertFire .. | .expertTimer .. | .hostAppend .. | .hostWindowWrite ..
  | .hostWindowRead .. | .ccmdCreate .. | .ccmdStart .. | .ccmdHalt .. | .ccmdDestroy .. | .qsel .. | .gsel .. | .dstopt ..
  | .controlRegisterWrite .. | .tset .. | .trarm .. | .debugThreadStop .. | .preemptionDecision | .timeSliceExpiry ..
  | .haltRequest .. | .saveComplete .. | .teamRestore .. | .faultRecordWrite .. | .stallSample | .rmaWrite .. | .rmaRead ..
  | .serviceSend .. | .peerAtomic .. | .ptpMessage .. | .holdover | .flitReplay .. | .linkFailure .. | .powerCapSet ..
  | .clockStep .. | .dieShutdown .. | .powerGate .. | .gatedCoreWake .. | .bootRomCheck .. | .monitorInit .. | .serviceLoad ..
  | .regionReserve | .pldmDiscovery | .pldmSensors | .firmwareUpdate .. | .attestation .. | .accessTableChange ..
  | .softErrorCorrected .. | .errorWindowAge .. | .uncorrectableError .. | .storePerform .. | .destroyComplete ..
  | .hostLinkTraining .. => false

end Sys2Proof
end

