-- ==== Sys2Proof/Decode.lean ====
section
/-!
DEFINITION. Decoding and encoding of instruction words (04_encoding R42 to R66 and the encoding rule of each family). Decoding
has two stages: 96 bits to the fields of R42, R48 and R49, then fields to a term by major opcode (R64). Encoding uses the same
fields. Every refusal has a name.
-/

namespace Sys2Proof

/-- Why bytes are not an instruction: `truncated`, fewer bytes than the word or its parameter words; `paramWord`, major opcode
0xF0 outside a parameter block, a landing violation (R63); the rest are illegal instructions (R66). -/
inductive DecodeErr where
  | truncated
  | paramWord
  | reservedBits
  | reservedMajor (major : Nat)
  | family (major : Nat)
  | params
  | illFormed
  deriving DecidableEq, Repr

/-- The sub-fields of the D field (R48). -/
structure RawD where
  kind : BitVec 2
  idx : BitVec 8
  ty : BitVec 4
  rnd : BitVec 2
  sat : Bool
  ftz : Bool
  sc : BitVec 2
  deriving DecidableEq, Repr

/-- An A or B field by its kind (R49). -/
inductive RawS where
  | vec (idx : BitVec 8) (pat : BitVec 3) (amt : BitVec 6) (neg : Bool) (abs : Bool) (ord : BitVec 3)
  | imm (v : BitVec 22)
  | spec (idx : BitVec 8) (rest : BitVec 14)
  | pred (idx : BitVec 8) (rest : BitVec 14)
  deriving DecidableEq, Repr

/-- A standard word's fields (R42). -/
structure RawWord where
  major : BitVec 8
  sub : BitVec 4
  h : Hdr
  d : RawD
  a : RawS
  b : RawS
  deriving DecidableEq, Repr

/-! ### Bits and fields -/

/-- Bit `i` of a word. -/
def bitAt {n : Nat} (w : BitVec n) (i : Nat) : Bool := w.getLsbD i

/-- Bits 83 to 70 of a word (R42). -/
def unpackHdr (w : IWord) : Hdr :=
  { neg := bitAt w 83, guard := w.extractLsb' 78 5, stall := w.extractLsb' 74 4, sw := bitAt w 73, ru := bitAt w 72,
    lp := bitAt w 71, tm := bitAt w 70 }

/-- The 16 bits 83 to 68 that R42 gives a header; bits 69:68 are zero. -/
def packHdr (h : Hdr) : BitVec 16 :=
  BitVec.ofBool h.neg ++ h.guard ++ h.stall ++ BitVec.ofBool h.sw ++ BitVec.ofBool h.ru ++ BitVec.ofBool h.lp ++
    BitVec.ofBool h.tm ++ (0 : BitVec 2)

/-- The D field's sub-fields (R48). -/
def unpackD (w : BitVec 20) : RawD :=
  { kind := w.extractLsb' 18 2, idx := w.extractLsb' 10 8, ty := w.extractLsb' 6 4, rnd := w.extractLsb' 4 2,
    sat := bitAt w 3, ftz := bitAt w 2, sc := w.extractLsb' 0 2 }

/-- The D field from its sub-fields (R48). -/
def packD (d : RawD) : BitVec 20 :=
  d.kind ++ d.idx ++ d.ty ++ d.rnd ++ BitVec.ofBool d.sat ++ BitVec.ofBool d.ftz ++ d.sc

/-- An A or B field by kind (R49). -/
def unpackS (w : BitVec 24) : RawS :=
  match (w.extractLsb' 22 2).toNat with
  | 0 => .vec (w.extractLsb' 14 8) (w.extractLsb' 11 3) (w.extractLsb' 5 6) (bitAt w 4) (bitAt w 3) (w.extractLsb' 0 3)
  | 1 => .imm (w.extractLsb' 0 22)
  | 2 => .spec (w.extractLsb' 14 8) (w.extractLsb' 0 14)
  | _ => .pred (w.extractLsb' 14 8) (w.extractLsb' 0 14)

/-- An A or B field's bits (R49). -/
def packS : RawS → BitVec 24
  | .vec i p k n a o => (0 : BitVec 2) ++ i ++ p ++ k ++ BitVec.ofBool n ++ BitVec.ofBool a ++ o
  | .imm v => (1 : BitVec 2) ++ v
  | .spec i r => (2 : BitVec 2) ++ i ++ r
  | .pred i r => (3 : BitVec 2) ++ i ++ r

/-- The fields of a standard word (R42). -/
def unpackWord (w : IWord) : RawWord :=
  { major := w.extractLsb' 88 8, sub := w.extractLsb' 84 4, h := unpackHdr w, d := unpackD (w.extractLsb' 48 20),
    a := unpackS (w.extractLsb' 24 24), b := unpackS (w.extractLsb' 0 24) }

/-- The 96 bits of a standard word (R42). -/
def packWord (r : RawWord) : IWord :=
  r.major ++ r.sub ++ packHdr r.h ++ packD r.d ++ packS r.a ++ packS r.b

/-! ### Codes of the enumerations -/

/-- R22. -/
def ITy.code : ITy → BitVec 4
  | .i8 => 0 | .i16 => 1 | .i32 => 2 | .i64 => 3 | .n8 => 4 | .n16 => 5 | .n32 => 6 | .n64 => 7

/-- R22. -/
def ityOf (c : BitVec 4) : Option ITy :=
  match c.toNat with
  | 0 => some .i8 | 1 => some .i16 | 2 => some .i32 | 3 => some .i64
  | 4 => some .n8 | 5 => some .n16 | 6 => some .n32 | 7 => some .n64 | _ => none

/-- R22. -/
def FTy.code : FTy → BitVec 4
  | .f16 => 8 | .bf16 => 9 | .f32 => 10 | .f64 => 11

/-- R22. -/
def ftyOf (c : BitVec 4) : Option FTy :=
  match c.toNat with
  | 8 => some .f16 | 9 => some .bf16 | 10 => some .f32 | 11 => some .f64 | _ => none

/-- R22. -/
def NTy.code : NTy → BitVec 4
  | .int t => t.code
  | .flt t => t.code

/-- R22. -/
def ntyOf (c : BitVec 4) : Option NTy :=
  match ityOf c with
  | some t => some (.int t)
  | none => (ftyOf c).map .flt

/-- R22. -/
def BTy.code : BTy → BitVec 4
  | .bd2 => 12 | .bd4 => 13 | .bd7 => 14

/-- R22. -/
def btyOf (c : BitVec 4) : Option BTy :=
  match c.toNat with
  | 12 => some .bd2 | 13 => some .bd4 | 14 => some .bd7 | _ => none

/-- R207. -/
def MmaTy.code : MmaTy → BitVec 4
  | .f16 => 8 | .bf16 => 9 | .bd2 => 12 | .bd4 => 13 | .bd7 => 14

/-- R207. -/
def mmatyOf (c : BitVec 4) : Option MmaTy :=
  match c.toNat with
  | 8 => some .f16 | 9 => some .bf16 | 12 => some .bd2 | 13 => some .bd4 | 14 => some .bd7 | _ => none

/-- R164. -/
def ATy.code : ATy → BitVec 4
  | .i32 => 2 | .i64 => 3 | .n32 => 6 | .n64 => 7 | .f32 => 10 | .f64 => 11

/-- R164. -/
def atyOf (c : BitVec 4) : Option ATy :=
  match c.toNat with
  | 2 => some .i32 | 3 => some .i64 | 6 => some .n32 | 7 => some .n64 | 10 => some .f32 | 11 => some .f64 | _ => none

/-- R164. -/
def CTy.code : CTy → BitVec 4
  | .i32 => 2 | .i64 => 3 | .n32 => 6 | .n64 => 7

/-- R164. -/
def ctyOf (c : BitVec 4) : Option CTy :=
  match c.toNat with
  | 2 => some .i32 | 3 => some .i64 | 6 => some .n32 | 7 => some .n64 | _ => none

/-- R27. -/
def Rnd.code : Rnd → BitVec 2
  | .rn => 0 | .rz => 1 | .rp => 2 | .rm => 3

/-- R27. -/
def rndOf (c : BitVec 2) : Rnd :=
  match c.toNat with
  | 0 => .rn | 1 => .rz | 2 => .rp | _ => .rm

/-- R48. -/
def Scope.code : Scope → BitVec 2
  | .team => 0 | .die => 1 | .dev => 2 | .sys => 3

/-- R48. -/
def scopeOf (c : BitVec 2) : Scope :=
  match c.toNat with
  | 0 => .team | 1 => .die | 2 => .dev | _ => .sys

/-- R49. -/
def MOrd.code : MOrd → BitVec 3
  | .rlx => 0 | .acq => 1 | .rel => 2 | .sc => 3

/-- R49. -/
def ordOf (c : BitVec 3) : Option MOrd :=
  match c.toNat with
  | 0 => some .rlx | 1 => some .acq | 2 => some .rel | 3 => some .sc | _ => none

/-- R56. -/
def Space.code : Space → BitVec 2
  | .g => 0 | .sp => 1 | .stk => 2

/-- R56. -/
def spaceOf (c : BitVec 2) : Option Space :=
  match c.toNat with
  | 0 => some .g | 1 => some .sp | 2 => some .stk | _ => none

/-- R165. -/
def Size.code : Size → BitVec 2
  | .e => 0 | .r => 1 | .r2 => 2 | .r4 => 3

/-- R165. -/
def sizeOf' (c : BitVec 2) : Size :=
  match c.toNat with
  | 0 => .e | 1 => .r | 2 => .r2 | _ => .r4

/-- R118. -/
def ICond.code : ICond → BitVec 3
  | .eq => 0 | .ne => 1 | .lt => 2 | .le => 3 | .gt => 4 | .ge => 5

/-- R118. -/
def icondOf (c : BitVec 3) : Option ICond :=
  match c.toNat with
  | 0 => some .eq | 1 => some .ne | 2 => some .lt | 3 => some .le | 4 => some .gt | 5 => some .ge | _ => none

/-- R133. -/
def FCond.code : FCond → BitVec 3
  | .eq => 0 | .ne => 1 | .lt => 2 | .le => 3 | .gt => 4 | .ge => 5 | .un => 6 | .ord => 7

/-- R133. -/
def fcondOf (c : BitVec 3) : FCond :=
  match c.toNat with
  | 0 => .eq | 1 => .ne | 2 => .lt | 3 => .le | 4 => .gt | 5 => .ge | 6 => .un | _ => .ord

/-- R144. -/
def RedOp.code : RedOp → BitVec 3
  | .add => 0 | .min => 1 | .max => 2 | .and => 3 | .or => 4 | .xor => 5

/-- R144. -/
def redopOf (c : BitVec 3) : Option RedOp :=
  match c.toNat with
  | 0 => some .add | 1 => some .min | 2 => some .max | 3 => some .and | 4 => some .or | 5 => some .xor | _ => none

/-- R51. -/
def SReg.code : SReg → BitVec 8
  | .lane => 0x80 | .tid => 0x81 | .team => 0x82 | .launch => 0x83 | .fibre => 0x84 | .depth => 0x85 | .tsize => 0x86
  | .width => 0x87 | .core => 0x88 | .psig => 0x89 | .agelimit => 0x8A | .chk => 0x8B | .mwin => 0x8C | .wavewait => 0x8D
  | .stklim => 0x8E

/-- R51; `sr.fflags`, 0x8F, is no operand. -/
def sregOf (c : BitVec 8) : Option SReg :=
  match c.toNat with
  | 0x80 => some .lane | 0x81 => some .tid | 0x82 => some .team | 0x83 => some .launch | 0x84 => some .fibre
  | 0x85 => some .depth | 0x86 => some .tsize | 0x87 => some .width | 0x88 => some .core | 0x89 => some .psig
  | 0x8A => some .agelimit | 0x8B => some .chk | 0x8C => some .mwin | 0x8D => some .wavewait | 0x8E => some .stklim
  | _ => none

/-- R213: source and destination spaces. -/
def TSpace.code : TSpace → BitVec 2
  | .g => 0 | .sp => 1 | .pl => 2 | .ta => 3

/-- R213. -/
def tspaceOf (c : BitVec 2) : TSpace :=
  match c.toNat with
  | 0 => .g | 1 => .sp | 2 => .pl | _ => .ta

/-- R58. -/
def HalfOp.code : HalfOp → BitVec 6
  | .hnop => 0x00 | .iadd => 0x01 | .isub => 0x02 | .imul => 0x03 | .imins => 0x04 | .iminu => 0x05 | .imaxs => 0x06
  | .imaxu => 0x07 | .and => 0x08 | .or => 0x09 | .xor => 0x0A | .shl => 0x0B | .shr => 0x0C | .sar => 0x0D | .mov => 0x0E
  | .not => 0x0F | .fadd => 0x20 | .fsub => 0x21 | .fmul => 0x22 | .ffma => 0x23 | .fmin => 0x24 | .fmax => 0x25

/-- R58. -/
def halfopOf (c : BitVec 6) : Option HalfOp :=
  match c.toNat with
  | 0x00 => some .hnop | 0x01 => some .iadd | 0x02 => some .isub | 0x03 => some .imul | 0x04 => some .imins
  | 0x05 => some .iminu | 0x06 => some .imaxs | 0x07 => some .imaxu | 0x08 => some .and | 0x09 => some .or
  | 0x0A => some .xor | 0x0B => some .shl | 0x0C => some .shr | 0x0D => some .sar | 0x0E => some .mov | 0x0F => some .not
  | 0x20 => some .fadd | 0x21 => some .fsub | 0x22 => some .fmul | 0x23 => some .ffma | 0x24 => some .fmin
  | 0x25 => some .fmax | _ => none

/-! ### Operand fields -/

/-- Continue only when the check holds. -/
def req (b : Bool) : Option Unit := if b then some () else none

/-- R53: a pattern and its amount; a non-zero amount with pattern 0 or 4, and pattern 7, are refused. -/
def patOf (p : BitVec 3) (k : BitVec 6) : Option Pat :=
  match p.toNat with
  | 0 => if k = 0 then some .none else none
  | 1 => some (.rot k)
  | 2 => some (.bc k)
  | 3 => some (.bf k)
  | 4 => if k = 0 then some .mir else none
  | 5 => some (.srot k)
  | 6 => some (.sbc k)
  | _ => none

/-- R53. -/
def Pat.code : Pat → BitVec 3 × BitVec 6
  | .none => (0, 0) | .rot k => (1, k) | .bc k => (2, k) | .bf k => (3, k) | .mir => (4, 0) | .srot k => (5, k)
  | .sbc k => (6, k)

/-- An integer source (R113). -/
def rS : RawS → Option Src
  | .vec i p k n a o => if o = 0 then (patOf p k).map fun q => .reg ⟨i, q, n, a⟩ else none
  | .imm v => some (.imm v)
  | .spec i r => if r = 0 then (sregOf i).map .sr else none
  | .pred _ _ => none

/-- R113. -/
def eS : Src → RawS
  | .reg r => .vec r.idx r.pat.code.1 r.pat.code.2 r.neg r.abs 0
  | .imm v => .imm v
  | .sr n => .spec n.code 0

/-- A float source (R129). -/
def rF : RawS → Option FSrc
  | .vec i p k n a o => if o = 0 then (patOf p k).map fun q => .reg ⟨i, q, n, a⟩ else none
  | .imm v => some (.imm v)
  | _ => none

/-- R129. -/
def eF : FSrc → RawS
  | .reg r => .vec r.idx r.pat.code.1 r.pat.code.2 r.neg r.abs 0
  | .imm v => .imm v

/-- A vector register with no pattern or modifier. -/
def rV : RawS → Option Reg
  | .vec i p k n a o => if p = 0 ∧ k = 0 ∧ n = false ∧ a = false ∧ o = 0 then some i else none
  | _ => none

/-- A plain vector register. -/
def eV (r : Reg) : RawS := .vec r 0 0 false false 0

/-- A vector register with a pattern, as `match` takes it (R95). -/
def rVP : RawS → Option RegPat
  | .vec i p k n a o => if n = false ∧ a = false ∧ o = 0 then (patOf p k).map fun q => ⟨i, q⟩ else none
  | _ => none

/-- R95. -/
def eVP (r : RegPat) : RawS := .vec r.idx r.pat.code.1 r.pat.code.2 false false 0

/-- An immediate. -/
def rI : RawS → Option (BitVec 22)
  | .imm v => some v
  | _ => none

/-- An immediate of `n` bits, the bits above zero. -/
def rIw (n : Nat) : RawS → Option (BitVec n)
  | .imm v => if v.toNat < 2 ^ n then some (v.setWidth n) else none
  | _ => none

/-- An immediate of `n` bits. -/
def eIw {n : Nat} (v : BitVec n) : RawS := .imm (v.setWidth 22)

/-- A plain vector register or an immediate. -/
def rVI : RawS → Option RegImm
  | .imm v => some (.imm v)
  | f => (rV f).map .reg

/-- A plain vector register or an immediate. -/
def eVI : RegImm → RawS
  | .reg r => eV r
  | .imm v => .imm v

/-- The all-zero field. -/
def rawZero : RawS := .vec 0 0 0 false false 0

/-- A field that must be all zero. -/
def rZ (f : RawS) : Option Unit := if f = rawZero then some () else none

/-- A predicate source: index, negate; the other bits zero (R49). Bit 4 of the field is negate. -/
def rP : RawS → Option POp
  | .pred i r =>
    if i.toNat < 32 then
      if r = 0 then some ⟨i.setWidth 5, false⟩ else if r = 16 then some ⟨i.setWidth 5, true⟩ else none
    else none
  | _ => none

/-- R49. -/
def eP (p : POp) : RawS := .pred (p.idx.setWidth 8) (if p.neg then 16 else 0)

/-- A name of the special index space: `base` to `base + 2^n - 1` (R50). -/
def rN (base : Nat) (n : Nat) : RawS → Option (BitVec n)
  | .spec i r => if r = 0 ∧ base ≤ i.toNat ∧ i.toNat < base + 2 ^ n then some (BitVec.ofNat n (i.toNat - base)) else none
  | _ => none

/-- R50. -/
def eN (base : Nat) {n : Nat} (v : BitVec n) : RawS := .spec (BitVec.ofNat 8 (base + v.toNat)) 0

/-- The A field of a memory instruction: base register and ordering (R56). -/
def rM : RawS → Option (Reg × MOrd)
  | .vec i p k n a o => if p = 0 ∧ k = 0 ∧ n = false ∧ a = false then (ordOf o).map fun q => (i, q) else none
  | _ => none

/-- R56. -/
def eM (r : Reg) (o : MOrd) : RawS := .vec r 0 0 false false o.code

/-! ### Destination fields -/

/-- An integer destination with `.sat` allowed (R113). -/
def dInt (d : RawD) : Option (Reg × ITy × Bool) :=
  if d.kind = 0 ∧ d.rnd = 0 ∧ d.ftz = false ∧ d.sc = 0 then (ityOf d.ty).map fun t => (d.idx, t, d.sat) else none

/-- R113. -/
def eDInt (r : Reg) (t : ITy) (sat : Bool) : RawD := ⟨0, r, t.code, 0, sat, false, 0⟩

/-- A float destination (R129). -/
def dFlt (d : RawD) : Option (Reg × FTy × Rnd × Bool) :=
  if d.kind = 0 ∧ d.sat = false ∧ d.sc = 0 then (ftyOf d.ty).map fun t => (d.idx, t, rndOf d.rnd, d.ftz) else none

/-- R129. -/
def eDFlt (r : Reg) (t : FTy) (m : Rnd) (z : Bool) : RawD := ⟨0, r, t.code, m.code, false, z, 0⟩

/-- A vector destination of one type, modifiers zero. -/
def dV (t : BitVec 4) (d : RawD) : Option Reg :=
  if d.kind = 0 ∧ d.ty = t ∧ d.rnd = 0 ∧ d.sat = false ∧ d.ftz = false ∧ d.sc = 0 then some d.idx else none

/-- A vector destination of one type. -/
def eDV (t : BitVec 4) (r : Reg) : RawD := ⟨0, r, t, 0, false, false, 0⟩

/-- A vector destination of type `n64` with a scope. -/
def dVs (d : RawD) : Option (Reg × Scope) :=
  if d.kind = 0 ∧ d.ty = 7 ∧ d.rnd = 0 ∧ d.sat = false ∧ d.ftz = false then some (d.idx, scopeOf d.sc) else none

/-- A predicate destination of one type, modifiers zero (R48). -/
def dP (t : BitVec 4) (d : RawD) : Option PredIdx :=
  if d.kind = 1 ∧ d.idx.toNat < 32 ∧ d.ty = t ∧ d.rnd = 0 ∧ d.sat = false ∧ d.ftz = false ∧ d.sc = 0 then
    some (d.idx.setWidth 5) else none

/-- R48. -/
def eDP (t : BitVec 4) (p : PredIdx) : RawD := ⟨1, p.setWidth 8, t, 0, false, false, 0⟩

/-- A predicate destination of type 0x0 with a scope. -/
def dPs (d : RawD) : Option (PredIdx × Scope) :=
  if d.kind = 1 ∧ d.idx.toNat < 32 ∧ d.ty = 0 ∧ d.rnd = 0 ∧ d.sat = false ∧ d.ftz = false then
    some (d.idx.setWidth 5, scopeOf d.sc) else none

/-- A predicate destination with a scope. -/
def eDPs (p : PredIdx) (sc : Scope) : RawD := ⟨1, p.setWidth 8, 0, 0, false, false, sc.code⟩

/-- No destination (R48). -/
def rawNone : RawD := ⟨3, 0, 0, 0, false, false, 0⟩

/-- No destination, 0xC0000. -/
def dNone (d : RawD) : Option Unit := if d = rawNone then some () else none

/-- No destination, with a scope. -/
def dNoneS (d : RawD) : Option Scope := if d = { rawNone with sc := d.sc } then some (scopeOf d.sc) else none

/-- No destination, with a scope. -/
def eDNoneS (sc : Scope) : RawD := { rawNone with sc := sc.code }

/-- A special name of type `t`, modifiers zero (R50). -/
def dN (base n : Nat) (t : BitVec 4) (d : RawD) : Option (BitVec n) :=
  if d.kind = 2 ∧ d.ty = t ∧ d.rnd = 0 ∧ d.sat = false ∧ d.ftz = false ∧ d.sc = 0 ∧ base ≤ d.idx.toNat ∧
      d.idx.toNat < base + 2 ^ n then some (BitVec.ofNat n (d.idx.toNat - base)) else none

/-- R50. -/
def eDN (base : Nat) {n : Nat} (t : BitVec 4) (v : BitVec n) : RawD :=
  ⟨2, BitVec.ofNat 8 (base + v.toNat), t, 0, false, false, 0⟩

/-- An integer or float destination of a cross-lane move: rounding, saturate and flush zero (R130). -/
def dNum (d : RawD) : Option (Reg × NTy) :=
  if d.kind = 0 ∧ d.rnd = 0 ∧ d.sat = false ∧ d.ftz = false ∧ d.sc = 0 then (ntyOf d.ty).map fun t => (d.idx, t) else none

/-- A source whose class follows the type: float source for a float type, integer source otherwise (R130). -/
def rFS (t : NTy) (f : RawS) : Option Src :=
  match t, rS f with
  | .flt _, some (.sr _) => none
  | _, r => r

/-! ### Families -/

/-- Integer operation with two sources and `.sat` (R114). -/
def decI3s (w : RawWord) (mk : Hdr → I3s → Instr) : Option Instr := do
  req (w.sub == 0)
  let (r, t, sat) ← dInt w.d
  let a ← rS w.a
  let b ← rS w.b
  some (mk w.h ⟨t, sat, r, a, b⟩)

/-- Integer operation with two sources (R114). -/
def decI3 (w : RawWord) (mk : Hdr → I3 → Instr) : Option Instr := do
  req (w.sub == 0)
  let (r, t, sat) ← dInt w.d
  req (!sat)
  let a ← rS w.a
  let b ← rS w.b
  some (mk w.h ⟨t, r, a, b⟩)

/-- Integer operation with one source and `.sat` (R114). -/
def decI2s (w : RawWord) (mk : Hdr → I2s → Instr) : Option Instr := do
  req (w.sub == 0)
  let (r, t, sat) ← dInt w.d
  let a ← rS w.a
  rZ w.b
  some (mk w.h ⟨t, sat, r, a⟩)

/-- Integer operation with one source (R114). -/
def decI2 (w : RawWord) (mk : Hdr → I2 → Instr) : Option Instr := do
  let (r, t, sat) ← dInt w.d
  req (!sat)
  let a ← rS w.a
  rZ w.b
  some (mk w.h ⟨t, r, a⟩)

/-- `iaddc` and `lea`: a 64-bit type and four bits in the sub-operation (R114). -/
def decI64 (w : RawWord) (mk : Hdr → I64 → Instr) : Option Instr := do
  let (r, t, sat) ← dInt w.d
  req (!sat && t.width == 64)
  let a ← rS w.a
  let b ← rS w.b
  some (mk w.h ⟨t == .n64, w.sub, r, a, b⟩)

/-- Float operation with two sources (R130). -/
def decF3 (w : RawWord) (mk : Hdr → F3 → Instr) : Option Instr := do
  req (w.sub == 0)
  let (r, t, m, z) ← dFlt w.d
  let a ← rF w.a
  let b ← rF w.b
  some (mk w.h ⟨t, m, z, r, a, b⟩)

/-- `fmin`, `fmax` (R130). -/
def decF3x (w : RawWord) (mk : Hdr → F3x → Instr) : Option Instr := do
  req (w.sub == 0)
  let (r, t, m, z) ← dFlt w.d
  req (m == .rn)
  let a ← rF w.a
  let b ← rF w.b
  some (mk w.h ⟨t, z, r, a, b⟩)

/-- Float operation with one source (R130). -/
def decF2 (w : RawWord) (mk : Hdr → F2 → Instr) : Option Instr := do
  let (r, t, m, z) ← dFlt w.d
  let a ← rF w.a
  rZ w.b
  some (mk w.h ⟨t, m, z, r, a⟩)

/-- The destination of a compare (R118, R133): its type field is checked by the caller. -/
def decCmpD (kind : BitVec 2) (idx : BitVec 8) (any : Bool) : Option CmpDst :=
  match kind.toNat with
  | 0 => if any then none else some (.vec idx)
  | 1 => if idx.toNat < 32 then some (.pred (idx.setWidth 5) any) else none
  | _ => none

/-- R118. -/
def decIcmp (w : RawWord) : Option Instr := do
  let c ← icondOf (w.sub.setWidth 3)
  let t ← ityOf w.d.ty
  req (w.d.rnd == 0 && !w.d.sat && !w.d.ftz && w.d.sc == 0)
  let d ← decCmpD w.d.kind w.d.idx (w.sub.getLsbD 3)
  let a ← rS w.a
  let b ← rS w.b
  some (.icmp w.h t c d a b)

/-- R133. -/
def decFcmp (w : RawWord) : Option Instr := do
  let t ← ftyOf w.d.ty
  req (w.d.rnd == 0 && !w.d.sat && w.d.sc == 0)
  let d ← decCmpD w.d.kind w.d.idx (w.sub.getLsbD 3)
  let a ← rF w.a
  let b ← rF w.b
  some (.fcmp w.h t w.d.ftz (fcondOf (w.sub.setWidth 3)) d a b)

/-- `bmix`: D bits 53:50 hold T bits 7:4 (R114). -/
def decBmix (w : RawWord) : Option Instr := do
  req (w.d.kind == 0 && w.d.sc == 0)
  let t ← ityOf w.d.ty
  let a ← rS w.a
  let b ← rS w.b
  some (.bmix w.h (w.d.rnd ++ BitVec.ofBool w.d.sat ++ BitVec.ofBool w.d.ftz ++ w.sub) ⟨t, w.d.idx, a, b⟩)

/-- The offset operand of R56. -/
def rAddr (w : RawWord) : Option (MAddr × MOrd) := do
  let (r, o) ← rM w.a
  let b ← rVI w.b
  some (⟨r, b⟩, o)

/-- `ld`, `st` and `st.mc` (R164, R165). -/
def decMem (w : RawWord) (store : Bool) : Option Instr := do
  let spc ← spaceOf (w.sub.setWidth 2)
  let (addr, o) ← rAddr w
  req (w.d.kind == 0 && w.d.rnd == 0 && !w.d.ftz)
  let t ← ntyOf w.d.ty
  let m : MemOp := ⟨sizeOf' (w.sub.extractLsb' 2 2), spc, o, scopeOf w.d.sc, t, w.d.idx, addr⟩
  match store, w.d.sat with
  | true, false => some (.st w.h m)
  | true, true => some (.stMc w.h m)
  | false, false => some (.ld w.h m)
  | false, true => none

/-- `atom` and `red`: operation bits 1:0 in sub-operation bits 87:86 and bits 3:2 in D bits 53:52 (R170). -/
def decAtom (w : RawWord) (red : Bool) : Option Instr := do
  let spc ← spaceOf (w.sub.setWidth 2)
  let (addr, o) ← rAddr w
  req (w.d.kind == 0 && !w.d.sat)
  let t ← atyOf w.d.ty
  let m : AtomOp := ⟨spc, o, scopeOf w.d.sc, t, w.d.ftz, w.d.idx, addr⟩
  match red, (w.d.rnd ++ w.sub.extractLsb' 2 2 : BitVec 4).toNat with
  | false, 0 => some (.atomAdd w.h m)
  | false, 1 => some (.atomMin w.h m)
  | false, 2 => some (.atomMax w.h m)
  | false, 3 => some (.atomExch w.h m)
  | false, 4 => some (.atomAnd w.h m)
  | false, 5 => some (.atomOr w.h m)
  | false, 6 => some (.atomXor w.h m)
  | true, 0 => some (.redAdd w.h m)
  | true, 1 => some (.redMin w.h m)
  | true, 2 => some (.redMax w.h m)
  | true, 4 => some (.redAnd w.h m)
  | true, 5 => some (.redOr w.h m)
  | true, 6 => some (.redXor w.h m)
  | _, _ => none

/-- `cas` (R164). -/
def decCas (w : RawWord) : Option Instr := do
  req (w.sub.extractLsb' 2 2 == 0)
  let spc ← spaceOf (w.sub.setWidth 2)
  let (addr, o) ← rAddr w
  req (w.d.kind == 0 && w.d.rnd == 0 && !w.d.sat && !w.d.ftz)
  let t ← ctyOf w.d.ty
  some (.cas w.h spc o (scopeOf w.d.sc) t w.d.idx addr)

/-- `waitaddr` and `wake` (R164). -/
def decWait (w : RawWord) (mk : Hdr → WaitOp → Instr) : Option Instr := do
  req (w.sub.extractLsb' 2 2 == 0)
  let spc ← spaceOf (w.sub.setWidth 2)
  let (addr, o) ← rAddr w
  let (r, sc) ← dVs w.d
  some (mk w.h ⟨spc, o, sc, r, addr⟩)

/-- `pf` (R164) and `pginfo` (R161): a plain `.g` address, ordering `.rlx`. -/
def decPlainAddr (w : RawWord) : Option MAddr := do
  let (addr, o) ← rAddr w
  req (o == .rlx)
  some addr

/-- `fence` (R175). -/
def decFence (w : RawWord) : Option Instr := do
  let sc ← dNoneS w.d
  rZ w.a
  rZ w.b
  match w.sub.toNat with
  | 0 => some (.fenceAcq w.h sc)
  | 1 => some (.fenceRel w.h sc)
  | 2 => some (.fenceSc w.h sc)
  | 3 => some (.fenceUo w.h sc)
  | _ => none

/-- `tlbi`: scope `.die` or `.dev` (R161). -/
def decTlbi (w : RawWord) : Option Instr := do
  let (p, sc) ← dPs w.d
  req (sc == .die || sc == .dev)
  match w.sub.toNat with
  | 0 => do
    let a ← rV w.a
    let b ← rS w.b
    some (.tlbiPg w.h (sc == .dev) p a b)
  | 1 => do
    rZ w.a
    let b ← rS w.b
    some (.tlbiCtx w.h (sc == .dev) p b)
  | 2 => do
    rZ w.a
    rZ w.b
    some (.tlbiAll w.h (sc == .dev) p)
  | _ => none

/-- `mma`: `.cv` bit 84, `.z` bit 85; D bits 53:50 hold K when `.cv` is set (R207). -/
def decMma (w : RawWord) : Option Instr := do
  req (w.sub.toNat < 4)
  let t ← mmatyOf w.d.ty
  req (w.d.kind == 2 && w.d.idx.toNat < 16 && w.d.sc == 0)
  let a ← rV w.a
  let b ← rVI w.b
  let o : MmaOp := ⟨t, w.sub.getLsbD 1, w.d.idx.setWidth 4, a, b⟩
  if w.sub.getLsbD 0 then
    some (.mmaCv w.h (w.d.rnd ++ BitVec.ofBool w.d.sat ++ BitVec.ofBool w.d.ftz) o)
  else if w.d.rnd = 0 ∧ w.d.sat = false ∧ w.d.ftz = false then some (.mma w.h o) else none

/-- `accld`, `accst` (R207). -/
def decAcc (w : RawWord) (mk : Hdr → TileMem → Instr) : Option Instr := do
  req (w.sub.extractLsb' 2 2 == 0)
  let spc ← spaceOf (w.sub.setWidth 2)
  let (addr, o) ← rAddr w
  req (w.d.kind == 2 && w.d.idx.toNat < 16 && w.d.ty == 10 && w.d.rnd == 0 && !w.d.sat && !w.d.ftz)
  some (mk w.h ⟨spc, o, scopeOf w.d.sc, w.d.idx.setWidth 4, addr⟩)

/-- `cpy`, `gth`, `sct` (R213). -/
def decTrowel (w : RawWord) (pb : ParamBlock) (mk : Hdr → TrowelOp → Instr) : Option Instr := do
  let a ← rV w.a
  rZ w.b
  let bar ← if w.d = rawNone then some none else (dN 0x10 4 0 w.d).map some
  some (mk w.h ⟨tspaceOf (w.sub.extractLsb' 2 2), tspaceOf (w.sub.setWidth 2), bar, a, pb⟩)

/-- Mortar and Quoin rows with a predicate, a scope and two plain registers. -/
def decPsVV (w : RawWord) (mk : Hdr → Scope → PredIdx → Reg → Reg → Instr) : Option Instr := do
  let (p, sc) ← dPs w.d
  let a ← rV w.a
  let b ← rV w.b
  some (mk w.h sc p a b)

/-- A predicate, an integer source and a zero field. -/
def decPS (w : RawWord) (mk : Hdr → PredIdx → Src → Instr) : Option Instr := do
  let p ← dP 0 w.d
  let a ← rS w.a
  rZ w.b
  some (mk w.h p a)

/-- A vector result of type `n64`, an integer source and a zero field. -/
def decVS (w : RawWord) (mk : Hdr → Reg → Src → Instr) : Option Instr := do
  let r ← dV 7 w.d
  let a ← rS w.a
  rZ w.b
  some (mk w.h r a)

/-- A vector result of type `n64`, a plain register and a zero field. -/
def decVV (w : RawWord) (mk : Hdr → Reg → Reg → Instr) : Option Instr := do
  let r ← dV 7 w.d
  let a ← rV w.a
  rZ w.b
  some (mk w.h r a)

/-- A predicate, a plain register and a zero field. -/
def decPV (w : RawWord) (mk : Hdr → PredIdx → Reg → Instr) : Option Instr := do
  let p ← dP 0 w.d
  let a ← rV w.a
  rZ w.b
  some (mk w.h p a)

/-- No operand at all: D none, A and B zero. -/
def decNone (w : RawWord) (i : Instr) : Option Instr := do
  dNone w.d
  rZ w.a
  rZ w.b
  some i

/-- Sub-operation 0 only. -/
def sub0 (w : RawWord) (i : Option Instr) : Option Instr := if w.sub = 0 then i else none

/-- The control family, 0x00 to 0x09 (R65, R95). -/
def decControl (w : RawWord) : Option Instr :=
  match w.major.toNat with
  | 0x00 => sub0 w (if w.d = ⟨0, 0, 0, 0, false, false, 0⟩ ∧ w.a = rawZero ∧ w.b = rawZero then some (.nop w.h) else none)
  | 0x01 => sub0 w do dNone w.d; rZ w.a; let v ← rI w.b; some (.bra w.h v)
  | 0x02 => sub0 w do dNone w.d; let a ← rV w.a; rZ w.b; some (.brx w.h a)
  | 0x03 => sub0 w do dNone w.d; rZ w.a; let v ← rI w.b; some (.call w.h v)
  | 0x04 => sub0 w do dNone w.d; let a ← rV w.a; rZ w.b; some (.callx w.h a)
  | 0x05 => sub0 w (decNone w (.ret w.h))
  | 0x06 => sub0 w (decNone w (.exit w.h))
  | 0x07 =>
    match w.sub.toNat with
    | 0 => do let d ← dP 0 w.d; let p ← rP w.a; rZ w.b; some (.voteAny w.h d p)
    | 1 => do let d ← dP 0 w.d; let p ← rP w.a; rZ w.b; some (.voteAll w.h d p)
    | 2 => do let d ← dV 7 w.d; let p ← rP w.a; rZ w.b; some (.voteMask w.h d p)
    | _ => none
  | 0x08 =>
    match w.sub.toNat with
    | 0 => do let d ← dV 7 w.d; let a ← rVP w.a; rZ w.b; some (.matchAny w.h d a)
    | 1 => do let d ← dP 7 w.d; let a ← rVP w.a; rZ w.b; some (.matchAll w.h d a)
    | _ => none
  | 0x09 => sub0 w (decNone w (.yield w.h))
  | _ => none

/-- The integer family, 0x10 to 0x37 (R114). -/
def decInteger (w : RawWord) : Option Instr :=
  match w.major.toNat with
  | 0x10 => decI3s w .iadd
  | 0x11 => decI3s w .isub
  | 0x12 => decI64 w .iaddc
  | 0x13 => decI3s w .imul
  | 0x14 => decI3 w .imulh
  | 0x15 => decI3s w .imad
  | 0x16 => decI3s w .idiv
  | 0x17 => decI3 w .irem
  | 0x18 => decI2s w .ineg
  | 0x19 => decI2s w .iabs
  | 0x1A => decI3 w .imin
  | 0x1B => decI3 w .imax
  | 0x1C => decIcmp w
  | 0x1D => decI3 { w with sub := 0 } fun h o => .isel h w.sub o
  | 0x20 => decI3 w .and
  | 0x21 => decI3 w .or
  | 0x22 => decI3 w .xor
  | 0x23 => sub0 w (decI2 w .not)
  | 0x24 => decBmix w
  | 0x25 => decI3 w .shl
  | 0x26 => decI3 w .shr
  | 0x27 => decI3 w .sar
  | 0x28 => decI3 w .rot
  | 0x29 => decI3 w .bfe
  | 0x2A => decI3 w .bfi
  | 0x2B => sub0 w (decI2 w .popc)
  | 0x2C => sub0 w (decI2 w .clz)
  | 0x2D => sub0 w (decI2 w .ctz)
  | 0x2E => sub0 w (decI2 w .brev)
  | 0x2F => decI64 w .lea
  | 0x30 => sub0 w (decI2 w .mov)
  | 0x31 => sub0 w do
      let (r, t, sat) ← dInt w.d; req (!sat); let v ← rI w.a; rZ w.b; some (.movi w.h t r v)
  | 0x32 =>
    match w.sub.toNat with
    | 0 => do let r ← dV 7 w.d; let a ← rV w.a; let v ← rI w.b; some (.movhM w.h r a v)
    | 1 => do let r ← dV 7 w.d; let a ← rV w.a; let v ← rIw 20 w.b; some (.movhH w.h r a v)
    | _ => none
  | 0x33 => do let d ← dP 0 w.d; let a ← rP w.a; let b ← rP w.b; some (.plop w.h w.sub d a b)
  | 0x34 =>
    match w.sub.toNat with
    | 0 => do let d ← dV 7 w.d; let a ← rP w.a; rZ w.b; some (.p2v w.h d a)
    | 1 => do let d ← dV 7 w.d; rZ w.a; rZ w.b; some (.p2vAll w.h d)
    | _ => none
  | 0x35 =>
    match w.sub.toNat with
    | 0 => decPS w .v2p
    | 1 => do dNone w.d; let a ← rS w.a; rZ w.b; some (.v2pAll w.h a)
    | _ => none
  | 0x36 => decI3s w .pack
  | 0x37 =>
    match w.sub.toNat with
    | 0 => decI2 w .unpkLo
    | 1 => decI2 w .unpkHi
    | _ => none
  | _ => none

/-- The float, cross-lane, random and quantise families, 0x40 to 0x66 (R130). -/
def decFloat (w : RawWord) : Option Instr :=
  match w.major.toNat with
  | 0x40 => decF3 w .fadd
  | 0x41 => decF3 w .fsub
  | 0x42 => decF3 w .fmul
  | 0x43 => decF3 w .ffma
  | 0x44 => decF3x w .fmin
  | 0x45 => decF3x w .fmax
  | 0x46 => decFcmp w
  | 0x47 => decF3 w .fdiv
  | 0x48 => sub0 w (decF2 w .fsqrt)
  | 0x49 => sub0 w (decF2 w .frcp)
  | 0x4A => sub0 w (decF2 w .frsq)
  | 0x4B => sub0 w (decF2 w .fexp2)
  | 0x4C => sub0 w (decF2 w .flog2)
  | 0x4D => sub0 w (decF2 w .fsin)
  | 0x4E => sub0 w (decF2 w .fcos)
  | 0x4F => sub0 w do
      let (r, t, m, z) ← dFlt w.d; req (m == .rn && !z); let a ← rF w.a; rZ w.b; some (.fclass w.h t r a)
  | 0x50 => do
      let s ← ftyOf (8 + (w.sub.extractLsb' 0 2).setWidth 4)
      req (!w.sub.getLsbD 3)
      decF2 w fun h o => .fcvt h s (w.sub.getLsbD 2) o
  | 0x51 => do
      let s ← ftyOf (8 + (w.sub.extractLsb' 0 2).setWidth 4)
      req (!w.sub.getLsbD 3 && w.d.kind == 0 && !w.d.sat && w.d.sc == 0)
      let t ← ityOf w.d.ty
      let a ← rF w.a
      rZ w.b
      some (.f2i w.h t s (w.sub.getLsbD 2) (rndOf w.d.rnd) w.d.ftz w.d.idx a)
  | 0x52 => do
      let s ← ityOf ((w.sub.extractLsb' 0 3).setWidth 4)
      let (r, t, m, z) ← dFlt w.d
      let a ← rS w.a
      rZ w.b
      some (.i2f w.h t s (w.sub.getLsbD 3) m z r a)
  | 0x53 =>
    match w.sub.toNat with
    | 0 => decF2 w .frnd
    | 1 => decF2 w .frndX
    | _ => none
  | 0x54 => sub0 w do
      let (r, t, m, z) ← dFlt w.d
      let a ← rF w.a
      let b ← rS w.b
      some (.fscale w.h t m z r a b)
  | 0x55 => do
      req (w.sub.toNat < 2)
      let (r, t, m, z) ← dFlt w.d
      req (t == .f32)
      let a ← rF w.a
      let b ← rF w.b
      some (.fdot2 w.h (w.sub.getLsbD 0) m z r a b)
  | 0x56 => sub0 w do let r ← dV 7 w.d; let v ← rIw 7 w.a; rZ w.b; some (.fflag w.h r v)
  | 0x60 => sub0 w do
      let (r, t) ← dNum w.d; let a ← rFS t w.a; let b ← rS w.b; some (.lpull w.h t r a b)
  | 0x61 => sub0 w do
      let (r, t) ← dNum w.d; let a ← rFS t w.a; let b ← rS w.b; some (.lpush w.h t r a b)
  | 0x62 => do
      let op ← redopOf (w.sub.setWidth 3)
      req (!w.sub.getLsbD 3 && w.d.kind == 0 && w.d.sc == 0)
      let t ← ntyOf w.d.ty
      let a ← rFS t w.a
      rZ w.b
      some (.lred w.h op t (rndOf w.d.rnd) w.d.ftz w.d.sat w.d.idx a)
  | 0x63 => do
      let op ← redopOf (w.sub.setWidth 3)
      req (w.d.kind == 0 && w.d.sc == 0)
      let t ← ntyOf w.d.ty
      let a ← rFS t w.a
      rZ w.b
      some (.lscan w.h op (w.sub.getLsbD 3) t (rndOf w.d.rnd) w.d.ftz w.d.sat w.d.idx a)
  | 0x64 =>
    match w.sub.toNat with
    | 0 => do let r ← dV 7 w.d; let a ← rS w.a; let b ← rS w.b; some (.rnd w.h r a b)
    | 1 => do let r ← dV 10 w.d; let a ← rS w.a; let b ← rS w.b; some (.rndF32 w.h r a b)
    | 2 => do let r ← dV 11 w.d; let a ← rS w.a; let b ← rS w.b; some (.rndF64 w.h r a b)
    | _ => none
  | 0x65 => sub0 w do
      req (w.d.kind == 0 && !w.d.sat && w.d.sc == 0)
      let t ← btyOf w.d.ty
      let a ← rV w.a
      rZ w.b
      some (.qnt w.h t (rndOf w.d.rnd) w.d.ftz w.d.idx a)
  | 0x66 => do
      req (w.d.kind == 0 && w.d.ty == 10 && !w.d.sat && w.d.sc == 0 && w.sub.toNat < 3)
      let s ← btyOf (12 + w.sub)
      let a ← rV w.a
      rZ w.b
      some (.dqnt w.h s (rndOf w.d.rnd) w.d.ftz w.d.idx a)
  | _ => none

/-- The memory family, 0x70 to 0x7F (R161, R164, R175, R182). -/
def decMemory (w : RawWord) : Option Instr :=
  match w.major.toNat with
  | 0x70 => decMem w false
  | 0x71 => decMem w true
  | 0x72 => decAtom w false
  | 0x73 => decCas w
  | 0x74 => decAtom w true
  | 0x75 => decFence w
  | 0x76 => decWait w .waitaddr
  | 0x77 => decWait w .wake
  | 0x78 =>
    match w.sub.toNat with
    | 0 => do dNone w.d; let a ← decPlainAddr w; some (.pfL1 w.h a)
    | 4 => do dNone w.d; let a ← decPlainAddr w; some (.pfL2 w.h a)
    | _ => none
  | 0x79 =>
    match w.sub.toNat with
    | 0 => do let n ← dN 0x38 3 0 w.d; let a ← rV w.a; rZ w.b; some (.sopenR w.h n a)
    | 1 => do let n ← dN 0x38 3 0 w.d; let a ← rV w.a; rZ w.b; some (.sopenW w.h n a)
    | _ => none
  | 0x7A => sub0 w do let d ← dV 7 w.d; let n ← rN 0x38 3 w.a; rZ w.b; some (.snext w.h d n)
  | 0x7B => sub0 w do let d ← dP 0 w.d; let n ← rN 0x38 3 w.a; rZ w.b; some (.stest w.h d n)
  | 0x7C => sub0 w do let d ← dP 0 w.d; let n ← rN 0x38 3 w.a; rZ w.b; some (.sclose w.h d n)
  | 0x7D => sub0 w do let n ← dN 0x38 3 0 w.d; let a ← rV w.a; rZ w.b; some (.sput w.h n a)
  | 0x7E => sub0 w do let d ← dV 7 w.d; let a ← decPlainAddr w; some (.pginfo w.h d a)
  | 0x7F => decTlbi w
  | _ => none

/-- The tile, Pallet and Trowel family without parameter words, 0x80 to 0x8C (R207, R217). -/
def decTile (w : RawWord) : Option Instr :=
  match w.major.toNat with
  | 0x80 => sub0 w do let d ← dP 0 w.d; let n ← rN 0x30 3 w.a; let b ← rV w.b; some (.plres w.h d n b)
  | 0x81 => sub0 w do dNone w.d; let n ← rN 0x30 3 w.a; rZ w.b; some (.plrel w.h n)
  | 0x82 =>
    match w.sub.toNat with
    | 0 => do let k ← dN 0x20 4 0 w.d; let a ← rS w.a; rZ w.b; some (.cvsetN w.h k a)
    | 1 => do let k ← dN 0x20 4 0 w.d; rZ w.a; rZ w.b; some (.cvsetF w.h k)
    | _ => none
  | 0x83 => sub0 w do dNone w.d; let k ← rN 0x20 4 w.a; rZ w.b; some (.cvsign w.h k)
  | 0x84 => decMma w
  | 0x85 => decAcc w .accld
  | 0x86 => decAcc w .accst
  | 0x87 => sub0 w do let t ← dN 0 4 10 w.d; rZ w.a; rZ w.b; some (.acczero w.h t)
  | 0x88 => sub0 w do dNone w.d; let v ← rIw 16 w.a; rZ w.b; some (.tlive w.h v)
  | 0x8C =>
    match w.sub.toNat with
    | 0 => do let sc ← dNoneS w.d; let a ← rS w.a; rZ w.b; some (.pub w.h sc a)
    | 1 => do let d ← dP 0 w.d; let a ← rV w.a; let k ← rIw 3 w.b; some (.pubReg w.h d a k)
    | 2 => do dNone w.d; rZ w.a; let k ← rIw 3 w.b; some (.pubUnreg w.h k)
    | _ => none
  | _ => none

/-- Fibres, barriers and queues, 0x90 to 0x9E (R105, R108, R112, R230, R251). -/
def decQueue (w : RawWord) : Option Instr :=
  match w.major.toNat with
  | 0x90 => sub0 w do let d ← dP 0 w.d; let a ← rV w.a; let v ← rI w.b; some (.fspawn w.h d a v)
  | 0x91 => sub0 w (decNone w (.fexit w.h))
  | 0x92 =>
    match w.sub.toNat with
    | 0 => decNone w (.fbarArrive w.h)
    | 1 => decNone w (.fbarWait w.h)
    | 2 => decNone w (.fbarSync w.h)
    | _ => none
  | 0x93 => sub0 w do let d ← dV 7 w.d; rZ w.a; rZ w.b; some (.fstat w.h d)
  | 0x94 => sub0 w do let b ← dN 0x10 4 0 w.d; let a ← rS w.a; rZ w.b; some (.barv w.h b a)
  | 0x95 => sub0 w do let b ← dN 0x10 4 0 w.d; let a ← rS w.a; rZ w.b; some (.bars w.h b a)
  | 0x96 => sub0 w do dNone w.d; let b ← rN 0x10 4 w.a; rZ w.b; some (.barw w.h b)
  | 0x97 =>
    match w.sub.toNat with
    | 0 => do let d ← dP 0 w.d; let b ← rN 0x10 4 w.a; rZ w.b; some (.barq w.h d b)
    | 1 => do let d ← dV 7 w.d; let b ← rN 0x10 4 w.a; rZ w.b; some (.barqSt w.h d b)
    | _ => none
  | 0x98 =>
    match w.sub.toNat with
    | 0 => do let d ← dP 0 w.d; let a ← rV w.a; let q ← rS w.b; some (.qputM w.h d a q)
    | 1 => do let d ← dP 0 w.d; let a ← rS w.a; let q ← rS w.b; some (.qputV w.h d a q)
    | _ => none
  | 0x99 => sub0 w do let d ← dP 0 w.d; let a ← rV w.a; let g ← rV w.b; some (.task w.h d a g)
  | 0x9A => sub0 w (decNone w (.tend w.h))
  | 0x9B => sub0 w (decVV w .launch)
  | 0x9C =>
    match w.sub.toNat with
    | 0 => decVS w .join
    | 1 => decVS w .joinPoll
    | _ => none
  | 0x9D =>
    match w.sub.toNat with
    | 0 => decPS w .qfireEx
    | 1 => decPS w .qfireGn
    | _ => none
  | 0x9E =>
    match w.sub.toNat with
    | 0 => decVS w .qstat
    | 1 => do let r ← dV 7 w.d; let k ← rIw 3 w.a; rZ w.b; some (.qstatArg w.h r k)
    | _ => none
  | _ => none

/-- Mortar, 0xA0 to 0xA8 (R266). -/
def decMortar (w : RawWord) : Option Instr :=
  match w.major.toNat with
  | 0xA0 =>
    match w.sub.toNat with
    | 0 => do let d ← dV 7 w.d; let a ← rV w.a; let b ← rV w.b; some (.vappEye w.h d a b)
    | 1 => do let d ← dV 7 w.d; let a ← rV w.a; let b ← rV w.b; some (.vappLight w.h d a b)
    | _ => none
  | 0xA1 => sub0 w do let (p, sc) ← dPs w.d; let a ← rV w.a; rZ w.b; some (.vseal w.h sc p a)
  | 0xA2 => sub0 w (decPsVV w .vld)
  | 0xA3 =>
    match w.sub.toNat with
    | 0 => decPsVV w .vcon
    | 1 => decPsVV w .vconAll
    | _ => none
  | 0xA4 => sub0 w (decPsVV w .vmrg)
  | 0xA5 => sub0 w do let d ← dP 0 w.d; let a ← rV w.a; let b ← rS w.b; some (.vrew w.h d a b)
  | 0xA6 => sub0 w (decPV w .vpin)
  | 0xA7 => sub0 w (decPV w .vunpin)
  | 0xA8 => sub0 w do let d ← dV 7 w.d; rZ w.a; rZ w.b; some (.vframe w.h d)
  | _ => none

/-- Quoin without parameter words, 0xB0 to 0xB6 (R290). -/
def decQuoin (w : RawWord) : Option Instr :=
  match w.major.toNat with
  | 0xB0 => sub0 w do let (r, sc) ← dVs w.d; let a ← rV w.a; let b ← rV w.b; some (.qnins w.h sc r a b)
  | 0xB2 => sub0 w do
      dNone w.d; let a ← rV w.a; let v ← rIw 9 w.b; some (.qnset w.h a (v.getLsbD 8) (v.setWidth 8))
  | 0xB3 => sub0 w (decPsVV w .qnwalk)
  | 0xB4 => sub0 w do let d ← dV 7 w.d; rZ w.a; rZ w.b; some (.qnnext w.h d)
  | 0xB5 => sub0 w do let d ← dP 0 w.d; rZ w.a; rZ w.b; some (.qnend w.h d)
  | 0xB6 => do let d ← dP 0 w.d; let a ← rV w.a; rZ w.b; some (.qnsum w.h w.sub d a)
  | _ => none

/-- Computed registers and shapes, 0xC0 to 0xC3 (R78, R81). -/
def decShape (w : RawWord) : Option Instr :=
  match w.major.toNat with
  | 0xC0 => sub0 w do let d ← dV 7 w.d; let i ← rVI w.a; rZ w.b; some (.rxld w.h d i)
  | 0xC1 => sub0 w do
      req (w.d == { rawNone with ty := 7 }); let i ← rVI w.a; let b ← rV w.b; some (.rxst w.h i b)
  | 0xC2 => sub0 w (decVV w .shpget)
  | 0xC3 =>
    match w.sub.toNat with
    | 0 => decVV w .shpsetU
    | 1 => decVV w .shpsetA
    | 2 => decVV w .shpsetG
    | _ => none
  | _ => none

/-- System, time and trace, 0xD0 to 0xD8 (R308, R322). -/
def decSystem (w : RawWord) : Option Instr :=
  match w.major.toNat with
  | 0xD0 => sub0 w do dNone w.d; let v ← rIw 16 w.a; rZ w.b; some (.trap w.h v)
  | 0xD1 => sub0 w do dNone w.d; let v ← rIw 16 w.a; rZ w.b; some (.brk w.h v)
  | 0xD2 => sub0 w (decVS w .sysr)
  | 0xD3 => sub0 w do dNone w.d; let a ← rS w.a; let b ← rS w.b; some (.sysw w.h a b)
  | 0xD4 =>
    match w.sub.toNat with
    | 0 => decPS w .haltCtx
    | 1 => do let d ← dP 0 w.d; let a ← rS w.a; let b ← rS w.b; some (.haltCore w.h d a b)
    | _ => none
  | 0xD5 => sub0 w do let d ← dP 0 w.d; let a ← rS w.a; let b ← rS w.b; some (.rfe w.h d a b)
  | 0xD6 => sub0 w do let d ← dV 7 w.d; rZ w.a; rZ w.b; some (.clk w.h d)
  | 0xD7 =>
    match w.sub.toNat with
    | 0 => do dNone w.d; let a ← rS w.a; rZ w.b; some (.sleepAbs w.h a)
    | 1 => do dNone w.d; let a ← rS w.a; rZ w.b; some (.sleepRel w.h a)
    | _ => none
  | 0xD8 =>
    match w.sub.toNat with
    | 0 => do dNone w.d; let a ← rS w.a; let v ← rIw 16 w.b; some (.mark w.h a v)
    | 1 => do dNone w.d; let a ← rS w.a; let v ← rIw 16 w.b; some (.markAll w.h a v)
    | _ => none
  | _ => none

/-- Major opcodes that are assigned (R64), apart from the pair words and the parameter marker. -/
def majorAssigned (m : Nat) : Bool :=
  m ≤ 0x09 || (0x10 ≤ m && m ≤ 0x1D) || (0x20 ≤ m && m ≤ 0x37) || (0x40 ≤ m && m ≤ 0x56) || (0x60 ≤ m && m ≤ 0x66) ||
  (0x70 ≤ m && m ≤ 0x8C) || (0x90 ≤ m && m ≤ 0x9E) || (0xA0 ≤ m && m ≤ 0xA8) || (0xB0 ≤ m && m ≤ 0xB6) ||
  (0xC0 ≤ m && m ≤ 0xC3) || (0xD0 ≤ m && m ≤ 0xD8)

/-- A standard word without parameter words, by the high nibble of its major opcode (R64). -/
def decStd (w : RawWord) : Option Instr :=
  match w.major.toNat / 16 with
  | 0x0 => decControl w
  | 0x1 | 0x2 | 0x3 => decInteger w
  | 0x4 | 0x5 | 0x6 => decFloat w
  | 0x7 => decMemory w
  | 0x8 => decTile w
  | 0x9 => decQueue w
  | 0xA => decMortar w
  | 0xB => decQuoin w
  | 0xC => decShape w
  | 0xD => decSystem w
  | _ => none

/-- The instructions that own a parameter block (R61). -/
def ownsParams (w : RawWord) : Bool :=
  match w.major.toNat with
  | 0x84 => w.sub == 8
  | 0x89 | 0x8A | 0x8B | 0xB1 => true
  | _ => false

/-- An instruction with its parameter block (R207, R213, R290). -/
def decOwner (w : RawWord) (pb : ParamBlock) : Option Instr :=
  match w.major.toNat with
  | 0x84 => do dNone w.d; let n ← rN 0x30 3 w.a; rZ w.b; some (.mmaShape w.h n pb)
  | 0x89 => decTrowel w pb .cpy
  | 0x8A => decTrowel w pb .gth
  | 0x8B => decTrowel w pb .sct
  | 0xB1 => do
      req (w.sub.toNat < 2)
      let d ← dV 7 w.d
      let a ← rV w.a
      rZ w.b
      some (.qnbld w.h (w.sub.getLsbD 0) d a pb)
  | _ => none

/-! ### Pair words -/

/-- A half from its 34 bits (R57). -/
def unpackHalf (x : BitVec 34) : Option Half :=
  (halfopOf (x.extractLsb' 28 6)).map fun op =>
    ⟨op, x.extractLsb' 20 8, x.extractLsb' 12 8, x.extractLsb' 10 2, x.extractLsb' 2 8, x.extractLsb' 0 2⟩

/-- The 34 bits of a half (R57). -/
def packHalf (h : Half) : BitVec 34 := h.op.code ++ h.d ++ h.s1 ++ h.p1 ++ h.s2 ++ h.p2

/-- A pair word (R57). -/
def decPair (w : IWord) : Option Instr := do
  req (!bitAt w 84)
  let h1 ← unpackHalf (w.extractLsb' 34 34)
  let h0 ← unpackHalf (w.extractLsb' 0 34)
  some (.pair (unpackHdr w) ⟨w.extractLsb' 90 2, w.extractLsb' 88 2, rndOf (w.extractLsb' 86 2), bitAt w 85, h1, h0⟩)

/-- The bits of a pair word (R57). -/
def packPair (h : Hdr) (o : PairOp) : IWord :=
  (0xE : BitVec 4) ++ o.t1 ++ o.t0 ++ o.rnd.code ++ BitVec.ofBool o.ftz ++ (0 : BitVec 1) ++ packHdr h ++
    packHalf o.h1 ++ packHalf o.h0

/-! ### Parameter blocks -/

/-- A subfield (R61): literal, or a marker with bits 21:8 zero (R62). -/
def unpackSub (x : BitVec 24) : Option Sub :=
  match (x.extractLsb' 22 2).toNat with
  | 0 => some (.lit (x.extractLsb' 0 22))
  | 3 => if x.extractLsb' 8 14 = 0 then some (.mark (x.extractLsb' 0 8)) else none
  | _ => none

/-- R61, R62. -/
def packSub : Sub → BitVec 24
  | .lit v => (0 : BitVec 2) ++ v
  | .mark r => (3 : BitVec 2) ++ (0 : BitVec 14) ++ r

/-- The three subfields of a parameter word: marker 0xF0, bits 87:72 zero (R61). -/
def unpackParam (w : IWord) : Option (Sub × Sub × Sub) := do
  req (w.extractLsb' 88 8 == 0xF0 && w.extractLsb' 72 16 == 0)
  let x ← unpackSub (w.extractLsb' 0 24)
  let y ← unpackSub (w.extractLsb' 24 24)
  let z ← unpackSub (w.extractLsb' 48 24)
  some (x, y, z)

/-- R61. -/
def packParam (x y z : Sub) : IWord := (0xF0 : BitVec 8) ++ (0 : BitVec 16) ++ packSub z ++ packSub y ++ packSub x

/-- The block of four parameter words; S8 and S11 are literals, S11 is 0 (R61). -/
def unpackBlock : List IWord → Option ParamBlock
  | w0 :: w1 :: w2 :: w3 :: _ => do
    let (s0, s1, s2) ← unpackParam w0
    let (s3, s4, s5) ← unpackParam w1
    let (s6, s7, s8) ← unpackParam w2
    let (s9, s10, s11) ← unpackParam w3
    match s8, s11 with
    | .lit v, .lit z => if z = 0 then some ⟨s0, s1, s2, s3, s4, s5, s6, s7, v, s9, s10⟩ else none
    | _, _ => none
  | _ => none

/-- The four parameter words of a block (R61). -/
def packBlock (b : ParamBlock) : List IWord :=
  [packParam b.s0 b.s1 b.s2, packParam b.s3 b.s4 b.s5, packParam b.s6 b.s7 (.lit b.s8), packParam b.s9 b.s10 (.lit 0)]

/-! ### Words and bytes -/

/-- The terms the decoder answers: the well-formed ones. -/
def accepts (i : Instr) : Bool := wellFormed i

/-- Whether two bits of a word that R42 reserves are zero. -/
def reservedZero (w : IWord) : Bool := w.extractLsb' 68 2 == 0

/-- A word and the words that follow it in its overlay (R63) as an instruction. -/
def decodeWord (w : IWord) (rest : List IWord) : Except DecodeErr Instr :=
  let r := unpackWord w
  let m := r.major.toNat
  if m = 0xF0 then .error .paramWord
  else if !reservedZero w then .error .reservedBits
  else if m / 16 = 0xE then
    match decPair w with
    | some i => if accepts i then .ok i else .error .illFormed
    | none => .error (.family m)
  else if ownsParams r then
    match unpackBlock rest with
    | none => .error .params
    | some pb =>
      match decOwner r pb with
      | some i => if accepts i then .ok i else .error .illFormed
      | none => .error (.family m)
  else if !majorAssigned m then .error (.reservedMajor m)
  else
    match decStd r with
    | some i => if accepts i then .ok i else .error .illFormed
    | none => .error (.family m)

/-- Number of words of an instruction: five with a parameter block, else one (R61). -/
def instrWords : Instr → Nat
  | .mmaShape .. | .cpy .. | .gth .. | .sct .. | .qnbld .. => 5
  | _ => 1

/-- The little-endian number in a list of bytes. -/
def leNat : List Byte → Nat
  | [] => 0
  | b :: bs => b.toNat + 256 * leNat bs

/-- The low `n` bytes of a number, little-endian. -/
def natLE : Nat → Nat → List Byte
  | 0, _ => []
  | n + 1, x => BitVec.ofNat 8 x :: natLE n (x / 256)

/-- The bytes of a word in memory order (R43). -/
def wordBytes (w : IWord) : List Byte := natLE 12 w.toNat

/-- The whole 96-bit words in a list of bytes; bytes after the last whole word are dropped. -/
def bytesWords : Nat → List Byte → List IWord
  | 0, _ => []
  | n + 1, bs => if bs.length < 12 then [] else BitVec.ofNat 96 (leNat (bs.take 12)) :: bytesWords n (bs.drop 12)

/-- Bytes to an instruction and the bytes after it, or the reason there is none. Total. -/
def decode (bs : List Byte) : Except DecodeErr (Instr × List Byte) :=
  match bytesWords 5 bs with
  | [] => .error .truncated
  | w :: rest =>
    match decodeWord w rest with
    | .ok i => .ok (i, bs.drop (12 * instrWords i))
    | .error e => .error e

/-- The instruction whose bits the opcode table numbers from the first byte's least significant bit, zero above `nbits` up to
60 bytes. -/
def decodeTableWord (nbits w : Nat) : Option Instr :=
  match decode (natLE 60 (w % 2 ^ nbits)) with
  | .ok (i, _) => some i
  | .error _ => none

/-! ### Encoding -/

/-- A standard word. -/
def std (major sub : Nat) (h : Hdr) (d : RawD) (a b : RawS) : List IWord :=
  [packWord ⟨BitVec.ofNat 8 major, BitVec.ofNat 4 sub, h, d, a, b⟩]

/-- Integer operation with two sources and `.sat`. -/
def encI3s (major : Nat) (h : Hdr) (o : I3s) : List IWord := std major 0 h (eDInt o.d o.t o.sat) (eS o.a) (eS o.b)

/-- Integer operation with two sources. -/
def encI3 (major sub : Nat) (h : Hdr) (o : I3) : List IWord := std major sub h (eDInt o.d o.t false) (eS o.a) (eS o.b)

/-- Integer operation with one source. -/
def encI2 (major sub : Nat) (h : Hdr) (o : I2) : List IWord := std major sub h (eDInt o.d o.t false) (eS o.a) rawZero

/-- Integer operation with one source and `.sat`. -/
def encI2s (major : Nat) (h : Hdr) (o : I2s) : List IWord := std major 0 h (eDInt o.d o.t o.sat) (eS o.a) rawZero

/-- The type of a 64-bit operation. -/
def uns64 (u : Bool) : ITy := if u then .n64 else .i64

/-- `iaddc`, `lea`. -/
def encI64 (major : Nat) (h : Hdr) (o : I64) : List IWord :=
  std major o.k.toNat h (eDInt o.d (uns64 o.uns) false) (eS o.a) (eS o.b)

/-- Float operation with two sources. -/
def encF3 (major : Nat) (h : Hdr) (o : F3) : List IWord := std major 0 h (eDFlt o.d o.t o.rnd o.ftz) (eF o.a) (eF o.b)

/-- `fmin`, `fmax`. -/
def encF3x (major : Nat) (h : Hdr) (o : F3x) : List IWord := std major 0 h (eDFlt o.d o.t .rn o.ftz) (eF o.a) (eF o.b)

/-- Float operation with one source. -/
def encF2 (major sub : Nat) (h : Hdr) (o : F2) : List IWord := std major sub h (eDFlt o.d o.t o.rnd o.ftz) (eF o.a) rawZero

/-- The D field of a compare. -/
def encCmpD (d : CmpDst) (ty : BitVec 4) (ftz : Bool) : RawD :=
  match d with
  | .pred p _ => ⟨1, p.setWidth 8, ty, 0, false, ftz, 0⟩
  | .vec r => ⟨0, r, ty, 0, false, ftz, 0⟩

/-- Bit 87 of a compare, as 8 in the sub-operation. -/
def CmpDst.anyBit : CmpDst → Nat
  | .pred _ true => 8
  | _ => 0

/-- `ld`, `st`, `st.mc`. -/
def encMem (major : Nat) (h : Hdr) (mc : Bool) (o : MemOp) : List IWord :=
  std major (o.size.code.toNat * 4 + o.sp.code.toNat) h ⟨0, o.d, o.t.code, 0, mc, false, o.sc.code⟩ (eM o.addr.base o.ord)
    (eVI o.addr.off)

/-- `atom`, `red` with operation code `op` (R170). -/
def encAtom (major op : Nat) (h : Hdr) (o : AtomOp) : List IWord :=
  std major (op % 4 * 4 + o.sp.code.toNat) h ⟨0, o.d, o.t.code, BitVec.ofNat 2 (op / 4), false, o.ftz, o.sc.code⟩
    (eM o.addr.base o.ord) (eVI o.addr.off)

/-- `waitaddr`, `wake`. -/
def encWait (major : Nat) (h : Hdr) (o : WaitOp) : List IWord :=
  std major o.sp.code.toNat h ⟨0, o.d, 7, 0, false, false, o.sc.code⟩ (eM o.addr.base o.ord) (eVI o.addr.off)

/-- `mma`: `z` is bit 85, `cv` is bit 84 with K in D bits 53:50. -/
def encMma (h : Hdr) (cv : Option (BitVec 4)) (o : MmaOp) : List IWord :=
  let k : BitVec 4 := cv.getD 0
  std 0x84 ((if o.z then 2 else 0) + (if cv.isSome then 1 else 0)) h
    ⟨2, o.ta.setWidth 8, o.t.code, k.extractLsb' 2 2, k.getLsbD 1, k.getLsbD 0, 0⟩ (eV o.a) (eVI o.b)

/-- `accld`, `accst`. -/
def encAcc (major : Nat) (h : Hdr) (o : TileMem) : List IWord :=
  std major o.sp.code.toNat h ⟨2, o.ta.setWidth 8, 10, 0, false, false, o.sc.code⟩ (eM o.addr.base o.ord) (eVI o.addr.off)

/-- `cpy`, `gth`, `sct`. -/
def encTrowel (major : Nat) (h : Hdr) (o : TrowelOp) : List IWord :=
  std major (o.dst.code.toNat * 4 + o.src.code.toNat) h
    (match o.bar with
     | none => rawNone
     | some b => eDN 0x10 0 b) (eV o.a) rawZero ++ packBlock o.pb

/-- `tlbi`. -/
def encTlbi (sub : Nat) (h : Hdr) (dev : Bool) (p : PredIdx) (a b : RawS) : List IWord :=
  std 0x7F sub h (eDPs p (if dev then .dev else .die)) a b

/-- Source code of `fcvt` and `f2i` (R130). -/
def cvtSub (s : FTy) (hi : Bool) : Nat := (s.code.toNat - 8) + (if hi then 4 else 0)

/-- The words of an instruction; an event has none. -/
def encodeWords : Instr → List IWord
  | .nop h => std 0x00 0 h ⟨0, 0, 0, 0, false, false, 0⟩ rawZero rawZero
  | .bra h v => std 0x01 0 h rawNone rawZero (.imm v)
  | .brx h a => std 0x02 0 h rawNone (eV a) rawZero
  | .call h v => std 0x03 0 h rawNone rawZero (.imm v)
  | .callx h a => std 0x04 0 h rawNone (eV a) rawZero
  | .ret h => std 0x05 0 h rawNone rawZero rawZero
  | .exit h => std 0x06 0 h rawNone rawZero rawZero
  | .yield h => std 0x09 0 h rawNone rawZero rawZero
  | .voteAny h d p => std 0x07 0 h (eDP 0 d) (eP p) rawZero
  | .voteAll h d p => std 0x07 1 h (eDP 0 d) (eP p) rawZero
  | .voteMask h d p => std 0x07 2 h (eDV 7 d) (eP p) rawZero
  | .matchAny h d a => std 0x08 0 h (eDV 7 d) (eVP a) rawZero
  | .matchAll h d a => std 0x08 1 h (eDP 7 d) (eVP a) rawZero
  | .iadd h o => encI3s 0x10 h o
  | .isub h o => encI3s 0x11 h o
  | .iaddc h o => encI64 0x12 h o
  | .imul h o => encI3s 0x13 h o
  | .imulh h o => encI3 0x14 0 h o
  | .imad h o => encI3s 0x15 h o
  | .idiv h o => encI3s 0x16 h o
  | .irem h o => encI3 0x17 0 h o
  | .ineg h o => encI2s 0x18 h o
  | .iabs h o => encI2s 0x19 h o
  | .imin h o => encI3 0x1A 0 h o
  | .imax h o => encI3 0x1B 0 h o
  | .icmp h t c d a b => std 0x1C (c.code.toNat + d.anyBit) h (encCmpD d t.code false) (eS a) (eS b)
  | .isel h p o => encI3 0x1D p.toNat h o
  | .and h o => encI3 0x20 0 h o
  | .or h o => encI3 0x21 0 h o
  | .xor h o => encI3 0x22 0 h o
  | .not h o => encI2 0x23 0 h o
  | .bmix h tt o =>
    std 0x24 (tt.toNat % 16) h ⟨0, o.d, o.t.code, tt.extractLsb' 6 2, tt.getLsbD 5, tt.getLsbD 4, 0⟩ (eS o.a) (eS o.b)
  | .shl h o => encI3 0x25 0 h o
  | .shr h o => encI3 0x26 0 h o
  | .sar h o => encI3 0x27 0 h o
  | .rot h o => encI3 0x28 0 h o
  | .bfe h o => encI3 0x29 0 h o
  | .bfi h o => encI3 0x2A 0 h o
  | .popc h o => encI2 0x2B 0 h o
  | .clz h o => encI2 0x2C 0 h o
  | .ctz h o => encI2 0x2D 0 h o
  | .brev h o => encI2 0x2E 0 h o
  | .lea h o => encI64 0x2F h o
  | .mov h o => encI2 0x30 0 h o
  | .movi h t d v => std 0x31 0 h (eDInt d t false) (.imm v) rawZero
  | .movhM h d a v => std 0x32 0 h (eDV 7 d) (eV a) (.imm v)
  | .movhH h d a v => std 0x32 1 h (eDV 7 d) (eV a) (eIw v)
  | .plop h tt d a b => std 0x33 tt.toNat h (eDP 0 d) (eP a) (eP b)
  | .p2v h d a => std 0x34 0 h (eDV 7 d) (eP a) rawZero
  | .p2vAll h d => std 0x34 1 h (eDV 7 d) rawZero rawZero
  | .v2p h d a => std 0x35 0 h (eDP 0 d) (eS a) rawZero
  | .v2pAll h a => std 0x35 1 h rawNone (eS a) rawZero
  | .pack h o => encI3s 0x36 h o
  | .unpkLo h o => encI2 0x37 0 h o
  | .unpkHi h o => encI2 0x37 1 h o
  | .pair h o => [packPair h o]
  | .fadd h o => encF3 0x40 h o
  | .fsub h o => encF3 0x41 h o
  | .fmul h o => encF3 0x42 h o
  | .ffma h o => encF3 0x43 h o
  | .fmin h o => encF3x 0x44 h o
  | .fmax h o => encF3x 0x45 h o
  | .fcmp h t z c d a b => std 0x46 (c.code.toNat + d.anyBit) h (encCmpD d t.code z) (eF a) (eF b)
  | .fdiv h o => encF3 0x47 h o
  | .fsqrt h o => encF2 0x48 0 h o
  | .frcp h o => encF2 0x49 0 h o
  | .frsq h o => encF2 0x4A 0 h o
  | .fexp2 h o => encF2 0x4B 0 h o
  | .flog2 h o => encF2 0x4C 0 h o
  | .fsin h o => encF2 0x4D 0 h o
  | .fcos h o => encF2 0x4E 0 h o
  | .fclass h t d a => std 0x4F 0 h (eDFlt d t .rn false) (eF a) rawZero
  | .fcvt h s hi o => encF2 0x50 (cvtSub s hi) h o
  | .f2i h t s hi m z d a => std 0x51 (cvtSub s hi) h ⟨0, d, t.code, m.code, false, z, 0⟩ (eF a) rawZero
  | .i2f h t s hi m z d a =>
    std 0x52 (s.code.toNat + (if hi then 8 else 0)) h (eDFlt d t m z) (eS a) rawZero
  | .frnd h o => encF2 0x53 0 h o
  | .frndX h o => encF2 0x53 1 h o
  | .fscale h t m z d a b => std 0x54 0 h (eDFlt d t m z) (eF a) (eS b)
  | .fdot2 h bf m z d a b => std 0x55 (if bf then 1 else 0) h (eDFlt d .f32 m z) (eF a) (eF b)
  | .fflag h d mask => std 0x56 0 h (eDV 7 d) (eIw mask) rawZero
  | .lpull h t d a b => std 0x60 0 h ⟨0, d, t.code, 0, false, false, 0⟩ (eS a) (eS b)
  | .lpush h t d a b => std 0x61 0 h ⟨0, d, t.code, 0, false, false, 0⟩ (eS a) (eS b)
  | .lred h op t m z sat d a => std 0x62 op.code.toNat h ⟨0, d, t.code, m.code, sat, z, 0⟩ (eS a) rawZero
  | .lscan h op ex t m z sat d a =>
    std 0x63 (op.code.toNat + (if ex then 8 else 0)) h ⟨0, d, t.code, m.code, sat, z, 0⟩ (eS a) rawZero
  | .rnd h d a b => std 0x64 0 h (eDV 7 d) (eS a) (eS b)
  | .rndF32 h d a b => std 0x64 1 h (eDV 10 d) (eS a) (eS b)
  | .rndF64 h d a b => std 0x64 2 h (eDV 11 d) (eS a) (eS b)
  | .qnt h t m z d a => std 0x65 0 h ⟨0, d, t.code, m.code, false, z, 0⟩ (eV a) rawZero
  | .dqnt h s m z d a => std 0x66 (s.code.toNat - 12) h ⟨0, d, 10, m.code, false, z, 0⟩ (eV a) rawZero
  | .ld h o => encMem 0x70 h false o
  | .st h o => encMem 0x71 h false o
  | .stMc h o => encMem 0x71 h true o
  | .atomAdd h o => encAtom 0x72 0 h o
  | .atomMin h o => encAtom 0x72 1 h o
  | .atomMax h o => encAtom 0x72 2 h o
  | .atomExch h o => encAtom 0x72 3 h o
  | .atomAnd h o => encAtom 0x72 4 h o
  | .atomOr h o => encAtom 0x72 5 h o
  | .atomXor h o => encAtom 0x72 6 h o
  | .cas h spc o sc t d addr =>
    std 0x73 spc.code.toNat h ⟨0, d, t.code, 0, false, false, sc.code⟩ (eM addr.base o) (eVI addr.off)
  | .redAdd h o => encAtom 0x74 0 h o
  | .redMin h o => encAtom 0x74 1 h o
  | .redMax h o => encAtom 0x74 2 h o
  | .redAnd h o => encAtom 0x74 4 h o
  | .redOr h o => encAtom 0x74 5 h o
  | .redXor h o => encAtom 0x74 6 h o
  | .fenceAcq h sc => std 0x75 0 h (eDNoneS sc) rawZero rawZero
  | .fenceRel h sc => std 0x75 1 h (eDNoneS sc) rawZero rawZero
  | .fenceSc h sc => std 0x75 2 h (eDNoneS sc) rawZero rawZero
  | .fenceUo h sc => std 0x75 3 h (eDNoneS sc) rawZero rawZero
  | .waitaddr h o => encWait 0x76 h o
  | .wake h o => encWait 0x77 h o
  | .pfL1 h a => std 0x78 0 h rawNone (eM a.base .rlx) (eVI a.off)
  | .pfL2 h a => std 0x78 4 h rawNone (eM a.base .rlx) (eVI a.off)
  | .sopenR h n a => std 0x79 0 h (eDN 0x38 0 n) (eV a) rawZero
  | .sopenW h n a => std 0x79 1 h (eDN 0x38 0 n) (eV a) rawZero
  | .snext h d n => std 0x7A 0 h (eDV 7 d) (eN 0x38 n) rawZero
  | .stest h d n => std 0x7B 0 h (eDP 0 d) (eN 0x38 n) rawZero
  | .sclose h d n => std 0x7C 0 h (eDP 0 d) (eN 0x38 n) rawZero
  | .sput h n a => std 0x7D 0 h (eDN 0x38 0 n) (eV a) rawZero
  | .pginfo h d a => std 0x7E 0 h (eDV 7 d) (eM a.base .rlx) (eVI a.off)
  | .tlbiPg h dev d a b => encTlbi 0 h dev d (eV a) (eS b)
  | .tlbiCtx h dev d b => encTlbi 1 h dev d rawZero (eS b)
  | .tlbiAll h dev d => encTlbi 2 h dev d rawZero rawZero
  | .rxld h d i => std 0xC0 0 h (eDV 7 d) (eVI i) rawZero
  | .rxst h i b => std 0xC1 0 h { rawNone with ty := 7 } (eVI i) (eV b)
  | .shpget h d a => std 0xC2 0 h (eDV 7 d) (eV a) rawZero
  | .shpsetU h d a => std 0xC3 0 h (eDV 7 d) (eV a) rawZero
  | .shpsetA h d a => std 0xC3 1 h (eDV 7 d) (eV a) rawZero
  | .shpsetG h d a => std 0xC3 2 h (eDV 7 d) (eV a) rawZero
  | .fspawn h d a off => std 0x90 0 h (eDP 0 d) (eV a) (.imm off)
  | .fexit h => std 0x91 0 h rawNone rawZero rawZero
  | .fbarArrive h => std 0x92 0 h rawNone rawZero rawZero
  | .fbarWait h => std 0x92 1 h rawNone rawZero rawZero
  | .fbarSync h => std 0x92 2 h rawNone rawZero rawZero
  | .fstat h d => std 0x93 0 h (eDV 7 d) rawZero rawZero
  | .plres h d pl b => std 0x80 0 h (eDP 0 d) (eN 0x30 pl) (eV b)
  | .plrel h pl => std 0x81 0 h rawNone (eN 0x30 pl) rawZero
  | .cvsetN h cv a => std 0x82 0 h (eDN 0x20 0 cv) (eS a) rawZero
  | .cvsetF h cv => std 0x82 1 h (eDN 0x20 0 cv) rawZero rawZero
  | .cvsign h cv => std 0x83 0 h rawNone (eN 0x20 cv) rawZero
  | .mma h o => encMma h none o
  | .mmaCv h cv o => encMma h (some cv) o
  | .mmaShape h pl pb => std 0x84 8 h rawNone (eN 0x30 pl) rawZero ++ packBlock pb
  | .accld h o => encAcc 0x85 h o
  | .accst h o => encAcc 0x86 h o
  | .acczero h ta => std 0x87 0 h (eDN 0 10 ta) rawZero rawZero
  | .tlive h mask => std 0x88 0 h rawNone (eIw mask) rawZero
  | .cpy h o => encTrowel 0x89 h o
  | .gth h o => encTrowel 0x8A h o
  | .sct h o => encTrowel 0x8B h o
  | .pub h sc a => std 0x8C 0 h (eDNoneS sc) (eS a) rawZero
  | .pubReg h d a k => std 0x8C 1 h (eDP 0 d) (eV a) (eIw k)
  | .pubUnreg h k => std 0x8C 2 h rawNone rawZero (eIw k)
  | .barv h b a => std 0x94 0 h (eDN 0x10 0 b) (eS a) rawZero
  | .bars h b a => std 0x95 0 h (eDN 0x10 0 b) (eS a) rawZero
  | .barw h b => std 0x96 0 h rawNone (eN 0x10 b) rawZero
  | .barq h d b => std 0x97 0 h (eDP 0 d) (eN 0x10 b) rawZero
  | .barqSt h d b => std 0x97 1 h (eDV 7 d) (eN 0x10 b) rawZero
  | .qputM h d a q => std 0x98 0 h (eDP 0 d) (eV a) (eS q)
  | .qputV h d a q => std 0x98 1 h (eDP 0 d) (eS a) (eS q)
  | .task h d a g => std 0x99 0 h (eDP 0 d) (eV a) (eV g)
  | .tend h => std 0x9A 0 h rawNone rawZero rawZero
  | .launch h d a => std 0x9B 0 h (eDV 7 d) (eV a) rawZero
  | .join h d a => std 0x9C 0 h (eDV 7 d) (eS a) rawZero
  | .joinPoll h d a => std 0x9C 1 h (eDV 7 d) (eS a) rawZero
  | .qfireEx h d q => std 0x9D 0 h (eDP 0 d) (eS q) rawZero
  | .qfireGn h d n => std 0x9D 1 h (eDP 0 d) (eS n) rawZero
  | .qstat h d q => std 0x9E 0 h (eDV 7 d) (eS q) rawZero
  | .qstatArg h d k => std 0x9E 1 h (eDV 7 d) (eIw k) rawZero
  | .vappEye h d a p => std 0xA0 0 h (eDV 7 d) (eV a) (eV p)
  | .vappLight h d a p => std 0xA0 1 h (eDV 7 d) (eV a) (eV p)
  | .vseal h sc d a => std 0xA1 0 h (eDPs d sc) (eV a) rawZero
  | .vld h sc d g a => std 0xA2 0 h (eDPs d sc) (eV g) (eV a)
  | .vcon h sc d w g => std 0xA3 0 h (eDPs d sc) (eV w) (eV g)
  | .vconAll h sc d w g => std 0xA3 1 h (eDPs d sc) (eV w) (eV g)
  | .vmrg h sc d w g => std 0xA4 0 h (eDPs d sc) (eV w) (eV g)
  | .vrew h d a b => std 0xA5 0 h (eDP 0 d) (eV a) (eS b)
  | .vpin h d a => std 0xA6 0 h (eDP 0 d) (eV a) rawZero
  | .vunpin h d a => std 0xA7 0 h (eDP 0 d) (eV a) rawZero
  | .vframe h d => std 0xA8 0 h (eDV 7 d) rawZero rawZero
  | .qnins h sc d a b => std 0xB0 0 h ⟨0, d, 7, 0, false, false, sc.code⟩ (eV a) (eV b)
  | .qnbld h pad d a pb => std 0xB1 (if pad then 1 else 0) h (eDV 7 d) (eV a) rawZero ++ packBlock pb
  | .qnset h a dot depth => std 0xB2 0 h rawNone (eV a) (eIw (BitVec.ofBool dot ++ depth))
  | .qnwalk h sc d a b => std 0xB3 0 h (eDPs d sc) (eV a) (eV b)
  | .qnnext h d => std 0xB4 0 h (eDV 7 d) rawZero rawZero
  | .qnend h d => std 0xB5 0 h (eDP 0 d) rawZero rawZero
  | .qnsum h k d g => std 0xB6 k.toNat h (eDP 0 d) (eV g) rawZero
  | .trap h c => std 0xD0 0 h rawNone (eIw c) rawZero
  | .brk h c => std 0xD1 0 h rawNone (eIw c) rawZero
  | .sysr h d a => std 0xD2 0 h (eDV 7 d) (eS a) rawZero
  | .sysw h a b => std 0xD3 0 h rawNone (eS a) (eS b)
  | .haltCtx h d a => std 0xD4 0 h (eDP 0 d) (eS a) rawZero
  | .haltCore h d a b => std 0xD4 1 h (eDP 0 d) (eS a) (eS b)
  | .rfe h d a b => std 0xD5 0 h (eDP 0 d) (eS a) (eS b)
  | .clk h d => std 0xD6 0 h (eDV 7 d) rawZero rawZero
  | .sleepAbs h a => std 0xD7 0 h rawNone (eS a) rawZero
  | .sleepRel h a => std 0xD7 1 h rawNone (eS a) rawZero
  | .mark h a c => std 0xD8 0 h rawNone (eS a) (eIw c)
  | .markAll h a c => std 0xD8 1 h rawNone (eS a) (eIw c)
  | _ => []

/-- The bytes of an instruction: 12, or 60 with its parameter block (R43, R61). -/
def encode (i : Instr) : List Byte := (encodeWords i).flatMap wordBytes

end Sys2Proof
end

