-- ==== Sys2Proof/Machine/Bits.lean ====
section
/-!
DEFINITION. Bits, sub-elements and bytes: the helpers of R67 that every family uses.
-/

namespace Sys2Proof.Machine

/-- Bits `lo` to `lo + n - 1` of a 64-bit word, as a number. -/
def field (w : Word) (lo n : Nat) : Nat := w.toNat / 2 ^ lo % 2 ^ n

/-- `nsub` of a width: sub-elements of a 64-bit register (R23, R67). -/
def nsub (w : Nat) : Nat := 64 / w

/-- Sub-element `j` of width `w`, as an unsigned number (R23, R67). -/
def sub (v : Word) (w j : Nat) : Nat := v.toNat / 2 ^ (w * j) % 2 ^ w

/-- `v` with sub-element `j` of width `w` replaced by the low `w` bits of `x` (R67). -/
def put (v : Word) (w j : Nat) (x : Nat) : Word :=
  BitVec.ofNat 64 (v.toNat - sub v w j * 2 ^ (w * j) + x % 2 ^ w * 2 ^ (w * j))

/-- The register whose sub-elements, from 0 up, are the given numbers. -/
def ofSubs (w : Nat) : List Nat → Nat
  | [] => 0
  | x :: xs => x % 2 ^ w + 2 ^ w * ofSubs w xs

/-- Apply a function of the sub-element number to every sub-element. -/
def mapSubs (w : Nat) (f : Nat → Nat) : Word := BitVec.ofNat 64 (ofSubs w ((List.range (nsub w)).map f))

/-- An unsigned `w`-bit number read as two's complement. -/
def toSigned (w x : Nat) : Int := if x % 2 ^ w < 2 ^ (w - 1) then (x % 2 ^ w : Nat) else ((x % 2 ^ w : Nat) : Int) - (2 ^ w : Nat)

/-- The low `w` bits of an integer, `trunc` of R67. -/
def truncW (w : Nat) (x : Int) : Nat := (x % ((2 ^ w : Nat) : Int)).toNat

/-- Sign-extension of a `w`-bit number to 64 bits (R67). -/
def sextTo64 (w x : Nat) : Word := BitVec.ofInt 64 (toSigned w x)

/-- The value of a sub-element under an integer type (R24). -/
def intVal (t : ITy) (x : Nat) : Int := if t.signed then toSigned t.width x else ((x % 2 ^ t.width : Nat) : Int)

/-- Least value of an integer type (R24). -/
def ITy.min (t : ITy) : Int := if t.signed then -((2 ^ (t.width - 1) : Nat) : Int) else 0

/-- Greatest value of an integer type (R24). -/
def ITy.max (t : ITy) : Int := if t.signed then ((2 ^ (t.width - 1) : Nat) : Int) - 1 else ((2 ^ t.width : Nat) : Int) - 1

/-- `sat(x, t)` of R67. -/
def satTo (t : ITy) (x : Int) : Int := if x < ITy.min t then ITy.min t else if ITy.max t < x then ITy.max t else x

/-- Rotate a 64-bit word left by one (R326). -/
def rotl1 (w : Word) : Word := w.rotateLeft 1

/-- The 8 bytes of a word, little-endian. -/
def wordLE (w : Word) : List Byte := natLE 8 w.toNat

/-- The word in up to eight little-endian bytes. -/
def leWord (bs : List Byte) : Word := BitVec.ofNat 64 (leNat bs)

/-- The 64-bit words in a byte list, `n` of them. -/
def leWords : Nat → List Byte → List Word
  | 0, _ => []
  | n + 1, bs => leWord (bs.take 8) :: leWords n (bs.drop 8)

/-- The least multiple of `k` not below `n`. -/
def alignUp (n k : Nat) : Nat := (n + k - 1) / k * k

/-- Number of one bits. -/
def popCount : Nat → Nat → Nat
  | 0, _ => 0
  | n + 1, x => x % 2 + popCount n (x / 2)

/-- The lowest lane of a mask, if it has one. -/
def lowestLane (m : LaneMask) : Option Nat := m.lanes.head?

/-- The mask of the lanes that satisfy a test. -/
def lanesWhere (p : Nat → Bool) : LaneMask := LaneMask.ofLanes ((List.range 64).filter p)

/-- Insert a value in a list sorted by a key, after equal keys. -/
def insertBy {α : Type} (key : α → Nat) (x : α) : List α → List α
  | [] => [x]
  | y :: ys => if key x < key y then x :: y :: ys else y :: insertBy key x ys

/-- Sort by a key, keeping the order of equal keys. -/
def sortBy {α : Type} (key : α → Nat) (xs : List α) : List α := xs.foldl (fun acc x => insertBy key x acc) []

/-- Replace element `i` of a list. -/
def setAt {α : Type} : List α → Nat → α → List α
  | [], _, _ => []
  | _ :: xs, 0, y => y :: xs
  | x :: xs, i + 1, y => x :: setAt xs i y

/-- Remove duplicates, keeping first occurrences. -/
def dedupNat (xs : List Nat) : List Nat := xs.foldl (fun acc x => if acc.contains x then acc else acc ++ [x]) []

end Sys2Proof.Machine
end

