-- ==== Sys2Proof/Machine/State.lean ====
section
/-!
DEFINITION. The machine's state as plain data, and the state after reset. Every component is named after the spec's own name;
components that are the model's own say so.
-/

namespace Sys2Proof.Machine

/-- Why the model stops: nothing does. Every fault and stop the spec describes freezes a fibre and writes a record (R66, R104,
R303), which is a next state. Safe: there is no constructor to raise. -/
inductive Fault where
  deriving DecidableEq, Repr

/-- Why an instruction has no meaning. -/
inductive Refusal where
  /-- Raised by `exec`'s arm of an instruction that has no meaning yet. Safe: the model stops where the device goes on. -/
  | notModelled (mnemonic : String)
  deriving DecidableEq, Repr

/-! ### Registers -/

/-- A vector register of one fibre with its shape tag (R76): `u x`, `a base stride`, `g` with one value for each lane. -/
inductive VReg where
  | u (x : Word)
  | a (b : Word) (s : Word)
  | g (vs : List Word)
  deriving DecidableEq, Repr, Inhabited

/-- A fixed-latency register write not yet readable (R46): cycle from which it is, register, lanes of the issuing path, lanes written,
whether it gives the whole register its shape (R9), value, the bits of each lane that it writes (none listed: all; R143), producer's PC, and
the results that port 0 of the same cycle still owes the register, which take effect before it (R90, R143). -/
structure PendW where
  land : Nat
  reg : Nat
  path : LaneMask
  lanes : LaneMask
  full : Bool
  val : VReg
  bits : List Word
  pc : Word
  after : List Nat
  deriving DecidableEq, Repr

/-- A fixed-latency predicate write not yet readable: bit `L` of `vals` is lane `L`'s new value. -/
structure PendP where
  land : Nat
  idx : Nat
  path : LaneMask
  lanes : LaneMask
  vals : LaneMask
  pc : Word
  deriving DecidableEq, Repr

/-- What keeps a thread from issuing besides its stall count and pending registers (R86, R102). -/
inductive Wait where
  | none
  /-- overlay-miss trap on the overlay with this base (R71) -/
  | overlay (base : Word)
  /-- a `ret` whose frame is spilled (R94) -/
  | frame
  /-- `barw` or `bars` on named barrier `b` (R231) -/
  | bar (b : Nat)
  /-- `fbar.wait` or `fbar.sync` on this phase (R109) -/
  | fbar (phase : Nat)
  /-- an `fbar` that arrives, reached while the thread's arrival in this phase stands: the arrival is held (R109) -/
  | fbarHeld (phase : Nat)
  /-- parked in `waitaddr` (R177) -/
  | addr
  /-- `sleep` until the instant (R321) -/
  | sleep (til : Word)
  /-- a walk that waits for the zeroing recorded for this entry (R153) -/
  | zero (entryAt : Nat)
  deriving DecidableEq, Repr, Inhabited

/-- State of a lane: no thread, a thread, an exited thread (R83, R86). -/
inductive Life where
  | empty | live | exited
  deriving DecidableEq, Repr, Inhabited

/-- Where one byte of a lane's access lies: device or host memory by physical address, the team scratchpad, or nowhere any more
(a byte whose value the issue already fixed: the thread's own stack, or its task's buffer). -/
inductive Place where
  | phys (a : Nat)
  | spad (a : Nat)
  | lit (b : Byte)
  deriving DecidableEq, Repr, Inhabited

/-- What a release hands on, or a `fence.rel` gives its thread's later stores to hand on (R186): the scope, whether it is of a `fence.uo` and
so serves UO accesses too (R154), and the events known at it. The model's own record. -/
structure Hand where
  sc : Scope
  uo : Bool
  know : List Nat
  deriving DecidableEq, Repr

/-- One lane's access: lane, address, byte places in ascending address order with each byte's page kind (bits 1:0 the kind of R150,
bit 2 host memory, bit 3 a replicated page that `st.mc` writes, its place then being Quarter 0's copy, bit 4 one copy of a
replicated page, bit 5 a large page), bytes to store, operands; what the access hands on to acquirers of its bytes, and the events that
happen before it (the model's own records for R186 and R197). -/
structure LaneAcc where
  lane : Nat
  va : Word
  places : List Place
  kinds : List Nat
  data : List Byte
  ops : List Word
  hands : List Hand
  view : List Nat
  deriving DecidableEq, Repr, Inhabited

/-- The task a thread runs (R242 to R247): queue, sequence number, header word, arguments, retries left, whether it is still
retryable, whether it still buffers its `.g` stores, whether it has issued, and its buffered stores in program order. -/
structure TaskSt where
  queue : Nat
  seq : Nat
  header : Word
  args : List Word
  retries : Nat
  retryable : Bool
  buffering : Bool
  started : Bool
  buf : List LaneAcc
  deriving DecidableEq, Repr

/-- One item of a walk: the word `qnnext` writes and its image as 13 chunks of 8 words (R280, R281, R288), and what the inserts it shows
have released, each with whether accesses to host pages are in it (R155, R201). -/
structure WalkItem where
  word : Word
  image : List (List Word)
  know : List (Bool × List Nat)
  deriving DecidableEq, Repr

/-- A node of a Quoin tree (R279 to R285). Floats are `f32` encodings. -/
structure QNode where
  depth : Nat
  count : Nat
  centroid : List (BitVec 32)
  spread : BitVec 32
  paySum : List (BitVec 32)
  children : List Nat
  keys : List Nat
  deriving DecidableEq, Repr, Inhabited

/-- A key of a tree: its values and payload as `f32` encodings (R281). -/
structure QKey where
  vals : List (BitVec 32)
  pay : List (BitVec 32)
  deriving DecidableEq, Repr, Inhabited

/-- What a release left for acquirers of its bytes (R188, R197): releasing team and core, scope, whether the bytes are on a host page,
the events known at it, and the moment from which it stands. The model's own record. -/
structure RelNote where
  places : List Place
  team : Nat
  core : Nat
  sc : Scope
  host : Bool
  know : List Nat
  since : Nat
  deriving DecidableEq, Repr

/-- Who writes (R186): the event of the write, its flight or engine, the fibre it is of (none: the device itself, the host or a peer) and
the lane, team and core, whether it is on a host page, and what it hands on. The model's own record. -/
structure Author where
  event : Nat
  flight : Nat
  fib : Option Nat
  lane : Nat
  team : Nat
  core : Nat
  host : Bool
  hands : List Hand
  deriving DecidableEq, Repr

/-- A write that has performed and that a load may still miss (R187): its moment in the order of all such writes, its author, its bytes'
places and what stood there before, and the parts of notes that it ended. The model's own record. -/
structure Past where
  moment : Nat
  author : Author
  places : List Place
  olds : List Byte
  ended : List RelNote
  deriving DecidableEq, Repr

/-- What stands before an event in the happens-before order (R186): the event, whether the step is one of the total order of `.sc` fences
alone, which bars older values and is no happens-before (R174), and the events before it. The model's own record. -/
structure Before where
  event : Nat
  total : Bool
  prior : List Nat
  deriving DecidableEq, Repr

/-- What a read of an observer at `.dev` shows of the order of stores (R190): the writes the observer had met in ordered program order, the
bytes it then read, and the moment as of which it read them: those writes come before every later write to these bytes. The model's own
record. -/
structure Agreed where
  met : List Nat
  team : Nat
  places : List Place
  moment : Nat
  deriving DecidableEq, Repr

/-- The order of a thread's accesses of a kind that its plain order leaves out, UO accesses and those to host pages (R154, R155): the events that
happen before its next such access, and its own such accesses that no fence has ordered yet. The model's own record. -/
structure Kept where
  view : List Nat
  know : List Nat
  deriving DecidableEq, Repr, Inhabited

/-- The events before an engine's accesses to UO pages, to host pages and to UO pages of the host (R154, R155, R196). The model's own record. -/
structure Besides where
  uo : List Nat
  host : List Nat
  uoHost : List Nat
  deriving DecidableEq, Repr, Inhabited

/-- A fence that has made an earlier load of a lane an acquire: lane, the fence's event, its scope, whether it was a `fence.uo` (R175). The
model's own record. -/
structure FenceAcq where
  lane : Nat
  event : Nat
  sc : Scope
  uo : Bool
  deriving DecidableEq, Repr

/-- The bytes a thread has read and the latest moment as of which it read them (R154). The model's own record. -/
structure ReadAt where
  places : List Place
  moment : Nat
  deriving DecidableEq, Repr

/-- An insert into a tree (R201): its key, the fibre, team and core of its thread, its scope and its event. The model's own record. -/
structure TreeNote where
  key : Nat
  fib : Nat
  team : Nat
  core : Nat
  sc : Scope
  event : Nat
  deriving DecidableEq, Repr

/-- A Quoin tree (R278, R279): context, index, home Quarter, generation, kind, dimensions, payload form and length, nodes in
creation order, keys in insertion order; what the nodes were before each insert since the build, oldest first, and those inserts: the
model's own records of what a walk may still see (R201, R289). -/
structure QTree where
  uid : Nat
  ctx : Nat
  index : Nat
  home : Nat
  gen : Nat
  hiDim : Bool
  d : Nat
  payload : Nat
  v : Nat
  nodes : List QNode
  keys : List QKey
  olds : List (List QNode)
  notes : List TreeNote
  deriving DecidableEq, Repr, Inhabited

/-- A lane's walk (R288, R294): its tree as it stands, nodes still to visit, each with the number of inserts that the node that named it had
seen, the items of a leaf it has read and not pushed yet, FIFO of 16 items, current item, whether it is over, the test and query it started
with, and its scope; the keys whose inserts happen before its start (R201), its identity and how many nodes it has read: the model's own
records. -/
structure WalkSt where
  tree : QTree
  stack : List (Nat × Nat)
  keys : List WalkItem
  fifo : List WalkItem
  cur : Option WalkItem
  done : Bool
  query : List (BitVec 32)
  theta : BitVec 32
  eps : BitVec 32
  maxDepth : Nat
  dot : Bool
  sc : Scope
  must : List Nat
  seq : Nat
  read : Nat
  deriving DecidableEq, Repr

/-- A thread in its lane. `recd` and `arrd` hold one bit for each named barrier (R222). The model's own records for R154, R186, R190 and
R197: `know`, the events that happen before the thread's next access, where that is neither UO nor of a host page; `uo`, `host` and `uoHost`,
those of its UO accesses, of those to host pages, and of UO accesses to host pages; `rels`, what its release fences give its later stores to
hand on; `seen`, the notes its loads have met and not acquired, `seenUo` those that UO loads have met; `met` and `metOrd`, the writes its loads
have read, and of them those that its later accesses are ordered after; `reads`, what it has read and as of when. -/
structure Thread where
  life : Life
  pc : Word
  depth : Nat
  preds : BitVec 24
  logical : Nat
  stallTo : Nat
  stallPc : Word
  wait : Wait
  psig : Word
  stack : List Host.Cell
  held : Nat
  arrd : BitVec 16
  recd : BitVec 16
  fbArr : Bool
  fbRec : Option Nat
  task : Option TaskSt
  walk : Option WalkSt
  know : List Nat
  uo : Kept
  host : Kept
  uoHost : Kept
  rels : List Hand
  seen : List RelNote
  seenUo : List RelNote
  met : List Nat
  metOrd : List Nat
  reads : List ReadAt
  deriving DecidableEq, Repr, Inhabited

/-- A stream register (R183 to R185): description, space, element size code, index form, position of the program, FIFO contents
(a read stream's elements not yet handed out, a write stream's not yet written), engine progress, the fault that stopped the engine as
kind, reason and address, whether a `sclose` waits for the drain, the accesses the engine's accesses, and those its writes, must follow (R196),
the identity below which its fibre's accesses are earlier than they (R168), the lanes that opened it, the events that happen before its
reads and the event of all its writes (R196, the model's own records), and the buffered stores of the issuing tasks, which its reads see (R196, R198). -/
structure Stream where
  write : Bool
  base : Word
  index : Word
  count : Nat
  size : Nat
  form : Nat
  scratch : Bool
  pos : Nat
  fifo : List Word
  prog : Nat
  stop : Option (Nat × Nat × Word)
  closing : Bool
  after : List Nat
  afterW : List Nat
  since : Nat
  lanes : LaneMask
  know : List Nat
  besides : Besides
  event : Nat
  buf : List LaneAcc
  deriving DecidableEq, Repr

/-- Write stream `n` of a fibre that has left, still draining as an engine command does (R98, R185), with the fibre's team, context and
core. -/
structure Drain where
  fib : Nat
  n : Nat
  team : Nat
  ctx : Nat
  core : Nat
  stream : Stream
  deriving DecidableEq, Repr

/-- Why a fibre is frozen (R104, R303): kind, lanes of the record, whether `rfe` has marked it for resumption at restore, the cycle, and the
PC of the faulting or stopped instruction (R327). -/
structure Freeze where
  kind : Nat
  lanes : LaneMask
  resume : Bool
  cycle : Nat
  pc : Word
  deriving DecidableEq, Repr

/-- A path's collector latch (R212): the `mma` A register and type, the path's key, and the group read in each lane. -/
structure Latch where
  a : Nat
  t : MmaTy
  pc : Word
  depth : Nat
  rows : List (Nat × List Word)
  deriving DecidableEq, Repr

/-- A fibre: a wide or narrow fibre of one team, or one packed narrow fibre (R83, R84). `nPriv`, `nWin` and `nAlloc` are N, W and A of
R73; `regs` holds v0 to v(A-1), the window registers' places unused. `readyAt` is the first cycle in which a helper is ready. -/
structure Fibre where
  uid : Nat
  team : Nat
  ctx : Nat
  core : Nat
  quad : Nat
  slot : Nat
  pos : Nat
  block : Nat
  width : Nat
  helper : Bool
  grp : Nat
  nPriv : Nat
  nWin : Nat
  nAlloc : Nat
  regs : List VReg
  pendW : List PendW
  pendP : List PendP
  fflags : Word
  stklim : Word
  chk : Bool
  agelimit : Nat
  frozen : Option Freeze
  latches : List Latch
  streams : List (Option Stream)
  theta : BitVec 32
  eps : BitVec 32
  maxDepth : Nat
  dot : Bool
  readyAt : Nat
  threads : List Thread
  deriving DecidableEq, Repr, Inhabited

/-- A slot group (R101): window registers (R74) and the fibre barrier (R108, R109). `know`, `ids`, `openKnow` and `openIds` are as in
`Barrier`. -/
structure Group where
  uid : Nat
  regs : List VReg
  phase : Nat
  know : List Nat
  ids : List Nat
  openKnow : List Nat
  openIds : List Nat
  deriving DecidableEq, Repr, Inhabited

/-! ### Teams -/

/-- A live Pallet reservation (R204) with its K and column strides (R210). -/
structure Handle where
  record : Word
  sk : Word
  sc : Word
  deriving DecidableEq, Repr

/-- A recorded `mma` operation: tile, type, `.z`, B value, PC, and the quadrant of the last signer so far (R208, R211). -/
structure MmaRec where
  ta : Nat
  t : MmaTy
  z : Bool
  b : Word
  pc : Word
  quad : Nat
  deriving DecidableEq, Repr

/-- A convergence register (R208): idle, or armed with a count or a fixed set of logical threads, the signers so far, the recorded
operation and the rows (logical index, group registers). -/
inductive Conv where
  | idle
  | armed (count : Option Nat) (set : List Nat) (signed : List Nat) (op : Option MmaRec) (rows : List (Nat × List Word))
  deriving DecidableEq, Repr, Inhabited

/-- A named barrier (R222). `know` (commands) and `ids` (accesses in flight) are what the arrivals of its completed phases have released,
`openKnow` and `openIds` those of the open phase so far: the model's own record for R195, R197 and R226. -/
structure Barrier where
  phase : BitVec 32
  n : Nat
  arrived : Nat
  joined : Nat
  landed : Nat
  know : List Nat
  ids : List Nat
  openKnow : List Nat
  openIds : List Nat
  deriving DecidableEq, Repr, Inhabited

/-- A shadow byte not yet published (R197, R218): command, object (0 to 7 buffer, 8 to 15 handle, 16 to 31 tile), physical
address or Pallet or tile offset, page kind, virtual address, and the byte. Newest first. -/
structure ShadowByte where
  cmd : Nat
  obj : Nat
  addr : Nat
  kind : Nat
  va : Word
  byte : Byte
  deriving DecidableEq, Repr

/-- A matrix operation issued and not complete (R211): tile, type, `.z`, 32 rows of A and the 16 × 32 B tile as exact encodings of
their element type, quadrant whose unit it occupies, earliest completion cycle, PC; `held`: its unit had not started it when its context was
pre-empted, so it waits for the team's restore (R19). -/
structure MmaOpn where
  id : Nat
  quad : Nat
  ta : Nat
  t : MmaTy
  z : Bool
  handle : Nat
  rows : List (Nat × List Word)
  b : List (List (BitVec 32))
  ready : Nat
  pc : Word
  held : Bool
  deriving DecidableEq, Repr

/-- State of a team from its placement on (R86). -/
inductive TeamState where
  | running | draining
  deriving DecidableEq, Repr, Inhabited

/-- A kernel header's terms as every team keeps them (R68, R73). -/
structure KernelHdr where
  entry : Word
  n : Nat
  w : Nat
  width : Nat
  rf : Nat
  sp : Nat
  tiles : Nat
  pallet : Nat
  stack : Nat
  overlays : List (Word × Nat × Bool)
  deriving DecidableEq, Repr, Inhabited

/-- A placed team. Scratchpad, Pallet and tiles are byte lists in the canonical form of memory, unlisted bytes 0; `cvPcs` holds the PC of the
latest instruction that changed or signed each convergence register (R327). -/
structure Team where
  uid : Nat
  ctx : Nat
  lid : Word
  index : Nat
  size : Nat
  hdr : KernelHdr
  depth : Nat
  state : TeamState
  core : Nat
  slots : List (Nat × Nat × Nat)
  grBase : Nat
  wave : Option Nat
  sp : List Host.Cell
  pallet : List Host.Cell
  tile : List Host.Cell
  shadow : List ShadowByte
  handles : List (Option Handle)
  cvs : List Conv
  cvPcs : List Word
  bars : List Barrier
  bufs : List (Option (Word × Nat))
  tlive : BitVec 16
  tliveOk : Bool
  mmas : List MmaOpn
  psigs : List (Nat × Word)
  freeCmds : List Nat
  deriving DecidableEq, Repr, Inhabited

/-! ### Accesses in flight -/

/-- Atomic operations (R170). -/
inductive AOp where
  | add | min | max | exch | and | or | xor
  deriving DecidableEq, Repr

/-- What a flight does when it performs. -/
inductive FKind where
  | load (t : NTy) (size : Size)
  /-- a store; `left`: the steps that a store to a replicated page has still to take, `q + 4 * part` for the copy in Quarter `q` and the
  aligned 8-byte part counted from its first byte (R156, R157); empty when it performs in one step -/
  | store (left : List Nat)
  /-- the first page's part of a load that straddles pages, whose bytes it hands to the flight `load` (R155) -/
  | piece (load : Nat)
  | atom (op : AOp) (t : ATy) (ftz : Bool)
  | cas (t : CTy)
  | red (op : AOp) (t : ATy) (ftz : Bool)
  /-- `wake` (R178) -/
  | wake
  /-- register results fixed at issue, one word for each destination in `ops`; `uni`: shape U; `keep`: they land in the lanes of
  threads that have exited too (R98) -/
  | result (uni : Bool) (keep : Bool)
  /-- a whole register value fixed at issue, with its shape (R80) -/
  | regw (v : VReg)
  /-- a predicate result fixed at issue, in `ops`; `keep` as above -/
  | presult (keep : Bool)
  /-- `tlbi` (R163): completes when the flights in `after` have performed, the tasks named as (fibre, lane, sequence number) have
  committed or lost their buffers, the waiters named have returned, and the zeroings of the entries named have ended -/
  | tlbi (tasks : List (Nat × Nat × Nat)) (parked : List Nat) (zeros : List Nat)
  /-- a tile read from memory (R206) -/
  | accld (ta : Nat)
  /-- the time base, read when it returns (R320) -/
  | clk
  /-- `join` (R253): each lane waits for the child its word names -/
  | join
  /-- `halt.ctx`: waits until the context has been Halted (R311); `seen`: it has -/
  | haltWait (ctx : Nat) (seen : Bool)
  /-- a `.g` flip at one home Quarter (R197) -/
  | flip (quarter : Nat)
  /-- `sclose` of write stream `n`, which completes with its drain (R185) -/
  | drain (n : Nat)
  deriving DecidableEq, Repr

/-- An instruction whose effect or result is still to come (R46). `after` lists the flights it must follow (R168, R174, R175);
`acqs` lists the fences that have made a load an acquire (R175), `through` makes a UO store write its home (R154), `path` holds the lanes of the issuing path. -/
structure Flight where
  id : Nat
  fib : Nat
  team : Nat
  ctx : Nat
  core : Nat
  kind : FKind
  acc : List LaneAcc
  dst : List Nat
  pdst : Option Nat
  full : Bool
  flags : Word
  ord : MOrd
  sc : Scope
  after : List Nat
  pc : Word
  acqs : List FenceAcq
  through : Bool
  path : LaneMask
  deriving DecidableEq, Repr

/-- An ordering a thread's later accesses must respect (R174, R175): the flights they wait for; which of them: every one, stores and
atomics only, releases only; `uo`: it holds accesses of UO kind too; `flush`: a `fence.uo`, at whose end the core's UO lines are dropped;
`walk`: a `fence.sc` at `.dev` or wider, after which walks see the table stores before it (R158); `total`: a `fence.sc` or
`fence.uo`, which takes its place in the total order when it ends (R174); its scope, by which host accesses are held or not (R155); the
core, the team, its event in the happens-before order, and the identity from which what issues comes after it. -/
structure Hold where
  fib : Nat
  lane : Nat
  ids : List Nat
  storesOnly : Bool
  relOnly : Bool
  uo : Bool
  flush : Bool
  walk : Bool
  total : Bool
  sc : Scope
  core : Nat
  team : Nat
  event : Nat
  since : Nat
  deriving DecidableEq, Repr

/-- A thread parked in `waitaddr` (R176): its identity, fibre, lane, team, core, the watched bytes and their kind, the FIFO they stand in
(Quarter), destination register, which is pending (R46), expected value, deadline, ordering, scope, the issuing path; whether it is marked for return while its
team is saved, and what the wake that has reached it there hands on (R178, R179). Waiters stand in FIFO order. -/
structure Waiter where
  id : Nat
  fib : Nat
  lane : Nat
  team : Nat
  ctx : Nat
  core : Nat
  acc : LaneAcc
  quarter : Nat
  dst : Nat
  expect : Word
  deadline : Word
  ord : MOrd
  sc : Scope
  pc : Word
  path : LaneMask
  marked : Bool
  notes : List RelNote
  deriving DecidableEq, Repr

/-- A cached leaf (R158): owner (core, or 400 + Plaza), context, page number of 64 KiB or of 512 MiB, entry, its address. -/
structure TlbEntry where
  owner : Nat
  ctx : Nat
  large : Bool
  page : Nat
  entry : Word
  entryAt : Nat
  deriving DecidableEq, Repr

/-- A walk that its Quarter's walker runs: core, and what it walks for: a fibre (kind 0), a command or build (1), an overlay load, by its base
(2), stream `n` of a fibre (3 + n). -/
structure Walker where
  core : Nat
  kind : Nat
  id : Nat
  deriving DecidableEq, Repr

/-- A zeroing recorded at a page's home (R153): address of the entry, first byte and length, whether the page is replicated, the walks that
wait for its end. -/
structure Zeroing where
  entryAt : Nat
  base : Nat
  len : Nat
  repl : Bool
  walks : List Walker
  deriving DecidableEq, Repr

/-- An L1 copy of a UO byte (R154): core, physical address, byte, who has written it there where it is dirty, and for a clean copy the moment as
of which it holds what its home held. -/
structure UoByte where
  core : Nat
  addr : Nat
  byte : Byte
  writer : Option Author
  moment : Nat
  deriving DecidableEq, Repr

/-! ### Engines -/

/-- Phase of a Trowel command or build: waiting to start, moving, suspended by a fault (R220), suspended and named by an `rfe` while its
record waits for room (R305, R312), all writes done. -/
inductive CmdState where
  | queued | moving | faulted (kind : Nat) (reason : Nat) (va : Word) | suspended | resuming | moved
  deriving DecidableEq, Repr, Inhabited

/-- The operation of a Trowel command. -/
inductive CmdOp where
  | cpy | gth | sct
  deriving DecidableEq, Repr, Inhabited

/-- A Trowel command (R213 to R220) in entry `entry` of its core's queue: resolved extents and strides, format, block length, scale
offsets, base addresses, barrier and the phase it joined, the issuing lanes, the accesses that its accesses, and those that its writes, must
follow, progress in dense positions, the higher positions already moved with the bytes each has written, the position of its latest step, and
the buffered stores of the issuing tasks, which its reads see (R196, R198). -/
structure Cmd where
  id : Nat
  core : Nat
  entry : Nat
  team : Nat
  ctx : Nat
  fib : Nat
  lid : Word
  teamIdx : Nat
  first : Nat
  pc : Word
  op : CmdOp
  dst : TSpace
  src : TSpace
  bar : Option Nat
  dstA : Word
  srcA : Word
  idxA : Word
  ext : List Nat
  str : List Word
  fmt : Nat
  blk : Bool
  sOff : Nat
  dOff : Nat
  after : List Nat
  afterW : List Nat
  lanes : LaneMask
  prog : Nat
  done : List (Nat × List (Int × Nat))
  pos : Nat
  state : CmdState
  know : List Nat
  besides : Besides
  buf : List LaneAcc
  deriving DecidableEq, Repr

/-- A Quoin build (R291) in one of its core's 16 build slots; a build lane by lane is one build. `acqs`: the fences that have made its reads
acquires (R175). -/
structure Build where
  id : Nat
  core : Nat
  entry : Nat
  team : Nat
  ctx : Nat
  fib : Nat
  lid : Word
  teamIdx : Nat
  first : Nat
  pc : Word
  path : LaneMask
  lanes : LaneMask
  dst : Nat
  full : Bool
  scratch : Bool
  config : Word
  keyA : Word
  payA : Word
  count : Nat
  strideK : Word
  strideD : Word
  fmt : Nat
  after : List Nat
  prog : Nat
  keys : List QKey
  state : CmdState
  know : List Nat
  besides : Besides
  acqs : List FenceAcq
  buf : List LaneAcc
  deriving DecidableEq, Repr

/-- A resident overlay of a core (R70): context, base, words. -/
structure Resident where
  core : Nat
  ctx : Nat
  base : Word
  words : List IWord
  deriving DecidableEq, Repr

/-- An overlay load in progress (R71). -/
structure OvlLoad where
  core : Nat
  ctx : Nat
  base : Word
  len : Nat
  deriving DecidableEq, Repr

/-! ### Queues, launches, contexts -/

/-- An entry of a queue as 64-bit words (for an expert queue, the tokens of a record not yet fired), the instant of its append, and the
commands its append hands on (R199). -/
structure QEntry where
  ws : List Word
  since : Word
  know : List Nat
  deriving DecidableEq, Repr

/-- A queue of a context (R233 to R236): committed descriptor words (none while Unallocated), a task queue's checked header, entries,
number of packets dispatched or tasks appended, dropped count, launch id of the packet dispatched last, the flight of its completion
write and the commands its retirement hands on; for an expert queue the batch slots (the grid that holds each), next slot and a pending request. -/
structure Queue where
  desc : Option (List Word)
  hdr : Option KernelHdr
  entries : List QEntry
  seq : Nat
  dropped : Nat
  last : Option Word
  wrote : Option Nat
  learnt : List Nat
  slots : List (Option Word)
  nextSlot : Nat
  fireReq : Bool
  deriving DecidableEq, Repr, Inhabited

/-- State of a graph node (R250). -/
inductive NodeState where
  | idle | armed (counter : Nat) | launched (lid : Word) | done
  deriving DecidableEq, Repr, Inhabited

/-- A graph node: number, record of eight words, state, the graph queue whose append armed it, and the commands that its append and its
predecessors hand on (R199). -/
structure GNode where
  num : Nat
  record : List Word
  state : NodeState
  queue : Nat
  know : List Nat
  deriving DecidableEq, Repr

/-- A grid (R86, R237, R238): launch id, packet, header terms, depth, teams of each Quarter still Queued as (Quarter, next, end), teams
placed and not retired, dispatch order, held-back teams reported (R298), parent grid, parent task as (queue, sequence number), whether it was refused and has retired,
the queue, batch slot and node its retirement serves, whether it is traced, the commands its threads know at the start, and those its
threads knew as they ended (R199). -/
structure Grid where
  ctx : Nat
  lid : Word
  packet : List Word
  hdr : KernelHdr
  depth : Nat
  todo : List (Nat × Nat × Nat)
  live : Nat
  order : Nat
  told : List Nat
  parent : Option Word
  parentTask : Option (Nat × Nat)
  refused : Bool
  retired : Bool
  queue : Option Nat
  slot : Option Nat
  node : Option Nat
  traced : Bool
  know : List Nat
  learnt : List Nat
  deriving DecidableEq, Repr

/-- A task waiting in a bin or a released wave (R242, R245), with the commands its append hands on (R236). -/
structure Task where
  seq : Nat
  header : Word
  args : List Word
  retries : Nat
  avoid : Option Nat
  since : Word
  know : List Nat
  deriving DecidableEq, Repr

/-- A bin of a Plaza (0 to 47): one queue and entry address (R245). -/
structure Bin where
  ctx : Nat
  queue : Nat
  plaza : Nat
  entry : Word
  tasks : List Task
  deriving DecidableEq, Repr

/-- A released wave waiting for placement (R245); `told`: it has been reported as held back (R298). -/
structure Wave where
  ctx : Nat
  queue : Nat
  plaza : Nat
  entry : Word
  tasks : List Task
  order : Nat
  told : Bool
  deriving DecidableEq, Repr

/-- A fault record waiting to be written (R304, R305): its eight words, the sequence field still zero; the accesses its write, a release,
must follow and the commands it hands on, with team and core of the fibre it is of; for a batch write the expert queue it is of (R249); the
word of an illegal instruction (R66). -/
structure FRecord where
  ws : List Word
  after : List Nat
  know : List Nat
  team : Nat
  core : Nat
  batch : Option Nat
  word : Option IWord
  deriving DecidableEq, Repr

/-- A team held in the save area (R301): everything the device saves, its offset in the save area, and its order. -/
structure SavedTeam where
  team : Team
  fibres : List Fibre
  groups : List Group
  cmds : List Cmd
  builds : List Build
  drains : List Drain
  off : Nat
  image : List Byte
  deriving DecidableEq, Repr

/-- State code of a context (R296). -/
inductive CState where
  | free | created | resident | running | preempted | switched | halted | destroyed
  deriving DecidableEq, Repr, Inhabited

/-- What a halt in progress ends in (R298, R299). -/
inductive HaltGoal where
  | switched | halted | destroyed
  deriving DecidableEq, Repr

/-- A context and its control block (R296, R297). `commits` holds QDESC and GNODE. -/
structure Ctx where
  state : CState
  prio : Nat
  slice : Nat
  root : Nat
  save : Nat
  savelen : Nat
  fqbase : Nat
  fqcap : Nat
  fqhead : Nat
  fqtail : Nat
  fqnote : Nat
  fqlost : Nat
  mortar : Word
  mwin : Nat
  frame : Nat
  chk : Bool
  agelimit : Nat
  wavewait : Nat
  dstopl : Word
  dstopt : Word
  dstopArmed : Bool
  waddr : List Word
  wctl : List Word
  qdesc : List Word
  qres : Nat
  gnode : List Word
  gres : Nat
  queues : List (Nat × Queue)
  nodes : List GNode
  childSeq : Nat
  waveSeq : Nat
  treeGens : List (Nat × Nat)
  owed : List FRecord
  notify : Bool
  saved : List SavedTeam
  runSince : Word
  goal : Option HaltGoal
  haltAt : Word
  deriving DecidableEq, Repr, Inhabited

/-! ### The Mortar -/

/-- State of a vertex record (R258). -/
inductive VState where
  | unsealed (fib : Nat)
  | sealed
  deriving DecidableEq, Repr

/-- A record of a Quarter's vertex store (R254): slot, context, its 512 bits as eight words, state, whether it is spilled, scope of its
seal, the sealer's team and core, and the commands known at its seal. -/
structure Vertex where
  quarter : Nat
  slot : Nat
  ctx : Nat
  ws : List Word
  state : VState
  spilled : Bool
  sc : Scope
  sealer : Nat × Nat
  know : List Nat
  deriving DecidableEq, Repr

/-- The generation of a slot that has held a record (R257); a slot not listed has generation 1. -/
structure SlotGen where
  quarter : Nat
  slot : Nat
  gen : Nat
  deriving DecidableEq, Repr

/-! ### Memory -/

/-- The canonical form of a byte memory: addresses strictly rising from `lo` on, no entry equal to what an unlisted address reads
as, 0. -/
def Memory.wfFrom : Nat → List Host.Cell → Bool
  | _, [] => true
  | lo, (a, b) :: m => decide (lo ≤ a) && b != 0 && Memory.wfFrom (a + 1) m

/-- A memory in canonical form. -/
def Memory.wf (m : List Host.Cell) : Bool := Memory.wfFrom 0 m

/-! ### The device -/

/-- The age of a path of a fibre context (R89): place, key, age. -/
structure Age where
  core : Nat
  quad : Nat
  slot : Nat
  pos : Nat
  pc : Word
  depth : Nat
  age : Nat
  deriving DecidableEq, Repr

/-- The turn of a slot (R92, R103): context that holds it, cycle it took it, whether it has issued since. -/
structure Turn where
  core : Nat
  quad : Nat
  slot : Nat
  pos : Nat
  since : Nat
  issued : Bool
  deriving DecidableEq, Repr

/-- A quadrant's port: slot served last, the last cycle its latest issue keeps it, and the PCs it issued then (R85, R92). -/
structure Port where
  core : Nat
  quad : Nat
  last : Nat
  busy : Nat
  paths : List Word
  deriving DecidableEq, Repr

/-- A record the trace writer has still to write, with its Quarter (R324). -/
structure TraceRec where
  quarter : Nat
  ws : List Word
  deriving DecidableEq, Repr

/-- A fibre's part of a path by its key: fibre, PC, depth (R88). -/
structure PathKey where
  fib : Nat
  pc : Word
  depth : Nat
  deriving DecidableEq, Repr

/-- A `vframe` that a path of a fibre context has issued in the current cycle, and the frame it gave (R275). -/
structure Framed where
  core : Nat
  quad : Nat
  slot : Nat
  pos : Nat
  pc : Word
  depth : Nat
  val : Nat
  deriving DecidableEq, Repr

/-- The compute device: cores, memory, engines, queues and contexts. `mark` and `stuck` are the model's own: identities below `mark` were
given before the issues of the current cycle, and `stuck` lists the parts of paths whose next instruction its own conditions hold back in
this cycle (R86); `past`, newest first, `clock`, the moment of the latest such write, `before`, `agreed`, `scs`, what has taken a place in the total order of
`.sc`, and `hostKnow`, the events before the host's next access, are its records of the writes that loads may still miss (R174, R186, R187,
R190, R315). -/
structure Dev where
  mem : List Host.Cell
  nextId : Nat
  fibres : List Fibre
  groups : List Group
  teams : List Team
  flights : List Flight
  holds : List Hold
  waiters : List Waiter
  tlb : List TlbEntry
  zeroings : List Zeroing
  uo : List UoByte
  notes : List RelNote
  cmds : List Cmd
  builds : List Build
  residents : List Resident
  loads : List OvlLoad
  ctxs : List Ctx
  grids : List Grid
  bins : List Bin
  waves : List Wave
  trees : List QTree
  vertices : List Vertex
  slotGens : List SlotGen
  ages : List Age
  turns : List Turn
  ports : List Port
  served : List Nat
  order : Nat
  regions : Bool
  retiredCores : List Nat
  retiredWays : List Nat
  gated : List Nat
  idleSince : List (Nat × Word)
  trace : List TraceRec
  traceCtl : Word
  armed : Option (Nat × Nat)
  armedId : Word
  freeSeq : Nat
  created : Bool
  powered : Bool
  mark : Nat
  stuck : List PathKey
  drains : List Drain
  framed : List Framed
  past : List Past
  clock : Nat
  before : List Before
  agreed : List Agreed
  scs : List RelNote
  hostKnow : List Nat
  deriving DecidableEq, Repr

/-! ### Links, package and time -/

/-- A trace ring of a Quarter (R314, R324). -/
structure Ring where
  base : Nat
  cap : Nat
  head : Nat
  tail : Nat
  lost : Nat
  owed : Nat
  deriving DecidableEq, Repr, Inhabited

/-- An answer the device gives to the host, a peer, the resident service or the management port, newest first. The model's own outbox. -/
inductive Reply where
  /-- a host read's data, or Completer Abort (R315, R334) -/
  | hostRead (data : Option (List Byte))
  /-- a peer read's data, or an error completion (R316, R317) -/
  | peerRead (data : Option (List Byte))
  /-- a peer write or atomic: success or error completion -/
  | peerDone (ok : Bool)
  /-- the number of enabled cores, reported to the resident service (R15) -/
  | service (cores : Nat)
  /-- MSI-X vector (R313) -/
  | msix (vector : Nat)
  /-- management port: a protocol and its numbers or bytes (R333) -/
  | mgmt (protocol : Nat) (nums : List Nat) (data : List Byte)
  deriving DecidableEq, Repr

/-- Masters of the access tables (R334). -/
inductive Master where
  | host | peer (cls : Nat) | mgmt | control | security
  deriving DecidableEq, Repr

/-- Targets of the access tables (R334). -/
inductive Target where
  | contextControl | memoryWindow | hbm | registered | securityMemory
  deriving DecidableEq, Repr

/-- One entry of the access tables (R334). -/
structure Access where
  master : Master
  target : Target
  read : Bool
  write : Bool
  deriving DecidableEq, Repr

/-- Boot stage reached (R331): `held` with the report code, or the number of stages that have succeeded. -/
structure Boot where
  stage : Nat
  code : Nat
  deriving DecidableEq, Repr

/-- A corrected soft error in the window: unit kind (0 core, 1 HBM row, 2 SRAM way), unit, instant (R335). -/
structure SoftError where
  kind : Nat
  unit : Nat
  time : Word
  deriving DecidableEq, Repr

/-- The package around the compute device: links, time discipline, power, boot, access tables, soft errors (R313 to R335). `staged` holds the
images a firmware update has stored since the last boot began, `stored` those that boots use (R333). -/
structure Env where
  tstat : Nat
  toffset : BitVec 32
  ptpctl : Word
  rings : List Ring
  smpper : Nat
  smpNext : Word
  dmwbase : Word
  dmwctx : Nat
  dmwerr : Nat
  msixTable : List Word
  msixPending : Word
  rma : List RmaReg
  locked : Bool
  stepped : Bool
  linkUp : Bool
  linkGen : Nat
  linkLanes : Nat
  boulevard : List Bool
  replies : List Reply
  cap : Nat
  hot : List Nat
  boot : Boot
  counter : Nat
  monitor : Option Image
  service : Option Image
  staged : List Image
  stored : List Image
  access : List Access
  denials : Nat
  softErrors : List SoftError
  retired : List (Nat × Nat)
  deriving DecidableEq, Repr

/-- The clocks (R16, R319): cycle of the arithmetic clock, time base in ns, the fraction of a ns in units of 1/(MHz × 10^6), clock in MHz,
rate at which the time base slews in ppm. -/
structure Clk where
  cycle : Nat
  now : Word
  frac : Nat
  mhz : Nat
  rate : Int
  deriving DecidableEq, Repr

/-- One narrow fibre's part of a path selected this cycle and still to issue (R88, R89). -/
structure Item where
  fib : Nat
  lanes : LaneMask
  pc : Word
  depth : Nat
  port : Nat
  deriving DecidableEq, Repr

/-- The whole machine. `agenda`, `issueQ` and `cur` are the model's own: which agent acts next (an event, or `none` for a cycle of
the arithmetic clock), the parts of paths selected in this cycle, and the part being executed. -/
structure State where
  dev : Dev
  env : Env
  clk : Clk
  agenda : List (Option Instr)
  issueQ : List Item
  cur : Option Item
  deriving DecidableEq, Repr

/-- A context number that has never been created (R296): Free, its registers as command 1 gives them (R297). -/
def Ctx.initial : Ctx :=
  { state := .free, prio := 0, slice := 0, root := 0, save := 0, savelen := 0, fqbase := 0, fqcap := 16, fqhead := 0, fqtail := 0,
    fqnote := 0, fqlost := 0, mortar := 0x3F80000000000000, mwin := 0, frame := 0, chk := false,
    agelimit := 64, wavewait := 2000, dstopl := 0, dstopt := 0, dstopArmed := false, waddr := [0, 0, 0, 0], wctl := [0, 0, 0, 0],
    qdesc := List.replicate 8 0, qres := 0, gnode := List.replicate 8 0, gres := 0, queues := [], nodes := [], childSeq := 0,
    waveSeq := 0, treeGens := [], owed := [], notify := false, saved := [], runSince := 0, goal := none, haltAt := 0 }

/-- The compute device after reset: no context, no team, nothing in flight. -/
def Dev.initial : Dev :=
  { mem := [], nextId := 0, fibres := [], groups := [], teams := [], flights := [], holds := [], waiters := [], tlb := [],
    zeroings := [], uo := [], notes := [], cmds := [], builds := [], residents := [], loads := [],
    ctxs := List.replicate 64 Ctx.initial, grids := [], bins := [], waves := [], trees := [], vertices := [], slotGens := [],
    ages := [], turns := [], ports := [], served := [63, 63, 63, 63], order := 0, regions := false, retiredCores := [], retiredWays := [],
    gated := [], idleSince := [], trace := [], traceCtl := 0, armed := none, armedId := 0, freeSeq := 0,
    created := false, powered := true, mark := 0, stuck := [], drains := [], framed := [],
    past := [], clock := 0, before := [], agreed := [], scs := [], hostKnow := [] }

/-- The package after reset: cap 3,000 W (R328), time base in free-run (R319), before boot stage 1 (R331). -/
def Env.initial : Env :=
  { tstat := 0, toffset := 0, ptpctl := 0, rings := List.replicate 4 ⟨0, 0, 0, 0, 0, 0⟩, smpper := 0, smpNext := 0, dmwbase := 0,
    dmwctx := 0, dmwerr := 0, msixTable := (List.replicate 64 [0, 0x100000000]).flatten,
    msixPending := 0, rma := [], locked := false, stepped := false, linkUp := false, linkGen := 0, linkLanes := 0,
    boulevard := List.replicate 6 true, replies := [], cap := 3000, hot := [], boot := ⟨0, 0⟩, counter := 0,
    monitor := none, service := none, staged := [], stored := [], access := [], denials := 0, softErrors := [], retired := [] }

/-- The machine right after reset. -/
def State.reset : State :=
  { dev := Dev.initial, env := Env.initial, clk := { cycle := 0, now := 0, frac := 0, mhz := 1700, rate := 0 }, agenda := [], issueQ := [],
    cur := none }

end Sys2Proof.Machine
end

