-- ==== Sys2Proof/Machine/Ops.lean ====
section
/-!
DEFINITION. The named operations over memory, registers, fibres and contexts; the issue of an instruction; taking a fault or stop
(R66, R104, R303 to R305) and the return from it (R312).
-/

namespace Sys2Proof.Machine

/-! ### Byte memories in canonical form -/

/-- One byte; an unlisted address reads 0. -/
def memRead : List Host.Cell → Nat → Byte
  | [], _ => 0
  | (k, b) :: m, a => if k = a then b else memRead m a

/-- A cell put where its address belongs among rising addresses. -/
def memInsert : List Host.Cell → Nat → Byte → List Host.Cell
  | [], a, v => [(a, v)]
  | (k, b) :: m, a, v => if a < k then (a, v) :: (k, b) :: m else (k, b) :: memInsert m a v

/-- The memory with byte `a` set to `v`, in canonical form. -/
def memWrite (m : List Host.Cell) (a : Nat) (v : Byte) : List Host.Cell :=
  let rest := m.filter fun c => c.1 != a
  if v = 0 then rest else memInsert rest a v

/-- `n` bytes from `a`. -/
def memBytes (m : List Host.Cell) : Nat → Nat → List Byte
  | _, 0 => []
  | a, n + 1 => memRead m a :: memBytes m (a + 1) n

/-- Bytes written from `a` up. -/
def memPut : List Host.Cell → Nat → List Byte → List Host.Cell
  | m, _, [] => m
  | m, a, b :: bs => memPut (memWrite m a b) (a + 1) bs

/-- A 64-bit little-endian word. -/
def memWord (m : List Host.Cell) (a : Nat) : Word := leWord (memBytes m a 8)

/-! ### Finding and replacing -/

/-- A fibre by its identity. -/
def Dev.fibre? (d : Dev) (uid : Nat) : Option Fibre := d.fibres.find? fun f => f.uid == uid

/-- Replace a fibre. -/
def Dev.setFibre (d : Dev) (f : Fibre) : Dev := { d with fibres := d.fibres.map fun g => if g.uid == f.uid then f else g }

/-- A team by its identity. -/
def Dev.team? (d : Dev) (uid : Nat) : Option Team := d.teams.find? fun t => t.uid == uid

/-- Replace a team. -/
def Dev.setTeam (d : Dev) (t : Team) : Dev := { d with teams := d.teams.map fun g => if g.uid == t.uid then t else g }

/-- A slot group by its identity. -/
def Dev.group (d : Dev) (uid : Nat) : Group := (d.groups.find? fun g => g.uid == uid).getD
  { uid := uid, regs := [], phase := 0, know := [], ids := [], openKnow := [], openIds := [] }

/-- Replace a slot group. -/
def Dev.setGroup (d : Dev) (g : Group) : Dev := { d with groups := d.groups.map fun h => if h.uid == g.uid then g else h }

/-- A context's control block. -/
def Dev.ctx (d : Dev) (c : Nat) : Ctx := d.ctxs.getD c Ctx.initial

/-- Replace a context. -/
def Dev.setCtx (d : Dev) (c : Nat) (x : Ctx) : Dev := { d with ctxs := setAt d.ctxs c x }

/-- A grid by context and launch id. -/
def Dev.grid? (d : Dev) (c : Nat) (lid : Word) : Option Grid := d.grids.find? fun g => g.ctx == c && g.lid == lid

/-- Replace a grid. -/
def Dev.setGrid (d : Dev) (g : Grid) : Dev :=
  { d with grids := d.grids.map fun h => if h.ctx == g.ctx && h.lid == g.lid then g else h }

/-- A fresh identity. -/
def Dev.fresh (d : Dev) : Nat × Dev := (d.nextId, { d with nextId := d.nextId + 1 })

/-- The thread of a lane. -/
def Fibre.thread (f : Fibre) (L : Nat) : Thread := f.threads.getD L default

/-- Whether the lane holds a thread that has not exited (R9). -/
def Fibre.liveLane (f : Fibre) (L : Nat) : Bool := (f.thread L).life == .live

/-- The live lanes of a fibre (R9). -/
def Fibre.live (f : Fibre) : LaneMask := lanesWhere fun L => decide (L < f.width) && f.liveLane L

/-- The lanes that hold a thread, live or exited (R83). -/
def Fibre.held (f : Fibre) : LaneMask := lanesWhere fun L => decide (L < f.width) && (f.thread L).life != .empty

/-- Apply a function to every thread with its lane. -/
def Fibre.mapThreads (f : Fibre) (g : Nat → Thread → Thread) : Fibre := { f with threads := f.threads.mapIdx g }

/-- Apply a function to the threads of some lanes. -/
def Fibre.onLanes (f : Fibre) (m : LaneMask) (g : Nat → Thread → Thread) : Fibre :=
  f.mapThreads fun L t => if m.has L then g L t else t

/-- A core in privileged configuration: the eight control cores, numbered from 384 in the model (R13, R308). -/
def privilegedCore (core : Nat) : Bool := decide (384 ≤ core)

/-- The Quarter of a core (R13); control cores 384 to 391 stand two on each compute die. -/
def quarterOf (core : Nat) : Nat := if core < 384 then core / 96 else (core - 384) / 2 % 4

/-- The Plaza of a core, 0 to 47 across the package (R13). DESIGN CHOICE (assumption 54): R13 numbers no control core among the Plazas; the
model puts each in the first Plaza of its Quarter, whose second-level TLB it shares. -/
def plazaOf (core : Nat) : Nat := if core < 384 then core / 8 else 12 * quarterOf core

/-! ### Registers -/

/-- Whether an index names a window register (R73). -/
def Fibre.isWindow (f : Fibre) (i : Nat) : Bool := decide (f.nPriv ≤ i) && decide (i < f.nPriv + f.nWin)

/-- A vector register with its tag; `vz` is U 0 (R48, R49). -/
def regOf (d : Dev) (f : Fibre) (i : Nat) : VReg :=
  if i = 255 then .u 0
  else if f.isWindow i then (d.group f.grp).regs.getD (i - f.nPriv) (.u 0)
  else f.regs.getD i (.u 0)

/-- Lane `L` of a register: U and A expand, a G register holds 0 in an empty lane (R76, R83). -/
def laneVal (f : Fibre) (v : VReg) (L : Nat) : Word :=
  match v with
  | .u x => x
  | .a b s => b + BitVec.ofNat 64 L * s
  | .g vs => if (f.thread L).life == .empty then 0 else vs.getD L 0

/-- What a register stores for lane `L`, whether or not this fibre has a thread there: the lanes of a window register are shared (R74). -/
def VReg.lane (v : VReg) (L : Nat) : Word :=
  match v with
  | .u x => x
  | .a b s => b + BitVec.ofNat 64 L * s
  | .g vs => vs.getD L 0

/-- Lane `L` of register `i`, `reg(i, L)` of R67. -/
def regLane (d : Dev) (f : Fibre) (i L : Nat) : Word := laneVal f (regOf d f i) L

/-- Give register `i` a value with its tag; a write to `vz` is discarded (R48). -/
def putReg (d : Dev) (f : Fibre) (i : Nat) (v : VReg) : Dev :=
  if i = 255 then d
  else if f.isWindow i then
    let g := d.group f.grp
    d.setGroup { g with regs := setAt g.regs (i - f.nPriv) v }
  else d.setFibre { f with regs := setAt f.regs i v }

/-- R9: a write in some lanes of a register. With `full`, every live lane is written and the register takes the value's shape; a G
value then leaves the lanes that are not live as they were. Otherwise the register becomes G. A lane that is not written keeps what the
register stores for it, a sibling's lane of a window register too (R12, R74, R110). -/
def mergeReg (f : Fibre) (old : VReg) (lanes : LaneMask) (full : Bool) (v : VReg) : VReg :=
  let lanewise := VReg.g ((List.range f.width).map fun L => if lanes.has L then v.lane L else old.lane L)
  match full, v with
  | true, .g _ => lanewise
  | true, _ => v
  | false, _ => lanewise

/-- Predicate `i` of a lane; 31 is `pt` (R48, R67). -/
def predLane (f : Fibre) (i L : Nat) : Bool := i == 31 || (f.thread L).preds.getLsbD i

/-- Set predicate `i` of a thread; a write to `pt` is discarded (R48). -/
def Thread.setPred (t : Thread) (i : Nat) (b : Bool) : Thread :=
  if 24 ≤ i then t
  else { t with preds := if b then t.preds ||| (1#24 <<< i) else t.preds &&& ~~~(1#24 <<< i) }

/-- Land the fixed-latency predicate writes due by `cycle`, in order (R46). -/
def landPreds (cycle : Nat) (f : Fibre) : Fibre :=
  let due := f.pendP.filter fun p => decide (p.land ≤ cycle)
  let f := due.foldl (fun f p => f.onLanes p.lanes fun L t => t.setPred p.idx (p.vals.has L)) f
  { f with pendP := f.pendP.filter fun p => !decide (p.land ≤ cycle) }

/-- What a fixed-latency write puts over a register: its value, or with some bits of a lane only, those bits over the lane as it stands
when the write lands (R90, R143). -/
def PendW.over (p : PendW) (old : VReg) : VReg :=
  if p.bits.isEmpty then p.val
  else .g (p.bits.mapIdx fun L m => (p.val.lane L &&& m) ||| (old.lane L &&& ~~~m))

/-- Land one fixed-latency register write, in all its lanes in one cycle. A sibling that reads a window register without an intervening
`fbar.sync` may see the old or the new value in each lane (R12); DESIGN CHOICE (assumption 55): it sees the old one in every lane before the
landing cycle and the new one in every lane from then on. -/
def landOne (d : Dev) (uid : Nat) (p : PendW) : Dev :=
  match d.fibre? uid with
  | none => d
  | some f => putReg d f p.reg (mergeReg f (regOf d f p.reg) p.lanes p.full (p.over (regOf d f p.reg)))

/-- Whether a fixed-latency write lands by a cycle: not while a result that takes effect before it is still owed (R90). -/
def PendW.due (p : PendW) (d : Dev) (cycle : Nat) : Bool :=
  decide (p.land ≤ cycle) && !p.after.any fun i =>
    d.flights.any (fun g => g.id == i) || d.builds.any (fun b => b.id == i) || d.waiters.any fun w => w.id == i

/-- Land every fixed-latency write of a fibre due by `cycle`, earliest landing first, then program order (R46). -/
def landFibre (cycle : Nat) (d : Dev) (uid : Nat) : Dev :=
  match d.fibre? uid with
  | none => d
  | some f =>
    if f.pendW.isEmpty && f.pendP.isEmpty then d
    else
      let due := sortBy PendW.land (f.pendW.filter fun p => p.due d cycle)
      let f' := landPreds cycle { f with pendW := f.pendW.filter fun p => !p.due d cycle }
      due.foldl (fun d p => landOne d uid p) (d.setFibre f')

/-- Land everything due by `cycle`. -/
def landAll (cycle : Nat) (d : Dev) : Dev := (d.fibres.map Fibre.uid).foldl (fun d u => landFibre cycle d u) d

/-! ### Faults and stops -/

/-- What a fault or stop puts in its record (R303, R304). -/
structure FaultInfo where
  kind : Nat
  reason : Nat
  detail : Word
  lanes : LaneMask
  second : Word
  deriving DecidableEq, Repr

/-- Token of a fibre (R304). -/
def fibreToken (f : Fibre) : Nat := f.core % 512 + 512 * f.quad + 2048 * f.slot + 8192 * f.pos + 32768 * f.block

/-- Token of an engine entry (R304): `build` selects a Quoin build. -/
def engineToken (core entry : Nat) (build : Bool) : Nat :=
  core % 512 + 2048 * entry + (if build then 32768 else 0) + 524288

/-- Word 0 of a record without its sequence (R304). -/
def recWord0 (kind source reason width ctx : Nat) : Word :=
  BitVec.ofNat 64 (kind % 16 + 16 * source + 256 * (reason % 256) + 65536 * width + 16777216 * ctx)

/-- The team number a record or trace gives a lane: a task's sequence number, otherwise the team index (R304, R324). -/
def laneTeam (f : Fibre) (t : Team) (L : Nat) : Nat :=
  match (f.thread L).task with
  | some k => k.seq
  | none => t.index

/-- The launch id a record gives: the grid's, or the task queue's (R242); both are kept in the team. -/
def teamLaunch (t : Team) : Word := t.lid

/-- What the write of a fibre's record, a release at `.sys`, must follow: the memory accesses of the fibre in flight and those its acquires
and fences hold it behind (R305). -/
def recordAfter (d : Dev) (fib : Nat) : List Nat :=
  let mem := d.flights.filter fun g => g.acc.any fun a => !a.kinds.isEmpty
  let held := (d.holds.filter fun h => h.fib == fib).flatMap Hold.ids
  (mem.filter fun g => g.fib == fib || held.contains g.id).map Flight.id

/-- A resident overlay of a core by context and base (R70). -/
def residentAt (d : Dev) (core ctx : Nat) (base : Word) : Option Resident :=
  d.residents.find? fun r => r.core == core && r.ctx == ctx && r.base == base

/-- The word of a resident overlay at an address. -/
def Resident.word (r : Resident) (a : Word) : Option IWord := r.words[(a.toNat - r.base.toNat) / 12]?

/-- The instruction word that stands at a PC of a fibre, in the resident overlay that holds it. -/
def wordAt (d : Dev) (f : Fibre) (pc : Word) : Option IWord :=
  (d.residents.find? fun r => r.core == f.core && r.ctx == f.ctx && decide (r.base.toNat ≤ pc.toNat ∧ pc.toNat < r.base.toNat + 12 * r.words.length)).bind
    fun r => r.word pc

/-- The record of a fibre's fault or stop (R304), source 0. An illegal instruction's record holds the word itself beside its eight words, which
have no field for one (R66, R304; assumption 66). -/
def fibreRecord (now : Word) (d : Dev) (f : Fibre) (t : Team) (pc : Word) (i : FaultInfo) : FRecord :=
  { after := recordAfter d f.uid, know := dedupNat (f.threads.flatMap fun t => t.know ++ t.host.know), team := f.team, core := f.core, batch := none,
    word := if i.kind = 2 then wordAt d f pc else none,
    ws := [recWord0 i.kind 0 i.reason f.width f.ctx, now, pc, i.detail, i.lanes, i.second, teamLaunch t,
      BitVec.ofNat 64 (laneTeam f t ((lowestLane i.lanes).getD 0) % 2 ^ 32 + 2 ^ 32 * ((f.thread 0).logical % 4096) +
        2 ^ 44 * fibreToken f)] }

/-- Whether a context's fault queue has room (R305). -/
def ringRoom (x : Ctx) : Bool := decide ((x.fqtail + 2 ^ 32 - x.fqhead) % 2 ^ 32 < x.fqcap)

/-- A record is discarded and counted (R305). -/
def Ctx.lose (x : Ctx) : Ctx := { x with fqlost := min (x.fqlost + 1) (2 ^ 64 - 1) }

/-- Hand a record to the fault-queue writer of its context (R305): a record of kind 13 that finds the ring full is discarded and counted. -/
def oweRecord (d : Dev) (c : Nat) (r : FRecord) (refusal : Bool) : Dev :=
  let x := d.ctx c
  if refusal && !ringRoom x then d.setCtx c x.lose else d.setCtx c { x with owed := x.owed ++ [r] }

/-- A refusal report (kind 13, source 3): reason, packet or record address, launch id (R303, R304). -/
def oweRefusal (now : Word) (d : Dev) (c reason : Nat) (detail lid : Word) (team : Nat) : Dev :=
  oweRecord d c
    { ws := [recWord0 13 3 reason 0 c, now, 0, detail, 0, 0, lid, BitVec.ofNat 64 team], after := [], know := [], team := 0, core := 0,
      batch := none, word := none } true

/-- Put a task back into its bin (R245, R247). -/
def binTask (d : Dev) (ctx queue plaza : Nat) (k : Task) : Dev :=
  let entry := sextTo64 55 k.header.toNat
  let same := fun (b : Bin) => b.ctx == ctx && b.queue == queue && b.plaza == plaza && b.entry == entry
  if d.bins.any same then { d with bins := d.bins.map fun b => if same b then { b with tasks := b.tasks ++ [k] } else b }
  else { d with bins := d.bins ++ [{ ctx := ctx, queue := queue, plaza := plaza, entry := entry, tasks := [k] }] }

/-- The lanes among `m` whose task is retryable and has a retry left (R247). -/
def retryLanes (f : Fibre) (m : LaneMask) : LaneMask :=
  lanesWhere fun L => m.has L && match (f.thread L).task with
    | some k => k.retryable && decide (0 < k.retries)
    | none => false

/-- End the threads of the lanes without committing their buffers, and queue their tasks again with one retry less (R247). -/
def retryTasks (now : Word) (d : Dev) (f : Fibre) (m : LaneMask) : Dev :=
  let f' := f.onLanes m fun _ t => { t with life := .exited, wait := .none, task := none }
  m.lanes.foldl (fun d L =>
    match (f.thread L).task with
    | none => d
    | some k =>
      binTask d f.ctx k.queue (plazaOf f.core)
        { seq := k.seq, header := k.header, args := k.args, retries := k.retries - 1, avoid := some f.core, since := now,
          know := (f.thread L).know })
    (d.setFibre f')

/-- Freeze the fibre and owe its record (R104, R303). -/
def freezeWith (clk : Clk) (d : Dev) (f : Fibre) (t : Team) (pc : Word) (i : FaultInfo) : Dev :=
  let f' := { f with frozen := some { kind := i.kind, lanes := i.lanes, resume := false, cycle := clk.cycle, pc := pc } }
  oweRecord (d.setFibre f') f.ctx (fibreRecord clk.now d f t pc i) false

/-- What a record says of the lanes that are left of a fault: of a landing violation the reasons of those lanes alone (R304). -/
def FaultInfo.cut (i : FaultInfo) (rest : LaneMask) : FaultInfo :=
  if rest = i.lanes then i
  else if i.kind ≠ 6 then { i with lanes := rest }
  else
    let code := fun (L : Nat) => (if L < 32 then field i.detail (2 * L) 2 else field i.second (2 * (L - 32)) 2)
    let word := fun (lo : Nat) => BitVec.ofNat 64 (((List.range 32).map fun k =>
      if rest.has (lo + k) then code (lo + k) * 4 ^ k else 0).foldl (· + ·) 0)
    { i with lanes := rest, reason := 1 + code ((lowestLane rest).getD 0), detail := word 0, second := word 32 }

/-- TAKE A FAULT OR STOP. The fibre or lane block is frozen at its PC and one record goes to its context's fault queue (R66, R104,
R303, R304). A fibre that is frozen already takes nothing more (R90). In task threads, a fault other than a page fault ends the
faulting lanes that have a retry left and queues their tasks again; lanes without one freeze, with kind 8 when the task was
retryable (R247). -/
def takeFault (clk : Clk) (d : Dev) (uid : Nat) (pc : Word) (i : FaultInfo) : Dev :=
  match d.fibre? uid with
  | none => d
  | some f =>
    match d.team? f.team with
    | none => d
    | some t =>
      if f.frozen.isSome then d
      else if i.kind = 1 ∨ 9 ≤ i.kind ∨ t.wave = none then freezeWith clk d f t pc i
      else
        let again := retryLanes f i.lanes
        let rest := i.lanes &&& ~~~again
        let d := if again = 0 then d else retryTasks clk.now d f again
        if rest = 0 ∧ again ≠ 0 then d
        else
          let was := match (f.thread ((lowestLane rest).getD 0)).task with
            | some k => k.retryable
            | none => false
          let i := i.cut rest
          let i' := { i with kind := if was then 8 else i.kind, reason := if was then i.kind else i.reason }
          match d.fibre? uid with
          | none => d
          | some f => freezeWith clk d f t pc i'

/-- The fault of one lane of a memory instruction: kind, reason and the address that lane used (R166, R167). -/
structure LaneFault where
  lane : Nat
  kind : Nat
  reason : Nat
  va : Word
  deriving DecidableEq, Repr

/-- The lanes of some faults. -/
def faultLanes (fs : List LaneFault) : LaneMask := LaneMask.ofLanes (fs.map LaneFault.lane)

/-- The one record of a memory instruction's faults: the lowest faulting lane's kind, reason and address, every faulting lane in the
mask (R167), and the watch-hit mask (R181). -/
def partialFault (fs : List LaneFault) (hits : LaneMask) : FaultInfo :=
  let low := (sortBy LaneFault.lane fs).headD ⟨0, 0, 0, 0⟩
  { kind := low.kind, reason := low.reason, detail := low.va, lanes := faultLanes fs, second := hits }

/-- TAKE THE FAULTS of a memory instruction lane by lane (R167). In task threads each lane's own kind counts: a lane with a page fault keeps
its buffer and is not retried, the other lanes are retried while they can be (R247); what is left freezes with one record. -/
def takeFaults (clk : Clk) (d : Dev) (uid : Nat) (pc : Word) (fs : List LaneFault) (hits : LaneMask) : Dev :=
  match d.fibre? uid with
  | none => d
  | some f =>
    match d.team? f.team with
    | none => d
    | some t =>
      if f.frozen.isSome then d
      else if t.wave = none then freezeWith clk d f t pc (partialFault fs hits)
      else
        let again := retryLanes f (faultLanes (fs.filter fun b => b.kind != 1))
        let rest := fs.filter fun b => !again.has b.lane
        let d := if again = 0 then d else retryTasks clk.now d f again
        if rest.isEmpty then d
        else
          let i := partialFault rest (hits &&& ~~~again)
          let was := match (f.thread ((lowestLane i.lanes).getD 0)).task with
            | some k => k.retryable && i.kind != 1
            | none => false
          match d.fibre? uid with
          | none => d
          | some f => freezeWith clk d f t pc { i with kind := if was then 8 else i.kind, reason := if was then i.kind else i.reason }

/-- A stream whose engine goes on from the element that faulted (R185). -/
def resumeStream (o : Option Stream) : Option Stream := o.map fun s => { s with stop := none }

/-- RETURN FROM A FAULT OR STOP. `rfe` on a frozen fibre: the freeze is cleared, its threads go on as their conditions give (R104, R312)
and its streams from the elements that faulted (R185). -/
def resumeFibre (d : Dev) (f : Fibre) (lim : Word) : Dev :=
  d.setFibre { f with
    frozen := none
    streams := f.streams.map resumeStream
    stklim := if lim = BitVec.allOnes 64 then f.stklim else lim }

/-! ### Issue of an instruction -/

/-- The instruction being issued: state, fibre, team, the path's part, header, active lanes (R44). -/
structure Iss where
  s : State
  f : Fibre
  t : Team
  c : Item
  h : Hdr
  act : LaneMask

/-- Active lanes: lanes of the issuing path whose guard holds (R44). -/
def activeLanes (f : Fibre) (c : Item) (h : Hdr) : LaneMask :=
  lanesWhere fun L => c.lanes.has L && decide (L < f.width) && f.liveLane L && (predLane f h.guard.toNat L != h.neg)

/-- The instruction being issued, if a fibre is issuing. -/
def issOf (s : State) (h : Hdr) : Option Iss :=
  match s.cur with
  | none => none
  | some c =>
    match s.dev.fibre? c.fib with
    | none => none
    | some f =>
      match s.dev.team? f.team with
      | none => none
      | some t => some { s := s, f := f, t := t, c := c, h := h, act := activeLanes f c h }

/-- Every live lane of the fibre is active (R9). -/
def Iss.full (x : Iss) : Bool := x.act == x.f.live

/-- The lanes of the issuing part in ascending order, active ones. -/
def Iss.lanes (x : Iss) : List Nat := x.act.lanes

/-- What a body answers: the device after the instruction, or a device and the fault or stop to take on it. -/
inductive Res where
  | done (d : Dev)
  | trap (d : Dev) (i : FaultInfo)
  /-- the faults of a memory instruction lane by lane, with the watch-hit mask (R167, R181) -/
  | each (d : Dev) (fs : List LaneFault) (hits : LaneMask)

/-- A fault before any effect (R66). -/
def Iss.pre (x : Iss) (kind reason : Nat) (detail : Word) (lanes : LaneMask) : Res :=
  .trap x.s.dev { kind := kind, reason := reason, detail := detail, lanes := lanes, second := 0 }

/-- An illegal instruction found at issue (R66). -/
def Iss.illegal (x : Iss) : Res := x.pre 2 0 0 (if x.act = 0 then x.c.lanes else x.act)

/-- The path's threads move to the next word and obey the stall count (R8). -/
def advance (x : Iss) (words : Nat) (f : Fibre) : Fibre :=
  f.onLanes x.c.lanes fun _ t =>
    { t with pc := t.pc + BitVec.ofNat 64 (12 * words), stallTo := x.s.clk.cycle + max x.h.stall.toNat 1, stallPc := x.c.pc }

/-- Lanes that keep their PC at the instruction after all (R97, R167). -/
def keepPc (x : Iss) (m : LaneMask) (f : Fibre) : Fibre :=
  f.onLanes m fun _ t => { t with pc := x.c.pc, depth := x.c.depth }

/-- Any instruction but an `mma` with `ru` releases the path's collector latch (R212). -/
def releaseLatch (c : Item) (f : Fibre) : Fibre :=
  { f with latches := f.latches.filter fun l => !(l.pc == c.pc && l.depth == c.depth) }

/-- The names a trace record gives a path: one record, or one for each lane of a task wave (R325). Answers (lane of the name, lanes). -/
def traceNames (t : Team) (m : LaneMask) : List (Nat × LaneMask) :=
  match t.wave with
  | none => [((lowestLane m).getD 0, m)]
  | some _ => m.lanes.map fun L => (L, LaneMask.ofLanes [L])

/-- A trace record of a fibre (R324). -/
def traceRec (now : Word) (f : Fibre) (t : Team) (type sub' : Nat) (pc value : Word) (L : Nat) (m : LaneMask) (code unit : Nat) :
    TraceRec :=
  { quarter := quarterOf f.core,
    ws := [BitVec.ofNat 64 (type + 256 * sub' + 65536 * f.width + 16777216 * f.ctx), now, teamLaunch t,
      BitVec.ofNat 64 (laneTeam f t L % 2 ^ 32 + 2 ^ 32 * ((f.thread 0).logical % 4096)), pc, value, m,
      BitVec.ofNat 64 (code % 65536 + 65536 * (f.core % 512) + 2 ^ 25 * f.quad + 2 ^ 32 * unit)] }

/-- Hand records to the trace writer. -/
def emitTrace (d : Dev) (rs : List TraceRec) : Dev := { d with trace := d.trace ++ rs }

/-- The records of `mark` or of the `tm` hint for the issuing path (R323). -/
def markRecs (x : Iss) (sub' : Nat) (m : LaneMask) (value : Word) (code : Nat) : List TraceRec :=
  if x.s.dev.traceCtl.getLsbD 0 then
    (traceNames x.t m).map fun (L, m') => traceRec x.s.clk.now x.f x.t 1 sub' x.c.pc value L m' code 0
  else []

/-- The device as the body finds it: latch released, PCs advanced, the `tm` mark emitted (R45, R212). -/
def prologue (x : Iss) (words : Nat) (keepLatch : Bool) : Dev :=
  let f := if keepLatch then x.f else releaseLatch x.c x.f
  let d := x.s.dev.setFibre (advance x words f)
  if x.h.tm then emitTrace d (markRecs x 1 x.c.lanes 0 0) else d

/-- The issuing fibre as it stands in a device. -/
def Iss.fib (x : Iss) (d : Dev) : Fibre := (d.fibre? x.f.uid).getD x.f

/-- The issuing fibre's team as it stands in a device. -/
def Iss.team (x : Iss) (d : Dev) : Team := (d.team? x.t.uid).getD x.t

/-- Put a new device into a state. -/
def State.withDev (s : State) (d : Dev) : State := { s with dev := d }

/-- The outcome of a body: its device, or its fault taken. When the other port's instruction has frozen the fibre in this cycle, a
second fault takes no effect in any lane (R90). -/
def finish (x : Iss) (r : Res) : State :=
  match r with
  | .done d => x.s.withDev d
  | .trap d i => if x.f.frozen.isSome then x.s else x.s.withDev (takeFault x.s.clk d x.f.uid x.c.pc i)
  | .each d fs hits => if x.f.frozen.isSome then x.s else x.s.withDev (takeFaults x.s.clk d x.f.uid x.c.pc fs hits)

end Sys2Proof.Machine
end

