-- ==== Sys2Proof/Machine/Operands.lean ====
section
/-!
DEFINITION. Reading operands (R49 to R56) with the shapes they count as (R55), writing results (R9, R46, R76), and what each
instruction reads and writes (R46, R75).
-/

namespace Sys2Proof.Machine

/-! ### Reading -/

/-- The lane a pattern reads for lane `L` of a fibre of width `n` (R53). -/
def patLane (p : Pat) (n L : Nat) : Nat :=
  match p with
  | .none | .srot _ | .sbc _ => L
  | .rot k => (L + k.toNat) % n
  | .bc k => k.toNat % n
  | .bf k => Nat.xor L (k.toNat % n)
  | .mir => n - 1 - L

/-- The sub-element a pattern reads for sub-element `j` of `S` (R53). -/
def patSub (p : Pat) (S j : Nat) : Nat :=
  match p with
  | .srot k => (j + k.toNat) % S
  | .sbc k => k.toNat % S
  | _ => j

/-- `absval` of R54 on a sub-element. -/
def absSub (t : NTy) (x : Nat) : Nat :=
  match t with
  | .flt f => x % 2 ^ (f.width - 1)
  | .int i => if i.signed ∧ 2 ^ (i.width - 1) ≤ x then (2 ^ i.width - x) % 2 ^ i.width else x

/-- `negval` of R54 on a sub-element. -/
def negSub (t : NTy) (x : Nat) : Nat :=
  match t with
  | .flt f => if x < 2 ^ (f.width - 1) then x + 2 ^ (f.width - 1) else x - 2 ^ (f.width - 1)
  | .int i => (2 ^ i.width - x) % 2 ^ i.width

/-- Absolute first, then negate (R54). -/
def modSub (t : NTy) (neg abs : Bool) (x : Nat) : Nat :=
  let y := if abs then absSub t x else x
  if neg then negSub t y else y

/-- A vector-register operand in lane `L` (R53). -/
def srcReg (d : Dev) (f : Fibre) (r : RegOp) (t : NTy) (L : Nat) : Word :=
  let v := regLane d f r.idx.toNat (patLane r.pat f.width L)
  if r.pat = .none ∧ r.neg = false ∧ r.abs = false then v
  else mapSubs t.width fun j => modSub t r.neg r.abs (sub v t.width (patSub r.pat (nsub t.width) j))

/-- The 64-bit encoding of the value of an `f32` encoding; a NaN keeps its class (R52). -/
def f32To64 (x : Nat) : Nat :=
  let s := x / 2 ^ 31 % 2
  let e := x / 2 ^ 23 % 256
  let m := x % 2 ^ 23
  if e = 255 then s * 2 ^ 63 + 2047 * 2 ^ 52 + m * 2 ^ 29
  else if e = 0 then
    if m = 0 then s * 2 ^ 63
    else
      let k := m.log2
      s * 2 ^ 63 + (k + 874) * 2 ^ 52 + (m - 2 ^ k) * 2 ^ (52 - k)
  else s * 2 ^ 63 + (e + 896) * 2 ^ 52 + m * 2 ^ 29

/-- An immediate as a lane value (R52). -/
def immVal (t : NTy) (v : BitVec 22) : Word :=
  match t with
  | .int i => mapSubs i.width fun _ => (sextTo64 22 v.toNat).toNat % 2 ^ i.width
  | .flt .f16 | .flt .bf16 => mapSubs 16 fun _ => v.toNat % 65536
  | .flt .f32 => mapSubs 32 fun _ => v.toNat * 1024
  | .flt .f64 => BitVec.ofNat 64 (f32To64 (v.toNat * 1024))

/-- A special register as lane `L` reads it (R51, R106, R242). -/
def sregLane (d : Dev) (f : Fibre) (t : Team) (n : SReg) (L : Nat) : Word :=
  match n with
  | .lane => BitVec.ofNat 64 L
  | .tid => BitVec.ofNat 64 ((f.thread 0).logical + L)
  | .team => BitVec.ofNat 64 t.index
  | .launch => t.lid
  | .fibre => BitVec.ofNat 64 f.pos
  | .depth => BitVec.ofNat 64 t.depth
  | .tsize => BitVec.ofNat 64 t.size
  | .width => BitVec.ofNat 64 f.width
  | .core => BitVec.ofNat 64 f.core
  | .psig => (f.thread L).psig
  | .agelimit => BitVec.ofNat 64 f.agelimit
  | .chk => if f.chk then 1 else 0
  | .mwin => BitVec.ofNat 64 (d.ctx f.ctx).mwin
  | .wavewait => BitVec.ofNat 64 (d.ctx f.ctx).wavewait
  | .stklim => f.stklim

/-- An integer source in lane `L` (R53, R113). -/
def srcVal (d : Dev) (f : Fibre) (tm : Team) (t : NTy) (L : Nat) : Src → Word
  | .reg r => srcReg d f r t L
  | .imm v => immVal t v
  | .sr n => sregLane d f tm n L

/-- A float source in lane `L` (R129). -/
def fsrcVal (d : Dev) (f : Fibre) (t : FTy) (L : Nat) : FSrc → Word
  | .reg r => srcReg d f r (.flt t) L
  | .imm v => immVal (.flt t) v

/-- A 22-bit immediate, zero-extended, or an integer source read as `n64` (R207, R230, R308). -/
def srcZ (d : Dev) (f : Fibre) (tm : Team) (L : Nat) : Src → Word
  | .imm v => BitVec.ofNat 64 v.toNat
  | s => srcVal d f tm (.int .n64) L s

/-- The address of R56 in lane `L`. -/
def addrLane (d : Dev) (f : Fibre) (a : MAddr) (L : Nat) : Word :=
  regLane d f a.base.toNat L + match a.off with
    | .reg r => regLane d f r.toNat L
    | .imm v => sextTo64 22 v.toNat

/-- A plain register or a zero-extended immediate in lane `L`. -/
def riVal (d : Dev) (f : Fibre) (L : Nat) : RegImm → Word
  | .reg r => regLane d f r.toNat L
  | .imm v => BitVec.ofNat 64 v.toNat

/-! ### Shapes -/

/-- What an operand counts as (R55); A carries base and stride. -/
inductive Sh where
  | u
  | a (b : Word) (s : Word)
  | g
  deriving DecidableEq, Repr

/-- What a register counts as under a pattern and modifiers (R55). An A register under negate alone keeps its shape for 64-bit types;
for narrower types the sub-elements' negatives are no affine run, and it counts as G, a widening R76 allows. -/
def regShape (v : VReg) (r : RegOp) (t : NTy) : Sh :=
  match v, r.pat with
  | _, .bc _ => .u
  | .u _, _ => .u
  | .a b s, .none =>
    if r.abs then .g
    else if !r.neg then .a b s
    else match t with
      | .int .i64 | .int .n64 => .a (-b) (-s)
      | _ => .g
  | _, _ => .g

/-- What an integer source counts as (R51, R55). -/
def srcShape (d : Dev) (f : Fibre) (t : NTy) : Src → Sh
  | .reg r => regShape (regOf d f r.idx.toNat) r t
  | .imm _ => .u
  | .sr .lane => .a 0 1
  | .sr .tid => .a (BitVec.ofNat 64 (f.thread 0).logical) 1
  | .sr .psig => .g
  | .sr _ => .u

/-- What a float source counts as. -/
def fsrcShape (d : Dev) (f : Fibre) (t : FTy) : FSrc → Sh
  | .reg r => regShape (regOf d f r.idx.toNat) r (.flt t)
  | .imm _ => .u

/-- What a plain register counts as. -/
def plainShape (d : Dev) (f : Fibre) (r : Nat) : Sh :=
  match regOf d f r with
  | .u _ => .u
  | .a b s => .a b s
  | .g _ => .g

/-- Whether every register of a group counts as U. -/
def groupU (d : Dev) (f : Fibre) (r n : Nat) : Bool := (List.range n).all fun k => plainShape d f (r + k) == .u

/-- A subfield that is no literal, or holds a literal that satisfies a test. -/
def litOr (p : BitVec 22 → Bool) : Sub → Bool
  | .lit v => p v
  | .mark _ => true

/-- Whether a plain register or immediate counts as U. -/
def riU (d : Dev) (f : Fibre) : RegImm → Bool
  | .reg r => plainShape d f r.toNat == .u
  | .imm _ => true

/-- Whether an integer source counts as U. -/
def srcU (d : Dev) (f : Fibre) (s : Src) : Bool := srcShape d f (.int .n64) s == .u

/-- Whether a shape is U. -/
def Sh.isU : Sh → Bool
  | .u => true
  | _ => false

/-! ### Writing -/

/-- A result as a register value: U takes the value of the lowest active lane; G lists the active lanes. -/
def outReg (x : Iss) (sh : Sh) (val : Nat → Word) : VReg :=
  match sh with
  | .u => .u (val ((lowestLane x.act).getD 0))
  | .a b s => .a b s
  | .g => .g ((List.range x.f.width).map fun L => if x.act.has L then val L else 0)

/-- Schedule a fixed-latency register write in the active lanes (R9, R46). -/
def pushW (x : Iss) (f : Fibre) (reg : Nat) (lat : Nat) (v : VReg) : Fibre :=
  if reg = 255 ∨ x.act = 0 then f
  else { f with pendW := f.pendW ++
    [{ land := x.s.clk.cycle + lat, reg := reg, path := x.c.lanes, lanes := x.act, full := x.full, val := v, bits := [], pc := x.c.pc,
       after := [] }] }

/-- Schedule the write of a whole register value with its shape: when every live lane is active, the lanes of exited threads take the new
value too (R82). -/
def pushShape (x : Iss) (f : Fibre) (reg : Nat) (lat : Nat) (v : VReg) : Fibre :=
  if reg = 255 ∨ x.act = 0 then f
  else { f with pendW := f.pendW ++
    [{ land := x.s.clk.cycle + lat, reg := reg, path := x.c.lanes, lanes := if x.full then x.f.held else x.act, full := x.full,
       val := v, bits := [], pc := x.c.pc, after := [] }] }

/-- Schedule a fixed-latency predicate write in the active lanes; `pt` discards it (R48). -/
def pushP (x : Iss) (f : Fibre) (idx : Nat) (lat : Nat) (v : Nat → Bool) : Fibre :=
  if 24 ≤ idx ∨ x.act = 0 then f
  else { f with pendP := f.pendP ++
    [{ land := x.s.clk.cycle + lat, idx := idx, path := x.c.lanes, lanes := x.act, vals := lanesWhere fun L => x.act.has L && v L, pc := x.c.pc }] }

/-- `raise(f)`: OR flags into `sr.fflags` when some lane is active (R32). -/
def raise (f : Fibre) (fl : Word) : Fibre := { f with fflags := f.fflags ||| (fl &&& 0x7F) }

/-- Write one register of some lanes at once, as a variable-latency result does when it returns (R9). -/
def writeNow (d : Dev) (uid reg : Nat) (lanes : LaneMask) (full : Bool) (v : VReg) : Dev :=
  if lanes = 0 then d
  else match d.fibre? uid with
    | none => d
    | some f => putReg d f reg (mergeReg f (regOf d f reg) lanes full v)

/-- Write a predicate of some lanes at once. -/
def writePredNow (d : Dev) (uid idx : Nat) (lanes : LaneMask) (v : Nat → Bool) : Dev :=
  match d.fibre? uid with
  | none => d
  | some f => d.setFibre (f.onLanes lanes fun L t => t.setPred idx (v L))

/-! ### What an instruction reads and writes -/

/-- A register use: first register, how many, whether read, latency of the write (0: variable), if written, and whether even one register
counts as a group, whose last index may not be 255 (R146). -/
structure RUse where
  first : Nat
  n : Nat
  rd : Bool
  wr : Option Nat
  grp : Bool
  deriving DecidableEq, Repr

/-- Register and predicate uses: predicates read, predicates written with latency. -/
structure Uses where
  regs : List RUse
  pr : List Nat
  pw : List (Nat × Nat)
  deriving DecidableEq, Repr

/-- A group of registers read. -/
def rdG (r : Reg) (n : Nat) : RUse := ⟨r.toNat, n, true, none, false⟩

/-- A register read. -/
def rd1 (r : Reg) : RUse := rdG r 1

/-- A group of registers written with a latency. -/
def wrG (r : Reg) (n lat : Nat) : RUse := ⟨r.toNat, n, false, some lat, false⟩

/-- A use of a group of `qnt` or `dqnt` (R146). -/
def RUse.group (u : RUse) : RUse := { u with grp := true }

/-- A register written with a latency. -/
def wr1 (r : Reg) (lat : Nat) : RUse := wrG r 1 lat

/-- A register read and written with a latency. -/
def rw1 (r : Reg) (lat : Nat) : RUse := ⟨r.toNat, 1, true, some lat, false⟩

/-- Registers of an integer source. -/
def usS : Src → List RUse
  | .reg r => [rd1 r.idx]
  | _ => []

/-- Registers of a float source. -/
def usF : FSrc → List RUse
  | .reg r => [rd1 r.idx]
  | _ => []

/-- Registers of a plain register or immediate. -/
def usRI : RegImm → List RUse
  | .reg r => [rd1 r]
  | _ => []

/-- Registers of an address. -/
def usA (a : MAddr) : List RUse := rd1 a.base :: usRI a.off

/-- Registers of a parameter block's markers (R62). -/
def usPB (b : ParamBlock) : List RUse :=
  [b.s0, b.s1, b.s2, b.s3, b.s4, b.s5, b.s6, b.s7, b.s9, b.s10].filterMap fun s =>
    match s with
    | .mark r => some (rd1 r)
    | .lit _ => none

/-- A predicate written with a latency. -/
def pw1 (p : PredIdx) (lat : Nat) : List (Nat × Nat) := [(p.toNat, lat)]

/-- Registers only. -/
def uses (rs : List RUse) : Uses := ⟨rs, [], []⟩

/-- Registers and one predicate result. -/
def usesP (rs : List RUse) (p : PredIdx) (lat : Nat) : Uses := ⟨rs, [], pw1 p lat⟩

/-- A compare's destination (R118, R133). -/
def usCmp (d : CmpDst) (lat : Nat) (rs : List RUse) : Uses :=
  match d with
  | .pred p _ => ⟨rs, [], pw1 p lat⟩
  | .vec r => ⟨wr1 r lat :: rs, [], []⟩

/-- Registers a group moves under a size (R165). -/
def sizeRegs : Size → Nat
  | .e | .r => 1
  | .r2 => 2
  | .r4 => 4

/-- Bytes one lane moves (R165). -/
def sizeBytes (t : NTy) : Size → Nat
  | .e => t.width / 8
  | s => 8 * sizeRegs s

/-- Latency of a pair half (R46, R60). -/
def halfLat (h : Half) : Nat := if h.op.isFma then 6 else 4

/-- Register uses of a pair half (R57, R58). -/
def usHalf (h : Half) : List RUse :=
  match h.op with
  | .hnop => []
  | .mov | .not => [wr1 h.d (halfLat h), rd1 h.s1]
  | .ffma => [rw1 h.d (halfLat h), rd1 h.s1, rd1 h.s2]
  | _ => [wr1 h.d (halfLat h), rd1 h.s1, rd1 h.s2]

/-- A conversion that narrows also reads D (R136). -/
def usCvt (d : Reg) (narrow : Bool) (src : List RUse) : Uses := uses ((if narrow then rw1 d 6 else wr1 d 6) :: src)

/-- What each instruction reads and writes, apart from its guard (R46, R75). The groups of `qnins` and `qnwalk` depend on each lane's
tree and are checked at issue (R290). -/
def usesOf : Instr → Uses
  | .nop _ | .bra _ _ | .call _ _ | .ret _ | .exit _ | .yield _ => uses []
  | .brx _ r | .callx _ r => uses [rd1 r]
  | .voteAny _ d p | .voteAll _ d p => ⟨[], [p.idx.toNat], pw1 d 4⟩
  | .voteMask _ d p => ⟨[wr1 d 4], [p.idx.toNat], []⟩
  | .matchAny _ d a => uses [wr1 d 8, rd1 a.idx]
  | .matchAll _ d a => usesP [rd1 a.idx] d 8
  | .iadd _ o | .isub _ o | .imul _ o | .idiv _ o | .pack _ o => uses (wr1 o.d 4 :: usS o.a ++ usS o.b)
  | .imad _ o => uses (rw1 o.d 4 :: usS o.a ++ usS o.b)
  | .iaddc _ o => ⟨wr1 o.d 4 :: usS o.a ++ usS o.b, [o.k.toNat], [(o.k.toNat, 4)]⟩
  | .lea _ o => uses (wr1 o.d 4 :: usS o.a ++ usS o.b)
  | .imulh _ o | .irem _ o | .imin _ o | .imax _ o | .and _ o | .or _ o | .xor _ o | .shl _ o | .shr _ o | .sar _ o | .rot _ o
  | .bfe _ o => uses (wr1 o.d 4 :: usS o.a ++ usS o.b)
  | .bfi _ o | .bmix _ _ o => uses (rw1 o.d 4 :: usS o.a ++ usS o.b)
  | .isel _ p o => ⟨wr1 o.d 4 :: usS o.a ++ usS o.b, [p.toNat], []⟩
  | .ineg _ o | .iabs _ o => uses (wr1 o.d 4 :: usS o.a)
  | .not _ o | .popc _ o | .clz _ o | .ctz _ o | .brev _ o | .mov _ o | .unpkLo _ o | .unpkHi _ o => uses (wr1 o.d 4 :: usS o.a)
  | .icmp _ _ _ d a b => usCmp d 4 (usS a ++ usS b)
  | .movi _ _ d _ => uses [wr1 d 4]
  | .movhM _ d a _ => uses [wr1 d 4, rd1 a]
  | .movhH _ d a _ => uses [wr1 d 4, rd1 a]
  | .plop _ _ d a b => ⟨[], [a.idx.toNat, b.idx.toNat], pw1 d 4⟩
  | .p2v _ d a => ⟨[wr1 d 4], [a.idx.toNat], []⟩
  | .p2vAll _ d => ⟨[wr1 d 4], List.range 24, []⟩
  | .v2p _ d a => usesP (usS a) d 4
  | .v2pAll _ a => ⟨usS a, [], (List.range 24).map fun p => (p, 4)⟩
  | .pair _ o => uses (usHalf o.h0 ++ usHalf o.h1)
  | .fadd _ o | .fsub _ o | .fmul _ o => uses (wr1 o.d 6 :: usF o.a ++ usF o.b)
  | .ffma _ o => uses (rw1 o.d 6 :: usF o.a ++ usF o.b)
  | .fmin _ o | .fmax _ o => uses (wr1 o.d 6 :: usF o.a ++ usF o.b)
  | .fcmp _ _ _ _ d a b => usCmp d 6 (usF a ++ usF b)
  | .fdiv _ o => uses (wr1 o.d 0 :: usF o.a ++ usF o.b)
  | .fsqrt _ o | .frcp _ o | .frsq _ o | .fexp2 _ o | .flog2 _ o | .fsin _ o | .fcos _ o => uses (wr1 o.d 0 :: usF o.a)
  | .frnd _ o | .frndX _ o => uses (wr1 o.d 6 :: usF o.a)
  | .fclass _ _ d a => uses (wr1 d 6 :: usF a)
  | .fcvt _ s _ o => usCvt o.d (decide (o.t.width < s.width)) (usF o.a)
  | .f2i _ t s _ _ _ d a => usCvt d (decide (t.width < s.width)) (usF a)
  | .i2f _ t s _ _ _ d a => usCvt d (decide (t.width < s.width)) (usS a)
  | .fscale _ _ _ _ d a b => uses (wr1 d 6 :: usF a ++ usS b)
  | .fdot2 _ _ _ _ d a b => uses (rw1 d 6 :: usF a ++ usF b)
  | .fflag _ d _ => uses [wr1 d 0]
  | .lpull _ _ d a b => uses (wr1 d 8 :: usS a ++ usS b)
  | .lpush _ _ d a b => uses (rw1 d 8 :: usS a ++ usS b)
  | .lred _ _ _ _ _ _ d a => uses (wr1 d 8 :: usS a)
  | .lscan _ _ _ _ _ _ _ d a => uses (wr1 d 8 :: usS a)
  | .rnd _ d a b | .rndF32 _ d a b | .rndF64 _ d a b => uses (wr1 d 8 :: usS a ++ usS b)
  | .qnt _ t _ _ d a => uses [(wrG d t.regs 8).group, rdG a 8]
  | .dqnt _ t _ _ d a => uses [wrG d 8 8, (rdG a t.regs).group]
  | .ld _ o => uses (wrG o.d (sizeRegs o.size) 0 :: usA o.addr)
  | .st _ o | .stMc _ o => uses (rdG o.d (sizeRegs o.size) :: usA o.addr)
  | .atomAdd _ o | .atomMin _ o | .atomMax _ o | .atomExch _ o | .atomAnd _ o | .atomOr _ o | .atomXor _ o =>
    uses (rw1 o.d 0 :: usA o.addr)
  | .cas _ _ _ _ _ d addr => uses (rdG d 2 :: wr1 d 0 :: usA addr)
  | .redAdd _ o | .redMin _ o | .redMax _ o | .redAnd _ o | .redOr _ o | .redXor _ o => uses (rd1 o.d :: usA o.addr)
  | .fenceAcq _ _ | .fenceRel _ _ | .fenceSc _ _ | .fenceUo _ _ => uses []
  | .waitaddr _ o => uses (rdG o.d 2 :: wr1 o.d 0 :: usA o.addr)
  | .wake _ o => uses (rd1 o.d :: usA o.addr)
  | .pfL1 _ a | .pfL2 _ a => uses (usA a)
  | .sopenR _ _ a | .sopenW _ _ a => uses [rdG a 4]
  | .snext _ d _ => uses [wr1 d 0]
  | .stest _ d _ | .sclose _ d _ => usesP [] d 0
  | .sput _ _ a => uses [rd1 a]
  | .pginfo _ d a => uses (wr1 d 0 :: usA a)
  | .tlbiPg _ _ d a b => usesP (rd1 a :: usS b) d 0
  | .tlbiCtx _ _ d b => usesP (usS b) d 0
  | .tlbiAll _ _ d => usesP [] d 0
  | .rxld _ d i => uses (wr1 d 6 :: usRI i)
  | .rxst _ i b => uses (rd1 b :: usRI i)
  | .shpget _ d a | .shpsetU _ d a | .shpsetA _ d a | .shpsetG _ d a => uses [wr1 d 4, rd1 a]
  | .fspawn _ d a _ => usesP [rd1 a] d 0
  | .fexit _ | .fbarArrive _ | .fbarWait _ | .fbarSync _ => uses []
  | .fstat _ d => uses [wr1 d 0]
  | .plres _ d _ b => usesP [rd1 b] d 0
  | .plrel _ _ => uses []
  | .cvsetN _ _ a => uses (usS a)
  | .cvsetF _ _ | .cvsign _ _ => uses []
  | .mma _ o | .mmaCv _ _ o => uses (rdG o.a o.t.regs :: usRI o.b)
  | .mmaShape _ _ pb => uses (usPB pb)
  | .accld _ o | .accst _ o => uses (usA o.addr)
  | .acczero _ _ | .tlive _ _ => uses []
  | .cpy _ o => uses (rdG o.a 2 :: usPB o.pb)
  | .gth _ o | .sct _ o => uses (rdG o.a 3 :: usPB o.pb)
  | .pub _ _ a => uses (usS a)
  | .pubReg _ d a _ => usesP [rdG a 2] d 0
  | .pubUnreg _ _ => uses []
  | .barv _ _ a | .bars _ _ a => uses (usS a)
  | .barw _ _ => uses []
  | .barq _ d _ => usesP [] d 0
  | .barqSt _ d _ => uses [wr1 d 0]
  | .qputM _ d a q => usesP (rd1 a :: usS q) d 0
  | .qputV _ d a q => usesP (usS a ++ usS q) d 0
  | .task _ d a g => usesP [rdG a 2, rdG g 8] d 0
  | .tend _ => uses []
  | .launch _ d a => uses [wr1 d 0, rd1 a]
  | .join _ d a | .joinPoll _ d a => uses (wr1 d 0 :: usS a)
  | .qfireEx _ d q | .qfireGn _ d q => usesP (usS q) d 0
  | .qstat _ d q => uses (wr1 d 0 :: usS q)
  | .qstatArg _ d _ => uses [wr1 d 0]
  | .vappEye _ d a p | .vappLight _ d a p => uses [wr1 d 0, rdG a 8, rd1 p]
  | .vseal _ _ d a => usesP [rd1 a] d 0
  | .vld _ _ d g a => usesP [wrG g 8 0, rd1 a] d 0
  | .vcon _ _ d w g => usesP [wrG w 1 0, rdG g 4] d 0
  | .vconAll _ _ d w g => usesP [wrG w 9 0, rdG g 4] d 0
  | .vmrg _ _ d w g => usesP [wrG w 1 0, rdG g 4] d 0
  | .vrew _ d a b => usesP (rd1 a :: usS b) d 0
  | .vpin _ d a | .vunpin _ d a => usesP [rd1 a] d 0
  | .vframe _ d => uses [wr1 d 0]
  | .qnins _ _ d a b => uses [wr1 d 0, rd1 a, rd1 b]
  | .qnbld _ _ d a pb => uses (wr1 d 0 :: rdG a 3 :: usPB pb)
  | .qnset _ a _ _ => uses [rd1 a]
  | .qnwalk _ _ d a b => usesP [rd1 a, rd1 b] d 0
  | .qnnext _ d => uses [wr1 d 0]
  | .qnend _ d => usesP [] d 0
  | .qnsum _ _ d g => usesP [wrG g 8 0] d 0
  | .trap _ _ | .brk _ _ => uses []
  | .sysr _ d a => uses (wr1 d 0 :: usS a)
  | .sysw _ a b => uses (usS a ++ usS b)
  | .haltCtx _ d a => usesP (usS a) d 0
  | .haltCore _ d a b | .rfe _ d a b => usesP (usS a ++ usS b) d 0
  | .clk _ d => uses [wr1 d 0]
  | .sleepAbs _ a | .sleepRel _ a => uses (usS a)
  | .mark _ a _ | .markAll _ a _ => uses (usS a)
  | _ => uses []

/-- The registers of a use, `vz` apart. -/
def RUse.list (u : RUse) : List Nat := ((List.range u.n).map fun k => u.first + k).filter (· != 255)

/-- R75: an encoded index at or above A that is not 255; in a group of several, index 255 too (R146, R165). -/
def RUse.outOf (u : RUse) (alloc : Nat) : Bool :=
  if u.n = 1 ∧ u.grp = false then u.first != 255 && decide (alloc ≤ u.first)
  else decide (alloc ≤ u.first + u.n - 1) || decide (255 ≤ u.first + u.n - 1)

/-- Registers whose old value the instruction reads. -/
def Uses.reads (u : Uses) : List Nat := (u.regs.filter RUse.rd).flatMap RUse.list

/-- Registers an instruction writes, with the latency. -/
def Uses.writes (u : Uses) : List (Nat × Nat) :=
  u.regs.flatMap fun r => match r.wr with
    | none => []
    | some l => r.list.map fun i => (i, l)

/-- The predicate an instruction's guard reads; `nop` ignores its guard (R65). -/
def guardOf (i : Instr) (h : Hdr) : Nat :=
  match i with
  | .nop _ => 31
  | _ => h.guard.toNat

/-- The header of an instruction; an event has none. -/
def hdrOf : Instr → Option Hdr
  | .nop h | .bra h .. | .brx h .. | .call h .. | .callx h .. | .ret h | .exit h | .yield h | .voteAny h .. | .voteAll h ..
  | .voteMask h .. | .matchAny h .. | .matchAll h .. | .iadd h .. | .isub h .. | .iaddc h .. | .imul h .. | .imulh h .. | .imad h ..
  | .idiv h .. | .irem h .. | .ineg h .. | .iabs h .. | .imin h .. | .imax h .. | .icmp h .. | .isel h .. | .and h .. | .or h ..
  | .xor h .. | .not h .. | .bmix h .. | .shl h .. | .shr h .. | .sar h .. | .rot h .. | .bfe h .. | .bfi h .. | .popc h ..
  | .clz h .. | .ctz h .. | .brev h .. | .lea h .. | .mov h .. | .movi h .. | .movhM h .. | .movhH h .. | .plop h .. | .p2v h ..
  | .p2vAll h .. | .v2p h .. | .v2pAll h .. | .pack h .. | .unpkLo h .. | .unpkHi h .. | .pair h .. | .fadd h .. | .fsub h ..
  | .fmul h .. | .ffma h .. | .fmin h .. | .fmax h .. | .fcmp h .. | .fdiv h .. | .fsqrt h .. | .frcp h .. | .frsq h ..
  | .fexp2 h .. | .flog2 h .. | .fsin h .. | .fcos h .. | .fclass h .. | .fcvt h .. | .f2i h .. | .i2f h .. | .frnd h ..
  | .frndX h .. | .fscale h .. | .fdot2 h .. | .fflag h .. | .lpull h .. | .lpush h .. | .lred h .. | .lscan h .. | .rnd h ..
  | .rndF32 h .. | .rndF64 h .. | .qnt h .. | .dqnt h .. | .ld h .. | .st h .. | .stMc h .. | .atomAdd h .. | .atomMin h ..
  | .atomMax h .. | .atomExch h .. | .atomAnd h .. | .atomOr h .. | .atomXor h .. | .cas h .. | .redAdd h .. | .redMin h ..
  | .redMax h .. | .redAnd h .. | .redOr h .. | .redXor h .. | .fenceAcq h .. | .fenceRel h .. | .fenceSc h .. | .fenceUo h ..
  | .waitaddr h .. | .wake h .. | .pfL1 h .. | .pfL2 h .. | .sopenR h .. | .sopenW h .. | .snext h .. | .stest h .. | .sput h ..
  | .sclose h .. | .pginfo h .. | .tlbiPg h .. | .tlbiCtx h .. | .tlbiAll h .. | .rxld h .. | .rxst h .. | .shpget h ..
  | .shpsetU h .. | .shpsetA h .. | .shpsetG h .. | .fspawn h .. | .fexit h | .fbarArrive h | .fbarWait h | .fbarSync h
  | .fstat h .. | .plres h .. | .plrel h .. | .cvsetN h .. | .cvsetF h .. | .cvsign h .. | .mma h .. | .mmaCv h ..
  | .mmaShape h .. | .accld h .. | .accst h .. | .acczero h .. | .tlive h .. | .cpy h .. | .gth h .. | .sct h .. | .pub h ..
  | .pubReg h .. | .pubUnreg h .. | .barv h .. | .bars h .. | .barw h .. | .barq h .. | .barqSt h .. | .qputM h .. | .qputV h ..
  | .task h .. | .tend h | .launch h .. | .join h .. | .joinPoll h .. | .qfireEx h .. | .qfireGn h .. | .qstat h ..
  | .qstatArg h .. | .vappEye h .. | .vappLight h .. | .vseal h .. | .vld h .. | .vcon h .. | .vconAll h .. | .vmrg h ..
  | .vrew h .. | .vpin h .. | .vunpin h .. | .vframe h .. | .qnins h .. | .qnbld h .. | .qnset h .. | .qnwalk h .. | .qnnext h ..
  | .qnend h .. | .qnsum h .. | .trap h .. | .brk h .. | .sysr h .. | .sysw h .. | .haltCtx h .. | .haltCore h .. | .rfe h ..
  | .clk h .. | .sleepAbs h .. | .sleepRel h .. | .mark h .. | .markAll h .. => some h
  | _ => none

end Sys2Proof.Machine
end

