-- ==== Sys2Proof/Machine/Order.lean ====
section
/-!
DEFINITION. What happens before what, and which writes a load may still miss (R154, R186 to R190): events, the order of writes, and older values.
-/

namespace Sys2Proof.Machine

/-! ### Events -/

/-- The event of a lane's read in a flight, and of all that its thread's order puts before it. -/
def readEv (id L : Nat) : Nat := 192 * id + L

/-- The event of a lane's write in a flight. -/
def writeEv (id L : Nat) : Nat := 192 * id + 64 + L

/-- The event of an identity by itself: a command's completion, an acquire that is no read of memory. -/
def soleEv (id : Nat) : Nat := 192 * id + 128

/-- What stands right before an event; `total`: by the total order of `.sc` fences too. -/
def priorOf (bs : List Before) (total : Bool) (e : Nat) : List Nat :=
  (bs.filter fun b => b.event == e && (total || !b.total)).flatMap Before.prior

/-- The events reached from `todo` besides those seen, in at most `k` steps. -/
def reachFrom (bs : List Before) (total : Bool) : Nat → List Nat → List Nat → List Nat
  | 0, todo, seen => todo ++ seen
  | _ + 1, [], seen => seen
  | k + 1, e :: todo, seen =>
    if seen.contains e then reachFrom bs total k todo seen else reachFrom bs total k (priorOf bs total e ++ todo) (e :: seen)

/-- Every event that happens before an access before which the events `ks` stand (R186); `total`: or that the total order of `.sc` fences puts
before it (R174). -/
def reach (bs : List Before) (total : Bool) (ks : List Nat) : List Nat :=
  if bs.isEmpty then ks else reachFrom bs total (ks.length + (bs.map fun b => b.prior.length).foldl (· + ·) 1) ks []

/-- Put some events before an event. -/
def Dev.addBefore (d : Dev) (e : Nat) (total : Bool) (ks : List Nat) : Dev :=
  if ks.isEmpty then d else { d with before := ⟨e, total, ks⟩ :: d.before }

/-- A fresh event with some events before it. -/
def Dev.join (d : Dev) (ks : List Nat) : Nat × Dev :=
  (soleEv d.nextId, { d with nextId := d.nextId + 1 }.addBefore (soleEv d.nextId) false ks)

/-! ### What a thread knows -/

/-- The events known of a thread's accesses of a kind besides its plain ones: UO, to host pages, or both. -/
def Thread.kept (t : Thread) (uo host : Bool) : Kept :=
  match uo, host with
  | false, false => ⟨t.know, []⟩
  | true, false => t.uo
  | false, true => t.host
  | true, true => t.uoHost

/-- The events that happen before a thread's next access of a kind. -/
def Thread.viewOf (t : Thread) (uo host : Bool) : List Nat := (t.kept uo host).view

/-- The thread's accesses of the kinds that an ordering at a scope reaches beyond the plain ones: UO accesses by a `fence.uo` (R154), those to
host pages at `.sys` (R155). -/
def Thread.reached (t : Thread) (uo : Bool) (sc : Scope) : List Nat :=
  t.know ++ (if uo then t.uo.know else []) ++ (if sc == .sys then t.host.know ++ if uo then t.uoHost.know else [] else [])

/-- Every access of the thread, and all that it knows (R199). -/
def Thread.all (t : Thread) : List Nat := t.reached true .sys

/-- The thread's later accesses of the kinds that an ordering reaches come after an event. -/
def Thread.after (t : Thread) (uo : Bool) (sc : Scope) (e : Nat) : Thread :=
  let add := fun (k : Kept) => { k with view := k.view ++ [e] }
  { t with
    know := t.know ++ [e]
    uo := if uo then add t.uo else t.uo
    host := if sc == .sys then add t.host else t.host
    uoHost := if uo && sc == .sys then add t.uoHost else t.uoHost }

/-- A fence's event, before which stand the thread's accesses that it reaches, takes their place (R175). -/
def Thread.fenced (t : Thread) (uo : Bool) (sc : Scope) (e : Nat) : Thread :=
  { t with
    know := [e]
    uo := if uo then ⟨[e], []⟩ else t.uo
    host := if sc == .sys then ⟨[e], []⟩ else t.host
    uoHost := if uo && sc == .sys then ⟨[e], []⟩ else t.uoHost }

/-- A thread that starts after some events (R199). -/
def Thread.begins (t : Thread) (ks : List Nat) : Thread :=
  { t with know := ks, uo := ⟨ks, []⟩, host := ⟨ks, []⟩, uoHost := ⟨ks, []⟩ }

/-! ### Notes -/

/-- Whether a byte of one team is among some bytes of another; scratchpad bytes are a team's own. -/
def sameByte (team team' : Nat) (ps : List Place) (p : Place) : Bool := ps.contains p && match p with
  | .spad _ => team == team'
  | _ => true

/-- A note of some of its bytes only; none without any. -/
def RelNote.only (keep : RelNote → Place → Bool) (n : RelNote) : Option RelNote :=
  let n' := { n with places := n.places.filter (keep n) }
  if n'.places.isEmpty then none else some n'

/-- The parts of notes that lie on some bytes of a team. -/
def notesOn (ns : List RelNote) (team : Nat) (ps : List Place) : List RelNote :=
  ns.filterMap (RelNote.only fun n p => sameByte team n.team ps p)

/-- The notes without those parts. -/
def notesOff (ns : List RelNote) (team : Nat) (ps : List Place) : List RelNote :=
  ns.filterMap (RelNote.only fun n p => !sameByte team n.team ps p)

/-! ### The order of writes -/

/-- Whether a past write holds a byte, as a thread of a team names it; scratchpad bytes are a team's own. -/
def Past.has (e : Past) (team : Nat) (p : Place) : Bool := sameByte team e.author.team e.places p && match p with
  | .lit _ => false
  | _ => true

/-- Whether a past write is of an earlier access of a fibre than an identity. -/
def Past.of (e : Past) (fib before : Nat) : Bool := e.author.fib == some fib && decide (e.author.flight < before)

/-- A past write without some of its bytes. -/
def Past.without (gone : Nat → Place → Bool) (e : Past) : Past :=
  let kept := (e.places.zip e.olds).filter fun p => !gone e.author.team p.1
  { e with places := kept.map Prod.fst, olds := kept.map Prod.snd }

/-- Some bytes are no longer to be missed by any load (R153, R216). -/
def Dev.settleBytes (d : Dev) (gone : Nat → Place → Bool) : Dev :=
  { d with past := (d.past.map (Past.without gone)).filter fun e => !e.places.isEmpty }

/-- The same for bytes of device and host memory. -/
def Dev.settlePhys (d : Dev) (gone : Nat → Bool) : Dev := d.settleBytes fun _ p => match p with
  | .phys a => gone a
  | _ => false

/-- The byte at a place's home. -/
def homeByte (d : Dev) (team : Nat) (p : Place) : Byte :=
  match p with
  | .phys a => memRead d.mem a
  | .spad a => match d.team? team with
    | some t => memRead t.sp a
    | none => 0
  | .lit b => b

/-- Put a byte at a place's home. -/
def putHome (team : Nat) (d : Dev) (p : Place × Byte) : Dev :=
  match p.1 with
  | .phys a => { d with mem := memWrite d.mem a p.2 }
  | .spad a => match d.team? team with
    | some t => d.setTeam { t with sp := memWrite t.sp a p.2 }
    | none => d
  | .lit _ => d

/-- WRITE BYTES AT THEIR HOMES in one step, and record the write (R187, R188): a plain write ends the release sequences of its bytes, a
read-modify-write continues them, and what hands something on heads or joins one; loads may miss the write where R187 lets them. -/
def homeWrite (d : Dev) (w : Author) (rmw : Bool) (ps : List (Place × Byte)) : Dev :=
  let at' := ps.map Prod.fst
  let e : Past :=
    { moment := d.clock + 1, author := w, places := at', olds := at'.map (homeByte d w.team),
      ended := if rmw then [] else notesOn d.notes w.team at' }
  let new := w.hands.map fun h => RelNote.mk at' w.team w.core h.sc w.host h.know (d.clock + 1)
  let d' := ps.foldl (putHome w.team) d
  { d' with
    notes := new ++ if rmw then d.notes else notesOff d.notes w.team at'
    clock := d.clock + 1
    past := if ps.isEmpty then d'.past else e :: d'.past }

/-- A writer that is no fibre's: the device itself, the host, a peer; with its event and what it hands on. -/
def Author.outside (event : Nat) (host : Bool) (hands : List Hand) : Author :=
  { event := event, flight := event / 192, fib := none, lane := 0, team := 0, core := 0, host := host, hands := hands }

/-- The device itself, the host or a peer writes bytes in one step, at an event after some events; it hands something on where `hands` says so.
Answers the event. -/
def Dev.writeFrom (d : Dev) (ks : List Nat) (hands : Nat → List Hand) (ps : List (Place × Byte)) : Nat × Dev :=
  let j := d.join ks
  let host := ps.any fun p => match p.1 with
    | .phys a => decide (2 ^ 51 ≤ a)
    | _ => false
  (j.1, homeWrite j.2 (Author.outside j.1 host (hands j.1)) false ps)

/-- Bytes from an address on, as places. -/
def physBytes (a : Nat) (bs : List Byte) : List (Place × Byte) := bs.zipIdx.map fun b => (.phys (a + b.2), b.1)

/-- The device itself writes bytes of memory. -/
def Dev.memSet (d : Dev) (a : Nat) (bs : List Byte) : Dev := (d.writeFrom [] (fun _ => []) (physBytes a bs)).2

/-- The device itself turns memory into what it is with some bytes written: those that change are the write's. -/
def Dev.memBecomes (d : Dev) (m : List Host.Cell) : Dev :=
  let ps := (dedupNat ((d.mem ++ m).map Prod.fst)).filter fun a => memRead d.mem a != memRead m a
  { (d.writeFrom [] (fun _ => []) (ps.map fun a => (.phys a, memRead m a))).2 with mem := m }

/-- A control register as a location, past the physical addresses. -/
def regPlace (c off : Nat) : Place := .phys (2 ^ 52 + 4096 * c + off)

/-- A write of a control register hands some events on at `.sys` to who reads it next (R174, R310, R315). -/
def Dev.noteReg (d : Dev) (team core c off : Nat) (ks : List Nat) : Dev :=
  { d with notes := ⟨[regPlace c off], team, core, .sys, false, ks, d.clock⟩ :: notesOff d.notes 0 [regPlace c off] }

/-- The byte a place held `back` writes ago, if one of the later writes is of it. -/
def pastByte (d : Dev) (back team : Nat) (p : Place) : Option Byte :=
  ((d.past.filter fun e => decide (d.clock < e.moment + back) && e.has team p).getLast?).bind fun e =>
    ((e.places.zip e.olds).find? fun q => q.1 == p).map Prod.snd

/-- The latest write to a place as of `back` writes ago. -/
def pastWrite (d : Dev) (back team : Nat) (p : Place) : Option Nat :=
  (d.past.find? fun e => decide (e.moment + back ≤ d.clock) && e.has team p).map fun e => e.author.event

/-! ### The host (R315) -/

/-- A host write: after all that the host has done, and a release of it at `.sys`. -/
def Dev.hostWrite (d : Dev) (ps : List (Place × Byte)) : Dev :=
  let r := d.writeFrom d.hostKnow (fun e => [⟨.sys, true, [e]⟩]) ps
  { r.2 with hostKnow := [r.1] }

/-- A host read of some bytes or of a control register: an acquire at `.sys`. -/
def Dev.hostRead (d : Dev) (ps : List Place) : Dev :=
  let ns := d.notes.filter fun n => n.sc == .sys && ps.any (sameByte 0 n.team n.places)
  let j := d.join (d.hostKnow ++ dedupNat (ps.filterMap (pastWrite d 0 0)) ++ ns.flatMap RelNote.know)
  { j.2 with hostKnow := [j.1] }

end Sys2Proof.Machine
end

