-- ==== Sys2Proof/Machine/Page.lean ====
section
/-!
DEFINITION. Virtual addresses, table entries, walks, cached translations and zeroing (R147 to R160).
-/

namespace Sys2Proof.Machine

/-- A canonical address: bits 63:55 equal bit 54 (R147). -/
def canonical (va : Word) : Bool := field va 54 10 == 0 || field va 54 10 == 1023

/-- Whether every byte from `a` to `a + n - 1` is populated: device HBM of one Quarter, or host memory (R149). -/
def populated (a n : Nat) : Bool :=
  decide (2 ^ 51 ≤ a ∧ a + n ≤ 2 ^ 52) || decide (a / 2 ^ 38 < 4 ∧ a % 2 ^ 38 + n ≤ 192000000000)

/-- Host memory (R149). -/
def isHost (a : Nat) : Bool := decide (2 ^ 51 ≤ a)

/-- The frame field as an address (R150). -/
def frameOf (e : Word) : Nat := field e 16 36 * 65536

/-- An entry's ordering kind: 0 RC, 1 SO, 2 UO (R150). -/
def kindOf (e : Word) : Nat := field e 6 2

/-- Whether a page is replicated (R150). -/
def isRepl (e : Word) : Bool := e.getLsbD 8

/-- The zeroing state (R150). -/
def zsOf (e : Word) : Nat := field e 11 2

/-- A non-leaf entry that R150 forbids. `root`: at the root table. -/
def badTable (root : Bool) (e : Word) : Bool :=
  field e 1 12 != 0 || (root && e.getLsbD 13) || field e 14 2 != 0 || field e 52 12 != 0 ||
  isHost (frameOf e) || !populated (frameOf e) 65536

/-- A leaf entry that R150 forbids, apart from an unrecorded zeroing. -/
def badLeaf (large : Bool) (e : Word) : Bool :=
  let f := frameOf e
  kindOf e == 3 || zsOf e == 3 || field e 14 2 != 0 || field e 52 4 != 0 || (!large && e.getLsbD 13) ||
  (large && field e 16 13 != 0) || !populated f (if large then 2 ^ 29 else 65536) ||
  (isHost f && (kindOf e == 1 || isRepl e || field e 9 2 != 0)) ||
  (isRepl e && (kindOf e == 1 || field e 9 2 != 0)) ||
  (!isHost f && field e 9 2 != f / 2 ^ 38 % 4)

/-- A leaf a walk has found: the entry, where it lies, whether it maps a large page. -/
structure Leaf where
  entry : Word
  entryAt : Nat
  large : Bool
  deriving DecidableEq, Repr

/-- Whether a zeroing of the entry is recorded at the page's home (R153). -/
def Dev.zeroing (d : Dev) (entryAt : Nat) : Bool := d.zeroings.any fun z => z.entryAt == entryAt

/-- What a walk finds at a leaf entry (R150, R159). -/
def leafOf (d : Dev) (large : Bool) (e : Word) (at' : Nat) : Except Nat Leaf :=
  if !e.getLsbD 0 then .error 1
  else if badLeaf large e || (zsOf e == 1 && !d.zeroing at') then .error 4
  else .ok { entry := e, entryAt := at', large := large }

/-- The walk of R147 to R150 without side effects: the leaf, or reason 5, 1 or 4 in the order of R159. -/
def walk (d : Dev) (root : Nat) (va : Word) : Except Nat Leaf :=
  if !canonical va then .error 5
  else
    let e0 := memWord d.mem (root + 8 * field va 42 13)
    if !e0.getLsbD 0 then .error 1
    else if badTable true e0 then .error 4
    else
      let a1 := frameOf e0 + 8 * field va 29 13
      let e1 := memWord d.mem a1
      if !e1.getLsbD 0 then .error 1
      else if e1.getLsbD 13 then leafOf d true e1 a1
      else if badTable false e1 then .error 4
      else
        let a2 := frameOf e1 + 8 * field va 16 13
        leafOf d false (memWord d.mem a2) a2

/-- The physical address of a virtual address under a leaf (R147, R148). -/
def physOf (e : Word) (large : Bool) (va : Word) : Nat := frameOf e + field va 0 (if large then 29 else 16)

/-- Owner number of a Plaza's L2 TLB. -/
def plazaOwner (core : Nat) : Nat := 400 + plazaOf core

/-- A cached leaf of an owner that covers the address (R158). -/
def tlbFind (d : Dev) (owner ctx : Nat) (va : Word) : Option TlbEntry :=
  d.tlb.find? fun t => t.owner == owner && t.ctx == ctx && t.page == field va (if t.large then 29 else 16) (if t.large then 26 else 39)

/-- The entries a level holds (R158). -/
def tlbCap (owner : Nat) : Nat := if owner < 400 then 256 else 4096

/-- Remove the entry at one place of an owner's list; the spec leaves which one a full TLB gives up (R158). -/
def tlbEvict (ts : List TlbEntry) (owner : Nat) : List TlbEntry :=
  let mine := ts.filter fun t => t.owner == owner
  if mine.length < tlbCap owner then ts
  else match mine[Config.victim owner % mine.length]? with
    | some v => ts.filter (· != v)
    | none => ts

/-- Cache a leaf for an owner in place of an older one of the same page. -/
def tlbPut (ts : List TlbEntry) (t : TlbEntry) : List TlbEntry :=
  let rest := ts.filter fun u => !(u.owner == t.owner && u.ctx == t.ctx && u.large == t.large && u.page == t.page)
  t :: tlbEvict rest t.owner

/-- Cache a leaf in the core's L1 and its Plaza's L2 (R158). -/
def tlbInstall (d : Dev) (core ctx : Nat) (va : Word) (l : Leaf) : Dev :=
  let page := field va (if l.large then 29 else 16) (if l.large then 26 else 39)
  let t := fun owner => TlbEntry.mk owner ctx l.large page l.entry l.entryAt
  { d with tlb := tlbPut (tlbPut d.tlb (t (plazaOwner core))) (t core) }

/-- What an access asks of a leaf. -/
structure Need where
  write : Bool
  exec : Bool
  deriving DecidableEq, Repr

/-- The checks at the leaf: reason 3, then 2, then 6 (R159). -/
def leafFault (core : Nat) (n : Need) (e : Word) : Option Nat :=
  if e.getLsbD 3 && !privilegedCore core then some 3
  else if n.write && !e.getLsbD 1 then some 2
  else if n.exec && !e.getLsbD 2 then some 6
  else none

/-- The outcome of a translation. -/
inductive Xl where
  | fault (reason : Nat)
  | wait (entryAt : Nat)
  | page (e : Word) (large : Bool)
  deriving DecidableEq, Repr

/-- Start a zeroing: ZS becomes 0b01 and the home records it (R153). -/
def startZero (d : Dev) (l : Leaf) : Dev :=
  let e := (l.entry &&& ~~~(0x1800#64)) ||| 0x800#64
  { d.memSet l.entryAt (wordLE e) with
    zeroings := d.zeroings ++ [⟨l.entryAt, frameOf l.entry, if l.large then 2 ^ 29 else 65536, isRepl l.entry, []⟩] }

/-- A walk with its effects: zeroing started or waited for, AC and DI set, the leaf cached (R151, R153, R158, R159). -/
def walkAccess (d : Dev) (core ctx : Nat) (va : Word) (n : Need) : Xl × Dev :=
  match walk d (d.ctx ctx).root va with
  | .error r => (.fault r, d)
  | .ok l =>
    if zsOf l.entry = 2 then (.wait l.entryAt, startZero d l)
    else if zsOf l.entry = 1 then (.wait l.entryAt, d)
    else match leafFault core n l.entry with
      | some r => (.fault r, d)
      | none =>
        let e := l.entry ||| 0x10#64 ||| (if n.write then 0x20#64 else 0)
        let d := if e = l.entry then d else d.memSet l.entryAt (wordLE e)
        (.page e l.large, tlbInstall d core ctx va { l with entry := e })

/-- TRANSLATE AN ADDRESS for a core and context: from a cached leaf where one stands, otherwise by a walk; a store or atomic through a
cached leaf whose DI is 0 walks again (R151, R158). DESIGN CHOICE (assumption 83): where that leaf's W is 0 as well, the store faults by the
cached leaf. -/
def translate (d : Dev) (core ctx : Nat) (va : Word) (n : Need) : Xl × Dev :=
  if !canonical va then (.fault 5, d)
  else
    let use := fun (t : TlbEntry) => !(n.write && t.entry.getLsbD 1 && !t.entry.getLsbD 5)
    let hit := fun (t : TlbEntry) => match leafFault core n t.entry with
      | some r => Xl.fault r
      | none => Xl.page t.entry t.large
    match tlbFind d core ctx va with
    | some t => if use t then (hit t, d) else walkAccess d core ctx va n
    | none =>
      match tlbFind d (plazaOwner core) ctx va with
      | some t =>
        if use t then (hit t, { d with tlb := tlbPut d.tlb { t with owner := core } }) else walkAccess d core ctx va n
      | none => walkAccess d core ctx va n

/-- Add a walk to those that wait for an entry's zeroing, with its latest record (R153). -/
def addWalk (w : Walker) (entryAt : Nat) : List Zeroing → List Zeroing
  | [] => []
  | z :: zs =>
    if z.entryAt == entryAt && !(zs.any fun y => y.entryAt == entryAt) then
      (if z.walks.contains w then z else { z with walks := z.walks ++ [w] }) :: zs
    else z :: addWalk w entryAt zs

/-- A walk waits for the zeroing of an entry (R153). -/
def Dev.walkWait (d : Dev) (w : Walker) (entryAt : Nat) : Dev := { d with zeroings := addWalk w entryAt d.zeroings }

/-- The walks under way in a Quarter: those that wait for a zeroing (R153, R158). -/
def walksRunning (d : Dev) (q : Nat) : Nat := ((d.zeroings.flatMap Zeroing.walks).filter fun w => quarterOf w.core == q).length

/-- Whether a Quarter's walker is full: it runs up to 512 walks at once (R14, R158). -/
def walkerFull (d : Dev) (q : Nat) : Bool := decide (512 ≤ walksRunning d q)

/-- Whether an access has to walk: no leaf that would serve it is cached (R151, R158). -/
def needsWalk (d : Dev) (core ctx : Nat) (write : Bool) (va : Word) : Bool :=
  let stale := fun (t : TlbEntry) => write && t.entry.getLsbD 1 && !t.entry.getLsbD 5
  canonical va && match tlbFind d core ctx va, tlbFind d (plazaOwner core) ctx va with
    | some t, _ => stale t
    | none, some t => stale t
    | none, none => true

/-- Whether an access of `n` bytes has to walk and finds its Quarter's walker full (R14). -/
def walkWaits (d : Dev) (core ctx : Nat) (write : Bool) (va : Word) (n : Nat) : Bool :=
  walkerFull d (quarterOf core) && (needsWalk d core ctx write va || needsWalk d core ctx write (va + BitVec.ofNat 64 (n - 1)))

/-- A page of one access: how the bytes from `va` on lie; bit 5 of its kind marks a large page. -/
structure Part where
  va : Word
  n : Nat
  phys : Nat
  kind : Nat
  repl : Bool
  deriving DecidableEq, Repr

/-- Bytes of an access of `n` bytes at `va` that lie on its first page. -/
def firstPart (va : Word) (n : Nat) : Nat := min n (65536 - va.toNat % 65536)

/-- The outcome of translating an access: a fault with its address, a wait, or its parts. -/
inductive Acc where
  | fault (reason : Nat) (va : Word)
  | wait (entryAt : Nat)
  | parts (ps : List Part)
  deriving DecidableEq, Repr

/-- Translate an access page by page; `fuel` is the number of pages it may touch (R155). -/
def translateAll (core ctx : Nat) (need : Need) : Nat → Dev → Word → Nat → Acc × Dev
  | 0, d, _, _ => (.parts [], d)
  | k + 1, d, va, n =>
    if n = 0 then (.parts [], d)
    else
      match translate d core ctx va need with
      | (.fault r, d) => (.fault r va, d)
      | (.wait e, d) => (.wait e, d)
      | (.page e large, d) =>
        let m := firstPart va n
        let p : Part := { va := va, n := m, phys := physOf e large va, kind := kindOf e + if large then 32 else 0, repl := isRepl e }
        match translateAll core ctx need k d (va + BitVec.ofNat 64 m) (n - m) with
        | (.parts ps, d) => (.parts (p :: ps), d)
        | r => r

/-- The places and kinds of a part's bytes for a core: a replicated page's copy of the core's Quarter, with bit 4 of the kind, or for
`st.mc` Quarter 0's copy with bit 3 (R156). -/
def Part.places (p : Part) (core : Nat) (mc : Bool) : List (Place × Nat) :=
  let host := if isHost p.phys then 4 else 0
  (List.range p.n).map fun i =>
    if p.repl then
      if mc then (.phys (p.phys + i), p.kind + 8) else (.phys (p.phys + i + quarterOf core * 2 ^ 38), p.kind + 16)
    else (.phys (p.phys + i), p.kind + host)

/-- Zero `n` bytes from `a`. -/
def memZero (m : List Host.Cell) (a n : Nat) : List Host.Cell := m.filter fun c => !(decide (a ≤ c.1) && decide (c.1 < a + n))

/-- Whether a copy of the page being zeroed holds a physical address (R153, R156). -/
def Zeroing.covers (z : Zeroing) (a : Nat) : Bool :=
  (if z.repl then List.range 4 else [0]).any fun q => decide (z.base + q * 2 ^ 38 ≤ a ∧ a < z.base + q * 2 ^ 38 + z.len)

/-- Zero every copy of a page, in memory and in the UO lines held; no load can miss it (R153). -/
def zeroPage (d : Dev) (z : Zeroing) : Dev :=
  { d.settlePhys z.covers with
    mem := (if z.repl then List.range 4 else [0]).foldl (fun m q => memZero m (z.base + q * 2 ^ 38) z.len) d.mem
    uo := d.uo.filter fun u => !z.covers u.addr }

/-- The walks that wait for an entry go on. -/
def wakeZero (d : Dev) (entryAt : Nat) : Dev :=
  let wake := fun (t : Thread) => if t.wait = .zero entryAt then { t with wait := .none } else t
  { d with fibres := d.fibres.map fun f => { f with threads := f.threads.map wake } }

/-- Whether an entry still says that the page a zeroing is of is being zeroed. -/
def Zeroing.named (z : Zeroing) (e : Word) : Bool := e.getLsbD 0 && zsOf e == 1 && frameOf e == z.base && isRepl e == z.repl

/-- A ZEROING COMPLETES, the oldest recorded for an entry (R153): every copy is zeroed and the record removed. With no other record of the
entry, an entry that still names the page becomes ready, and the waiting walks go on; where the entry has been written anew since, they find
what it says now. -/
def completeZero (d : Dev) (entryAt : Nat) : Dev :=
  match d.zeroings.find? fun z => z.entryAt == entryAt with
  | none => d
  | some z =>
    let d := { zeroPage d z with zeroings := d.zeroings.erase z }
    let e := memWord d.mem entryAt
    if d.zeroing entryAt then d
    else wakeZero (if z.named e then d.memSet entryAt (wordLE (e &&& ~~~(0x1800#64))) else d) entryAt

/-- Whether a walk of a team has to wait for a table store in flight before a `fence.sc` at `.dev` or wider: the fence stands before identity
`before`. Only the team's own threads and engines can start a walk after such a fence while its stores are still in flight: whatever else the
fence's thread gives others to see waits for those stores (R158). -/
def tableHeld (d : Dev) (team before : Nat) : Bool :=
  d.holds.any fun h => h.walk && h.team == team && decide (h.since ≤ before) && d.flights.any fun g => h.ids.contains g.id && match g.kind with
    | .store _ | .atom _ _ _ | .cas _ | .red _ _ _ | .flip _ => true
    | _ => false

end Sys2Proof.Machine
end

