-- ==== Sys2Proof/Machine/Issue.lean ====
section
/-!
DEFINITION. When an instruction may issue (R46, R47, R203), the checks on its word that come before any effect (R75, R308), and the
issue itself: the shared frame of every instruction's meaning.
-/

namespace Sys2Proof.Machine

/-- Whether a register of the fibre is pending on a variable-latency result (R46). What the other port issued in this cycle has not made
it pending yet (R90, R141). -/
def regPending (d : Dev) (f : Fibre) (i : Nat) : Bool :=
  d.flights.any (fun g => g.fib == f.uid && g.dst.contains i && decide (g.id < d.mark)) ||
  d.builds.any (fun b => b.fib == f.uid && b.dst == i && decide (b.id < d.mark)) ||
  d.waiters.any (fun w => w.fib == f.uid && w.dst == i && decide (w.id < d.mark))

/-- Whether a predicate of the fibre is pending on a variable-latency result (R46). -/
def predPending (d : Dev) (f : Fibre) (i : Nat) : Bool :=
  d.flights.any fun g => g.fib == f.uid && g.pdst == some i && decide (g.id < d.mark)

/-- Whether two lane masks have a lane in common. -/
def meets (m n : LaneMask) : Bool := (m &&& n) != 0

/-- Whether a register that the path of lanes `m` writes was made pending by an earlier instruction of that path (R46). -/
def regOwed (d : Dev) (f : Fibre) (m : LaneMask) (i : Nat) : Bool :=
  d.flights.any (fun g => g.fib == f.uid && g.dst.contains i && meets g.path m) ||
  d.builds.any (fun b => b.fib == f.uid && b.dst == i && meets b.path m) ||
  d.waiters.any (fun w => w.fib == f.uid && w.dst == i && meets w.path m)

/-- The same for a predicate. -/
def predOwed (d : Dev) (f : Fibre) (m : LaneMask) (i : Nat) : Bool :=
  d.flights.any fun g => g.fib == f.uid && g.pdst == some i && meets g.path m

/-- R46: a write of latency `lat` issued at `cycle` would land before an earlier, longer fixed-latency write of its path to the register, or
before one that stands behind a result still owed (R90). DESIGN CHOICE (assumption 72): a variable-latency write waits until those have
landed; R46 lists no such wait. -/
def wawReg (f : Fibre) (m : LaneMask) (cycle i lat : Nat) : Bool :=
  f.pendW.any fun p => p.reg == i && meets p.path m && (decide (p.land ≤ cycle) || lat == 0 || decide (cycle + lat < p.land))

/-- R46 for predicates. -/
def wawPred (f : Fibre) (m : LaneMask) (cycle i lat : Nat) : Bool :=
  f.pendP.any fun p => p.idx == i && meets p.path m && decide (cycle < p.land) && (lat == 0 || decide (cycle + lat < p.land))

/-- Whether an instruction of the path of lanes `m` waits on a pending source, destination or guard (R46; reason 2 of R327). -/
def pendingWait (d : Dev) (f : Fibre) (m : LaneMask) (cycle : Nat) (guard : Nat) (u : Uses) : Bool :=
  (u.reads.any fun i => regPending d f i) ||
  (u.writes.any fun w => regOwed d f m w.1 || wawReg f m cycle w.1 w.2) ||
  (guard :: u.pr).any (fun i => predPending d f i) ||
  (u.pw.any fun w => predOwed d f m w.1 || wawPred f m cycle w.1 w.2)

/-- A flight that will raise flags when it returns (R140). -/
def Flight.raises (g : Flight) : Bool :=
  g.flags != 0 || match g.kind with
    | .atom _ .f32 _ | .atom _ .f64 _ => true
    | _ => false

/-- Whether a tile of the team is being changed by an earlier instruction (R203). -/
def tileBusy (d : Dev) (t : Team) (ta : Nat) : Bool :=
  t.mmas.any (fun m => m.ta == ta) || d.flights.any fun g => g.team == t.uid && (g.kind == .accld ta)

/-- Whether an operation recorded in an armed convergence register will change a tile (R208). -/
def tileArmed (t : Team) (ta : Nat) : Bool := t.cvs.any fun c => match c with
  | .armed _ _ _ (some r) _ => r.ta == ta
  | _ => false

/-- The same for the registers other than `k`: a signer of `k` does not wait for the operation it joins (R203, R208). -/
def tileArmedBut (t : Team) (k ta : Nat) : Bool := tileArmed { t with cvs := setAt t.cvs k .idle } ta

/-- Whether a Trowel command names a Pallet handle as source or destination, or for its index array, which lies in the source space
(R205, R213). -/
def cmdNames (c : Cmd) (h : Nat) : Bool :=
  (c.dst == .pl && c.dstA.toNat % 8 == h) || (c.src == .pl && c.srcA.toNat % 8 == h) ||
  (c.op != .cpy && c.src == .pl && c.idxA.toNat % 8 == h)

/-- R205: `plrel` waits for the matrix operations and commands that name the handle, an armed `mma` included. -/
def handleBusy (d : Dev) (t : Team) (h : Nat) : Bool :=
  t.mmas.any (fun m => m.handle == h) || (d.cmds.any fun c => c.team == t.uid && cmdNames c h) ||
  t.cvs.any fun c => match c with
    | .armed _ _ _ (some r) _ => r.b.toNat % 8 == h
    | _ => false

/-- The instructions that translate an address as they issue, and those that drop translations. -/
def walks : Instr → Bool
  | .ld .. | .st .. | .stMc .. | .atomAdd .. | .atomMin .. | .atomMax .. | .atomExch .. | .atomAnd .. | .atomOr .. | .atomXor ..
  | .redAdd .. | .redMin .. | .redMax .. | .redAnd .. | .redOr .. | .redXor .. | .cas .. | .waitaddr .. | .wake .. | .pginfo ..
  | .accld .. | .accst .. | .qputM .. | .launch .. | .pfL1 .. | .tlbiPg .. | .tlbiCtx .. | .tlbiAll .. => true
  | _ => false

/-- Whether a walk of the instruction has to wait for the table stores before a `fence.sc` at `.dev` or wider of its team (R158). -/
def walkHeld (d : Dev) (f : Fibre) (i : Instr) : Bool := walks i && tableHeld d f.team d.nextId

/-- The address operand of an instruction's `.g` access, its bytes, and whether it writes; an aligned access lies on one page, so that its first
byte stands for it. -/
def gAccess : Instr → Option (MAddr × Nat × Bool)
  | .ld _ o => if o.sp = .g then some (o.addr, sizeBytes o.t o.size, false) else none
  | .st _ o | .stMc _ o => if o.sp = .g then some (o.addr, sizeBytes o.t o.size, true) else none
  | .atomAdd _ o | .atomMin _ o | .atomMax _ o | .atomExch _ o | .atomAnd _ o | .atomOr _ o | .atomXor _ o
  | .redAdd _ o | .redMin _ o | .redMax _ o | .redAnd _ o | .redOr _ o | .redXor _ o => if o.sp = .g then some (o.addr, 1, true) else none
  | .cas _ .g _ _ _ _ a => some (a, 1, true)
  | .waitaddr _ o | .wake _ o => if o.sp = .g then some (o.addr, 1, false) else none
  | .pginfo _ _ a => some (a, 1, false)
  | .pfL1 _ a => some (a, 1, false)
  | .accld _ o => if o.sp = .g then some (o.addr, 4096, false) else none
  | .accst _ o => if o.sp = .g then some (o.addr, 4096, true) else none
  | .qputM _ _ a _ => some (⟨a, .imm 0⟩, 128, false)
  | .launch _ _ a => some (⟨a, .imm 0⟩, 128, false)
  | _ => none

/-- Whether an access of some lanes needs a walk that finds its Quarter's walker full: the instruction stalls at issue (R14, R158). -/
def walkerBusy (d : Dev) (f : Fibre) (act : LaneMask) (i : Instr) : Bool :=
  walkerFull d (quarterOf f.core) && match gAccess i with
    | none => false
    | some (a, n, write) => act.lanes.any fun L => walkWaits d f.core f.ctx write (addrLane d f a L) n

/-- Whether an acquire or a fence of some lanes is still in flight: a read that is no memory access waits for it (R200, R201). -/
def acqHeld (d : Dev) (f : Fibre) (m : LaneMask) : Bool :=
  d.holds.any fun h => h.fib == f.uid && m.has h.lane && !h.storesOnly && !h.relOnly

/-- What makes an instruction wait at issue besides pending registers: earlier flag raises (R140), team order on tiles and handles
(R203, R205), a full Trowel queue or full build slots (R14, R213, R291), window-register writes before an arrival (R110, R349), acquires
before a read of a vertex or a tree and before a publication (R197, R200, R201), and the fibre's earlier builds (R290). -/
def blocked (d : Dev) (f : Fibre) (t : Team) (m : LaneMask) (i : Instr) : Bool :=
  match i with
  | .fflag _ _ _ => d.flights.any fun g => g.fib == f.uid && g.raises
  | .mma _ o => tileBusy d t o.ta.toNat || tileArmed t o.ta.toNat
  | .mmaCv _ cv o => tileBusy d t o.ta.toNat || tileArmedBut t cv.toNat o.ta.toNat
  | .accld _ o | .accst _ o => tileBusy d t o.ta.toNat || tileArmed t o.ta.toNat
  | .acczero _ ta => tileBusy d t ta.toNat || tileArmed t ta.toNat
  | .plrel _ h => handleBusy d t h.toNat
  | .cpy _ _ | .gth _ _ | .sct _ _ => decide (16 ≤ (d.cmds.filter fun c => c.core == f.core).length)
  | .qnins .. => d.builds.any fun b => b.fib == f.uid
  | .qnwalk .. => acqHeld d f m || d.builds.any fun b => b.fib == f.uid
  | .vld .. | .vcon .. | .vconAll .. | .vmrg .. | .pub .. => acqHeld d f m
  | .qnbld _ _ _ _ _ => decide (16 ≤ (d.builds.filter fun b => b.core == f.core).length)
  | .fbarArrive _ | .fbarSync _ | .barv _ _ _ | .bars _ _ _ =>
    (f.pendW.any fun p => f.isWindow p.reg && meets p.path m) ||
    (d.flights.any fun g => g.fib == f.uid && g.dst.any f.isWindow && meets g.path m) ||
    d.builds.any fun b => b.fib == f.uid && f.isWindow b.dst && meets b.path m
  | _ => false

/-- Whether the next instruction of the lanes `m` of a path waits at issue. -/
def waitsAtIssue (d : Dev) (f : Fibre) (t : Team) (m : LaneMask) (cycle : Nat) (i : Instr) : Bool :=
  match hdrOf i with
  | none => false
  | some h => pendingWait d f m cycle (guardOf i h) (usesOf i) || walkHeld d f i || blocked d f t m i ||
      walkerBusy d f (activeLanes f ⟨f.uid, m, 0, 0, 0⟩ h) i

/-- R308, R161: the instructions only a core in privileged configuration may issue. -/
def privilegedInstr : Instr → Bool
  | .tlbiPg .. | .tlbiCtx .. | .tlbiAll .. | .sysr .. | .sysw .. | .haltCtx .. | .haltCore .. | .rfe .. => true
  | _ => false

/-- R205: an accumulator tile the team does not have. -/
def noTile (t : Team) (i : Instr) : Bool :=
  match i with
  | .mma _ o | .mmaCv _ _ o => decide (4 * t.hdr.tiles ≤ o.ta.toNat)
  | .accld _ o | .accst _ o => decide (4 * t.hdr.tiles ≤ o.ta.toNat)
  | .acczero _ ta => decide (4 * t.hdr.tiles ≤ ta.toNat)
  | _ => false

/-- The producer of a fixed-latency source that is not readable yet by the issuing path (R46, R47). DESIGN CHOICE (assumption 58): when
several sources await results, the record names the producer of the first of them in issue order, registers before predicates. -/
def underrun (f : Fibre) (c : Item) (cycle guard : Nat) (u : Uses) : Option Word :=
  match f.pendW.find? fun p => u.reads.contains p.reg && decide (cycle < p.land) && meets p.path c.lanes with
  | some p => some p.pc
  | none =>
    match f.pendP.find? fun p => (guard :: u.pr).contains p.idx && decide (cycle < p.land) && meets p.path c.lanes with
    | some p => some p.pc
    | none => none

/-- The lanes of a fault found before any effect. DESIGN CHOICE (assumption 59): the active lanes, or every lane of the part when none is
active; R66 says only that the record holds a lane mask. -/
def preLanes (x : Iss) : LaneMask := if x.act = 0 then x.c.lanes else x.act

/-- The checks on the word itself, made whatever the guard, and the checking scoreboard: privilege (R308), register indices (R75),
tiles (R205), stall underrun (R47). DESIGN CHOICE (assumption 58): an instruction that fails several of them takes the fault of the first in
this order; the spec gives none. -/
def precheck (i : Instr) (x : Iss) : Option FaultInfo :=
  if privilegedInstr i && !privilegedCore x.f.core then some ⟨2, 0, 0, preLanes x, 0⟩
  else if (usesOf i).regs.any (fun u => u.outOf x.f.nAlloc) || noTile x.t i then some ⟨3, 0, 0, preLanes x, 0⟩
  else if x.f.chk then
    match underrun x.f x.c x.s.clk.cycle (guardOf i x.h) (usesOf i) with
    | some pc => some ⟨7, 0, pc, preLanes x, 0⟩
    | none => none
  else none

/-- The body of an instruction: given the issue and the device after the prologue. `none`: it waits and nothing changes. -/
abbrev Body := Iss → Dev → Option Res

/-- ISSUE AN INSTRUCTION. With no issuing fibre nothing happens. An instruction that waits changes nothing. A failed check faults
before any effect. Otherwise the body runs on the device with the path's PCs advanced by the instruction's words. -/
def issueWith (i : Instr) (h : Hdr) (keepLatch : Bool) (s : State) (body : Body) : Host.Outcome State Fault Refusal :=
  match issOf s h with
  | none => .next s
  | some x =>
    if waitsAtIssue s.dev x.f x.t x.c.lanes s.clk.cycle i then .next s
    else match precheck i x with
      | some e => .next (finish x (.trap s.dev e))
      | none =>
        match body x (prologue x (instrWords i) keepLatch) with
        | none => .next s
        | some r => .next (finish x r)

/-- Issue with the common prologue. -/
def issueOn (i : Instr) (h : Hdr) (s : State) (body : Body) : Host.Outcome State Fault Refusal := issueWith i h false s body

/-- A body that changes only the issuing fibre. -/
def onFibre (g : Iss → Fibre → Fibre) : Body := fun x d => some (.done (d.setFibre (g x (x.fib d))))

/-- A body that does nothing when no lane is active (R44). -/
def ifActive (b : Body) : Body := fun x d => if x.act = 0 then some (.done d) else b x d

/-- An event of the machine: no instruction issues; the device changes. -/
def onDev (s : State) (g : State → Dev) : Host.Outcome State Fault Refusal := .next (s.withDev (g s))

end Sys2Proof.Machine
end

