-- ==== Sys2Proof/Machine/Flags.lean ====
section
/-!
DEFINITION. The sticky flags of R31 and the results that raise them, and the writing of lane results (R32, R46, R76).
-/

namespace Sys2Proof.Machine

/-- Invalid operation (R31). -/
def fNV : Word := 1
/-- Division by zero (R31). -/
def fDZ : Word := 2
/-- Overflow (R31). -/
def fOF : Word := 4
/-- Underflow (R31). -/
def fUF : Word := 8
/-- Inexact (R31). -/
def fNX : Word := 16
/-- Integer overflow (R31). -/
def fIO : Word := 32
/-- Quantise saturation (R31). -/
def fQS : Word := 64

/-- An integer result: wrapped, or saturated with IO when it clamps (R24, R115). -/
def intRes (t : ITy) (sat : Bool) (x : Int) : Nat × Word :=
  if sat then (truncW t.width (satTo t x), if satTo t x = x then 0 else fIO) else (truncW t.width x, 0)

/-- Quotient of R25. -/
def divRes (t : ITy) (sat : Bool) (a b : Int) : Nat × Word :=
  if b = 0 then (2 ^ t.width - 1, fDZ)
  else if t.signed ∧ a = ITy.min t ∧ b = -1 then (truncW t.width (if sat then ITy.max t else a), fIO)
  else (truncW t.width (a.tdiv b), 0)

/-- Remainder of R25. -/
def remRes (t : ITy) (a b : Int) : Nat × Word :=
  if b = 0 then (truncW t.width a, fDZ)
  else if t.signed ∧ a = ITy.min t ∧ b = -1 then (0, fIO)
  else (truncW t.width (a.tmod b), 0)

/-- A condition of R118 on integer values. -/
def iCond (c : ICond) (a b : Int) : Bool :=
  match c with
  | .eq => a == b
  | .ne => a != b
  | .lt => decide (a < b)
  | .le => decide (a ≤ b)
  | .gt => decide (b < a)
  | .ge => decide (b ≤ a)

/-- A sub-element operation on three register values: the result and the union of the flags. -/
def subs3 (w : Nat) (g : Nat → Nat → Nat → Nat × Word) (a b d : Word) : Word × Word :=
  let rs := (List.range (nsub w)).map fun j => g (sub a w j) (sub b w j) (sub d w j)
  (BitVec.ofNat 64 (ofSubs w (rs.map Prod.fst)), rs.foldl (fun m r => m ||| r.2) 0)

/-- The union of the flags of the active lanes (R32). -/
def laneFlags (x : Iss) (g : Nat → Word) : Word := x.lanes.foldl (fun m L => m ||| g L) 0

/-- A fixed-latency vector result with its flags. -/
def putVec (x : Iss) (dv : Dev) (d : Reg) (lat : Nat) (sh : Sh) (val : Nat → Word × Word) : Dev :=
  let f := pushW x (x.fib dv) d.toNat lat (outReg x sh fun L => (val L).1)
  dv.setFibre (raise f (laneFlags x fun L => (val L).2))

/-- A body with a fixed-latency vector result. -/
def vecBody (d : Reg) (lat : Nat) (sh : Iss → Dev → Sh) (val : Iss → Dev → Nat → Word × Word) : Body :=
  fun x dv => some (.done (putVec x dv d lat (sh x dv) (val x dv)))

/-- A body with a fixed-latency predicate result and its flags. -/
def predBody (p : PredIdx) (lat : Nat) (val : Iss → Dev → Nat → Bool × Word) : Body := fun x dv =>
  let f := pushP x (x.fib dv) p.toNat lat fun L => (val x dv L).1
  some (.done (dv.setFibre (raise f (laneFlags x fun L => (val x dv L).2))))

/-- U when every listed source counts as U, otherwise G (R76). -/
def allU (us : List Bool) : Sh := if us.all id then .u else .g

/-- A compare's result: a predicate true in every, or with `.any` in some, sub-element; or all ones and zeros in a vector (R118,
R133). `c` gives a sub-element's condition and flags. -/
def cmpBody (dst : CmpDst) (w lat : Nat) (us : Iss → Dev → Bool) (val : Iss → Dev → Nat → Word × Word)
    (c : Nat → Nat → Bool × Word) : Body :=
  let cond := fun (ab : Word × Word) => (List.range (nsub w)).map fun j => c (sub ab.1 w j) (sub ab.2 w j)
  match dst with
  | .pred p any => predBody p lat fun x dv L =>
      let rs := cond (val x dv L)
      (if any then rs.any Prod.fst else rs.all Prod.fst, rs.foldl (fun m r => m ||| r.2) 0)
  | .vec d => vecBody d lat (fun x dv => allU [us x dv]) fun x dv L =>
      let rs := cond (val x dv L)
      (BitVec.ofNat 64 (ofSubs w (rs.map fun r => if r.1 then 2 ^ w - 1 else 0)), rs.foldl (fun m r => m ||| r.2) 0)

end Sys2Proof.Machine
end

