-- ==== Sys2Proof/Machine/FloatCore.lean ====
section
/-!
DEFINITION. Binary floating-point values as exact numbers, the single rounding of R27 and R28, and the arithmetic of R29 to R39 on
encodings. Nothing here reads the machine.
-/

namespace Sys2Proof.Machine

/-- Precision in bits (R40). -/
def FTy.prec : FTy → Nat
  | .f16 => 11
  | .bf16 => 8
  | .f32 => 24
  | .f64 => 53

/-- Exponent bias (R26). -/
def FTy.bias : FTy → Nat
  | .f16 => 15
  | .bf16 | .f32 => 127
  | .f64 => 1023

/-- Fraction bits. -/
def FTy.frac (t : FTy) : Nat := FTy.prec t - 1

/-- The encoding of +∞: every exponent bit set. -/
def FTy.inf (t : FTy) : Nat := 2 ^ (t.width - 1) - 2 ^ FTy.frac t

/-- The canonical quiet NaN (R29). -/
def FTy.nan (t : FTy) : Nat := FTy.inf t + 2 ^ (FTy.frac t - 1)

/-- The sign bit of an encoding. -/
def signBit (t : FTy) (neg : Bool) : Nat := if neg then 2 ^ (t.width - 1) else 0

/-- The value of an encoding. A finite value is `(-1)^neg × m × 2^e`. -/
inductive FVal where
  | nan (signalling : Bool)
  | inf (neg : Bool)
  | fin (neg : Bool) (m : Nat) (e : Int)
  deriving DecidableEq, Repr

/-- Whether an encoding is subnormal. -/
def isSubn (t : FTy) (x : Nat) : Bool := x / 2 ^ FTy.frac t % 2 ^ (t.width - FTy.prec t) == 0 && x % 2 ^ FTy.frac t != 0

/-- The value of an encoding; under `.ftz` a subnormal is a zero of its sign (R26, R28). -/
def fval (t : FTy) (ftz : Bool) (x : Nat) : FVal :=
  let neg := x / 2 ^ (t.width - 1) % 2 == 1
  let e := x / 2 ^ FTy.frac t % 2 ^ (t.width - FTy.prec t)
  let m := x % 2 ^ FTy.frac t
  if e = 2 ^ (t.width - FTy.prec t) - 1 then (if m = 0 then .inf neg else .nan (decide (m < 2 ^ (FTy.frac t - 1))))
  else if e = 0 then .fin neg (if ftz then 0 else m) (1 - (FTy.bias t : Int) - FTy.frac t)
  else .fin neg (m + 2 ^ FTy.frac t) ((e : Int) - FTy.bias t - FTy.frac t)

/-- `m / 2^s` rounded to an integer by mode, and whether it was inexact (R27). -/
def rndShift (r : Rnd) (neg : Bool) (m s : Nat) : Nat × Bool :=
  let q := m / 2 ^ s
  let rem := m % 2 ^ s
  let up := match r with
    | .rn => decide (2 ^ s < 2 * rem) || (decide (2 ^ s = 2 * rem) && q % 2 == 1)
    | .rz => false
    | .rp => !neg
    | .rm => neg
  (if rem ≠ 0 ∧ up = true then q + 1 else q, rem != 0)

/-- `m × 2^(e - q)` rounded to an integer. -/
def rndTo (r : Rnd) (neg : Bool) (m : Nat) (e q : Int) : Nat × Bool :=
  if q ≤ e then (m * 2 ^ (e - q).toNat, false) else rndShift r neg m (q - e).toNat

/-- The result of overflow by mode (R27). -/
def overflowRes (t : FTy) (r : Rnd) (neg : Bool) : Nat :=
  let toInf := match r with
    | .rn => true
    | .rz => false
    | .rp => !neg
    | .rm => neg
  signBit t neg + if toInf then FTy.inf t else FTy.inf t - 1

/-- `round_to` of R67 on `(-1)^neg × m × 2^e`: encoding and flags, with tininess after rounding and the flush of R28. -/
def roundTo (t : FTy) (r : Rnd) (ftz : Bool) (neg : Bool) (m : Nat) (e : Int) : Nat × Word :=
  if m = 0 then (signBit t neg, 0)
  else
    let p := FTy.frac t
    let top : Int := (m.log2 : Int) + e
    let emin : Int := 1 - (FTy.bias t : Int)
    let q : Int := max top emin - p
    let n := rndTo r neg m e q
    let code := if n.1 < 2 ^ p then n.1 else ((q + p + FTy.bias t - 1).toNat) * 2 ^ p + n.1
    let free := rndTo r neg m e (top - p)
    let tiny := decide (top < emin) && !(decide (top = emin - 1) && decide (2 ^ (p + 1) ≤ free.1))
    if FTy.inf t ≤ code then (overflowRes t r neg, fOF ||| fNX)
    else if ftz ∧ n.1 < 2 ^ p ∧ n.1 ≠ 0 then (signBit t neg, fUF ||| fNX)
    else (signBit t neg + code, (if n.2 then fNX else 0) ||| (if tiny && n.2 then fUF else 0))

/-- Sign of an exact zero sum: all addends −0, or `.rm` without all addends +0 (R28). -/
def zeroSign (r : Rnd) (negs : List Bool) (zeros : List Bool) : Bool :=
  let allNeg := negs.all id && zeros.all id
  let allPos := negs.all (!·) && zeros.all id
  if r = .rm then !allPos else allNeg

/-- A signed integer multiple of `2^e`. -/
def atExp (e : Int) (neg : Bool) (m : Nat) (x : Int) : Int :=
  let v : Int := ((m * 2 ^ (x - e).toNat : Nat) : Int)
  if neg then -v else v

/-- The exact sum of finite terms (sign, significand, exponent), rounded once (R27, R28). -/
def sumRound (t : FTy) (r : Rnd) (ftz : Bool) (ts : List (Bool × Nat × Int)) : Nat × Word :=
  let nz := ts.filter fun x => x.2.1 != 0
  let e := nz.foldl (fun a x => min a x.2.2) ((nz.head?.map fun x => x.2.2).getD 0)
  let s := nz.foldl (fun a x => a + atExp e x.1 x.2.1 x.2.2) 0
  if s = 0 then (signBit t (zeroSign r (ts.map Prod.fst) (ts.map fun x => x.2.1 == 0)), 0)
  else roundTo t r ftz (decide (s < 0)) s.natAbs e

/-- A NaN result: canonical, with NV when a signalling NaN came in or an operation was invalid (R29). -/
def nanRes (t : FTy) (nv : Bool) : Nat × Word := (FTy.nan t, if nv then fNV else 0)

/-- Whether a value is a signalling NaN. -/
def FVal.isS : FVal → Bool
  | .nan s => s
  | _ => false

/-- Whether a value is a NaN. -/
def FVal.isNaN : FVal → Bool
  | .nan _ => true
  | _ => false

/-- The product of two values (R29): none when it is 0 × ∞ or has a NaN; the flag says which. -/
def fprod (a b : FVal) : Option FVal × Bool :=
  match a, b with
  | .nan _, _ => (none, false)
  | _, .nan _ => (none, false)
  | .inf s, .inf u => (some (.inf (s != u)), false)
  | .inf s, .fin u m _ => if m = 0 then (none, true) else (some (.inf (s != u)), false)
  | .fin s m _, .inf u => if m = 0 then (none, true) else (some (.inf (s != u)), false)
  | .fin s m e, .fin u n f => (some (.fin (s != u) (m * n) (e + f)), false)

/-- The sum of values none of which is a NaN, rounded once: ∞ − ∞ is invalid (R29). -/
def fsum (t : FTy) (r : Rnd) (ftz : Bool) (vs : List FVal) : Nat × Word :=
  let pos := vs.any (· == .inf false)
  let neg := vs.any (· == .inf true)
  if pos && neg then nanRes t true
  else if pos || neg then (signBit t neg + FTy.inf t, 0)
  else sumRound t r ftz (vs.filterMap fun v => match v with
    | .fin s m e => some (s, m, e)
    | _ => none)

/-- `a + b` (R131). -/
def faddR (t : FTy) (r : Rnd) (ftz : Bool) (x y : Nat) : Nat × Word :=
  let a := fval t ftz x
  let b := fval t ftz y
  if a.isNaN || b.isNaN then nanRes t (a.isS || b.isS) else fsum t r ftz [a, b]

/-- The value with its sign turned. -/
def FVal.negate : FVal → FVal
  | .nan s => .nan s
  | .inf s => .inf (!s)
  | .fin s m e => .fin (!s) m e

/-- `a − b` (R131). -/
def fsubR (t : FTy) (r : Rnd) (ftz : Bool) (x y : Nat) : Nat × Word :=
  let a := fval t ftz x
  let b := (fval t ftz y).negate
  if a.isNaN || b.isNaN then nanRes t (a.isS || b.isS) else fsum t r ftz [a, b]

/-- Round a value that is no NaN. -/
def roundVal (t : FTy) (r : Rnd) (ftz : Bool) : FVal → Nat × Word
  | .nan s => nanRes t s
  | .inf s => (signBit t s + FTy.inf t, 0)
  | .fin s m e => roundTo t r ftz s m e

/-- `a × b` (R131). -/
def fmulR (t : FTy) (r : Rnd) (ftz : Bool) (x y : Nat) : Nat × Word :=
  let a := fval t ftz x
  let b := fval t ftz y
  match fprod a b with
  | (some v, _) => roundVal t r ftz v
  | (none, inv) => nanRes t (inv || a.isS || b.isS)

/-- Products and an addend, one rounding: `ffma` with one pair, `fdot2` with two (R29, R131, R139). -/
def fmaR (s t : FTy) (r : Rnd) (ftz : Bool) (ps : List (Nat × Nat)) (d : Nat) : Nat × Word :=
  let vs := ps.map fun p => (fval s ftz p.1, fval s ftz p.2)
  let dv := fval t ftz d
  let prods := vs.map fun v => fprod v.1 v.2
  let inv := prods.any Prod.snd
  let sig := dv.isS || vs.any fun v => v.1.isS || v.2.isS
  let good := prods.filterMap Prod.fst
  let infClash := fun (l : List FVal) => l.any (· == .inf false) && l.any (· == .inf true)
  if prods.any (·.1.isNone) || dv.isNaN then
    nanRes t (inv || sig || infClash (good ++ [dv]))
  else fsum t r ftz (good ++ [dv])

/-- The integer square root by digits: the largest `q` with `q² ≤ n`, from `k` bits down. -/
def isqrtGo : Nat → Nat → Nat → Nat
  | 0, _, q => q
  | k + 1, n, q => if (q + 2 ^ k) * (q + 2 ^ k) ≤ n then isqrtGo k n (q + 2 ^ k) else isqrtGo k n q

/-- The integer square root. -/
def isqrt (n : Nat) : Nat := isqrtGo (n.log2 / 2 + 1) n 0

/-- `m / n` as a significand with 70 bits or more and a sticky lowest bit, exponent apart. -/
def divSticky (m n : Nat) : Nat × Int :=
  let s := 70 + n.log2
  let q := m * 2 ^ s / n
  (2 * q + (if m * 2 ^ s % n = 0 then 0 else 1), -((s : Int) + 1))

/-- `a / b` (R29, R131). -/
def fdivR (t : FTy) (r : Rnd) (ftz : Bool) (x y : Nat) : Nat × Word :=
  let a := fval t ftz x
  let b := fval t ftz y
  match a, b with
  | .inf _, .inf _ => nanRes t true
  | .inf s, .fin u _ _ => (signBit t (s != u) + FTy.inf t, 0)
  | .fin s _ _, .inf u => (signBit t (s != u), 0)
  | .fin s m e, .fin u n f =>
    if n = 0 then (if m = 0 then nanRes t true else (signBit t (s != u) + FTy.inf t, fDZ))
    else
      let q := divSticky m n
      roundTo t r ftz (s != u) q.1 (q.2 + e - f)
  | _, _ => nanRes t (a.isS || b.isS)

/-- `√a` (R29, R131). -/
def fsqrtR (t : FTy) (r : Rnd) (ftz : Bool) (x : Nat) : Nat × Word :=
  match fval t ftz x with
  | .nan s => nanRes t s
  | .inf false => (FTy.inf t, 0)
  | .inf true => nanRes t true
  | .fin s m e =>
    if m = 0 then (signBit t s, 0)
    else if s then nanRes t true
    else
      let odd := (e % 2).toNat
      let n := m * 2 ^ (140 + odd)
      let q := isqrt n
      roundTo t r ftz false (2 * q + (if q * q = n then 0 else 1)) ((e - odd - 140) / 2 - 1)

/-- An order key of a value that is no NaN; −0 lies below +0 when `zeros` (R132, R133). -/
def fless (zeros : Bool) (a b : FVal) : Bool :=
  match a, b with
  | .inf s, .inf u => s && !u
  | .inf s, .fin _ _ _ => s
  | .fin _ _ _, .inf u => !u
  | .fin s m e, .fin u n f =>
    if m = 0 ∧ n = 0 then zeros && s && !u
    else
      let g := min e f
      decide (atExp g s m e < atExp g u n f)
  | _, _ => false

/-- A value's encoding after the `.ftz` of an input. -/
def ftzEnc (t : FTy) (ftz : Bool) (x : Nat) : Nat := if ftz && isSubn t x then signBit t (x / 2 ^ (t.width - 1) % 2 == 1) else x

/-- `fmin` and `fmax` (R132). -/
def fminmaxR (t : FTy) (isMax ftz : Bool) (x y : Nat) : Nat × Word :=
  let a := fval t ftz x
  let b := fval t ftz y
  let fl := if a.isS || b.isS then fNV else 0
  let xe := ftzEnc t ftz x
  let ye := ftzEnc t ftz y
  match a.isNaN, b.isNaN with
  | true, true => (FTy.nan t, fl)
  | true, false => (ye, fl)
  | false, true => (xe, fl)
  | false, false => (if fless true b a != isMax then ye else xe, fl)

/-- Whether two values that are no NaN are equal; the zeros are. -/
def feq (a b : FVal) : Bool := !fless false a b && !fless false b a

/-- `fcmp` of R133: the condition and NV. -/
def fcmpR (t : FTy) (ftz : Bool) (c : FCond) (x y : Nat) : Bool × Word :=
  let a := fval t ftz x
  let b := fval t ftz y
  let un := a.isNaN || b.isNaN
  let quiet := if a.isS || b.isS then fNV else 0
  let loud := if un then fNV else 0
  match c with
  | .eq => (!un && feq a b, quiet)
  | .ne => (un || !feq a b, quiet)
  | .lt => (!un && fless false a b, loud)
  | .le => (!un && !fless false b a, loud)
  | .gt => (!un && fless false b a, loud)
  | .ge => (!un && !fless false a b, loud)
  | .un => (un, quiet)
  | .ord => (!un, quiet)

/-- `fclass` of R134, as the bit number. -/
def fclassR (t : FTy) (x : Nat) : Nat :=
  match fval t false x with
  | .nan s => if s then 0 else 1
  | .inf s => if s then 2 else 9
  | .fin s m _ =>
    if m = 0 then (if s then 5 else 6)
    else if isSubn t x then (if s then 4 else 7)
    else if s then 3 else 8

/-- Float to float (R30, R136). -/
def fcvtR (s t : FTy) (r : Rnd) (ftz : Bool) (x : Nat) : Nat × Word := roundVal t r ftz (fval s ftz x)

/-- Float to integer (R30). -/
def f2iR (s : FTy) (t : ITy) (r : Rnd) (ftz : Bool) (x : Nat) : Nat × Word :=
  match fval s ftz x with
  | .nan _ => (0, fNV)
  | .inf neg => (truncW t.width (if neg then ITy.min t else ITy.max t), fNV)
  | .fin neg m e =>
    let n := rndTo r neg m e 0
    let v : Int := if neg then -(n.1 : Int) else n.1
    if ITy.max t < v then (truncW t.width (ITy.max t), fNV)
    else if v < ITy.min t then (truncW t.width (ITy.min t), fNV)
    else (truncW t.width v, if n.2 then fNX else 0)

/-- Integer to float (R30). -/
def i2fR (t : FTy) (r : Rnd) (ftz : Bool) (v : Int) : Nat × Word := roundTo t r ftz (decide (v < 0)) v.natAbs 0

/-- `frnd` (R137): `x` raises NX. -/
def frndR (t : FTy) (r : Rnd) (ftz x' : Bool) (x : Nat) : Nat × Word :=
  match fval t ftz x with
  | .nan s => nanRes t s
  | .inf s => (signBit t s + FTy.inf t, 0)
  | .fin s m e =>
    let n := rndTo r s m e 0
    ((roundTo t .rn false s n.1 0).1, if x' && n.2 then fNX else 0)

/-- `fscale` (R138). A shift beyond ±8,192 acts as that shift: every format over- or underflows there. -/
def fscaleR (t : FTy) (r : Rnd) (ftz : Bool) (x : Nat) (k : Int) : Nat × Word :=
  match fval t ftz x with
  | .nan s => nanRes t s
  | .inf s => (signBit t s + FTy.inf t, 0)
  | .fin s m e => roundTo t r ftz s m (e + max (-8192) (min 8192 k))

/-! ### Bond blocks (R33 to R37) -/

/-- Round to nearest even of `m × 2^e`. -/
def rneDy (m : Nat) (e : Int) : Nat := (rndTo .rn false m e 0).1

/-- The 16 elements of `qnt` before packing: E, the μ bits, (sign, M) of each element, flags (R36). -/
def qntCore (bm : Nat) (ftz : Bool) (xs : List Nat) : Nat × List Bool × List (Bool × Nat) × Word :=
  let top := 2 ^ bm - 1
  let vs := xs.map fval32
  if vs.any FVal.isNaN then (255, List.replicate 8 false, List.replicate 16 (false, top), fNV)
  else
    let mags := vs.filterMap fun v => match v with
      | .fin _ m e => if m = 0 then none else some ((m.log2 : Int) + e)
      | _ => none
    let anyInf := vs.any fun v => v == .inf false || v == .inf true
    if mags.isEmpty && !anyInf then (0, List.replicate 8 false, List.replicate 16 (false, 0), 0)
    else
      let lg := mags.foldl (fun a x => max a x) ((mags.head?).getD 0)
      let E : Nat := if mags.isEmpty then 254 else (min 254 (max 1 (lg + 127))).toNat
      let base : Int := (E : Int) - 127 - ((bm : Int) - 1)
      let q := fun (v : FVal) (mu : Bool) => match v with
        | .fin _ m e => rneDy m (e - base + if mu then 1 else 0)
        | _ => top
      let fits := fun (v : FVal) => match v with
        | .fin _ _ _ => decide (q v true ≤ top)
        | _ => false
      let at' := fun i => vs.getD i (.fin false 0 0)
      let mus := (List.range 8).map fun j => fits (at' (2 * j)) && fits (at' (2 * j + 1))
      let els := (List.range 16).map fun i =>
        let v := at' i
        let mu := mus.getD (i / 2) false
        match v with
        | .fin s m e =>
          let raw := q v mu
          let n := min raw top
          let exact := decide (n * 2 ^ 400 = m * 2 ^ (400 + (e - base + if mu then 1 else 0)).toNat)
          let fl := (if top < raw then fQS else 0) ||| (if exact then 0 else fNX) ||| (if n = 0 ∧ m ≠ 0 then fUF else 0)
          ((s, n), fl)
        | .inf s => ((s, top), fQS)
        | .nan s => ((s, top), fNV)
      (E, mus, els.map Prod.fst, els.foldl (fun m x => m ||| x.2) 0)
where
  /-- An `f32` input under the instruction's `.ftz`. -/
  fval32 (x : Nat) : FVal := fval .f32 ftz x

/-- A block as a number in the register layout of R33. -/
def bondPack (bm E : Nat) (mus : List Bool) (els : List (Bool × Nat)) : Nat :=
  E + 256 * ofSubs 1 (mus.map Bool.toNat) + 65536 * ofSubs (bm + 1) (els.map fun x => x.2 + if x.1 then 2 ^ bm else 0)

/-- `qnt` (R36): the block and its flags. -/
def qntR (bm : Nat) (ftz : Bool) (xs : List Nat) : Nat × Word :=
  let r := qntCore bm ftz xs
  (bondPack bm r.1 r.2.1 r.2.2.1, r.2.2.2)

/-- Element `i` of a block as a value (R33, R35). -/
def bondVal (bm blk i : Nat) : FVal :=
  let E := blk % 256
  let mu := blk / 2 ^ (8 + i / 2) % 2
  let el := blk / 2 ^ (16 + (bm + 1) * i) % 2 ^ (bm + 1)
  if E = 0 then .fin false 0 0
  else if E = 255 then .nan false
  else .fin (el / 2 ^ bm == 1) (el % 2 ^ bm) ((E : Int) - 127 - mu - ((bm : Int) - 1))

/-- `dqnt` of one element as an `f32` encoding (R37). -/
def dqntR (bm blk i : Nat) : Nat := (roundVal .f32 .rn false (bondVal bm blk i)).1

/-! ### Matrix accumulation (R38, R39) -/

/-- One term of R38 truncated to a multiple of `2^q`. -/
def mmaTrunc (q : Int) (t : Bool × Nat × Int) : Int :=
  let n : Nat := if q ≤ t.2.2 then t.2.1 * 2 ^ (t.2.2 - q).toNat else t.2.1 / 2 ^ (q - t.2.2).toNat
  if t.1 then -(n : Int) else n

/-- One step of R38 and R39: 16 pairs of exact values and the accumulator. A kept sum of 0 is +0. -/
def mmaStep (ps : List (FVal × FVal)) (c : Nat) : Nat :=
  let cv := fval .f32 false c
  let prods := ps.map fun p => fprod p.1 p.2
  let good := prods.filterMap Prod.fst ++ [cv]
  let pos := good.any (· == .inf false)
  let neg := good.any (· == .inf true)
  if prods.any (·.1.isNone) || cv.isNaN || (pos && neg) then FTy.nan .f32
  else if pos || neg then signBit .f32 neg + FTy.inf .f32
  else
    let ts := good.filterMap fun v => match v with
      | .fin s m e => some (s, m, e)
      | _ => none
    let nz := ts.filter fun t => t.2.1 != 0
    if nz.isEmpty then signBit .f32 (ts.all Prod.fst)
    else
      let lg := nz.map fun t => (t.2.1.log2 : Int) + t.2.2
      let emax := lg.foldl (fun a x => max a x) (lg.headD 0)
      let s := nz.foldl (fun a t => a + mmaTrunc (emax - 27) t) 0
      if s = 0 then 0 else (roundTo .f32 .rn false (decide (s < 0)) s.natAbs (emax - 27)).1

end Sys2Proof.Machine
end

