-- ==== Sys2Proof/Machine/Approx.lean ====
section
/-!
DEFINITION. The approximate functions (R40, R41): the exact result to 200 bits or more, the bound around it, the exact cases and the
special results. The value inside the bound is the free value `Config.approx` wherever that lies inside.
-/

namespace Sys2Proof.Machine

/-- The approximate functions, in the order of R135. -/
inductive AFn where
  | rcp | rsq | exp2 | log2 | sin | cos
  deriving DecidableEq, Repr

/-- The number `Config.approx` knows a function by. -/
def AFn.num : AFn → Nat
  | .rcp => 0
  | .rsq => 1
  | .exp2 => 2
  | .log2 => 3
  | .sin => 4
  | .cos => 5

/-- The code of a float type (R22). -/
def FTy.num : FTy → Nat
  | .f16 => 8
  | .bf16 => 9
  | .f32 => 10
  | .f64 => 11

/-- Fraction bits of the fixed-point numbers below. -/
def fxBits : Nat := 256

/-- 1 in fixed point. -/
def fxOne : Nat := 2 ^ fxBits

/-- `Σ s^(2j+1)/(2j+1)`, with alternating signs when `alt`, from the power `p = s^(2j+1)` on. -/
def oddSeries (alt : Bool) (s2 : Nat) : Nat → Nat → Nat → Int → Int
  | 0, _, _, acc => acc
  | n + 1, j, p, acc =>
    let t : Int := ((p / (2 * j + 1) : Nat) : Int)
    oddSeries alt s2 n (j + 1) (p * s2 / fxOne) (if alt ∧ j % 2 = 1 then acc - t else acc + t)

/-- Inverse hyperbolic tangent of a fixed-point number below one third. -/
def fxAtanh (s : Nat) : Nat := (oddSeries false (s * s / fxOne) 90 0 s 0).toNat

/-- Inverse tangent of a fixed-point number below one third. -/
def fxAtan (s : Nat) : Nat := (oddSeries true (s * s / fxOne) 90 0 s 0).toNat

/-- The natural logarithm of 2. -/
def fxLn2 : Nat := 2 * fxAtanh (fxOne / 3)

/-- Half of π, by Machin's formula. -/
def fxHalfPi : Nat := 8 * fxAtan (fxOne / 5) - 2 * fxAtan (fxOne / 239)

/-- `Σ t^k/k!` over `k` with `k mod step = 0` from the term of `k` on; `alt` alternates. -/
def expSeries (t step : Nat) (alt : Bool) : Nat → Nat → Nat → Bool → Int → Int
  | 0, _, _, _, acc => acc
  | n + 1, k, term, minus, acc =>
    let acc' := if minus then acc - (term : Int) else acc + (term : Int)
    let next := if step = 1 then term * t / fxOne / (k + 1) else term * t / fxOne * t / fxOne / ((k + 1) * (k + 2))
    expSeries t step alt n (k + step) next (alt && !minus) acc'

/-- Sine of a fixed-point angle below half of π. -/
def fxSin (r : Nat) : Nat := (expSeries r 2 true 50 1 r false 0).toNat

/-- Cosine of a fixed-point angle below half of π. -/
def fxCos (r : Nat) : Nat := (expSeries r 2 true 50 0 fxOne false 0).toNat

/-- `m × 2^e` in fixed point, rounded down. -/
def toFx (m : Nat) (e : Int) : Nat := if 0 ≤ e + fxBits then m * 2 ^ (e + fxBits).toNat else m / 2 ^ (-(e + fxBits)).toNat

/-- The exact result of a function of `(-1)^neg × m × 2^e`, `m ≠ 0`, in its domain, to a relative 2^-190 or better and on the true side
of a power of two it lies next to (R40's ulp changes there): sign, significand, exponent. -/
def aExact (fn : AFn) (neg : Bool) (m : Nat) (e : Int) : Bool × Nat × Int :=
  let k := m.log2
  match fn with
  | .rcp => let s := 300 + k; (neg, 2 ^ s / m, -(s : Int) - e)
  | .rsq =>
    let odd := (e % 2).toNat
    let s := 300 + k
    (false, isqrt (2 ^ (2 * s) / (m * 2 ^ odd)), -(s : Int) - (e - odd) / 2)
  | .exp2 =>
    if 14 ≤ (k : Int) + e then (false, 1, if neg then -20000 else 20000)
    else
      let x := toFx m e
      let low := m * 2 ^ 2000 != x * 2 ^ (2000 - e - fxBits).toNat
      let v : Int := if neg then -(x : Int) - (if low then 1 else 0) else x
      let n := v.fdiv fxOne
      let f := (v - n * fxOne).toNat
      (false, max (fxOne + 1) (expSeries (f * fxLn2 / fxOne) 1 false 80 0 fxOne false 0).toNat, n - fxBits)
  | .log2 =>
    let s := (m - 2 ^ k) * fxOne / (m + 2 ^ k)
    let y : Int := ((k : Int) + e) * fxOne + ((2 * fxAtanh s * fxOne / fxLn2 : Nat) : Int)
    (decide (y < 0), y.natAbs, -(fxBits : Int))
  | .sin =>
    if (k : Int) + e < -60 then (neg, m * 2 ^ 200 - 1, e - 200)
    else
      let x := toFx m e
      let r := x % fxHalfPi
      let q := x / fxHalfPi % 4
      (neg != decide (2 ≤ q), if q % 2 = 0 then fxSin r else fxCos r, -(fxBits : Int))
  | .cos =>
    if (k : Int) + e < -60 then (false, fxOne - 1, -(fxBits : Int))
    else
      let x := toFx m e
      let r := x % fxHalfPi
      let q := x / fxHalfPi % 4
      (decide (q = 1 ∨ q = 2), if q % 2 = 0 then fxCos r else fxSin r, -(fxBits : Int))

/-- The exact cases of R40: the exact result. -/
def aPower (fn : AFn) (neg : Bool) (m : Nat) (e : Int) : Option (Bool × Nat × Int) :=
  let k := m.log2
  let pow := decide (m = 2 ^ k)
  let n : Int := (k : Int) + e
  match fn with
  | .rcp => if pow then some (neg, 1, -n) else none
  | .rsq => if pow ∧ n % 2 = 0 then some (false, 1, -(n / 2)) else none
  | .exp2 =>
    if 14 ≤ n then some (false, 1, if neg then -20000 else 20000)
    else if 0 ≤ e then some (false, 1, if neg then -((m * 2 ^ e.toNat : Nat) : Int) else (m * 2 ^ e.toNat : Nat))
    else if m % 2 ^ (-e).toNat = 0 then
      some (false, 1, if neg then -((m / 2 ^ (-e).toNat : Nat) : Int) else (m / 2 ^ (-e).toNat : Nat))
    else none
  | .log2 => if pow then some (decide (n < 0), n.natAbs, 0) else none
  | .sin | .cos => none

/-- The bound of R40 in ulp. -/
def AFn.bound : AFn → Nat
  | .rcp | .rsq => 1
  | _ => 2

/-- Whether an encoding lies within R40's bound of the exact result `y`. An inexact result is never within 2^-190 of a number of the
format without lying on its true side of it (`aExact`), so the comparison needs no slack. -/
def aWithin (fn : AFn) (t : FTy) (y : Bool × Nat × Int) (c : Nat) : Bool :=
  let emin : Int := 1 - (FTy.bias t : Int)
  let u : Int := max ((y.2.1.log2 : Int) + y.2.2) emin - FTy.frac t
  match fval t false c with
  | .nan _ => false
  | .inf s =>
    let g := min (min y.2.2 u) (-(2000 : Int))
    s == y.1 && decide (atExp g false 1 ((FTy.bias t : Int) + 1) - atExp g false 1 ((FTy.bias t : Int) - FTy.prec t) ≤
      atExp g false y.2.1 y.2.2 + atExp g false fn.bound u)
  | .fin s m e =>
    let g := min (min y.2.2 u) e
    decide ((atExp g s m e - atExp g y.1 y.2.1 y.2.2).natAbs ≤ fn.bound * 2 ^ (u - g).toNat)

/-- A result inside the bound with its flags: ∞ raises OF and NX, a tiny one UF and NX, any other NX (R40). -/
def aFlags (t : FTy) (ftz : Bool) (c : Nat) : Nat × Word :=
  let mag := c % 2 ^ (t.width - 1)
  if mag = FTy.inf t then (c, fOF ||| fNX)
  else if mag < 2 ^ FTy.frac t then (if ftz then c - mag else c, fUF ||| fNX)
  else (c, fNX)

/-- The value an X4 gives for a finite, non-zero input in the function's domain (R40). An exact result `2^(emax + 1)` or above
overflows. DESIGN CHOICE (assumption 65): an exact case whose result is a representable subnormal raises nothing. -/
def aFinite (fn : AFn) (t : FTy) (ftz : Bool) (x : Nat) (neg : Bool) (m : Nat) (e : Int) : Nat × Word :=
  let c := Config.approx fn.num (FTy.num t) ftz x % 2 ^ t.width
  let big := (fn = .sin ∨ fn = .cos) ∧ (20 < (m.log2 : Int) + e ∨ ((m.log2 : Int) + e = 20 ∧ m ≠ 2 ^ m.log2))
  if big then
    match fval t false c with
    | .fin _ n f =>
      let g := min f 0
      aFlags t ftz (if atExp g false n f ≤ atExp g false 1 0 then c else 0)
    | _ => aFlags t ftz 0
  else
    let general := fun (y : Bool × Nat × Int) =>
      if (FTy.bias t : Int) < (y.2.1.log2 : Int) + y.2.2 then (signBit t y.1 + FTy.inf t, fOF ||| fNX)
      else aFlags t ftz (if aWithin fn t y c then c else (roundTo t .rn false y.1 y.2.1 y.2.2).1)
    match aPower fn neg m e with
    | some y =>
      let r := roundTo t .rn false y.1 y.2.1 y.2.2
      if r.2 = 0 then roundTo t .rn ftz y.1 y.2.1 y.2.2 else general y
    | none => general (aExact fn neg m e)

/-- An approximate function of an encoding: R41's special results, otherwise `aFinite`. -/
def approxR (fn : AFn) (t : FTy) (ftz : Bool) (x : Nat) : Nat × Word :=
  let one := FTy.bias t * 2 ^ FTy.frac t
  match fval t ftz x with
  | .nan s => nanRes t s
  | .inf s =>
    match fn with
    | .rcp => (signBit t s, 0)
    | .rsq => if s then nanRes t true else (0, 0)
    | .exp2 => (if s then 0 else FTy.inf t, 0)
    | .log2 => if s then nanRes t true else (FTy.inf t, 0)
    | .sin | .cos => nanRes t true
  | .fin s m e =>
    if m = 0 then
      match fn with
      | .rcp | .rsq => (signBit t s + FTy.inf t, fDZ)
      | .exp2 | .cos => (one, 0)
      | .log2 => (signBit t true + FTy.inf t, fDZ)
      | .sin => (signBit t s, 0)
    else if s ∧ (fn = .rsq ∨ fn = .log2) then nanRes t true
    else aFinite fn t ftz x s m e

end Sys2Proof.Machine
end

