-- ==== Sys2Proof/Machine/Flight.lean ====
section
/-!
DEFINITION. Accesses and results in flight: the order they must keep (R154, R168, R172 to R175), how they perform (R156, R169 to R172,
R177, R178), and what a result writes when it returns (R46, R98).
-/

namespace Sys2Proof.Machine

/-! ### Ordering -/

/-- An ordering that holds back every later access of a thread that an ordering at the scope reaches. -/
def Hold.on (fib lane : Nat) (ids : List Nat) (sc : Scope) : Hold :=
  { fib := fib, lane := lane, ids := ids, storesOnly := false, relOnly := false, uo := false, flush := false, walk := false, total := false, sc := sc,
    core := 0, team := 0, event := 0, since := 0 }

/-- Whether a byte is one of which `st.mc` writes every copy (bit 3 of its kind). -/
def mcKind (k : Nat) : Bool := k / 8 % 2 == 1

/-- Whether a byte lies in one copy of a replicated page (bit 4 of its kind). -/
def copyKind (k : Nat) : Bool := k / 16 % 2 == 1

/-- Every byte place an access touches: all four copies where `st.mc` writes a replicated page. -/
def LaneAcc.cover (a : LaneAcc) : List Place :=
  (a.places.zip a.kinds).flatMap fun pk => match pk.1 with
    | .phys b => if mcKind pk.2 then (List.range 4).map fun q => .phys (b + q * 2 ^ 38) else [.phys b]
    | .spad b => [.spad b]
    | .lit _ => []

/-- Whether two accesses touch a common byte. -/
def LaneAcc.hits (a b : LaneAcc) : Bool := a.cover.any fun p => b.cover.contains p

/-- Whether some byte of the access is not UO. -/
def LaneAcc.plain (a : LaneAcc) : Bool := a.kinds.any fun k => k % 4 != 2

/-- Whether the access is of a host page. -/
def LaneAcc.host (a : LaneAcc) : Bool := a.kinds.any fun k => k / 4 % 2 == 1

/-- Whether acquires, releases and fences order the access: some byte is not UO, and host bytes only at `.sys` (R154, R155). -/
def LaneAcc.ordered (sys : Bool) (a : LaneAcc) : Bool := a.kinds.any fun k => k % 4 != 2 && (k / 4 % 2 == 0 || sys)

/-- Whether an ordering at a scope holds the access back: some byte is not UO, or the ordering is a `fence.uo`; host bytes only at `.sys`
(R154, R155, R175). -/
def LaneAcc.heldBy (a : LaneAcc) (uo : Bool) (sc : Scope) : Bool :=
  a.kinds.any fun k => (uo || k % 4 != 2) && (k / 4 % 2 == 0 || sc == .sys)

/-- Whether the access touches an SO page (R154). -/
def LaneAcc.isSO (a : LaneAcc) : Bool := a.kinds.any fun k => k % 4 == 1

/-- Whether an access of `n` bytes at `a` meets a range of `m` bytes from `lo`, addresses taken mod 2^64. -/
def rangeMeets (lo : Word) (m : Nat) (a : Word) (n : Nat) : Bool := decide ((a - lo).toNat < m) || decide ((lo - a).toNat < n ∧ 0 < m)

/-- The ranges a build reads its keys and payloads from, first byte and length (R291). -/
def Build.spans (b : Build) : List (Word × Nat) :=
  let size : Nat := if b.config.getLsbD 8 then 2 else 4
  let reach := fun (k : Nat) (st : Word) => ((k : Int) - 1) * st.toInt
  let u := reach (field b.config 9 8) b.strideK
  let v := reach b.count b.strideD
  let lo := min 0 u + min 0 v
  let pay : Nat := match field b.config 17 2 with
    | 1 => 4
    | 2 => 2 * field b.config 19 7
    | _ => 0
  if b.count = 0 then []
  else [(b.keyA + BitVec.ofInt 64 (lo * size), ((max 0 u + max 0 v - lo) * size).toNat + size), (b.payA, b.count * pay)]

/-- Whether an access may touch bytes a build has still to read: it lies in the build's space and meets the ranges it reads (R291). -/
def Build.reads (b : Build) (a : LaneAcc) : Bool :=
  (match a.places.head? with
    | some (.spad _) => b.scratch
    | some _ => !b.scratch
    | none => false) && b.spans.any fun r => rangeMeets r.1 r.2 a.va a.places.length

/-- Whether a page that a build reads from is SO (R154, R291). -/
def Build.onSO (d : Dev) (b : Build) : Bool :=
  !b.scratch && b.spans.any fun r => decide (0 < r.2) &&
    (((List.range ((r.2 + 65535) / 65536)).map fun i => 65536 * i) ++ [r.2 - 1]).any fun o =>
      match walk d (d.ctx b.ctx).root (r.1 + BitVec.ofNat 64 o) with
      | .ok l => kindOf l.entry == 1
      | .error _ => false

/-- Whether the flight is a memory access at all. -/
def Flight.isMem (g : Flight) : Bool := g.acc.any fun a => !a.kinds.isEmpty

/-- Whether the flight loads: `ld`, `atom`, `cas` (R175). -/
def FKind.loads : FKind → Bool
  | .load _ _ | .piece _ | .atom _ _ _ | .cas _ | .accld _ => true
  | _ => false

/-- Whether the flight is a store, atomic or `wake` (R175). -/
def FKind.writes : FKind → Bool
  | .store _ | .atom _ _ _ | .cas _ | .red _ _ _ | .wake | .flip _ => true
  | _ => false

/-- Whether an ordering acquires (R174). -/
def ordAcq : MOrd → Bool
  | .acq | .sc => true
  | _ => false

/-- Whether an ordering releases (R174). -/
def ordRel : MOrd → Bool
  | .rel | .sc => true
  | _ => false

/-- The flights and builds a new access must follow: those of its fibre that touch its bytes (R168), those a release covers (R174), the SO
accesses of its thread (R154), and what holds of its threads ask (R174, R175); a release at `.sys` follows what any of them holds, though it is
of a host page that they do not hold back (R192); the reads of a build are loads of its lanes (R291). -/
def afterOf (d : Dev) (fib : Nat) (k : FKind) (ord : MOrd) (sc : Scope) (acc : List LaneAcc) : List Nat :=
  let sys := sc == .sys
  let mine := d.flights.filter fun g => g.fib == fib && g.isMem
  let same := fun (p : LaneAcc → LaneAcc → Bool) (g : Flight) => g.acc.any fun b => acc.any fun a => a.lane == b.lane && p a b
  let earlier := mine.filter fun g =>
    (g.acc.any fun b => acc.any fun a => a.hits b) ||
    (ordRel ord && same (fun a b => a.ordered sys && b.ordered sys) g) ||
    same (fun a b => a.isSO && b.isSO) g
  let held := d.holds.filter fun h => h.fib == fib && (!h.storesOnly || k.writes) && (!h.relOnly || ordRel ord) &&
    acc.any fun a => a.lane == h.lane && (ordRel ord && a.ordered sys || !h.relOnly && a.heldBy h.uo h.sc)
  let reads := d.builds.filter fun b => b.fib == fib &&
    (acc.any b.reads || acc.any fun a => b.lanes.has a.lane && (ordRel ord && a.ordered sys || a.isSO && b.onSO d))
  dedupNat (earlier.map Flight.id ++ held.flatMap Hold.ids ++ reads.map Build.id)

/-- The builds of a thread, whose reads of keys are loads of it (R291). -/
def buildsOf (d : Dev) (fib L : Nat) : List Nat := (d.builds.filter fun b => b.fib == fib && b.lanes.has L).map Build.id

/-- What a release of a thread must follow: its accesses in flight, its builds, and what its acquires, its fences, its reads of the time base
and the multicast stores it has read hold it behind (R174, R291, R320). -/
def releaseAfter (d : Dev) (fib L : Nat) : List Nat :=
  dedupNat (((d.flights.filter fun g => g.fib == fib && g.isMem && g.acc.any fun b => b.lane == L).map Flight.id) ++ buildsOf d fib L ++
    ((d.holds.filter fun h => h.fib == fib && h.lane == L).flatMap Hold.ids))

/-- Whether an access or a build, of a saved team too, is still to perform. -/
def Dev.pending (d : Dev) (i : Nat) : Bool :=
  d.flights.any (fun g => g.id == i) || d.builds.any (fun b => b.id == i) ||
  d.ctxs.any fun x => x.saved.any fun s => s.builds.any fun b => b.id == i

/-- The identities of accesses and builds still to perform. -/
def liveIds (d : Dev) (ids : List Nat) : List Nat := ids.filter d.pending

/-- Put a flight on its way under a fresh identity; an acquire, a store or wake with `.sc` among them, holds back its threads' later
accesses (R174). -/
def addFlight (d : Dev) (g : Flight) : Dev :=
  let id := d.nextId
  let hs := if g.isMem && ordAcq g.ord then
      g.acc.filterMap fun a => if a.ordered (g.sc == .sys) then some (Hold.on g.fib a.lane [id] g.sc) else none
    else []
  { d with nextId := id + 1, flights := d.flights ++ [{ g with id := id }], holds := d.holds ++ hs }

/-- A flight of the issuing instruction. -/
def mkFlight (x : Iss) (k : FKind) (acc : List LaneAcc) (dst : List Nat) (pdst : Option Nat) : Flight :=
  { id := 0, fib := x.f.uid, team := x.t.uid, ctx := x.f.ctx, core := x.f.core, kind := k, acc := acc, dst := dst.filter (· != 255),
    pdst := pdst, full := x.full, flags := 0, ord := .rlx, sc := .team, after := [], pc := x.c.pc, acqs := [], through := false,
    path := x.c.lanes }

/-- An access of no memory in one lane, carrying words. -/
def laneOps (L : Nat) (ws : List Word) : LaneAcc :=
  { lane := L, va := 0, places := [], kinds := [], data := [], ops := ws, hands := [], view := [] }

/-- A thread with the events of an access of a kind. A read of the plain kind stands for all that was before it; UO accesses and those to host
pages are kept until a fence orders them (R154, R155). -/
def Thread.noted (t : Thread) (uo host reads : Bool) (evs : List Nat) : Thread :=
  match uo, host with
  | false, false => { t with know := (if reads then [] else t.know) ++ evs }
  | true, false => { t with uo := { t.uo with know := t.uo.know ++ evs } }
  | false, true => { t with host := { t.host with know := t.host.know ++ evs } }
  | true, true => { t with uoHost := { t.uoHost with know := t.uoHost.know ++ evs } }

/-- The events of a lane's access in its thread's order: an acquire also stands before every later access that it orders (R174). -/
def LaneAcc.note (a : LaneAcc) (ord : MOrd) (sc : Scope) (reads : Bool) (evs : List Nat) (t : Thread) : Thread :=
  let t := t.noted (!a.plain) a.host reads evs
  if ordAcq ord && a.ordered (sc == .sys) then evs.foldl (Thread.after · false sc ·) t else t

/-- Note an access of a lane in its thread's order, once it has its identity (R186). -/
def noteAccess (k : FKind) (ord : MOrd) (sc : Scope) (fib id : Nat) (d : Dev) (a : LaneAcc) : Dev :=
  match d.fibre? fib with
  | none => d
  | some f =>
    if a.cover.isEmpty then d
    else
      let evs := (if k.loads then [readEv id a.lane] else []) ++ if k.writes then [writeEv id a.lane] else []
      (if k.loads then d.addBefore (readEv id a.lane) false ((f.thread a.lane).viewOf (!a.plain) a.host) else d).setFibre
        (f.onLanes (LaneMask.ofLanes [a.lane]) fun _ t => a.note ord sc k.loads evs t)

/-- An access with what it hands on, a release what it orders and a later store what its release fences gave it, and with what is before it. A
UO access hands on only what a `fence.uo` gave (R154, R186). -/
def LaneAcc.stamp (f : Fibre) (ord : MOrd) (sc : Scope) (a : LaneAcc) : LaneAcc :=
  let t := f.thread a.lane
  { a with
    hands := ((if ordRel ord then [Hand.mk sc false (t.reached false sc)] else []) ++ t.rels).filter fun h => a.plain || h.uo
    view := t.viewOf (!a.plain) a.host }

/-- Send a memory access on its way with its ordering, behind some flights besides those it must follow. -/
def sendBehind (x : Iss) (d : Dev) (ids : List Nat) (k : FKind) (ord : MOrd) (sc : Scope) (dst : List Nat) (acc : List LaneAcc) : Dev :=
  let acc := acc.map (LaneAcc.stamp (x.fib d) ord sc)
  if acc.isEmpty then d
  else acc.foldl (noteAccess k ord sc x.f.uid d.nextId) (addFlight d
    { mkFlight x k acc dst none with
      full := LaneMask.ofLanes (acc.map LaneAcc.lane) == x.f.live
      ord := ord
      sc := sc
      after := ids ++ afterOf d x.f.uid k ord sc acc })

/-- Send a memory access on its way with its ordering. -/
def sendAccess (x : Iss) (d : Dev) (k : FKind) (ord : MOrd) (sc : Scope) (dst : List Nat) (acc : List LaneAcc) : Dev :=
  sendBehind x d [] k ord sc dst acc

/-! ### Accesses that straddle pages (R155) -/

/-- Bytes of an access that lie on its first page, of 512 MiB where bit 5 of its kind says so, else of 64 KiB (R147, R148). -/
def LaneAcc.head (a : LaneAcc) : Nat :=
  let size := if a.kinds.headD 0 / 32 % 2 = 1 then 2 ^ 29 else 65536
  min a.places.length (size - a.va.toNat % size)

/-- Whether an access of memory straddles a page boundary. -/
def LaneAcc.straddles (a : LaneAcc) : Bool :=
  decide (a.head < a.places.length) && a.places.any fun p => match p with
    | .phys _ => true
    | _ => false

/-- The first page's part of an access, and the rest. -/
def LaneAcc.part1 (a : LaneAcc) : LaneAcc :=
  { a with places := a.places.take a.head, kinds := a.kinds.take a.head, data := a.data.take a.head }

/-- The rest of an access after its first page's part. -/
def LaneAcc.part2 (a : LaneAcc) : LaneAcc :=
  { a with va := a.va + BitVec.ofNat 64 a.head, places := a.places.drop a.head, kinds := a.kinds.drop a.head, data := a.data.drop a.head }

/-- The access each part of which stands by itself, one for each page. -/
def LaneAcc.pages (a : LaneAcc) : List LaneAcc := if a.straddles then [a.part1, a.part2] else [a]

/-- A straddling load without its first page's bytes, whose piece will bring them; its ordering is that of the rest. -/
def LaneAcc.rest (a : LaneAcc) : LaneAcc :=
  if a.straddles then
    { a with
      places := List.replicate a.head (.lit 0) ++ a.places.drop a.head
      kinds := List.replicate a.head ((a.kinds.drop a.head).headD 0) ++ a.kinds.drop a.head }
  else a

/-- SEND A LOAD, split into one access for each page where it straddles a boundary: each part follows its own page's kind (R155). -/
def sendLoad (x : Iss) (d : Dev) (kind : FKind) (ord : MOrd) (sc : Scope) (dst : List Nat) (acc : List LaneAcc) : Dev :=
  let two := acc.filter LaneAcc.straddles
  if two.isEmpty then sendAccess x d kind ord sc dst acc
  else
    let main := d.nextId + two.length
    let d' := two.foldl (fun d a => sendAccess x d (.piece main) ord sc [] [a.part1]) d
    sendBehind x d' ((List.range two.length).map fun k => d.nextId + k) kind ord sc dst (acc.map LaneAcc.rest)

/-! ### Stores to replicated pages (R156, R157) -/

/-- The aligned 8-byte part of an access that its byte `i` lies in, counted from the first; an access of 8 bytes or fewer is one part
(R157). -/
def LaneAcc.partOf (a : LaneAcc) (i : Nat) : Nat := if a.places.length ≤ 8 then 0 else (a.va.toNat % 8 + i) / 8

/-- How many such parts an access has. -/
def LaneAcc.parts (a : LaneAcc) : Nat := if a.places.length ≤ 8 then 1 else (a.va.toNat % 8 + a.places.length + 7) / 8

/-- The steps in which a store performs: each aligned 8-byte part of each copy that `st.mc` writes, or each part of a wide plain store to one
copy; none for a store that performs in one step. -/
def storeSteps (as : List LaneAcc) : List Nat :=
  let n := (as.map LaneAcc.parts).foldl max 0
  if as.any fun a => a.kinds.any mcKind then (List.range n).flatMap fun p => (List.range 4).map fun q => q + 4 * p
  else if decide (1 < n) && as.any fun a => a.kinds.any copyKind then (List.range n).map fun p => 4 * p
  else []

/-- A list in an order that a free value chooses. -/
def shuffle : Nat → Nat → List Nat → List Nat
  | 0, _, ns => ns
  | k + 1, seed, ns =>
    match ns[Config.victim (seed + k) % ns.length]? with
    | none => ns
    | some n => n :: shuffle k seed (ns.erase n)

/-- The steps of a store in the order they are taken, which the spec leaves open (R156, R157). -/
def mcLeft (id : Nat) (as : List LaneAcc) : List Nat := shuffle (storeSteps as).length (64 * id) (storeSteps as)

/-- SEND A STORE, split into one access for each page where one of its lanes straddles a boundary (R155); the lanes keep their order
(R168). -/
def sendStore (x : Iss) (d : Dev) (ord : MOrd) (sc : Scope) (acc : List LaneAcc) : Dev :=
  if acc.any LaneAcc.straddles then
    (acc.flatMap LaneAcc.pages).foldl (fun d a => sendAccess x d (.store (mcLeft d.nextId [a])) ord sc [] [a]) d
  else sendAccess x d (.store (mcLeft d.nextId acc)) ord sc [] acc

/-- Register results fixed at issue, one list of words for each active lane (R46). -/
def sendResult (x : Iss) (d : Dev) (uni keep : Bool) (dst : List Nat) (flags : Word) (val : Nat → List Word) : Dev :=
  if x.act = 0 then d
  else addFlight d { mkFlight x (.result uni keep) (x.lanes.map fun L => laneOps L (val L)) dst none with flags := flags }

/-- A predicate result fixed at issue. -/
def sendPred (x : Iss) (d : Dev) (p : PredIdx) (val : Nat → Bool) : Dev :=
  if x.act = 0 then d
  else addFlight d (mkFlight x (.presult true) (x.lanes.map fun L => laneOps L [if val L then 1 else 0]) []
    (if p.toNat < 24 then some p.toNat else none))

/-! ### UO copies (R154) -/

/-- A core's copy of a UO byte. -/
def uoCopy (d : Dev) (core a : Nat) : Option UoByte := d.uo.find? fun u => u.core == core && u.addr == a

/-- Whether a copy is dirty: its core has written it and not written it back. -/
def UoByte.dirty (u : UoByte) : Bool := u.writer.isSome

/-- The byte a core sees at a UO address. -/
def uoRead (d : Dev) (core a : Nat) : Byte :=
  match uoCopy d core a with
  | some u => u.byte
  | none => memRead d.mem a

/-- Drop a core's copy of a byte. -/
def uoDrop (d : Dev) (core a : Nat) : Dev := { d with uo := d.uo.filter fun u => !(u.core == core && u.addr == a) }

/-- Hold a byte in a core's L1: dirty where it has a writer, else as its home holds it now. DESIGN CHOICE (assumption 50): an L1 gives up no copy
and writes none back by itself. -/
def uoPut (d : Dev) (core a : Nat) (b : Byte) (writer : Option Author) : Dev :=
  { d with uo := ⟨core, a, b, writer, d.clock⟩ :: (uoDrop d core a).uo }

/-- WRITE BACK some dirty bytes: those of one write perform at their home in one step (R154, R166). -/
def writeBack (d : Dev) (us : List UoByte) : Dev :=
  (dedupNat (us.reverse.filterMap fun u => u.writer.map Author.event)).foldl (fun d e =>
    let mine := us.filter fun u => (u.writer.map Author.event) == some e
    match mine.findSome? UoByte.writer with
    | some w => homeWrite d w false (mine.map fun u => (.phys u.addr, u.byte))
    | none => d) d

/-- Write back a core's dirty UO bytes and drop all its copies: what `fence.uo` does (R154). -/
def uoFlush (d : Dev) (core : Nat) : Dev :=
  { writeBack d (d.uo.filter fun u => u.core == core && u.dirty) with uo := d.uo.filter fun u => u.core != core }

/-- Write back the dirty UO bytes of some cores; their copies stay, clean. -/
def uoClean (d : Dev) (near : Nat → Bool) : Dev :=
  let d' := writeBack d (d.uo.filter fun u => near u.core && u.dirty)
  { d' with uo := d.uo.map fun u => if near u.core && u.dirty then { u with writer := none, moment := d'.clock } else u }

/-! ### Reading and writing a byte -/

/-- The byte at a place, for a core, team and page kind. -/
def readPlace (d : Dev) (core team : Nat) (p : Place × Nat) : Byte :=
  match p.1 with
  | .phys a => if p.2 % 4 = 2 then uoRead d core a else memRead d.mem a
  | _ => homeByte d team p.1

/-- The bytes of an access as its core sees them. -/
def accBytes (d : Dev) (core team : Nat) (a : LaneAcc) : List Byte := (a.places.zip a.kinds).map (readPlace d core team)

/-- Bring the UO bytes a load read into the core's L1 as clean copies. -/
def uoFill (d : Dev) (core : Nat) (a : LaneAcc) : Dev :=
  (a.places.zip a.kinds).foldl (fun d pk => match pk.1 with
    | .phys b => if pk.2 % 4 = 2 && (uoCopy d core b).isNone then uoPut d core b (memRead d.mem b) none else d
    | _ => d) d

/-- Bring a byte home: the core's copy is written back if it is dirty, and dropped. -/
def uoByteHome (d : Dev) (core b : Nat) : Dev :=
  match uoCopy d core b with
  | none => d
  | some u => uoDrop (if u.dirty then writeBack d [u] else d) core b

/-- Make the core's own writes to an access's UO bytes perform at their home before an atomic or a `waitaddr` acts there, and drop the
core's copies (R154, R172, R177). -/
def uoHome (d : Dev) (core : Nat) (a : LaneAcc) : Dev :=
  (a.places.zip a.kinds).foldl (fun d pk => match pk.1 with
    | .phys b => if pk.2 % 4 = 2 then uoByteHome d core b else d
    | _ => d) d

/-- The bytes of an access at their home. -/
def homeBytes (d : Dev) (team : Nat) (a : LaneAcc) : List Byte := a.places.map (homeByte d team)

/-- WRITE BYTES as an author does: a UO byte stays in the core's L1 unless it goes through; every other byte performs at its home (R154). -/
def storeBytes (d : Dev) (w : Author) (through rmw : Bool) (ps : List ((Place × Nat) × Byte)) : Dev :=
  let far := ps.filter fun p => p.1.2 % 4 != 2 || through
  let d := ps.foldl (fun d p => match p.1.1 with
    | .phys a => if p.1.2 % 4 != 2 then d else if through then uoDrop d w.core a else uoPut d w.core a p.2 (some w)
    | _ => d) d
  if far.isEmpty then d else homeWrite d w rmw (far.map fun p => (p.1.1, p.2))

/-! ### What a release hands on (R188, R197) -/

/-- Whether scope `s` of a thread of (team, core) contains a thread of another (R173). -/
def scopeHas (s : Scope) (team core team' core' : Nat) : Bool :=
  match s with
  | .team => team == team'
  | .die => quarterOf core == quarterOf core'
  | .dev | .sys => true

/-- A plain write that no load can miss: it ends the release sequences of its bytes (R188, R216). -/
def endNotes (d : Dev) (team : Nat) (ps : List Place) : Dev :=
  { d.settleBytes fun t p => sameByte team t ps p with notes := notesOff d.notes team ps }

/-- Who writes in a lane's access of a flight. -/
def Flight.author (g : Flight) (a : LaneAcc) : Author :=
  { event := writeEv g.id a.lane, flight := g.id, fib := some g.fib, lane := a.lane, team := g.team, core := g.core, host := a.host,
    hands := a.hands }

/-- The bytes of an access that lie in memory, each with its page kind. -/
def LaneAcc.cells (a : LaneAcc) : List (Place × Nat) := (a.places.zip a.kinds).filter fun p => match p.1 with
  | .lit _ => false
  | _ => true

/-- The core's own copy that a read of a byte finds (R154). -/
def copyRead (d : Dev) (core : Nat) (p : Place × Nat) : Option UoByte := match p.1 with
  | .phys a => if p.2 % 4 = 2 then uoCopy d core a else none
  | _ => none

/-- How many writes ago a read of a byte takes it from its home: what the read asks for, or where a clean copy serves it, the moment of that
copy. -/
def cellBack (d : Dev) (core back : Nat) (p : Place × Nat) : Nat := match copyRead d core p with
  | some u => d.clock - u.moment
  | none => back

/-- The writer of a byte that a read finds dirty in its core's L1. -/
def cellWriter (d : Dev) (core : Nat) (p : Place × Nat) : Option Author := (copyRead d core p).bind UoByte.writer

/-- The bytes of an access as a core reads them, as of `back` writes ago where no copy of its own serves it. -/
def bytesBack (d : Dev) (core team back : Nat) (a : LaneAcc) : List Byte :=
  if back = 0 then accBytes d core team a
  else (a.places.zip a.kinds).map fun p =>
    if (copyRead d core p).isSome then readPlace d core team p else (pastByte d back team p.1).getD (readPlace d core team p)

/-- The writes that a read of an access returns. -/
def writesRead (d : Dev) (core back team : Nat) (a : LaneAcc) : List Nat :=
  dedupNat (a.cells.filterMap fun p => match cellWriter d core p with
    | some w => some w.event
    | none => pastWrite d (cellBack d core back p) team p.1)

/-- WRITE BYTES of a lane's access as a flight performs (R188). -/
def recordWrite (d : Dev) (g : Flight) (through rmw : Bool) (a : LaneAcc) (ps : List ((Place × Nat) × Byte)) : Dev :=
  storeBytes d (g.author a) through rmw ps

/-- Whether a note is of a byte that a read takes from its home as of `back` writes ago. -/
def RelNote.meets (n : RelNote) (d : Dev) (team back : Nat) (p : Place) : Bool :=
  sameByte team n.team n.places p && (back == 0 || decide (n.since + back ≤ d.clock))

/-- The notes a read of an access meets: of the writes it returns, in memory or in its core's L1. -/
def notesMet (d : Dev) (core team back : Nat) (a : LaneAcc) : List RelNote :=
  let far := a.cells.filter fun p => (cellWriter d core p).isNone
  let near := a.cells.flatMap fun p => match cellWriter d core p with
    | some w => w.hands.map fun h => RelNote.mk [p.1] w.team w.core h.sc w.host h.know d.clock
    | none => []
  let ended := d.past.flatMap fun e => e.ended.filter fun n => far.any fun p =>
    decide (d.clock < e.moment + cellBack d core back p) && n.meets d team (cellBack d core back p) p.1
  near ++ (d.notes.filter fun n => far.any fun p => n.meets d team (cellBack d core back p) p.1) ++ ended

/-- Whether an acquire at a scope of a thread of (team, core) synchronises with a release whose note it meets (R186). -/
def RelNote.syncs (n : RelNote) (team core : Nat) (s : Scope) : Bool :=
  scopeHas n.sc n.team n.core team core && scopeHas s team core n.team n.core && (!n.host || (n.sc == .sys && s == .sys))

/-- An event acquires what some notes hand on. -/
def acquireNotes (d : Dev) (event : Nat) (ns : List RelNote) : Dev := ns.foldl (fun d n => d.addBefore event false n.know) d

/-- The events that a read makes acquires, each at its scope: the read itself, and the fences that followed it. A UO read acquires only by a
`fence.uo` (R154, R174, R175). -/
def acqAt (event : Nat) (ord : MOrd) (sc : Scope) (acqs : List FenceAcq) (a : LaneAcc) : List (Nat × Scope) :=
  (if ordAcq ord && a.plain then [(event, sc)] else []) ++
  (acqs.filter fun q => q.lane == a.lane && (a.plain || q.uo)).map fun q => (q.event, q.sc)

/-- Whether some scope holds every thread of the device. -/
def wideScope (scs : List Scope) : Bool := scs.contains .dev || scs.contains .sys

/-- Remember what a thread has read, and as of when (R154). -/
def readAlso (rs : List ReadAt) (r : ReadAt) : List ReadAt := r :: rs.filter fun q => q.places != r.places

/-- A thread's read meets some notes: the events that acquire them do, and those that none acquires are kept for a later fence (R175). -/
def meetNotes (d : Dev) (fib team core : Nat) (acqs : List (Nat × Scope)) (a : LaneAcc) (ns : List RelNote) : Dev :=
  match d.fibre? fib with
  | none => d
  | some f =>
    let left := ns.filter fun n => !acqs.any fun q => n.syncs team core q.2
    let d := acqs.foldl (fun d q => acquireNotes d q.1 (ns.filter fun n => n.syncs team core q.2)) d
    if left.isEmpty then d
    else d.setFibre (f.onLanes (LaneMask.ofLanes [a.lane]) fun _ t =>
      if a.plain then { t with seen := t.seen ++ left.filter fun n => !t.seen.contains n }
      else { t with seenUo := t.seenUo ++ left.filter fun n => !t.seenUo.contains n })

/-- WHAT A READ TELLS ITS THREAD, by its event: the writes it returns, and what they hand on (R174, R186). What an ordered observer at `.dev`
sees fixes the order of the stores it has met (R190). -/
def learn (d : Dev) (fib team core event : Nat) (acqs : List (Nat × Scope)) (back : Nat) (a : LaneAcc) : Dev :=
  let ws := writesRead d core back team a
  let moment := d.clock - (a.cells.map (cellBack d core back)).foldl max 0
  let d := meetNotes (d.addBefore event false ws) fib team core acqs a (notesMet d core team back a)
  match d.fibre? fib with
  | none => d
  | some f =>
    let ordered := (f.thread a.lane).metOrd
    let d := if ordered.isEmpty || a.cells.isEmpty || !a.plain then d
      else { d with agreed := ⟨ordered, team, a.cells.map Prod.fst, moment⟩ :: d.agreed }
    if ws.isEmpty then d
    else d.setFibre (f.onLanes (LaneMask.ofLanes [a.lane]) fun _ t =>
      { t with
        met := if a.plain then dedupNat (t.met ++ ws) else t.met
        metOrd := if a.plain && wideScope (acqs.map Prod.snd) then dedupNat (t.metOrd ++ ws) else t.metOrd
        reads := readAlso t.reads ⟨a.cells.map Prod.fst, moment⟩ })

/-! ### Older values (R154, R187 to R190) -/

/-- Whether a lane's load may miss a later write to its bytes: none that counts as its own (R168), no write that happens before it (R187) or that
a `fence.sc` before it puts before it, for an `.sc` load also what `.sc` accesses and fences have put before it (R174), none its thread has
read as of (R154), and none that another observer at `.dev` has seen before a store that this thread has met (R190). -/
def mayMiss (d : Dev) (g : Flight) (t : Thread) (own : Past → Bool) (a : LaneAcc) (e : Past) : Bool :=
  !own e &&
  !(reach d.before true a.view).contains e.author.event &&
  !(g.ord == .sc && a.plain && d.scs.any fun n => n.syncs g.team g.core g.sc && (!e.author.host || (n.sc == .sys && g.sc == .sys)) &&
    (reach d.before true n.know).contains e.author.event) &&
  !(t.reads.any fun r => decide (e.moment ≤ r.moment) && r.places.any (e.has g.team)) &&
  (e.author.host || !d.agreed.any fun r => r.met.contains e.author.event && t.metOrd.any fun w => d.past.any fun p =>
    p.author.event == w && decide (r.moment < p.moment) && r.places.any (p.has r.team))

/-- Whether a lane's load may return its bytes as they stood `back` writes ago: as they stand always; otherwise none lies on an SO page, and the
load may miss each later write to them at their home. -/
def mayReadBy (d : Dev) (g : Flight) (own : Past → Bool) (back : Nat) (a : LaneAcc) : Bool :=
  back == 0 || (decide (back ≤ d.clock) && !a.isSO && match d.fibre? g.fib with
    | none => false
    | some f => (d.past.filter fun e => decide (d.clock < e.moment + back) &&
        a.cells.any fun p => (copyRead d g.core p).isNone && e.has g.team p.1).all (mayMiss d g (f.thread a.lane) own a))

/-- The same for a flight of a fibre, whose own earlier accesses count (R168). -/
def mayRead (d : Dev) (g : Flight) (back : Nat) (a : LaneAcc) : Bool := mayReadBy d g (fun e => e.of g.fib g.id) back a

/-- How many writes ago a lane's load reads as of: a free value among those that R187 to R190 allow (assumption 70). -/
def backOf (d : Dev) (g : Flight) (a : LaneAcc) : Nat :=
  if d.past.isEmpty then 0
  else if mayRead d g (Config.older g.id a.lane) a then Config.older g.id a.lane else 0

/-- A LANE'S READ THAT IS NO FLIGHT, which its instruction makes at once: its event stands after what is before the thread's next access of its
kind and before its later ones; it also meets the notes `ns`. Answers the bytes. -/
def readNow (d : Dev) (g : Flight) (a : LaneAcc) (ns : List RelNote) : List Byte × Dev :=
  match d.fibre? g.fib with
  | none => (accBytes d g.core g.team a, d)
  | some f =>
    let j := d.join ((f.thread a.lane).viewOf (!a.plain) a.host)
    let acqs := acqAt j.1 g.ord g.sc [] a
    let d := j.2.setFibre (f.onLanes (LaneMask.ofLanes [a.lane]) fun _ t => a.note g.ord g.sc true [j.1] t)
    let d := meetNotes d g.fib g.team g.core acqs a ns
    let a := { a with view := [j.1] }
    let back := backOf d g a
    (bytesBack d g.core g.team back a, learn d g.fib g.team g.core j.1 acqs back a)

/-! ### A task's buffer as its own reads see it (R198, R247) -/

/-- The byte a buffered store holds for a place read from a Quarter; the latest store is the last of the list. -/
def bufByte (buf : List LaneAcc) (q : Nat) (p : Place) : Option Byte :=
  (buf.map fun a => ((a.places.zip a.kinds).zip a.data).foldl (fun acc pb =>
    let same := match pb.1.1, p with
      | .phys b, .phys c => (if mcKind pb.1.2 then b + q * 2 ^ 38 else b) == c
      | _, _ => false
    if same then some pb.2 else acc) none).foldl (fun acc o => o.orElse fun _ => acc) none

/-- The buffered stores of the tasks of some lanes. -/
def taskBuf (f : Fibre) (m : LaneMask) : List LaneAcc := m.lanes.flatMap fun L => match (f.thread L).task with
  | some k => k.buf
  | none => []

/-- Whether a byte place is fixed by a buffer: as a task's own read from a Quarter finds it. -/
def bufPlace (buf : List LaneAcc) (q : Nat) (p : Place) : Place := match bufByte buf q p with
  | some b => .lit b
  | none => p

/-! ### Returning results -/

/-- The lanes of a flight in which a result lands. The result of a load or of a Mortar or Quoin instruction is discarded in a lane whose
thread has exited; `keep` marks every other result (R98, R347). -/
def landLanes (f : Fibre) (g : Flight) (keep : Bool) : LaneMask :=
  LaneMask.ofLanes ((g.acc.map LaneAcc.lane).filter fun L => keep || (f.thread L).life == .live)

/-- Write the words of each lane to the destination registers, first word to the first. -/
def landRegs (d : Dev) (g : Flight) (uni keep : Bool) (vals : List (Nat × List Word)) : Dev :=
  match d.fibre? g.fib with
  | none => d
  | some f =>
    let lanes := landLanes f g keep
    let word := fun (k L : Nat) => match vals.find? fun v => v.1 == L with
      | some v => v.2.getD k 0
      | none => 0
    (List.range g.dst.length).foldl (fun d k =>
      writeNow d g.fib (g.dst.getD k 255) lanes g.full
        (if uni then .u (word k ((lowestLane lanes).getD 0)) else .g ((List.range f.width).map (word k)))) d

/-- Write the predicate that a group result brings with it, one bit in each lane's `data`, in the lanes in which the group lands (R269, R294,
R347). -/
def landPred (d : Dev) (g : Flight) (keep : Bool) : Dev :=
  match g.pdst, d.fibre? g.fib with
  | some p, some f => writePredNow d g.fib p (landLanes f g keep) fun L => g.acc.any fun a => a.lane == L && a.data.headD 0 != 0
  | _, _ => d

/-- OR a returning result's flags into its fibre's (R32, R140). -/
def landFlags (d : Dev) (fib : Nat) (fl : Word) : Dev :=
  if fl = 0 then d
  else match d.fibre? fib with
    | none => d
    | some f => d.setFibre (raise f fl)

/-- `ext` of R169 and R171 on the bytes of an element of type `t`. -/
def extWord (t : NTy) (bs : List Byte) : Word :=
  match t with
  | .int i => if i.signed then sextTo64 (8 * bs.length) (leNat bs) else leWord bs
  | .flt _ => leWord bs

/-- The words a load writes: one extended element, or the bytes eight by eight (R165, R169). -/
def loadWords (t : NTy) (size : Size) (bs : List Byte) : List Word :=
  match size with
  | .e => [extWord t bs]
  | s => leWords (sizeRegs s) bs

/-- The numeric type of an atomic. -/
def atyN : ATy → NTy
  | .i32 => .int .i32
  | .i64 => .int .i64
  | .n32 => .int .n32
  | .n64 => .int .n64
  | .f32 => .flt .f32
  | .f64 => .flt .f64

/-- The numeric type of a `cas`. -/
def ctyN : CTy → NTy
  | .i32 => .int .i32
  | .i64 => .int .i64
  | .n32 => .int .n32
  | .n64 => .int .n64

/-- The new value of an atomic and the flags of its operation (R170, R171). -/
def aopRes (op : AOp) (t : ATy) (ftz : Bool) (m v : Nat) : Nat × Word :=
  match op, atyN t with
  | .add, .flt f => faddR f .rn ftz m v
  | .min, .flt f => fminmaxR f false false m v
  | .max, .flt f => fminmaxR f true false m v
  | .add, .int i => (truncW i.width ((m : Int) + v), 0)
  | .min, .int i => (if intVal i v < intVal i m then v else m, 0)
  | .max, .int i => (if intVal i m < intVal i v then v else m, 0)
  | .exch, _ => (v, 0)
  | .and, _ => (m &&& v, 0)
  | .or, _ => (m ||| v, 0)
  | .xor, _ => (m ^^^ v, 0)

/-! ### Performing -/

/-- A place in the total order of `.sc` accesses and fences, with what stands before it. -/
def scMark (team core : Nat) (sc : Scope) (host : Bool) (ks : List Nat) : RelNote :=
  { places := [], team := team, core := core, sc := sc, host := host, know := ks, since := 0 }

/-- A fence of the total order takes its place: what stood before the earlier places whose scopes and its own hold each other's threads stands
before its thread's later reads (R174). -/
def takePlace (d : Dev) (h : Hold) : Dev :=
  let d' := (d.scs.filter fun n => n.syncs h.team h.core h.sc).foldl (fun d n => d.addBefore h.event true n.know) d
  { d' with scs := scMark h.team h.core h.sc false [h.event] :: d.scs }

/-- What a fence does when the accesses before it have performed: it takes its place in the total order (R174), and a `fence.uo` drops its
core's UO lines (R175). -/
def endHold (d : Dev) (h : Hold) : Dev :=
  let d := if h.total then takePlace d h else d
  if h.flush then uoFlush d h.core else d

/-- The places that an `.sc` access that writes takes as it performs: later `.sc` reads and fences come after its writes (R174). -/
def Flight.marks (g : Flight) : List RelNote :=
  if g.ord == .sc && g.kind.writes then
    g.acc.filterMap fun a =>
      if a.ordered (g.sc == .sys) then some (scMark g.team g.core g.sc a.host [writeEv g.id a.lane]) else none
  else []

/-- Remove a flight or build that is done: what waited for it goes on. -/
def finishFlight (d : Dev) (id : Nat) : Dev :=
  let step := fun (h : Hold) => { h with ids := h.ids.filter (· != id) }
  let done := d.holds.filter fun h => h.ids.contains id && (step h).ids.isEmpty
  done.foldl endHold { d with
    scs := (d.flights.filter fun g => g.id == id).flatMap Flight.marks ++ d.scs
    flights := d.flights.filter fun g => g.id != id
    builds := d.builds.filter fun b => b.id != id
    holds := (d.holds.map step).filter fun h => !h.ids.isEmpty }

/-- The `st.mc` flights that have written the copy an access reads but not every copy (R156, R174). -/
def partialMc (d : Dev) (a : LaneAcc) : List Nat :=
  (d.flights.filter fun g => match g.kind with
    | .store left => !left.isEmpty && g.acc.any fun b => ((b.places.zip b.kinds).zipIdx).any fun pk => match pk.1.1 with
        | .phys p => mcKind pk.1.2 && (List.range 4).any fun q =>
            !left.contains (q + 4 * b.partOf pk.2) && a.places.contains (.phys (p + q * 2 ^ 38))
        | _ => false
    | _ => false).map Flight.id

/-- A read, not itself a flight, of a copy that a multicast store has not finished: releases of the thread follow that store too (R174). -/
def readMc (d : Dev) (fib lane : Nat) (a : LaneAcc) : Dev :=
  match partialMc d a with
  | [] => d
  | ids => { d with holds := d.holds ++ [{ Hold.on fib lane ids .sys with relOnly := true }] }

/-- A fence that releases holds back what comes after the reads before it (R175). -/
def Hold.releases (h : Hold) (g : Flight) (lane : Nat) : Bool := h.fib == g.fib && h.lane == lane && (h.storesOnly || h.total) && h.ids.contains g.id

/-- A read of a copy that a multicast store has not finished: later releases of the thread, and releases, release fences and the stores after
those that stand behind the read, follow that store too (R174, R175: releases are cumulative). -/
def followMc (d : Dev) (g : Flight) (a : LaneAcc) : Dev :=
  match partialMc d a with
  | [] => d
  | ids =>
    let fenced := d.holds.any fun h => h.releases g a.lane
    let behind := fun (h : Flight) => h.after.contains g.id && (ordRel h.ord || fenced && h.kind.writes)
    { d with
      flights := d.flights.map fun h => if behind h then { h with after := dedupNat (h.after ++ ids) } else h
      holds := (d.holds.map fun h => if h.releases g a.lane then { h with ids := dedupNat (h.ids ++ ids) } else h) ++
        [{ Hold.on g.fib a.lane ids .sys with relOnly := true }] }

/-- What a lane's read in a flight tells its thread. -/
def learnFlight (d : Dev) (g : Flight) (back : Nat) (a : LaneAcc) : Dev :=
  learn d g.fib g.team g.core (readEv g.id a.lane) (acqAt (readEv g.id a.lane) g.ord g.sc g.acqs a) back a

/-- One lane's read-modify-write at its home: the device, the old bytes, the flags (R171, R172). -/
def rmwLane (d : Dev) (g : Flight) (a : LaneAcc) (f : Nat → Nat × Word × Bool) : Dev × List Byte × Word :=
  let d := uoHome d g.core a
  let old := accBytes d g.core g.team a
  let r := f (leNat old)
  let d := learnFlight (followMc d g a) g 0 a
  if r.2.2 then (recordWrite d g true true a ((a.places.zip a.kinds).zip (natLE old.length r.1)), old, r.2.1)
  else (d, old, r.2.1)

/-- Perform the lanes of an atomic in order; answers the old bytes of each lane and the flags. -/
def rmwAll (g : Flight) (f : LaneAcc → Nat → Nat × Word × Bool) :
    List LaneAcc → Dev → Dev × List (Nat × List Byte) × Word
  | [], d => (d, [], 0)
  | a :: as, d =>
    let (d, old, fl) := rmwLane d g a (f a)
    let (d, rest, fl') := rmwAll g f as d
    (d, (a.lane, old) :: rest, fl ||| fl')

/-- The read that a parked thread makes as it returns, as a load with its ordering (R177). -/
def Waiter.flight (w : Waiter) : Flight :=
  { id := w.id, fib := w.fib, team := w.team, ctx := w.ctx, core := w.core, kind := .load (.int .n64) .r, acc := [w.acc], dst := [w.dst],
    pdst := none, full := false, flags := 0, ord := w.ord, sc := w.sc, after := [], pc := w.pc, acqs := [], through := false, path := w.path }

/-- Return a parked thread: it leaves the FIFO, reads the word again and writes it to its register (R177), after what the wake that returns it
hands on, if it acquires (R178); a thread whose team is held in the save area is marked instead (R179). -/
def returnWaiter (ns : List RelNote) (d : Dev) (w : Waiter) : Dev :=
  let gone := { d with waiters := d.waiters.filter (· != w) }
  match gone.fibre? w.fib with
  | none => { d with waiters := d.waiters.map fun v => if v == w then { v with marked := true, notes := ns } else v }
  | some f =>
    if (f.thread w.lane).life != .live then gone
    else
      let gone := uoHome gone w.core w.acc
      let m := LaneMask.ofLanes [w.lane]
      let gone := readMc gone w.fib w.lane w.acc
      let r := readNow (gone.setFibre (f.onLanes m fun _ t => { t with wait := .none })) w.flight w.acc ns
      writeNow r.2 w.fib w.dst m false (.g ((List.range f.width).map fun L => if L = w.lane then leWord r.1 else 0))

/-- Wake the oldest waiters of a word in each Quarter's FIFO, up to a count; what the wake releases goes to each (R178). -/
def wakeWord (d : Dev) (g : Flight) (a : LaneAcc) (count : Nat) : Dev :=
  let named := d.waiters.filter fun w => !w.marked && w.acc.places == a.places && (w.team == g.team || a.places.all fun p => match p with
    | .spad _ => false
    | _ => true)
  let ns := a.hands.map fun h => RelNote.mk a.cover g.team g.core h.sc a.host h.know d.clock
  (List.range 4).foldl (fun d q => ((named.filter fun w => w.quarter == q).take count).foldl (returnWaiter ns) d) d

/-- Where one byte of a store lands in a step, if it does: `st.mc` writes a part of one copy, a wide plain store a part of its copy, and
every other byte lands in the first step (R156, R157). -/
def stepPlace (a : LaneAcc) (step : Option Nat) (first : Bool) (i : Nat) (p : Place × Nat) : Option (Place × Nat) :=
  match p.1, step with
  | .phys b, some n =>
    if mcKind p.2 then if n / 4 = a.partOf i then some (.phys (b + n % 4 * 2 ^ 38), p.2) else none
    else if copyKind p.2 && n % 4 == 0 then if n / 4 = a.partOf i then some p else none
    else if first then some p else none
  | .phys _, none => if mcKind p.2 then none else some p
  | _, _ => if first then some p else none

/-- Perform one store access, or one step of it (R156, R157, R169). -/
def storeLane (d : Dev) (g : Flight) (step : Option Nat) (first : Bool) (a : LaneAcc) : Dev :=
  recordWrite d g g.through false a ((((a.places.zip a.kinds).zip a.data).zipIdx).filterMap fun pb =>
    (stepPlace a step first pb.2 pb.1.1).map fun p => (p, pb.1.2))

/-- Tile image bytes, 4 KiB for each tile (R206). -/
def tileAt (ta : Nat) : Nat := ta * 4096

/-- A write of a tile outside the live mask makes the mask invalid (R221). -/
def touchTile (t : Team) (ta : Nat) : Team := if t.tlive.getLsbD ta then t else { t with tliveOk := false }

/-- What `join` answers a lane: 3 for no child of its grid or task, 0 while the child runs, then 1, or 2 if it was refused (R253). -/
def joinAnswer (d : Dev) (fib L : Nat) (lid : Word) : Nat :=
  match d.fibre? fib with
  | none => 3
  | some f => match d.team? f.team with
    | none => 3
    | some t =>
      let mine := fun (g : Grid) => match (f.thread L).task with
        | some k => g.parentTask == some (k.queue, k.seq)
        | none => g.parent == some t.lid && g.parentTask.isNone
      match d.grid? f.ctx lid with
      | none => 3
      | some g => if !mine g then 3 else if !g.retired then 0 else if g.refused then 2 else 1

/-- A `join` that returns for a lane acquires, by its event, from the retirement of its child (R199, R253). -/
def joinLearn (event fib : Nat) (d : Dev) (L : Nat) (lid : Word) : Dev :=
  match d.fibre? fib with
  | none => d
  | some f =>
    if joinAnswer d fib L lid % 3 = 0 then d
    else match d.grid? f.ctx lid with
      | some g => d.addBefore event false g.learnt
      | none => d

/-- An event that is no access stands before some lanes' later accesses at a scope (R186). -/
def knowAfter (d : Dev) (fib : Nat) (m : LaneMask) (sc : Scope) (event : Nat) : Dev :=
  match d.fibre? fib with
  | none => d
  | some f => d.setFibre (f.onLanes m fun _ t => t.after false sc event)

/-- The accesses of a load, each with how many writes ago it reads as of: 0 where `bs` gives nothing. -/
def Flight.aged (g : Flight) (bs : List Nat) : List (LaneAcc × Nat) := g.acc.zipIdx.map fun p => (p.1, bs.getD p.2 0)

/-- What the reads of a load tell its threads and bring into the core's L1. -/
def learnAll (d : Dev) (g : Flight) (bs : List Nat) : Dev :=
  (g.aged bs).foldl (fun d p => learnFlight (followMc (uoFill d g.core p.1) g p.1) g p.2 p.1) d

/-- PERFORM A FLIGHT whose turn has come: its memory effect and, where it has one, its result. A multicast store performs one copy at a
time (R156). `bs` says for each lane of a load how many writes ago it reads as of (R187). DESIGN CHOICE
(assumption 77): what R166 lets others observe byte by byte, an access that is wider than 8 bytes or unaligned, performs whole in one step, and
so do all lanes of an instruction. -/
def perform (now : Word) (bs : List Nat) (d : Dev) (g : Flight) : Dev :=
  match g.kind with
  | .load t size =>
    let vals := (g.aged bs).map fun p => (p.1.lane, loadWords t size (bytesBack d g.core g.team p.2 p.1))
    finishFlight (landRegs (learnAll d g bs) g false false vals) g.id
  | .store [] => finishFlight (g.acc.foldl (fun d a => storeLane d g none true a) d) g.id
  | .store (n :: left) =>
    let d := g.acc.foldl (fun d a => storeLane d g (some n) (decide (left.length + 1 = (storeSteps g.acc).length)) a) d
    if left.isEmpty then finishFlight d g.id
    else { d with flights := d.flights.map fun h => if h.id == g.id then { h with kind := .store left } else h }
  | .flip _ => finishFlight (g.acc.foldl (fun d a => storeLane d { g with through := true } none true a) d) g.id
  | .atom op t ftz =>
    let r := rmwAll g (fun a m => let v := aopRes op t ftz m (leNat a.data); (v.1, v.2, true)) g.acc d
    let d := landRegs r.1 g false false (r.2.1.map fun o => (o.1, [extWord (atyN t) o.2]))
    finishFlight (landFlags d g.fib r.2.2) g.id
  | .cas t =>
    let r := rmwAll g (fun a m => ((a.ops.getD 1 0).toNat % 2 ^ (8 * a.data.length), 0,
      decide ((a.ops.getD 0 0).toNat % 2 ^ (8 * a.data.length) = m))) g.acc d
    finishFlight (landRegs r.1 g false false (r.2.1.map fun o => (o.1, [extWord (ctyN t) o.2]))) g.id
  | .red op t ftz =>
    finishFlight (rmwAll g (fun a m => let v := aopRes op t ftz m (leNat a.data); (v.1, 0, true)) g.acc d).1 g.id
  | .wake => finishFlight (g.acc.foldl (fun d a => wakeWord d g a (a.ops.getD 0 0).toNat) d) g.id
  | .result uni keep =>
    let d := landRegs (landPred d g keep) g uni keep (g.acc.map fun a => (a.lane, a.ops))
    finishFlight (landFlags d g.fib g.flags) g.id
  | .regw v =>
    let d := match d.fibre? g.fib with
      | some f => writeNow d g.fib (g.dst.headD 255) (landLanes f g true) g.full v
      | none => d
    finishFlight d g.id
  | .presult keep =>
    let d := match g.pdst, d.fibre? g.fib with
      | some p, some f => writePredNow d g.fib p (landLanes f g keep) fun L =>
          g.acc.any fun a => a.lane == L && a.ops.getD 0 0 != 0
      | _, _ => d
    finishFlight d g.id
  | .haltWait _ seen =>
    let d := match g.pdst, d.fibre? g.fib with
      | some p, some f => writePredNow d g.fib p (landLanes f g true) fun _ => seen
      | _, _ => d
    finishFlight d g.id
  | .tlbi .. | .drain _ =>
    let d := match g.pdst, d.fibre? g.fib with
      | some p, some f => writePredNow d g.fib p (landLanes f g true) fun _ => true
      | _, _ => d
    finishFlight d g.id
  | .accld ta =>
    let d := match d.team? g.team, g.acc with
      | some t, a :: _ =>
        d.setTeam (touchTile { t with tile := memPut t.tile (tileAt ta) (bytesBack d g.core g.team (bs.getD 0 0) a) } ta)
      | _, _ => d
    finishFlight (learnAll d g bs) g.id
  | .piece main =>
    let d' := learnAll d g bs
    let bring := fun (b : LaneAcc) => match (g.aged bs).find? fun p => p.1.lane == b.lane with
      | some p => { b with places := (bytesBack d g.core g.team p.2 p.1).map .lit ++ b.places.drop p.1.places.length }
      | none => b
    finishFlight { d' with flights := d'.flights.map fun h => if h.id == main then { h with acc := h.acc.map bring } else h } g.id
  | .join =>
    let d' := g.acc.foldl (fun d a => joinLearn (soleEv g.id) g.fib d a.lane (a.ops.getD 0 0)) d
    finishFlight (landRegs d' g false false (g.acc.map fun a =>
      (a.lane, [BitVec.ofNat 64 (joinAnswer d g.fib a.lane (a.ops.getD 0 0))]))) g.id
  | .clk => finishFlight (landRegs d g true true (g.acc.map fun a => (a.lane, [now]))) g.id

/-- Every `halt.ctx` whose context is Halted has seen it so (R311). -/
def seeHalts (d : Dev) : Dev :=
  { d with flights := d.flights.map fun g => match g.kind with
      | .haltWait c false => if (d.ctx c).state == .halted then { g with kind := .haltWait c true } else g
      | _ => g }

/-- Whether a fibre stands in the save area of its context (R301). -/
def savedFibre (d : Dev) (ctx fib : Nat) : Bool := (d.ctx ctx).saved.any fun t => t.fibres.any fun f => f.uid == fib

/-- Whether a fibre's thread is live, in its place or in the save area. -/
def threadLives (d : Dev) (ctx fib L : Nat) : Bool :=
  match d.fibre? fib with
  | some f => (f.thread L).life == .live
  | none => savedFibre d ctx fib

/-- Whether a task of a fibre still holds buffered stores (R198). -/
def buffers (d : Dev) (ctx fib L seq : Nat) : Bool :=
  let holds := fun (f : Fibre) => match (f.thread L).task with
    | some k => k.seq == seq && !k.buf.isEmpty
    | none => false
  match d.fibre? fib with
  | some f => holds f
  | none => (d.ctx ctx).saved.any fun t => t.fibres.any fun f => f.uid == fib && holds f

/-- Whether an access that a `tlbi` waits for besides flights has still to perform: a task's buffered stores, a parked `waitaddr`, a walk that
waits for a zeroing (R163). -/
def tlbiOwed (d : Dev) (tasks : List (Nat × Nat × Nat)) (parked : List Nat) (zeros : List Nat) : Bool :=
  (tasks.any fun k => (List.range 64).any fun c => buffers d c k.1 k.2.1 k.2.2) ||
  (parked.any fun p => d.waiters.any fun w => w.id == p) ||
  zeros.any d.zeroing

/-- Whether a flight is of lanes 32 to 63 of a 64-lane fibre that issue in the cycle after the one now (R85). -/
def secondHalf (d : Dev) (g : Flight) : Bool :=
  decide (d.mark ≤ g.id) && g.acc.any (fun a => decide (32 ≤ a.lane)) && (d.fibre? g.fib).any fun f => f.width == 64

/-- Whether a flight may perform now: its lanes have issued (R85), every flight and build it follows has performed, a `join`'s child has retired or its thread has ended,
the context of a `halt.ctx` has been Halted or cannot be any more (R311), and what a `tlbi` waits for has ended (R163). -/
def mayPerform (d : Dev) (g : Flight) : Bool :=
  !secondHalf d g && g.after.all (fun i => !d.pending i) && match g.kind with
    | .join => g.acc.all fun a => !threadLives d g.ctx g.fib a.lane ||
        ((d.fibre? g.fib).isSome && joinAnswer d g.fib a.lane (a.ops.getD 0 0) != 0)
    | .haltWait c seen => !savedFibre d g.ctx g.fib && (seen || (d.fibre? g.fib).isNone || match (d.ctx c).state with
      | .free | .created | .destroyed => true
      | _ => false)
    | .tlbi tasks parked zeros => !tlbiOwed d tasks parked zeros
    | _ => true

end Sys2Proof.Machine
end

