-- ==== Sys2Proof/Machine/Float.lean ====
section
/-!
DEFINITION. Floating-point arithmetic, approximate functions, conversions, rounding, scaling and the sticky flags (R129 to R140).
-/

namespace Sys2Proof.Machine

/-- U when both float sources count as U, otherwise G; `rd`: the old destination is a source too (R76). -/
def fltShape (t : FTy) (rd : Bool) (d : Reg) (a b : FSrc) (x : Iss) (dv : Dev) : Sh :=
  let f := x.fib dv
  allU [(fsrcShape dv f t a).isU, (fsrcShape dv f t b).isU, !rd || (plainShape dv f d.toNat).isU]

/-- The shape of one float source when it is U, otherwise G. -/
def fltShape1 (t : FTy) (a : FSrc) (x : Iss) (dv : Dev) : Sh := allU [(fsrcShape dv (x.fib dv) t a).isU]

/-- A sub-element operation on two float sources and the old destination (R131). -/
def flt3 (t : FTy) (rd : Bool) (d : Reg) (a b : FSrc) (g : Nat → Nat → Nat → Nat × Word) : Body :=
  vecBody d 6 (fltShape t rd d a b) fun x dv L =>
    let f := x.fib dv
    subs3 t.width g (fsrcVal dv f t L a) (fsrcVal dv f t L b) (regLane dv f d.toNat L)

/-- A sub-element operation on one float source with a fixed latency. -/
def flt2 (t : FTy) (d : Reg) (a : FSrc) (g : Nat → Nat × Word) : Body :=
  vecBody d 6 (fltShape1 t a) fun x dv L => subs3 t.width (fun u _ _ => g u) (fsrcVal dv (x.fib dv) t L a) 0 0

/-- A variable-latency result of a sub-element operation (R46): it returns later, with its flags. -/
def fltLate (t : FTy) (d : Reg) (a b : FSrc) (g : Nat → Nat → Nat × Word) : Body := fun x dv =>
  let f := x.fib dv
  let val := fun L => subs3 t.width (fun u v _ => g u v) (fsrcVal dv f t L a) (fsrcVal dv f t L b) 0
  some (.done (sendResult x dv (fltShape t false d a b x dv).isU true [d.toNat] (laneFlags x fun L => (val L).2) fun L => [(val L).1]))

/-! ### Arithmetic and comparison (R131 to R134) -/

def execFadd (h : Hdr) (o : F3) (s : State) : Host.Outcome State Fault Refusal :=
  issueOn (.fadd h o) h s (flt3 o.t false o.d o.a o.b fun a b _ => faddR o.t o.rnd o.ftz a b)

def execFsub (h : Hdr) (o : F3) (s : State) : Host.Outcome State Fault Refusal :=
  issueOn (.fsub h o) h s (flt3 o.t false o.d o.a o.b fun a b _ => fsubR o.t o.rnd o.ftz a b)

def execFmul (h : Hdr) (o : F3) (s : State) : Host.Outcome State Fault Refusal :=
  issueOn (.fmul h o) h s (flt3 o.t false o.d o.a o.b fun a b _ => fmulR o.t o.rnd o.ftz a b)

def execFfma (h : Hdr) (o : F3) (s : State) : Host.Outcome State Fault Refusal :=
  issueOn (.ffma h o) h s (flt3 o.t true o.d o.a o.b fun a b d => fmaR o.t o.t o.rnd o.ftz [(a, b)] d)

def execFmin (h : Hdr) (o : F3x) (s : State) : Host.Outcome State Fault Refusal :=
  issueOn (.fmin h o) h s (flt3 o.t false o.d o.a o.b fun a b _ => fminmaxR o.t false o.ftz a b)

def execFmax (h : Hdr) (o : F3x) (s : State) : Host.Outcome State Fault Refusal :=
  issueOn (.fmax h o) h s (flt3 o.t false o.d o.a o.b fun a b _ => fminmaxR o.t true o.ftz a b)

def execFcmp (h : Hdr) (t : FTy) (ftz : Bool) (c : FCond) (d : CmpDst) (a b : FSrc) (s : State) :
    Host.Outcome State Fault Refusal :=
  issueOn (.fcmp h t ftz c d a b) h s
    (cmpBody d t.width 6 (fun x dv => (fsrcShape dv (x.fib dv) t a).isU && (fsrcShape dv (x.fib dv) t b).isU)
      (fun x dv L => (fsrcVal dv (x.fib dv) t L a, fsrcVal dv (x.fib dv) t L b)) (fcmpR t ftz c))

def execFdiv (h : Hdr) (o : F3) (s : State) : Host.Outcome State Fault Refusal :=
  issueOn (.fdiv h o) h s (fltLate o.t o.d o.a o.b (fdivR o.t o.rnd o.ftz))

def execFsqrt (h : Hdr) (o : F2) (s : State) : Host.Outcome State Fault Refusal :=
  issueOn (.fsqrt h o) h s (fltLate o.t o.d o.a o.a fun u _ => fsqrtR o.t o.rnd o.ftz u)

def execFclass (h : Hdr) (t : FTy) (d : Reg) (a : FSrc) (s : State) : Host.Outcome State Fault Refusal :=
  issueOn (.fclass h t d a) h s (flt2 t d a fun u => (2 ^ fclassR t u, 0))

/-! ### Approximate functions (R135, R40, R41): the rounding bits are ignored -/

def execFrcp (h : Hdr) (o : F2) (s : State) : Host.Outcome State Fault Refusal :=
  issueOn (.frcp h o) h s (fltLate o.t o.d o.a o.a fun u _ => approxR .rcp o.t o.ftz u)

def execFrsq (h : Hdr) (o : F2) (s : State) : Host.Outcome State Fault Refusal :=
  issueOn (.frsq h o) h s (fltLate o.t o.d o.a o.a fun u _ => approxR .rsq o.t o.ftz u)

def execFexp2 (h : Hdr) (o : F2) (s : State) : Host.Outcome State Fault Refusal :=
  issueOn (.fexp2 h o) h s (fltLate o.t o.d o.a o.a fun u _ => approxR .exp2 o.t o.ftz u)

def execFlog2 (h : Hdr) (o : F2) (s : State) : Host.Outcome State Fault Refusal :=
  issueOn (.flog2 h o) h s (fltLate o.t o.d o.a o.a fun u _ => approxR .log2 o.t o.ftz u)

def execFsin (h : Hdr) (o : F2) (s : State) : Host.Outcome State Fault Refusal :=
  issueOn (.fsin h o) h s (fltLate o.t o.d o.a o.a fun u _ => approxR .sin o.t o.ftz u)

def execFcos (h : Hdr) (o : F2) (s : State) : Host.Outcome State Fault Refusal :=
  issueOn (.fcos h o) h s (fltLate o.t o.d o.a o.a fun u _ => approxR .cos o.t o.ftz u)

/-! ### Conversions (R136), rounding (R137), scaling (R138), dot product (R139) -/

/-- One lane of a conversion from width `sw` to width `tw` with `.hi` (R136). -/
def convLane (sw tw : Nat) (hi : Bool) (g : Nat → Nat × Word) (a d : Word) : Word × Word :=
  let n := min (nsub sw) (nsub tw)
  let h := if hi then n else 0
  let rs := (List.range n).map fun j => g (sub a sw (if sw < tw then j + h else j))
  let fl := rs.foldl (fun m r => m ||| r.2) 0
  let off := if tw < sw then h else 0
  ((List.range n).foldl (fun v j => put v tw (j + off) ((rs.getD j (0, 0)).1)) (if tw < sw then d else 0), fl)

/-- A conversion: the source's value and whether it counts as U; a narrowing one also reads its destination (R136). -/
def convBody (sw tw : Nat) (hi : Bool) (d : Reg) (srcU' : Iss → Dev → Bool) (src : Iss → Dev → Nat → Word) (g : Nat → Nat × Word) :
    Body :=
  vecBody d 6 (fun x dv => allU [srcU' x dv, decide (sw ≤ tw) || (plainShape dv (x.fib dv) d.toNat).isU])
    fun x dv L => convLane sw tw hi g (src x dv L) (regLane dv (x.fib dv) d.toNat L)

def execFcvt (h : Hdr) (s' : FTy) (hi : Bool) (o : F2) (s : State) : Host.Outcome State Fault Refusal :=
  issueOn (.fcvt h s' hi o) h s (convBody s'.width o.t.width hi o.d (fun x dv => (fsrcShape dv (x.fib dv) s' o.a).isU)
    (fun x dv L => fsrcVal dv (x.fib dv) s' L o.a) (fcvtR s' o.t o.rnd o.ftz))

def execF2i (h : Hdr) (t : ITy) (s' : FTy) (hi : Bool) (rnd : Rnd) (ftz : Bool) (d : Reg) (a : FSrc) (s : State) :
    Host.Outcome State Fault Refusal :=
  issueOn (.f2i h t s' hi rnd ftz d a) h s (convBody s'.width t.width hi d (fun x dv => (fsrcShape dv (x.fib dv) s' a).isU)
    (fun x dv L => fsrcVal dv (x.fib dv) s' L a) (f2iR s' t rnd ftz))

def execI2f (h : Hdr) (t : FTy) (s' : ITy) (hi : Bool) (rnd : Rnd) (ftz : Bool) (d : Reg) (a : Src) (s : State) :
    Host.Outcome State Fault Refusal :=
  issueOn (.i2f h t s' hi rnd ftz d a) h s (convBody s'.width t.width hi d (fun x dv => (srcShape dv (x.fib dv) (.int s') a).isU)
    (fun x dv L => srcVal dv (x.fib dv) x.t (.int s') L a) fun u => i2fR t rnd ftz (intVal s' u))

def execFrnd (h : Hdr) (o : F2) (s : State) : Host.Outcome State Fault Refusal :=
  issueOn (.frnd h o) h s (flt2 o.t o.d o.a (frndR o.t o.rnd o.ftz false))

def execFrndX (h : Hdr) (o : F2) (s : State) : Host.Outcome State Fault Refusal :=
  issueOn (.frndX h o) h s (flt2 o.t o.d o.a (frndR o.t o.rnd o.ftz true))

/-- The signed integer type of a width. -/
def sintOf : Nat → ITy
  | 8 => .i8
  | 16 => .i16
  | 32 => .i32
  | _ => .i64

/-- `fscale`: the exponent is an integer source read as signed integers of the width of the type (R138). -/
def execFscale (h : Hdr) (t : FTy) (rnd : Rnd) (ftz : Bool) (d : Reg) (a : FSrc) (b : Src) (s : State) :
    Host.Outcome State Fault Refusal :=
  let bt := sintOf t.width
  issueOn (.fscale h t rnd ftz d a b) h s (vecBody d 6
    (fun x dv => allU [(fsrcShape dv (x.fib dv) t a).isU, (srcShape dv (x.fib dv) (.int bt) b).isU])
    fun x dv L => subs3 t.width (fun u v _ => fscaleR t rnd ftz u (toSigned t.width v)) (fsrcVal dv (x.fib dv) t L a)
      (srcVal dv (x.fib dv) x.t (.int bt) L b) 0)

/-- One lane of `fdot2` (R139). -/
def fdot2Lane (t : FTy) (rnd : Rnd) (ftz : Bool) (a b d : Word) : Word × Word :=
  let rs := (List.range 2).map fun j =>
    fmaR t .f32 rnd ftz [(sub a 16 (2 * j), sub b 16 (2 * j)), (sub a 16 (2 * j + 1), sub b 16 (2 * j + 1))] (sub d 32 j)
  (BitVec.ofNat 64 (ofSubs 32 (rs.map Prod.fst)), rs.foldl (fun m r => m ||| r.2) 0)

def execFdot2 (h : Hdr) (bf : Bool) (rnd : Rnd) (ftz : Bool) (d : Reg) (a b : FSrc) (s : State) : Host.Outcome State Fault Refusal :=
  let t : FTy := if bf then .bf16 else .f16
  issueOn (.fdot2 h bf rnd ftz d a b) h s (vecBody d 6 (fltShape t true d a b) fun x dv L =>
    fdot2Lane t rnd ftz (fsrcVal dv (x.fib dv) t L a) (fsrcVal dv (x.fib dv) t L b) (regLane dv (x.fib dv) d.toNat L))

/-! ### Flags (R140) -/

/-- `fflag`: the old flags with shape U, then the masked ones cleared. -/
def execFflag (h : Hdr) (d : Reg) (mask : BitVec 7) (s : State) : Host.Outcome State Fault Refusal :=
  issueOn (.fflag h d mask) h s (ifActive fun x dv =>
    let f := x.fib dv
    let dv := sendResult x dv true true [d.toNat] 0 fun _ => [f.fflags]
    some (.done (dv.setFibre { x.fib dv with fflags := f.fflags &&& ~~~(mask.setWidth 64) })))

end Sys2Proof.Machine
end

