-- ==== Sys2Proof/Machine/CrossLane.lean ====
section
/-!
DEFINITION. Cross-lane operations (R141 to R144), random bits (R145), quantising and dequantising (R146).
-/

namespace Sys2Proof.Machine

/-- The logical index that orders a fibre's lanes: a task's sequence number in a wave, the thread's index otherwise (R83, R242). -/
def logicalOf (f : Fibre) (L : Nat) : Nat :=
  match (f.thread L).task with
  | some k => k.seq
  | none => (f.thread 0).logical + L

/-- Lanes in ascending logical order (R168). -/
def logicalOrder (f : Fibre) (ls : List Nat) : List Nat := sortBy (logicalOf f) ls

/-- The unsigned type of a width: an index operand (R141). -/
def uintOf : Nat → ITy
  | 8 => .n8
  | 16 => .n16
  | 32 => .n32
  | _ => .n64

/-- The type an index operand is read at: that of the instruction (R142), so that `abs` acts as R54 gives; beside a float type the unsigned
type of its width, since the operand is an integer source (R113, R141; assumption 57). -/
def indexTy : NTy → NTy
  | .int i => .int i
  | .flt f => .int (uintOf f.width)

/-- Element `k` of a row of lane values (R141). -/
def rowElem (w : Nat) (row : Nat → Word) (k : Nat) : Nat := sub (row (k / nsub w)) w (k % nsub w)

/-- `lpull` (R142). -/
def execLpull (h : Hdr) (t : NTy) (d : Reg) (a b : Src) (s : State) : Host.Outcome State Fault Refusal :=
  issueOn (.lpull h t d a b) h s (vecBody d 8 (fun _ _ => .g) fun x dv L =>
    let f := x.fib dv
    let E := f.width * nsub t.width
    let ix := srcVal dv f x.t (indexTy t) L b
    (mapSubs t.width fun j => rowElem t.width (fun M => srcVal dv f x.t t M a) (sub ix t.width j % E), 0))

/-- The pushes of an `lpush` in the order in which later ones win: (target element, value) (R143). -/
def pushes (x : Iss) (dv : Dev) (t : NTy) (a b : Src) : List (Nat × Nat) :=
  let f := x.fib dv
  let E := f.width * nsub t.width
  (logicalOrder f x.lanes).flatMap fun L =>
    let v := srcVal dv f x.t t L a
    let ix := srcVal dv f x.t (indexTy t) L b
    (List.range (nsub t.width)).map fun j => (sub ix t.width j % E, sub v t.width j)

/-- `lpush` (R143): the named elements are written over their lanes as they stand when the result lands, so that the other elements keep
what the other path's write has put there (R90). -/
def execLpush (h : Hdr) (t : NTy) (d : Reg) (a b : Src) (s : State) : Host.Outcome State Fault Refusal :=
  issueOn (.lpush h t d a b) h s (ifActive fun x dv =>
    let f := x.fib dv
    let S := nsub t.width
    let ps := (pushes x dv t a b).filter fun p => (f.thread (p.1 / S)).life != .empty
    let lanes := LaneMask.ofLanes (ps.map fun p => p.1 / S)
    let at' := fun L => ps.filter fun p => p.1 / S == L
    let val := fun L => (at' L).foldl (fun v p => put v t.width (p.1 % S) p.2) 0
    let bits := fun L => (at' L).foldl (fun v p => put v t.width (p.1 % S) (2 ^ t.width - 1)) 0
    if lanes = 0 ∨ d = 255#8 then some (.done dv)
    else some (.done (dv.setFibre { f with pendW := f.pendW ++ [{
      land := x.s.clk.cycle + 8, reg := d.toNat, path := x.c.lanes, lanes := lanes, full := false,
      val := .g ((List.range f.width).map val), bits := (List.range f.width).map bits, pc := x.c.pc, after := [] }] })))

/-- The identity of `.ex` (R144). -/
def redIdent (op : RedOp) (t : NTy) : Nat :=
  match op, t with
  | .add, _ | .or, _ | .xor, _ => 0
  | .min, .int i => truncW i.width (ITy.max i)
  | .max, .int i => truncW i.width (ITy.min i)
  | .min, .flt f => FTy.inf f
  | .max, .flt f => signBit f true + FTy.inf f
  | .and, _ => 2 ^ t.width - 1

/-- Left fold of a binary operation with flags over elements, the first taken with itself. -/
def foldMinMax (f : FTy) (isMax ftz : Bool) : List Nat → Nat × Word
  | [] => (0, 0)
  | v :: vs => vs.foldl (fun acc u => let r := fminmaxR f isMax ftz acc.1 u; (r.1, acc.2 ||| r.2)) (fminmaxR f isMax ftz v v)

/-- Float `add` over a set: the exact sum rounded once; ∞ − ∞ is invalid beside a NaN too (R29, R144). -/
def fsumR (f : FTy) (rnd : Rnd) (ftz : Bool) (vs : List Nat) : Nat × Word :=
  let xs := vs.map (fval f ftz)
  let clash := xs.any (· == .inf false) && xs.any (· == .inf true)
  if clash || xs.any FVal.isNaN then nanRes f (clash || xs.any FVal.isS) else fsum f rnd ftz xs

/-- The combination of R144 over a set of elements; `vs = []` gives the identity. DESIGN CHOICE (assumption 82): an integer sum under `.sat`
is exact and saturates once, at its end. -/
def combine (op : RedOp) (t : NTy) (rnd : Rnd) (ftz sat : Bool) (vs : List Nat) : Nat × Word :=
  if vs.isEmpty then (redIdent op t, 0)
  else match op, t with
    | .add, .flt f => fsumR f rnd ftz vs
    | .min, .flt f => foldMinMax f false ftz vs
    | .max, .flt f => foldMinMax f true ftz vs
    | .add, .int i => intRes i sat (vs.foldl (fun acc v => acc + intVal i v) 0)
    | .min, .int i => (vs.foldl (fun acc v => if intVal i v < intVal i acc then v else acc) (vs.headD 0), 0)
    | .max, .int i => (vs.foldl (fun acc v => if intVal i acc < intVal i v then v else acc) (vs.headD 0), 0)
    | .and, _ => (vs.foldl (fun acc v => acc &&& v) (vs.headD 0), 0)
    | .or, _ => (vs.foldl (fun acc v => acc ||| v) 0, 0)
    | .xor, _ => (vs.foldl (fun acc v => acc ^^^ v) 0, 0)

/-- A lane's result: the combination over the listed lanes for each sub-element position (R144). -/
def combineLanes (x : Iss) (dv : Dev) (op : RedOp) (t : NTy) (rnd : Rnd) (ftz sat : Bool) (a : Src) (ls : List Nat) : Word × Word :=
  let rows := ls.map fun L => srcVal dv (x.fib dv) x.t t L a
  let rs := (List.range (nsub t.width)).map fun j => combine op t rnd ftz sat (rows.map fun v => sub v t.width j)
  (BitVec.ofNat 64 (ofSubs t.width (rs.map Prod.fst)), rs.foldl (fun m r => m ||| r.2) 0)

def execLred (h : Hdr) (op : RedOp) (t : NTy) (rnd : Rnd) (ftz sat : Bool) (d : Reg) (a : Src) (s : State) :
    Host.Outcome State Fault Refusal :=
  issueOn (.lred h op t rnd ftz sat d a) h s (vecBody d 8 (fun _ _ => .g) fun x dv _ =>
    combineLanes x dv op t rnd ftz sat a x.lanes)

def execLscan (h : Hdr) (op : RedOp) (ex : Bool) (t : NTy) (rnd : Rnd) (ftz sat : Bool) (d : Reg) (a : Src) (s : State) :
    Host.Outcome State Fault Refusal :=
  issueOn (.lscan h op ex t rnd ftz sat d a) h s (vecBody d 8 (fun _ _ => .g) fun x dv L =>
    combineLanes x dv op t rnd ftz sat a (x.lanes.filter fun M => if ex then decide (M < L) else decide (M ≤ L)))

/-! ### Random bits (R145) -/

/-- Rotate a 32-bit number left. -/
def rotl32 (k x : Nat) : Nat := x * 2 ^ k % 2 ^ 32 + x % 2 ^ 32 / 2 ^ (32 - k)

/-- The quarter-round of RFC 8439 on words `a`, `b`, `c`, `d` of a state. -/
def quarter (s : List Nat) (a b c d : Nat) : List Nat :=
  let g := fun (s : List Nat) i => s.getD i 0
  let step := fun (s : List Nat) (x y z k : Nat) =>
    let s := setAt s x ((g s x + g s y) % 2 ^ 32)
    setAt s z (rotl32 k (Nat.xor (g s z) (g s x)))
  step (step (step (step s a b d 16) c d b 12) a b d 8) c d b 7

/-- A double round: columns, then diagonals. -/
def doubleRound (s : List Nat) : List Nat :=
  [(0, 4, 8, 12), (1, 5, 9, 13), (2, 6, 10, 14), (3, 7, 11, 15), (0, 5, 10, 15), (1, 6, 11, 12), (2, 7, 8, 13), (3, 4, 9, 14)].foldl
    (fun s q => quarter s q.1 q.2.1 q.2.2.1 q.2.2.2) s

/-- The 64 bits of seed and element index (R145). -/
def chacha8 (seed idx : Word) : Word :=
  let blk := idx.toNat / 8
  let init := [0x61707865, 0x3320646E, 0x79622D32, 0x6B206574, seed.toNat % 2 ^ 32, seed.toNat / 2 ^ 32, 0, 0, 0, 0, 0, 0,
    blk % 2 ^ 32, blk / 2 ^ 32, 0, 0]
  let out := doubleRound (doubleRound (doubleRound (doubleRound init)))
  let word := fun i => (out.getD i 0 + init.getD i 0) % 2 ^ 32
  let q := idx.toNat % 8
  BitVec.ofNat 64 (word (2 * q) + 2 ^ 32 * word (2 * q + 1))

/-- `rnd.f32` (R145): two values of 24 bits. -/
def rndF32Val (x : Word) : Word := mapSubs 32 fun j => (roundTo .f32 .rn false false (sub x 32 j / 256) (-24)).1

/-- `rnd.f64` (R145): one value of 53 bits. -/
def rndF64Val (x : Word) : Word := BitVec.ofNat 64 (roundTo .f64 .rn false false (x.toNat / 2 ^ 11) (-53)).1

/-- The body of the three variants. -/
def rndBody (d : Reg) (a b : Src) (g : Word → Word) : Body :=
  vecBody d 8 (fun _ _ => .g) fun x dv L =>
    (g (chacha8 (srcVal dv (x.fib dv) x.t (.int .n64) L a) (srcVal dv (x.fib dv) x.t (.int .n64) L b)), 0)

def execRnd (h : Hdr) (d : Reg) (a b : Src) (s : State) : Host.Outcome State Fault Refusal :=
  issueOn (.rnd h d a b) h s (rndBody d a b id)

def execRndF32 (h : Hdr) (d : Reg) (a b : Src) (s : State) : Host.Outcome State Fault Refusal :=
  issueOn (.rndF32 h d a b) h s (rndBody d a b rndF32Val)

def execRndF64 (h : Hdr) (d : Reg) (a b : Src) (s : State) : Host.Outcome State Fault Refusal :=
  issueOn (.rndF64 h d a b) h s (rndBody d a b rndF64Val)

/-! ### Quantising and dequantising (R146) -/

/-- Lane `L` of a register group as one number, first register lowest. -/
def groupVal (dv : Dev) (f : Fibre) (r n L : Nat) : Nat := ofSubs 64 ((List.range n).map fun k => (regLane dv f (r + k) L).toNat)

/-- Write a group of registers with fixed latency, each G: `val L` holds them as one number. -/
def pushGroup (x : Iss) (f : Fibre) (r n lat : Nat) (val : Nat → Nat) : Fibre :=
  (List.range n).foldl (fun f k => pushW x f (r + k) lat (outReg x .g fun L => BitVec.ofNat 64 (val L / 2 ^ (64 * k)))) f

/-- `qnt`: the whole source group is read before any write. -/
def execQnt (h : Hdr) (t : BTy) (rnd : Rnd) (ftz : Bool) (d a : Reg) (s : State) : Host.Outcome State Fault Refusal :=
  issueOn (.qnt h t rnd ftz d a) h s fun x dv =>
    let f := x.fib dv
    let val := fun L => qntR t.m ftz ((List.range 16).map fun i => sub (regLane dv f (a.toNat + i / 2) L) 32 (i % 2))
    let f := pushGroup x f d.toNat t.regs 8 fun L => (val L).1
    some (.done (dv.setFibre (raise f (laneFlags x fun L => (val L).2))))

/-- `dqnt`: it raises no flag. -/
def execDqnt (h : Hdr) (t : BTy) (rnd : Rnd) (ftz : Bool) (d a : Reg) (s : State) : Host.Outcome State Fault Refusal :=
  issueOn (.dqnt h t rnd ftz d a) h s fun x dv =>
    let f := x.fib dv
    let val := fun L => ofSubs 32 ((List.range 16).map fun i => dqntR t.m (groupVal dv f a.toNat t.regs L) i)
    some (.done (dv.setFibre (pushGroup x f d.toNat 8 8 val)))

end Sys2Proof.Machine
end

