-- ==== Sys2Proof/Machine/Barrier.lean ====
section
/-!
DEFINITION. Named barriers (R222 to R232) and what arrivals release and waits acquire (R195, R226).
-/

namespace Sys2Proof.Machine

/-! ### Release and acquire without a location -/

/-- What a release of a thread at `.team` hands on and that has not performed: its own accesses, those its acquires have named, and the
multicast stores its reads have met, so that happens-before passes on from thread to thread (R174, R186, R195, R226); its builds are loads of
it (R291). -/
def pendingOf (d : Dev) (fib L : Nat) : List Nat :=
  ((d.flights.filter fun g => g.fib == fib && g.isMem && g.acc.any fun a => a.lane == L && a.ordered false).map Flight.id) ++
  buildsOf d fib L ++ ((d.holds.filter fun h => h.fib == fib && h.lane == L).flatMap Hold.ids)

/-- AN ACQUIRE of what releases have left: the threads' later accesses follow the accesses named and come after the events known; `host`:
accesses to host pages too (R155). -/
def acquire (d : Dev) (fib : Nat) (m : LaneMask) (host : Bool) (ids know : List Nat) : Dev :=
  let sc : Scope := if host then .sys else .team
  let live := liveIds d ids
  let d := if live.isEmpty then d else { d with holds := d.holds ++ m.lanes.map fun L => Hold.on fib L live sc }
  if know.isEmpty then d
  else
    let j := d.join know
    knowAfter j.2 fib m sc j.1

/-! ### Phases -/

/-- Named barrier `b` of a team. -/
def Team.bar (t : Team) (b : Nat) : Barrier := t.bars.getD b default

/-- Replace a named barrier. -/
def setBar (d : Dev) (team b : Nat) (v : Barrier) : Dev :=
  match d.team? team with
  | none => d
  | some t => d.setTeam { t with bars := setAt t.bars b v }

/-- R225: the open phase is complete. -/
def Barrier.done (b : Barrier) : Bool :=
  b.landed == b.joined && ((b.n != 0 && b.arrived == b.n) || (b.n == 0 && decide (1 ≤ b.joined)))

/-- Bit `b` of a 16-bit set cleared. -/
def clearBit (v : BitVec 16) (b : Nat) : BitVec 16 := v &&& ~~~(1#16 <<< b)

/-- Bit `b` of a 16-bit set set. -/
def setBit (v : BitVec 16) (b : Nat) : BitVec 16 := v ||| (1#16 <<< b)

/-- The barrier with its next phase open: what the completed phase's arrivals have released is now for every wait to acquire (R195). -/
def Barrier.next (v : Barrier) : Barrier :=
  { phase := v.phase + 1, n := 0, arrived := 0, joined := 0, landed := 0, know := dedupNat (v.know ++ v.openKnow),
    ids := dedupNat (v.ids ++ v.openIds), openKnow := [], openIds := [] }

/-- COMPLETE A PHASE (R222): the next phase opens, every `arr` and `rec` bit clears, the waiting threads return and acquire. -/
def completePhase (d : Dev) (team b : Nat) : Dev :=
  match d.team? team with
  | none => d
  | some t =>
    let v := t.bar b
    let d := setBar d team b v.next
    let waits := fun (f : Fibre) => lanesWhere fun L => (f.thread L).wait == .bar b
    let fs := d.fibres.filter fun f => f.team == team
    let d := { d with fibres := d.fibres.map fun f =>
      if f.team == team then f.mapThreads fun _ u =>
        { u with arrd := clearBit u.arrd b, recd := clearBit u.recd b, wait := if u.wait == .bar b then .none else u.wait }
      else f }
    fs.foldl (fun d f => acquire d f.uid (waits f) false v.next.ids v.next.know) d

/-- Complete the open phase if R225 holds. -/
def checkPhase (d : Dev) (team b : Nat) : Dev :=
  match d.team? team with
  | none => d
  | some t => if (t.bar b).done then completePhase d team b else d

/-- One lane arrives with count `n` (R223): a release at `.team` (R195). -/
def arriveLane (team b n fib : Nat) (d : Dev) (L : Nat) : Dev :=
  match d.team? team, d.fibre? fib with
  | some t, some f =>
    let v := t.bar b
    let v := { v with
      n := if v.n = 0 then n else v.n
      arrived := v.arrived + 1
      openKnow := dedupNat (v.openKnow ++ (f.thread L).know)
      openIds := dedupNat (liveIds d v.openIds ++ pendingOf d fib L) }
    let d := setBar d team b v
    let d := d.setFibre (f.onLanes (LaneMask.ofLanes [L]) fun _ u => { u with arrd := setBit u.arrd b, recd := setBit u.recd b })
    checkPhase d team b
  | _, _ => d

/-- Lanes wait for their recorded phase; a lane with none goes on and acquires (R231). -/
def waitLanes (x : Iss) (d : Dev) (b : Nat) : Dev :=
  let f := x.fib d
  let v := (x.team d).bar b
  let stay := lanesWhere fun L => x.act.has L && (f.thread L).recd.getLsbD b
  acquire (d.setFibre (f.onLanes stay fun _ u => { u with wait := .bar b })) f.uid (x.act &&& ~~~stay) false v.ids v.know

/-- Arrivals of `barv` and `bars` (R223, R231): `none` while an active thread's arrival in the open phase stands. -/
def arriveBody (b : Nat) (a : Src) (after : Iss → Dev → Dev) : Body := ifActive fun x d =>
  let f := x.fib d
  let n := (srcZ d f x.t ((lowestLane x.act).getD 0) a).toNat
  let v := (x.team d).bar b
  if !srcU d f a || decide (n < 1) || decide (1024 < n) then some x.illegal
  else if x.lanes.any fun L => (f.thread L).arrd.getLsbD b then none
  else if v.n != 0 && v.n != n then some x.illegal
  else some (.done (after x ((logicalOrder f x.lanes).foldl (arriveLane x.t.uid b n x.f.uid) d)))

/-! ### The instructions -/

/-- `barv` (R231). -/
def execBarv (h : Hdr) (b : BitVec 4) (a : Src) (s : State) : Host.Outcome State Fault Refusal :=
  issueOn (.barv h b a) h s (arriveBody b.toNat a fun _ d => d)

/-- `bars` (R231). -/
def execBars (h : Hdr) (b : BitVec 4) (a : Src) (s : State) : Host.Outcome State Fault Refusal :=
  issueOn (.bars h b a) h s (arriveBody b.toNat a fun x d => waitLanes x d b.toNat)

/-- `barw` (R231). -/
def execBarw (h : Hdr) (b : BitVec 4) (s : State) : Host.Outcome State Fault Refusal :=
  issueOn (.barw h b) h s (ifActive fun x d => some (.done (waitLanes x d b.toNat)))

/-- `barq` (R232): a true result acquires. -/
def execBarq (h : Hdr) (d : PredIdx) (b : BitVec 4) (s : State) : Host.Outcome State Fault Refusal :=
  issueOn (.barq h d b) h s (ifActive fun x dv =>
    let f := x.fib dv
    let clear := fun L => !(f.thread L).recd.getLsbD b.toNat
    let v := (x.team dv).bar b.toNat
    some (.done (sendPred x (acquire dv f.uid (lanesWhere fun L => x.act.has L && clear L) false v.ids v.know) d clear)))

/-- The status word of `barq.st` (R232). -/
def Barrier.status (v : Barrier) : Word :=
  BitVec.ofNat 64 (v.arrived % 2 ^ 11 + 2 ^ 11 * (v.n % 2 ^ 11) + 2 ^ 22 * ((v.joined - v.landed) % 2 ^ 5) + 2 ^ 32 * v.phase.toNat)

/-- `barq.st` (R232). -/
def execBarqSt (h : Hdr) (d : Reg) (b : BitVec 4) (s : State) : Host.Outcome State Fault Refusal :=
  issueOn (.barqSt h d b) h s (ifActive fun x dv =>
    some (.done (sendResult x dv true true [d.toNat] 0 fun _ => [((x.team dv).bar b.toNat).status])))

end Sys2Proof.Machine
end

