-- ==== Sys2Proof/Machine/Integer.lean ====
section
/-!
DEFINITION. Integer, logic, move, address, predicate and packing instructions (R113 to R128).
-/

namespace Sys2Proof.Machine

/-- Two integer sources and the old destination in lane `L`. -/
def intArgs (t : ITy) (d : Reg) (a b : Src) (x : Iss) (dv : Dev) (L : Nat) : Word × Word × Word :=
  let f := x.fib dv
  (srcVal dv f x.t (.int t) L a, srcVal dv f x.t (.int t) L b, regLane dv f d.toNat L)

/-- U when both sources count as U, otherwise G; `rd`: the old destination is a source too (R76). -/
def intShape (t : ITy) (rd : Bool) (d : Reg) (a b : Src) (x : Iss) (dv : Dev) : Sh :=
  let f := x.fib dv
  allU [(srcShape dv f (.int t) a).isU, (srcShape dv f (.int t) b).isU, !rd || (plainShape dv f d.toNat).isU]

/-- The shape of one source when it is U, otherwise G (R76). -/
def intShape1 (t : ITy) (a : Src) (x : Iss) (dv : Dev) : Sh := allU [(srcShape dv (x.fib dv) (.int t) a).isU]

/-- A sub-element operation on two sources, whatever its old destination. -/
def int3 (t : ITy) (d : Reg) (a b : Src) (sh : Iss → Dev → Sh) (g : Nat → Nat → Nat → Nat × Word) : Body :=
  vecBody d 4 sh fun x dv L =>
    let v := intArgs t d a b x dv L
    subs3 t.width g v.1 v.2.1 v.2.2

/-- A sub-element operation on one source. -/
def int2 (t : ITy) (d : Reg) (a : Src) (g : Nat → Nat × Word) : Body :=
  vecBody d 4 (intShape1 t a) fun x dv L => subs3 t.width (fun u _ _ => g u) (srcVal dv (x.fib dv) x.t (.int t) L a) 0 0

/-- Base and stride of a source that counts as U or A; a U operand has stride 0 (R76). -/
def affOf (sh : Sh) (u : Word) : Option (Word × Word) :=
  match sh with
  | .u => some (u, 0)
  | .a b s => some (b, s)
  | .g => none

/-- Whether a shape is A. -/
def Sh.isA : Sh → Bool
  | .a _ _ => true
  | _ => false

/-- The affine rows of R76: `g` combines the two sources' (base, stride), `ok` says which pairs of shapes stay affine. -/
def affShape (t : ITy) (sat : Bool) (d : Reg) (a b : Src) (ok : Sh → Sh → Bool)
    (g : Word × Word → Word × Word → Word × Word) (x : Iss) (dv : Dev) : Sh :=
  let f := x.fib dv
  let sa := srcShape dv f (.int t) a
  let sb := srcShape dv f (.int t) b
  let L := (lowestLane x.act).getD 0
  if t.width = 64 ∧ sat = false ∧ ok sa sb then
    match affOf sa (srcVal dv f x.t (.int t) L a), affOf sb (srcVal dv f x.t (.int t) L b) with
    | some p, some q => let r := g p q; .a r.1 r.2
    | _, _ => .g
  else intShape t false d a b x dv

/-- A ± U, U ± A, A ± A (R76). -/
def affAdd (sa sb : Sh) : Bool := (sa.isA && (sb.isA || sb.isU)) || (sa.isU && sb.isA)
/-- A × U, U × A (R76). -/
def affMul (sa sb : Sh) : Bool := (sa.isA && sb.isU) || (sa.isU && sb.isA)
/-- A shifted by U (R76). -/
def affShl (sa sb : Sh) : Bool := sa.isA && sb.isU

/-- Sum of two affine values. -/
def affPlus (p q : Word × Word) : Word × Word := (p.1 + q.1, p.2 + q.2)
/-- Difference of two affine values. -/
def affMinus (p q : Word × Word) : Word × Word := (p.1 - q.1, p.2 - q.2)
/-- Product of an affine and a uniform value. -/
def affTimes (p q : Word × Word) : Word × Word := (p.1 * q.1, p.1 * q.2 + p.2 * q.1)
/-- Shift of an affine value by a uniform count mod 64. -/
def affShift (p q : Word × Word) : Word × Word := (p.1 <<< (q.1.toNat % 64), p.2 <<< (q.1.toNat % 64))

/-! ### Arithmetic (R115 to R119) -/

def execIadd (h : Hdr) (o : I3s) (s : State) : Host.Outcome State Fault Refusal :=
  issueOn (.iadd h o) h s (int3 o.t o.d o.a o.b (affShape o.t o.sat o.d o.a o.b affAdd affPlus)
    fun a b _ => intRes o.t o.sat (intVal o.t a + intVal o.t b))

def execIsub (h : Hdr) (o : I3s) (s : State) : Host.Outcome State Fault Refusal :=
  issueOn (.isub h o) h s (int3 o.t o.d o.a o.b (affShape o.t o.sat o.d o.a o.b affAdd affMinus)
    fun a b _ => intRes o.t o.sat (intVal o.t a - intVal o.t b))

/-- The integer type of a 64-bit operation. -/
def ity64 (uns : Bool) : ITy := if uns then .n64 else .i64

/-- A source of `iaddc`: its type changes only how an immediate is extended, with its sign for `i64` and with zeros for `n64` (R52, R116;
assumption 56). -/
def carrySrc (uns : Bool) (x : Iss) (dv : Dev) (L : Nat) (a : Src) : Word :=
  if uns then srcZ dv (x.fib dv) x.t L a else srcVal dv (x.fib dv) x.t (.int .i64) L a

/-- R116. The carry counts as a predicate source, so the result is G. -/
def execIaddc (h : Hdr) (o : I64) (s : State) : Host.Outcome State Fault Refusal :=
  issueOn (.iaddc h o) h s fun x dv =>
    let f := x.fib dv
    let sum := fun L =>
      (carrySrc o.uns x dv L o.a).toNat + (carrySrc o.uns x dv L o.b).toNat + if predLane f o.k.toNat L then 1 else 0
    let f := pushW x f o.d.toNat 4 (outReg x .g fun L => BitVec.ofNat 64 (sum L))
    let f := pushP x f o.k.toNat 4 fun L => decide (2 ^ 64 ≤ sum L)
    some (.done (dv.setFibre f))

def execImul (h : Hdr) (o : I3s) (s : State) : Host.Outcome State Fault Refusal :=
  issueOn (.imul h o) h s (int3 o.t o.d o.a o.b (affShape o.t o.sat o.d o.a o.b affMul affTimes)
    fun a b _ => intRes o.t o.sat (intVal o.t a * intVal o.t b))

/-- The upper half of the exact product (R115). -/
def execImulh (h : Hdr) (o : I3) (s : State) : Host.Outcome State Fault Refusal :=
  issueOn (.imulh h o) h s (int3 o.t o.d o.a o.b (intShape o.t false o.d o.a o.b)
    fun a b _ => intRes o.t false ((intVal o.t a * intVal o.t b).fdiv (2 ^ o.t.width : Nat)))

def execImad (h : Hdr) (o : I3s) (s : State) : Host.Outcome State Fault Refusal :=
  issueOn (.imad h o) h s (int3 o.t o.d o.a o.b (intShape o.t true o.d o.a o.b)
    fun a b d => intRes o.t o.sat (intVal o.t a * intVal o.t b + intVal o.t d))

def execIdiv (h : Hdr) (o : I3s) (s : State) : Host.Outcome State Fault Refusal :=
  issueOn (.idiv h o) h s (int3 o.t o.d o.a o.b (intShape o.t false o.d o.a o.b)
    fun a b _ => divRes o.t o.sat (intVal o.t a) (intVal o.t b))

def execIrem (h : Hdr) (o : I3) (s : State) : Host.Outcome State Fault Refusal :=
  issueOn (.irem h o) h s (int3 o.t o.d o.a o.b (intShape o.t false o.d o.a o.b)
    fun a b _ => remRes o.t (intVal o.t a) (intVal o.t b))

def execIneg (h : Hdr) (o : I2s) (s : State) : Host.Outcome State Fault Refusal :=
  issueOn (.ineg h o) h s (int2 o.t o.d o.a fun a => intRes o.t o.sat (-intVal o.t a))

def execIabs (h : Hdr) (o : I2s) (s : State) : Host.Outcome State Fault Refusal :=
  issueOn (.iabs h o) h s (int2 o.t o.d o.a fun a => intRes o.t o.sat ((intVal o.t a).natAbs : Int))

def execImin (h : Hdr) (o : I3) (s : State) : Host.Outcome State Fault Refusal :=
  issueOn (.imin h o) h s (int3 o.t o.d o.a o.b (intShape o.t false o.d o.a o.b)
    fun a b _ => intRes o.t false (min (intVal o.t a) (intVal o.t b)))

def execImax (h : Hdr) (o : I3) (s : State) : Host.Outcome State Fault Refusal :=
  issueOn (.imax h o) h s (int3 o.t o.d o.a o.b (intShape o.t false o.d o.a o.b)
    fun a b _ => intRes o.t false (max (intVal o.t a) (intVal o.t b)))

/-- R118. -/
def execIcmp (h : Hdr) (t : ITy) (c : ICond) (d : CmpDst) (a b : Src) (s : State) : Host.Outcome State Fault Refusal :=
  issueOn (.icmp h t c d a b) h s
    (cmpBody d t.width 4 (fun x dv => (srcShape dv (x.fib dv) (.int t) a).isU && (srcShape dv (x.fib dv) (.int t) b).isU)
      (fun x dv L => (srcVal dv (x.fib dv) x.t (.int t) L a, srcVal dv (x.fib dv) x.t (.int t) L b))
      fun u v => (iCond c (intVal t u) (intVal t v), 0))

/-- R119. The selector counts as a predicate source, so the result is G. -/
def execIsel (h : Hdr) (p : BitVec 4) (o : I3) (s : State) : Host.Outcome State Fault Refusal :=
  issueOn (.isel h p o) h s (vecBody o.d 4 (fun _ _ => .g) fun x dv L =>
    let v := intArgs o.t o.d o.a o.b x dv L
    (if predLane (x.fib dv) p.toNat L then v.1 else v.2.1, 0))

/-! ### Logic and bits (R120 to R123) -/

def execAnd (h : Hdr) (o : I3) (s : State) : Host.Outcome State Fault Refusal :=
  issueOn (.and h o) h s (vecBody o.d 4 (intShape o.t false o.d o.a o.b) fun x dv L =>
    let v := intArgs o.t o.d o.a o.b x dv L
    (v.1 &&& v.2.1, 0))

def execOr (h : Hdr) (o : I3) (s : State) : Host.Outcome State Fault Refusal :=
  issueOn (.or h o) h s (vecBody o.d 4 (intShape o.t false o.d o.a o.b) fun x dv L =>
    let v := intArgs o.t o.d o.a o.b x dv L
    (v.1 ||| v.2.1, 0))

def execXor (h : Hdr) (o : I3) (s : State) : Host.Outcome State Fault Refusal :=
  issueOn (.xor h o) h s (vecBody o.d 4 (intShape o.t false o.d o.a o.b) fun x dv L =>
    let v := intArgs o.t o.d o.a o.b x dv L
    (v.1 ^^^ v.2.1, 0))

def execNot (h : Hdr) (o : I2) (s : State) : Host.Outcome State Fault Refusal :=
  issueOn (.not h o) h s (vecBody o.d 4 (intShape1 o.t o.a) fun x dv L => (~~~srcVal dv (x.fib dv) x.t (.int o.t) L o.a, 0))

/-- `bmix` of R120: bit `i` is T[4·b + 2·a + d]. -/
def bmixVal (tt : BitVec 8) (a b d : Word) : Word :=
  BitVec.ofNat 64 (ofSubs 1 ((List.range 64).map fun i =>
    if tt.getLsbD ((b.getLsbD i).toNat * 4 + (a.getLsbD i).toNat * 2 + (d.getLsbD i).toNat) then 1 else 0))

def execBmix (h : Hdr) (tt : BitVec 8) (o : I3) (s : State) : Host.Outcome State Fault Refusal :=
  issueOn (.bmix h tt o) h s (vecBody o.d 4 (intShape o.t true o.d o.a o.b) fun x dv L =>
    let v := intArgs o.t o.d o.a o.b x dv L
    (bmixVal tt v.1 v.2.1 v.2.2, 0))

/-- R121. -/
def shlSub (w a b : Nat) : Nat := a * 2 ^ (b % w) % 2 ^ w
/-- R121. -/
def shrSub (w a b : Nat) : Nat := a / 2 ^ (b % w)
/-- R121: signed whatever the type. -/
def sarSub (w a b : Nat) : Nat := truncW w ((toSigned w a).fdiv (2 ^ (b % w) : Nat))
/-- R121. -/
def rotSub (w a b : Nat) : Nat := (a * 2 ^ (b % w) % 2 ^ w) + a / 2 ^ (w - b % w)

def execShl (h : Hdr) (o : I3) (s : State) : Host.Outcome State Fault Refusal :=
  issueOn (.shl h o) h s (int3 o.t o.d o.a o.b (affShape o.t false o.d o.a o.b affShl affShift)
    fun a b _ => (shlSub o.t.width a b, 0))

def execShr (h : Hdr) (o : I3) (s : State) : Host.Outcome State Fault Refusal :=
  issueOn (.shr h o) h s (int3 o.t o.d o.a o.b (intShape o.t false o.d o.a o.b) fun a b _ => (shrSub o.t.width a b, 0))

def execSar (h : Hdr) (o : I3) (s : State) : Host.Outcome State Fault Refusal :=
  issueOn (.sar h o) h s (int3 o.t o.d o.a o.b (intShape o.t false o.d o.a o.b) fun a b _ => (sarSub o.t.width a b, 0))

def execRot (h : Hdr) (o : I3) (s : State) : Host.Outcome State Fault Refusal :=
  issueOn (.rot h o) h s (int3 o.t o.d o.a o.b (intShape o.t false o.d o.a o.b) fun a b _ => (rotSub o.t.width a b, 0))

/-- Length of R122's field in a sub-element of width `w`. -/
def fieldLen (w : Nat) (b : Word) : Nat := min (field b 8 7) (w - field b 0 6)

/-- `bfe` of R122. -/
def bfeSub (t : ITy) (b : Word) (a : Nat) : Nat :=
  let n := fieldLen t.width b
  let x := a / 2 ^ field b 0 6 % 2 ^ n
  if t.signed ∧ 1 ≤ n then truncW t.width (toSigned n x) else x

/-- `bfi` of R122. -/
def bfiSub (w : Nat) (b : Word) (a d : Nat) : Nat :=
  let p := field b 0 6
  let n := fieldLen w b
  d - d / 2 ^ p % 2 ^ n * 2 ^ p + a % 2 ^ n * 2 ^ p

def execBfe (h : Hdr) (o : I3) (s : State) : Host.Outcome State Fault Refusal :=
  issueOn (.bfe h o) h s (vecBody o.d 4
    (fun x dv => allU [(srcShape dv (x.fib dv) (.int o.t) o.a).isU, (srcShape dv (x.fib dv) (.int .n64) o.b).isU]) fun x dv L =>
    let b := srcVal dv (x.fib dv) x.t (.int .n64) L o.b
    subs3 o.t.width (fun a _ _ => (bfeSub o.t b a, 0)) (srcVal dv (x.fib dv) x.t (.int o.t) L o.a) 0 0)

def execBfi (h : Hdr) (o : I3) (s : State) : Host.Outcome State Fault Refusal :=
  issueOn (.bfi h o) h s (vecBody o.d 4
    (fun x dv => allU [(srcShape dv (x.fib dv) (.int o.t) o.a).isU, (srcShape dv (x.fib dv) (.int .n64) o.b).isU,
      (plainShape dv (x.fib dv) o.d.toNat).isU]) fun x dv L =>
    let b := srcVal dv (x.fib dv) x.t (.int .n64) L o.b
    subs3 o.t.width (fun a _ d => (bfiSub o.t.width b a d, 0)) (srcVal dv (x.fib dv) x.t (.int o.t) L o.a) 0
      (regLane dv (x.fib dv) o.d.toNat L))

/-- Leading zeros of a `w`-bit pattern (R123). -/
def clzSub : Nat → Nat → Nat
  | 0, _ => 0
  | w + 1, x => if x / 2 ^ w % 2 = 1 then 0 else 1 + clzSub w x

/-- Trailing zeros of a `w`-bit pattern (R123). -/
def ctzSub : Nat → Nat → Nat
  | 0, _ => 0
  | w + 1, x => if x % 2 = 1 then 0 else 1 + ctzSub w (x / 2)

/-- Bit reversal of a `w`-bit pattern (R123). -/
def brevSub : Nat → Nat → Nat
  | 0, _ => 0
  | w + 1, x => x % 2 * 2 ^ w + brevSub w (x / 2)

def execPopc (h : Hdr) (o : I2) (s : State) : Host.Outcome State Fault Refusal :=
  issueOn (.popc h o) h s (int2 o.t o.d o.a fun a => (popCount o.t.width a, 0))

def execClz (h : Hdr) (o : I2) (s : State) : Host.Outcome State Fault Refusal :=
  issueOn (.clz h o) h s (int2 o.t o.d o.a fun a => (clzSub o.t.width a, 0))

def execCtz (h : Hdr) (o : I2) (s : State) : Host.Outcome State Fault Refusal :=
  issueOn (.ctz h o) h s (int2 o.t o.d o.a fun a => (ctzSub o.t.width a, 0))

def execBrev (h : Hdr) (o : I2) (s : State) : Host.Outcome State Fault Refusal :=
  issueOn (.brev h o) h s (int2 o.t o.d o.a fun a => (brevSub o.t.width a, 0))

/-! ### Moves, constants and addresses (R124, R125) -/

/-- R124: the result has the source's shape (R76). -/
def execMov (h : Hdr) (o : I2) (s : State) : Host.Outcome State Fault Refusal :=
  issueOn (.mov h o) h s (vecBody o.d 4 (fun x dv => srcShape dv (x.fib dv) (.int o.t) o.a)
    fun x dv L => (srcVal dv (x.fib dv) x.t (.int o.t) L o.a, 0))

def execMovi (h : Hdr) (t : ITy) (d : Reg) (v : BitVec 22) (s : State) : Host.Outcome State Fault Refusal :=
  issueOn (.movi h t d v) h s (vecBody d 4 (fun _ _ => .u) fun _ _ _ => (immVal (.int t) v, 0))

/-- `movh` (R124): the source must count as U when some lane is active. -/
def movhBody (d a : Reg) (g : Word → Word) : Body := fun x dv =>
  let f := x.fib dv
  if x.act ≠ 0 ∧ plainShape dv f a.toNat ≠ .u then some x.illegal
  else vecBody d 4 (fun _ _ => .u) (fun x dv L => (g (regLane dv (x.fib dv) a.toNat L), 0)) x dv

def execMovhM (h : Hdr) (d a : Reg) (v : BitVec 22) (s : State) : Host.Outcome State Fault Refusal :=
  issueOn (.movhM h d a v) h s (movhBody d a fun w => (w &&& 0xFFFFF000003FFFFF#64) ||| (v.setWidth 64 <<< 22))

def execMovhH (h : Hdr) (d a : Reg) (v : BitVec 20) (s : State) : Host.Outcome State Fault Refusal :=
  issueOn (.movhH h d a v) h s (movhBody d a fun w => (w &&& 0x00000FFFFFFFFFFF#64) ||| (v.setWidth 64 <<< 44))

def execLea (h : Hdr) (o : I64) (s : State) : Host.Outcome State Fault Refusal :=
  issueOn (.lea h o) h s (vecBody o.d 4 (intShape (ity64 o.uns) false o.d o.a o.b) fun x dv L =>
    let v := intArgs (ity64 o.uns) o.d o.a o.b x dv L
    (v.1 + (v.2.1 <<< o.k.toNat), 0))

/-! ### Predicates (R126, R127) -/

/-- A predicate source after its negate bit. -/
def pval (f : Fibre) (p : POp) (L : Nat) : Bool := predLane f p.idx.toNat L != p.neg

def execPlop (h : Hdr) (tt : BitVec 4) (d : PredIdx) (a b : POp) (s : State) : Host.Outcome State Fault Refusal :=
  issueOn (.plop h tt d a b) h s (predBody d 4 fun x dv L =>
    (tt.getLsbD ((pval (x.fib dv) a L).toNat * 2 + (pval (x.fib dv) b L).toNat), 0))

def execP2v (h : Hdr) (d : Reg) (a : POp) (s : State) : Host.Outcome State Fault Refusal :=
  issueOn (.p2v h d a) h s (vecBody d 4 (fun _ _ => .g) fun x dv L => (if pval (x.fib dv) a L then 1 else 0, 0))

def execP2vAll (h : Hdr) (d : Reg) (s : State) : Host.Outcome State Fault Refusal :=
  issueOn (.p2vAll h d) h s (vecBody d 4 (fun _ _ => .g) fun x dv L => (((x.fib dv).thread L).preds.setWidth 64, 0))

def execV2p (h : Hdr) (d : PredIdx) (a : Src) (s : State) : Host.Outcome State Fault Refusal :=
  issueOn (.v2p h d a) h s (predBody d 4 fun x dv L => (srcVal dv (x.fib dv) x.t (.int .n64) L a != 0, 0))

def execV2pAll (h : Hdr) (a : Src) (s : State) : Host.Outcome State Fault Refusal :=
  issueOn (.v2pAll h a) h s (onFibre fun x f =>
    (List.range 24).foldl (fun f' i => pushP x f' i 4 fun L => (srcVal x.s.dev f x.t (.int .n64) L a).getLsbD i) f)

/-! ### Packing (R128) -/

/-- The type of twice the width and the same signedness. -/
def ITy.wide : ITy → ITy
  | .i8 => .i16
  | .i16 => .i32
  | .i32 | .i64 => .i64
  | .n8 => .n16
  | .n16 => .n32
  | .n32 | .n64 => .n64

/-- `pack` of R128 on two lane values. -/
def packVal (t : ITy) (sat : Bool) (a b : Word) : Word × Word :=
  let n := 32 / t.width
  let el := fun v => (List.range n).map fun k => intRes t sat (intVal (ITy.wide t) (sub v (2 * t.width) k))
  let rs := el a ++ el b
  (BitVec.ofNat 64 (ofSubs t.width (rs.map Prod.fst)), rs.foldl (fun m r => m ||| r.2) 0)

/-- `unpk` of R128 from sub-element `k0` up. -/
def unpkVal (t : ITy) (k0 : Nat) (a : Word) : Word :=
  mapSubs (2 * t.width) fun k => truncW (2 * t.width) (intVal t (sub a t.width (k0 + k)))

def execPack (h : Hdr) (o : I3s) (s : State) : Host.Outcome State Fault Refusal :=
  issueOn (.pack h o) h s (vecBody o.d 4 (intShape (ITy.wide o.t) false o.d o.a o.b) fun x dv L =>
    let v := intArgs (ITy.wide o.t) o.d o.a o.b x dv L
    packVal o.t o.sat v.1 v.2.1)

def execUnpkLo (h : Hdr) (o : I2) (s : State) : Host.Outcome State Fault Refusal :=
  issueOn (.unpkLo h o) h s (vecBody o.d 4 (intShape1 o.t o.a) fun x dv L =>
    (unpkVal o.t 0 (srcVal dv (x.fib dv) x.t (.int o.t) L o.a), 0))

def execUnpkHi (h : Hdr) (o : I2) (s : State) : Host.Outcome State Fault Refusal :=
  issueOn (.unpkHi h o) h s (vecBody o.d 4 (intShape1 o.t o.a) fun x dv L =>
    (unpkVal o.t (32 / o.t.width) (srcVal dv (x.fib dv) x.t (.int o.t) L o.a), 0))

end Sys2Proof.Machine
end

