-- ==== Sys2Proof/Machine/Code.lean ====
section
/-!
DEFINITION. Overlays and targets (R70, R71, R96), and the end of a thread (R98, R198, R247).
-/

namespace Sys2Proof.Machine

/-- The known overlay an address lies in: base and length in words (R70). -/
def overlayOf (t : Team) (a : Word) : Option (Word × Nat) :=
  (t.hdr.overlays.find? fun o => decide (o.1.toNat ≤ a.toNat ∧ a.toNat < o.1.toNat + 12 * o.2.1)).map fun o => (o.1, o.2.1)

/-- The outcome of classifying a target (R96). -/
inductive Dest where
  | valid
  | miss (base : Word) (len : Nat)
  | violation (reason : Nat)
  deriving DecidableEq, Repr

/-- CLASSIFY A TARGET by R96; `lp`: the transfer requires a landing point. -/
def classify (d : Dev) (core ctx : Nat) (t : Team) (lp : Bool) (a : Word) : Dest :=
  match overlayOf t a with
  | none => .violation 1
  | some (base, len) =>
    if (a.toNat - base.toNat) % 12 ≠ 0 then .violation 2
    else match residentAt d core ctx base with
      | none => .miss base len
      | some r => match r.word a with
        | none => .miss base len
        | some w =>
          if w.extractLsb' 88 8 = 0xF0#8 then .violation 3
          else if lp && !w.getLsbD 71 then .violation 4
          else .valid

/-- Start the load of an overlay unless it is under way: misses share one load (R71). -/
def startLoad (d : Dev) (core ctx : Nat) (base : Word) (len : Nat) : Dev :=
  if d.loads.any fun l => l.core == core && l.ctx == ctx && l.base == base then d
  else { d with loads := d.loads ++ [⟨core, ctx, base, len⟩] }

/-- THE OVERLAY-MISS TRAP: the lanes keep their PC at the transferring instruction and wait for the load (R71). -/
def overlayMiss (d : Dev) (f : Fibre) (m : LaneMask) (base : Word) (len : Nat) : Dev :=
  startLoad (d.setFibre (f.onLanes m fun _ t => { t with wait := .overlay base })) f.core f.ctx base len

/-- The per-lane reasons of a landing violation as Detail and Second (R304). -/
def landingWords (rs : List (Nat × Nat)) : Word × Word :=
  let bits := rs.foldl (fun n r => n + (r.2 - 1) % 4 * 4 ^ r.1) 0
  (BitVec.ofNat 64 bits, BitVec.ofNat 64 (bits / 2 ^ 64))

/-- A landing violation of some lanes with their reasons (R96, R304). -/
def landingFault (rs : List (Nat × Nat)) : FaultInfo :=
  let w := landingWords rs
  { kind := 6, reason := (rs.head?.map Prod.snd).getD 0, detail := w.1, lanes := LaneMask.ofLanes (rs.map Prod.fst), second := w.2 }

/-- Send one buffered store of a task, a release at `.die` of every access before it, UO included (R198). -/
def commitStore (f : Fibre) (L : Nat) (d : Dev) (a : LaneAcc) : Dev :=
  let know := match d.fibre? f.uid with
    | some f => (f.thread L).all
    | none => []
  let a := { a with hands := [⟨.die, true, know⟩], view := know }
  noteAccess (.store []) .rel .die f.uid d.nextId (addFlight d
    { id := 0, fib := f.uid, team := f.team, ctx := f.ctx, core := f.core, kind := .store (mcLeft d.nextId [a]), acc := [a], dst := [],
      pdst := none, full := false, flags := 0, ord := .rel, sc := .die, after := releaseAfter d f.uid L, pc := (f.thread L).pc, acqs := [],
      through := true, path := LaneMask.ofLanes [L] }) a

/-- Commit a task's buffered stores in program order (R198); `goOn`: the task goes on buffering (R247). -/
def commitBuf (d : Dev) (f : Fibre) (L : Nat) (goOn : Bool) : Dev :=
  match (f.thread L).task with
  | none => d
  | some k =>
    let d := if k.buf.isEmpty then d else uoFlush d f.core
    let d := (k.buf.flatMap LaneAcc.pages).foldl (commitStore f L) d
    match d.fibre? f.uid with
    | none => d
    | some f => d.setFibre (f.onLanes (LaneMask.ofLanes [L]) fun _ t => { t with task := some { k with buf := [], buffering := goOn } })

/-- END THE THREADS of some lanes (R98): a task's buffer commits (R247), the thread leaves what it waited in, its walk and its park. -/
def endThreads (d : Dev) (uid : Nat) (m : LaneMask) : Dev :=
  let d := m.lanes.foldl (fun d L => match d.fibre? uid with
    | some f => if f.liveLane L then commitBuf d f L false else d
    | none => d) d
  match d.fibre? uid with
  | none => d
  | some f =>
    { d.setFibre (f.onLanes m fun _ t => if t.life = .live then { t with life := .exited, wait := .none, walk := none } else t) with
      waiters := d.waiters.filter fun w => !(w.fib == uid && m.has w.lane) }

end Sys2Proof.Machine
end

