-- ==== Sys2Proof/Machine/Sched.lean ====
section
/-!
DEFINITION. Fetching (R42, R63, R70), readiness and paths (R86, R88), states of a fibre (R102), and the turn of a slot (R10, R92, R103).
-/

namespace Sys2Proof.Machine

/-- What stands at a PC for a fibre. -/
inductive Fetch where
  | instr (i : Instr)
  | illegal
  | violation (reason : Nat)
  | miss (base : Word) (len : Nat)
  deriving DecidableEq, Repr

/-- FETCH the word at a PC from the resident overlays of the fibre's core, with the words that follow it in its overlay (R63, R70). -/
def fetchAt (d : Dev) (f : Fibre) (t : Team) (pc : Word) : Fetch :=
  match classify d f.core f.ctx t false pc with
  | .violation r => .violation r
  | .miss b n => .miss b n
  | .valid =>
    match overlayOf t pc with
    | none => .violation 1
    | some (base, _) =>
      match residentAt d f.core f.ctx base with
      | none => .violation 1
      | some r =>
        match r.words.drop ((pc.toNat - base.toNat) / 12) with
        | [] => .violation 1
        | w :: rest =>
          match decodeWord w (rest.take 4) with
          | .ok i => .instr i
          | .error _ => .illegal

/-- A thread that may issue as far as its own state goes: live, waiting for nothing, past its stall count (R86). -/
def threadFree (cycle : Nat) (t : Thread) : Bool := t.life == .live && t.wait == .none && decide (t.stallTo ≤ cycle)

/-- The keys of a fibre's live threads, lowest first, without repeats (R88). -/
def fibreKeys (f : Fibre) : List (Word × Nat) :=
  let ks := (f.threads.filter fun t => t.life == .live).map fun t => (t.pc, t.depth)
  let uniq := ks.foldl (fun acc k => if acc.contains k then acc else acc ++ [k]) []
  sortBy (fun k => k.1.toNat * 2 ^ 24 + k.2) uniq

/-- Whether the fibres of a context issue: not while it is halted or halting, or destroyed (R298, R299). -/
def ctxIssues (d : Dev) (c : Nat) : Bool :=
  match (d.ctx c).state with
  | .preempted | .destroyed | .switched | .halted | .free => false
  | _ => true

/-- The threads of a fibre's part of a path that are free to issue, whatever their next instruction waits for; none when the fibre is
frozen, is a helper not yet ready (R106), or its context is halted. -/
def freePart (cycle : Nat) (f : Fibre) (k : Word × Nat) : LaneMask :=
  if f.frozen.isSome || decide (cycle < f.readyAt) then 0
  else lanesWhere fun L => decide (L < f.width) && threadFree cycle (f.thread L) && (f.thread L).pc == k.1 && (f.thread L).depth == k.2

/-- The ready threads of a fibre's part of a path: those free to issue, unless their next instruction waits on a pending register or
another condition at issue, or is one that its own conditions hold back (R46, R86), or the context does not issue. -/
def partOf (d : Dev) (cycle : Nat) (f : Fibre) (k : Word × Nat) : LaneMask :=
  let free := freePart cycle f k
  if !ctxIssues d f.ctx || free = 0 || d.stuck.contains ⟨f.uid, k.1, k.2⟩ then 0
  else match d.team? f.team with
    | none => 0
    | some t => match fetchAt d f t k.1 with
      | .instr i => if waitsAtIssue d f t free cycle i then 0 else free
      | _ => free

/-- Whether a fibre has a ready thread. -/
def fibreReady (d : Dev) (cycle : Nat) (f : Fibre) : Bool := (fibreKeys f).any fun k => partOf d cycle f k != 0

/-- The fibres of a context: one, or the packed narrow fibres of its lane blocks (R84). -/
def contextFibres (d : Dev) (core quad slot pos : Nat) : List Fibre :=
  d.fibres.filter fun f => f.core == core && f.quad == quad && f.slot == slot && f.pos == pos

/-- Whether a context has a ready path (R88). -/
def contextReady (d : Dev) (cycle core quad slot pos : Nat) : Bool := (contextFibres d core quad slot pos).any (fibreReady d cycle)

/-- The context that holds a slot's turn. -/
def turnOf (d : Dev) (core quad slot : Nat) : Option Turn := d.turns.find? fun u => u.core == core && u.quad == quad && u.slot == slot

/-- Give a slot's turn to a context. -/
def setTurn (d : Dev) (u : Turn) : Dev :=
  { d with turns := u :: d.turns.filter fun v => !(v.core == u.core && v.quad == u.quad && v.slot == u.slot) }

/-- PASS THE TURN of a slot from a context to the next in cyclic context-number order that has a ready path; with no taker it keeps the
turn (R103). Readiness is that of the given cycle, the new holder's turn begins at `since`. -/
def passTurn (d : Dev) (cycle since core quad slot pos : Nat) : Dev :=
  match [(pos + 1) % 4, (pos + 2) % 4, (pos + 3) % 4].find? fun p => contextReady d cycle core quad slot p with
  | some p => setTurn d { core := core, quad := quad, slot := slot, pos := p, since := since, issued := false }
  | none => d

/-- A wait that lets the fibre give up its slot (R10). -/
def Wait.long : Wait → Bool
  | .bar _ | .fbar _ | .fbarHeld _ | .addr | .sleep _ => true
  | _ => false

/-- Whether every live thread satisfies a test; a fibre with none does not count. -/
def everyLive (f : Fibre) (p : Thread → Bool) : Bool :=
  f.threads.any (fun t => t.life == .live) && f.threads.all fun t => t.life != .live || p t

/-- State code of a fibre (R102). `holds`: it holds its slot's turn. -/
def fibreState (d : Dev) (cycle : Nat) (f : Fibre) (holds : Bool) : Nat :=
  let fbar := fun (t : Thread) => match t.wait with
    | .fbar _ | .fbarHeld _ => true
    | _ => false
  let park := fun (t : Thread) => t.wait == .addr
  let sleep := fun (t : Thread) => match t.wait with
    | .sleep _ => true
    | _ => false
  if f.frozen.isSome then 7
  else if fibreReady d cycle f then (if holds then 1 else 2)
  else if everyLive f fbar then 4
  else if everyLive f fun t => fbar t || park t then 5
  else if everyLive f sleep then 6
  else 3

end Sys2Proof.Machine
end

