-- ==== Sys2Proof/Machine/Control.lean ====
section
/-!
DEFINITION. Control transfers, calls and frames, the ends of threads, votes and matches (R94 to R100).
-/

namespace Sys2Proof.Machine

/-- `nop` (R65): it obeys its stall count and emits its mark, and does nothing else. -/
def execNop (h : Hdr) (s : State) : Host.Outcome State Fault Refusal :=
  issueOn (.nop h) h s fun _ d => some (.done d)

/-! ### Transfers (R97) -/

/-- What a transfer does to a lane's depth and frames. -/
inductive XferKind where
  | jump | call | ret
  deriving DecidableEq, Repr

/-- The `.stk` address of the frame at a depth (R94). -/
def frameAddr (t : Team) (depth : Nat) : Int := (t.hdr.stack : Int) - 16 * depth

/-- A lane commits a transfer to a target: key, frame, held frames (R94) and path signature (R326). -/
def commitXfer (x : Iss) (k : XferKind) (tgt : Word) (t : Thread) : Thread :=
  let t := { t with pc := tgt, psig := rotl1 t.psig ^^^ tgt }
  match k with
  | .jump => t
  | .call =>
    let ret := x.c.pc + 12
    { t with
      depth := x.c.depth + 1
      held := min 4 (t.held + 1)
      stack := memPut t.stack (frameAddr x.t (x.c.depth + 1)).toNat (wordLE ret ++ List.replicate 8 0) }
  | .ret => { t with depth := x.c.depth - 1, held := t.held - 1 }

/-- The branch records of a traced grid: one for each distinct target of the committed lanes (R326). -/
def branchRecs (x : Iss) (cs : List (Nat × Word)) : List TraceRec :=
  let traced := match x.s.dev.grid? x.f.ctx x.t.lid with
    | some g => g.traced && x.t.wave.isNone
    | none => false
  if traced then
    let tgts := cs.foldl (fun acc c => if acc.contains c.2 then acc else acc ++ [c.2]) []
    tgts.map fun w =>
      let m := LaneMask.ofLanes ((cs.filter fun c => c.2 == w).map Prod.fst)
      traceRec x.s.clk.now x.f x.t 2 0 x.c.pc w ((lowestLane m).getD 0) m 0 0
  else []

/-- A TRANSFER by R97: the targets classified lane by lane, the valid lanes committed, the others left at the instruction, then the
fault of those that violate. Lanes whose frame is spilled wait for its fill (R94). -/
def transfer (x : Iss) (d : Dev) (k : XferKind) (lp : Bool) (tgt : Nat → Word) : Res :=
  let f := x.fib d
  let spilled := x.lanes.filter fun L => k = .ret ∧ (f.thread L).held = 0
  let lanes := x.lanes.filter fun L => !spilled.contains L
  let o := lanes.map fun L => (L, classify d x.f.core x.f.ctx x.t lp (tgt L))
  let good := o.filterMap fun p => if p.2 = .valid then some p.1 else none
  let bad := o.filterMap fun p => match p.2 with
    | .violation r => some (p.1, r)
    | _ => none
  let miss := o.filterMap fun p => match p.2 with
    | .miss b n => some (p.1, b, n)
    | _ => none
  let f := f.onLanes (LaneMask.ofLanes good) fun L t => commitXfer x k (tgt L) t
  let f := keepPc x (LaneMask.ofLanes (spilled ++ bad.map Prod.fst ++ miss.map Prod.fst)) f
  let f := f.onLanes (LaneMask.ofLanes spilled) fun _ t => { t with wait := .frame }
  let d := emitTrace (d.setFibre f) (branchRecs x (good.map fun L => (L, tgt L)))
  let d := miss.foldl (fun d m => overlayMiss d (x.fib d) (LaneMask.ofLanes [m.1]) m.2.1 m.2.2) d
  if bad.isEmpty then .done d else .trap d (landingFault bad)

/-- The direct target of `bra`, `call` and `fspawn`: PC + 12 × the signed word offset. -/
def directTarget (pc : Word) (off : BitVec 22) : Word := pc + 12 * sextTo64 22 off.toNat

/-- The stack-bound fault of a transfer with the record's Detail (R94, R304). -/
def stackFault (x : Iss) (detail : Word) : Res := x.pre 4 0 detail x.act

/-- Whether a call from the path's depth would place its frame below `sr.stklim` (R94). -/
def callTooDeep (x : Iss) : Bool := decide (frameAddr x.t (x.c.depth + 1) < (x.f.stklim.toNat : Int))

/-- `call` and `callx` (R97). -/
def callBody (lp : Bool) (tgt : Iss → Dev → Nat → Word) : Body := ifActive fun x d =>
  if callTooDeep x then some (stackFault x (BitVec.ofInt 64 (frameAddr x.t (x.c.depth + 1))))
  else some (transfer x d .call lp (tgt x d))

def execBra (h : Hdr) (off : BitVec 22) (s : State) : Host.Outcome State Fault Refusal :=
  issueOn (.bra h off) h s (ifActive fun x d => some (transfer x d .jump false fun _ => directTarget x.c.pc off))

def execBrx (h : Hdr) (t : Reg) (s : State) : Host.Outcome State Fault Refusal :=
  issueOn (.brx h t) h s (ifActive fun x d => some (transfer x d .jump true fun L => regLane d (x.fib d) t.toNat L))

def execCall (h : Hdr) (off : BitVec 22) (s : State) : Host.Outcome State Fault Refusal :=
  issueOn (.call h off) h s (callBody false fun x _ _ => directTarget x.c.pc off)

def execCallx (h : Hdr) (t : Reg) (s : State) : Host.Outcome State Fault Refusal :=
  issueOn (.callx h t) h s (callBody true fun x d L => regLane d (x.fib d) t.toNat L)

/-- `ret`: each lane's target is the return PC in its own frame (R94, R97). -/
def execRet (h : Hdr) (s : State) : Host.Outcome State Fault Refusal :=
  issueOn (.ret h) h s (ifActive fun x d =>
    if x.c.depth = 0 then some (stackFault x 0)
    else some (transfer x d .ret false fun L => memWord ((x.fib d).thread L).stack (frameAddr x.t x.c.depth).toNat))

/-! ### Ends and turns (R98, R99) -/

def execExit (h : Hdr) (s : State) : Host.Outcome State Fault Refusal :=
  issueOn (.exit h) h s (ifActive fun x d => some (.done (endThreads d x.f.uid x.act)))

/-- `yield` (R99). -/
def execYield (h : Hdr) (s : State) : Host.Outcome State Fault Refusal :=
  issueOn (.yield h) h s (ifActive fun x d => some (.done (passTurn d x.s.clk.cycle (x.s.clk.cycle + 1) x.f.core x.f.quad x.f.slot x.f.pos)))

/-! ### Votes and matches (R100) -/

/-- A vote's predicate over the active lanes. -/
def voteLanes (x : Iss) (d : Dev) (p : POp) : LaneMask := lanesWhere fun L => x.act.has L && pval (x.fib d) p L

def execVoteAny (h : Hdr) (d : PredIdx) (p : POp) (s : State) : Host.Outcome State Fault Refusal :=
  issueOn (.voteAny h d p) h s (predBody d 4 fun x dv _ => (voteLanes x dv p != 0, 0))

def execVoteAll (h : Hdr) (d : PredIdx) (p : POp) (s : State) : Host.Outcome State Fault Refusal :=
  issueOn (.voteAll h d p) h s (predBody d 4 fun x dv _ => (voteLanes x dv p == x.act, 0))

def execVoteMask (h : Hdr) (d : Reg) (p : POp) (s : State) : Host.Outcome State Fault Refusal :=
  issueOn (.voteMask h d p) h s (vecBody d 4 (fun _ _ => .g) fun x dv _ => (voteLanes x dv p, 0))

/-- A match's operand in a lane. -/
def matchVal (x : Iss) (d : Dev) (a : RegPat) (L : Nat) : Word :=
  srcReg d (x.fib d) { idx := a.idx, pat := a.pat, neg := false, abs := false } (.int .n64) L

def execMatchAny (h : Hdr) (d : Reg) (a : RegPat) (s : State) : Host.Outcome State Fault Refusal :=
  issueOn (.matchAny h d a) h s (vecBody d 8 (fun _ _ => .g) fun x dv L =>
    (lanesWhere fun M => x.act.has M && matchVal x dv a M == matchVal x dv a L, 0))

def execMatchAll (h : Hdr) (d : PredIdx) (a : RegPat) (s : State) : Host.Outcome State Fault Refusal :=
  issueOn (.matchAll h d a) h s (predBody d 8 fun x dv L =>
    (x.lanes.all fun M => matchVal x dv a M == matchVal x dv a L, 0))

end Sys2Proof.Machine
end

