-- ==== Sys2Proof/Machine/Fibres.lean ====
section
/-!
DEFINITION. Starting fibres (R83, R106), fibre barriers and status (R101 to R112), the loader (R71, R72), frame fills (R94), the hold
limit (R92).
-/

namespace Sys2Proof.Machine

/-! ### New threads and fibres -/

/-- A thread as it starts: depth 0, predicates false, nothing recorded (R7, R86). -/
def newThread (life : Life) (pc : Word) (logical : Nat) (task : Option TaskSt) : Thread :=
  { life := life, pc := pc, depth := 0, preds := 0, logical := logical, stallTo := 0, stallPc := 0, wait := .none, psig := 0,
    stack := [], held := 0, arrd := 0, recd := 0, fbArr := false, fbRec := none, task := task, walk := none, know := [], uo := default,
    host := default, uoHost := default, rels := [], seen := [], seenUo := [], met := [], metOrd := [], reads := [] }

/-- `A` of R73. -/
def allocOf (n w : Nat) : Nat := min 255 (8 * ((n + w + 7) / 8))

/-- Register-file bytes of a team (R73). -/
def rfBytes (h : KernelHdr) (threads : Nat) : Nat :=
  let contexts := (threads + h.width - 1) / h.width * (if h.width = 64 then 2 else 1)
  threads * 8 * (allocOf h.n h.w - h.w) + (contexts + 3) / 4 * 256 * h.w

/-- A fibre as it starts: registers U 0 (R7), flags clear, the context's CHK and AGELIMIT (R297). -/
def newFibre (uid grp : Nat) (x : Ctx) (t : Team) (ctx : Nat) (place : Nat × Nat × Nat × Nat) (helper : Bool) (readyAt : Nat)
    (threads : List Thread) : Fibre :=
  { uid := uid, team := t.uid, ctx := ctx, core := t.core, quad := place.1, slot := place.2.1, pos := place.2.2.1,
    block := place.2.2.2, width := t.hdr.width, helper := helper, grp := grp, nPriv := t.hdr.n, nWin := t.hdr.w,
    nAlloc := allocOf t.hdr.n t.hdr.w, regs := List.replicate (allocOf t.hdr.n t.hdr.w) (.u 0), pendW := [], pendP := [], fflags := 0,
    stklim := if helper then BitVec.ofNat 64 t.hdr.stack else 0, chk := x.chk, agelimit := x.agelimit, frozen := none, latches := [],
    streams := List.replicate 8 none, theta := 0, eps := 0, maxDepth := 255, dot := false, readyAt := readyAt, threads := threads }

/-! ### Helpers (R105 to R107) -/

/-- The lowest context of a fibre's slot whose lane block holds no fibre (R106). -/
def freeContext (d : Dev) (f : Fibre) : Option Nat :=
  (List.range 4).find? fun c => !(d.fibres.any fun g =>
    g.core == f.core && g.quad == f.quad && g.slot == f.slot && g.pos == c && g.block == f.block)

/-- The logical index of a helper's lane in context `c`, given its spawner's (R106). -/
def helperIndex (f : Fibre) (c L : Nat) : Nat :=
  let t := ((f.thread 0).logical + L) % 1024
  1024 * ((c + 4 - t / f.width % 4) % 4) + t

/-- A helper's v0: the shape of the operand when every live lane is active, otherwise G (R106). -/
def helperV0 (x : Iss) (d : Dev) (a : Nat) : VReg :=
  let f := x.fib d
  match x.full, regOf d f a with
  | true, .u v => .u v
  | true, .a b s => .a b s
  | _, _ => .g ((List.range f.width).map fun L => if x.act.has L then regLane d f a L else 0)

/-- Create a helper fibre in context `c` (R106). Its v0 is written even where v0 is a window register. -/
def spawn (x : Iss) (d : Dev) (a c : Nat) (target : Word) : Dev :=
  let f := x.fib d
  let t := x.team d
  let threads := (List.range f.width).map fun L =>
    newThread (if x.act.has L then .live else .empty) target (helperIndex f c L) none
  let g := newFibre d.nextId f.grp (d.ctx f.ctx) t f.ctx (f.quad, f.slot, c, f.block) true (x.s.clk.cycle + 4) threads
  let v0 := helperV0 x d a
  let d := { d with nextId := d.nextId + 1, fibres := d.fibres ++ [{ g with chk := f.chk, agelimit := f.agelimit }] }
  match d.fibre? g.uid with
  | none => d
  | some g => putReg d g 0 (mergeReg g (regOf d g 0) x.act x.full v0)

/-- `fspawn` (R106). -/
def execFspawn (h : Hdr) (d : PredIdx) (a : Reg) (off : BitVec 22) (s : State) : Host.Outcome State Fault Refusal :=
  issueOn (.fspawn h d a off) h s (ifActive fun x dv =>
    let f := x.fib dv
    let t := x.team dv
    let target := directTarget x.c.pc off
    match classify dv f.core f.ctx t false target with
    | .violation r => some (.trap x.s.dev (landingFault (x.lanes.map fun L => (L, r))))
    | _ =>
      let helpers := (dv.fibres.filter fun g => g.team == t.uid && g.helper).length
      let need := rfBytes t.hdr t.size + (helpers + 1) * f.width * 8 * (f.nAlloc - f.nWin)
      match freeContext dv f with
      | some c =>
        if f.width ≠ 64 ∧ need ≤ t.hdr.rf * 16384 then some (.done (sendPred x (spawn x dv a.toNat c target) d fun _ => true))
        else some (.done (sendPred x dv d fun _ => false))
      | none => some (.done (sendPred x dv d fun _ => false)))

/-- HELPER_READY (R106): a helper's four cycles are over. -/
def execHelperReady (fibre : Nat) (s : State) : Host.Outcome State Fault Refusal :=
  onDev s fun s => match s.dev.fibre? fibre with
    | some f => if f.readyAt ≤ s.clk.cycle then s.dev.setFibre { f with readyAt := 0 } else s.dev
    | none => s.dev

/-- `fexit` (R107): every thread of the fibre ends. -/
def execFexit (h : Hdr) (s : State) : Host.Outcome State Fault Refusal :=
  issueOn (.fexit h) h s (ifActive fun x d => some (.done (endThreads d x.f.uid (x.fib d).live)))

/-! ### The fibre barrier (R108 to R110) -/

/-- The fibres of a slot group. -/
def groupFibres (d : Dev) (grp : Nat) : List Fibre := d.fibres.filter fun f => f.grp == grp

/-- Whether every live thread of a slot group, if there is one, has arrived (R109). -/
def fbarComplete (d : Dev) (grp : Nat) : Bool :=
  let fs := groupFibres d grp
  fs.any (fun f => f.threads.any fun t => t.life == .live) && fs.all fun f => f.threads.all fun t => t.life != .live || t.fbArr

/-- COMPLETE THE FIBRE BARRIER'S PHASE (R109): arrivals cleared, the waiting threads ready and acquiring (R195). -/
def completeFbar (d : Dev) (grp : Nat) : Dev :=
  let g := d.group grp
  let fs := groupFibres d grp
  let waits := fun (f : Fibre) => lanesWhere fun L => (f.thread L).wait == .fbar g.phase
  let ended := fun (t : Thread) => t.wait == .fbar g.phase || t.wait == .fbarHeld g.phase
  let clear := fun (_ : Nat) (t : Thread) => { t with fbArr := false, wait := if ended t then .none else t.wait }
  let g' := { g with
    phase := g.phase + 1
    know := dedupNat (g.know ++ g.openKnow)
    ids := dedupNat (liveIds d g.ids ++ g.openIds)
    openKnow := []
    openIds := [] }
  let d := d.setGroup g'
  let d := { d with fibres := d.fibres.map fun f => if f.grp == grp then f.mapThreads clear else f }
  fs.foldl (fun d f => acquire d f.uid (waits f) false g'.ids g'.know) d

/-- Complete the phase if every live thread has arrived. -/
def checkFbar (d : Dev) (grp : Nat) : Dev := if fbarComplete d grp then completeFbar d grp else d

/-- Some lanes arrive in the current phase and record it: a release at `.team` (R109, R195). -/
def fbarArrive (x : Iss) (d : Dev) (m : LaneMask) : Dev :=
  let f := x.fib d
  let g := d.group f.grp
  let g' := { g with
    openKnow := dedupNat (g.openKnow ++ knownTo' f m)
    openIds := dedupNat (liveIds d g.openIds ++ m.lanes.flatMap (pendingOf d f.uid)) }
  (d.setGroup g').setFibre (f.onLanes m fun _ t => { t with fbArr := true, fbRec := some g.phase })
where
  /-- Commands the lanes know. -/
  knownTo' (f : Fibre) (m : LaneMask) : List Nat := m.lanes.flatMap fun L => (f.thread L).know

/-- Some lanes wait for the phase they recorded; a lane whose phase has completed, or that has none, goes on and acquires. -/
def fbarWait (x : Iss) (d : Dev) (m : LaneMask) : Dev :=
  let f := x.fib d
  let g := d.group f.grp
  let stay := lanesWhere fun L => m.has L && (f.thread L).fbRec == some g.phase
  acquire (d.setFibre (f.onLanes stay fun _ t => { t with wait := .fbar g.phase })) f.uid (m &&& ~~~stay) false g.ids g.know

/-- `fbar.arrive` and `fbar.sync` (R109): a thread whose arrival in the open phase stands waits at the instruction until
that phase completes. -/
def fbarBody (after : Iss → Dev → LaneMask → Dev) : Body := ifActive fun x d =>
  let f := x.fib d
  let held := lanesWhere fun L => x.act.has L && (f.thread L).fbArr
  let go := x.act &&& ~~~held
  let stay := (keepPc x held f).onLanes held fun _ t => { t with wait := .fbarHeld (d.group f.grp).phase }
  let d := after x (fbarArrive x (d.setFibre stay) go) go
  some (.done (checkFbar d f.grp))

/-- `fbar.arrive` (R109). -/
def execFbarArrive (h : Hdr) (s : State) : Host.Outcome State Fault Refusal := issueOn (.fbarArrive h) h s (fbarBody fun _ d _ => d)

/-- `fbar.sync` (R109). -/
def execFbarSync (h : Hdr) (s : State) : Host.Outcome State Fault Refusal := issueOn (.fbarSync h) h s (fbarBody fbarWait)

/-- `fbar.wait` (R109). -/
def execFbarWait (h : Hdr) (s : State) : Host.Outcome State Fault Refusal :=
  issueOn (.fbarWait h) h s (ifActive fun x d => some (.done (fbarWait x d x.act)))

/-! ### Status (R112) -/

/-- The state code of context `c` of a slot group, as `fstat` reports it. -/
def statCode (x : Iss) (d : Dev) (c : Nat) : Nat :=
  let f := x.fib d
  match (groupFibres d f.grp).find? fun g => g.pos == c with
  | none => 0
  | some g =>
    if g.uid == f.uid then 1
    else fibreState d x.s.clk.cycle g (match turnOf d g.core g.quad g.slot with
      | some u => u.pos == c
      | none => false)

/-- The value `fstat` writes (R112). DESIGN CHOICE (assumption 74): Arrived counts the live threads that have arrived; one that has arrived
and then exited is counted no more. -/
def statWord (x : Iss) (d : Dev) : Word :=
  let f := x.fib d
  let fs := groupFibres d f.grp
  let codes := ((List.range 4).map fun c => statCode x d c * 16 ^ c).foldl (· + ·) 0
  let helpers := ((List.range 4).map fun c => if fs.any fun g => g.pos == c && g.helper then 2 ^ c else 0).foldl (· + ·) 0
  let arrived := (fs.map fun g => (g.threads.filter fun t => t.life == .live && t.fbArr).length).foldl (· + ·) 0
  BitVec.ofNat 64 (codes + helpers * 2 ^ 16 + arrived * 2 ^ 24 + (d.group f.grp).phase % 2 * 2 ^ 33)

/-- `fstat` (R112). -/
def execFstat (h : Hdr) (d : Reg) (s : State) : Host.Outcome State Fault Refusal :=
  issueOn (.fstat h d) h s (ifActive fun x dv => some (.done (sendResult x dv true true [d.toNat] 0 fun _ => [statWord x dv])))

/-- HOLD_LIMIT (R92): a fibre that has held its slot for `H` cycles and has issued gives it up to a ready sibling. -/
def execHoldLimit (core quad slot : Nat) (s : State) : Host.Outcome State Fault Refusal :=
  onDev s fun s => match turnOf s.dev core quad slot with
    | none => s.dev
    | some u =>
      let lim := ((contextFibres s.dev core quad slot u.pos).map Fibre.agelimit).foldl max 4
      if u.issued && decide (u.since + lim ≤ s.clk.cycle + 1) then passTurn s.dev s.clk.cycle (s.clk.cycle + 1) core quad slot u.pos else s.dev

/-! ### The loader (R70 to R72) -/

/-- The 96-bit words in a byte list (R43). -/
def leIWords : Nat → List Byte → List IWord
  | 0, _ => []
  | n + 1, bs => BitVec.ofNat 96 (leNat (bs.take 12)) :: leIWords n (bs.drop 12)

/-- Scratchpad bytes an overlay takes: it stands on a 256-byte boundary (R71). -/
def ovlBytes (words : Nat) : Nat := alignUp (12 * words) 256

/-- Bytes of the instruction scratchpad the resident overlays of a core take. -/
def residentBytes (rs : List Resident) (core : Nat) : Nat :=
  ((rs.filter fun r => r.core == core).map fun r => ovlBytes r.words.length).foldl (· + ·) 0

/-- Read an overlay's words from its executable pages. -/
def readOverlay (d : Dev) (core ctx : Nat) (base : Word) (len : Nat) : Acc × Dev × List IWord :=
  match translateAll core ctx ⟨false, true⟩ (12 * len / 65536 + 2) d base (12 * len) with
  | (.parts ps, d) =>
    (.parts [], d, leIWords len ((ps.flatMap fun p => p.places core false).map (readPlace d core 0)))
  | (r, d) => (r, d, [])

/-- The waiting lanes of a fibre for an overlay. -/
def missLanes (f : Fibre) (base : Word) : LaneMask := lanesWhere fun L => (f.thread L).wait == .overlay base

/-- Whether the walk of a load has to wait: for room in its Quarter's walker (R14), or for the table stores before a `fence.sc` at `.dev` or
wider of a team that waits for the overlay (R158). -/
def loadHeld (d : Dev) (core ctx : Nat) (base : Word) : Bool :=
  walkWaits d core ctx false base 1 ||
  d.fibres.any fun f => f.core == core && f.ctx == ctx && missLanes f base != 0 && tableHeld d f.team d.nextId

/-- The waits for an overlay end. -/
def endMiss (d : Dev) (core ctx : Nat) (base : Word) : Dev :=
  let go := fun (_ : Nat) (t : Thread) => if t.wait == .overlay base then { t with wait := .none } else t
  { d with
    fibres := d.fibres.map fun f => if f.core == core && f.ctx == ctx then f.mapThreads go else f
    loads := d.loads.filter fun l => !(l.core == core && l.ctx == ctx && l.base == base) }

/-- The page fault of a load freezes the fibres whose lanes wait on it, at their transferring instruction (R160). -/
def loadFault (clk : Clk) (d : Dev) (l : OvlLoad) (reason : Nat) (va : Word) : Dev :=
  let fs := d.fibres.filter fun f => f.core == l.core && f.ctx == l.ctx && missLanes f l.base != 0
  fs.foldl (fun d f =>
    let m := missLanes f l.base
    takeFault clk d f.uid (f.thread ((lowestLane m).getD 0)).pc ⟨1, reason, va, m, 0⟩) (endMiss d l.core l.ctx l.base)

/-- Drop resident overlays of a core. -/
def evictOverlays (d : Dev) (core : Nat) (evict : List Word) : Dev :=
  { d with residents := d.residents.filter fun r => !(r.core == core && evict.contains r.base) }

/-- An overlay becomes resident, in place of an older copy. -/
def addResident (d : Dev) (core ctx : Nat) (base : Word) (ws : List IWord) : Dev :=
  { d with residents := (d.residents.filter fun r => !(r.core == core && r.ctx == ctx && r.base == base)) ++ [⟨core, ctx, base, ws⟩] }

/-- OVERLAY_LOAD_COMPLETE (R71, R72): the named overlays are evicted, and when the copy then fits, every lane waiting on the overlay
executes its instruction again. -/
def execOverlayLoadComplete (core ctx : Nat) (base : Word) (evict : List Word) (s : State) : Host.Outcome State Fault Refusal :=
  onDev s fun s => match s.dev.loads.find? fun l => l.core == core && l.ctx == ctx && l.base == base with
    | none => s.dev
    | some l =>
      let d := evictOverlays s.dev core evict
      if 262144 < residentBytes d.residents core + ovlBytes l.len || loadHeld d core ctx base then s.dev
      else match readOverlay d core ctx base l.len with
        | (.fault r va, d, _) => loadFault s.clk d l r va
        | (.wait e, d, _) => d.walkWait ⟨core, 2, base.toNat⟩ e
        | (.parts _, d, ws) => endMiss (addResident d core ctx base ws) core ctx base

/-- FRAME_FILL_COMPLETE (R94): a spilled frame of a thread is held again, and a `ret` that waits for it goes on. -/
def execFrameFillComplete (fibre lane : Nat) (s : State) : Host.Outcome State Fault Refusal :=
  onDev s fun s => match s.dev.fibre? fibre with
    | none => s.dev
    | some f =>
      let t := f.thread lane
      if t.life = .live ∧ t.held < min 4 t.depth then
        s.dev.setFibre (f.onLanes (LaneMask.ofLanes [lane]) fun _ t =>
          { t with held := t.held + 1, wait := if t.wait == .frame then .none else t.wait })
      else s.dev

end Sys2Proof.Machine
end

