-- ==== Sys2Proof/Machine/Trowel.lean ====
section
/-!
DEFINITION. Trowel commands (R213 to R220): shape records, where elements lie, how they move, shadows and publication.
-/

namespace Sys2Proof.Machine

/-! ### The shape record (R61, R62, R214) -/

/-- A shape record with its markers replaced: extents (1 for an unused dimension), strides, format, whether elements are blocks, scale
offsets of source and destination. -/
structure Shape where
  ext : List Nat
  str : List Word
  fmt : Nat
  blk : Bool
  sOff : Nat
  dOff : Nat
  deriving DecidableEq, Repr

/-- An extent or offset subfield. -/
def subU (d : Dev) (f : Fibre) : Sub → Nat
  | .lit v => v.toNat
  | .mark r => (regLane d f r.toNat 0).toNat

/-- A stride subfield. -/
def subS (d : Dev) (f : Fibre) : Sub → Word
  | .lit v => sextTo64 22 v.toNat
  | .mark r => regLane d f r.toNat 0

/-- Whether every marker of a block names a register whose tag is U (R62). -/
def marksU (d : Dev) (f : Fibre) (pb : ParamBlock) : Bool :=
  [pb.s0, pb.s1, pb.s2, pb.s3, pb.s4, pb.s5, pb.s6, pb.s7, pb.s9, pb.s10].all fun s => match s with
    | .lit _ => true
    | .mark r => plainShape d f r.toNat == .u

/-- RESOLVE A SHAPE RECORD at issue; none where R62 makes its owner an illegal instruction. -/
def resolveShape (d : Dev) (f : Fibre) (pb : ParamBlock) : Option Shape :=
  let e := [pb.s0, pb.s1, pb.s2, pb.s3].map (subU d f)
  let o := [pb.s9, pb.s10].map (subU d f)
  if !marksU d f pb || (e ++ o).any (fun n => decide (2 ^ 40 < n)) then none
  else some
    { ext := (e.zip (List.range 4)).map fun p => if p.2 < pb.ndims then p.1 else 1
      str := [pb.s4, pb.s5, pb.s6, pb.s7].map (subS d f)
      fmt := pb.fmt
      blk := pb.blk == 1
      sOff := o.getD 0 0
      dOff := o.getD 1 0 }

/-- Width in bits of a format code (R22). -/
def fmtWidth (c : Nat) : Nat := [8, 16, 32, 64, 8, 16, 32, 64, 16, 16, 32, 64, 64, 96, 144].getD c 64

/-- Mantissa bytes of a block in planar form (R34). -/
def mantBytes (c : Nat) : Nat := [6, 10, 16].getD (c - 12) 16

/-- Bytes of an element's first part. -/
def elemBytes (fmt : Nat) (blk : Bool) : Nat := if blk then mantBytes fmt else fmtWidth fmt / 8

/-- The parts of element `e`: byte offset from the base address, bytes; a block has a mantissa and a scale part (R214). -/
def elemParts (fmt : Nat) (blk : Bool) (off : Nat) (e : Int) : List (Int × Nat) :=
  let n := elemBytes fmt blk
  if blk then [(e * n, n), (off + 2 * e, 2)] else [(e * n, n)]

/-- Elements a command moves. -/
def Cmd.total (c : Cmd) : Nat := c.ext.foldl (· * ·) 1

/-- Index of dimension `k` at dense position `p` (R214). -/
def posIdx (ext : List Nat) (p k : Nat) : Nat := p / (ext.take k).foldl (· * ·) 1 % ext.getD k 1

/-- Stride `k` of a command as a signed number. -/
def Cmd.stride (c : Cmd) (k : Nat) : Int := (c.str.getD k 0).toInt

/-- The strided element of a `cpy` (R214). -/
def Cmd.strided (c : Cmd) (p : Nat) : Int :=
  ((List.range 4).map fun k => (posIdx c.ext p k : Int) * c.stride k).foldl (· + ·) 0

/-- The indexed element of a `gth` or `sct` (R214). -/
def Cmd.indexed (c : Cmd) (p idx : Nat) : Int := (posIdx c.ext p 0 : Int) * c.stride 0 + (idx : Int) * c.stride 1

/-- The row of a position (R214). -/
def Cmd.row (c : Cmd) (p : Nat) : Nat := p / c.ext.getD 0 1

/-! ### Where bytes lie -/

/-- Bytes of a team's scratchpad. -/
def spBytes (t : Team) : Nat := t.hdr.sp * 16384

/-- A live handle of a team. -/
def handleOf (t : Team) (h : Nat) : Option Handle := (t.handles.getD h none)

/-- First byte and length of a reservation's range in the team's Pallet (R204). -/
def Handle.range (h : Handle) : Nat × Nat := (field h.record 0 8 * 1024, field h.record 8 9 * 1024)

/-- The address of byte `off` from a base, in a space's own address form (R213). -/
def tAddr (spc : TSpace) (base : Word) (off : Int) : Word :=
  match spc with
  | .g | .sp => base + BitVec.ofInt 64 off
  | .pl => base + BitVec.ofInt 64 (8 * off)
  | .ta => base + BitVec.ofInt 64 (16 * off)

/-- The outcome of a step of an engine: a result with the device, a fault, or a wait for a page's zeroing. -/
inductive TRes (α : Type) where
  | ok (a : α) (d : Dev)
  | bad (kind reason : Nat) (va : Word)
  | wait (d : Dev)

/-- The scratchpad bytes a direct command holds: from the lowest to the highest destination byte, or all for `sct` (R216). -/
def directRange (c : Cmd) (size : Nat) : Nat × Nat :=
  match c.op with
  | .sct => (0, size)
  | _ =>
    let n := c.total
    let b := c.dstA.toNat
    let m := elemBytes c.fmt c.blk * n
    if c.blk then (min b (b + c.dOff), max (b + m) (b + c.dOff + 2 * n)) else (b, b + m)

/-- Whether a scratchpad access of a team overlaps a direct command that has not retired (R216). -/
def spBusy (d : Dev) (t : Team) (a n : Nat) : Bool :=
  d.cmds.any fun c => c.team == t.uid && c.dst == .sp &&
    (let r := directRange c (spBytes t); decide (a < r.2 ∧ r.1 < a + n))

/-- Whom an engine accesses memory for (R196): core, context and fibre; the identity below which the fibre's accesses are earlier than the
engine's (R168), and the one below which the team's direct commands are (R216); what its writes must follow besides; the buffered stores its
reads see; the issuing lanes, and what they knew at issue; how many writes ago it reads as of (R187); its walks' place in the walker; and
whether it reads an index, which sees the earlier stores of its own lanes alone (R196, R346). -/
structure Engine where
  core : Nat
  ctx : Nat
  fib : Nat
  since : Nat
  direct : Nat
  afterW : List Nat
  buf : List LaneAcc
  lanes : LaneMask
  know : List Nat
  besides : Besides
  back : Nat
  walker : Walker
  index : Bool
  deriving DecidableEq, Repr

/-- Translate an access of an engine for a team, which waits while its Quarter's walker is full (R14), and for the table stores that stand
before it (R158). -/
def translateEngine (d : Dev) (e : Engine) (t : Team) (write : Bool) (va : Word) (n : Nat) : Acc × Dev :=
  if walkWaits d e.core e.ctx write va n || tableHeld d t.uid e.direct then (.wait 0, d)
  else match translateAll e.core e.ctx ⟨write, false⟩ (n / 65536 + 2) d va n with
    | (.wait a, d) => (.wait a, d.walkWait e.walker a)
    | r => r

/-- What is before an engine's access of a kind (R154, R155). -/
def Engine.viewOf (e : Engine) (uo host : Bool) : List Nat :=
  match uo, host with
  | false, false => e.know
  | true, false => e.besides.uo
  | false, true => e.besides.host
  | true, true => e.besides.uoHost

/-- An engine's access to some bytes as a lane's. -/
def Engine.acc (e : Engine) (va : Word) (ps : List (Place × Nat)) (L : Nat) : LaneAcc :=
  let a : LaneAcc :=
    { lane := L, va := va, places := ps.map Prod.fst, kinds := ps.map Prod.snd, data := [], ops := [], hands := [], view := [] }
  { a with view := e.viewOf (!a.plain) a.host }

/-- Whether an engine's access counts the accesses of a lane of its fibre as its own: a read of an index those of the issuing lanes alone
(R168, R196, R346). -/
def Engine.ownLane (e : Engine) (L : Nat) : Bool := !e.index || e.lanes.has L

/-- Whether an engine's access to some bytes has still to wait: for an earlier access of its fibre to them (R168), on an SO page for the earlier SO
accesses of the issuing threads (R154, R196), or for a direct command of the team that holds them (R196, R216). -/
def engineHeld (d : Dev) (e : Engine) (t : Team) (ps : List (Place × Nat)) : Bool :=
  (d.flights.any fun g => g.fib == e.fib && decide (g.id < e.since) && g.acc.any fun a =>
    e.ownLane a.lane && (a.cover.any fun p => ps.any fun q => q.1 == p) ||
    e.lanes.has a.lane && a.isSO && ps.any fun q => q.2 % 4 == 1) ||
  d.cmds.any fun c => decide (c.id < e.direct) && c.team == t.uid && c.dst == .sp && ps.any fun p => match p.1 with
    | .spad a => let r := directRange c (spBytes t); decide (r.1 ≤ a ∧ a < r.2)
    | _ => false

/-- The same for a write, which also follows the fibre's earlier builds that read the bytes (R291) and its release fences (R175). -/
def engineWriteHeld (d : Dev) (e : Engine) (t : Team) (va : Word) (ps : List (Place × Nat)) : Bool :=
  engineHeld d e t ps || !(liveIds d e.afterW).isEmpty ||
  d.builds.any fun b => b.fib == e.fib && decide (b.id < e.since) && b.reads (e.acc va ps 0)

/-- Whether an engine's read may return its bytes as of the moment asked for: as a relaxed load of each issuing thread might (R187, R196). -/
def engineMay (d : Dev) (e : Engine) (t : Team) (va : Word) (ps : List (Place × Nat)) : Bool :=
  e.back == 0 || e.lanes.lanes.all fun L => mayReadBy d
    { id := e.since, fib := e.fib, team := t.uid, ctx := e.ctx, core := e.core, kind := .load (.int .n64) .r, acc := [], dst := [], pdst := none,
      full := false, flags := 0, ord := .rlx, sc := .team, after := [], pc := 0, acqs := [], through := false, path := e.lanes }
    (fun w => w.of e.fib e.since && e.ownLane w.author.lane) e.back (e.acc va ps L)

/-- How many writes ago an engine's read takes its bytes from: what was asked for where that is allowed, otherwise the last write. -/
def engineBack (d : Dev) (e : Engine) (t : Team) (va : Word) (ps : List (Place × Nat)) : Nat :=
  if d.past.isEmpty then 0 else if engineMay d e t va ps then e.back else 0

/-- The places an engine's read takes its bytes from, or a wait: bytes that the issuing tasks buffer are fixed. -/
def enginePlaces (d : Dev) (e : Engine) (t : Team) (va : Word) (ps : List (Place × Nat)) : TRes (Word × List (Place × Nat)) :=
  if engineHeld d e t ps then .wait d
  else .ok (va, ps.map fun p => (bufPlace e.buf (quarterOf e.core) p.1, p.2)) d

/-- Scratchpad bytes as places. -/
def spPlaces (a n : Nat) : List (Place × Nat) := (List.range n).map fun i => (.spad (a + i), 0)

/-- Where an engine reads `n` bytes at `off` from a base address: the address and the places, a Pallet's bytes as they stand; the buffered stores
of the tasks that issued it are seen (R196). -/
def engineFind (d : Dev) (e : Engine) (t : Team) (spc : TSpace) (base : Word) (off : Int) (n : Nat) : TRes (Word × List (Place × Nat)) :=
  let va := tAddr spc base off
  match spc with
  | .g => match translateEngine d e t false va n with
    | (.fault r _, _) => .bad 1 r va
    | (.wait _, d) => .wait d
    | (.parts ps, d) => enginePlaces d e t va (ps.flatMap fun p => p.places e.core false)
  | .sp => if va.toNat + n ≤ spBytes t then enginePlaces d e t va (spPlaces va.toNat n) else .bad 5 2 va
  | .pl => match handleOf t (base.toNat % 8) with
    | none => .bad 5 2 va
    | some h =>
      let o := (base.toNat / 8 : Int) + off
      if 0 ≤ o ∧ o + n ≤ h.range.2 then .ok (va, (memBytes t.pallet (h.range.1 + o.toNat) n).map fun b => (.lit b, 0)) d else .bad 5 2 va
  | .ta => .bad 5 2 va

/-- How many writes ago the parts of one element are read as of, which is taken whole: what was asked for where each part may be read so, otherwise
as they stand (R187, R196). -/
def engineAsOf (d : Dev) (e : Engine) (t : Team) (qs : List (Word × List (Place × Nat))) : Nat :=
  if qs.all fun q => engineBack d e t q.1 q.2 == e.back then e.back else 0

/-- Read the bytes of one engine's access, or of the parts of one element. -/
def engineTake (d : Dev) (e : Engine) (t : Team) (qs : List (Word × List (Place × Nat))) : List (List Byte) :=
  qs.map fun q => bytesBack d e.core t.uid (engineAsOf d e t qs) (e.acc q.1 q.2 0)

/-- Read `n` bytes for an engine at `off` from a base address. -/
def engineRead (d : Dev) (e : Engine) (t : Team) (spc : TSpace) (base : Word) (off : Int) (n : Nat) : TRes (List Byte) :=
  match engineFind d e t spc base off n with
  | .bad k r va => .bad k r va
  | .wait d => .wait d
  | .ok q d => .ok ((engineTake d e t [q]).headD []) d

/-- The buffer of a team that holds a `.g` byte (R218). -/
def bufOf (t : Team) (a : Nat) : Option Nat := (List.range 8).find? fun k => match t.bufs.getD k none with
  | some (b, n) => decide (b.toNat ≤ a ∧ a < b.toNat + n)
  | none => false

/-- The line of shadow storage a byte takes (R218). -/
def ShadowByte.line (s : ShadowByte) : Nat × Nat := (s.obj, s.addr / 64)

/-- Lines a team's shadow bytes hold. -/
def shadowLines (t : Team) : Nat :=
  (t.shadow.foldl (fun (acc : List (Nat × Nat)) s => if acc.contains s.line then acc else s.line :: acc) []).length

/-- Whether a Quarter's shadow region, 4 GiB in lines of 64 bytes, has no room for a team's new bytes (R218). -/
def shadowFull (d : Dev) (t : Team) (new : List ShadowByte) : Bool :=
  let held := d.teams ++ d.ctxs.flatMap fun x => x.saved.map SavedTeam.team
  let others := (held.filter fun u => u.uid != t.uid && quarterOf u.core == quarterOf t.core).map shadowLines
  decide (2 ^ 26 < others.foldl (· + ·) 0 + shadowLines { t with shadow := new ++ t.shadow })

/-- Put bytes in the shadow of an object, unless the region is full (reason 5). -/
def toShadow (d : Dev) (t : Team) (va : Word) (new : List ShadowByte) : TRes Unit :=
  if shadowFull d t new then .bad 5 5 va else .ok () (d.setTeam { t with shadow := new.reverse ++ t.shadow })

/-- Whom a command accesses memory for, reading as of `back` writes ago. -/
def Cmd.engine (c : Cmd) (back : Nat) : Engine :=
  { core := c.core, ctx := c.ctx, fib := c.fib, since := c.id, direct := c.id, afterW := c.afterW, buf := c.buf, lanes := c.lanes,
    know := c.know, besides := c.besides, back := back, walker := ⟨c.core, 1, c.id⟩, index := false }

/-- Whether a byte of the destination at position `p` has been written by a higher position already, which wins it (R215). -/
def Cmd.won (c : Cmd) (p : Nat) (o : Int) : Bool :=
  c.done.any fun q => decide (p < q.1) && q.2.any fun r => decide (r.1 ≤ o ∧ o < r.1 + r.2)

/-- Write bytes of a command's element of position `p` at `off` from its destination address, but for those a higher position has written (R213,
R215, R216, R218). -/
def engineWrite (d : Dev) (c : Cmd) (t : Team) (p : Nat) (off : Int) (bs : List Byte) : TRes Unit :=
  let va := tAddr c.dst c.dstA off
  let n := bs.length
  let mine := (bs.zip (List.range n)).filter fun q => !c.won p (off + q.2)
  match c.dst with
  | .sp =>
    if va.toNat + n ≤ spBytes t then
      if engineWriteHeld d (c.engine 0) t va (spPlaces va.toNat n) then .wait d
      else .ok () (endNotes (d.setTeam { t with sp := mine.foldl (fun m q => memWrite m (va.toNat + q.2) q.1) t.sp }) t.uid
        (mine.map fun q => .spad (va.toNat + q.2)))
    else .bad 5 2 va
  | .g =>
    if (List.range n).any fun i => (bufOf t (va + BitVec.ofNat 64 i).toNat).isNone then .bad 5 4 va
    else match translateEngine d (c.engine 0) t true va n with
      | (.fault r _, _) => .bad 1 r va
      | (.wait _, d) => .wait d
      | (.parts ps, d) =>
        if ps.any fun p => isHost p.phys then .bad 5 3 va
        else
          let places := ps.flatMap fun p => p.places c.core false
          toShadow d t va (mine.map fun q => {
            cmd := c.id
            obj := (bufOf t (va + BitVec.ofNat 64 q.2).toNat).getD 0
            addr := match (places.getD q.2 (.lit 0, 0)).1 with
              | .phys a => a
              | _ => 0
            kind := (places.getD q.2 (.lit 0, 0)).2
            va := va + BitVec.ofNat 64 q.2
            byte := q.1 })
  | .pl => match handleOf t (c.dstA.toNat % 8) with
    | none => .bad 5 2 va
    | some h =>
      let o := (c.dstA.toNat / 8 : Int) + off
      if 0 ≤ o ∧ o + n ≤ h.range.2 then
        toShadow d t va (mine.map fun q => ⟨c.id, 8 + c.dstA.toNat % 8, h.range.1 + o.toNat + q.2, 0, va, q.1⟩)
      else .bad 5 2 va
  | .ta =>
    let ta := c.dstA.toNat % 16
    let o := (c.dstA.toNat / 16 : Int) + off
    if 0 ≤ o ∧ o + n ≤ 4096 then
      toShadow d t va (mine.map fun q => ⟨c.id, 16 + ta, tileAt ta + o.toNat + q.2, 0, va, q.1⟩)
    else .bad 5 2 va

/-! ### Moving elements -/

/-- Where the parts of an element lie. -/
def findParts (c : Cmd) (t : Team) : List (Int × Nat) → Dev → TRes (List (Word × List (Place × Nat)))
  | [], d => .ok [] d
  | p :: ps, d => match engineFind d (c.engine 0) t c.src c.srcA p.1 p.2 with
    | .bad k r va => .bad k r va
    | .wait d => .wait d
    | .ok q d => match findParts c t ps d with
      | .ok rest d => .ok (q :: rest) d
      | r => r

/-- Read the parts of an element, which are taken whole (R196). -/
def readParts (c : Cmd) (t : Team) (back : Nat) (ps : List (Int × Nat)) (d : Dev) : TRes (List (List Byte)) :=
  match findParts c t ps d with
  | .bad k r va => .bad k r va
  | .wait d => .wait d
  | .ok qs d => .ok (engineTake d (c.engine back) t qs) d

/-- Write the parts of the element of a position. -/
def writeParts (c : Cmd) (pos : Nat) : List ((Int × Nat) × List Byte) → Dev → TRes Unit
  | [], d => .ok () d
  | p :: ps, d => match d.team? c.team with
    | none => .ok () d
    | some t => match engineWrite d c t pos p.1.1 p.2 with
      | .bad k r va => .bad k r va
      | .wait d => .wait d
      | .ok () d => writeParts c pos ps d

/-- The index of a `gth` or `sct` at a position (R214). -/
def readIdx (d : Dev) (c : Cmd) (t : Team) (p back : Nat) : TRes Nat :=
  match c.op with
  | .cpy => .ok 0 d
  | _ => match engineRead d { c.engine back with index := true } t c.src c.idxA (4 * c.row p) 4 with
    | .bad k r va => .bad k r va
    | .wait d => .wait d
    | .ok bs d => .ok (leNat bs) d

/-- Source and destination elements at a position with its index (R214). -/
def Cmd.elements (c : Cmd) (p idx : Nat) : Int × Int :=
  match c.op with
  | .cpy => (c.strided p, p)
  | .gth => (c.indexed p idx, p)
  | .sct => (p, c.indexed p idx)

/-- MOVE ONE ELEMENT: index, source, then destination; a fault leaves nothing of it written. Answers the parts written. `back` says how many
writes ago the index and the source element are asked for. -/
def moveElem (d : Dev) (c : Cmd) (p : Nat) (back : Nat → Nat) : TRes (List (Int × Nat)) :=
  match d.team? c.team with
  | none => .ok [] d
  | some t => match readIdx d c t p (back 0) with
    | .bad k r va => .bad k r va
    | .wait d => .wait d
    | .ok idx d =>
      let e := c.elements p idx
      match readParts c t (back 1) (elemParts c.fmt c.blk c.sOff e.1) d with
      | .bad k r va => .bad k r va
      | .wait d => .wait d
      | .ok bss d =>
        let dest := elemParts c.fmt c.blk c.dOff e.2
        match writeParts c p (dest.zip bss) d with
        | .bad k r va => .bad k r va
        | .wait d => .wait d
        | .ok () d => .ok dest d

/-- A command that has moved the element of a position: its progress passes every position moved. -/
def Cmd.stepped (c : Cmd) (p : Nat) (dest : List (Int × Nat)) : Cmd :=
  let c := if p = c.prog then
      let n := (List.range c.done.length).foldl (fun n _ => if c.done.any fun q => q.1 == n then n + 1 else n) (p + 1)
      { c with prog := n, done := c.done.filter fun q => decide (n < q.1) }
    else { c with done := (p, dest) :: c.done }
  { c with pos := p, state := if c.total ≤ c.prog then .moved else .moving }

/-- The position a command moves next: a free value among those not moved yet (R215: elements move in any order; assumption 41). -/
def Cmd.next (c : Cmd) : Nat :=
  if c.total ≤ c.prog + 1 then c.prog
  else
    let p := c.prog + Config.ahead c.id (c.prog + c.done.length) % (c.total - c.prog)
    if c.done.any fun q => q.1 == p then c.prog else p

/-- ONE STEP OF A COMMAND: it moves the element of a position, and has moved when none is left. What other agents store between two steps is seen
from there on (R196). DESIGN CHOICE (assumption 41): one element a step. -/
def moveStep (d : Dev) (c : Cmd) (p : Nat) (back : Nat → Nat) : Dev × Cmd :=
  match moveElem d c p back with
    | .ok dest d => (d, c.stepped p dest)
    | .bad kind r va => (d, { c with state := .faulted kind r va, pos := p })
    | .wait d => (d, { c with state := .moving })

/-- Replace a command. -/
def Dev.setCmd (d : Dev) (c : Cmd) : Dev := { d with cmds := d.cmds.map fun b => if b.id == c.id then c else b }

/-- The next command of a core to move: one resumed or stalled, otherwise the first queued (R215, R220). -/
def nextCmd (d : Dev) (core : Nat) : Option Cmd :=
  match d.cmds.find? fun c => c.core == core && c.state == .moving with
  | some c => some c
  | none => d.cmds.find? fun c => c.core == core && c.state == .queued

/-- Whether a command may start: what its threads ordered before it has performed, and the earlier commands of its fibre that write the same
shadowed space have moved, so that their common bytes land in issue order (R196, R215). -/
def cmdMayStart (d : Dev) (c : Cmd) : Bool :=
  (c.after.all fun i => !d.pending i) &&
  (c.dst == .sp || d.cmds.all fun b =>
    !(b.core == c.core && b.fib == c.fib && b.dst == c.dst && decide (b.id < c.id)) || b.state == .moved)

/-- TROWEL_COMMAND_START (R215): the next command moves one of its elements, unless it faults or waits for a page that is being zeroed. Its index
and parts read as they stand, or as they stood some writes ago, where R187 lets them (assumption 70). -/
def execTrowelCommandStart (core : Nat) (s : State) : Host.Outcome State Fault Refusal :=
  onDev s fun s => match nextCmd s.dev core with
    | none => s.dev
    | some c =>
      if cmdMayStart s.dev c then
        let r := moveStep s.dev c c.next fun k => Config.older c.id (4 * c.next + k)
        r.1.setCmd r.2
      else s.dev

/-- A command's completion arrival lands on its barrier; without a barrier its team remembers it (R197, R215, R224). -/
def landCmd (d : Dev) (c : Cmd) : Dev :=
  match d.team? c.team, c.bar with
  | none, _ => d
  | some t, none => d.setTeam { t with freeCmds := c.id :: t.freeCmds }
  | some t, some b =>
    let v := t.bar b
    checkPhase (setBar d c.team b { v with landed := v.landed + 1, openKnow := dedupNat (v.openKnow ++ soleEv c.id :: c.know) }) c.team b

/-- COMPLETION_ARRIVAL (R215): a command whose writes have all performed completes. -/
def execCompletionArrival (cmd : Nat) (s : State) : Host.Outcome State Fault Refusal :=
  onDev s fun s => match s.dev.cmds.find? fun c => c.id == cmd && c.state == .moved with
    | none => s.dev
    | some c => landCmd { s.dev with cmds := s.dev.cmds.filter fun b => b.id != cmd } c

/-- Record of an engine's fault (R304). -/
def engineRecord (now : Word) (src kind reason ctx : Nat) (pc detail second lid : Word) (team first token : Nat) : FRecord :=
  { ws := [recWord0 kind src reason 0 ctx, now, pc, detail, 0, second, lid,
      BitVec.ofNat 64 (team % 2 ^ 32 + 2 ^ 32 * (first % 4096) + 2 ^ 44 * token)]
    after := []
    know := []
    team := 0
    core := 0
    batch := none
    word := none }

/-- COMMAND_FAULT (R220): the command is suspended at the element and its record goes to the fault queue. -/
def execCommandFault (cmd : Nat) (s : State) : Host.Outcome State Fault Refusal :=
  onDev s fun s => match s.dev.cmds.find? fun c => c.id == cmd with
    | none => s.dev
    | some c => match c.state with
      | .faulted k r va =>
        oweRecord (s.dev.setCmd { c with state := .suspended }) c.ctx
          (engineRecord s.clk.now 1 k r c.ctx c.pc va (BitVec.ofNat 64 c.pos) c.lid c.teamIdx c.first
            (engineToken c.core c.entry false)) false
      | _ => s.dev

/-! ### Issue of a command -/

/-- R213: an address that names a handle that is not live or a tile the team lacks. -/
def spaceFault (x : Iss) (t : Team) (spc : TSpace) (a : Word) : Option Res :=
  match spc with
  | .pl => if (handleOf t (a.toNat % 8)).isNone then some (x.pre 5 2 a x.act) else none
  | .ta => if 4 * t.hdr.tiles ≤ a.toNat % 16 then some (x.pre 3 0 0 x.act) else none
  | _ => none

/-- The lowest entry number of a core's queue that no command holds (R304). -/
def freeEntry (used : List Nat) : Nat := ((List.range 16).find? fun e => !used.contains e).getD 0

/-- What an engine's accesses must follow: what the issuing threads' acquires and fences hold their later accesses behind (R196). -/
def engineAfter (d : Dev) (fib : Nat) (m : LaneMask) : List Nat :=
  dedupNat ((d.holds.filter fun h => h.fib == fib && m.has h.lane && !h.relOnly && !h.storesOnly).flatMap Hold.ids)

/-- What an engine's writes must follow besides: what the issuing threads' release fences hold their later stores behind (R175, R196). -/
def engineAfterW (d : Dev) (fib : Nat) (m : LaneMask) : List Nat :=
  dedupNat ((d.holds.filter fun h => h.fib == fib && m.has h.lane && h.storesOnly).flatMap Hold.ids)

/-- The events the active threads know. -/
def knownTo (f : Fibre) (m : LaneMask) : List Nat := dedupNat (m.lanes.flatMap fun L => (f.thread L).know)

/-- What stands before the active threads' next accesses of the other kinds. -/
def besidesOf (f : Fibre) (m : LaneMask) : Besides :=
  let all := fun (uo host : Bool) => dedupNat (m.lanes.flatMap fun L => (f.thread L).viewOf uo host)
  ⟨all true false, all false true, all true true⟩

/-- `cpy`, `gth` and `sct` (R213, R215): the command enters the queue and joins its barrier's open phase. -/
def trowelBody (op : CmdOp) (o : TrowelOp) : Body := ifActive fun x d =>
  let f := x.fib d
  let t := x.team d
  let a := o.a.toNat
  let n := if op = .cpy then 2 else 3
  match groupU d f a n, resolveShape d f o.pb with
  | true, some sh =>
    let dstA := regLane d f a 0
    let srcA := regLane d f (a + 1) 0
    let idxA := if op = .cpy then 0 else regLane d f (a + 2) 0
    match spaceFault x t o.dst dstA, spaceFault x t o.src srcA, if op = .cpy then none else spaceFault x t o.src idxA with
    | some r, _, _ => some r
    | none, some r, _ => some r
    | none, none, some r => some r
    | none, none, none =>
      let c : Cmd :=
        { id := d.nextId, core := f.core, entry := freeEntry ((d.cmds.filter fun c => c.core == f.core).map Cmd.entry),
          team := t.uid, ctx := f.ctx, fib := f.uid, lid := t.lid, teamIdx := laneTeam f t ((lowestLane x.act).getD 0),
          first := (f.thread 0).logical, pc := x.c.pc, op := op, dst := o.dst, src := o.src, bar := o.bar.map BitVec.toNat,
          dstA := dstA, srcA := srcA, idxA := idxA, ext := sh.ext, str := sh.str,
          fmt := sh.fmt, blk := sh.blk, sOff := sh.sOff, dOff := sh.dOff, after := engineAfter d f.uid x.act,
          afterW := engineAfterW d f.uid x.act, lanes := x.act, prog := 0, done := [], pos := 0,
          state := .queued, know := knownTo f x.act, besides := besidesOf f x.act, buf := taskBuf f x.act }
      let d := { d with nextId := d.nextId + 1 }
      let d := match c.bar with
        | none => d
        | some b =>
          let v := t.bar b
          (setBar d t.uid b { v with joined := v.joined + 1 }).setFibre
            (f.onLanes x.act fun _ u => { u with recd := setBit u.recd b })
      some (.done (if c.total = 0 then landCmd d c else { d with cmds := d.cmds ++ [c] }))
  | _, _ => some x.illegal

/-- `cpy` (R214). -/
def execCpy (h : Hdr) (o : TrowelOp) (s : State) : Host.Outcome State Fault Refusal := issueOn (.cpy h o) h s (trowelBody .cpy o)

/-- `gth` (R214). -/
def execGth (h : Hdr) (o : TrowelOp) (s : State) : Host.Outcome State Fault Refusal := issueOn (.gth h o) h s (trowelBody .gth o)

/-- `sct` (R214). -/
def execSct (h : Hdr) (o : TrowelOp) (s : State) : Host.Outcome State Fault Refusal := issueOn (.sct h o) h s (trowelBody .sct o)

/-! ### Publication (R197, R217 to R219) -/

/-- R247: the active threads' tasks become non-retryable. -/
def noRetry (d : Dev) (uid : Nat) (m : LaneMask) : Dev :=
  match d.fibre? uid with
  | none => d
  | some f => d.setFibre (f.onLanes m fun _ t => match t.task with
    | some k => { t with task := some { k with retryable := false } }
    | none => t)

/-- Flip the Pallet and tile bytes, oldest first (R219); a tile byte outside the live mask makes the mask invalid (R221). -/
def flipCore (t : Team) : List ShadowByte → Team
  | [] => t
  | s :: ss =>
    let t := flipCore t ss
    if s.obj < 16 then { t with pallet := memWrite t.pallet s.addr s.byte }
    else touchTile { t with tile := memWrite t.tile s.addr s.byte } (s.obj - 16)

/-- The newest of the covered `.g` bytes at each address. -/
def newest : List ShadowByte → List ShadowByte
  | [] => []
  | s :: ss => s :: (newest ss).filter fun u => u.addr != s.addr

/-- Send the flip of the `.g` bytes that lie in one Quarter: a release of every earlier access of the active threads, and of what their
acquires have named; every active thread's later releases follow it (R174, R197). -/
def sendFlip (x : Iss) (sc : Scope) (know : List Nat) (gs : List ShadowByte) (d : Dev) (q : Nat) : Dev :=
  let here := sortBy ShadowByte.addr (gs.filter fun s => s.addr / 2 ^ 38 == q)
  match here with
  | [] => d
  | s :: _ =>
    let low := (lowestLane x.act).getD 0
    let acc : LaneAcc :=
      { lane := low, va := s.va, places := here.map fun s => .phys s.addr, kinds := here.map ShadowByte.kind,
        data := here.map ShadowByte.byte, ops := [], hands := [⟨sc, true, know⟩], view := know }
    let before := dedupNat (((d.flights.filter fun g => g.fib == x.f.uid && g.isMem && g.acc.any fun a => a.hits acc).map Flight.id) ++
      x.lanes.flatMap (releaseAfter d x.f.uid))
    let id := d.nextId
    let d := addFlight d { mkFlight x (.flip q) [acc] [] none with ord := .rel, sc := sc, after := before, through := true }
    let others := (x.lanes.filter (· != low)).map fun L => { Hold.on x.f.uid L [id] sc with relOnly := true }
    { d with holds := d.holds ++ others }.setFibre ((x.fib d).onLanes x.act fun _ t => t.noted false false false [writeEv id low])

/-- What `pub` does to UO copies: the core's dirty bytes go home, stores of the active threads in flight go through to theirs, and the
core's copies of the lines to be flipped are dropped (R197). -/
def pubUo (x : Iss) (gs : List ShadowByte) (d : Dev) : Dev :=
  let d := uoClean d (· == x.f.core)
  { d with
    flights := d.flights.map fun g => if g.fib == x.f.uid && g.acc.any (fun a => x.act.has a.lane) then { g with through := true } else g
    uo := d.uo.filter fun u => !(u.core == x.f.core && gs.any fun s => s.addr / 64 == u.addr / 64) }

/-- `pub` (R197, R219). A flip into the Pallet or a tile waits until the active threads' accesses have performed and the tile's earlier
operations are complete. -/
def pubBody (sc : Scope) (a : Src) : Body := ifActive fun x d =>
  let f := x.fib d
  let t := x.team d
  let mask := srcZ d f x.t ((lowestLane x.act).getD 0) a
  if !srcU d f a || field mask 32 32 != 0 then some x.illegal
  else
    let know := dedupNat (x.lanes.flatMap fun L => (f.thread L).reached true sc)
    let seen := reach d.before false (knownTo f x.act)
    let covered := t.shadow.filter fun s => mask.getLsbD s.obj && (seen.contains (soleEv s.cmd) || t.freeCmds.contains s.cmd)
    let core := covered.filter fun s => decide (8 ≤ s.obj)
    let early := x.lanes.any fun L => !(liveIds d (releaseAfter d f.uid L)).isEmpty
    let gs := newest (covered.filter fun s => decide (s.obj < 8))
    if !core.isEmpty && (early || core.any fun s => decide (16 ≤ s.obj) && tileBusy d t (s.obj - 16)) then none
    else
      let t := flipCore { t with shadow := t.shadow.filter fun s => !covered.contains s } core
      let d := noRetry (d.setTeam t) f.uid x.act
      some (.done ((List.range 4).foldl (sendFlip x sc know gs) (pubUo x gs d)))

/-- `pub` (R219). -/
def execPub (h : Hdr) (sc : Scope) (a : Src) (s : State) : Host.Outcome State Fault Refusal :=
  issueOn (.pub h sc a) h s (pubBody sc a)

/-- Whether a new buffer may be registered as buffer `k` (R218). -/
def bufFree (t : Team) (k : Nat) (b n : Nat) : Bool :=
  (t.bufs.getD k none).isNone && t.bufs.all fun o => match o with
    | some (c, m) => decide (b + n ≤ c.toNat ∨ c.toNat + m ≤ b)
    | none => true

/-- `pub.reg` (R218). -/
def execPubReg (h : Hdr) (d : PredIdx) (a : Reg) (k : BitVec 3) (s : State) : Host.Outcome State Fault Refusal :=
  issueOn (.pubReg h d a k) h s (ifActive fun x dv =>
    let f := x.fib dv
    let t := x.team dv
    let b := regLane dv f a.toNat 0
    let n := (regLane dv f (a.toNat + 1) 0).toNat
    if !groupU dv f a.toNat 2 || b.toNat % 64 != 0 || n % 64 != 0 || decide (n < 64) || decide (2 ^ 26 < n) then some x.illegal
    else
      let ok := bufFree t k.toNat b.toNat n
      let dv := if ok then dv.setTeam { t with bufs := setAt t.bufs k.toNat (some (b, n)) } else dv
      some (.done (sendPred x (noRetry dv f.uid x.act) d fun _ => ok)))

/-- `pub.unreg` (R218). -/
def execPubUnreg (h : Hdr) (k : BitVec 3) (s : State) : Host.Outcome State Fault Refusal :=
  issueOn (.pubUnreg h k) h s (ifActive fun x dv =>
    let t := x.team dv
    let t := { t with bufs := setAt t.bufs k.toNat none, shadow := t.shadow.filter fun s => s.obj != k.toNat }
    some (.done (noRetry (dv.setTeam t) x.f.uid x.act)))

/-- FLIP_PERFORM (R197): the flip performs at one home, writing every covered byte at once. -/
def execFlipPerform (id quarter : Nat) (s : State) : Host.Outcome State Fault Refusal :=
  onDev s fun s => match s.dev.flights.find? fun g => g.id == id && g.kind == .flip quarter with
    | some g => if mayPerform s.dev g then perform s.clk.now [] s.dev g else s.dev
    | none => s.dev

end Sys2Proof.Machine
end

