-- ==== Sys2Proof/Machine/Access.lean ====
section
/-!
DEFINITION. The checks of a memory instruction (R166), its faults lane by lane (R167), watchpoints (R181, R306), and the buffered stores
of a task (R198, R247).
-/

namespace Sys2Proof.Machine

/-- What a memory instruction asks of every lane's access: bytes, whether it writes, alignment (1: any), whether a host page may serve
it, whether it writes every copy of a replicated page, and the watchpoint bit it meets (8 loads, 9 stores and atomics). -/
structure Ask where
  n : Nat
  write : Bool
  align : Nat
  hostOk : Bool
  mc : Bool
  watch : Nat
  deriving DecidableEq, Repr

/-- The outcome of R166 for one lane. -/
inductive Chk where
  | ok (ps : List (Place × Nat))
  | bad (kind reason : Nat)
  | wait (entryAt : Nat)
  deriving DecidableEq, Repr

/-- CHECK ONE LANE'S ACCESS (R166). -/
def checkLane (d : Dev) (f : Fibre) (t : Team) (spc : Space) (k : Ask) (va : Word) : Chk × Dev :=
  if va.toNat % k.align ≠ 0 then (.bad 5 1, d)
  else match spc with
    | .g => match translateAll f.core f.ctx ⟨k.write, false⟩ (k.n / 65536 + 2) d va k.n with
      | (.fault r _, d) => (.bad 1 r, d)
      | (.wait e, d) => (.wait e, d)
      | (.parts ps, d) =>
        if !k.hostOk && ps.any fun p => isHost p.phys then (.bad 5 3, d)
        else (.ok (ps.flatMap fun p => p.places f.core k.mc), d)
    | .sp =>
      if va.toNat + k.n ≤ spBytes t then (.ok ((List.range k.n).map fun i => (.spad (va.toNat + i), 0)), d) else (.bad 5 2, d)
    | .stk =>
      if va.toNat < f.stklim.toNat ∨ t.hdr.stack < va.toNat + k.n then (.bad 4 0, d) else (.ok [], d)

/-- A lane with its address and what the check found. -/
structure LaneChk where
  lane : Nat
  va : Word
  chk : Chk
  deriving DecidableEq, Repr

/-- Check the accesses of lanes in order. -/
def checkLanes (f : Fibre) (t : Team) (spc : Space) (k : Nat → Ask) (addr : Nat → Word) : List Nat → Dev → List LaneChk × Dev
  | [], d => ([], d)
  | L :: ls, d =>
    let r := checkLane d f t spc (k L) (addr L)
    let rest := checkLanes f t spc k addr ls r.2
    (⟨L, addr L, r.1⟩ :: rest.1, rest.2)

/-- A lane that passes R166: its address and byte places. -/
structure Good where
  lane : Nat
  va : Word
  ps : List (Place × Nat)
  deriving DecidableEq, Repr

/-- The lanes that pass. -/
def goodOf (cs : List LaneChk) : List Good := cs.filterMap fun c => match c.chk with
  | .ok ps => some ⟨c.lane, c.va, ps⟩
  | _ => none

/-- The faults of the lanes that fail: each with the address that lane used (R167, R304). -/
def badOf (cs : List LaneChk) : List LaneFault := cs.filterMap fun c => match c.chk with
  | .bad k r => some ⟨c.lane, k, r, c.va⟩
  | _ => none

/-- The first entry a lane waits for. -/
def waitOf (cs : List LaneChk) : Option Nat := cs.findSome? fun c => match c.chk with
  | .wait e => some e
  | _ => none

/-- Whether watchpoint `n` of a context hits an access of `len` bytes at `va` (R306). -/
def watchHit (c : Ctx) (bit' : Nat) (va : Word) (len n : Nat) : Bool :=
  let ctl := c.wctl.getD n 0
  let k := field ctl 0 5
  ctl.getLsbD bit' && (List.range len).any fun i => (va + BitVec.ofNat 64 i).toNat / 2 ^ k == (c.waddr.getD n 0).toNat / 2 ^ k

/-- The lanes of the passing accesses that a watchpoint hits. -/
def watchLanes (d : Dev) (ctx : Nat) (spc : Space) (k : Nat → Ask) (gs : List Good) : LaneMask :=
  if spc != .g then 0
  else LaneMask.ofLanes ((gs.filter fun g => (List.range 4).any fun n => watchHit (d.ctx ctx) (k g.lane).watch g.va (k g.lane).n n).map Good.lane)

/-- The lanes of the path wait for the zeroing of an entry, at the instruction (R153). -/
def waitZero (x : Iss) (d : Dev) (entryAt : Nat) : Dev :=
  (d.walkWait ⟨x.f.core, 0, x.f.uid⟩ entryAt).setFibre ((x.fib d).onLanes x.c.lanes fun _ t => { t with wait := .zero entryAt })

/-- A MEMORY INSTRUCTION: every lane is checked before any performs; a lane on a page that is being zeroed holds the instruction; the
passing lanes perform through `go`; the others fault and stay at the instruction, with the lanes of `also` (R153, R166, R167, R181). -/
def memoryBy (x : Iss) (d : Dev) (spc : Space) (k : Nat → Ask) (ls : List Nat) (addr : Nat → Word) (also : LaneMask)
    (go : Dev → List Good → Option Dev) : Option Res :=
  let w := checkLanes x.f x.t spc k addr ls x.s.dev
  match waitOf w.1 with
  | some e => some (.done (waitZero x w.2 e))
  | none =>
    let r := checkLanes x.f x.t spc k addr ls d
    let gs := goodOf r.1
    let bad := badOf r.1
    match go r.2 gs with
    | none => none
    | some d' =>
      let hits := watchLanes d' x.f.ctx spc k gs
      if !bad.isEmpty then
        some (.each (d'.setFibre (keepPc x (faultLanes bad ||| also) (x.fib d'))) bad hits)
      else if hits ≠ 0 then some (.trap d' { kind := 11, reason := 0, detail := 0, lanes := x.act, second := hits })
      else some (.done d')

/-- A memory instruction that asks the same of every lane. -/
def memory (x : Iss) (d : Dev) (spc : Space) (k : Ask) (ls : List Nat) (addr : Nat → Word) (go : Dev → List Good → Option Dev) :
    Option Res := memoryBy x d spc (fun _ => k) ls addr 0 go

/-- The lanes that pass the checks of a memory instruction (R166). -/
def passing (x : Iss) (d : Dev) (spc : Space) (k : Nat → Ask) (ls : List Nat) (addr : Nat → Word) : LaneMask :=
  LaneMask.ofLanes ((goodOf (checkLanes x.f x.t spc k addr ls d).1).map Good.lane)

/-- A passing lane's access. -/
def Good.acc (g : Good) (data : List Byte) (ops : List Word) : LaneAcc :=
  { lane := g.lane, va := g.va, places := g.ps.map Prod.fst, kinds := g.ps.map Prod.snd, data := data, ops := ops, hands := [], view := [] }

/-- Whether a passing access meets a direct Trowel command in flight (R216). -/
def Good.busy (d : Dev) (t : Team) (g : Good) : Bool :=
  match g.ps with
  | (.spad a, _) :: _ => spBusy d t a g.ps.length
  | _ => false

/-! ### A task's buffer (R198, R247) -/

/-- A `.g` access of a lane as its task reads it: bytes its own buffer holds are fixed at issue. -/
def forward (f : Fibre) (a : LaneAcc) : LaneAcc :=
  match (f.thread a.lane).task with
  | none => a
  | some k => if k.buf.isEmpty then a else { a with places := a.places.map (bufPlace k.buf (quarterOf f.core)) }

/-- Aligned 8-byte parts that stores touch. -/
def bufParts (as : List LaneAcc) : Nat :=
  (dedupNat (as.flatMap fun a => (List.range a.places.length).map fun i => (a.va + BitVec.ofNat 64 i).toNat / 8)).length

/-- A lane's `.g` store in a task: buffered, or, when it does not fit, after the buffer's commit (R247). Answers whether it is still to
be sent. -/
def bufStore (d : Dev) (fib : Nat) (a : LaneAcc) : Bool × Dev :=
  match d.fibre? fib with
  | none => (true, d)
  | some f => match (f.thread a.lane).task with
    | none => (true, d)
    | some k =>
      let m := LaneMask.ofLanes [a.lane]
      if !k.buffering then (true, d)
      else if 8 * bufParts (k.buf ++ [a]) ≤ 2048 then
        (false, d.setFibre (f.onLanes m fun _ t => { t with task := some { k with buf := k.buf ++ [a] } }))
      else (true, noRetry (commitBuf d f a.lane false) fib m)

/-- Commit what the tasks of some of the path's threads buffer, before an instruction that hands their stores on at once; those tasks are
then no longer retried, and go on buffering (assumption 61). -/
def commitTasks (x : Iss) (m : LaneMask) (d : Dev) : Dev := m.lanes.foldl (fun d L => match ((x.fib d).thread L).task with
  | some k => if k.buf.isEmpty then d else noRetry (commitBuf d (x.fib d) L true) x.f.uid (LaneMask.ofLanes [L])
  | none => d) d

/-- Buffer the stores of task threads; answers those to send. -/
def bufStores (fib : Nat) : List LaneAcc → Dev → List LaneAcc × Dev
  | [], d => ([], d)
  | a :: as, d =>
    let r := bufStore d fib a
    let rest := bufStores fib as r.2
    (if r.1 then a :: rest.1 else rest.1, rest.2)

/-! ### Sending -/

/-- Read bytes of a thread's own stack. -/
def stkBytes (f : Fibre) (g : Good) (n : Nat) : List Byte := memBytes (f.thread g.lane).stack g.va.toNat n

/-- Send loads: `.stk` bytes and buffered bytes are fixed at issue. -/
def sendLoads (x : Iss) (d : Dev) (spc : Space) (n : Nat) (kind : FKind) (ord : MOrd) (sc : Scope) (dst : List Nat) (gs : List Good) :
    Option Dev :=
  let f := x.fib d
  if gs.any (Good.busy d x.t) then none
  else
    let acc := gs.map fun g => match spc with
      | .stk => { g.acc [] [] with places := (stkBytes f g n).map .lit, kinds := List.replicate n 0 }
      | .g => forward f (g.acc [] [])
      | .sp => g.acc [] []
    some (sendLoad x d kind ord sc dst acc)

/-- Send stores: `.stk` bytes are written at once, a task's `.g` stores go to its buffer. -/
def sendStores (x : Iss) (d : Dev) (spc : Space) (ord : MOrd) (sc : Scope) (gs : List Good) (data : Nat → List Byte) : Option Dev :=
  if gs.any (Good.busy d x.t) then none
  else match spc with
    | .stk => some (gs.foldl (fun d g => d.setFibre ((x.fib d).onLanes (LaneMask.ofLanes [g.lane]) fun _ t =>
        { t with stack := memPut t.stack g.va.toNat (data g.lane) })) d)
    | _ =>
      let acc := gs.map fun g => g.acc (data g.lane) []
      let r := if spc = .g then bufStores x.f.uid acc d else (acc, d)
      some (sendStore x r.2 ord sc r.1)

end Sys2Proof.Machine
end

