-- ==== Sys2Proof/Machine/Memory.lean ====
section
/-!
DEFINITION. Loads, stores, atomics, fences, waiting on an address, prefetch, and the report and invalidation of translations (R161 to
R181).
-/

namespace Sys2Proof.Machine

/-- The registers of a group. -/
def regGroup (r : Reg) (n : Nat) : List Nat := (List.range n).map fun k => r.toNat + k

/-- The first `n` bytes of a lane's register group. -/
def regBytes (d : Dev) (f : Fibre) (r : Reg) (regs n L : Nat) : List Byte :=
  ((regGroup r regs).flatMap fun i => wordLE (regLane d f i L)).take n

/-- The lanes of the issue in logical order. -/
def Iss.order (x : Iss) (d : Dev) : List Nat := logicalOrder (x.fib d) x.lanes

/-! ### Loads and stores (R169) -/

/-- `ld` (R169). -/
def execLd (h : Hdr) (o : MemOp) (s : State) : Host.Outcome State Fault Refusal :=
  issueOn (.ld h o) h s (ifActive fun x d =>
    let n := sizeBytes o.t o.size
    memory x d o.sp ⟨n, false, 1, true, false, 8⟩ (x.order d) (addrLane d (x.fib d) o.addr) fun d gs =>
      sendLoads x d o.sp n (.load o.t o.size) o.ord o.sc (regGroup o.d (sizeRegs o.size)) gs)

/-- The body of `st` and `st.mc` (R169). -/
def storeBody (mc : Bool) (o : MemOp) : Body := ifActive fun x d =>
  let n := sizeBytes o.t o.size
  memory x d o.sp ⟨n, true, 1, true, mc, 9⟩ (x.order d) (addrLane d (x.fib d) o.addr) fun d gs =>
    sendStores x d o.sp o.ord o.sc gs (regBytes d (x.fib d) o.d (sizeRegs o.size) n)

/-- `st` (R169). -/
def execSt (h : Hdr) (o : MemOp) (s : State) : Host.Outcome State Fault Refusal := issueOn (.st h o) h s (storeBody false o)

/-- `st.mc` (R156, R169). -/
def execStMc (h : Hdr) (o : MemOp) (s : State) : Host.Outcome State Fault Refusal := issueOn (.stMc h o) h s (storeBody true o)

/-! ### Atomics (R170 to R172) -/

/-- Whether a host page can serve an atomic: `add` and `exch` on integers (R166). -/
def atomHost (op : AOp) (t : ATy) : Bool :=
  (op == .add || op == .exch) && match t with
    | .f32 | .f64 => false
    | _ => true

/-- Send the read-modify-writes of the passing lanes, with the operand each takes from its registers; a task is no longer retried. -/
def sendAtoms (x : Iss) (d : Dev) (kind : FKind) (ord : MOrd) (sc : Scope) (dst : List Nat) (gs : List Good) (data : Nat → List Byte)
    (ops : Nat → List Word) : Option Dev :=
  if gs.any (Good.busy d x.t) then none
  else
    let d := noRetry d x.f.uid (LaneMask.ofLanes (gs.map Good.lane))
    some (sendAccess x d kind ord sc dst (gs.map fun g => g.acc (data g.lane) (ops g.lane)))

/-- The body of `atom` and `red`. -/
def atomBody (op : AOp) (ret : Bool) (o : AtomOp) : Body := ifActive fun x d =>
  let n := (atyN o.t).width / 8
  memory x d o.sp ⟨n, true, n, atomHost op o.t, false, 9⟩ (x.order d) (addrLane d (x.fib d) o.addr) fun d gs =>
    sendAtoms x d (if ret then .atom op o.t o.ftz else .red op o.t o.ftz) o.ord o.sc (if ret then [o.d.toNat] else []) gs
      (regBytes d (x.fib d) o.d 1 n) fun _ => []

/-- `atom.add` (R170, R171). -/
def execAtomAdd (h : Hdr) (o : AtomOp) (s : State) : Host.Outcome State Fault Refusal := issueOn (.atomAdd h o) h s (atomBody .add true o)

/-- `atom.min` (R170, R171). -/
def execAtomMin (h : Hdr) (o : AtomOp) (s : State) : Host.Outcome State Fault Refusal := issueOn (.atomMin h o) h s (atomBody .min true o)

/-- `atom.max` (R170, R171). -/
def execAtomMax (h : Hdr) (o : AtomOp) (s : State) : Host.Outcome State Fault Refusal := issueOn (.atomMax h o) h s (atomBody .max true o)

/-- `atom.exch` (R170, R171). -/
def execAtomExch (h : Hdr) (o : AtomOp) (s : State) : Host.Outcome State Fault Refusal :=
  issueOn (.atomExch h o) h s (atomBody .exch true o)

/-- `atom.and` (R170, R171). -/
def execAtomAnd (h : Hdr) (o : AtomOp) (s : State) : Host.Outcome State Fault Refusal := issueOn (.atomAnd h o) h s (atomBody .and true o)

/-- `atom.or` (R170, R171). -/
def execAtomOr (h : Hdr) (o : AtomOp) (s : State) : Host.Outcome State Fault Refusal := issueOn (.atomOr h o) h s (atomBody .or true o)

/-- `atom.xor` (R170, R171). -/
def execAtomXor (h : Hdr) (o : AtomOp) (s : State) : Host.Outcome State Fault Refusal := issueOn (.atomXor h o) h s (atomBody .xor true o)

/-- `red.add` (R170, R171). -/
def execRedAdd (h : Hdr) (o : AtomOp) (s : State) : Host.Outcome State Fault Refusal := issueOn (.redAdd h o) h s (atomBody .add false o)

/-- `red.min` (R170, R171). -/
def execRedMin (h : Hdr) (o : AtomOp) (s : State) : Host.Outcome State Fault Refusal := issueOn (.redMin h o) h s (atomBody .min false o)

/-- `red.max` (R170, R171). -/
def execRedMax (h : Hdr) (o : AtomOp) (s : State) : Host.Outcome State Fault Refusal := issueOn (.redMax h o) h s (atomBody .max false o)

/-- `red.and` (R170, R171). -/
def execRedAnd (h : Hdr) (o : AtomOp) (s : State) : Host.Outcome State Fault Refusal := issueOn (.redAnd h o) h s (atomBody .and false o)

/-- `red.or` (R170, R171). -/
def execRedOr (h : Hdr) (o : AtomOp) (s : State) : Host.Outcome State Fault Refusal := issueOn (.redOr h o) h s (atomBody .or false o)

/-- `red.xor` (R170, R171). -/
def execRedXor (h : Hdr) (o : AtomOp) (s : State) : Host.Outcome State Fault Refusal := issueOn (.redXor h o) h s (atomBody .xor false o)

/-- `cas` (R171): vD holds the value compared, vD+1 the value stored. -/
def execCas (h : Hdr) (spc : Space) (ord : MOrd) (sc : Scope) (t : CTy) (d : Reg) (addr : MAddr) (s : State) :
    Host.Outcome State Fault Refusal :=
  issueOn (.cas h spc ord sc t d addr) h s (ifActive fun x dv =>
    let n := (ctyN t).width / 8
    memory x dv spc ⟨n, true, n, true, false, 9⟩ (x.order dv) (addrLane dv (x.fib dv) addr) fun dv gs =>
      let f := x.fib dv
      sendAtoms x dv (.cas t) ord sc [d.toNat] gs (fun _ => List.replicate n 0) fun L =>
        [BitVec.ofNat 64 (sub (regLane dv f d.toNat L) (8 * n) 0), BitVec.ofNat 64 (sub (regLane dv f (d.toNat + 1) L) (8 * n) 0)])

/-! ### Fences (R175) -/

/-- The accesses in flight of one thread that satisfy a test. -/
def threadFlights (d : Dev) (fib L : Nat) (p : Flight → LaneAcc → Bool) : List Nat :=
  (d.flights.filter fun g => g.fib == fib && g.isMem && g.acc.any fun a => a.lane == L && p g a).map Flight.id

/-- Hold back a thread's later accesses until some accesses have performed; what the fence does then happens at once if none is left. -/
def holdFor (d : Dev) (h : Hold) : Dev := if h.ids.isEmpty then endHold d h else { d with holds := d.holds ++ [h] }

/-- WHAT A FENCE THAT ACQUIRES at a scope does (R175, R186): its event stands after the thread's earlier accesses that it reaches and before the
later ones; the thread's loads in flight and builds become acquires by it too, and what its loads have met at that scope is acquired, after a
`fence.uo` what UO loads have met too. Answers the event. -/
def fenceAcquire (d : Dev) (x : Iss) (L : Nat) (sc : Scope) (uo : Bool) (ids : List Nat) : Nat × Dev :=
  match d.fibre? x.f.uid with
  | none => (0, d)
  | some f =>
    let t := f.thread L
    let j := d.join (t.reached uo sc)
    let q : FenceAcq := ⟨L, j.1, sc, uo⟩
    let reads := ids ++ buildsOf d x.f.uid L
    let d := { j.2 with
      flights := j.2.flights.map fun g => if reads.contains g.id then { g with acqs := q :: g.acqs } else g
      builds := j.2.builds.map fun b => if reads.contains b.id then { b with acqs := q :: b.acqs } else b }
    let got := fun (ns : List RelNote) => ns.filter fun n => n.syncs x.t.uid x.f.core sc
    (j.1, (acquireNotes d j.1 (got t.seen ++ if uo then got t.seenUo else [])).setFibre (f.onLanes (LaneMask.ofLanes [L]) fun _ t =>
      { t.fenced uo sc j.1 with
        seen := t.seen.filter fun n => !(got t.seen).contains n
        seenUo := if uo then t.seenUo.filter fun n => !(got t.seenUo).contains n else t.seenUo
        metOrd := if wideScope [sc] then dedupNat (t.metOrd ++ t.met) else t.metOrd }))

/-- What a fence that releases at a scope gives the thread's later stores to hand on (R186). -/
def fenceRelease (d : Dev) (fib L : Nat) (sc : Scope) (uo : Bool) : Dev :=
  match d.fibre? fib with
  | none => d
  | some f => d.setFibre (f.onLanes (LaneMask.ofLanes [L]) fun _ t =>
      let know := dedupNat (t.reached uo sc)
      { t with know := know, rels := ⟨sc, uo, know⟩ :: t.rels.filter fun h => !(h.sc == sc && h.uo == uo) })

/-- Whether what stands under an identity is an access to host pages alone. -/
def hostOnly (d : Dev) (i : Nat) : Bool := d.flights.any fun g => g.id == i && g.isMem && g.acc.all LaneAcc.host

/-- What the thread's earlier acquires and fences hold its later accesses behind (R186), at a scope: accesses to host pages at `.sys` alone
(R155); `all`: what holds back its later stores alone too. -/
def heldIds (d : Dev) (fib L : Nat) (sc : Scope) (all : Bool) : List Nat :=
  ((d.holds.filter fun h => h.fib == fib && h.lane == L && !h.relOnly && (all || !h.storesOnly)).flatMap Hold.ids).filter fun i =>
    sc == .sys || !hostOnly d i

/-- The multicast stores a thread's reads have met (R174). -/
def relIds (d : Dev) (fib L : Nat) : List Nat := (d.holds.filter fun h => h.fib == fib && h.lane == L && h.relOnly).flatMap Hold.ids

/-- `fence.acq` for one thread. -/
def fenceAcqLane (x : Iss) (sc : Scope) (d : Dev) (L : Nat) : Dev :=
  let ids := threadFlights d x.f.uid L fun g a => g.kind.loads && a.ordered (sc == .sys)
  holdFor (fenceAcquire d x L sc false ids).2
    (Hold.on x.f.uid L (dedupNat (ids ++ buildsOf d x.f.uid L ++ heldIds d x.f.uid L sc false)) sc)

/-- `fence.rel` for one thread. -/
def fenceRelLane (x : Iss) (sc : Scope) (d : Dev) (L : Nat) : Dev :=
  let ids := threadFlights d x.f.uid L fun _ a => a.ordered (sc == .sys)
  holdFor (fenceRelease d x.f.uid L sc false)
    { Hold.on x.f.uid L (dedupNat (ids ++ buildsOf d x.f.uid L ++ relIds d x.f.uid L ++ heldIds d x.f.uid L sc true)) sc with storesOnly := true }

/-- `fence.sc` for one thread; at `.dev` or wider the thread's later walks see the table stores before it (R158). -/
def fenceScLane (x : Iss) (sc : Scope) (d : Dev) (L : Nat) : Dev :=
  let ids := threadFlights d x.f.uid L fun _ a => a.ordered (sc == .sys)
  let loads := threadFlights d x.f.uid L fun g a => g.kind.loads && a.ordered (sc == .sys)
  let r := fenceAcquire d x L sc false loads
  holdFor (fenceRelease r.2 x.f.uid L sc false)
    { Hold.on x.f.uid L (dedupNat (ids ++ buildsOf d x.f.uid L ++ relIds d x.f.uid L ++ heldIds d x.f.uid L sc true)) sc with
      walk := sc == .dev || sc == .sys, total := true, core := x.f.core, team := x.t.uid, event := r.1, since := d.nextId }

/-- `fence.uo` for one thread: as `.sc`, for every access of every kind, host accesses at `.sys` only (R155); stores still to perform go through
to their home. -/
def fenceUoLane (x : Iss) (sc : Scope) (d : Dev) (L : Nat) : Dev :=
  let ids := threadFlights d x.f.uid L fun _ a => a.heldBy true sc
  let loads := threadFlights d x.f.uid L fun g a => g.kind.loads && a.heldBy true sc
  let all := threadFlights d x.f.uid L fun _ _ => true
  let d := { d with flights := d.flights.map fun g => if all.contains g.id then { g with through := true } else g }
  let r := fenceAcquire d x L sc true loads
  holdFor (fenceRelease r.2 x.f.uid L sc true)
    { Hold.on x.f.uid L (dedupNat (ids ++ buildsOf d x.f.uid L ++ relIds d x.f.uid L ++ heldIds d x.f.uid L sc true)) sc with
      uo := true, flush := true, walk := sc == .dev || sc == .sys, total := true, core := x.f.core, team := x.t.uid, event := r.1,
      since := d.nextId }

/-- `fence.acq` (R175). -/
def execFenceAcq (h : Hdr) (sc : Scope) (s : State) : Host.Outcome State Fault Refusal :=
  issueOn (.fenceAcq h sc) h s fun x d => some (.done (x.lanes.foldl (fenceAcqLane x sc) d))

/-- `fence.rel` (R175). -/
def execFenceRel (h : Hdr) (sc : Scope) (s : State) : Host.Outcome State Fault Refusal :=
  issueOn (.fenceRel h sc) h s fun x d => some (.done (x.lanes.foldl (fenceRelLane x sc) d))

/-- `fence.sc` (R175). -/
def execFenceSc (h : Hdr) (sc : Scope) (s : State) : Host.Outcome State Fault Refusal :=
  issueOn (.fenceSc h sc) h s fun x d => some (.done (x.lanes.foldl (fenceScLane x sc) d))

/-- `fence.uo` (R154, R175): the core's dirty UO lines are written back and its clean ones dropped. -/
def execFenceUo (h : Hdr) (sc : Scope) (s : State) : Host.Outcome State Fault Refusal :=
  issueOn (.fenceUo h sc) h s (ifActive fun x d => some (.done (x.lanes.foldl (fenceUoLane x sc) (uoFlush d x.f.core))))

/-! ### Waiting on an address (R176 to R178) -/

/-- What a `waitaddr` that returns at once tells its thread: it has read the word as it stands at its home (R177). -/
def waitRead (x : Iss) (o : WaitOp) (d : Dev) (L : Nat) (a : LaneAcc) : Dev :=
  let f := x.fib d
  let j := d.join ((f.thread L).viewOf (!a.plain) a.host)
  let d := j.2.setFibre (f.onLanes (LaneMask.ofLanes [L]) fun _ t => a.note o.ord o.sc true [j.1] t)
  learn d x.f.uid x.t.uid x.f.core j.1 (acqAt j.1 o.ord o.sc [] a) 0 a

/-- One lane of `waitaddr` at the word's home: it returns at once with the word, or stands at the tail of its Quarter's FIFO (R177).
Answers the lanes that return with what they read. -/
def waitLane (x : Iss) (o : WaitOp) (acc : List (Nat × Word) × Dev) (g : Good) : List (Nat × Word) × Dev :=
  let a := g.acc [] []
  let d := readMc (uoHome acc.2 x.f.core a) x.f.uid g.lane a
  let f := x.fib d
  let m := leWord (homeBytes d x.t.uid a)
  let expect := regLane d f o.d.toNat g.lane
  let deadline := regLane d f (o.d.toNat + 1) g.lane
  if m ≠ expect ∨ (deadline ≠ BitVec.allOnes 64 ∧ deadline.toNat ≤ x.s.clk.now.toNat) then
    (acc.1 ++ [(g.lane, m)], waitRead x o d g.lane a)
  else
    let w : Waiter :=
      { id := d.nextId, path := x.c.lanes, fib := x.f.uid, lane := g.lane, team := x.t.uid, ctx := x.f.ctx, core := x.f.core, acc := a, quarter := quarterOf x.f.core,
        dst := o.d.toNat, expect := expect, deadline := deadline, ord := o.ord, sc := o.sc, pc := x.c.pc, marked := false, notes := [] }
    (acc.1, { d.setFibre (f.onLanes (LaneMask.ofLanes [g.lane]) fun _ t => { t with wait := .addr }) with
        nextId := d.nextId + 1, waiters := d.waiters ++ [w] })

/-- `waitaddr` (R177). It compares when the accesses its read must follow have performed. -/
def execWaitaddr (h : Hdr) (o : WaitOp) (s : State) : Host.Outcome State Fault Refusal :=
  issueOn (.waitaddr h o) h s (ifActive fun x d =>
    memory x d o.sp ⟨8, false, 8, true, false, 8⟩ (x.order d) (addrLane d (x.fib d) o.addr) fun d gs =>
      let after := afterOf d x.f.uid (.load (.int .n64) .r) o.ord o.sc (gs.map fun g => g.acc [] [])
      if gs.any (Good.busy d x.t) || after.any d.pending then none
      else
        let d := noRetry d x.f.uid (LaneMask.ofLanes (gs.map Good.lane))
        let r := gs.foldl (waitLane x o) ([], d)
        some (if r.1.isEmpty then r.2
          else addFlight r.2 { mkFlight x (.result false false) (r.1.map fun v => laneOps v.1 [v.2]) [o.d.toNat] none with
            full := LaneMask.ofLanes (r.1.map Prod.fst) == x.f.live }))

/-- `wake` (R178). -/
def execWake (h : Hdr) (o : WaitOp) (s : State) : Host.Outcome State Fault Refusal :=
  issueOn (.wake h o) h s (ifActive fun x d =>
    memory x d o.sp ⟨8, false, 8, true, false, 63⟩ (x.order d) (addrLane d (x.fib d) o.addr) fun d gs =>
      let f := x.fib d
      sendAtoms x d .wake o.ord o.sc [] gs (fun _ => []) fun L => [regLane d f o.d.toNat L])

/-- WAITADDR_DEADLINE (R177): a parked thread whose deadline has passed returns. -/
def execWaitaddrDeadline (fibre lane : Nat) (s : State) : Host.Outcome State Fault Refusal :=
  onDev s fun s => match s.dev.waiters.find? fun w => w.fib == fibre && w.lane == lane && !w.marked &&
      w.deadline != BitVec.allOnes 64 && decide (w.deadline.toNat ≤ s.clk.now.toNat) with
    | some w => returnWaiter [] s.dev w
    | none => s.dev

/-! ### Prefetch (R180) -/

/-- A translation without side effects: a cached leaf or a walk; none where a load would fault or wait. -/
def peek (d : Dev) (core ctx : Nat) (va : Word) : Option (Word × Bool) :=
  let pass := fun (e : Word) (large : Bool) => if (leafFault core ⟨false, false⟩ e).isNone && zsOf e == 0 then some (e, large) else none
  if !canonical va then none
  else match tlbFind d core ctx va, tlbFind d (plazaOwner core) ctx va with
  | some t, _ => pass t.entry t.large
  | none, some t => pass t.entry t.large
  | none, none => match walk d (d.ctx ctx).root va with
    | .ok l => pass l.entry l.large
    | .error _ => none

/-- Bring a UO line of 64 bytes into the core's L1 as clean copies. -/
def prefetchLane (x : Iss) (addr : Nat → Word) (d : Dev) (L : Nat) : Dev :=
  match peek d x.f.core x.f.ctx (addr L) with
  | none => d
  | some (e, large) =>
    if kindOf e ≠ 2 then d
    else
      let a := physOf e large (addr L) / 64 * 64 + (if isRepl e then quarterOf x.f.core * 2 ^ 38 else 0)
      (List.range 64).foldl (fun d i => if d.uo.any fun u => u.core == x.f.core && u.addr == a + i then d
        else uoPut d x.f.core (a + i) (memRead d.mem (a + i)) none) d

/-- `pf.l1` (R180). -/
def execPfL1 (h : Hdr) (addr : MAddr) (s : State) : Host.Outcome State Fault Refusal :=
  issueOn (.pfL1 h addr) h s fun x d => some (.done (x.lanes.foldl (prefetchLane x (addrLane d (x.fib d) addr)) d))

/-- `pf.l2` (R180): the L2 is coherent, so nothing a program can see changes. -/
def execPfL2 (h : Hdr) (addr : MAddr) (s : State) : Host.Outcome State Fault Refusal :=
  issueOn (.pfL2 h addr) h s fun _ d => some (.done d)

/-! ### Translations (R162, R163) -/

/-- The leaf a walk for `pginfo` finds, ignoring permissions and Allocating: status and entry (R162). -/
def pgStatus (d : Dev) (root : Nat) (va : Word) : Nat × Word :=
  match walk d root va with
  | .ok l => (0, l.entry)
  | .error 5 => (3, 0)
  | .error 1 => (1, 0)
  | .error _ => (2, 0)

/-- The value `pginfo` writes (R162). -/
def pgWord (d : Dev) (core root : Nat) (va : Word) : Word :=
  let r := pgStatus d root va
  let frame := if privilegedCore core then field r.2 16 36 * 65536 else 0
  BitVec.ofNat 64 (if r.1 = 0 then field r.2 0 14 + frame else r.1 * 16384)

/-- `pginfo` (R162). -/
def execPginfo (h : Hdr) (d : Reg) (addr : MAddr) (s : State) : Host.Outcome State Fault Refusal :=
  issueOn (.pginfo h d addr) h s (ifActive fun x dv =>
    let a := addrLane dv (x.fib dv) addr
    some (.done (sendResult x dv false false [d.toNat] 0 fun L => [pgWord dv x.f.core (dv.ctx x.f.ctx).root (a L)])))

/-- The Quarter of a TLB's owner. -/
def ownerQuarter (o : Nat) : Nat := if o < 400 then quarterOf o else (o - 400) / 12

/-- The fibres of some contexts on some cores, placed or saved. -/
def fibresOf (d : Dev) (near ctxs : Nat → Bool) : List Fibre :=
  (d.fibres ++ d.ctxs.flatMap fun x => x.saved.flatMap SavedTeam.fibres).filter fun f => near f.core && ctxs f.ctx

/-- The tasks of some fibres that hold a buffered store satisfying a test, as a `tlbi` names them. -/
def tasksHolding (fs : List Fibre) (hit : Nat → LaneAcc → Bool) : List (Nat × Nat × Nat) :=
  fs.flatMap fun f => (List.range f.width).filterMap fun L => match (f.thread L).task with
    | some k => if k.buf.any (hit f.ctx) then some (f.uid, L, k.seq) else none
    | none => none

/-- The cached leaf an access of a context at an address would use, as a `tlbi` tests it. -/
def LaneAcc.leaf (a : LaneAcc) (ctx : Nat) (va : Word) : TlbEntry :=
  let large := a.kinds.headD 0 / 32 % 2 == 1
  { owner := 0, ctx := ctx, large := large, page := field va (if large then 29 else 16) (if large then 26 else 39), entry := 0, entryAt := 0 }

/-- Whether an access of memory uses a leaf that satisfies a test, by its first or its last byte. -/
def LaneAcc.uses (a : LaneAcc) (ctx : Nat) (drop : TlbEntry → Bool) : Bool :=
  (a.places.any fun p => match p with
    | .spad _ => false
    | _ => true) && [a.va, a.va + BitVec.ofNat 64 (a.places.length - 1)].any fun va => drop (a.leaf ctx va)

/-- The entries whose zeroing walks of some cores wait for: of fibres, engines and overlay loads of any context (R163). -/
def zerosAwaited (d : Dev) (near : Nat → Bool) : List Nat :=
  dedupNat ((d.zeroings.filter fun z => z.walks.any fun w => near w.core).map Zeroing.entryAt)

/-- `tlbi` (R163): the entries within scope that satisfy a test are dropped, and the predicate becomes true when every access that used one has
performed at its home, a core's dirty UO bytes, buffered stores of tasks and parked threads among them, those of saved teams too, and every walk
under way has ended. The issuing threads' own buffers commit first. -/
def tlbiBody (dev : Bool) (p : PredIdx) (ctxOk : Iss → Dev → Bool) (drop : Iss → Dev → TlbEntry → Bool) (ctxs : Iss → Dev → Nat → Bool) :
    Body := ifActive fun x d =>
  if !ctxOk x d then some (.done (sendPred x d p fun _ => false))
  else
    let near := fun c => dev || ownerQuarter c == quarterOf x.f.core
    let d := uoClean (commitTasks x x.act d) near
    let hit := fun (c : Nat) (a : LaneAcc) => a.uses c (drop x d)
    let uses' := fun (g : Flight) => g.isMem && near g.core && g.acc.any (hit g.ctx)
    let fs := fibresOf d near (ctxs x d)
    let parked := (d.waiters.filter fun w => near w.core && hit w.ctx w.acc).map Waiter.id
    let kind := FKind.tlbi (tasksHolding fs hit) parked (zerosAwaited d near)
    let d' := { d with
      tlb := d.tlb.filter fun t => !(near t.owner && drop x d t)
      flights := d.flights.map fun g => if uses' g then { g with through := true } else g }
    some (.done (addFlight d' { mkFlight x kind (x.lanes.map fun L => laneOps L []) [] (if p.toNat < 24 then some p.toNat else none) with
      after := (d.flights.filter uses').map Flight.id }))

/-- The context a `tlbi` names. -/
def tlbiCtxNo (x : Iss) (d : Dev) (b : Src) : Nat := (srcZ d (x.fib d) x.t ((lowestLane x.act).getD 0) b).toNat

/-- A `tlbi` whose context operand must count as U. -/
def uChecked (b : Src) (body : Body) : Body := ifActive fun x d => if srcU d (x.fib d) b then body x d else some x.illegal

/-- `tlbi.pg` (R163). -/
def execTlbiPg (h : Hdr) (dev : Bool) (d : PredIdx) (a : Reg) (b : Src) (s : State) : Host.Outcome State Fault Refusal :=
  issueOn (.tlbiPg h dev d a b) h s (uChecked b (tlbiBody dev d (fun x dv => decide (tlbiCtxNo x dv b < 64))
    (fun x dv t => t.ctx == tlbiCtxNo x dv b && x.lanes.any fun L =>
      t.page == field (regLane dv (x.fib dv) a.toNat L) (if t.large then 29 else 16) (if t.large then 26 else 39))
    fun x dv c => c == tlbiCtxNo x dv b))

/-- `tlbi.ctx` (R163). -/
def execTlbiCtx (h : Hdr) (dev : Bool) (d : PredIdx) (b : Src) (s : State) : Host.Outcome State Fault Refusal :=
  issueOn (.tlbiCtx h dev d b) h s (uChecked b (tlbiBody dev d (fun x dv => decide (tlbiCtxNo x dv b < 64))
    (fun x dv t => t.ctx == tlbiCtxNo x dv b) fun x dv c => c == tlbiCtxNo x dv b))

/-- `tlbi.all` (R163). -/
def execTlbiAll (h : Hdr) (dev : Bool) (d : PredIdx) (s : State) : Host.Outcome State Fault Refusal :=
  issueOn (.tlbiAll h dev d) h s (tlbiBody dev d (fun _ _ => true) (fun _ _ _ => true) fun _ _ _ => true)

/-- ZEROING_COMPLETE (R153). -/
def execZeroingComplete (entry : Nat) (s : State) : Host.Outcome State Fault Refusal := onDev s fun s => completeZero s.dev entry

/-- RESULT_RETURN (R46): a variable-latency result lands, when what it must follow has performed. Each lane of a load reads its bytes as they
stand, or as they stood some writes ago, where R187 lets it. -/
def execResultReturn (id : Nat) (s : State) : Host.Outcome State Fault Refusal :=
  onDev s fun s => match s.dev.flights.find? fun g => g.id == id && (g.kind.loads || !g.kind.writes) with
    | some g => match g.kind with
      | .drain _ => s.dev
      | _ => if mayPerform s.dev g then perform s.clk.now (g.acc.map (backOf s.dev g)) s.dev g else s.dev
    | none => s.dev

/-- STORE_PERFORM (R190): an issued store, or a `red` or `wake`, performs at its home; a multicast store at one of its copies. -/
def execStorePerform (id : Nat) (s : State) : Host.Outcome State Fault Refusal :=
  onDev s fun s => match s.dev.flights.find? fun g => g.id == id && g.kind.writes && !g.kind.loads with
    | some g => match g.kind with
      | .flip _ => s.dev
      | _ => if mayPerform s.dev g then perform s.clk.now [] s.dev g else s.dev
    | none => s.dev

end Sys2Proof.Machine
end

