-- ==== Sys2Proof/Machine/Grid.lean ====
section
/-!
DEFINITION. Packets, headers, dispatch and the retirement of grids (R21, R68, R69, R237 to R241, R250).
-/

namespace Sys2Proof.Machine

/-! ### Reading a context's memory for a scheduler -/

/-- Translate an access with fresh walks; a page whose zeroing it meets is zeroed first (R153). `k` bounds the pages. -/
def translateFresh (ctx : Nat) (need : Need) : Nat → Dev → Word → Nat → Acc × Dev
  | 0, d, va, _ => (.fault 4 va, d)
  | k + 1, d, va, n => match translateAll 0 ctx need (n / 65536 + 2) d va n with
    | (.wait e, d) => translateFresh ctx need k (completeZero d e) va n
    | r => r

/-- Translate an access of an agent that is no core: walks of its own, no cached leaf kept. -/
def translateNow (ctx : Nat) (need : Need) (k : Nat) (d : Dev) (va : Word) (n : Nat) : Acc × Dev :=
  let r := translateFresh ctx need k { d with tlb := [] } va n
  (r.1, { r.2 with tlb := d.tlb })

/-- Read 64-bit words of a context from their homes, if every page of them translates. -/
def ctxWords (d : Dev) (ctx : Nat) (va : Word) (n : Nat) : Option (List Word) × Dev :=
  match translateNow ctx ⟨false, false⟩ (8 * n / 65536 + 2) d va (8 * n) with
  | (.parts ps, d) => (some (leWords n ((ps.flatMap fun p => p.places 0 false).map fun q => readPlace d 0 0 (q.1, 0))), d)
  | (_, d) => (none, d)

/-! ### Headers (R68 to R70) -/

/-- An overlay entry (R70): base, length in words, preload; none when a reserved bit is set or a field is out of range. -/
def overlayEntry (lo hi : Word) : Option (Word × Nat × Bool) :=
  let len := field hi 0 32
  if field hi 33 31 != 0 || decide (len < 1) || decide (21845 < len) || lo.toNat % 256 != 0 then none
  else some (lo, len, hi.getLsbD 32)

/-- The overlay entries in a list of words. -/
def overlayEntries : Nat → List Word → Option (List (Word × Nat × Bool))
  | 0, _ => some []
  | n + 1, ws => match overlayEntry (ws.getD 0 0) (ws.getD 1 0), overlayEntries n (ws.drop 2) with
    | some o, some os => some (o :: os)
    | _, _ => none

/-- Whether no two overlays overlap in address. -/
def overlaysApart : List (Word × Nat × Bool) → Bool
  | [] => true
  | o :: os => os.all (fun p => decide (o.1.toNat + 12 * o.2.1 ≤ p.1.toNat ∨ p.1.toNat + 12 * p.2.1 ≤ o.1.toNat)) && overlaysApart os

/-- Slots a team takes: a 64-lane fibre takes a context of both slots of a pair (R83). -/
def slotsNeed (h : KernelHdr) (threads : Nat) : Nat :=
  let fibres := (threads + h.width - 1) / h.width
  (fibres + 3) / 4 * (if h.width = 64 then 2 else 1)

/-- Whether a team asks for more than one core's pool units or slots (R21). -/
def tooLarge (h : KernelHdr) (threads : Nat) : Bool := decide (128 < h.rf + h.sp + h.tiles) || decide (16 < slotsNeed h threads)

/-- CHECK A KERNEL HEADER of eight words with its overlay table for teams of a size (R68, R69). DESIGN CHOICE (assumption 62): a register-file
or scratchpad field above 128 units by itself, and more than 256 Pallet granules, lie outside the field's row, a bad header with reason 1, though
R21 calls them too large too. -/
def headerOf (ws tab : List Word) (threads : Nat) : Option KernelHdr :=
  let w := fun k => ws.getD k 0
  match overlayEntries (field (w 5) 0 16) tab with
  | none => none
  | some os =>
    let h : KernelHdr :=
      { entry := w 1, n := field (w 2) 0 8, w := field (w 2) 8 8, width := 8 * 2 ^ field (w 2) 16 2, rf := field (w 2) 32 8,
        sp := field (w 2) 40 8, tiles := field (w 2) 48 8, pallet := field (w 3) 0 16, stack := field (w 3) 32 32, overlays := os }
    let o0 := os.headD (0, 0, false)
    let loaded := (os.zip (List.range os.length)).filter fun p => p.2 == 0 || p.1.2.2
    let load : Nat := (loaded.map fun p => ovlBytes p.1.2.1).foldl (· + ·) 0
    if decide (h.n + h.w < 1) || decide (255 < h.n + h.w) || decide (h.rf < 1) || decide (128 < h.rf) || decide (128 < h.sp) ||
        decide (4 < h.tiles) || decide (256 < h.pallet) || decide (2 ^ 24 < h.stack) ||
        h.stack % 16 != 0 || decide (h.entry.toNat < o0.1.toNat) || decide (o0.1.toNat + 12 * o0.2.1 ≤ h.entry.toNat) ||
        (h.entry.toNat - o0.1.toNat) % 12 != 0 || !overlaysApart os ||
        decide (262144 < load) ||
        decide (h.rf * 16384 < rfBytes h threads) then none
    else some h

/-- READ AND CHECK A KERNEL HEADER (R69). -/
def readHeader (d : Dev) (ctx : Nat) (addr : Word) (threads : Nat) : Option KernelHdr × Dev :=
  if addr.toNat % 64 ≠ 0 then (none, d)
  else match ctxWords d ctx addr 8 with
    | (none, d) => (none, d)
    | (some ws, d) =>
      let w := fun k => ws.getD k 0
      let count := field (w 5) 0 16
      if field (w 0) 0 32 != 0x4B5A5849 || field (w 0) 32 16 != 1 || field (w 0) 48 16 != 0 || field (w 2) 18 14 != 0 ||
          field (w 2) 56 8 != 0 || field (w 3) 16 16 != 0 || field (w 5) 16 48 != 0 || w 6 != 0 || w 7 != 0 ||
          decide (count < 1) || decide (64 < count) || (w 4).toNat % 16 != 0 then (none, d)
      else match ctxWords d ctx (w 4) (2 * count) with
        | (none, d) => (none, d)
        | (some tab, d) => (headerOf ws tab threads, d)

/-! ### Packets (R237, R239) -/

/-- The weight byte of a Quarter. -/
def weightOf (w3 : Word) (q : Nat) : Nat := field w3 (16 + 8 * q) 8

/-- The field checks of R237. -/
def packetOk (ws : List Word) : Bool :=
  let w := fun k => ws.getD k 0
  let mode := field (w 3) 0 2
  field (w 0) 0 8 == 1 && field (w 0) 10 22 == 0 && field (w 0) 32 32 != 0 && decide (1 ≤ field (w 2) 0 11) &&
  decide (field (w 2) 0 11 ≤ 1024) && field (w 2) 11 53 == 0 && mode != 3 && field (w 3) 2 6 == 0 && field (w 3) 10 6 == 0 &&
  field (w 3) 48 16 == 0 && (mode != 1 || decide (1 ≤ weightOf (w 3) 0 + weightOf (w 3) 1 + weightOf (w 3) 2 + weightOf (w 3) 3)) &&
  (field (w 0) 9 1 == 0 || (w 4).toNat % 8 == 0) && w 6 == 0 && w 7 == 0

/-- The cumulative weight `C(q)` of R239. -/
def cumWeight (w3 : Word) (q : Nat) : Nat :=
  match field w3 0 2 with
  | 0 => q
  | 1 => ((List.range q).map (weightOf w3)).foldl (· + ·) 0
  | _ => if q ≤ field w3 8 2 then 0 else 1

/-- The teams of each Quarter that has some: (Quarter, first, end) (R239). -/
def partition (ws : List Word) : List (Nat × Nat × Nat) :=
  let T := field (ws.getD 0 0) 32 32
  let w3 := ws.getD 3 0
  let at' := fun q => T * cumWeight w3 q / cumWeight w3 4
  ((List.range 4).map fun q => (q, at' q, at' (q + 1))).filter fun p => decide (p.2.1 < p.2.2)

/-! ### Queues and nodes of a context -/

/-- A queue of a context. -/
def Ctx.queue (x : Ctx) (q : Nat) : Queue := ((x.queues.find? fun p => p.1 == q).map Prod.snd).getD default

/-- Replace a queue of a context. -/
def setQueue (d : Dev) (c q : Nat) (v : Queue) : Dev :=
  let x := d.ctx c
  d.setCtx c { x with queues := (q, v) :: x.queues.filter fun p => p.1 != q }

/-- Kind of a queue, 0 while Unallocated (R233). -/
def Queue.kind (q : Queue) : Nat := match q.desc with
  | some ws => field (ws.getD 0 0) 0 4
  | none => 0

/-- A field of a queue's descriptor. -/
def Queue.fld (q : Queue) (w lo n : Nat) : Nat := match q.desc with
  | some ws => field (ws.getD w 0) lo n
  | none => 0

/-- Whether a queue is Open (R234). -/
def Queue.isOpen (q : Queue) : Bool := q.fld 0 6 1 == 1

/-- The launch id of a queue's packet number `s` (R238). -/
def queueLid (q s : Nat) : Word := BitVec.ofNat 64 (2 ^ 40 * (q + 1) + s % 2 ^ 40)

/-- Whether a context's queues dispatch (R296): in Pre-empted, Switched and Halted only the placement of teams stops. -/
def dispatches (x : Ctx) : Bool :=
  match x.state with
  | .resident | .running | .preempted | .switched | .halted => true
  | _ => false

/-- Whether Queued teams of a context may be placed (R296). -/
def Ctx.places (x : Ctx) : Bool := x.state == .resident || x.state == .running

/-- A graph node of a context; one never committed holds zeros. -/
def Ctx.node (x : Ctx) (n : Nat) : GNode :=
  (x.nodes.find? fun g => g.num == n).getD { num := n, record := List.replicate 8 0, state := .idle, queue := 0, know := [] }

/-- Replace a graph node. -/
def setNode (d : Dev) (c : Nat) (g : GNode) : Dev :=
  let x := d.ctx c
  d.setCtx c { x with nodes := g :: x.nodes.filter fun h => h.num != g.num }

/-- The successors of a node (R250). -/
def GNode.succs (g : GNode) : List Nat :=
  let r := (g.record.getD 0 0).toNat + (g.record.getD 1 0).toNat * 2 ^ 64 + (g.record.getD 2 0).toNat * 2 ^ 128
  (List.range (min 8 (r / 2 ^ 76 % 16))).map fun k => r / 2 ^ (80 + 12 * k) % 4096

/-- Predecessors of a node. -/
def GNode.preds (g : GNode) : Nat := field (g.record.getD 1 0) 0 12

/-- Whether a node may be armed: neither Armed nor Launched, reserved bits zero, at most 8 successors. -/
def GNode.armable (g : GNode) : Bool :=
  (match g.state with
    | .armed _ | .launched _ => false
    | _ => true) &&
  field (g.record.getD 2 0) 48 16 == 0 && (g.record.drop 3).all (· == 0) && decide (field (g.record.getD 1 0) 12 4 ≤ 8)

/-- A predecessor of node `n` is done, handing on some events at `.dev` (R199): an Armed node's counter falls by 1. -/
def lowerNode (d : Dev) (c : Nat) (know : List Nat) (n : Nat) : Dev :=
  let g := (d.ctx c).node n
  match g.state with
  | .armed (k + 1) =>
    if know.isEmpty then setNode d c { g with state := .armed k }
    else
      let j := d.join know
      setNode j.2 c { g with state := .armed k, know := g.know ++ [j.1] }
  | _ => d

/-! ### Retirement of a grid (R86, R238, R249, R250) -/

/-- Keep, with the queue of a grid that retires, the flight of its completion write and what it hands on, for a Serial packet that follows
(R199, R238). -/
def noteWritten (d : Dev) (g : Grid) (id : Option Nat) : Dev :=
  match g.queue with
  | none => d
  | some q =>
    let v := (d.ctx g.ctx).queue q
    if v.last = some g.lid then setQueue d g.ctx q { v with wrote := id, learnt := g.learnt } else d

/-- Write a grid's completion value as an `st.rel.sys` of its own; a fault goes to the context's fault queue (R238). -/
def completionWrite (now : Word) (d : Dev) (g : Grid) : Dev :=
  let va := g.packet.getD 4 0
  let d := noteWritten d g none
  if field (g.packet.getD 0 0) 9 1 == 0 || va.toNat % 8 != 0 then d
  else match translateNow g.ctx ⟨true, false⟩ 2 d va 8 with
    | (.fault r a, d) => oweRecord d g.ctx (engineRecord now 4 1 r g.ctx 0 a 0 g.lid 0 0 0) false
    | (.wait _, d) => oweRecord d g.ctx (engineRecord now 4 1 4 g.ctx 0 va 0 g.lid 0 0 0) false
    | (.parts ps, d) =>
      let pl := ps.flatMap fun p => p.places 0 false
      let id := d.nextId
      addFlight { noteWritten d g (some (id + 1)) with nextId := id + 1 }
        { id := 0, fib := id, team := id, ctx := g.ctx, core := 0, kind := .store [],
          acc := [{ lane := 0, va := va, places := pl.map Prod.fst, kinds := pl.map Prod.snd, data := wordLE (g.packet.getD 5 0),
                    ops := [], hands := [⟨.sys, true, g.learnt⟩], view := [] }],
          dst := [], pdst := none, full := false, flags := 0, ord := .rel, sc := .sys, after := [], pc := 0, acqs := [],
          through := true, path := 0 }

/-- Free the batch slot a grid held (R249). -/
def freeSlot (d : Dev) (g : Grid) : Dev :=
  match g.queue, g.slot with
  | some q, some k =>
    let v := (d.ctx g.ctx).queue q
    setQueue d g.ctx q { v with slots := setAt v.slots k none }
  | _, _ => d

/-- A node's grid has retired: its successors' counters fall and it is Done (R250). -/
def doneNode (d : Dev) (g : Grid) : Dev :=
  match g.node with
  | none => d
  | some n =>
    let v := (d.ctx g.ctx).node n
    v.succs.foldl (lowerNode · g.ctx g.learnt ·) (setNode d g.ctx { v with state := .done })

/-- The fibres of a context, placed or saved. -/
def ctxFibres (d : Dev) (c : Nat) : List Fibre := (d.fibres.filter fun f => f.ctx == c) ++ (d.ctx c).saved.flatMap SavedTeam.fibres

/-- Whether a parent may still ask about a child, placed or saved. -/
def parentLives (d : Dev) (g : Grid) : Bool :=
  match g.parentTask, g.parent with
  | some (q, n), _ => (ctxFibres d g.ctx).any fun f => f.threads.any fun t => t.life == .live && match t.task with
      | some k => k.queue == q && k.seq == n
      | none => false
  | none, some l => match d.grid? g.ctx l with
    | some p => !p.retired
    | none => false
  | none, none => false

/-- What a grid hands on at its retirement goes to its parent grid's retirement too, which includes it (R199). -/
def tellParent (d : Dev) (g : Grid) : Dev :=
  match g.parent.bind (d.grid? g.ctx) with
  | some p => if g.parentTask.isNone then d.setGrid { p with learnt := dedupNat (p.learnt ++ g.learnt) } else d
  | none => d

/-- RETIRE A GRID: its completion is written, its slot, node and parent served; the record stays while its parent may join it. -/
def retireGrid (now : Word) (d : Dev) (g : Grid) : Dev :=
  let d := tellParent (doneNode (freeSlot (completionWrite now d g) g) g) g
  let x := d.ctx g.ctx
  let d := if x.dstopArmed && x.dstopl == g.lid then d.setCtx g.ctx { x with dstopArmed := false } else d
  let d := { d with grids := d.grids.filter fun h => !(h.ctx == g.ctx && h.parent == some g.lid && h.parentTask.isNone && h.retired) }
  if parentLives d g then d.setGrid { g with retired := true }
  else { d with grids := d.grids.filter fun h => !(h.ctx == g.ctx && h.lid == g.lid) }

/-- Whether a grid may retire: every team placed and retired, every child grid retired (R86). -/
def gridOver (d : Dev) (g : Grid) : Bool :=
  !g.retired && g.todo.isEmpty && g.live == 0 &&
  !(d.grids.any fun h => h.ctx == g.ctx && h.parent == some g.lid && h.parentTask.isNone && !h.retired)

/-! ### Dispatch (R237, R238, R241) -/

/-- Where a packet comes from: its address where it has one, what its grid serves, and the commands its grid acquires (R199, R236). -/
structure Origin where
  addr : Word
  depth : Nat
  parent : Option Word
  parentTask : Option (Nat × Nat)
  queue : Option Nat
  slot : Option Nat
  node : Option Nat
  know : List Nat
  deriving DecidableEq, Repr

/-- DISPATCH A PACKET: field checks, header checks, resource checks; then its teams are Queued. A refused packet counts as a grid that
retired at once. -/
def dispatch (now : Word) (d : Dev) (c : Nat) (ws : List Word) (lid : Word) (o : Origin) : Dev :=
  let T := field (ws.getD 2 0) 0 11
  let r : Except Nat KernelHdr × Dev :=
    if !packetOk ws then (.error 3, d)
    else match readHeader d c (ws.getD 1 0) T with
      | (none, d) => (.error 1, d)
      | (some h, d) => (if tooLarge h T then .error 2 else .ok h, d)
  let res := r.1
  let d := r.2
  let traced := match d.armed, o.queue with
    | some (ac, aq), some q => ac == c && aq == q
    | _, _ => false
  let d := if traced then { d with armed := none, armedId := lid } else d
  let g : Grid :=
    { ctx := c, lid := lid, packet := ws, hdr := default, depth := o.depth, todo := [], live := 0, order := d.order, told := [],
      parent := o.parent, parentTask := o.parentTask, refused := false, retired := false, queue := o.queue, slot := o.slot,
      node := o.node, traced := traced,
      know := o.know, learnt := [] }
  let d := { d with order := d.order + 1 }
  match res with
  | .ok h => { d with grids := d.grids ++ [{ g with hdr := h, todo := partition ws }] }
  | .error r =>
    let g := { g with refused := true }
    retireGrid now { oweRefusal now d c r o.addr lid 0 with grids := d.grids ++ [g] } g

/-- Launch the nodes of a context whose counters have reached 0, at most `k` of them (R250). -/
def launchNodes (now : Word) (c : Nat) : Nat → Dev → Dev
  | 0, d => d
  | k + 1, d =>
    let x := d.ctx c
    match dispatches x, x.nodes.find? fun g => g.state == .armed 0 with
    | true, some g =>
      let q := x.queue g.queue
      let lid := queueLid g.queue q.seq
      let addr := g.record.getD 0 0
      let p := ctxWords d c addr 16
      let ws := p.1.getD (List.replicate 16 0)
      let d := p.2
      let d := setNode (setQueue d c g.queue { q with seq := q.seq + 1 }) c { g with state := .launched lid }
      launchNodes now c k (dispatch now d c ws lid
        { addr := addr, depth := 0, parent := none, parentTask := none, queue := some g.queue, slot := none, node := some g.num, know := g.know })
    | _, _ => d

/-- Launch every node that may be launched. -/
def runNodes (now : Word) (d : Dev) (c : Nat) : Dev := launchNodes now c 4096 d

/-- LAUNCH_DISPATCH (R238): a launch queue's next packet, when every team of the one before is placed, and, for a Serial packet, when
that grid has retired and its completion write has performed. -/
def execLaunchDispatch (ctx queue : Nat) (s : State) : Host.Outcome State Fault Refusal :=
  onDev s fun s =>
    let x := s.dev.ctx ctx
    let q := x.queue queue
    match q.entries with
    | [] => s.dev
    | e :: rest =>
      let serial := field (e.ws.getD 0 0) 8 1 == 1
      let before := match q.last with
        | some l => s.dev.grid? ctx l
        | none => none
      let free := match before with
        | some g => g.todo.isEmpty && (!serial || g.retired)
        | none => true
      let done := !serial || match q.wrote with
        | some i => !(s.dev.flights.any fun f => f.id == i)
        | none => true
      if q.kind = 1 ∧ dispatches x = true ∧ free = true ∧ done = true then
        let lid := queueLid queue q.seq
        dispatch s.clk.now (setQueue s.dev ctx queue { q with entries := rest, seq := q.seq + 1, last := some lid }) ctx e.ws lid
          { addr := 0, depth := 0, parent := none, parentTask := none, queue := some queue, slot := none, node := none,
            know := dedupNat (e.know ++ if serial then q.learnt else []) }
      else s.dev

/-! ### Expert queues (R249) -/

/-- Tokens an expert queue holds. -/
def Queue.tokens (q : Queue) : Nat := (q.entries.map fun e => e.ws.length).foldl (· + ·) 0

/-- A batch slot that is free, the next in cyclic order first. -/
def Queue.freeSlotNo (q : Queue) : Option Nat :=
  let n := q.slots.length
  ((List.range n).map fun k => (q.nextSlot + k) % n).find? fun k => (q.slots.getD k none).isNone

/-- Whether the oldest token has waited the Timer. -/
def Queue.timedOut (q : Queue) (now : Word) : Bool :=
  q.fld 3 0 64 != 0 && match q.entries with
    | [] => false
    | e :: _ => decide (e.since.toNat + q.fld 3 0 64 ≤ now.toNat)

/-- Whether an expert queue fires now. -/
def Queue.mayFire (q : Queue) (now : Word) : Bool :=
  q.kind == 3 && q.freeSlotNo.isSome && decide (0 < q.tokens) &&
  (decide (q.fld 2 0 12 ≤ q.tokens) || q.timedOut now || q.fireReq)

/-- The entries without their first `n` tokens. -/
def dropTokens : Nat → List QEntry → List QEntry
  | _, [] => []
  | n, e :: es => if e.ws.length ≤ n then dropTokens (n - e.ws.length) es else { e with ws := e.ws.drop n } :: es

/-- The entries that give some of the first `n` tokens. -/
def firedEntries : Nat → List QEntry → List QEntry
  | _, [] => []
  | n, e :: es => if n = 0 then [] else e :: firedEntries (n - e.ws.length) es

/-- Write bytes of a context as a scheduler; the fault's reason and address, or the write's event and the device. -/
def ctxWrite (d : Dev) (ctx : Nat) (va : Word) (bs : List Byte) : Except (Nat × Word) (Nat × Dev) :=
  match translateNow ctx ⟨true, false⟩ (bs.length / 65536 + 3) d va bs.length with
  | (.fault r a, _) => .error (r, a)
  | (.wait _, _) => .error (4, va)
  | (.parts ps, d) =>
    let pl := ps.flatMap fun p => p.places 0 false
    .ok (d.writeFrom [] (fun _ => []) ((pl.map Prod.fst).zip bs))

/-- FIRE A BATCH: the slot is written, before every access of the grid it launches, and the bound packet launched with its address in argument word 7; a fault of the slot write
leaves the tokens in the queue. Answers whether it fired. -/
def fireOnce (now : Word) (d : Dev) (c qn : Nat) : Bool × Dev :=
  let q := (d.ctx c).queue qn
  match q.freeSlotNo with
  | none => (false, d)
  | some k =>
    let toks := (q.entries.flatMap QEntry.ws).take (q.fld 2 12 12)
    let size := (8 + 8 * q.fld 2 12 12 + 63) / 64 * 64
    let va := BitVec.ofNat 64 (q.fld 4 0 64 + k * size)
    match ctxWrite d c va ((BitVec.ofNat 64 toks.length :: toks).flatMap wordLE) with
    | .error (r, a) => (false, oweRecord d c { engineRecord now 4 1 r c 0 a 0 0 0 0 0 with batch := some qn } false)
    | .ok (event, d) =>
      let lid := queueLid qn q.seq
      let bound := BitVec.ofNat 64 (q.fld 1 0 64)
      let p := ctxWords d c bound 16
      let d := p.2
      let ws := setAt (p.1.getD (List.replicate 16 0)) 15 va
      let left := { q with
        entries := dropTokens toks.length q.entries
        seq := q.seq + 1
        last := some lid
        slots := setAt q.slots k (some lid)
        nextSlot := (k + 1) % q.slots.length
        fireReq := false }
      (true, dispatch now (setQueue d c qn left) c ws lid
        { addr := bound, depth := 0, parent := none, parentTask := none, queue := some qn, slot := some k, node := none,
          know := dedupNat (event :: (firedEntries toks.length q.entries).flatMap QEntry.know) })

/-- Whether the record of a batch write of an expert queue that faulted is still to be written: the returned batch waits for it (R249,
R305). -/
def Ctx.batchOwed (x : Ctx) (qn : Nat) : Bool := x.owed.any fun r => r.batch == some qn

/-- Fire an expert queue while it may, at most `n` times. -/
def fireQueue (now : Word) (c qn : Nat) : Nat → Dev → Dev
  | 0, d => d
  | n + 1, d =>
    let x := d.ctx c
    if dispatches x && (x.queue qn).mayFire now && !x.batchOwed qn then
      let r := fireOnce now d c qn
      if r.1 then fireQueue now c qn n r.2 else r.2
    else d

/-- Fire the expert queues of a context that may fire. -/
def fireQueues (now : Word) (d : Dev) (c : Nat) : Dev := ((d.ctx c).queues.map Prod.fst).foldl (fun d q => fireQueue now c q 4096 d) d

/-- GRID_RETIREMENT (R86, R238): the grid retires; graph nodes that wait for it are launched (R250) and an expert queue it frees a slot
of fires (R249). -/
def execGridRetirement (ctx : Nat) (launch : Word) (s : State) : Host.Outcome State Fault Refusal :=
  onDev s fun s => match s.dev.grid? ctx launch with
    | none => s.dev
    | some g => if gridOver s.dev g then
        fireQueues s.clk.now (runNodes s.clk.now (retireGrid s.clk.now s.dev g) ctx) ctx
      else s.dev

end Sys2Proof.Machine
end

