-- ==== Sys2Proof/Machine/Queue.lean ====
section
/-!
DEFINITION. Appends (R233 to R236), task bins (R245), and the queue instructions (R251 to R253).
-/

namespace Sys2Proof.Machine

/-! ### Bins and waves (R245) -/

/-- Release the first `n` tasks of a bin as a wave. -/
def releaseBin (d : Dev) (b : Bin) (n : Nat) : Dev :=
  let same := fun (c : Bin) => c.ctx == b.ctx && c.queue == b.queue && c.plaza == b.plaza && c.entry == b.entry
  let bins := if b.tasks.length ≤ n then d.bins.filter fun c => !same c
    else d.bins.map fun c => if same c then { c with tasks := c.tasks.drop n } else c
  { d with
    bins := bins
    waves := d.waves ++ [⟨b.ctx, b.queue, b.plaza, b.entry, b.tasks.take n, d.order, false⟩]
    order := d.order + 1 }

/-- Release bins that hold 32 tasks, at most `k` times. -/
def releaseFull : Nat → Dev → Dev
  | 0, d => d
  | k + 1, d => match d.bins.find? fun b => decide (32 ≤ b.tasks.length) with
    | some b => releaseFull k (releaseBin d b 32)
    | none => d

/-- WAVE_RELEASE_TIMER (R245): the bin's oldest task has waited `sr.wavewait` ns. -/
def execWaveReleaseTimer (ctx queue plaza : Nat) (entry : Word) (s : State) : Host.Outcome State Fault Refusal :=
  onDev s fun s => match s.dev.bins.find? fun b => b.ctx == ctx && b.queue == queue && b.plaza == plaza && b.entry == entry with
    | some b => match b.tasks with
      | [] => s.dev
      | k :: _ => if k.since.toNat + (s.dev.ctx ctx).wavewait ≤ s.clk.now.toNat then releaseBin s.dev b b.tasks.length else s.dev
    | none => s.dev

/-! ### Appending a record (R234 to R236) -/

/-- Tasks of a queue that wait in bins and waves. -/
def tasksHeld (d : Dev) (c qn : Nat) : Nat :=
  let n := fun (acc k : Nat) => acc + k
  ((d.bins.filter fun b => b.ctx == c && b.queue == qn).map fun b => b.tasks.length).foldl n 0 +
  ((d.waves.filter fun w => w.ctx == c && w.queue == qn).map fun w => w.tasks.length).foldl n 0

/-- Whether an Open queue has room for one more entry (R234). -/
def queueRoom (d : Dev) (c qn : Nat) (q : Queue) : Bool :=
  match q.kind with
  | 2 => decide (tasksHeld d c qn < q.fld 0 16 16)
  | 4 => true
  | _ => decide (q.entries.length < q.fld 0 16 16)

/-- The first node and the count of a graph record; none where R235 rejects it. -/
def graphRange (w : Word) : Option (Nat × Nat) :=
  let n := field w 16 12
  if field w 12 4 != 0 || field w 28 36 != 0 || n == 0 then none else some (field w 0 12, n)

/-- Whether a record passes R235, R244 and, for a device's append, R237. -/
def recordFits (kind : Nat) (fromDevice : Bool) (ws : List Word) : Bool :=
  let w0 := ws.getD 0 0
  match kind with
  | 1 => !fromDevice || packetOk ws
  | 2 => field w0 58 6 == 0
  | 3 => decide (1 ≤ w0.toNat ∧ w0.toNat ≤ 15)
  | 4 => (graphRange w0).isSome
  | _ => false

/-- ARM THE NODES of a graph append in one step; none if the range or a node refuses it (R250). -/
def armNodes (d : Dev) (c qn first n : Nat) (know : List Nat) : Option Dev :=
  let nodes := (List.range n).map fun k => first + k
  if decide (4096 < first + n) || nodes.any fun k => !((d.ctx c).node k).armable then none
  else some (nodes.foldl (fun d k =>
    let g := (d.ctx c).node k
    setNode d c { g with state := .armed g.preds, queue := qn, know := know }) d)

/-- APPEND A RECORD to a queue: one step at the home, a release that hands on the commands of `know` (R236). Answers whether it was
accepted. `plaza`: the appender's Plaza; none for the host or network. -/
def appendRec (now : Word) (d : Dev) (c qn : Nat) (plaza : Option Nat) (know : List Nat) (ws : List Word) : Bool × Dev :=
  let q := (d.ctx c).queue qn
  if !q.isOpen || !queueRoom d c qn q || !recordFits q.kind plaza.isSome ws then (false, d)
  else match q.kind with
    | 1 => (true, setQueue d c qn { q with entries := q.entries ++ [⟨(List.range 16).map fun k => ws.getD k 0, now, know⟩] })
    | 2 =>
      let home := 12 * (q.seq / 12 % 4) + q.seq % 12
      let d := setQueue d c qn { q with seq := q.seq + 1 }
      let d := binTask d c qn (plaza.getD home)
        { seq := q.seq, header := ws.getD 0 0, args := (List.range 8).map fun k => ws.getD (k + 1) 0,
          retries := field (ws.getD 0 0) 56 2, avoid := none, since := now, know := know }
      (true, releaseFull 1 d)
    | 3 =>
      let toks := (List.range (ws.getD 0 0).toNat).map fun k => ws.getD (k + 1) 0
      (true, fireQueue now c qn 4096 (setQueue d c qn { q with entries := q.entries ++ [⟨toks, now, know⟩] }))
    | _ => match graphRange (ws.getD 0 0) with
      | none => (false, d)
      | some (first, n) => match armNodes d c qn first n know with
        | none => (false, d)
        | some d => (true, runNodes now d c)

/-- A write to an append window that appends nothing: it is counted and goes to the context's fault queue (R236, R303). -/
def dropAppend (now : Word) (d : Dev) (c qn : Nat) : Dev :=
  let q := (d.ctx c).queue qn
  oweRefusal now (setQueue d c qn { q with dropped := min (q.dropped + 1) 65535 }) c 4 0 0 0

/-- An append from outside the device, which hands on some events (R199). -/
def outsideAppend (now : Word) (d : Dev) (c qn : Nat) (know : List Nat) (ws : List Word) : Dev :=
  let r := appendRec now d c qn none know ws
  if r.1 then r.2 else dropAppend now d c qn

/-- Whether the access tables let a master read or write a target (R334). -/
def Env.allows (e : Env) (m : Master) (t : Target) (write : Bool) : Bool :=
  e.access.any fun a => a.master == m && a.target == t && (if write then a.write else a.read)

/-- Count a denied access (R334). -/
def Env.denied (e : Env) : Env := { e with denials := e.denials + 1 }

/-- A host write of the device's registers or append windows: it comes over the host link and passes the access tables (R313, R334). -/
def hostRegs (s : State) (go : State → State) : State :=
  if !s.env.linkUp then s
  else if s.env.allows .host .contextControl true then go s
  else { s with env := s.env.denied }

/-- HOST_APPEND (R236): one posted write to a queue's append window; one that is not 128 bytes long appends nothing and is counted. -/
def execHostAppend (ctx queue : Nat) (ws : List Word) (s : State) : Host.Outcome State Fault Refusal :=
  if ctx < 64 ∧ queue < 256 then
    .next (hostRegs s fun s => s.withDev (if ws.length = 16 then outsideAppend s.clk.now s.dev ctx queue s.dev.hostKnow ws
      else dropAppend s.clk.now s.dev ctx queue))
  else .next s

/-- EXPERT_FIRE (R249). -/
def execExpertFire (ctx queue : Nat) (s : State) : Host.Outcome State Fault Refusal :=
  onDev s fun s => fireQueue s.clk.now ctx queue 1 s.dev

/-- EXPERT_TIMER (R249): the oldest token has waited the Timer; the queue is to fire. -/
def execExpertTimer (ctx queue : Nat) (s : State) : Host.Outcome State Fault Refusal :=
  onDev s fun s =>
    let q := (s.dev.ctx ctx).queue queue
    if q.kind = 3 ∧ q.timedOut s.clk.now = true then
      fireQueue s.clk.now ctx queue 4096 (setQueue s.dev ctx queue { q with fireReq := true })
    else s.dev

/-! ### Instructions that append (R252) -/

/-- Whether a task of some lanes still buffers stores. -/
def buffering (f : Fibre) (m : LaneMask) : Bool := !(taskBuf f m).isEmpty

/-- An append or launch hands on every earlier access of its threads. While a task of a lane of `m`, those that perform it, still buffers
stores, the buffer is committed and the instruction stays to issue again; it then waits for the stores (R199, R236; assumption 61). -/
def committed (x : Iss) (m : LaneMask) (d : Dev) (go : Option Res) : Option Res :=
  if buffering (x.fib d) m then some (.done (commitTasks x m x.s.dev)) else go

/-- What an append, launch or seal of a lane waits for, as a release: the thread's earlier accesses, its builds, and what its acquires have
named (R200, R236, R291). -/
def laneOver (d : Dev) (fib L : Nat) : Bool :=
  !(d.flights.any fun g => g.fib == fib && g.isMem && g.acc.any fun a => a.lane == L) && (buildsOf d fib L).isEmpty &&
  (liveIds d ((d.holds.filter fun h => h.fib == fib && h.lane == L).flatMap Hold.ids)).isEmpty

/-- The queue a `SU` operand names; none where R251 makes the instruction illegal. -/
def queueNo (x : Iss) (d : Dev) (q : Src) : Option Nat :=
  let f := x.fib d
  let v := (srcZ d f x.t ((lowestLane x.act).getD 0) q).toNat
  if srcU d f q && decide (v < 256) then some v else none

/-- Results of some lanes, by lane, in lanes of exited threads too where `keep` says so. -/
def sendLanesBy (keep : Bool) (x : Iss) (d : Dev) (dst : Reg) (vals : List (Nat × Word)) : Dev :=
  if vals.isEmpty then d
  else addFlight d { mkFlight x (.result false keep) (vals.map fun v => laneOps v.1 [v.2]) [dst.toNat] none with
    full := LaneMask.ofLanes (vals.map Prod.fst) == x.f.live }

/-- Results of some lanes, by lane. -/
def sendLanes (x : Iss) (d : Dev) (dst : Reg) (vals : List (Nat × Word)) : Dev := sendLanesBy true x d dst vals

/-- Predicate results of some lanes, by lane, in lanes of exited threads too where `keep` says so. -/
def sendPredsBy (keep : Bool) (x : Iss) (d : Dev) (p : PredIdx) (vals : List (Nat × Bool)) : Dev :=
  if vals.isEmpty then d
  else addFlight d (mkFlight x (.presult keep) (vals.map fun v => laneOps v.1 [if v.2 then 1 else 0]) []
    (if p.toNat < 24 then some p.toNat else none))

/-- Predicate results of some lanes, by lane. -/
def sendPreds (x : Iss) (d : Dev) (p : PredIdx) (vals : List (Nat × Bool)) : Dev := sendPredsBy true x d p vals

/-- Results of a Mortar or Quoin instruction, by lane: discarded where a thread has exited before they land (R98, R347). -/
def engineLanes (x : Iss) (d : Dev) (dst : Reg) (vals : List (Nat × Word)) : Dev := sendLanesBy false x d dst vals

/-- Predicate results of a Mortar or Quoin instruction, by lane (R98, R347). -/
def enginePreds (x : Iss) (d : Dev) (p : PredIdx) (vals : List (Nat × Bool)) : Dev := sendPredsBy false x d p vals

/-- Act for lanes in order and collect what each answers. -/
def eachLane {α : Type} (go : Dev → Nat → α × Dev) : List Nat → Dev → List (Nat × α) × Dev
  | [], d => ([], d)
  | L :: ls, d =>
    let r := go d L
    let rest := eachLane go ls r.2
    ((L, r.1) :: rest.1, rest.2)

/-- What a lane's append or launch hands on: every access of the thread and all it knows (R199, R236). -/
def laneKnow (x : Iss) (d : Dev) (L : Nat) : List Nat := ((x.fib d).thread L).all

/-- Bytes of a record that `qput.m` reads (R235); an expert record's count is read first. -/
def recordBytes (d : Dev) (f : Fibre) (kind : Nat) (va : Word) : Nat :=
  match kind with
  | 1 => 128
  | 2 => 72
  | 3 => match peek d f.core f.ctx va with
    | none => 8
    | some (e, large) =>
      let p : Part := { va := va, n := 8, phys := physOf e large va, kind := kindOf e, repl := isRepl e }
      let w := leWord ((p.places f.core false).map (readPlace d f.core f.team))
      if 1 ≤ w.toNat ∧ w.toNat ≤ 15 then 8 + 8 * w.toNat else 8
  | _ => 8

/-- The words a lane's record or packet holds, read as a relaxed load. -/
def readWords (x : Iss) (d : Dev) (g : Good) : List Word × Dev :=
  let f := x.fib d
  let a := forward f (g.acc [] [])
  let d := uoFill d f.core a
  let r := readNow d { mkFlight x (.load (.int .n64) .r) [a] [] none with id := d.nextId } a []
  (leWords (g.ps.length / 8) r.1, r.2)

/-- `qput.m` (R252). An append hands on every earlier access of the thread, UO ones too (R199, R236). -/
def execQputM (h : Hdr) (d : PredIdx) (a : Reg) (q : Src) (s : State) : Host.Outcome State Fault Refusal :=
  issueOn (.qputM h d a q) h s (ifActive fun x dv => match queueNo x dv q with
    | none => some x.illegal
    | some n =>
      let f := x.fib dv
      let kind := ((dv.ctx f.ctx).queue n).kind
      let addr := fun L => regLane dv f a.toNat L
      let k := fun L => (⟨recordBytes dv f kind (addr L), false, 8, true, false, 8⟩ : Ask)
      committed x (passing x dv .g k (x.order dv) addr) dv <| if x.lanes.any fun L => !laneOver dv f.uid L then none
      else memoryBy x dv .g k (x.order dv) addr 0 fun dv gs =>
        let put := fun (dv : Dev) (L : Nat) => match gs.find? fun g => g.lane == L with
          | none => (false, dv)
          | some g =>
            let r := readWords x dv g
            appendRec s.clk.now (uoFlush r.2 f.core) f.ctx n (some (plazaOf f.core)) (laneKnow x r.2 L) r.1
        let r := eachLane put (gs.map Good.lane) (noRetry dv f.uid (LaneMask.ofLanes (gs.map Good.lane)))
        some (sendPreds x r.2 d r.1))

/-- `qput.v` (R252): an expert queue takes one token. -/
def execQputV (h : Hdr) (d : PredIdx) (a : Src) (q : Src) (s : State) : Host.Outcome State Fault Refusal :=
  issueOn (.qputV h d a q) h s (ifActive fun x dv => match queueNo x dv q with
    | none => some x.illegal
    | some n =>
      let f := x.fib dv
      let tok := fun L => srcZ dv f x.t L a
      committed x x.act dv <| if x.lanes.any fun L => !laneOver dv f.uid L then none
      else
        let put := fun (dv : Dev) (L : Nat) => if ((dv.ctx f.ctx).queue n).kind = 3 then
            appendRec s.clk.now (uoFlush dv f.core) f.ctx n (some (plazaOf f.core)) (laneKnow x dv L) [1, tok L]
          else (false, dv)
        let r := eachLane put (x.order dv) (noRetry dv f.uid x.act)
        some (.done (sendPreds x r.2 d r.1)))

/-- `task` (R252): one task for each active lane. -/
def execTask (h : Hdr) (d : PredIdx) (a g : Reg) (s : State) : Host.Outcome State Fault Refusal :=
  issueOn (.task h d a g) h s (ifActive fun x dv =>
    let f := x.fib dv
    let n := (regLane dv f (a.toNat + 1) ((lowestLane x.act).getD 0)).toNat
    if !groupU dv f (a.toNat + 1) 1 || decide (256 ≤ n) then some x.illegal
    else committed x x.act dv <| if x.lanes.any fun L => !laneOver dv f.uid L then none
    else
      let rec' := fun L => regLane dv f a.toNat L :: (List.range 8).map fun k => regLane dv f (g.toNat + k) L
      let put := fun (dv : Dev) (L : Nat) => if ((dv.ctx f.ctx).queue n).kind = 2 then
          appendRec s.clk.now (uoFlush dv f.core) f.ctx n (some (plazaOf f.core)) (laneKnow x dv L) (rec' L)
        else (false, dv)
      let r := eachLane put (x.order dv) (noRetry dv f.uid x.act)
      some (.done (sendPreds x r.2 d r.1)))

/-- `tend` (R247): the active task threads commit and end. -/
def execTend (h : Hdr) (s : State) : Host.Outcome State Fault Refusal :=
  issueOn (.tend h) h s (ifActive fun x d =>
    if x.lanes.any fun L => ((x.fib d).thread L).task.isNone then some x.illegal else some (.done (endThreads d x.f.uid x.act)))

/-! ### Child grids (R241, R248, R253) -/

/-- Whether a thread launches children: a team leader or a task thread. -/
def leads (f : Fibre) (L : Nat) : Bool := (f.thread L).task.isSome || (f.thread L).logical == 0

/-- Launch a lane's packet as a child; the launch id, or a refusal code. -/
def launchChild (now : Word) (x : Iss) (d : Dev) (g : Good) : Word × Dev :=
  let f := x.fib d
  let r := readWords x d g
  if 10 < x.t.depth + 1 then (0x8000000000000001, r.2)
  else if !packetOk r.1 then (0x8000000000000002, r.2)
  else
    let c := r.2.ctx f.ctx
    let lid := BitVec.ofNat 64 (2 ^ 62 + c.childSeq)
    let d := uoFlush (r.2.setCtx f.ctx { c with childSeq := c.childSeq + 1 }) f.core
    (lid, dispatch now d f.ctx r.1 lid
      { addr := g.va, depth := x.t.depth + 1, parent := some x.t.lid, parentTask := (f.thread g.lane).task.map fun k => (k.queue, k.seq),
        queue := none, slot := none, node := none, know := laneKnow x d g.lane })

/-- `launch` (R253). -/
def execLaunch (h : Hdr) (d : Reg) (a : Reg) (s : State) : Host.Outcome State Fault Refusal :=
  issueOn (.launch h d a) h s (ifActive fun x dv =>
    let f := x.fib dv
    let addr := fun L => regLane dv f a.toNat L
    let ls := (x.order dv).filter (leads f)
    let others := (x.order dv).filter fun L => !leads f L
    let k : Ask := ⟨128, false, 8, true, false, 8⟩
    committed x (passing x dv .g (fun _ => k) ls addr) dv <| if ls.any fun L => !laneOver dv f.uid L then none
    else memory x dv .g k ls addr fun dv gs =>
      let go := fun (dv : Dev) (L : Nat) => match gs.find? fun g => g.lane == L with
        | none => (0, dv)
        | some g => launchChild s.clk.now x dv g
      let r := eachLane go (gs.map Good.lane) (noRetry dv f.uid (LaneMask.ofLanes (gs.map Good.lane)))
      some (sendLanes x r.2 d (r.1 ++ others.map fun L => (L, 0x8000000000000004))))

/-- One lane of `join` (R253): its result returns when its child has retired, and the thread's later accesses follow it and come after the child's
retirement, which its event acquires (R199). -/
def joinLane (x : Iss) (dst : Reg) (lid : Nat → Word) (d : Dev) (L : Nat) : Dev :=
  let id := d.nextId
  let d' := addFlight d { mkFlight x .join [laneOps L [lid L]] [dst.toNat] none with full := LaneMask.ofLanes [L] == x.f.live }
  if joinAnswer d x.f.uid L (lid L) = 3 then d'
  else knowAfter (holdFor d' (Hold.on x.f.uid L [id] .dev)) x.f.uid (LaneMask.ofLanes [L]) .dev (soleEv id)

/-- `join` (R253). -/
def execJoin (h : Hdr) (d : Reg) (a : Src) (s : State) : Host.Outcome State Fault Refusal :=
  issueOn (.join h d a) h s (ifActive fun x dv =>
    some (.done (x.lanes.foldl (joinLane x d fun L => srcZ dv (x.fib dv) x.t L a) dv)))

/-- What a lane's `join.poll` acquires: with a result of 1 or 2 the child's retirement, at once (R199, R253). -/
def pollLane (fib : Nat) (lid : Nat → Word) (d : Dev) (L : Nat) : Dev :=
  if joinAnswer d fib L (lid L) % 3 = 0 then d
  else
    let j := d.join []
    knowAfter (joinLearn j.1 fib j.2 L (lid L)) fib (LaneMask.ofLanes [L]) .dev j.1

/-- `join.poll` (R253). -/
def execJoinPoll (h : Hdr) (d : Reg) (a : Src) (s : State) : Host.Outcome State Fault Refusal :=
  issueOn (.joinPoll h d a) h s (ifActive fun x dv =>
    let f := x.fib dv
    let lid := fun L => srcZ dv f x.t L a
    some (.done (sendResult x (x.lanes.foldl (pollLane f.uid lid) dv) false true [d.toNat] 0 fun L =>
      [BitVec.ofNat 64 (joinAnswer dv f.uid L (lid L))])))

/-! ### Firing and status (R253) -/

/-- `qfire.ex` (R249, R253). -/
def execQfireEx (h : Hdr) (d : PredIdx) (q : Src) (s : State) : Host.Outcome State Fault Refusal :=
  issueOn (.qfireEx h d q) h s (ifActive fun x dv => match queueNo x dv q with
    | none => some x.illegal
    | some n =>
      let ask := fun (dv : Dev) (_ : Nat) =>
        let v := (dv.ctx x.f.ctx).queue n
        if v.kind = 3 ∧ 0 < v.tokens then
          (true, fireQueue s.clk.now x.f.ctx n 4096 (setQueue dv x.f.ctx n { v with fireReq := true }))
        else (false, dv)
      let r := eachLane ask (x.order dv) (noRetry dv x.f.uid x.act)
      some (.done (sendPreds x r.2 d r.1)))

/-- One lane of `qfire.gn`: an Armed node's counter above 0 falls by 1. -/
def fireNode (now : Word) (d : Dev) (c : Nat) (n : Word) : Bool × Dev :=
  if 4096 ≤ n.toNat then (false, d)
  else match ((d.ctx c).node n.toNat).state with
    | .armed (_ + 1) => (true, runNodes now (lowerNode d c [] n.toNat) c)
    | _ => (false, d)

/-- `qfire.gn` (R250, R253). -/
def execQfireGn (h : Hdr) (d : PredIdx) (n : Src) (s : State) : Host.Outcome State Fault Refusal :=
  issueOn (.qfireGn h d n) h s (ifActive fun x dv =>
    let f := x.fib dv
    let r := eachLane (fun dv L => fireNode s.clk.now dv f.ctx (srcZ dv f x.t L n)) (x.order dv) (noRetry dv f.uid x.act)
    some (.done (sendPreds x r.2 d r.1)))

/-- The status word of a queue (R253). -/
def queueStatus (d : Dev) (c qn : Nat) : Word :=
  let q := (d.ctx c).queue qn
  let held := match q.kind with
    | 2 => tasksHeld d c qn
    | 3 => q.tokens
    | _ => q.entries.length
  let free := (q.slots.filter Option.isNone).length
  BitVec.ofNat 64 (held % 2 ^ 16 + 2 ^ 16 * q.fld 0 16 16 + 2 ^ 32 * q.kind + (if q.isOpen then 2 ^ 36 else 0) + 2 ^ 40 * (free % 256) +
    2 ^ 48 * q.dropped)

/-- `qstat` (R253). -/
def execQstat (h : Hdr) (d : Reg) (q : Src) (s : State) : Host.Outcome State Fault Refusal :=
  issueOn (.qstat h d q) h s (ifActive fun x dv => match queueNo x dv q with
    | none => some x.illegal
    | some n => some (.done (sendResult x dv false true [d.toNat] 0 fun _ => [queueStatus dv x.f.ctx n])))

/-- `qstat.arg` (R253). -/
def execQstatArg (h : Hdr) (d : Reg) (k : BitVec 3) (s : State) : Host.Outcome State Fault Refusal :=
  issueOn (.qstatArg h d k) h s (ifActive fun x dv =>
    let f := x.fib dv
    let arg := match dv.grid? f.ctx x.t.lid with
      | some g => g.packet.getD (8 + k.toNat) 0
      | none => 0
    some (.done (sendResult x dv false true [d.toNat] 0 fun L => [if (f.thread L).task.isSome then 0 else arg])))

end Sys2Proof.Machine
end

