-- ==== Sys2Proof/Machine/Streams.lean ====
section
/-!
DEFINITION. Indirect stream registers (R182 to R185), computed register access (R78 to R80) and shapes (R81, R82).
-/

namespace Sys2Proof.Machine

/-! ### Streams -/

/-- Stream register `n` of a fibre, if it is open or draining. -/
def Fibre.stream (f : Fibre) (n : Nat) : Option Stream := f.streams.getD n none

/-- Replace a stream register. -/
def setStream (d : Dev) (uid n : Nat) (o : Option Stream) : Dev :=
  match d.fibre? uid with
  | none => d
  | some f => d.setFibre { f with streams := setAt f.streams n o }

/-- A stream that is open: not one that only drains. -/
def Fibre.openStream (f : Fibre) (n : Nat) : Option Stream :=
  match f.stream n with
  | some s => if s.closing then none else some s
  | none => none

/-- Bytes of an element of a stream. -/
def Stream.bytes (s : Stream) : Nat := 2 ^ s.size

/-- The space of a stream as an engine's. -/
def Stream.space (s : Stream) : TSpace := if s.scratch then .sp else .g

/-- Whom a stream of a fibre accesses memory for: its accesses stall on every direct command in flight that holds the bytes, and its reads are
relaxed loads of the lanes that opened it, which may take an older value where R187 lets them (R183, R196; assumption 70). -/
def Stream.engine (d : Dev) (s : Stream) (core ctx fib n : Nat) : Engine :=
  { core := core, ctx := ctx, fib := fib, since := s.since, direct := d.nextId, afterW := s.afterW, buf := s.buf, lanes := s.lanes,
    know := s.know, besides := s.besides, back := Config.older s.since (2 * s.prog), walker := ⟨core, 3 + n, fib⟩, index := false }

/-- `B[i]` of a stream (R183). -/
def streamIdx (d : Dev) (e : Engine) (t : Team) (s : Stream) (i : Nat) : TRes Nat :=
  if s.form = 2 then .ok i d
  else
    let w : Nat := if s.form = 0 then 4 else 8
    match engineRead d { e with index := true } t s.space s.index ((w * i : Nat) : Int) w with
    | .ok bs d => .ok (leNat bs) d
    | .bad k r va => .bad k r va
    | .wait d => .wait d

/-- Who writes a stream's elements: its fibre's engine, each write at the stream's event, after every access before the `sopen` (R185, R196). -/
def Stream.author (s : Stream) (e : Engine) (t : Team) (a : LaneAcc) : Author :=
  { event := s.event, flight := s.event / 192, fib := some e.fib, lane := (lowestLane s.lanes).getD 0, team := t.uid, core := e.core, host := a.host,
    hands := [] }

/-- Write one element of a write stream at its home, a plain write (R185, R188). -/
def streamWrite (d : Dev) (e : Engine) (t : Team) (s : Stream) (va : Word) (v : Word) : TRes Unit :=
  let n := s.bytes
  let bs := natLE n v.toNat
  if s.scratch then
    if va.toNat + n ≤ spBytes t then
      let a := e.acc va (spPlaces va.toNat n) 0
      if engineWriteHeld d e t va (spPlaces va.toNat n) then .wait d
      else .ok () (storeBytes d (s.author e t a) true false ((spPlaces va.toNat n).zip bs))
    else .bad 5 2 va
  else match translateEngine d e t true va n with
    | (.fault r _, _) => .bad 1 r va
    | (.wait _, d) => .wait d
    | (.parts ps, d) =>
      let a := e.acc va (ps.flatMap fun p => p.places e.core false) 0
      if engineWriteHeld d e t va (a.places.zip a.kinds) then .wait d
      else .ok () (storeBytes d (s.author e t a) true false ((a.places.zip a.kinds).zip bs))

/-- One step of a stream's engine (R183, R185): the stream and the device after it. DESIGN CHOICE (assumption 41): the engine takes the elements
in index order, one at each step, of the orders R183 allows. -/
def streamStep (d : Dev) (e : Engine) (t : Team) (s : Stream) : Stream × Dev :=
  let stop := fun (k r : Nat) (va : Word) => { s with stop := some (k, r, va) }
  match streamIdx d e t s s.prog with
  | .bad k r va => (stop k r va, d)
  | .wait d => (s, d)
  | .ok i d =>
    let va := s.base + BitVec.ofNat 64 (i * s.bytes)
    if s.write then
      match s.fifo with
      | [] => (s, d)
      | v :: rest => match streamWrite d e t s va v with
        | .bad k r a => (stop k r a, d)
        | .wait d => (s, d)
        | .ok () d => ({ s with fifo := rest, prog := s.prog + 1 }, d)
    else match engineRead d { e with back := Config.older s.since (2 * s.prog + 1) } t s.space va 0 s.bytes with
      | .bad k r a => (stop k r a, d)
      | .wait d => (s, d)
      | .ok bs d => ({ s with fifo := s.fifo ++ [leWord bs], prog := s.prog + 1 }, d)

/-- Whether a stream's engine has something to do. -/
def streamEnabled (d : Dev) (s : Stream) : Bool :=
  s.stop.isNone && (liveIds d s.after).isEmpty &&
  (if s.write then !s.fifo.isEmpty else decide (s.prog < s.count ∧ s.fifo.length < 64))

/-- The fault of a write stream that a `sclose` is draining freezes the fibre (R185). DESIGN CHOICE (assumption 84): at once, with the `sclose`'s
PC and lanes; `rfe` goes on with the drain and does not execute the `sclose` again. -/
def drainFault (clk : Clk) (d : Dev) (f : Fibre) (n : Nat) (s : Stream) : Dev :=
  match s.stop with
  | none => d
  | some (k, r, va) =>
    let g := d.flights.find? fun g => g.fib == f.uid && g.kind == .drain n
    let lanes := match g with
      | some g => LaneMask.ofLanes (g.acc.map LaneAcc.lane)
      | none => 0
    if s.closing then takeFault clk d f.uid (g.elim 0 Flight.pc) ⟨k, r, va, lanes, 0⟩ else d

/-! ### Streams of a fibre that has left (R98, R185) -/

/-- THE STREAMS OF A FIBRE THAT LEAVES: read streams are dropped, write streams drain by themselves; no `sclose` waits any more. -/
def detachStreams (d : Dev) (f : Fibre) : Dev :=
  let left := (f.streams.zipIdx).filterMap fun p => match p.1 with
    | some s => if s.write && !s.fifo.isEmpty then
        some { fib := f.uid, n := p.2, team := f.team, ctx := f.ctx, core := f.core, stream := { s with stop := none, closing := true } : Drain }
      else none
    | none => none
  { d with
    drains := d.drains ++ left
    flights := d.flights.filter fun g => !(g.fib == f.uid && match g.kind with
      | .drain _ => true
      | _ => false) }

/-- A write stream after one step of its drain; none once it holds nothing more. DESIGN CHOICE (assumption 60): no instruction is left to
raise its fault at, so an element that takes a page fault is tried again, and one that takes another fault is discarded. -/
def drainNext (old s : Stream) : Option Stream :=
  let s := match s.stop with
    | none => s
    | some (k, _, _) => if k = 1 then old else { s with stop := none, fifo := s.fifo.drop 1, prog := s.prog + 1 }
  if s.fifo.isEmpty then none else some s

/-- One step of a drain. -/
def drainStep (d : Dev) (w : Drain) : Dev :=
  match d.team? w.team with
  | none => d
  | some t =>
    if streamEnabled d w.stream then
      let r := streamStep d (w.stream.engine d w.core w.ctx w.fib w.n) t w.stream
      { r.2 with drains := r.2.drains.filterMap fun v =>
          if v.fib == w.fib && v.n == w.n then (drainNext w.stream r.1).map fun s => { v with stream := s } else some v }
    else d

/-- STREAM_RUN_AHEAD (R183): one element read ahead, or one written element drained, of a fibre or of one that has left. -/
def execStreamRunAhead (fibre n : Nat) (s : State) : Host.Outcome State Fault Refusal :=
  onDev s fun s => match s.dev.fibre? fibre with
    | none => match s.dev.drains.find? fun w => w.fib == fibre && w.n == n with
      | some w => drainStep s.dev w
      | none => s.dev
    | some f => match f.stream n, s.dev.team? f.team with
      | some st, some t =>
        if streamEnabled s.dev st then
          let r := streamStep s.dev (st.engine s.dev f.core f.ctx f.uid n) t st
          drainFault s.clk (setStream r.2 fibre n (some r.1)) f n r.1
        else s.dev
      | _, _ => s.dev

/-- STREAM_DRAIN_COMPLETE (R185): every written element has performed, before the later accesses of the threads that closed the stream, and the
predicate of `sclose` becomes true. -/
def execStreamDrainComplete (fibre n : Nat) (s : State) : Host.Outcome State Fault Refusal :=
  onDev s fun s => match s.dev.fibre? fibre with
    | none => s.dev
    | some f => match f.stream n, s.dev.flights.find? fun g => g.fib == fibre && g.kind == .drain n with
      | some st, some g =>
        if st.closing && st.fifo.isEmpty then
          perform s.clk.now [] (knowAfter (setStream s.dev fibre n none) fibre (LaneMask.ofLanes (g.acc.map LaneAcc.lane)) .sys st.event) g
        else s.dev
      | _, _ => s.dev

/-- The description `sopen` reads, if R183 allows it. -/
def streamDesc (d : Dev) (f : Fibre) (write : Bool) (r : Nat) (m : LaneMask) : Option Stream :=
  let v := fun k => regLane d f (r + k) 0
  let opt := v 3
  if !groupU d f r 4 || decide (2 ^ 40 < (v 2).toNat) || field opt 2 2 == 3 || field opt 5 59 != 0 then none
  else some
    { write := write, base := v 0, index := v 1, count := (v 2).toNat, size := field opt 0 2, form := field opt 2 2,
      scratch := opt.getLsbD 4, pos := 0, fifo := [], prog := 0, stop := none, closing := false,
      after := engineAfter d f.uid m, afterW := engineAfterW d f.uid m, since := d.nextId, lanes := m,
      know := knownTo f m, besides := besidesOf f m, event := soleEv d.nextId, buf := taskBuf f m }

/-- Open a stream, whose event takes the next identity. -/
def openStream (d : Dev) (uid n : Nat) (s : Stream) : Dev := setStream { d with nextId := d.nextId + 1 } uid n (some s)

/-- The fault of a stopped write stream at an instruction of its fibre (R185). -/
def writeStop (x : Iss) (st : Stream) : Option Res :=
  match st.write, st.stop with
  | true, some (k, r, va) => some (x.pre k r va x.act)
  | _, _ => none

/-- `sopen` (R183): a write stream that is still open drains first. -/
def sopenBody (write : Bool) (n : Nat) (a : Reg) : Body := ifActive fun x d =>
  let f := x.fib d
  match streamDesc d f write a.toNat x.act with
  | none => some x.illegal
  | some st => match f.stream n with
    | none => some (.done (openStream d f.uid n st))
    | some old =>
      match writeStop x old with
      | some r => some r
      | none => if old.write && (old.closing || !old.fifo.isEmpty) then none else some (.done (openStream d f.uid n st))

/-- `sopen.r` (R183). -/
def execSopenR (h : Hdr) (n : BitVec 3) (a : Reg) (s : State) : Host.Outcome State Fault Refusal :=
  issueOn (.sopenR h n a) h s (sopenBody false n.toNat a)

/-- `sopen.w` (R183). -/
def execSopenW (h : Hdr) (n : BitVec 3) (a : Reg) (s : State) : Host.Outcome State Fault Refusal :=
  issueOn (.sopenW h n a) h s (sopenBody true n.toNat a)

/-- The rank of a lane among some lanes (R184). -/
def rankIn (ls : List Nat) (L : Nat) : Nat := ls.findIdx (· == L)

/-- `snext` (R184, R185): it waits for its elements; where the run-ahead has stopped on a fault, the lanes of lower rank commit. -/
def execSnext (h : Hdr) (d : Reg) (n : BitVec 3) (s : State) : Host.Outcome State Fault Refusal :=
  issueOn (.snext h d n) h s (ifActive fun x dv =>
    match (x.fib dv).openStream n.toNat with
    | none => some x.illegal
    | some st =>
      if st.write then some x.illegal
      else
        let ls := x.lanes
        let need := min ls.length (st.count - st.pos)
        let have' := min need st.fifo.length
        let give := fun (gs : List Nat) (k : Nat) =>
          let dv := setStream dv x.f.uid n.toNat (some { st with fifo := st.fifo.drop k, pos := st.pos + k })
          if gs.isEmpty then dv
          else addFlight dv { mkFlight x (.result false false) (gs.map fun L => laneOps L [st.fifo.getD (rankIn ls L) 0]) [d.toNat] none with
            full := LaneMask.ofLanes gs == x.f.live }
        if have' = need then some (.done (give ls need))
        else match st.stop with
          | none => none
          | some (k, r, va) =>
            let bad := LaneMask.ofLanes (ls.drop have')
            let dv := give (ls.take have') have'
            some (.trap (dv.setFibre (keepPc x bad (x.fib dv))) ⟨k, r, va, bad, 0⟩))

/-- `stest` (R184). -/
def execStest (h : Hdr) (d : PredIdx) (n : BitVec 3) (s : State) : Host.Outcome State Fault Refusal :=
  issueOn (.stest h d n) h s (ifActive fun x dv =>
    some (.done (sendPred x dv d fun L => match (x.fib dv).openStream n.toNat with
      | none => true
      | some st => decide (st.count ≤ st.pos + rankIn x.lanes L))))

/-- A write stream with the words of some lanes put in: its writes follow what those lanes' threads have ordered before (R196). -/
def Stream.put (s : Stream) (d : Dev) (fib : Nat) (m : LaneMask) (vs : List Word) (k : Nat) : Stream :=
  { s with
    fifo := s.fifo ++ vs
    pos := s.pos + k
    after := dedupNat (liveIds d s.after ++ engineAfter d fib m)
    afterW := dedupNat (liveIds d s.afterW ++ engineAfterW d fib m)
    since := d.nextId }

/-- `sput` (R184, R185): it waits for room. -/
def execSput (h : Hdr) (n : BitVec 3) (a : Reg) (s : State) : Host.Outcome State Fault Refusal :=
  issueOn (.sput h n a) h s (ifActive fun x dv =>
    let f := x.fib dv
    match f.openStream n.toNat with
    | none => some x.illegal
    | some st =>
      if !st.write then some x.illegal
      else match writeStop x st with
        | some r => some r
        | none =>
          let k := min x.lanes.length (st.count - st.pos)
          if 64 < st.fifo.length + k then none
          else
            let vs := (x.lanes.take k).map fun L => BitVec.ofNat 64 ((regLane dv f a.toNat L).toNat % 2 ^ (8 * st.bytes))
            some (.done (setStream dv f.uid n.toNat
              (some (st.put dv f.uid x.act vs k)))))

/-- `sclose` (R185): a read stream closes at once; a write stream once it has drained. A stream that is not open has nothing to close. DESIGN
CHOICE (assumption 85): a stream that an earlier `sclose` still drains is not open. -/
def execSclose (h : Hdr) (d : PredIdx) (n : BitVec 3) (s : State) : Host.Outcome State Fault Refusal :=
  issueOn (.sclose h d n) h s (ifActive fun x dv =>
    match (x.fib dv).openStream n.toNat with
    | none => some (.done (sendPred x dv d fun _ => true))
    | some st =>
      if !st.write then some (.done (sendPred x (setStream dv x.f.uid n.toNat none) d fun _ => true))
      else match writeStop x st with
        | some r => some r
        | none =>
          let dv := setStream dv x.f.uid n.toNat (some { st with closing := true })
          some (.done (addFlight dv (mkFlight x (.drain n.toNat) (x.lanes.map fun L => laneOps L []) []
            (if d.toNat < 24 then some d.toNat else none)))))

/-! ### Computed registers (R78 to R80) -/

/-- The index of a computed access in a lane. -/
def rxIdx (d : Dev) (f : Fibre) (i : RegImm) (L : Nat) : Nat := (riVal d f L i).toNat

/-- The registers that some lanes name. -/
def rxNamed (d : Dev) (f : Fibre) (i : RegImm) (m : LaneMask) : List Nat := dedupNat (m.lanes.map (rxIdx d f i))

/-- The lanes whose index is out of range (R79). -/
def rxBad (x : Iss) (d : Dev) (i : RegImm) : LaneMask :=
  lanesWhere fun L => x.act.has L && decide (min x.f.nAlloc 255 ≤ rxIdx d (x.fib d) i L)

/-- The shape of a register as a value with the same tag. -/
def Sh.ofReg (v : VReg) : Sh :=
  match v with
  | .u _ => .u
  | .a b s => .a b s
  | .g _ => .g

/-- `rxld` (R79, R80): it waits for pending registers it reads, and an early read of a fixed-latency result faults under checking
(R47). -/
def execRxld (h : Hdr) (d : Reg) (i : RegImm) (s : State) : Host.Outcome State Fault Refusal :=
  issueOn (.rxld h d i) h s (ifActive fun x dv =>
    let f := x.fib dv
    let bad := rxBad x dv i
    let named := rxNamed dv f i x.act
    if bad ≠ 0 then some (x.pre 3 0 0 bad)
    else if named.any (regPending dv f) then none
    else
      match (if f.chk then underrun f x.c x.s.clk.cycle 31 (uses (named.map fun r => ⟨r, 1, true, none, false⟩)) else none) with
      | some pc => some (x.pre 7 0 pc x.act)
      | none =>
        let sh := if riU dv f i && x.full then Sh.ofReg (regOf dv f (named.headD 255)) else .g
        some (.done (dv.setFibre (pushW x f d.toNat 6 (outReg x sh fun L => regLane dv f (rxIdx dv f i L) L)))))

/-- `rxst` (R79, R80): a variable-latency write of every register some lane names. -/
def execRxst (h : Hdr) (i : RegImm) (b : Reg) (s : State) : Host.Outcome State Fault Refusal :=
  issueOn (.rxst h i b) h s (ifActive fun x dv =>
    let f := x.fib dv
    let bad := rxBad x dv i
    let named := rxNamed dv f i x.act
    if bad ≠ 0 then some (x.pre 3 0 0 bad)
    else if named.any fun r => regOwed dv f x.c.lanes r || wawReg f x.c.lanes x.s.clk.cycle r 0 then none
    else
      let full := riU dv f i && x.full
      let one := fun (dv : Dev) (r : Nat) =>
        let ls := x.lanes.filter fun L => rxIdx dv f i L == r
        addFlight dv { mkFlight x (.regw (if full then regOf dv f b.toNat else .g ((List.range f.width).map fun L => regLane dv f b.toNat L)))
          (ls.map fun L => laneOps L []) [r] none with full := full }
      some (.done (named.foldl one dv)))

/-! ### Shapes (R81, R82) -/

/-- Tag code of a register (R82). -/
def tagCode : VReg → Nat
  | .u _ => 0
  | .a _ _ => 1
  | .g _ => 2

/-- `shpget` (R82). -/
def execShpget (h : Hdr) (d : Reg) (a : Reg) (s : State) : Host.Outcome State Fault Refusal :=
  issueOn (.shpget h d a) h s (vecBody d 4 (fun _ _ => .u) fun x dv _ => (BitVec.ofNat 64 (tagCode (regOf dv (x.fib dv) a.toNat)), 0))

/-- Schedule a register value as it stands, with its own shape (R9, R82). -/
def shpBody (d : Reg) (v : Iss → Dev → VReg) : Body := fun x dv => some (.done (dv.setFibre (pushShape x (x.fib dv) d.toNat 4 (v x dv))))

/-- The live lanes with their values of a register. -/
def liveVals (d : Dev) (f : Fibre) (r : Nat) : List (Nat × Word) := f.live.lanes.map fun L => (L, regLane d f r L)

/-- `shpset.u` (R82). -/
def narrowU (d : Dev) (f : Fibre) (r : Nat) : VReg :=
  match liveVals d f r with
  | [] => regOf d f r
  | (_, x) :: vs => if vs.all fun v => v.2 == x then .u x else regOf d f r

/-- `shpset.a` (R82). -/
def narrowA (d : Dev) (f : Fibre) (r : Nat) : VReg :=
  let vs := liveVals d f r
  match vs with
  | [] => regOf d f r
  | [(_, x)] => .a x 0
  | (L0, x0) :: (L1, x1) :: _ =>
    let diff := (x1 - x0).toInt
    let k : Int := (L1 : Int) - L0
    if diff % k ≠ 0 then regOf d f r
    else
      let s := BitVec.ofInt 64 (diff / k)
      let b := x0 - BitVec.ofNat 64 L0 * s
      if vs.all fun v => v.2 == b + BitVec.ofNat 64 v.1 * s then .a b s else regOf d f r

/-- `shpset.u` (R82). -/
def execShpsetU (h : Hdr) (d : Reg) (a : Reg) (s : State) : Host.Outcome State Fault Refusal :=
  issueOn (.shpsetU h d a) h s (shpBody d fun x dv => narrowU dv (x.fib dv) a.toNat)

/-- `shpset.a` (R82). -/
def execShpsetA (h : Hdr) (d : Reg) (a : Reg) (s : State) : Host.Outcome State Fault Refusal :=
  issueOn (.shpsetA h d a) h s (shpBody d fun x dv => narrowA dv (x.fib dv) a.toNat)

/-- `shpset.g` (R82). -/
def execShpsetG (h : Hdr) (d : Reg) (a : Reg) (s : State) : Host.Outcome State Fault Refusal :=
  issueOn (.shpsetG h d a) h s (shpBody d fun x dv => .g ((List.range x.f.width).map fun L => regLane dv (x.fib dv) a.toNat L))

end Sys2Proof.Machine
end

