-- ==== Sys2Proof/Machine/Tile.lean ====
section
/-!
DEFINITION. Pallet reservations, accumulator tiles, convergence registers and matrix operations (R203 to R212, R221).
-/

namespace Sys2Proof.Machine

/-! ### Reservations (R204, R205) -/

/-- Whether a format code is a bond format. -/
def isBond (c : Nat) : Bool := decide (12 ≤ c)

/-- Format of a record. -/
def recFmt (r : Word) : Nat := field r 17 4

/-- Scale offset of a record. -/
def recOff (r : Word) : Nat := field r 24 18

/-- Blocks of a bond reservation. -/
def recBlocks (r : Word) : Nat := recOff r / mantBytes (recFmt r)

/-- R204: whether a reservation record is legal for a team's granules. -/
def recordOk (granules : Nat) (r : Word) : Bool :=
  let len := field r 8 9
  let fmt := recFmt r
  decide (1 ≤ len) && decide (len ≤ 256) && decide (field r 0 8 + len ≤ granules) && fmt != 15 && (field r 21 1 == 1) == isBond fmt &&
  field r 22 2 == 0 && field r 42 22 == 0 && decide (recOff r < len * 1024) && (isBond fmt || recOff r == 0) &&
  (!isBond fmt || decide (recOff r + 2 * recBlocks r ≤ len * 1024))

/-- Capacity of a reservation in elements (R204). -/
def capacity (r : Word) : Nat := if isBond (recFmt r) then 16 * recBlocks r else field r 8 9 * 1024 / (fmtWidth (recFmt r) / 8)

/-- Whether two records' granule ranges overlap. -/
def recOverlap (a b : Word) : Bool :=
  decide (field a 0 8 < field b 0 8 + field b 8 9 ∧ field b 0 8 < field a 0 8 + field a 8 9)

/-- `plres` (R205). -/
def execPlres (h : Hdr) (d : PredIdx) (pl : BitVec 3) (b : Reg) (s : State) : Host.Outcome State Fault Refusal :=
  issueOn (.plres h d pl b) h s (ifActive fun x dv =>
    let f := x.fib dv
    let t := x.team dv
    let r := regLane dv f b.toNat 0
    if plainShape dv f b.toNat != .u || !recordOk t.hdr.pallet r then some x.illegal
    else
      let ok := (handleOf t pl.toNat).isNone && !(t.handles.any fun o => match o with
        | some g => recOverlap g.record r
        | none => false)
      let dv := if ok then dv.setTeam { t with handles := setAt t.handles pl.toNat (some ⟨r, 1, 16⟩) } else dv
      some (.done (sendPred x dv d fun _ => ok)))

/-- `plrel` (R205): it has waited for the operations that name the handle. -/
def execPlrel (h : Hdr) (pl : BitVec 3) (s : State) : Host.Outcome State Fault Refusal :=
  issueOn (.plrel h pl) h s (ifActive fun x d =>
    let t := x.team d
    some (.done (d.setTeam { t with
      handles := setAt t.handles pl.toNat none
      shadow := t.shadow.filter fun b => b.obj != 8 + pl.toNat })))

/-! ### Matrix operations (R209 to R211) -/

/-- Format code of an `mma` type. -/
def mmaFmt : MmaTy → Nat
  | .f16 => 8
  | .bf16 => 9
  | .bd2 => 12
  | .bd4 => 13
  | .bd7 => 14

/-- Cycles an operation occupies its unit (R19). -/
def mmaCycles : MmaTy → Nat
  | .bd2 => 2
  | .bd4 => 4
  | .bd7 => 8
  | .f16 | .bf16 => 16

/-- Element `i` of a row from its register group (R209). -/
def rowElemVal (t : MmaTy) (ws : List Word) (i : Nat) : FVal :=
  let blk := (ws.zip (List.range 4)).foldl (fun n p => n + p.1.toNat * 2 ^ (64 * p.2)) 0
  match t with
  | .f16 => fval .f16 false (sub (ws.getD (i / 4) 0) 16 (i % 4))
  | .bf16 => fval .bf16 false (sub (ws.getD (i / 4) 0) 16 (i % 4))
  | .bd2 => bondVal 2 blk i
  | .bd4 => bondVal 4 blk i
  | .bd7 => bondVal 7 blk i

/-- Row `r` of A: that of the highest logical thread that supplies it, otherwise zeros (R209). -/
def rowOf (rows : List (Nat × List Word)) (r : Nat) : List Word :=
  match ((sortBy Prod.fst rows).filter fun p => p.1 % 32 == r).getLast? with
  | some p => p.2
  | none => []

/-- The exact value of a B element. -/
def bElemVal (t : MmaTy) (e : BitVec 32) : FVal :=
  match t with
  | .f16 => fval .f16 false e.toNat
  | .bf16 => fval .bf16 false e.toNat
  | _ => fval .f32 false e.toNat

/-- Element `e` of a reservation in the visible Pallet: the encoding itself, or a bond element as an `f32` (R35, R204). -/
def palletElem (t : Team) (h : Handle) (e : Nat) : BitVec 32 :=
  let base := h.range.1
  let fmt := recFmt h.record
  if isBond fmt then
    let mb := mantBytes fmt
    let b := e / 16
    let blk := leNat (memBytes t.pallet (base + recOff h.record + 2 * b) 2) + leNat (memBytes t.pallet (base + b * mb) mb) * 65536
    BitVec.ofNat 32 (dqntR ([2, 4, 7].getD (fmt - 12) 7) blk (e % 16))
  else BitVec.ofNat 32 (leNat (memBytes t.pallet (base + e * (fmtWidth fmt / 8)) (fmtWidth fmt / 8)))

/-- The element number of B element (k, n) (R210). -/
def bElemNo (h : Handle) (e0 k n : Nat) : Int := (e0 : Int) + k * h.sk.toInt + n * h.sc.toInt

/-- The 16 × 32 B tile at issue. -/
def bTile (t : Team) (h : Handle) (e0 : Nat) : List (List (BitVec 32)) :=
  (List.range 16).map fun k => (List.range 32).map fun n => palletElem t h (bElemNo h e0 k n).toNat

/-- The checks on a B value (R210), in order: handle, format, alignment, range. -/
def bCheck (x : Iss) (t : Team) (ty : MmaTy) (v : Word) : Option Res :=
  let e0 := field v 3 61
  match handleOf t (v.toNat % 8) with
  | none => some (x.pre 5 2 v x.act)
  | some h =>
    let cap := capacity h.record
    let corners := [bElemNo h e0 0 0, bElemNo h e0 15 0, bElemNo h e0 0 31, bElemNo h e0 15 31]
    if recFmt h.record ≠ mmaFmt ty then some x.illegal
    else if isBond (mmaFmt ty) && e0 % 16 != 0 then some (x.pre 5 1 v x.act)
    else if corners.any fun e => decide (e < 0 ∨ (cap : Int) ≤ e) then some (x.pre 5 2 v x.act)
    else none

/-- The cycle from which a quadrant's matrix unit is free. -/
def unitFree (d : Dev) (core quad cycle : Nat) : Nat :=
  ((d.teams.filter fun t => t.core == core).flatMap Team.mmas).foldl (fun a m => if m.quad == quad && !m.held then max a m.ready else a) cycle

/-- The cycle from which an operation on a tile of a team may start: after the earlier ones on it (R38, R211). -/
def tileFree (t : Team) (ta cycle : Nat) : Nat := t.mmas.foldl (fun a m => if m.ta == ta then max a m.ready else a) cycle

/-- ISSUE A MATRIX OPERATION on a quadrant's unit, which starts it after those it already has and after those on its tile (R211). DESIGN CHOICE
(assumption 78): the handle's K and column strides are those of this moment, for a convergence register the completion of its set. -/
def issueMma (d : Dev) (team quad cycle : Nat) (r : MmaRec) (rows : List (Nat × List Word)) : Dev :=
  match d.team? team with
  | none => d
  | some t => match handleOf t (r.b.toNat % 8) with
    | none => d
    | some h =>
      let m : MmaOpn :=
        { id := d.nextId, quad := quad, ta := r.ta, t := r.t, z := r.z, handle := r.b.toNat % 8, rows := rows,
          b := bTile t h (field r.b 3 61), ready := max (unitFree d t.core quad cycle) (tileFree t r.ta cycle) + mmaCycles r.t,
          pc := r.pc, held := false }
      { d with nextId := d.nextId + 1 }.setTeam { t with mmas := t.mmas ++ [m] }

/-- The tile image after an operation (R38, R211). -/
def mmaImage (t : Team) (m : MmaOpn) : List Byte :=
  (List.range 32).flatMap fun r =>
    let row := rowOf m.rows r
    let a := (List.range 16).map (rowElemVal m.t row)
    (List.range 32).flatMap fun n =>
      let c := if m.z then 0 else leNat (memBytes t.tile (tileAt m.ta + 128 * r + 4 * n) 4)
      natLE 4 (mmaStep ((List.range 16).map fun k => (a.getD k (.fin false 0 0), bElemVal m.t ((m.b.getD k []).getD n 0))) c)

/-- Complete an operation of a team: it updates its tile (R211). -/
def completeMma (d : Dev) (t : Team) (m : MmaOpn) : Dev :=
  d.setTeam (touchTile { t with
    tile := memPut t.tile (tileAt m.ta) (mmaImage t m)
    mmas := t.mmas.filter fun k => k.id != m.id } m.ta)

/-- Whether an operation's unit time is over and no earlier operation on its tile is left (R211). -/
def MmaOpn.over (m : MmaOpn) (t : Team) (cycle : Nat) : Bool :=
  !m.held && decide (m.ready ≤ cycle) && !t.mmas.any fun k => k.ta == m.ta && decide (k.id < m.id)

/-- An operation that its unit has not started before the cycle waits for the team's restore (R19; assumption 18). -/
def holdMma (cycle : Nat) (m : MmaOpn) : MmaOpn := if cycle + mmaCycles m.t ≤ m.ready then { m with held := true } else m

/-- The operations of a Pre-empted context: one that its unit has started completes with its unit time, at most 16 cycles after the request;
one that still waits does not start (R19). -/
def endMmas (cycle : Nat) (d : Dev) : Dev :=
  let stopped := fun (t : Team) => (d.ctx t.ctx).state == .preempted
  let d := { d with teams := d.teams.map fun t => if stopped t then { t with mmas := t.mmas.map (holdMma cycle) } else t }
  ((d.teams.filter stopped).flatMap fun t => t.mmas.map fun m => (t.uid, m)).foldl (fun d p => match d.team? p.1 with
    | some t => if p.2.over t cycle then completeMma d t p.2 else d
    | none => d) d

/-- A restored team's held operations go to its core's units again, in order (R19, R211). -/
def resumeMmas (cycle : Nat) (d : Dev) (team : Nat) : Dev :=
  match d.team? team with
  | none => d
  | some t => t.mmas.foldl (fun d m => match d.team? team with
    | some u => if m.held then
        d.setTeam { u with mmas := u.mmas.map fun k => if k.id == m.id then
          { m with ready := max (unitFree d u.core m.quad cycle) (tileFree { u with mmas := u.mmas.filter fun k => !k.held } m.ta cycle) + mmaCycles m.t, held := false } else k }
        else d
    | none => d) d

/-- MMA_COMPLETE (R211): an operation whose unit time is over, and which no earlier one on its tile precedes, updates the tile. -/
def execMmaComplete (id : Nat) (s : State) : Host.Outcome State Fault Refusal :=
  onDev s fun s => match s.dev.teams.find? fun t => t.mmas.any fun m => m.id == id with
    | none => s.dev
    | some t => match t.mmas.find? fun m => m.id == id with
      | none => s.dev
      | some m =>
        if m.over t s.clk.cycle then completeMma s.dev t m else s.dev

/-! ### Convergence registers (R208) -/

/-- The fibre of a team that holds a logical thread that has not exited. -/
def threadFibre (d : Dev) (team lg : Nat) : Option Fibre :=
  d.fibres.find? fun f => f.team == team && f.live.lanes.any fun L => logicalOf f L == lg

/-- Convergence register `k` of a team. -/
def Team.cv (t : Team) (k : Nat) : Conv := t.cvs.getD k .idle

/-- Replace a convergence register. -/
def setCv (d : Dev) (team k : Nat) (c : Conv) : Dev :=
  match d.team? team with
  | none => d
  | some t => d.setTeam { t with cvs := setAt t.cvs k c }

/-- Whether the set of a register is complete: the `n`-th signature, or every thread of a fixed set signed or exited. -/
def cvDone (d : Dev) (team : Nat) : Conv → Bool
  | .idle => false
  | .armed (some n) _ signed _ _ => decide (n ≤ signed.length)
  | .armed none set signed _ _ => set.all fun g => signed.contains g || (threadFibre d team g).isNone

/-- Note the PC of an instruction that changes or signs a register (R327). -/
def noteCv (d : Dev) (team k : Nat) (pc : Word) : Dev :=
  match d.team? team with
  | none => d
  | some t => d.setTeam { t with cvPcs := setAt t.cvPcs k pc }

/-- Complete a register's set if it is complete: it becomes Idle and the recorded operation issues on the unit of the last signer's
quadrant (R208, R211). -/
def checkCv (cycle : Nat) (d : Dev) (team k : Nat) : Dev :=
  match d.team? team with
  | none => d
  | some t => match t.cv k with
    | .idle => d
    | .armed n set signed op rows =>
      if cvDone d team (.armed n set signed op rows) then
        let d := setCv d team k .idle
        match op with
        | none => d
        | some r =>
          issueMma d team r.quad cycle r rows
      else d

/-- Whether a logical thread may sign a register now. -/
def canSign (c : Conv) (lg : Nat) : Bool :=
  match c with
  | .idle => false
  | .armed n set signed _ _ => !signed.contains lg && (n.isSome || set.contains lg)

/-- One lane signs, with a row or without; a lane that cannot is left over. Answers the device and the lanes that have signed. -/
def signLane (x : Iss) (k : Nat) (op : Option MmaRec) (row : Nat → List Word) (acc : Dev × List Nat) (L : Nat) : Dev × List Nat :=
  let d := acc.1
  let lg := logicalOf (x.fib d) L
  match (x.team d).cv k with
  | .idle => acc
  | .armed n set signed rec rows =>
    if canSign (.armed n set signed rec rows) lg then
      let rows := if op.isSome then rows ++ [(lg, row L)] else rows
      let op := (rec.orElse fun _ => op).map fun r => { r with quad := x.f.quad }
      let d := noteCv (setCv d x.t.uid k (.armed n set (signed ++ [lg]) op rows)) x.t.uid k x.c.pc
      (checkCv x.s.clk.cycle d x.t.uid k, acc.2 ++ [L])
    else acc

/-- The latch of the issuing path. -/
def latchOf (x : Iss) (f : Fibre) : Option Latch := f.latches.find? fun l => l.pc == x.c.pc && l.depth == x.c.depth

/-- The active lanes sign one by one; those that cannot wait at the instruction (R208), where the path's latch stays for them (R212). DESIGN
CHOICE (assumption 78): they sign in ascending logical order, which decides which of them sign where a set completes midway. -/
def signBody (x : Iss) (d : Dev) (k : Nat) (op : Option MmaRec) (row : Nat → List Word) : Option Res :=
  let r := (x.order d).foldl (signLane x k op row) (d, [])
  if r.2.isEmpty then none
  else
    let stay := x.act &&& ~~~(LaneMask.ofLanes r.2)
    let f := keepPc x stay (x.fib r.1)
    let held := if stay ≠ 0 ∧ op.isSome ∧ x.h.ru = true then (latchOf x x.f).toList else []
    some (.done (r.1.setFibre { f with latches := held ++ f.latches }))

/-- `cvset` on an idle register arms it; on an armed one it waits (R208). -/
def cvsetBody (k : Nat) (arm : Iss → Dev → Conv) : Body := fun x d =>
  match (x.team d).cv k with
  | .idle => some (.done (noteCv (setCv d x.t.uid k (arm x d)) x.t.uid k x.c.pc))
  | .armed .. => none

/-- `cvset.n` (R208). -/
def execCvsetN (h : Hdr) (cv : BitVec 4) (a : Src) (s : State) : Host.Outcome State Fault Refusal :=
  issueOn (.cvsetN h cv a) h s (ifActive fun x d =>
    let n := (srcZ d (x.fib d) x.t ((lowestLane x.act).getD 0) a).toNat
    if !srcU d (x.fib d) a || decide (n < 1) || decide (1024 < n) then some x.illegal
    else cvsetBody cv.toNat (fun _ _ => .armed (some n) [] [] none []) x d)

/-- `cvset.f` (R208). -/
def execCvsetF (h : Hdr) (cv : BitVec 4) (s : State) : Host.Outcome State Fault Refusal :=
  issueOn (.cvsetF h cv) h s (ifActive (cvsetBody cv.toNat fun x d =>
    .armed none (x.lanes.map (logicalOf (x.fib d))) [] none []))

/-- `cvsign` (R208). -/
def execCvsign (h : Hdr) (cv : BitVec 4) (s : State) : Host.Outcome State Fault Refusal :=
  issueOn (.cvsign h cv) h s (ifActive fun x d => signBody x d cv.toNat none fun _ => [])

/-! ### `mma` (R207 to R212) -/

/-- Give the path's next instruction a latch. -/
def setLatch (x : Iss) (f : Fibre) (l : Latch) : Fibre :=
  { f with latches := { l with pc := x.c.pc + 12, depth := x.c.depth } :: (releaseLatch x.c f).latches }

/-- The register group of a lane. -/
def groupWords (d : Dev) (f : Fibre) (a n L : Nat) : List Word := (List.range n).map fun k => regLane d f (a + k) L

/-- The A group of an `mma`: the rows by lane and the fibre with its latch; none when a latched group has another register or type. -/
def aGroup (x : Iss) (d : Dev) (o : MmaOp) : Option ((Nat → List Word) × Fibre) :=
  let f := x.fib d
  let a := o.a.toNat
  let read := groupWords d f a o.t.regs
  if !x.h.ru then some (read, f)
  else match latchOf x f with
    | none =>
      some (read, setLatch x f { a := a, t := o.t, pc := 0, depth := 0, rows := f.live.lanes.map fun L => (L, read L) })
    | some l =>
      if l.a = a ∧ l.t = o.t then
        some (fun L => ((l.rows.find? fun p => p.1 == L).map Prod.snd).getD [], setLatch x f l)
      else none

/-- With no lane active an `mma` does nothing; with `ru` it keeps the path's latch. -/
def idleMma (x : Iss) (d : Dev) : Dev :=
  let f := x.fib d
  match latchOf x f with
  | some l => if x.h.ru then d.setFibre (setLatch x f l) else d
  | none => d

/-- `mma` that issues at once. -/
def mmaNow (o : MmaOp) : Body := fun x d =>
  if x.act = 0 then some (.done (idleMma x d))
  else
    let f := x.fib d
    let v := riVal d f 0 o.b
    if !riU d f o.b then some x.illegal
    else match aGroup x d o, bCheck x (x.team d) o.t v with
      | none, _ => some x.illegal
      | some _, some r => some r
      | some (rows, f), none =>
        some (.done (issueMma (d.setFibre f) x.t.uid f.quad x.s.clk.cycle ⟨o.ta.toNat, o.t, o.z, v, x.c.pc, f.quad⟩
          ((x.order d).map fun L => (logicalOf f L, rows L))))

/-- `mma` that signs a convergence register. -/
def mmaSign (k : Nat) (o : MmaOp) : Body := fun x d =>
  if x.act = 0 then some (.done (idleMma x d))
  else
    let f := x.fib d
    let v := riVal d f 0 o.b
    let r : MmaRec := ⟨o.ta.toNat, o.t, o.z, v, x.c.pc, f.quad⟩
    let c := (x.team d).cv k
    if !riU d f o.b then some x.illegal
    else if !(x.lanes.any fun L => canSign c (logicalOf f L)) then none
    else match aGroup x d o with
      | none => some x.illegal
      | some (rows, f) => match c with
        | .armed _ _ _ (some q) _ => if { q with pc := r.pc, quad := r.quad } = r then signBody x (d.setFibre f) k (some r) rows else some x.illegal
        | _ => match bCheck x (x.team d) o.t v with
          | some e => some e
          | none => signBody x (d.setFibre f) k (some r) rows

/-- `mma` (R209, R211). -/
def execMma (h : Hdr) (o : MmaOp) (s : State) : Host.Outcome State Fault Refusal := issueWith (.mma h o) h h.ru s (mmaNow o)

/-- `mma` with a convergence register (R208). -/
def execMmaCv (h : Hdr) (cv : BitVec 4) (o : MmaOp) (s : State) : Host.Outcome State Fault Refusal :=
  issueWith (.mmaCv h cv o) h h.ru s (mmaSign cv.toNat o)

/-- Whether a resolved record is one `mma.shape` takes for a reservation (R210). -/
def mmaShapeOk (sh : Shape) (pb : ParamBlock) (r : Word) : Bool :=
  sh.ext == [16, 32, 1, 1] && pb.ndims == 2 && sh.fmt == recFmt r && sh.blk == isBond (recFmt r) && pb.s9.isZero && pb.s10.isZero &&
  (!isBond sh.fmt || (sh.str.getD 0 0 == 1 && (sh.str.getD 1 0).toNat % 16 == 0))

/-- Whether the literals of a parameter block let it be one that `mma.shape` takes: a check on the word, made whatever the guard (R44, R210). -/
def mmaShapeLit (pb : ParamBlock) : Bool :=
  pb.ndims == 2 && litOr (· == 16) pb.s0 && litOr (· == 32) pb.s1 && pb.s9.isZero && pb.s10.isZero && (pb.blk == 1) == isBond pb.fmt &&
  (!isBond pb.fmt || (litOr (· == 1) pb.s4 && litOr (fun v => v.toNat % 16 == 0) pb.s5))

/-- `mma.shape` (R210). -/
def execMmaShape (h : Hdr) (pl : BitVec 3) (pb : ParamBlock) (s : State) : Host.Outcome State Fault Refusal :=
  issueOn (.mmaShape h pl pb) h s fun x d => if !mmaShapeLit pb then some x.illegal else ifActive (fun x d =>
    let t := x.team d
    match handleOf t pl.toNat with
    | none => some (x.pre 5 2 (BitVec.ofNat 64 pl.toNat) x.act)
    | some g => match resolveShape d (x.fib d) pb with
      | none => some x.illegal
      | some sh =>
        if mmaShapeOk sh pb g.record then
          some (.done (d.setTeam { t with handles := setAt t.handles pl.toNat (some { g with sk := sh.str.getD 0 0, sc := sh.str.getD 1 0 }) }))
        else some x.illegal) x d

/-! ### Tiles and memory (R206, R221) -/

/-- The checks and the single 4,096-byte access of `accld` and `accst`. A fault has no effect: every active lane stays at the instruction. -/
def tileAccess (o : TileMem) (write : Bool) (go : Iss → Dev → List Good → Option Dev) : Body := ifActive fun x d =>
  let f := x.fib d
  let low := (lowestLane x.act).getD 0
  if plainShape d f o.addr.base.toNat != .u || !riU d f o.addr.off then some x.illegal
  else memoryBy x d o.sp (fun _ => ⟨4096, write, 4, true, false, if write then 9 else 8⟩) [low] (addrLane d f o.addr) x.act (go x)

/-- `accld` (R206). -/
def execAccld (h : Hdr) (o : TileMem) (s : State) : Host.Outcome State Fault Refusal :=
  issueOn (.accld h o) h s (tileAccess o false fun x d gs => sendLoads x d o.sp 4096 (.accld o.ta.toNat) o.ord o.sc [] gs)

/-- `accst` (R206). -/
def execAccst (h : Hdr) (o : TileMem) (s : State) : Host.Outcome State Fault Refusal :=
  issueOn (.accst h o) h s (tileAccess o true fun x d gs =>
    let bs := memBytes (x.team d).tile (tileAt o.ta.toNat) 4096
    sendStores x d o.sp o.ord o.sc gs fun _ => bs)

/-- `acczero` (R206). -/
def execAcczero (h : Hdr) (ta : BitVec 4) (s : State) : Host.Outcome State Fault Refusal :=
  issueOn (.acczero h ta) h s (ifActive fun x d =>
    let t := x.team d
    some (.done (d.setTeam (touchTile { t with tile := memZero t.tile (tileAt ta.toNat) 4096 } ta.toNat))))

/-- `tlive` (R221). -/
def execTlive (h : Hdr) (mask : BitVec 16) (s : State) : Host.Outcome State Fault Refusal :=
  issueOn (.tlive h mask) h s (ifActive fun x d => some (.done (d.setTeam { x.team d with tlive := mask, tliveOk := true })))

end Sys2Proof.Machine
end

