-- ==== Sys2Proof/Machine/Save.lean ====
section
/-!
DEFINITION. The save area: register blocks (R77), team blocks (R301), what a restore reads back (R300, R301).
-/

namespace Sys2Proof.Machine

/-! ### Pieces -/

/-- Bytes padded with zeros to a multiple of `n`. -/
def padTo (n : Nat) (bs : List Byte) : List Byte := bs ++ List.replicate (alignUp bs.length n - bs.length) 0

/-- The tag byte of a shape (R77). -/
def tagByte (v : VReg) : Byte := BitVec.ofNat 8 (tagCode v)

/-- Payload bytes of a register (R77). DESIGN CHOICE (assumption 73): a G payload holds for a lane without a thread what the register bank
stores there, though a read of that lane gives 0 (R83). -/
def payload (w : Nat) : VReg → List Byte
  | .u x => wordLE x
  | .a b s => wordLE b ++ wordLE s
  | .g vs => (List.range w).flatMap fun L => wordLE (vs.getD L 0)

/-- A register block or window block (R77). -/
def regBlock (w : Nat) (rs : List VReg) : List Byte := padTo 64 (padTo 8 (rs.map tagByte) ++ rs.flatMap (payload w))

/-- The private registers of a fibre in register order. -/
def privRegs (f : Fibre) : List VReg :=
  ((List.range f.nAlloc).filter fun i => !f.isWindow i).map fun i => f.regs.getD i (.u 0)

/-- The device with a fibre's context issuing, as a save finds what is ready (R102, R301). -/
def asRunning (d : Dev) (c : Nat) : Dev := d.setCtx c { d.ctx c with state := .running }

/-- Thread state code of the save area (R301). `ready`: its next instruction may issue. DESIGN CHOICE (assumption 73): every live thread of a
frozen fibre is frozen, 3, a parked or sleeping one too. -/
def threadCode (f : Fibre) (ready : Bool) (t : Thread) : Nat :=
  match t.life, t.wait with
  | .empty, _ => 0
  | .exited, _ => 4
  | .live, .addr => if f.frozen.isSome then 3 else 5
  | .live, .sleep _ => if f.frozen.isSome then 3 else 6
  | .live, .none => if f.frozen.isSome then 3 else if ready then 1 else 2
  | .live, _ => if f.frozen.isSome then 3 else 2

/-- The 16 bytes of a lane (R301). -/
def laneEntry (d : Dev) (cycle : Nat) (f : Fibre) (L : Nat) : List Byte :=
  let t := f.thread L
  let ready := (partOf (asRunning d f.ctx) cycle f (t.pc, t.depth)).has L
  wordLE t.pc ++ natLE 3 t.depth ++ natLE 1 (threadCode f ready t) ++ natLE 3 t.preds.toNat ++ [0]

/-- The 64-byte fibre header (R301). -/
def fibreHeader (d : Dev) (cycle : Nat) (f : Fibre) : List Byte :=
  let holds := match turnOf d f.core f.quad f.slot with
    | some u => u.pos == f.pos
    | none => false
  let arrived := lanesWhere fun L => (f.thread L).fbArr
  (natLE 8 (fibreToken f)) ++ natLE 8 f.width ++ wordLE f.stklim ++ wordLE f.fflags ++
  wordLE (BitVec.ofNat 64 ((d.group f.grp).phase % 2 ^ 32)) ++ wordLE arrived ++
  wordLE (BitVec.ofNat 64 (f.theta.toNat + 2 ^ 32 * f.eps.toNat)) ++
  wordLE (BitVec.ofNat 64 (f.maxDepth % 2 ^ 16 + (if f.dot then 2 ^ 16 else 0) + 2 ^ 32 * fibreState (asRunning d f.ctx) cycle f holds))

/-- The stack-cache frames of a fibre, 16 bytes each, lane by lane (R301). -/
def frameBytes (f : Fibre) (t : Team) : List Byte :=
  (f.threads.take f.width).flatMap fun u =>
    (List.range u.held).flatMap fun k => memBytes u.stack (frameAddr t (u.depth - k)).toNat 16

/-- How many streams, walks and latches a fibre holds. -/
def ownCount (f : Fibre) : Nat :=
  (f.streams.filter Option.isSome).length + (f.threads.filter fun t => t.walk.isSome).length + f.latches.length

/-- Length of a fibre's own-layout section: nothing to save takes no bytes. -/
def ownLen (f : Fibre) : Nat := if ownCount f = 0 then 0 else alignUp (Config.saveLen (ownCount f)) 64

/-- Bytes of an own-layout section. -/
def ownBytes (seq n : Nat) : List Byte := (List.range n).map (Config.saveByte seq)

/-- A fibre block (R301). -/
def fibreBlock (d : Dev) (cycle : Nat) (t : Team) (f : Fibre) : List Byte :=
  fibreHeader d cycle f ++ padTo 64 ((List.range f.width).flatMap (laneEntry d cycle f)) ++ regBlock f.width (privRegs f) ++
  padTo 64 (frameBytes f t) ++ ownBytes d.freeSeq (ownLen f)

/-! ### Team blocks -/

/-- The fibres of a team in slot, context and block order. -/
def teamFibres (d : Dev) (t : Team) : List Fibre :=
  sortBy (fun f => ((f.quad * 4 + f.slot) * 4 + f.pos) * 4 + f.block) (d.fibres.filter fun f => f.team == t.uid)

/-- The slot groups of a team, in slot order. -/
def teamGroups (d : Dev) (t : Team) : List Group :=
  let ids := dedupNat ((teamFibres d t).map Fibre.grp)
  ids.map d.group

/-- The helper mask of a team's slots, one nibble each (R301). -/
def helperMask (d : Dev) (t : Team) : Nat :=
  ((t.slots.zip (List.range t.slots.length)).map fun p =>
    ((teamFibres d t).filter fun f => f.helper && f.quad == p.1.1 && f.slot == p.1.2.1 && f.block == p.1.2.2).foldl
      (fun n f => n + 2 ^ (4 * p.2 + f.pos)) 0).foldl (· + ·) 0

/-- The team header (R301). -/
def teamHeader (d : Dev) (t : Team) : List Byte :=
  padTo 256 (wordLE t.lid ++ natLE 4 t.index ++ natLE 2 t.size ++ natLE 1 t.hdr.width ++ natLE 1 t.hdr.n ++ natLE 1 t.hdr.w ++
    natLE 1 (allocOf t.hdr.n t.hdr.w) ++ natLE 1 t.slots.length ++ natLE 4 (helperMask d t) ++ natLE 2 t.tlive.toNat ++
    natLE 1 (if t.tliveOk then 1 else 0) ++ natLE 1 t.hdr.rf ++ natLE 1 t.hdr.sp ++ natLE 1 t.hdr.tiles ++ natLE 2 t.grBase ++
    natLE 2 t.hdr.pallet ++ t.bufs.flatMap fun b => match b with
      | some (a, n) => wordLE a ++ natLE 8 n
      | none => List.replicate 16 0)

/-- The image of an object of a team with its shadow bytes over it, and which bytes those are. -/
def shadowOver (t : Team) (obj : Nat → Bool) (base : Nat) (bs : List Byte) : List Byte :=
  (t.shadow.filter fun s => obj s.obj).foldr (fun s bs => setAt bs (s.addr - base) s.byte) bs

/-- The Pallet section (R301). -/
def palletSection (t : Team) : List Byte :=
  let bs := memBytes t.pallet 0 (t.hdr.pallet * 1024)
  let obj := fun o => decide (8 ≤ o) && decide (o < 16)
  if t.shadow.any fun s => obj s.obj then bs ++ shadowOver t obj 0 bs else bs

/-- The tiles a save holds (R221). -/
def savedTiles (t : Team) : List Nat := (List.range (4 * t.hdr.tiles)).filter fun k => !t.tliveOk || t.tlive.getLsbD k

/-- The shadow section of a tile: its image, and one bit for each 8 bytes that hold unpublished bytes (R301). -/
def tileShadow (t : Team) (k : Nat) : List Byte :=
  let mine := t.shadow.filter fun s => s.obj == 16 + k
  if mine.isEmpty then []
  else
    let parts := dedupNat (mine.map fun s => (s.addr - tileAt k) / 8)
    shadowOver t (· == 16 + k) (tileAt k) (memBytes t.tile (tileAt k) 4096) ++
    natLE 64 (parts.foldl (fun n p => n + 2 ^ p) 0)

/-- Sections of a team block up to its fibre blocks. -/
def teamFront (d : Dev) (t : Team) : List Byte :=
  let reservations := t.handles.flatMap fun h => match h with
    | some h => wordLE h.record ++ natLE 4 (h.sk.toNat % 2 ^ 32) ++ natLE 4 (h.sc.toNat % 2 ^ 32)
    | none => List.replicate 16 0
  teamHeader d t ++ memBytes t.sp 0 (spBytes t) ++ palletSection t ++ padTo 64 reservations ++
  (savedTiles t).flatMap (fun k => memBytes t.tile (tileAt k) 4096) ++
  (List.range (4 * t.hdr.tiles)).flatMap (tileShadow t) ++ ownBytes (d.freeSeq + 1) (8192 + 16 * 2304)

/-- Commands and builds of a team. -/
def engineCount (d : Dev) (t : Team) : Nat :=
  (d.cmds.filter fun c => c.team == t.uid).length + (d.builds.filter fun b => b.team == t.uid).length

/-- A TEAM BLOCK as the device writes it (R301). -/
def teamBlock (d : Dev) (cycle : Nat) (t : Team) : List Byte :=
  teamFront d t ++ (teamFibres d t).flatMap (fibreBlock d cycle t) ++
  (if t.hdr.w = 0 then [] else (teamGroups d t).flatMap fun g => regBlock t.hdr.width g.regs) ++
  ownBytes (d.freeSeq + 2) (128 * engineCount d t)

/-! ### SAVENEED (R297, R301) -/

/-- Length of a register's payload. -/
def payloadLen (w : Nat) : VReg → Nat
  | .u _ => 8
  | .a _ _ => 16
  | .g _ => 8 * w

/-- Length of a register block. -/
def regBlockLen (w : Nat) (rs : List VReg) : Nat :=
  alignUp (alignUp rs.length 8 + (rs.map (payloadLen w)).foldl (· + ·) 0) 64

/-- Length of a fibre block. -/
def fibreLen (f : Fibre) : Nat :=
  64 + alignUp (16 * f.width) 64 + regBlockLen f.width (privRegs f) +
  alignUp (16 * (f.threads.map Thread.held).foldl (· + ·) 0) 64 + ownLen f

/-- Length of a team's block apart from fibres, windows and engines, every tile and shadow counted. -/
def frontLen (h : KernelHdr) : Nat :=
  256 + h.sp * 16384 + 2 * h.pallet * 1024 + 128 + 4 * h.tiles * (4096 + 4096 + 64) + 8192 + 16 * 2304

/-- Length that a save of a placed team would take. -/
def teamLen (d : Dev) (t : Team) : Nat :=
  frontLen t.hdr + ((teamFibres d t).map fibreLen).foldl (· + ·) 0 +
  (if t.hdr.w = 0 then 0 else ((teamGroups d t).map fun g => regBlockLen t.hdr.width g.regs).foldl (· + ·) 0) + 128 * engineCount d t

/-- SAVENEED of a context, with `extra` bytes more; with no team placed it is 4,096 (R297, R301). -/
def saveNeed (d : Dev) (c extra : Nat) : Nat :=
  if extra == 0 && !(d.teams.any fun t => t.ctx == c) then 4096
  else alignUp (256 + ((d.teams.filter fun t => t.ctx == c).map (teamLen d)).foldl (· + ·) 0 +
    ((d.ctx c).saved.map fun s => s.image.length).foldl (· + ·) 0 + extra) 4096

/-! ### Saving -/

/-- The header of a save area (R301). -/
def saveHeader (count len : Nat) (at' : Word) : List Byte := padTo 256 (natLE 8 count ++ natLE 8 len ++ wordLE at')

/-- A thread as it is saved: one that waits for code, a frame or a zeroing is ready at its instruction (R71, R299). -/
def savedThread (t : Thread) : Thread :=
  match t.wait with
  | .overlay _ | .frame | .zero _ => { t with wait := .none }
  | _ => t

/-- The fibres of a team as they stand at the save: fixed-latency results have landed (R299). -/
def settleFibres (cycle : Nat) (d : Dev) (t : Team) : Dev :=
  let d := ((teamFibres d t).map Fibre.uid).foldl (fun d u => landFibre (cycle + 1000) d u) d
  { d with fibres := d.fibres.map fun f => if f.team == t.uid then { f with threads := f.threads.map savedThread } else f }

/-- A team with everything the device saves of it. -/
def savedOf (d : Dev) (cycle : Nat) (t : Team) : SavedTeam :=
  let stop := fun (s : CmdState) => match s with
    | .moving => CmdState.queued
    | s => s
  { team := if t.tliveOk then { t with tile := t.tile.filter fun c => t.tlive.getLsbD (c.1 / 4096) } else t
    fibres := teamFibres d t
    groups := teamGroups d t
    cmds := (d.cmds.filter fun c => c.team == t.uid).map fun c => { c with state := stop c.state }
    builds := (d.builds.filter fun b => b.team == t.uid).map fun b => { b with state := stop b.state }
    drains := d.drains.filter fun w => w.team == t.uid
    off := 0
    image := teamBlock d cycle t }

/-- Give blocks their offsets, from `off` on. -/
def placeBlocks : Nat → List SavedTeam → List SavedTeam
  | _, [] => []
  | off, s :: ss => { s with off := off } :: placeBlocks (off + s.image.length) ss

/-- The bytes of a saved team's block as they stand in memory now. -/
def blockNow (d : Dev) (c : Nat) (s : SavedTeam) : List Byte := memBytes d.mem ((d.ctx c).save + s.off) s.image.length

/-- SAVE A CONTEXT: blocks of teams still saved keep their bytes, the placed teams' blocks follow, and the teams leave their cores. Stores
in flight keep their place in program order: a UO store performs at its home, where the fibre finds it on any core (R154, R299). DESIGN CHOICE
(assumption 81): the ages of paths are not saved. -/
def saveContext (d : Dev) (clk : Clk) (c : Nat) : Dev :=
  let x := d.ctx c
  let ts := d.teams.filter fun t => t.ctx == c
  let d := ts.foldl (fun d t => settleFibres clk.cycle (uoFlush d t.core) t) d
  let kept := x.saved.map fun s => (s, blockNow d c s)
  let fresh := ts.map fun t => let s := savedOf d clk.cycle t; (s, s.image)
  let all := kept ++ fresh
  let placed := placeBlocks 256 (all.map Prod.fst)
  let total := 256 + (all.map fun p => p.2.length).foldl (· + ·) 0
  let d := d.memSet x.save (saveHeader all.length total x.haltAt ++ all.flatMap Prod.snd)
  let gone := fun (uid : Nat) => ts.any fun t => t.uid == uid
  let grps := (d.fibres.filter fun f => gone f.team).map Fibre.grp
  { d.setCtx c { x with saved := placed } with
    freeSeq := d.freeSeq + 3
    teams := d.teams.filter fun t => !gone t.uid
    groups := d.groups.filter fun g => !grps.contains g.uid
    fibres := d.fibres.filter fun f => !gone f.team
    cmds := d.cmds.filter fun k => !gone k.team
    builds := d.builds.filter fun b => !gone b.team
    drains := d.drains.filter fun w => !gone w.team
    flights := d.flights.map fun g => if gone g.team then { g with through := true } else g
    loads := d.loads.filter fun l => l.ctx != c }

/-! ### What a restore reads back (R301) -/

/-- Read a register block's tags and payloads; none if it does not fit its bytes. A reserved tag is reported with the registers as the
save left them. -/
def readPayloads (w : Nat) : List Byte → List Byte → Option (Bool × List VReg)
  | [], _ => some (true, [])
  | tag :: tags, bs =>
    let n := match tag.toNat with
      | 0 => 8
      | 1 => 16
      | 2 => 8 * w
      | _ => 0
    if bs.length < n then none
    else
      let v := match tag.toNat with
        | 0 => VReg.u (leWord (bs.take 8))
        | 1 => VReg.a (leWord (bs.take 8)) (leWord ((bs.drop 8).take 8))
        | _ => VReg.g (leWords w bs)
      match readPayloads w tags (bs.drop n) with
      | none => none
      | some (ok, vs) => some (ok && decide (tag.toNat < 3), v :: vs)

/-- The padding of a register block, which is neither tag nor payload: after the tags, and at its end (R77). -/
def regPadding (w : Nat) (rs : List VReg) (blk : List Byte) : List Byte :=
  let tags := alignUp rs.length 8
  (blk.take tags).drop rs.length ++ blk.drop (tags + (rs.map (payloadLen w)).foldl (· + ·) 0)

/-- What a fibre block gives back: nothing (a byte changed that may not), or the fibre, and whether a tag was reserved. DESIGN CHOICE
(assumption 80): the edited tags' payloads are read one after the other from where the payloads begin, the block keeps the length the save
gave it, and what the payloads as saved do not reach must stand as it was. -/
def readFibre (f : Fibre) (old new : List Byte) : Option (Fibre × Bool) :=
  let lanes := 16 * f.width
  let rb := 64 + alignUp lanes 64
  let rlen := regBlockLen f.width (privRegs f)
  let frozenPart := fun (bs : List Byte) =>
    bs.take 64 ++ (List.range (rb - 64)).map (fun i => if decide (i < lanes) && (decide (i % 16 < 8) || (decide (12 ≤ i % 16) && decide (i % 16 < 15)))
      then 0 else bs.getD (64 + i) 0) ++ regPadding f.width (privRegs f) ((bs.drop rb).take rlen) ++ bs.drop (rb + rlen)
  if frozenPart old != frozenPart new then none
  else
    let count := (privRegs f).length
    let blk := (new.drop rb).take rlen
    match readPayloads f.width (blk.take count) (blk.drop (alignUp count 8)) with
    | none => none
    | some (ok, vs) =>
      let idx := (List.range f.nAlloc).filter fun i => !f.isWindow i
      let regs := if ok then (idx.zip vs).foldl (fun rs p => setAt rs p.1 p.2) f.regs else f.regs
      let f := f.mapThreads fun L t =>
        let e := new.drop (64 + 16 * L)
        { t with pc := leWord (e.take 8), preds := BitVec.ofNat 24 (leNat ((e.drop 12).take 3)) }
      some ({ f with regs := regs }, !ok)

/-- What the fibre blocks give back, with the bytes that follow them. -/
def readFibres : List Fibre → List Byte → List Byte → Option (List (Fibre × Bool)) × List Byte × List Byte
  | [], old, new => (some [], old, new)
  | f :: fs, old, new =>
    let n := fibreLen f
    match readFibre f (old.take n) (new.take n), readFibres fs (old.drop n) (new.drop n) with
    | some r, (some rs, o, m) => (some (r :: rs), o, m)
    | _, (_, o, m) => (none, o, m)

/-- READ A TEAM BLOCK BACK: the fibres with the runtime's edits and which of them met a reserved tag, or none when another byte
differs (R301). -/
def readBlock (s : SavedTeam) (now : List Byte) : Option (List (Fibre × Bool)) :=
  let front := s.image.length - ((s.fibres.map fibreLen).foldl (· + ·) 0 +
    (if s.team.hdr.w = 0 then 0 else (s.groups.map fun g => regBlockLen s.team.hdr.width g.regs).foldl (· + ·) 0) +
    128 * (s.cmds.length + s.builds.length))
  if s.image.take front != now.take front then none
  else match readFibres s.fibres (s.image.drop front) (now.drop front) with
    | (some fs, o, n) => if o == n then some fs else none
    | _ => none

end Sys2Proof.Machine
end

