-- ==== Sys2Proof/Machine/Place.lean ====
section
/-!
DEFINITION. Placement, restoring and retirement of teams, and stealing of waves (R83, R84, R86, R240, R242, R245, R246, R298, R300).
-/

namespace Sys2Proof.Machine

/-! ### Room on a core -/

/-- Pool units of a core that no team holds. -/
def freeUnits (d : Dev) (core : Nat) : Nat :=
  128 - ((d.teams.filter fun t => t.core == core).map fun t => t.hdr.rf + t.hdr.sp + t.hdr.tiles).foldl (· + ·) 0

/-- The lowest base of `n` granules in a row that no team of a core holds. -/
def freeGranules (d : Dev) (core n : Nat) : Option Nat :=
  let used := (d.teams.filter fun t => t.core == core && t.hdr.pallet != 0).map fun t => (t.grBase, t.grBase + t.hdr.pallet)
  let bases := 0 :: used.map Prod.snd
  (sortBy id bases).find? fun b => decide (b + n ≤ 256) && used.all fun u => decide (b + n ≤ u.1 ∨ u.2 ≤ b)

/-- The teams that hold a slot of a core; a 64-lane team holds both slots of a pair (R83). -/
def slotTeams (d : Dev) (core quad slot : Nat) : List Team :=
  d.teams.filter fun t => t.core == core && t.slots.any fun p =>
    p.1 == quad && (p.2.1 == slot || (t.hdr.width == 64 && p.2.1 + 1 == slot))

/-- The slots of a core in the order the scheduler fills them. DESIGN CHOICE (assumption 49): R83 leaves the quadrant of a slot to the
scheduler; the model takes the first free slot of each quadrant in turn. -/
def slotOrder : List (Nat × Nat) := (List.range 16).map fun k => (k % 4, k / 4)

/-- Lane blocks of slots that hold only teams of one grid and have room for another narrow team of it, one for each slot: only different teams
are packed (R84). -/
def packedBlocks (d : Dev) (core width ctx : Nat) (grid : Option Word) : List (Nat × Nat × Nat) :=
  match grid with
  | none => []
  | some lid => if width ≠ 8 ∧ width ≠ 16 then [] else slotOrder.flatMap fun p =>
      let ts := slotTeams d core p.1 p.2
      if ts.isEmpty || !(ts.all fun t => t.ctx == ctx && t.lid == lid && t.hdr.width == width && t.wave.isNone) then []
      else (((List.range (32 / width)).find? fun j => !(ts.any fun t => t.slots.contains (p.1, p.2, j))).map fun j => (p.1, p.2, j)).toList

/-- Slots for `n` slots or slot pairs of a team; free ones first. -/
def freeSlots (d : Dev) (core width ctx : Nat) (grid : Option Word) (n : Nat) : Option (List (Nat × Nat × Nat)) :=
  let empty := fun (q s : Nat) => (slotTeams d core q s).isEmpty
  let free := if width = 64 then
      ((List.range 8).map fun k => (k % 4, 2 * (k / 4), 0)).filter fun p => empty p.1 p.2.1 && empty p.1 (p.2.1 + 1)
    else (slotOrder.map fun p => (p.1, p.2, 0)).filter fun p => empty p.1 p.2.1
  let all := free ++ packedBlocks d core width ctx grid
  if all.length < n then none else some (all.take n)

/-- Fibres a team starts with. -/
def fibreCount (h : KernelHdr) (threads : Nat) : Nat := (threads + h.width - 1) / h.width

/-- Room for a team: core, slots, first granule. -/
structure Room where
  core : Nat
  slots : List (Nat × Nat × Nat)
  gr : Nat
  deriving DecidableEq, Repr

/-- Room for a team on one core. -/
def roomOn (d : Dev) (h : KernelHdr) (threads ctx : Nat) (grid : Option Word) (core : Nat) : Option Room :=
  if !d.powered || d.retiredCores.contains core || decide (freeUnits d core < h.rf + h.sp + h.tiles) then none
  else match freeGranules d core h.pallet, freeSlots d core h.width ctx grid ((fibreCount h threads + 3) / 4) with
    | some g, some ss => some ⟨core, ss, g⟩
    | _, _ => none

/-- THE CORE OF A TEAM (R240): the one with the most free pool units, the lower number on a tie. -/
def bestRoom (d : Dev) (room : Nat → Option Room) (cores : List Nat) : Option Room :=
  (cores.filterMap room).foldl (fun best r => match best with
    | none => some r
    | some b => if freeUnits d b.core < freeUnits d r.core then some r else some b) none

/-- The cores of a Quarter. -/
def quarterCores (q : Nat) : List Nat := (List.range 96).map fun k => 96 * q + k

/-- The cores of a Plaza where a wave may go: not one a task of it is to avoid, while another enabled core is there (R247). -/
def waveCores (d : Dev) (w : Wave) : List Nat :=
  let all := ((List.range 8).map fun k => 8 * w.plaza + k).filter fun c => !d.retiredCores.contains c
  let avoid := w.tasks.filterMap Task.avoid
  let rest := all.filter fun c => !avoid.contains c
  if rest.isEmpty then all else rest

/-- The header of a wave's queue. -/
def waveHdr (d : Dev) (w : Wave) : KernelHdr := (((d.ctx w.ctx).queue w.queue).hdr).getD default

/-- Room for a wave. -/
def waveRoom (d : Dev) (w : Wave) : Option Room :=
  bestRoom d (roomOn d (waveHdr d w) w.tasks.length w.ctx none) (waveCores d w)

/-- Room for the next team of a grid in a Quarter. -/
def gridRoom (d : Dev) (g : Grid) (q : Nat) : Option Room :=
  bestRoom d (roomOn d g.hdr (field (g.packet.getD 2 0) 0 11) g.ctx (some g.lid)) (quarterCores q)

/-- Room for a saved team: a core of its Quarter with its slots free (R298). -/
def savedRoom (d : Dev) (s : SavedTeam) : Option Room :=
  let t := s.team
  let on := fun (core : Nat) =>
    if !d.powered || d.retiredCores.contains core || decide (freeUnits d core < t.hdr.rf + t.hdr.sp + t.hdr.tiles) ||
        decide (16 < (d.cmds.filter fun c => c.core == core).length + s.cmds.length) ||
        decide (16 < (d.builds.filter fun b => b.core == core).length + s.builds.length) then none
    else
      let free := t.slots.all fun p =>
        (slotTeams d core p.1 p.2.1).all (fun u => u.ctx == t.ctx && u.lid == t.lid && u.hdr.width == t.hdr.width && u.hdr.width < 32 &&
          t.wave.isNone && u.wave.isNone && !u.slots.contains p) &&
        (t.hdr.width != 64 || (slotTeams d core p.1 (p.2.1 + 1)).isEmpty)
      match free, freeGranules d core t.hdr.pallet with
      | true, some g => some (Room.mk core t.slots g)
      | _, _ => none
  bestRoom d on (quarterCores (quarterOf t.core))

/-! ### Loading code before a team issues (R70) -/

/-- Make room in a core's instruction scratchpad, at most `k` overlays going; which overlay goes is the loader's choice (R71). The
overlays of `keep` of the context stay, each a base with its length. -/
def evictFor (d : Dev) (core ctx need : Nat) (keep : List (Word × Nat)) : Nat → Dev
  | 0 => d
  | k + 1 =>
    let d := evictFor d core ctx need keep k
    if residentBytes d.residents core + need ≤ 262144 then d
    else
      let cand := d.residents.filter fun r => r.core == core && !(r.ctx == ctx && keep.contains (r.base, r.words.length))
      match cand[Config.victim k % cand.length]? with
      | some v => { d with residents := d.residents.filter fun r => !(r.core == core && r.ctx == v.ctx && r.base == v.base) }
      | none => d

/-- Read an overlay's words, waiting for each page that is still being zeroed, at most `k` of them (R153). -/
def readZeroed (core ctx : Nat) (base : Word) (len : Nat) : Nat → Dev → Acc × Dev × List IWord
  | 0, d => readOverlay d core ctx base len
  | k + 1, d => match readOverlay d core ctx base len with
    | (.wait e, d, _) => readZeroed core ctx base len k (completeZero d e)
    | r => r

/-- Load an overlay that is not resident at its length; one whose pages do not translate is left for the trap of its first use. -/
def loadOverlay (core ctx : Nat) (keep : List (Word × Nat)) (d : Dev) (o : Word × Nat × Bool) : Dev :=
  let have' := match residentAt d core ctx o.1 with
    | some r => o.2.1 == r.words.length
    | none => false
  if have' then d
  else match readZeroed core ctx o.1 o.2.1 8 d with
    | (.parts _, d, ws) => addResident (evictFor d core ctx (ovlBytes o.2.1) keep d.residents.length) core ctx o.1 ws
    | (_, d, _) => d

/-- Load overlay 0 and the overlays marked for preload. -/
def loadKernel (d : Dev) (core ctx : Nat) (h : KernelHdr) : Dev :=
  let os := ((h.overlays.zip (List.range h.overlays.length)).filter fun p => p.2 == 0 || p.1.2.2).map Prod.fst
  os.foldl (loadOverlay core ctx (os.map fun o => (o.1, o.2.1))) d

/-! ### Starting a team -/

/-- A thread of a team that starts: a task's thread starts at its own entry (R242). It acquires from its launch, or from its task's
append (R199, R236). -/
def startThread (h : KernelHdr) (threads k : Nat) (tasks : List Task) (queue : Nat) (know : List Nat) : Thread :=
  match tasks[k]? with
  | some t =>
    (newThread .live (sextTo64 55 t.header.toNat) k
        (some { queue := queue, seq := t.seq, header := t.header, args := t.args, retries := t.retries, retryable := true, buffering := true,
                started := false, buf := [] })).begins t.know
  | none => (newThread (if k < threads then .live else .empty) h.entry k none).begins know

/-- Give the lanes of a wave's fibre their argument records (R242). -/
def giveArgs (d : Dev) (uid : Nat) : Dev :=
  (List.range 8).foldl (fun d k => match d.fibre? uid with
    | none => d
    | some f => putReg d f k (.g ((List.range f.width).map fun L => match (f.thread L).task with
        | some t => t.args.getD k 0
        | none => 0))) d

/-- A team before any of its threads has issued. -/
def newTeam (uid ctx : Nat) (lid : Word) (index threads : Nat) (h : KernelHdr) (depth : Nat) (wave : Option Nat) (r : Room) : Team :=
  { uid := uid, ctx := ctx, lid := lid, index := index, size := threads, hdr := h, depth := depth, state := .running, core := r.core,
    slots := r.slots, grBase := r.gr, wave := wave, sp := [], pallet := [], tile := [], shadow := [], handles := List.replicate 8 none,
    cvs := List.replicate 16 .idle, cvPcs := List.replicate 16 0, bars := List.replicate 16 default, bufs := List.replicate 8 none, tlive := 0, tliveOk := false,
    mmas := [], psigs := [], freeCmds := [] }

/-- A context enters Running when a team of it starts (R296, R298). -/
def enterRunning (now : Word) (d : Dev) (c : Nat) : Dev :=
  let x := d.ctx c
  if x.state = .running then d else d.setCtx c { x with state := .running, runSince := now }

/-- START A TEAM on the room found for it (R7, R73, R83, R86): its code is loaded, its fibres and slot groups stand in their contexts. Its
core's UO copies go back and are dropped, so that the team sees every access before its launch (R199, R236). -/
def startTeam (now : Word) (d : Dev) (ctx : Nat) (lid : Word) (index threads : Nat) (h : KernelHdr) (depth : Nat) (wave : Option Nat)
    (tasks : List Task) (know : List Nat) (r : Room) : Dev :=
  let uid := d.nextId
  let ns := r.slots.length
  let nf := fibreCount h threads
  let t := newTeam uid ctx lid index threads h depth wave r
  let x := d.ctx ctx
  let groups := (List.range ns).map fun k => Group.mk (uid + 1 + k) (List.replicate h.w (.u 0)) 0 [] [] [] []
  let fibres := (List.range nf).map fun i =>
    let p := r.slots.getD (i / 4) (0, 0, 0)
    newFibre (uid + 1 + ns + i) (uid + 1 + i / 4) x t ctx (p.1, p.2.1, i % 4, p.2.2) false 0
      ((List.range h.width).map fun L => startThread h threads (i * h.width + L) tasks (wave.getD 0) know)
  let d := uoFlush d r.core
  let d := loadKernel { d with
    nextId := uid + 1 + ns + nf
    teams := d.teams ++ [t]
    groups := d.groups ++ groups
    fibres := d.fibres ++ fibres
    gated := d.gated.filter (· != r.core)
    served := setAt d.served (quarterOf r.core) ctx } r.core ctx h
  let d := if wave.isSome then fibres.foldl (fun d f => giveArgs d f.uid) d else d
  enterRunning now d ctx

/-- Bytes a team that starts will take in the save area. -/
def startLen (h : KernelHdr) (threads : Nat) (wave : Bool) : Nat :=
  let a := allocOf h.n h.w
  let reg := fun (i : Nat) => if wave && decide (i < 8) then VReg.g [] else .u 0
  let rs := ((List.range a).filter fun i => !(decide (h.n ≤ i) && decide (i < h.n + h.w))).map reg
  let nf := fibreCount h threads
  frontLen h + nf * (64 + alignUp (16 * h.width) 64 + regBlockLen h.width rs) +
  (if h.w = 0 then 0 else (nf + 3) / 4 * regBlockLen h.width (List.replicate h.w (.u 0)))

/-- Whether SAVENEED would stay within SAVELEN (R298). -/
def saveRoom (d : Dev) (c extra : Nat) : Bool := decide (saveNeed d c extra ≤ (d.ctx c).savelen)

/-! ### Which team comes next (R240) -/

/-- What may be placed for a context in a Quarter. -/
inductive Pick where
  | saved
  | grid (g : Grid) (index : Nat) (r : Room)
  | wave (w : Wave) (r : Room)
  deriving DecidableEq, Repr

/-- The Queued teams and waves of a context in a Quarter in dispatch order, those that have room on a core, and whether each has room in
the save area too. -/
def roomy (d : Dev) (q c : Nat) : List (Pick × Bool) :=
  let gs := d.grids.filterMap fun g => if g.ctx != c then none else match g.todo.find? fun p => p.1 == q with
    | none => none
    | some p => (gridRoom d g q).map fun r =>
        (g.order, Pick.grid g p.2.1 r, saveRoom d c (startLen g.hdr (field (g.packet.getD 2 0) 0 11) false))
  let ws := d.waves.filterMap fun w => if w.ctx != c || w.plaza / 12 != q then none
    else (waveRoom d w).map fun r => (w.order, Pick.wave w r, saveRoom d c (startLen (waveHdr d w) w.tasks.length true))
  (sortBy (fun p => p.1) (gs ++ ws)).map Prod.snd

/-- What a context would place next in a Quarter: its first saved team before any that was never placed (R298). -/
def pickOf (d : Dev) (q c : Nat) : Option Pick :=
  let x := d.ctx c
  match x.saved with
  | s :: _ =>
    if (x.state == .switched || x.state == .running) && quarterOf s.team.core == q && (savedRoom d s).isSome then some .saved else none
  | [] =>
    if x.places then ((roomy d q c).find? fun p => p.2).map Prod.fst else none

/-- THE CONTEXT SERVED NEXT in a Quarter: the highest priority among those with a team that fits; equals in turn after the one served
last (R240). -/
def nextContext (d : Dev) (q : Nat) : Option (Nat × Pick) :=
  let order := (List.range 64).map fun k => (d.served.getD q 0 + 1 + k) % 64
  (order.filterMap fun c => (pickOf d q c).map fun p => (c, p)).foldl (fun best p => match best with
    | none => some p
    | some b => if (d.ctx b.1).prio < (d.ctx p.1).prio then some p else some b) none

/-- Report the teams of a context that only the save area holds back, once each (R298). -/
def reportHeld (now : Word) (q : Nat) (d : Dev) (c : Nat) : Dev :=
  if !(d.ctx c).places || !(d.ctx c).saved.isEmpty then d
  else (roomy d q c).foldl (fun d p => match p with
    | (.grid g i _, false) =>
      if g.told.contains i then d
      else oweRefusal now (d.setGrid { g with told := g.told ++ [i] }) c 5 0 g.lid i
    | (.wave w _, false) =>
      if w.told then d
      else oweRefusal now { d with waves := d.waves.map fun v => if v == w then { v with told := true } else v } c 5 0
        (queueLid w.queue 0) (d.ctx c).waveSeq
    | _ => d) d

/-- One team of a grid's list in a Quarter is placed. -/
def takeTeam (g : Grid) (q : Nat) : Grid :=
  { g with
    todo := (g.todo.map fun p => if p.1 = q then (p.1, p.2.1 + 1, p.2.2) else p).filter fun p => decide (p.2.1 < p.2.2)
    live := g.live + 1 }

/-- TEAM_PLACEMENT (R240): a Queued team, or a released wave, of the Quarter is placed. -/
def execTeamPlacement (quarter : Nat) (s : State) : Host.Outcome State Fault Refusal :=
  onDev s fun s =>
    let d := (List.range 64).foldl (reportHeld s.clk.now quarter) s.dev
    match nextContext d quarter with
    | some (c, .grid g i r) =>
      startTeam s.clk.now (d.setGrid (takeTeam g quarter)) c g.lid i (field (g.packet.getD 2 0) 0 11) g.hdr g.depth none [] g.know r
    | some (c, .wave w r) =>
      let x := d.ctx c
      let d := { d.setCtx c { x with waveSeq := x.waveSeq + 1 } with waves := d.waves.filter (· != w) }
      startTeam s.clk.now d c (queueLid w.queue 0) x.waveSeq w.tasks.length (waveHdr d w) 0 (some w.queue) w.tasks [] r
    | _ => d

/-! ### Restoring (R298, R300, R301) -/

/-- A fibre as it stands after a restore. -/
def backFibre (x : Ctx) (core : Nat) (f : Fibre) : Fibre :=
  let f := { f with core := core, chk := x.chk, agelimit := x.agelimit }
  match f.frozen with
  | some z => if z.resume then { f with frozen := none, streams := f.streams.map resumeStream } else f
  | none => f

/-- Give engine entries their numbers on the new core: the old number where it is free. -/
def newEntry (used : List Nat) (e : Nat) : Nat := if used.contains e then freeEntry used else e

/-- Put a saved team's commands and builds into their core's queues. -/
def backEngines (d : Dev) (core : Nat) (s : SavedTeam) : Dev :=
  let d := s.cmds.foldl (fun d c =>
    { d with cmds := d.cmds ++ [{ c with core := core, entry := newEntry ((d.cmds.filter fun b => b.core == core).map Cmd.entry) c.entry }] }) d
  s.builds.foldl (fun d c =>
    { d with builds := d.builds ++
      [{ c with core := core, entry := newEntry ((d.builds.filter fun b => b.core == core).map Build.entry) c.entry }] }) d

/-- A team's accesses in flight and its parked threads are its new core's from its restore on (R154, R299). -/
def backAccesses (d : Dev) (team core : Nat) : Dev :=
  { d with
    flights := d.flights.map fun g => if g.team == team then { g with core := core } else g
    waiters := d.waiters.map fun w => if w.team == team then { w with core := core } else w }

/-- RESTORE A TEAM on its room: what the save area holds is read back; marked waiters return, and any other may, by a free value
(R179; assumption 71). The core's UO copies go back and are dropped, so that the team sees its own earlier stores (R154, R299). DESIGN
CHOICE (assumption 68): a reserved tag byte in a window block freezes every
fibre of the team with reason 1, as any byte outside a fibre block's four editable fields
does (R301); R77 alone would freeze one fibre with reason 0. DESIGN CHOICE (assumption 68): a reserved tag byte in the block of a fibre that was
saved frozen leaves it frozen as it was: no record is written (R305 allows one unresumed) and the edits of its registers are dropped. DESIGN
CHOICE (assumption 81): no age is restored or cleared. -/
def restoreTeam (clk : Clk) (d : Dev) (c : Nat) (s : SavedTeam) (r : Room) : Dev :=
  let d := uoFlush d r.core
  let x := d.ctx c
  let read := readBlock s (blockNow d c s)
  let fs : List (Fibre × Bool) := (read.getD (s.fibres.map fun f => (f, true)))
  let reason := if read.isSome then 0 else 1
  let t := { s.team with core := r.core, grBase := r.gr }
  let d := loadKernel (backEngines { d.setCtx c { x with saved := x.saved.drop 1 } with
    teams := d.teams ++ [t]
    groups := d.groups ++ s.groups
    drains := d.drains ++ s.drains.map fun w => { w with core := r.core }
    fibres := d.fibres ++ fs.map fun p => backFibre x r.core p.1
    gated := d.gated.filter (· != r.core)
    served := setAt d.served (quarterOf r.core) c } r.core s) r.core c t.hdr
  let d := backAccesses (resumeMmas clk.cycle d t.uid) t.uid r.core
  let d := fs.foldl (fun d p => if p.2 then
      let m := p.1.live
      takeFault clk d p.1.uid (p.1.thread ((lowestLane m).getD 0)).pc ⟨2, reason, 0, m, 0⟩
    else d) d
  let back := d.waiters.filter fun w => (w.marked || Config.spurious d.freeSeq (64 * w.fib + w.lane)) && fs.any fun p => p.1.uid == w.fib
  enterRunning clk.now (back.foldl (fun d w => returnWaiter w.notes d w) { d with freeSeq := d.freeSeq + 1 }) c

/-- TEAM_RESTORE (R298, R300): the first saved team of a context returns to a core of its Quarter. -/
def execTeamRestore (ctx : Nat) (s : State) : Host.Outcome State Fault Refusal :=
  onDev s fun s => match (s.dev.ctx ctx).saved with
    | [] => s.dev
    | t :: _ => match nextContext s.dev (quarterOf t.team.core), savedRoom s.dev t with
      | some (c, .saved), some r => if c = ctx then restoreTeam s.clk s.dev ctx t r else s.dev
      | _, _ => s.dev

/-! ### Retirement (R86, R326) -/

/-- Whether everything a draining team issued has completed. -/
def teamOver (d : Dev) (t : Team) : Bool :=
  !(d.fibres.any fun f => f.team == t.uid) && !(d.flights.any fun g => g.team == t.uid) &&
  !(d.cmds.any fun c => c.team == t.uid) && !(d.builds.any fun b => b.team == t.uid) &&
  !(d.drains.any fun w => w.team == t.uid) && t.mmas.isEmpty

/-- The signature of a team (R326). -/
def teamSig (t : Team) : Word := (sortBy Prod.fst t.psigs).foldl (fun s p => rotl1 s ^^^ p.2) 0

/-- The type 4 record of a team that retires, when TRCTL bit 2 is set (R326). -/
def sigRec (now : Word) (d : Dev) (t : Team) : List TraceRec :=
  if d.traceCtl.getLsbD 2 then
    [{ quarter := quarterOf t.core
       ws := [BitVec.ofNat 64 (4 + 65536 * t.hdr.width + 16777216 * t.ctx), now, t.lid, BitVec.ofNat 64 (t.index % 2 ^ 32), 0, teamSig t,
         0, BitVec.ofNat 64 (65536 * (t.core % 512))] }]
  else []

/-- RETIRE A TEAM: its resources are freed; a Running context with no team left is Resident (R296). -/
def retireTeam (now : Word) (d : Dev) (t : Team) : Dev :=
  let d := emitTrace (uoFlush d t.core) (sigRec now d t)
  let d := { d with teams := d.teams.filter fun u => u.uid != t.uid }
  let d := { d with groups := d.groups.filter fun g => !(decide (t.uid < g.uid) && decide (g.uid ≤ t.uid + t.slots.length)) }
  let d := match t.wave, d.grid? t.ctx t.lid with
    | none, some g => d.setGrid { g with live := g.live - 1 }
    | _, _ => d
  let x := d.ctx t.ctx
  if x.state = .running ∧ !(d.teams.any fun u => u.ctx == t.ctx) ∧ x.saved.isEmpty then
    d.setCtx t.ctx { x with state := .resident }
  else d

/-- TEAM_RETIREMENT (R86). -/
def execTeamRetirement (team : Nat) (s : State) : Host.Outcome State Fault Refusal :=
  onDev s fun s => match s.dev.team? team with
    | none => s.dev
    | some t => if teamOver s.dev t then retireTeam s.clk.now s.dev t else s.dev

/-! ### Stealing (R246) -/

/-- A wave of a Plaza that the thief could place. -/
def stealable (d : Dev) (thief plaza : Nat) : Option Wave :=
  d.waves.find? fun w => w.plaza == plaza && (d.ctx w.ctx).places && (waveRoom d { w with plaza := thief }).isSome

/-- The migratable tasks of a wave (R244, R246). -/
def migrants (w : Wave) : List Task := w.tasks.filter fun t => t.header.getLsbD 55

/-- A wave of a Plaza in another Quarter with migratable tasks that the thief could place. -/
def migratable (d : Dev) (thief plaza : Nat) : Option Wave :=
  d.waves.find? fun w => w.plaza == plaza && (d.ctx w.ctx).places && !(migrants w).isEmpty &&
    (waveRoom d { w with plaza := thief, tasks := migrants w }).isSome

/-- Plazas of the thief's Quarter in the order of R246: the neighbours, then the others. -/
def nearPlazas (p : Nat) : List Nat :=
  let q := p / 12
  let l := p % 12
  let near := [min ((l + 1) % 12) ((l + 11) % 12), max ((l + 1) % 12) ((l + 11) % 12)]
  (near ++ (List.range 12).filter fun k => k != l && !near.contains k).map (12 * q + ·)

/-- Plazas of the other Quarters, the lowest Quarter first. -/
def farPlazas (p : Nat) : List Nat := (List.range 48).filter fun k => k / 12 != p / 12

/-- WAVE_STEAL (R246). -/
def execWaveSteal (plaza : Nat) (s : State) : Host.Outcome State Fault Refusal :=
  onDev s fun s =>
    let d := s.dev
    if d.waves.any fun w => w.plaza == plaza then d
    else match (nearPlazas plaza).findSome? (stealable d plaza) with
      | some w => { d with waves := d.waves.map fun v => if v == w then { v with plaza := plaza } else v }
      | none => match (farPlazas plaza).findSome? (migratable d plaza) with
        | none => d
        | some w =>
          let rest := { w with tasks := w.tasks.filter fun t => !t.header.getLsbD 55 }
          { d with waves := ((d.waves.map fun v => if v == w then rest else v).filter fun v => !v.tasks.isEmpty) ++
              [{ w with plaza := plaza, tasks := migrants w }] }

end Sys2Proof.Machine
end

