-- ==== Sys2Proof/Machine/Mortar.lean ====
section
/-!
DEFINITION. The Mortar (R254 to R277): vertex records and handles, the weight algebra, and its instructions.
-/

namespace Sys2Proof.Machine

/-! ### Records and handles (R254 to R257) -/

/-- Replace bits `lo` to `lo + n - 1` of a word. -/
def setField (w : Word) (lo n v : Nat) : Word := BitVec.ofNat 64 (w.toNat - field w lo n * 2 ^ lo + v % 2 ^ n * 2 ^ lo)

/-- A field of a record. -/
def Vertex.fld (v : Vertex) (k lo n : Nat) : Nat := field (v.ws.getD k 0) lo n

/-- A record with a field replaced. -/
def Vertex.put (v : Vertex) (k lo n x : Nat) : Vertex := { v with ws := setAt v.ws k (setField (v.ws.getD k 0) lo n x) }

/-- p→ and p← as magnitudes (R262), Qc and Qm: `f32` encodings. -/
def Vertex.pf (v : Vertex) : Nat := v.fld 3 32 31
def Vertex.pb (v : Vertex) : Nat := v.fld 4 0 31
def Vertex.qc (v : Vertex) : Nat := v.fld 4 32 32
def Vertex.qm (v : Vertex) : Nat := v.fld 5 0 32

/-- Whether the vertex has a parent. -/
def Vertex.hasParent (v : Vertex) : Bool := v.fld 6 31 1 == 1

/-- Depth, light side, delta, Child bit, frame and pin count. -/
def Vertex.depth (v : Vertex) : Nat := v.fld 7 0 8
def Vertex.light (v : Vertex) : Bool := v.fld 7 8 1 == 1
def Vertex.delta (v : Vertex) : Bool := v.fld 7 9 1 == 1
def Vertex.child (v : Vertex) : Bool := v.fld 7 12 1 == 1
def Vertex.frame (v : Vertex) : Nat := v.fld 7 16 16
def Vertex.pin (v : Vertex) : Nat := v.fld 7 32 8

/-- Whether the vertex is sealed. -/
def Vertex.isSealed (v : Vertex) : Bool := v.state == .sealed

/-- The record in a slot. -/
def vertexAt (d : Dev) (quarter slot : Nat) : Option Vertex := d.vertices.find? fun v => v.quarter == quarter && v.slot == slot

/-- Replace a record. -/
def setVertex (d : Dev) (v : Vertex) : Dev :=
  { d with vertices := d.vertices.map fun u => if u.quarter == v.quarter && u.slot == v.slot then v else u }

/-- The current generation of a slot (R257). -/
def slotGen (d : Dev) (quarter slot : Nat) : Nat :=
  ((d.slotGens.find? fun g => g.quarter == quarter && g.slot == slot).map SlotGen.gen).getD 1

/-- THE RECORD A HANDLE NAMES in a context; none when the handle is stale (R256, R257). -/
def vertexOf (d : Dev) (ctx : Nat) (h : Word) : Option Vertex :=
  match vertexAt d (field h 26 2) (field h 0 26) with
  | none => none
  | some v =>
    if field h 60 4 == 0 && field h 28 16 != 0 && field h 28 16 == slotGen d v.quarter v.slot && v.frame == field h 44 16 && v.ctx == ctx
    then some v else none

/-- The handle of a record. -/
def handleWord (d : Dev) (v : Vertex) : Word :=
  BitVec.ofNat 64 (v.slot + 2 ^ 26 * v.quarter + 2 ^ 28 * slotGen d v.quarter v.slot + 2 ^ 44 * v.frame)

/-- The parent's record. -/
def parentOf (d : Dev) (v : Vertex) : Option Vertex := if v.hasParent then vertexAt d (v.fld 6 26 2) (v.fld 6 0 26) else none

/-! ### Reclaiming (R257 to R260) -/

/-- RECLAIM A SLOT: the record goes, the generation advances, the parent's Child bit clears. -/
def reclaim (d : Dev) (v : Vertex) : Dev :=
  let g := slotGen d v.quarter v.slot
  let d := match parentOf d v with
    | some p => setVertex d (p.put 7 12 1 0)
    | none => d
  { d with
    vertices := d.vertices.filter fun u => !(u.quarter == v.quarter && u.slot == v.slot)
    slotGens := ⟨v.quarter, v.slot, if g = 65535 then 1 else g + 1⟩ ::
      d.slotGens.filter fun s => !(s.quarter == v.quarter && s.slot == v.slot) }

/-- Whether a vertex may retire (R259). -/
def mayRetire (d : Dev) (v : Vertex) : Bool :=
  let x := d.ctx v.ctx
  v.isSealed && decide (x.mwin < (x.frame + 65536 - v.frame) % 65536) && v.pin == 0 && !v.child

/-- Retire every vertex that may, leaf first, at most `k`. -/
def retireVertices : Nat → Dev → Dev
  | 0, d => d
  | k + 1, d => match d.vertices.find? (mayRetire d) with
    | some v => retireVertices k (reclaim d v)
    | none => d

/-- VERTEX_RETIREMENT (R259). -/
def execVertexRetirement (quarter slot : Nat) (s : State) : Host.Outcome State Fault Refusal :=
  onDev s fun s => match vertexAt s.dev quarter slot with
    | some v => if mayRetire s.dev v then reclaim s.dev v else s.dev
    | none => s.dev

/-- Entries that the retired ways of an SRAM held (R335). -/
def lostEntries (d : Dev) (sram : Nat) : Nat :=
  ((d.retiredWays.filter fun w => Config.waySram w == sram).map Config.waySize).foldl (fun n k => n + k) 0

/-- Records a Quarter's vertex store holds itself: 1,048,576 with every way in service (R260, R335). -/
def storeCap (d : Dev) (quarter : Nat) : Nat := 1048576 - lostEntries d (1 + quarter)

/-- The records in a Quarter's store itself, oldest first. -/
def storeHeld (d : Dev) (quarter : Nat) : List Vertex := d.vertices.filter fun v => v.quarter == quarter && !v.spilled

/-- SPILL: the oldest sealed record of a full store moves to the spill region (R260). -/
def spillOne (d : Dev) (quarter : Nat) : Dev :=
  let held := storeHeld d quarter
  if held.length < storeCap d quarter then d
  else match held.find? Vertex.isSealed with
    | some v => setVertex d { v with spilled := true }
    | none => d

/-- VERTEX_SPILL (R260): a store that is full makes room. -/
def execVertexSpill (quarter : Nat) (s : State) : Host.Outcome State Fault Refusal :=
  onDev s fun s => spillOne s.dev quarter

/-- Reclaim the unsealed records of a fibre (R258). -/
def reclaimUnsealed (d : Dev) (fib : Nat) : Dev :=
  (d.vertices.filter fun v => v.state == .unsealed fib).foldl reclaim d

/-! ### The weight algebra (R261 to R265) -/

/-- One `f32` operation of the algebra: nearest even, subnormals kept. -/
def wAdd (x y : Nat) : Nat := (faddR .f32 .rn false x y).1
def wMul (x y : Nat) : Nat := (fmulR .f32 .rn false x y).1
def wDiv (x y : Nat) : Nat := (fdivR .f32 .rn false x y).1

/-- `f32` 1. -/
def wOne : Nat := 0x3F800000

/-- Whether an `f32` is finite. -/
def wFinite (x : Nat) : Bool := x / 2 ^ 23 % 256 != 255

/-- The settings of R261. -/
structure Weigh where
  power : Bool
  merge : Bool
  eta : Nat
  deriving DecidableEq, Repr

/-- The settings of a context. -/
def weighOf (x : Ctx) : Weigh := ⟨x.mortar.getLsbD 0, x.mortar.getLsbD 1, field x.mortar 32 32⟩

/-- `x^β`. -/
def Weigh.pow (w : Weigh) (x : Nat) : Nat := if w.power then wMul x x else x

/-- A chain vertex as the algebra sees it: the density standing for p←, p→, delta, whether its parent is delta, whether it is a root. -/
structure WV where
  pb : Nat
  pf : Nat
  delta : Bool
  parentDelta : Bool
  root : Bool
  deriving DecidableEq, Repr

/-- A record with a density in place of its p←. -/
def wv (d : Dev) (v : Vertex) (pb : Nat) : WV :=
  { pb := pb % 2 ^ 31
    pf := v.pf
    delta := v.delta
    parentDelta := match parentOf d v with
      | some p => p.delta
      | none => false
    root := !v.hasParent }

/-- `r[x]` (R262). -/
def Weigh.r (w : Weigh) (x : WV) : Nat :=
  if x.delta then wOne
  else
    let q := wDiv x.pb x.pf
    w.pow (if q % 2 ^ 31 > 0x7F800000 then 0x7F800000 else q)

/-- `c[x]` (R262). -/
def wC (x : WV) : Nat := if x.delta || x.parentDelta then 0 else wOne

/-- `μ[x]` (R262); `fin`: `x` is an end of the full path. -/
def Weigh.mu (w : Weigh) (fin : Bool) (x : WV) : Nat := if !w.merge || x.delta || x.root || fin then 0 else wOne

/-- `μ[x] × (η × p←)^β`. -/
def Weigh.m (w : Weigh) (fin : Bool) (x : WV) : Nat := wMul (w.mu fin x) (w.pow (wMul w.eta x.pb))

/-- The sums a parent takes at an append, given its own parent `g` (R263): Qc and Qm. -/
def Weigh.sums (w : Weigh) (g : WV) (qc qm : Nat) : Nat × Nat :=
  (wMul (w.r g) (wAdd (wC g) qc), wAdd (w.m false g) (wMul (w.r g) qm))

/-! ### Appending and sealing (R267, R268) -/

/-- The lowest slot from `k` up, cyclically, that holds no record; `n` bounds the search. -/
def slotFrom (d : Dev) (q : Nat) : Nat → Nat → Option Nat
  | 0, _ => none
  | n + 1, k => if (vertexAt d q (k % 2 ^ 26)).isNone then some (k % 2 ^ 26) else slotFrom d q n (k + 1)

/-- A free slot of a Quarter; which one the store hands out is open (R267). -/
def freeVertex (d : Dev) (q : Nat) : Option Nat :=
  let n := (d.vertices.filter fun v => v.quarter == q).length
  if 2 ^ 26 ≤ n then none else slotFrom d q (n + 1) (Config.victim d.freeSeq)

/-- A new record from an image (R254, R267). -/
def imageWords (img : List Word) (light : Bool) (frame : Nat) : List Word :=
  let w := fun k => img.getD k 0
  [w 0, w 1, w 2, setField (w 3) 16 16 0, 0, setField (w 5) 0 32 0, setField (w 6) 0 32 0,
    BitVec.ofNat 64 (256 * ((if light then 1 else 0) + 2 * field (w 7) 9 2) + 65536 * frame)]

/-- Whether a vertex was appended by a fibre and is unsealed. -/
def ownUnsealed (v : Vertex) (fib : Nat) : Bool := v.state == .unsealed fib

/-- R263 at the append of a child of `p` with an image. -/
def appendSums (d : Dev) (w : Weigh) (p : Vertex) (img : List Word) : Dev :=
  match parentOf d p with
  | none => d
  | some g =>
    let pb := field (img.getD 4 0) 0 32
    let g := g.put 4 0 32 pb
    let q := w.sums (wv d g pb) g.qc g.qm
    setVertex (setVertex d g) ((p.put 4 32 32 q.1).put 5 0 32 q.2)

/-- One lane of `vapp` (R267): the new handle, or 0. A full store makes room first; with no sealed record to spill, the new one stands in the
spill region (R260). -/
def appendLane (x : Iss) (light : Bool) (img : List Word) (h : Option Word) (d : Dev) : Word × Dev :=
  let c := d.ctx x.f.ctx
  let p := h.bind (vertexOf d x.f.ctx)
  let ok := match h, p with
    | none, _ => true
    | some _, none => false
    | some _, some p => ownUnsealed p x.f.uid && p.light == light && !p.child && decide (p.depth < 255)
  let q := match p with
    | some p => p.quarter
    | none => quarterOf x.f.core
  match ok, freeVertex d q with
  | true, some n =>
    let d := spillOne { d with freeSeq := d.freeSeq + 1 } q
    let v : Vertex :=
      { quarter := q, slot := n, ctx := x.f.ctx, ws := imageWords img light c.frame, state := .unsealed x.f.uid,
        spilled := decide (storeCap d q ≤ (storeHeld d q).length), sc := .team, sealer := (0, 0), know := [] }
    match p with
    | none => (handleWord d v, { d with vertices := d.vertices ++ [v] })
    | some p =>
      let v := (((v.put 6 0 26 p.slot).put 6 26 2 p.quarter).put 6 31 1 1).put 7 0 8 (p.depth + 1)
      let d := setVertex d (p.put 7 12 1 1)
      let d := match vertexAt d p.quarter p.slot with
        | some p => appendSums d (weighOf c) p img
        | none => d
      (handleWord d v, { d with vertices := d.vertices ++ [v] })
  | _, _ => (0, d)

/-- `vapp` (R267). -/
def vappBody (light : Bool) (d a p : Reg) : Body := ifActive fun x dv =>
  let f := x.fib dv
  let img := fun L => (List.range 8).map fun k => regLane dv f (a.toNat + k) L
  let h := fun L => if p.toNat = 255 then none else some (regLane dv f p.toNat L)
  let r := eachLane (fun dv L => appendLane x light (img L) (h L) dv) (x.order dv) dv
  some (.done (engineLanes x r.2 d r.1))

/-- `vapp.eye` (R267). -/
def execVappEye (h : Hdr) (d a p : Reg) (s : State) : Host.Outcome State Fault Refusal :=
  issueOn (.vappEye h d a p) h s (vappBody false d a p)

/-- `vapp.light` (R267). -/
def execVappLight (h : Hdr) (d a p : Reg) (s : State) : Host.Outcome State Fault Refusal :=
  issueOn (.vappLight h d a p) h s (vappBody true d a p)

/-- A vertex and its ancestors, at most `k` of them. -/
def chainOf (d : Dev) : Nat → Vertex → List Vertex
  | 0, _ => []
  | k + 1, v => v :: match parentOf d v with
    | some p => chainOf d k p
    | none => []

/-- One lane of `vseal` (R268): the whole path is sealed at one instant. -/
def sealLane (x : Iss) (sc : Scope) (h : Word) (L : Nat) (d : Dev) : Bool × Dev :=
  match vertexOf d x.f.ctx h with
  | none => (false, d)
  | some v =>
    if ownUnsealed v x.f.uid && !v.child then
      let know := ((x.fib d).thread L).reached false sc
      let path := chainOf d 256 v
      (true, path.foldl (fun d u => setVertex d { u.put 7 11 1 1 with
        state := .sealed, sc := sc, sealer := (x.t.uid, x.f.core), know := know }) d)
    else (false, d)

/-- `vseal` (R268): a release, so it waits for the active threads' earlier accesses (R200). -/
def execVseal (h : Hdr) (sc : Scope) (d : PredIdx) (a : Reg) (s : State) : Host.Outcome State Fault Refusal :=
  issueOn (.vseal h sc d a) h s (ifActive fun x dv =>
    let f := x.fib dv
    if x.lanes.any fun L => !laneOver dv f.uid L then none
    else
      let r := eachLane (fun dv L => sealLane x sc (regLane dv (x.fib dv) a.toNat L) L dv) (x.order dv) dv
      some (.done (enginePreds x r.2 d r.1)))

/-! ### Reading (R269, R200) -/

/-- A vertex a fibre may read: sealed, or its own. -/
def readable (x : Iss) (d : Dev) (h : Word) : Option Vertex :=
  (vertexOf d x.f.ctx h).filter fun v => v.isSealed || ownUnsealed v x.f.uid

/-- What reading a sealed vertex acquires, with whether accesses to host pages are in it (R155, R200). -/
def vertexKnow (x : Iss) (sc : Scope) (v : Vertex) : List (Bool × List Nat) :=
  if v.isSealed && scopeHas v.sc v.sealer.1 v.sealer.2 x.t.uid x.f.core && scopeHas sc x.t.uid x.f.core v.sealer.1 v.sealer.2
  then [(v.sc == .sys && sc == .sys, v.know)] else []

/-- A thread acquires what the vertices it read hand on. -/
def learnVertex (x : Iss) (L : Nat) (know : List (Bool × List Nat)) (d : Dev) : Dev :=
  know.foldl (fun d k => acquire d x.f.uid (LaneMask.ofLanes [L]) k.1 [] k.2) d

/-- A group result and a predicate of each active lane, which return together. -/
def sendBoth (x : Iss) (d : Dev) (g : Reg) (n : Nat) (p : PredIdx) (vals : List (Nat × Bool × List Word)) : Dev :=
  if vals.isEmpty then d
  else addFlight d
    { mkFlight x (.result false false) (vals.map fun v => { laneOps v.1 v.2.2 with data := [if v.2.1 then 1 else 0] }) (regGroup g n)
        (if p.toNat < 24 then some p.toNat else none) with full := x.full }

/-- One lane of `vld` (R269). -/
def vldLane (x : Iss) (sc : Scope) (h : Word) (L : Nat) (d : Dev) : (Bool × List Word) × Dev :=
  match readable x d h with
  | none => ((false, List.replicate 8 0), d)
  | some v => ((true, v.ws), learnVertex x L (vertexKnow x sc v) d)

/-- `vld` (R269). -/
def execVld (h : Hdr) (sc : Scope) (d : PredIdx) (g a : Reg) (s : State) : Host.Outcome State Fault Refusal :=
  issueOn (.vld h sc d g a) h s (ifActive fun x dv =>
    let hs := fun L => regLane dv (x.fib dv) a.toNat L
    let r := eachLane (fun dv L => vldLane x sc (hs L) L dv) (x.order dv) dv
    some (.done (sendBoth x r.2 g 8 d r.1)))

/-! ### Connections and merges (R270 to R272) -/

/-- The two endpoints a group names, if the checks of R270 pass. -/
def endpoints (x : Iss) (d : Dev) (he hl : Word) : Option (Option Vertex × Option Vertex) :=
  let side := fun (h : Word) (light : Bool) =>
    if h = 0 then some none else ((readable x d h).filter fun v => v.light == light).map some
  if he = 0 ∧ hl = 0 then none
  else match side he false, side hl true with
    | some e, some l => some (e, l)
    | _, _ => none

/-- W and M of one side (R270); `fin`: the endpoint is the end of the full path. -/
def sideSums (d : Dev) (w : Weigh) (v : Option Vertex) (pb1 pb2 : Nat) (fin : Bool) : Nat × Nat :=
  match v with
  | none => (0, 0)
  | some v =>
    let x1 := wv d v pb1
    match parentOf d v with
    | none => (wMul (w.r x1) (wC x1), w.m fin x1)
    | some u =>
      let x2 := wv d u pb2
      (wMul (w.r x1) (wAdd (wC x1) (wMul (w.r x2) (wAdd (wC x2) u.qc))),
        wAdd (w.m fin x1) (wMul (w.r x1) (wAdd (w.m false x2) (wMul (w.r x2) u.qm))))

/-- The densities a group supplies: p← of the endpoint and of its parent. -/
def densities (w : Word) : Nat × Nat := (field w 0 32, field w 32 32)

/-- The weight `vcon` writes (R270). -/
def conWeight (d : Dev) (w : Weigh) (e l : Option Vertex) (de dl : Word) : Nat :=
  let dead := fun (v : Option Vertex) => match v with
    | some v => v.delta
    | none => false
  let a := sideSums d w e (densities de).1 (densities de).2 l.isNone
  let b := sideSums d w l (densities dl).1 (densities dl).2 e.isNone
  let S := wAdd (wAdd (wAdd (wAdd wOne a.1) b.1) a.2) b.2
  if dead e || dead l || !wFinite S then 0 else wDiv wOne S

/-- The records that a connection or merge reads (R276): the endpoints its handles name, and where its checks pass also the ancestors whose
values it uses, `far` records of each path (R270 to R272). -/
def pairReads (x : Iss) (d : Dev) (far : Nat) (he hl : Word) : List Vertex := ([he, hl].filterMap (readable x d)).flatMap (chainOf d far)

/-- A lane of a connection or merge: its group, and what it writes. It acquires from every sealed vertex it reads, whatever its checks find
(R276). -/
def pairLane (x : Iss) (sc : Scope) (n : Nat) (gr : Nat → Word) (L : Nat) (need : Bool)
    (go : Dev → Option Vertex → Option Vertex → Option (List Word)) (d : Dev) : (Bool × List Word) × Dev :=
  let learnt := fun (far : Nat) => learnVertex x L ((pairReads x d far (gr 0) (gr 1)).flatMap (vertexKnow x sc)) d
  let no := ((false, List.replicate n (0 : Word)), learnt 1)
  match endpoints x d (gr 0) (gr 1) with
  | none => no
  | some (e, l) =>
    if need && (e.isNone || l.isNone) then no
    else match go d e l with
      | none => no
      | some ws => ((true, ws), learnt (if n = 9 then 256 else 2))

/-- The body of `vcon`, `vcon.all` and `vmrg`. -/
def pairBody (sc : Scope) (p : PredIdx) (w g : Reg) (n : Nat) (need : Bool)
    (go : Weigh → (Nat → Word) → Dev → Option Vertex → Option Vertex → Option (List Word)) : Body := ifActive fun x dv =>
  let f := x.fib dv
  let gr := fun L k => regLane dv f (g.toNat + k) L
  let wt := weighOf (dv.ctx f.ctx)
  let r := eachLane (fun dv L => pairLane x sc n (gr L) L need (go wt (gr L)) dv) (x.order dv) dv
  some (.done (sendBoth x r.2 w n p r.1))

/-- `vcon` (R270). -/
def execVcon (h : Hdr) (sc : Scope) (d : PredIdx) (w g : Reg) (s : State) : Host.Outcome State Fault Refusal :=
  issueOn (.vcon h sc d w g) h s (pairBody sc d w g 1 false fun wt gr dv e l =>
    some [BitVec.ofNat 64 (conWeight dv wt e l (gr 2) (gr 3))])

/-- A chain from its endpoint to its root, with the densities supplied for the first two (R262). -/
def wChain (d : Dev) (v : Option Vertex) (pbs : Nat × Nat) : List WV :=
  match v with
  | none => []
  | some v =>
    let c := chainOf d 256 v
    (c.zip (List.range c.length)).map fun p => wv d p.1 (if p.2 = 0 then pbs.1 else if p.2 = 1 then pbs.2 else p.1.pb)

/-- A product of `r` factors in order, starting from 1 (R271). -/
def rProd (w : Weigh) (xs : List WV) : Nat := xs.foldl (fun p x => wMul p (w.r x)) wOne

/-- The term of the connection with eye prefix `m` (R264, R271). `xs` is the full path, `s` the current prefix. -/
def conTerm (w : Weigh) (xs : List WV) (s m : Nat) : Nat :=
  if m = s then wOne
  else if m < s then wMul (rProd w ((xs.take s).drop m).reverse) (wC (xs.getD m default))
  else wMul (rProd w ((xs.take m).drop s)) (wC (xs.getD (m - 1) default))
where
  /-- A vertex that no path has. -/
  default : WV := ⟨0, 0, false, false, false⟩

/-- The term of the merge at `j` (R264, R271). -/
def mrgTerm (w : Weigh) (xs : List WV) (s j : Nat) : Nat :=
  let x := xs.getD j ⟨0, 0, false, false, false⟩
  let fin := j == 0 || j + 1 == xs.length
  if j < s then wMul (rProd w ((xs.take s).drop (j + 1)).reverse) (w.m fin x)
  else wMul (rProd w ((xs.take j).drop s)) (w.m fin x)

/-- The 18 slots of `vcon.all` as nine words; none where the path is too long (R271). -/
def allSlots (d : Dev) (w : Weigh) (e l : Option Vertex) (de dl : Word) : Option (List Word) :=
  let ec := (wChain d e (densities de)).reverse
  let lc := wChain d l (densities dl)
  let xs := ec ++ lc
  let n := xs.length
  let s := ec.length
  let dead := fun (v : Option Vertex) => match v with
    | some v => v.delta
    | none => false
  if 8 < n then none
  else
    let terms := (List.range 9).map (fun m => if m ≤ n then conTerm w xs s m else 0) ++
      (List.range 8).map (fun j => if j < n then mrgTerm w xs s j else 0) ++ [0]
    let total := (fsumR .f32 .rn false terms).1
    let out := if dead e || dead l || !wFinite total then List.replicate 18 0 else terms.map fun t => wDiv t total
    some ((List.range 9).map fun k => BitVec.ofNat 64 (out.getD (2 * k) 0 + 2 ^ 32 * out.getD (2 * k + 1) 0))

/-- `vcon.all` (R271). -/
def execVconAll (h : Hdr) (sc : Scope) (d : PredIdx) (w g : Reg) (s : State) : Host.Outcome State Fault Refusal :=
  issueOn (.vconAll h sc d w g) h s (pairBody sc d w g 9 false fun wt gr dv e l => allSlots dv wt e l (gr 2) (gr 3))

/-- W of one side of a merge (R272). -/
def mrgSide (d : Dev) (w : Weigh) (v : Vertex) (pb2 : Nat) : Nat :=
  let x := wv d v v.pb
  let q := match parentOf d v with
    | none => (0, 0)
    | some u => w.sums (wv d u pb2) u.qc u.qm
  wDiv (wAdd (wAdd (wC x) q.1) q.2) (w.pow (wMul w.eta x.pf))

/-- The weight `vmrg` writes (R272). -/
def mrgWeight (d : Dev) (w : Weigh) (e l : Vertex) (de dl : Word) : Nat :=
  if e.delta || l.delta || !e.hasParent || !l.hasParent || !w.merge then 0
  else wDiv wOne (wAdd (wAdd wOne (mrgSide d w e (densities de).1)) (mrgSide d w l (densities dl).1))

/-- `vmrg` (R272). -/
def execVmrg (h : Hdr) (sc : Scope) (d : PredIdx) (w g : Reg) (s : State) : Host.Outcome State Fault Refusal :=
  issueOn (.vmrg h sc d w g) h s (pairBody sc d w g 1 true fun wt gr dv e l => match e, l with
    | some e, some l => some [BitVec.ofNat 64 (mrgWeight dv wt e l (gr 2) (gr 3))]
    | _, _ => none)

/-! ### Sums, pins and frames (R273 to R275) -/

/-- `F^β` rounded to `f32` (R273). -/
def growth (w : Weigh) (n : Nat) : Nat := (roundTo .f32 .rn false false (if w.power then n * n else n) 0).1

/-- One lane of `vrew` (R273). -/
def rewLane (x : Iss) (h n : Word) (d : Dev) : Bool × Dev :=
  match vertexOf d x.f.ctx h with
  | none => (false, d)
  | some v =>
    if v.isSealed && decide (1 ≤ n.toNat ∧ n.toNat ≤ 65535) then
      (true, setVertex d (v.put 5 0 32 (wMul v.qm (growth (weighOf (d.ctx x.f.ctx)) n.toNat))))
    else (false, d)

/-- `vrew` (R273). -/
def execVrew (h : Hdr) (d : PredIdx) (a : Reg) (b : Src) (s : State) : Host.Outcome State Fault Refusal :=
  issueOn (.vrew h d a b) h s (ifActive fun x dv =>
    let f := x.fib dv
    let r := eachLane (fun dv' L => rewLane x (regLane dv f a.toNat L) (srcZ dv f x.t L b) dv') (x.order dv) dv
    some (.done (enginePreds x r.2 d r.1)))

/-- One lane of `vpin` or `vunpin` (R274); an unpin to 0 lets the vertex retire at once. -/
def pinLane (x : Iss) (up : Bool) (h : Word) (d : Dev) : Bool × Dev :=
  match vertexOf d x.f.ctx h with
  | none => (false, d)
  | some v =>
    if !v.isSealed || (up && v.pin == 255) || (!up && v.pin == 0) then (false, d)
    else
      let v := v.put 7 32 8 (if up then v.pin + 1 else v.pin - 1)
      let d := setVertex d v
      (true, if mayRetire d v then reclaim d v else d)

/-- The body of `vpin` and `vunpin`. -/
def pinBody (up : Bool) (d : PredIdx) (a : Reg) : Body := ifActive fun x dv =>
  let f := x.fib dv
  let r := eachLane (fun dv' L => pinLane x up (regLane dv f a.toNat L) dv') (x.order dv) dv
  some (.done (enginePreds x r.2 d r.1))

/-- `vpin` (R274). -/
def execVpin (h : Hdr) (d : PredIdx) (a : Reg) (s : State) : Host.Outcome State Fault Refusal := issueOn (.vpin h d a) h s (pinBody true d a)

/-- `vunpin` (R274). -/
def execVunpin (h : Hdr) (d : PredIdx) (a : Reg) (s : State) : Host.Outcome State Fault Refusal :=
  issueOn (.vunpin h d a) h s (pinBody false d a)

/-- The frame that this cycle's `vframe` of the same path has given another packed narrow fibre of the context (R84, R88, R275). -/
def framedBy (x : Iss) (d : Dev) : Option Nat :=
  (d.framed.find? fun p => p.core == x.f.core && p.quad == x.f.quad && p.slot == x.f.slot && p.pos == x.f.pos && p.pc == x.c.pc &&
    p.depth == x.c.depth).map Framed.val

/-- Advance the context's frame for a path (R275). -/
def advanceFrame (x : Iss) (d : Dev) : Nat × Dev :=
  let c := d.ctx x.f.ctx
  let n := (c.frame + 1) % 65536
  (n, { d.setCtx x.f.ctx { c with frame := n } with framed := ⟨x.f.core, x.f.quad, x.f.slot, x.f.pos, x.c.pc, x.c.depth, n⟩ :: d.framed })

/-- `vframe` (R275): the context's frame advances by 1, once for the path. -/
def execVframe (h : Hdr) (d : Reg) (s : State) : Host.Outcome State Fault Refusal :=
  issueOn (.vframe h d) h s (ifActive fun x dv =>
    let r := match framedBy x dv with
      | some n => (n, dv)
      | none => advanceFrame x dv
    some (.done (sendResult x r.2 false false [d.toNat] 0 fun _ => [BitVec.ofNat 64 r.1])))

end Sys2Proof.Machine
end

