-- ==== Sys2Proof/Machine/Quoin.lean ====
section
/-!
DEFINITION. The Quoin tree (R278 to R295): handles, inserts and splits, builds, the opening test, walks, and its instructions.
-/

namespace Sys2Proof.Machine

/-! ### Arithmetic: `f32`, nearest even, subnormals kept (R282) -/

/-- An `f32` encoding as the algebra's number. -/
abbrev F32 := BitVec 32

def qAdd (x y : F32) : F32 := BitVec.ofNat 32 (wAdd x.toNat y.toNat)
def qSub (x y : F32) : F32 := BitVec.ofNat 32 (fsubR .f32 .rn false x.toNat y.toNat).1
def qMul (x y : F32) : F32 := BitVec.ofNat 32 (wMul x.toNat y.toNat)
def qDiv (x y : F32) : F32 := BitVec.ofNat 32 (wDiv x.toNat y.toNat)
def qSqrt (x : F32) : F32 := BitVec.ofNat 32 (fsqrtR .f32 .rn false x.toNat).1

/-- Whether an `f32` is a NaN, and whether it is finite. -/
def qNaN (x : F32) : Bool := decide (0x7F800000 < x.toNat % 2 ^ 31)
def qFinite (x : F32) : Bool := wFinite x.toNat

/-- `x < y`; false with a NaN. -/
def qLess (x y : F32) : Bool := fless false (fval .f32 false x.toNat) (fval .f32 false y.toNat)

/-- `max` of R282: NaN if either is. -/
def qMax (x y : F32) : F32 := if qNaN x || qNaN y then 0x7FC00000 else if qLess x y then y else x

/-- A sum in ascending order. -/
def qSum (xs : List F32) : F32 := match xs with
  | [] => 0
  | x :: xs => xs.foldl qAdd x

/-- A whole number as `f32`. -/
def qNat (n : Nat) : F32 := BitVec.ofNat 32 (roundTo .f32 .rn false false n 0).1

/-- `Σ (a[i] − b[i])²`. -/
def sqDist (a b : List F32) : F32 := qSum ((a.zip b).map fun p => let t := qSub p.1 p.2; qMul t t)

/-- `Σ a[i] × b[i]`. -/
def dotSum (a b : List F32) : F32 := qSum ((a.zip b).map fun p => qMul p.1 p.2)

/-- The exact values of finite numbers as signed integers at a common exponent. -/
def exactSum (xs : List F32) : Int × Int :=
  let vs := xs.filterMap fun x => match fval .f32 false x.toNat with
    | .fin s m e => some (s, m, e)
    | _ => none
  let q := (vs.map fun v => v.2.2).foldl min 0
  ((vs.map fun v => atExp q v.1 v.2.1 v.2.2).foldl (· + ·) 0, q)

/-- An exact sum that is zero: −0 where every addend is −0 (R28). -/
def zeroSum (xs : List F32) : F32 := if !xs.isEmpty && xs.all (· == 0x80000000) then 0x80000000 else 0

/-- The exact mean of `n` numbers, rounded once (R283, R285). -/
def exactMean (xs : List F32) : F32 :=
  let s := exactSum xs
  if s.1 = 0 ∨ xs.isEmpty then zeroSum xs
  else
    let q := divSticky s.1.natAbs xs.length
    BitVec.ofNat 32 (roundTo .f32 .rn false (decide (s.1 < 0)) q.1 (q.2 + s.2)).1

/-- The exact sum, rounded once. -/
def exactTotal (xs : List F32) : F32 :=
  let s := exactSum xs
  if s.1 = 0 then zeroSum xs else BitVec.ofNat 32 (roundTo .f32 .rn false (decide (s.1 < 0)) s.1.natAbs s.2).1

/-- Column `i` of rows. -/
def column (rows : List (List F32)) (i : Nat) : List F32 := rows.map fun r => r.getD i 0

/-! ### Trees (R278 to R281) -/

/-- Node `n` of a tree. -/
def QTree.node (t : QTree) (n : Nat) : QNode := t.nodes.getD n default

/-- Key `k` of a tree. -/
def QTree.key (t : QTree) (k : Nat) : QKey := t.keys.getD k default

/-- Replace a node. -/
def QTree.setNode (t : QTree) (n : Nat) (v : QNode) : QTree := { t with nodes := setAt t.nodes n v }

/-- A leaf holds its keys itself. -/
def QNode.leaf (n : QNode) : Bool := n.children.isEmpty

/-- The current generation of a tree index; 0 before the first build. -/
def treeGen (x : Ctx) (index : Nat) : Nat := ((x.treeGens.find? fun p => p.1 == index).map Prod.snd).getD 0

/-- THE TREE A HANDLE NAMES in a context; none when it is stale (R278). -/
def treeOf (d : Dev) (ctx : Nat) (h : Word) : Option QTree :=
  if field h 26 38 != 0 then none
  else d.trees.find? fun t => t.ctx == ctx && t.index == field h 0 8 && t.home == field h 8 2 && t.gen == field h 10 16 &&
    t.gen == treeGen (d.ctx ctx) t.index

/-- Replace a tree. -/
def setTree (d : Dev) (t : QTree) : Dev := { d with trees := d.trees.map fun u => if u.uid == t.uid then t else u }

/-- The handle of a tree. -/
def treeHandle (t : QTree) : Word := BitVec.ofNat 64 (t.index + 2 ^ 8 * t.home + 2 ^ 10 * t.gen)

/-- Whether the store and spill region of a Quarter lack room for `n` more nodes; a retired way of the store holds none (R278, R335). -/
def storeFull (d : Dev) (home n : Nat) : Bool :=
  decide (2 ^ 18 + Config.nodeExtra < lostEntries d (5 + home) + ((d.trees.filter fun t => t.home == home).map fun t => t.nodes.length).foldl (· + ·) 0 + n)

/-- The 8 words of a chunk of sixteen `f32`. -/
def chunkOf (xs : List F32) (k : Nat) : List Word :=
  (List.range 8).map fun i => BitVec.ofNat 64 ((xs.getD (16 * k + 2 * i) 0).toNat + 2 ^ 32 * (xs.getD (16 * k + 2 * i + 1) 0).toNat)

/-- What an item's image is made of (R280, R281). -/
structure ItemTerms where
  count : Nat
  spread : F32
  vals : List F32
  pay : List F32
  flags : Nat
  node : Nat
  tail : List Nat
  deriving DecidableEq, Repr

/-- An item image: 13 chunks of 8 words (R280, R281). -/
def itemImage (t : QTree) (m : ItemTerms) : List (List Word) :=
  let c := fun i => if t.hiDim then (0 : Nat) else (m.vals.getD i 0).toNat
  let y := if t.payload = 1 then (m.pay.getD 0 0).toNat else 0
  let chunk0 : List Nat := [m.count % 2 ^ 32 + 2 ^ 32 * m.spread.toNat, c 0 + 2 ^ 32 * (c 1), c 2 + 2 ^ 32 * y,
    m.flags + 2 ^ 32 * (m.node % 2 ^ 32)] ++ (List.range 4).map fun i =>
      m.tail.getD (2 * i) 0 % 2 ^ 32 + 2 ^ 32 * (m.tail.getD (2 * i + 1) 0 % 2 ^ 32)
  chunk0.map (BitVec.ofNat 64) ::
    ((List.range 8).map (chunkOf (if t.hiDim then m.vals else [])) ++
     (List.range 4).map (chunkOf (if t.payload = 2 then m.pay else [])))

/-- Bits 223:192 of chunk 0. -/
def itemFlags (t : QTree) (depth : Nat) (leaf key : Bool) (occ : Nat) : Nat :=
  depth % 256 + (if leaf then 256 else 0) + (if key then 512 else 0) + (if t.hiDim then 1024 else 0) + 65536 * (occ % 32)

/-- The summary item of a node. -/
def nodeItem (t : QTree) (n : Nat) : WalkItem :=
  let v := t.node n
  let flags := itemFlags t v.depth v.leaf false (if v.leaf then v.keys.length else v.children.length)
  { word := BitVec.ofNat 64 (n % 2 ^ 32 + 2 ^ 40 * (v.depth % 256))
    image := itemImage t ⟨v.count, v.spread, v.centroid, v.paySum, flags, n, v.children⟩
    know := [] }

/-- The item of a key in a leaf. -/
def keyItem (t : QTree) (leaf k : Nat) : WalkItem :=
  let v := t.node leaf
  { word := BitVec.ofNat 64 (k % 2 ^ 32 + 2 ^ 32 + 2 ^ 40 * (v.depth % 256))
    image := itemImage t ⟨1, 0, (t.key k).vals, (t.key k).pay, itemFlags t v.depth true true v.keys.length, leaf, [k]⟩
    know := [] }

/-! ### Inserting (R282 to R284) -/

/-- The child of an internal node whose centroid is nearest, the lower index on a tie. -/
def nearestChild (t : QTree) (n : Nat) (k : List F32) : Nat :=
  match (t.node n).children with
  | [] => n
  | c :: cs =>
    (cs.foldl (fun (best : Nat × F32) c => let v := sqDist k (t.node c).centroid; if qLess v best.2 then (c, v) else best)
      (c, sqDist k (t.node c).centroid)).1

/-- The nodes from `n` down to the leaf an insert enters, with `fuel` levels. -/
def descent (t : QTree) (k : List F32) : Nat → Nat → List Nat
  | 0, n => [n]
  | f + 1, n => if (t.node n).leaf then [n] else n :: descent t k f (nearestChild t n k)

/-- A node after a key arrives beneath it (R282). -/
def arrive (v : QNode) (k y : List F32) : QNode :=
  let n := v.count + 1
  let c := (v.centroid.zip k).map fun p => qAdd p.1 (qDiv (qSub p.2 p.1) (qNat n))
  let δ := qSqrt (sqDist c v.centroid)
  { v with
    count := n
    centroid := c
    spread := qMax (qAdd v.spread δ) (qSqrt (sqDist k c))
    paySum := (v.paySum.zip y).map fun p => qAdd p.1 p.2 }

/-- A node recomputed from keys (R283, R285). -/
def recompute (t : QTree) (v : QNode) (ks : List Nat) : QNode :=
  let vals := ks.map fun k => (t.key k).vals
  let pays := ks.map fun k => (t.key k).pay
  let c := (List.range t.d).map fun i => exactMean (column vals i)
  { v with
    count := ks.length
    centroid := c
    spread := (vals.map fun k => qSqrt (sqDist k c)).foldl qMax 0
    paySum := (List.range v.paySum.length).map fun i => exactTotal (column pays i) }

/-- `f32` numbers in ascending order as naturals; the two zeros are equal. -/
def orderKey (x : F32) : Nat := if x.toNat % 2 ^ 31 = 0 then 2 ^ 31 else if x.getLsbD 31 then 2 ^ 32 - x.toNat % 2 ^ 32 else 2 ^ 31 + x.toNat

/-- The extent of a column. -/
def extent (xs : List F32) : F32 :=
  let x0 := xs.headD 0
  qSub (xs.foldl (fun m x => if qLess m x then x else m) x0) (xs.foldl (fun m x => if qLess x m then x else m) x0)

/-- The axis of a geometric split. -/
def splitAxis (rows : List (List F32)) : Nat :=
  let e := fun i => extent (column rows i)
  [1, 2].foldl (fun best i => if qLess (e best) (e i) then i else best) 0

/-- The pairs `(a, b)` of a list, `a` before `b`, in lexicographic order. -/
def pairsOf : List Nat → List (Nat × Nat)
  | [] => []
  | a :: as => as.map (fun b => (a, b)) ++ pairsOf as

/-- The farthest pair by squared distance, the lowest pair on a tie. -/
def farPair (t : QTree) (ks : List Nat) : (Nat × Nat) × F32 :=
  let dist := fun (p : Nat × Nat) => sqDist (t.key p.1).vals (t.key p.2).vals
  match pairsOf ks with
  | [] => ((0, 0), 0)
  | p :: ps => ps.foldl (fun best q => let v := dist q; if qLess best.2 v then (q, v) else best) (p, dist p)

/-- The two groups of a split (R283). -/
def splitKeys (t : QTree) (ks : List Nat) : List Nat × List Nat :=
  let ids := sortBy id ks
  if t.hiDim then
    let far := farPair t ids
    if far.2.toNat % 2 ^ 31 = 0 then (ids.take 8, ids.drop 8)
    else
      let toB := fun (k : Nat) => qLess (sqDist (t.key k).vals (t.key far.1.2).vals) (sqDist (t.key k).vals (t.key far.1.1).vals)
      (ids.filter fun k => !toB k, ids.filter toB)
  else
    let ax := splitAxis (ids.map fun k => (t.key k).vals)
    let s := sortBy (fun k => orderKey ((t.key k).vals.getD ax 0)) ids
    (s.take 8, s.drop 8)

/-- A new leaf that holds keys. -/
def newLeaf (t : QTree) (depth : Nat) (ks : List Nat) (payLen : Nat) : QNode :=
  recompute t { depth := depth, count := 0, centroid := [], spread := 0, paySum := List.replicate payLen 0, children := [], keys := ks } ks

/-- Insert a number in a list after another. -/
def insertAfter (x y : Nat) : List Nat → List Nat
  | [] => []
  | z :: zs => if z = x then z :: y :: zs else z :: insertAfter x y zs

/-- SPLIT A LEAF that a 17th key has entered (R283). -/
def splitLeaf (t : QTree) (parent : Option Nat) (leaf : Nat) : QTree :=
  let v := t.node leaf
  let g := splitKeys t v.keys
  let n := t.nodes.length
  let pl := v.paySum.length
  let room := parent.filter fun p => decide ((t.node p).children.length < 8)
  match room with
  | some p =>
    let t := t.setNode leaf (newLeaf t v.depth g.1 pl)
    let t := { t with nodes := t.nodes ++ [newLeaf t v.depth g.2 pl] }
    let u := t.node p
    t.setNode p { u with children := insertAfter leaf n u.children }
  | none =>
    let t := { t with nodes := t.nodes ++ [newLeaf t (v.depth + 1) g.1 pl, newLeaf t (v.depth + 1) g.2 pl] }
    t.setNode leaf { v with children := [n, n + 1], keys := [] }

/-- INSERT A KEY (R282 to R284). -/
def insertKey (t : QTree) (k : QKey) : QTree :=
  let id := t.keys.length
  let t := { t with keys := t.keys ++ [k] }
  if t.nodes.isEmpty then
    { t with nodes := [{ depth := 0, count := 1, centroid := k.vals, spread := 0, paySum := k.pay, children := [], keys := [id] }] }
  else
    let path := descent t k.vals t.nodes.length 0
    let t := path.foldl (fun t n => t.setNode n (arrive (t.node n) k.vals k.pay)) t
    let leaf := path.getLast?.getD 0
    let v := t.node leaf
    let t := t.setNode leaf { v with keys := v.keys ++ [id] }
    if 16 < v.keys.length + 1 then splitLeaf t (path.dropLast.getLast?) leaf else t

/-- The keys beneath a node, with `fuel` levels. -/
def keysBelow (t : QTree) : Nat → Nat → List Nat
  | 0, n => (t.node n).keys
  | f + 1, n => if (t.node n).leaf then (t.node n).keys else (t.node n).children.flatMap (keysBelow t f)

/-- The tree of R285: keys inserted in order, then every node recomputed. -/
def buildTree (t : QTree) (ks : List QKey) : QTree :=
  let t := ks.foldl insertKey t
  { t with nodes := (t.nodes.zip (List.range t.nodes.length)).map fun p => recompute t p.1 (keysBelow t t.nodes.length p.2) }

/-! ### Operand groups (R290, R292) -/

/-- Registers of a key group, apart from its payload in a high-dimensional tree. -/
def keyRegs (t : QTree) : Nat := if t.hiDim then (t.d + 3) / 4 else 2

/-- Registers of a key group with its payload. -/
def insertRegs (t : QTree) : Nat :=
  if !t.hiDim then 2 else keyRegs t + (if t.payload = 1 then 1 else if t.payload = 2 then (t.v + 3) / 4 else 0)

/-- A `bf16` as the `f32` of the same value. -/
def bfUp (n : Nat) : F32 := BitVec.ofNat 32 (n % 65536 * 65536)

/-- The key or query values a lane's group holds. -/
def groupKey (t : QTree) (reg : Nat → Word) : List F32 :=
  if t.hiDim then (List.range t.d).map fun i => bfUp (sub (reg (i / 4)) 16 (i % 4))
  else [BitVec.ofNat 32 (sub (reg 0) 32 0), BitVec.ofNat 32 (sub (reg 0) 32 1), BitVec.ofNat 32 (sub (reg 1) 32 0)]

/-- The payload a lane's group holds. -/
def groupPay (t : QTree) (reg : Nat → Word) : List F32 :=
  match t.payload with
  | 1 => if t.hiDim then [BitVec.ofNat 32 (sub (reg (keyRegs t)) 32 0)] else [BitVec.ofNat 32 (sub (reg 1) 32 1)]
  | 2 => (List.range t.v).map fun i => bfUp (sub (reg (keyRegs t + i / 4)) 16 (i % 4))
  | _ => []

/-- The check of the groups of each lane's tree before any effect: a group that contains `vz` (R66, R290), a register bound, a pending
register (`none`), the checking scoreboard (R46, R47, R75). -/
def groupCheck (x : Iss) (d : Dev) (a : Reg) (len : Nat → Option Nat) (go : Option Res) : Option Res :=
  let f := x.fib d
  let n := (x.lanes.filterMap len).foldl max 0
  let regs := regGroup a n
  if 255 < a.toNat + n then some x.illegal
  else if f.nAlloc < a.toNat + n then some (x.pre 3 0 0 x.act)
  else if regs.any fun i => regPending d f i then none
  else if f.chk then
    match underrun f x.c x.s.clk.cycle 31 ⟨[rdG a n], [], []⟩ with
    | some pc => some (x.pre 7 0 pc x.act)
    | none => go
  else go

/-! ### `qnins` (R292) -/

/-- A tree as its first `j` inserts since the build have left it (R284). -/
def QTree.upTo (t : QTree) (j : Nat) : QTree := if j < t.olds.length then { t with nodes := t.olds.getD j [] } else t

/-- Whether insert `i` of a tree, counted from 1, has changed a node. -/
def QTree.changed (t : QTree) (i n : Nat) : Bool := (t.upTo i).node n != (t.upTo (i - 1)).node n

/-- Whether insert `i` has made a node or split it as a leaf: an indivisible step with the change of its parent (R283). -/
def QTree.splits (t : QTree) (i n : Nat) : Bool :=
  let u := t.upTo (i - 1)
  decide (u.nodes.length < (t.upTo i).nodes.length) &&
  (if u.nodes.length ≤ n then decide (n < (t.upTo i).nodes.length) else (u.node n).leaf && t.changed i n)

/-- The key that insert `i` of a tree has placed. -/
def QTree.keyOf (t : QTree) (i : Nat) : Nat := t.keys.length - t.olds.length + (i - 1)

/-- The new leaves that the inserts after the `j`-th, up to the `k`-th, have split off a leaf beside it, the latest first: their keys stood
in the leaf as the `j`-th left it (R283). -/
def QTree.siblings (t : QTree) (n j k : Nat) : List (Nat × Nat) :=
  ((List.range (k + 1)).filter fun i => decide (j < i) && t.splits i n && decide (n < (t.upTo (i - 1)).nodes.length) && ((t.upTo i).node n).leaf).foldl
    (fun st i => ((t.upTo (i - 1)).nodes.length, i) :: st) []

/-- What a walk at a scope acquires from the inserts of some keys of its tree, with whether accesses to host pages are in it (R155, R201). -/
def treeKnow (team core : Nat) (sc : Scope) (t : QTree) (ks : List Nat) : List (Bool × List Nat) :=
  (t.notes.filter fun n => ks.contains n.key && scopeHas n.sc n.team n.core team core && scopeHas sc team core n.team n.core).map fun n =>
    (n.sc == .sys && sc == .sys, [n.event])

/-- A running walk has its tree as it stands; which inserts it sees is decided as it reads each node. -/
def meetInsert (t' : QTree) (f : Fibre) : Fibre := f.mapThreads fun _ th =>
  { th with walk := th.walk.map fun w => if w.tree.uid == t'.uid then { w with tree := t' } else w }

/-- A tree with one more key: the store's copy, and that of the running walks. -/
def growTree (d : Dev) (t t' : QTree) : Dev :=
  let t' := { t' with olds := t.olds ++ [t.nodes] }
  let d' := setTree d t'
  { d' with fibres := d'.fibres.map (meetInsert t') }

/-- One lane of `qnins`. -/
def insertLane (x : Iss) (sc : Scope) (h : Word) (reg : Nat → Word) (L : Nat) (d : Dev) : Word × Dev :=
  match treeOf d x.f.ctx h with
  | none => (0x8000000000000001, d)
  | some t =>
    let k : QKey := ⟨groupKey t reg, groupPay t reg⟩
    let t' := insertKey t k
    if !(k.vals.all qFinite && k.pay.all qFinite) then (0x8000000000000002, d)
    else if storeFull d t.home (t'.nodes.length - t.nodes.length) then (0x8000000000000003, d)
    else if 2 ^ 32 - 1 ≤ t.keys.length then (0x8000000000000004, d)
    else
      let j := d.join (((x.fib d).thread L).reached false sc)
      let d := j.2.setFibre ((x.fib j.2).onLanes (LaneMask.ofLanes [L]) fun _ th => th.noted false false true [j.1])
      (BitVec.ofNat 64 t.keys.length, growTree d t { t' with notes := ⟨t.keys.length, x.f.uid, x.t.uid, x.f.core, sc, j.1⟩ :: t.notes })

/-- `qnins` (R292): a release at its scope, so it waits for the active threads' earlier accesses (R201). -/
def execQnins (h : Hdr) (sc : Scope) (d a b : Reg) (s : State) : Host.Outcome State Fault Refusal :=
  issueOn (.qnins h sc d a b) h s (ifActive fun x dv =>
    let f := x.fib dv
    let hd := fun L => regLane dv f b.toNat L
    groupCheck x dv a (fun L => (treeOf dv f.ctx (hd L)).map insertRegs)
      (if x.lanes.any fun L => !laneOver dv f.uid L then none
      else
        let r := eachLane (fun dv' L => insertLane x sc (hd L) (fun k => regLane dv f (a.toNat + k) L) L dv') (x.order dv) dv
        some (.done (engineLanes x r.2 d r.1))))

/-! ### `qnbld` (R279, R285, R291) -/

/-- Whether a configuration word keeps R279. -/
def configOk (w : Word) : Bool :=
  let hi := w.getLsbD 8
  let d := field w 9 8
  let pay := field w 17 2
  let v := field w 19 7
  field w 26 38 == 0 && (if hi then decide (1 ≤ d ∧ d ≤ 128) else d == 3) && pay != 3 &&
  (if pay = 2 then decide (1 ≤ v ∧ v ≤ 64) else v == 0)

/-- Whether a parameter block keeps R291 for a configuration word. -/
def bldShapeOk (w : Word) (pb : ParamBlock) (sh : Shape) : Bool :=
  let z := Sub.lit 0
  sh.ext.getD 0 0 == field w 9 8 && decide (sh.ext.getD 1 0 < 2 ^ 32) && pb.ndims == 2 && !sh.blk &&
  sh.fmt == (if w.getLsbD 8 then 9 else 10) && pb.s2 == z && pb.s3 == z && pb.s6 == z && pb.s7 == z && pb.s9 == z && pb.s10 == z

/-- Whether the literals of a parameter block let it be one that `qnbld` takes for some tree: a check on the word, made whatever the guard
(R44, R290, R291). -/
def bldShapeLit (pb : ParamBlock) : Bool :=
  let z := Sub.lit 0
  pb.ndims == 2 && pb.blk == 0 && (pb.fmt == 9 || pb.fmt == 10) && pb.s2 == z && pb.s3 == z && pb.s6 == z && pb.s7 == z && pb.s9 == z &&
  pb.s10 == z && litOr (fun v => if pb.fmt == 10 then v.toNat == 3 else decide (1 ≤ v.toNat ∧ v.toNat ≤ 128)) pb.s0

/-- The event of a build's reads of pages of a kind. -/
def Build.event (id : Nat) (uo host : Bool) : Nat := soleEv id + (if uo then 1 else 0) + if host then 2 else 0

/-- A lane's place in its thread's order for the reads of a build, which are loads of it (R291). -/
def noteBuild (fib id : Nat) (d : Dev) (L : Nat) : Dev :=
  [(false, false), (true, false), (false, true), (true, true)].foldl (fun d k => match d.fibre? fib with
    | none => d
    | some f =>
      let e := Build.event id k.1 k.2
      (d.addBefore e false ((f.thread L).viewOf k.1 k.2)).setFibre (f.onLanes (LaneMask.ofLanes [L]) fun _ t => t.noted k.1 k.2 true [e])) d

/-- `qnbld` (R291): the build enters a slot of its core; its reads follow the fibre's earlier accesses. -/
def execQnbld (h : Hdr) (pad : Bool) (d a : Reg) (pb : ParamBlock) (s : State) : Host.Outcome State Fault Refusal :=
  issueOn (.qnbld h pad d a pb) h s fun x dv => if !bldShapeLit pb then some x.illegal else ifActive (fun x dv =>
    let f := x.fib dv
    let w := regLane dv f (a.toNat + 2) 0
    match groupU dv f a.toNat 3, resolveShape dv f pb with
    | true, some sh =>
      if !configOk w || !bldShapeOk w pb sh then some x.illegal
      else
        let b : Build :=
          { id := dv.nextId, core := f.core, entry := freeEntry ((dv.builds.filter fun b => b.core == f.core).map Build.entry),
            team := x.t.uid, ctx := f.ctx, fib := f.uid, lid := x.t.lid, teamIdx := laneTeam f x.t ((lowestLane x.act).getD 0),
            first := (f.thread 0).logical, pc := x.c.pc, path := x.c.lanes, lanes := x.act, dst := d.toNat, full := x.full, scratch := pad, config := w,
            keyA := regLane dv f a.toNat 0, payA := regLane dv f (a.toNat + 1) 0, count := sh.ext.getD 1 0, strideK := sh.str.getD 0 0,
            strideD := sh.str.getD 1 0, fmt := sh.fmt, after := engineAfter dv f.uid x.act, prog := 0, keys := [], state := .queued,
            know := knownTo f x.act, besides := besidesOf f x.act, acqs := [], buf := taskBuf f x.act }
        some (.done (x.lanes.foldl (noteBuild x.f.uid b.id) { dv with nextId := dv.nextId + 1, builds := dv.builds ++ [b] }))
    | _, _ => some x.illegal) x dv

/-- Dimensions, payload form and payload length of a build. -/
def Build.d (b : Build) : Nat := field b.config 9 8
def Build.pay (b : Build) : Nat := field b.config 17 2
def Build.v (b : Build) : Nat := field b.config 19 7

/-- Bytes of a build's key element. -/
def Build.size (b : Build) : Nat := if b.config.getLsbD 8 then 2 else 4

/-- A little-endian element as `f32`. -/
def elemF32 (n : Nat) (bs : List Byte) : F32 := if n = 2 then bfUp (leNat bs) else BitVec.ofNat 32 (leNat bs)

/-- Whom a build reads memory for: its reads follow its fibre's earlier accesses to the bytes, and the team's earlier direct commands that hold
them (R168, R216, R291). -/
def Build.engine (b : Build) (back : Nat) : Engine :=
  { core := b.core, ctx := b.ctx, fib := b.fib, since := b.id, direct := b.id, afterW := [], buf := b.buf, lanes := b.lanes, know := b.know,
    besides := b.besides, back := back, walker := ⟨b.core, 1, b.id⟩, index := false }

/-- What a read of a build tells its threads, as a load of each of them (R175, R291). -/
def learnBuild (d : Dev) (b : Build) (e : Engine) (t : Team) (q : Word × List (Place × Nat)) : Dev :=
  let back := engineAsOf d e t [q]
  b.lanes.lanes.foldl (fun d L =>
    let a := e.acc q.1 q.2 L
    let ev := Build.event b.id (!a.plain) a.host
    learn d b.fib t.uid b.core ev (acqAt ev .rlx .team b.acqs a) back a) d

/-- Read elements of a build, `n` bytes each, at offsets from a base, as relaxed loads, which may take an older value where R187 lets them (R291;
assumption 70). The first of them is read number `k` of the build. -/
def readElems (b : Build) (t : Team) (base : Word) (n k : Nat) : List Int → Dev → TRes (List F32)
  | [], d => .ok [] d
  | o :: os, d =>
    let e := b.engine (Config.older b.id k)
    match engineFind d e t (if b.scratch then .sp else .g) base o n with
    | .bad k r va => .bad k r va
    | .wait d => .wait d
    | .ok q d => match readElems b t base n (k + 1) os (learnBuild d b e t q) with
      | .ok rest d' => .ok (elemF32 n ((engineTake d e t [q]).headD []) :: rest) d'
      | r => r

/-- Read key `i` of a build with its payload (R291). -/
def readKey (b : Build) (t : Team) (i : Nat) (d : Dev) : TRes QKey :=
  let off := fun (j : Nat) => ((j : Int) * b.strideK.toInt + (i : Int) * b.strideD.toInt) * b.size
  let no := i * (b.d + b.v + 1)
  match readElems b t b.keyA b.size no ((List.range b.d).map off) d with
  | .bad k r va => .bad k r va
  | .wait d => .wait d
  | .ok vals d =>
    let pays := match b.pay with
      | 1 => readElems b t b.payA 4 (no + b.d) [(4 * i : Int)] d
      | 2 => readElems b t b.payA 2 (no + b.d) ((List.range b.v).map fun (j : Nat) => ((i * 2 * b.v + 2 * j : Nat) : Int)) d
      | _ => .ok [] d
    match pays with
    | .bad k r va => .bad k r va
    | .wait d => .wait d
    | .ok pay d => .ok ⟨vals, pay⟩ d

/-- Read up to `fuel` keys from a build's progress on. -/
def readKeys (t : Team) : Nat → Dev → Build → Dev × Build
  | 0, d, b => (d, { b with state := .moved })
  | k + 1, d, b => match readKey b t b.prog d with
    | .ok key d => readKeys t k d { b with prog := b.prog + 1, keys := b.keys ++ [key] }
    | .bad kind r va => (d, { b with state := .faulted kind r va })
    | .wait d => (d, { b with state := .moving })

/-- Replace a build. -/
def setBuild (d : Dev) (b : Build) : Dev := { d with builds := d.builds.map fun c => if c.id == b.id then b else c }

/-- The empty tree a build starts from. -/
def emptyTree (uid gen : Nat) (b : Build) : QTree :=
  { uid := uid, ctx := b.ctx, index := field b.config 0 8, home := quarterOf b.core, gen := gen, hiDim := b.config.getLsbD 8, d := b.d,
    payload := b.pay, v := b.v, nodes := [], keys := [], olds := [], notes := [] }

/-- END A BUILD (R285, R291): the new tree replaces the index's and the lanes receive its handle, or they receive 0. -/
def landBuild (d : Dev) (b : Build) : Dev :=
  let d := finishFlight d b.id
  let x := d.ctx b.ctx
  let index := field b.config 0 8
  let g := treeGen x index
  let gen := if g = 65535 then 1 else g + 1
  let t := buildTree (emptyTree d.nextId gen b) b.keys
  let ok := (b.keys.all fun k => k.vals.all qFinite && k.pay.all qFinite) && !storeFull d t.home t.nodes.length
  let r : Word × Dev := if ok then
      (treeHandle t, { d.setCtx b.ctx { x with treeGens := (index, gen) :: x.treeGens.filter fun p => p.1 != index } with
        nextId := d.nextId + 1
        trees := d.trees.filter (fun u => !(u.ctx == b.ctx && u.index == index)) ++ [t] })
    else (0, d)
  match r.2.fibre? b.fib with
  | none => r.2
  | some f => if b.dst = 255 then r.2
    else writeNow r.2 b.fib b.dst (lanesWhere fun L => b.lanes.has L && f.liveLane L) b.full (.g (List.replicate f.width r.1))

/-- BUILD_COMPLETE (R291): a build whose turn has come, the earliest of its fibre (R290), reads its keys; a fault suspends it with a
record, and without one it completes. -/
def execBuildComplete (id : Nat) (s : State) : Host.Outcome State Fault Refusal :=
  onDev s fun s => match s.dev.builds.find? fun b => b.id == id with
    | none => s.dev
    | some b => match s.dev.team? b.team with
      | none => s.dev
      | some t =>
        let turn := !(s.dev.builds.any fun c => c.fib == b.fib && decide (c.id < b.id))
        if (b.state == .queued || b.state == .moving) && turn && b.after.all fun i => !s.dev.pending i then
          let r := readKeys t (b.count - b.prog) s.dev b
          match r.2.state with
          | .moved => landBuild r.1 r.2
          | .faulted k rs va =>
            oweRecord (setBuild r.1 { r.2 with state := .suspended }) b.ctx
              (engineRecord s.clk.now 2 k rs b.ctx b.pc va (BitVec.ofNat 64 r.2.prog) b.lid b.teamIdx b.first
                (engineToken b.core b.entry true)) false
          | _ => setBuild r.1 r.2
        else s.dev

/-! ### The opening test and the walk (R286 to R288, R293, R294) -/

/-- Whether a number may stand in θ or ε: finite and not negative (R286). -/
def openOk (x : F32) : Bool := qFinite x && (!x.getLsbD 31 || x == 0x80000000)

/-- `qnset` (R293). -/
def execQnset (h : Hdr) (a : Reg) (dot : Bool) (depth : BitVec 8) (s : State) : Host.Outcome State Fault Refusal :=
  issueOn (.qnset h a dot depth) h s (ifActive fun x d =>
    let f := x.fib d
    let v := regLane d f a.toNat 0
    let θ : F32 := BitVec.ofNat 32 (sub v 32 0)
    let ε : F32 := BitVec.ofNat 32 (sub v 32 1)
    if !groupU d f a.toNat 1 || !openOk θ || !openOk ε then some x.illegal
    else some (.done (d.setFibre { f with theta := θ, eps := ε, maxDepth := depth.toNat, dot := dot })))

/-- THE OPENING TEST (R287). -/
def accepted (w : WalkSt) (n : QNode) : Bool :=
  let tt := qMul w.theta w.theta
  let ee := qMul w.eps w.eps
  let ss := qMul n.spread n.spread
  let sides := if w.dot then
      let P := dotSum w.query n.centroid
      (qMul (dotSum w.query w.query) ss, qMax (qMul tt (qMul P P)) ee)
    else (ss, qMax (qMul tt (sqDist w.query n.centroid)) ee)
  decide (0 < n.count) && decide (n.depth ≤ w.maxDepth) && qLess sides.1 sides.2

/-- The least number of inserts that a walk sees in a node it reads, named by a node that had seen `j`: those whose keys it must cover, and with
the naming node's own splits those of its children (R201, R283, R289). -/
def WalkSt.least (w : WalkSt) (n j : Nat) : Nat :=
  ((List.range (w.tree.olds.length + 1)).filter fun i => decide (0 < i) &&
    (w.must.contains (w.tree.keyOf i) && w.tree.changed i n || decide (i ≤ j) && w.tree.splits i n)).foldl max 0

/-- How many inserts a walk has seen in the node it reads next: a free value among those that R201 and R289 allow (assumption 46). -/
def WalkSt.look (w : WalkSt) (n j : Nat) : Nat :=
  let m := w.least n j
  if w.tree.olds.length ≤ m then m else m + Config.walkSees w.seq w.read % (w.tree.olds.length + 1 - m)

/-- Walk on until an item has been pushed or the walk is over (R288); a full FIFO holds the walker. A node is read once and whole, as some of the
inserts have left it, and a leaf's keys' items are those of that read. `kn`: what the items of some keys hand on (R201). -/
def walkOn (kn : QTree → List Nat → List (Bool × List Nat)) : Nat → WalkSt → WalkSt
  | 0, w => w
  | k + 1, w =>
    if w.done || decide (16 ≤ w.fifo.length) then w
    else match w.keys, w.stack with
      | i :: is, _ => { w with keys := is, fifo := w.fifo ++ [i] }
      | [], [] => { w with done := true }
      | [], (n, j) :: ns =>
        let m := w.look n j
        let u := w.tree.upTo m
        let v := u.node n
        let w := { w with stack := w.tree.siblings n j m ++ ns, read := w.read + 1 }
        if v.count = 0 then walkOn kn k w
        else if accepted w v then { w with fifo := w.fifo ++ [{ nodeItem u n with know := kn u (keysBelow u u.nodes.length n) }] }
        else if v.leaf then walkOn kn k { w with keys := v.keys.map fun key => { keyItem u n key with know := kn u [key] } }
        else walkOn kn k { w with stack := v.children.map (fun c => (c, m)) ++ w.stack }

/-- WALK_ITEM_PUSH (R288). -/
def execWalkItemPush (fibre lane : Nat) (s : State) : Host.Outcome State Fault Refusal :=
  onDev s fun s => match s.dev.fibre? fibre with
    | none => s.dev
    | some f => match (f.thread lane).walk with
      | none => s.dev
      | some w => s.dev.setFibre (f.onLanes (LaneMask.ofLanes [lane]) fun _ t =>
          { t with walk := some (walkOn (treeKnow f.team f.core w.sc) (2 * w.tree.nodes.length + 2) w) })

/-- The keys of a tree whose inserts happen before a thread's walk at a scope starts: those of its own fibre, and those that its order puts before
it with scopes that contain each other's threads (R173, R201, R289). -/
def keysBefore (d : Dev) (f : Fibre) (L : Nat) (sc : Scope) (t : QTree) : List Nat :=
  let known := reach d.before false (f.thread L).know
  (t.notes.filter fun n => n.fib == f.uid || known.contains n.event && scopeHas n.sc n.team n.core f.team f.core &&
    scopeHas sc f.team f.core n.team n.core).map TreeNote.key

/-- A walk at its start. -/
def startWalk (d : Dev) (f : Fibre) (L : Nat) (sc : Scope) (t : QTree) (query : List F32) : WalkSt :=
  { tree := t, stack := if t.nodes.isEmpty then [] else [(0, 0)], keys := [], fifo := [], cur := none, done := t.nodes.isEmpty, query := query,
    theta := f.theta, eps := f.eps, maxDepth := f.maxDepth, dot := f.dot, sc := sc, must := keysBefore d f L sc t, seq := d.freeSeq, read := 0 }

/-- One lane of `qnwalk`. -/
def walkLane (x : Iss) (sc : Scope) (h : Word) (reg : Nat → Word) (L : Nat) (d : Dev) : Bool × Dev :=
  let f := x.fib d
  let put := fun (w : Option WalkSt) => d.setFibre (f.onLanes (LaneMask.ofLanes [L]) fun _ t => { t with walk := w })
  match treeOf d x.f.ctx h with
  | none => (false, put none)
  | some t => (true, { put (some (startWalk d f L sc t (groupKey t reg))) with freeSeq := d.freeSeq + 1 })

/-- `qnwalk` (R294). -/
def execQnwalk (h : Hdr) (sc : Scope) (d : PredIdx) (a b : Reg) (s : State) : Host.Outcome State Fault Refusal :=
  issueOn (.qnwalk h sc d a b) h s (ifActive fun x dv =>
    let f := x.fib dv
    let hd := fun L => regLane dv f b.toNat L
    groupCheck x dv a (fun L => (treeOf dv f.ctx (hd L)).map keyRegs)
      (let r := eachLane (fun dv' L => walkLane x sc (hd L) (fun k => regLane dv f (a.toNat + k) L) L dv') (x.order dv) dv
      some (.done (enginePreds x r.2 d r.1))))

/-- Whether a lane's walk has an item or is over. -/
def walkReady (t : Thread) : Bool := match t.walk with
  | none => true
  | some w => w.done || !w.fifo.isEmpty

/-- Pop a lane's next item (R294). A walk that returns a key, or a summary that counts it, synchronises with its insert (R201). -/
def popLane (x : Iss) (d : Dev) (L : Nat) : Word × Dev :=
  let f := x.fib d
  let put := fun (w : WalkSt) => d.setFibre (f.onLanes (LaneMask.ofLanes [L]) fun _ t => { t with walk := some w })
  match (f.thread L).walk with
  | none => (0x8000000000000000, d)
  | some w => match w.fifo with
    | [] => (0x8000000000000000, put { w with cur := none })
    | i :: is => (i.word, learnVertex x L i.know (put { w with fifo := is, cur := some i }))

/-- `qnnext` (R294). -/
def execQnnext (h : Hdr) (d : Reg) (s : State) : Host.Outcome State Fault Refusal :=
  issueOn (.qnnext h d) h s (ifActive fun x dv =>
    if x.lanes.any fun L => !walkReady ((x.fib dv).thread L) then none
    else
      let r := eachLane (popLane x) (x.order dv) dv
      some (.done (engineLanes x r.2 d r.1)))

/-- `qnend` (R294). -/
def execQnend (h : Hdr) (d : PredIdx) (s : State) : Host.Outcome State Fault Refusal :=
  issueOn (.qnend h d) h s (ifActive fun x dv =>
    let f := x.fib dv
    if x.lanes.any fun L => !walkReady (f.thread L) then none
    else some (.done (enginePreds x dv d (x.lanes.map fun L => (L, match (f.thread L).walk with
      | none => true
      | some w => w.done && w.fifo.isEmpty)))))

/-- `qnsum` (R294). -/
def execQnsum (h : Hdr) (k : BitVec 4) (d : PredIdx) (g : Reg) (s : State) : Host.Outcome State Fault Refusal :=
  issueOn (.qnsum h k d g) h s (ifActive fun x dv =>
    let f := x.fib dv
    let item := fun (L : Nat) => ((f.thread L).walk.bind WalkSt.cur)
    some (.done (sendBoth x dv g 8 d (x.lanes.map fun L => (L, match item L with
      | some i => (true, i.image.getD k.toNat (List.replicate 8 0))
      | none => (false, List.replicate 8 0))))))

end Sys2Proof.Machine
end

