-- ==== Sys2Proof/Machine/Context.lean ====
section
/-!
DEFINITION. Control blocks, commands, pre-emption, the end of a halt, debug stops and the fault-queue writer (R233, R250, R296 to R307).
-/

namespace Sys2Proof.Machine

/-! ### Reading the control block (R296, R297) -/

/-- State code of a context (R296). -/
def stateCode : CState → Nat
  | .free => 0
  | .created => 1
  | .resident => 2
  | .running => 3
  | .preempted => 4
  | .switched => 5
  | .halted => 6
  | .destroyed => 7

/-- The register at a byte offset of a context's control block; what the table does not list, and what only is written, reads 0. -/
def ctxReg (d : Dev) (c off : Nat) : Word :=
  let x := d.ctx c
  let n := BitVec.ofNat 64
  if off = 0x000 then n (stateCode x.state)
  else if off = 0x010 then n x.prio
  else if off = 0x018 then n x.slice
  else if off = 0x020 then n x.root
  else if off = 0x028 then n x.save
  else if off = 0x030 then n x.savelen
  else if off = 0x038 then n (saveNeed d c 0)
  else if off = 0x040 then n x.fqbase
  else if off = 0x048 then n x.fqcap
  else if off = 0x050 then n x.fqhead
  else if off = 0x058 then n x.fqtail
  else if off = 0x060 then n x.fqnote
  else if off = 0x068 then n x.fqlost
  else if off = 0x070 then x.mortar
  else if off = 0x078 then n x.mwin
  else if off = 0x080 then n x.frame
  else if off = 0x088 then (if x.chk then 1 else 0)
  else if off = 0x090 then n x.agelimit
  else if off = 0x098 then n x.wavewait
  else if off = 0x0A0 then x.dstopl
  else if off = 0x0A8 then x.dstopt
  else if 0x0C0 ≤ off ∧ off < 0x100 then
    (if off % 16 = 0 then x.waddr.getD ((off - 0x0C0) / 16) 0 else if off % 16 = 8 then x.wctl.getD ((off - 0x0C0) / 16) 0 else 0)
  else if 0x400 ≤ off ∧ off < 0x440 then (if off % 8 = 0 then x.qdesc.getD ((off - 0x400) / 8) 0 else 0)
  else if off = 0x448 then n x.qres
  else if 0x480 ≤ off ∧ off < 0x4C0 then (if off % 8 = 0 then x.gnode.getD ((off - 0x480) / 8) 0 else 0)
  else if off = 0x4C8 then n x.gres
  else 0

/-! ### Commands (R298) -/

/-- Command 1: create, from Free, once boot has reached its last stage (R331). -/
def cmdCreate (d : Dev) (c : Nat) : Dev :=
  let x := d.ctx c
  if d.regions ∧ x.state = .free then
    { d.setCtx c { Ctx.initial with state := .created, treeGens := x.treeGens } with created := true }
  else d

/-- Command 2: start. -/
def cmdStart (d : Dev) (c : Nat) : Dev :=
  let x := d.ctx c
  if x.root = 0 ∨ x.save = 0 ∨ x.fqbase = 0 then d
  else match x.state with
    | .created => d.setCtx c { x with state := .resident }
    | .halted => d.setCtx c { x with state := if x.saved.isEmpty then .resident else .switched }
    | _ => d

/-- REQUEST A HALT of a Running context (R299): its fibres issue no more, and the save follows. -/
def requestHalt (now : Word) (d : Dev) (c : Nat) (goal : HaltGoal) : Dev :=
  d.setCtx c { d.ctx c with state := .preempted, goal := some goal, haltAt := now }

/-- Command 3: halt. -/
def cmdHalt (now : Word) (d : Dev) (c : Nat) : Dev :=
  let x := d.ctx c
  match x.state with
  | .running => requestHalt now d c .halted
  | .preempted => if x.goal = some .destroyed then d else d.setCtx c { x with goal := some .halted }
  | .resident | .switched => d.setCtx c { x with state := .halted }
  | _ => d

/-- A flight that waits for a fibre the device no longer holds. -/
def orphan (c : Nat) (g : Flight) : Bool :=
  g.ctx == c && match g.kind with
    | .join | .haltWait _ _ | .drain _ | .clk => true
    | _ => false

/-- DISCARD what a destroyed context holds: nothing retires and no completion is written, but sealed vertices retire at once (R298). -/
def discard (d : Dev) (c : Nat) : Dev :=
  let x := d.ctx c
  let d := (d.vertices.filter fun v => v.ctx == c).foldl reclaim d
  { d.setCtx c { x with
      state := .destroyed
      queues := []
      nodes := []
      owed := []
      saved := []
      goal := none
      dstopArmed := false } with
    grids := d.grids.filter fun g => g.ctx != c
    bins := d.bins.filter fun b => b.ctx != c
    waves := d.waves.filter fun w => w.ctx != c
    trees := d.trees.filter fun t => t.ctx != c
    waiters := d.waiters.filter fun w => w.ctx != c
    residents := d.residents.filter fun r => r.ctx != c
    loads := d.loads.filter fun l => l.ctx != c
    drains := d.drains.filter fun w => w.ctx != c
    flights := d.flights.filter fun g => !orphan c g }

/-- Command 4: destroy. -/
def cmdDestroy (now : Word) (d : Dev) (c : Nat) : Dev :=
  let x := d.ctx c
  match x.state with
  | .free | .destroyed => d
  | .running => requestHalt now d c .destroyed
  | .preempted => d.setCtx c { x with goal := some .destroyed }
  | _ => discard d c

/-- A write to CCMD; a value that is no command is ignored (R298). -/
def command (now : Word) (d : Dev) (c : Nat) (v : Word) : Dev :=
  match v.toNat with
  | 1 => cmdCreate d c
  | 2 => cmdStart d c
  | 3 => cmdHalt now d c
  | 4 => cmdDestroy now d c
  | _ => d

/-! ### Commits of queues and nodes (R233, R250, R297) -/

/-- The field checks of R233. -/
def descOk (ws : List Word) : Bool :=
  let w := fun k => ws.getD k 0
  let kind := field (w 0) 0 4
  decide (1 ≤ kind) && decide (kind ≤ 4) && field (w 0) 7 9 == 0 && decide (1 ≤ field (w 0) 16 16) && field (w 0) 32 32 == 0 &&
  w 5 == 0 && w 6 == 0 && w 7 == 0 && (kind == 2 || kind == 3 || w 1 == 0) &&
  (if kind = 3 then
    decide (1 ≤ field (w 2) 0 12) && decide (field (w 2) 0 12 ≤ field (w 2) 12 12) && decide (1 ≤ field (w 2) 24 8) &&
    field (w 2) 32 32 == 0 && (w 4).toNat % 64 == 0 && canonical (w 4)
  else w 2 == 0 && w 3 == 0 && w 4 == 0)

/-- Whether a queue holds entries. -/
def holdsEntries (d : Dev) (c qn : Nat) (q : Queue) : Bool := !q.entries.isEmpty || decide (0 < tasksHeld d c qn)

/-- Bytes of a Quarter's queue region that queues other than one have set aside. -/
def regionUsed (d : Dev) (home c qn : Nat) : Nat :=
  let per := fun (k : Nat) => ((d.ctx k).queues.filter fun p =>
    !(k == c && p.1 == qn) && p.2.kind != 0 && p.2.fld 0 4 2 == home).map fun p => p.2.fld 0 16 16 * 128
  ((List.range 64).flatMap per).foldl (fun acc n => acc + n) 0

/-- Whether a commit deletes the queue. DESIGN CHOICE (assumption 20): the service deletes a Closed queue that holds no entry (R234) by
committing a descriptor of zeros to it; the spec gives the deletion no operation of its own. -/
def deletesQueue (d : Dev) (c qn : Nat) (ws : List Word) : Bool :=
  let q := (d.ctx c).queue qn
  (ws.all (· == 0)) && q.kind != 0 && !q.isOpen && !holdsEntries d c qn q

/-- A queue that is Unallocated again; the numbers that name its past launches stay taken. -/
def Queue.deleted (q : Queue) : Queue := { q with desc := none, hdr := none, slots := [], nextSlot := 0, fireReq := false }

/-- The result of a commit: the code of QRES, the queue, and the device after the read of its bound header. -/
def queueCommit (d : Dev) (c qn : Nat) (ws : List Word) : Nat × Queue × Dev :=
  let q := (d.ctx c).queue qn
  let w0 := ws.getD 0 0
  if deletesQueue d c qn ws then (1, q.deleted, d)
  else if !descOk ws || (holdsEntries d c qn q && q.fld 0 16 16 != field w0 16 16) then (2, q, d)
  else
    let r := if field w0 0 4 = 2 then readHeader d c (ws.getD 1 0) 32 else (none, d)
    let hdr := r.1
    let d := r.2
    let bad := field w0 0 4 == 2 && match hdr with
      | some h => decide (32 < h.width) || tooLarge h 32
      | none => true
    if bad then (3, q, d)
    else if 2 ^ 30 < regionUsed d (field w0 4 2) c qn + field w0 16 16 * 128 then (4, q, d)
    else (1, { q with
      desc := some ws
      hdr := hdr
      slots := (List.range (field (ws.getD 2 0) 24 8)).map fun k => q.slots.getD k none
      nextSlot := if field (ws.getD 2 0) 24 8 = 0 then 0 else q.nextSlot % field (ws.getD 2 0) 24 8 }, d)

/-- A write to QSEL: commit QDESC to a queue; a value that is no queue number is ignored. -/
def commitQueue (d : Dev) (c : Nat) (v : Word) : Dev :=
  if 256 ≤ v.toNat then d
  else
    let r := queueCommit d c v.toNat (d.ctx c).qdesc
    let d := if r.1 = 1 then setQueue r.2.2 c v.toNat r.2.1 else r.2.2
    d.setCtx c { d.ctx c with qres := r.1 }

/-- A write to GSEL: commit GNODE to a node that is neither Armed nor Launched. -/
def commitNode (d : Dev) (c : Nat) (v : Word) : Dev :=
  if 4096 ≤ v.toNat then d
  else
    let x := d.ctx c
    match (x.node v.toNat).state with
    | .armed _ | .launched _ => d.setCtx c { x with gres := 2 }
    | _ =>
      let d := setNode d c { num := v.toNat, record := x.gnode, state := .idle, queue := 0, know := [] }
      d.setCtx c { d.ctx c with gres := 1 }

/-! ### Writing the control block (R297) -/

/-- An address of `n` bytes of device HBM (R149, R297). -/
def hbmAt (v n : Nat) : Bool := !isHost v && populated v n

/-- A write to a plain register of the control block: none when the value is outside its range. -/
def ctxPlain (x : Ctx) (off : Nat) (v : Word) : Option Ctx :=
  let n := v.toNat
  let idle := x.state == .created || x.state == .switched || x.state == .halted
  let if' := fun (b : Bool) (y : Ctx) => if b then some y else none
  if off = 0x010 then if' (decide (n ≤ 7)) { x with prio := n }
  else if off = 0x018 then if' (n == 0 || decide (100000 ≤ n ∧ n ≤ 1000000000)) { x with slice := n }
  else if off = 0x020 then if' (idle && n % 65536 == 0 && hbmAt n 65536) { x with root := n }
  else if off = 0x028 then if' (idle && n % 4096 == 0 && hbmAt n 4096) { x with save := n }
  else if off = 0x030 then if' (idle && n % 4096 == 0) { x with savelen := n }
  else if off = 0x040 then if' (idle && n % 64 == 0 && hbmAt n 64) { x with fqbase := n }
  else if off = 0x048 then if' (idle && decide (16 ≤ n ∧ n ≤ 65536) && n == 2 ^ n.log2) { x with fqcap := n }
  else if off = 0x050 then if' (decide (n < 2 ^ 32)) { x with fqhead := n }
  else if off = 0x060 then if' (n == 0 || hbmAt n 8) { x with fqnote := n }
  else if off = 0x070 then
    if' (field v 2 30 == 0 && wFinite (field v 32 32) && decide (0 < field v 32 32 ∧ field v 32 32 < 2 ^ 31)) { x with mortar := v }
  else if off = 0x078 then if' (decide (n ≤ 32767)) { x with mwin := n }
  else if off = 0x088 then if' (decide (n ≤ 1)) { x with chk := n == 1 }
  else if off = 0x090 then if' (decide (16 ≤ n ∧ n ≤ 1024)) { x with agelimit := n }
  else if off = 0x098 then if' (decide (1 ≤ n ∧ n ≤ 1000000000)) { x with wavewait := n }
  else if off = 0x0A0 then some { x with dstopl := v }
  else if off = 0x0A8 then if' (field v 44 20 == 0) { x with dstopt := v, dstopArmed := true }
  else if 0x0C0 ≤ off ∧ off < 0x100 ∧ off % 16 = 0 then some { x with waddr := setAt x.waddr ((off - 0x0C0) / 16) v }
  else if 0x0C0 ≤ off ∧ off < 0x100 ∧ off % 16 = 8 then
    if' (decide (field v 0 5 ≤ 16) && field v 5 3 == 0 && field v 10 54 == 0) { x with wctl := setAt x.wctl ((off - 0x0C0) / 16) v }
  else if 0x400 ≤ off ∧ off < 0x440 ∧ off % 8 = 0 then some { x with qdesc := setAt x.qdesc ((off - 0x400) / 8) v }
  else if 0x480 ≤ off ∧ off < 0x4C0 ∧ off % 8 = 0 then some { x with gnode := setAt x.gnode ((off - 0x480) / 8) v }
  else none

/-- WRITE A CONTROL REGISTER, as the host or a control core does (R297, R298, R310). -/
def ctxWriteReg (now : Word) (d : Dev) (c off : Nat) (v : Word) : Dev :=
  if off = 0x008 then command now d c v
  else if off = 0x440 then commitQueue d c v
  else if off = 0x4C0 then commitNode d c v
  else match ctxPlain (d.ctx c) off v with
    | some x => d.setCtx c x
    | none => d

/-- The same by a writer after some events: who reads the value may come after them (R174, R310, R315); a write that is ignored hands nothing on. -/
def Dev.regWrite (now : Word) (d : Dev) (team core c off : Nat) (v : Word) (ks : List Nat) : Dev :=
  let d' := ctxWriteReg now d c off v
  if (ctxPlain (d.ctx c) off v).isSome then d'.noteReg team core c off ks else d'

/-- A host write of a control block's register: it comes over the host link and passes the access tables (R297, R313, R334). -/
def hostCtx (c : Nat) (s : State) (g : State → Dev) : Host.Outcome State Fault Refusal :=
  .next (hostRegs s fun s => if c < 64 then s.withDev (g s) else s)

/-- An event on a context number 0 to 63. -/
def onCtx (c : Nat) (s : State) (g : State → Dev) : Host.Outcome State Fault Refusal :=
  onDev s fun s => if c < 64 then g s else s.dev

/-- CCMD_CREATE (R298). -/
def execCcmdCreate (ctx : Nat) (s : State) : Host.Outcome State Fault Refusal := hostCtx ctx s fun s => cmdCreate s.dev ctx

/-- CCMD_START (R298). -/
def execCcmdStart (ctx : Nat) (s : State) : Host.Outcome State Fault Refusal := hostCtx ctx s fun s => cmdStart s.dev ctx

/-- CCMD_HALT (R298). -/
def execCcmdHalt (ctx : Nat) (s : State) : Host.Outcome State Fault Refusal := hostCtx ctx s fun s => cmdHalt s.clk.now s.dev ctx

/-- CCMD_DESTROY (R298). -/
def execCcmdDestroy (ctx : Nat) (s : State) : Host.Outcome State Fault Refusal := hostCtx ctx s fun s => cmdDestroy s.clk.now s.dev ctx

/-- QSEL (R233, R297). -/
def execQsel (ctx : Nat) (v : Word) (s : State) : Host.Outcome State Fault Refusal := hostCtx ctx s fun s => commitQueue s.dev ctx v

/-- GSEL (R250, R297). -/
def execGsel (ctx : Nat) (v : Word) (s : State) : Host.Outcome State Fault Refusal := hostCtx ctx s fun s => commitNode s.dev ctx v

/-- DSTOPT (R297, R307). -/
def execDstopt (ctx : Nat) (v : Word) (s : State) : Host.Outcome State Fault Refusal :=
  hostCtx ctx s fun s => Dev.regWrite s.clk.now s.dev 0 0 ctx 0x0A8 v s.dev.hostKnow

/-! ### The scheduler's halts (R298) -/

/-- The device as it will be when the halts in progress have ended. -/
def afterHalts (d : Dev) : Dev := { d with teams := d.teams.filter fun t => (d.ctx t.ctx).state != .preempted }

/-- Whether a context has a team that is Queued or saved and finds no room on a core. -/
def stuck (d : Dev) (c : Nat) : Bool :=
  let x := d.ctx c
  match x.saved with
  | s :: _ => (x.state == .switched || x.state == .running) && (savedRoom d s).isNone
  | [] => x.places &&
    ((d.grids.any fun g => g.ctx == c && g.todo.any fun p => (gridRoom d g p.1).isNone) ||
     (d.waves.any fun w => w.ctx == c && (waveRoom d w).isNone))

/-- The Running context of lowest priority below `p`, the higher number on a tie. -/
def victimBelow (d : Dev) (p : Nat) : Option Nat :=
  ((List.range 64).filter fun c => (d.ctx c).state == .running && decide ((d.ctx c).prio < p)).foldl (fun best c => match best with
    | none => some c
    | some b => if (d.ctx c).prio ≤ (d.ctx b).prio then some c else some b) none

/-- Contexts, highest priority first. -/
def byPriority (d : Dev) : List Nat := sortBy (fun c => 7 - (d.ctx c).prio) (List.range 64)

/-- Halt contexts, one after the other, until the waiting teams have room or nothing lower runs. -/
def preempt (now : Word) : Nat → Dev → Dev
  | 0, d => d
  | k + 1, d =>
    match (byPriority d).findSome? fun c => if stuck (afterHalts d) c then victimBelow d (d.ctx c).prio else none with
    | some v => preempt now k (requestHalt now d v .switched)
    | none => d

/-- PREEMPTION_DECISION (R298). -/
def execPreemptionDecision (s : State) : Host.Outcome State Fault Refusal := onDev s fun s => preempt s.clk.now 64 s.dev

/-- TIME_SLICE_EXPIRY (R298): the slice of a Running context is over and an equal waits. -/
def execTimeSliceExpiry (ctx : Nat) (s : State) : Host.Outcome State Fault Refusal :=
  onCtx ctx s fun s =>
    let x := s.dev.ctx ctx
    let slice := if x.slice = 0 then 2000000 else x.slice
    let peer := (List.range 64).any fun c => c != ctx && (s.dev.ctx c).prio == x.prio && stuck (afterHalts s.dev) c
    if x.state = .running ∧ x.runSince.toNat + slice ≤ s.clk.now.toNat ∧ peer = true then requestHalt s.clk.now s.dev ctx .switched
    else s.dev

/-- HALT_REQUEST (R299): a Running context becomes Pre-empted. -/
def execHaltRequest (ctx : Nat) (s : State) : Host.Outcome State Fault Refusal :=
  onCtx ctx s fun s => if (s.dev.ctx ctx).state = .running then requestHalt s.clk.now s.dev ctx .switched else s.dev

/-! ### The end of a halt (R299 to R301) -/

/-- A flight the save waits for: every result, and every access of the team's own scratchpad. Stores go on by themselves. -/
def heldUp (d : Dev) (c : Nat) (g : Flight) : Bool :=
  g.ctx == c && (d.fibres.any fun f => f.uid == g.fib) && ((match g.kind with
    | .store _ | .red _ _ _ | .wake | .flip _ | .join | .drain _ | .haltWait _ _ => false
    | _ => true) || g.acc.any fun a => a.places.any fun p => match p with
      | .spad _ => true
      | _ => false)

/-- An engine entry whose fault is still to be recorded. -/
def faultedEngine (s : CmdState) : Bool :=
  match s with
  | .faulted _ _ _ => true
  | _ => false

/-- Whether the save of a Pre-empted context may complete. -/
def saveReady (d : Dev) (c : Nat) : Bool :=
  let x := d.ctx c
  x.state == .preempted && x.owed.isEmpty && !(d.flights.any (heldUp d c)) &&
  !(d.teams.any fun t => t.ctx == c && t.mmas.any fun m => !m.held) &&
  !(d.cmds.any fun k => k.ctx == c && faultedEngine k.state) && !(d.builds.any fun b => b.ctx == c && faultedEngine b.state)

/-- SAVE_COMPLETE (R299, R301): the save area is written, the cores are free, and the context enters the state its halt asks for. -/
def execSaveComplete (ctx : Nat) (s : State) : Host.Outcome State Fault Refusal :=
  onCtx ctx s fun s =>
    if saveReady s.dev ctx then
      let d := saveContext s.dev s.clk ctx
      let x := d.ctx ctx
      match x.goal with
      | some .destroyed => discard d ctx
      | some .halted => d.setCtx ctx { x with state := .halted, goal := none }
      | _ => d.setCtx ctx { x with state := if x.saved.isEmpty then .resident else .switched, goal := none }
    else s.dev

/-- DESTROY_COMPLETE (R298): nothing of the context is left. -/
def execDestroyComplete (ctx : Nat) (s : State) : Host.Outcome State Fault Refusal :=
  onCtx ctx s fun s =>
    let x := s.dev.ctx ctx
    if x.state = .destroyed ∧ !(s.dev.flights.any fun g => g.ctx == ctx) then
      { s.dev.setCtx ctx { Ctx.initial with treeGens := x.treeGens } with tlb := s.dev.tlb.filter fun t => t.ctx != ctx }
    else s.dev

/-! ### Debug stops (R307) -/

/-- Whether a live thread is the one DSTOPL and DSTOPT name. -/
def stopNamed (x : Ctx) (f : Fibre) (t : Team) (L : Nat) : Bool :=
  let task := (f.thread L).task.isSome
  f.liveLane L && teamLaunch t == x.dstopl && laneTeam f t L % 2 ^ 32 == field x.dstopt 0 32 &&
  (task || (f.thread L).logical == field x.dstopt 32 12)

/-- The fibre and lane of an armed thread stop. -/
def stopTarget (d : Dev) (c : Nat) : Option (Fibre × Nat) :=
  (d.fibres.filter fun f => f.ctx == c).findSome? fun f => match d.team? f.team with
    | none => none
    | some t => ((List.range f.width).find? fun L => stopNamed (d.ctx c) f t L).map fun L => (f, L)

/-- DEBUG_THREAD_STOP (R307): the fibre stops at an instruction boundary; the lane mask is the thread's lane. -/
def execDebugThreadStop (ctx : Nat) (s : State) : Host.Outcome State Fault Refusal :=
  onCtx ctx s fun s =>
    let x := s.dev.ctx ctx
    match x.dstopArmed, stopTarget s.dev ctx with
    | true, some (f, L) =>
      if f.frozen.isSome then s.dev
      else takeFault s.clk (s.dev.setCtx ctx { x with dstopArmed := false }) f.uid (f.thread L).pc ⟨12, 1, 0, LaneMask.ofLanes [L], 0⟩
    | _, _ => s.dev

/-! ### The fault-queue writer (R305) -/

/-- The token of a record that has one (R304): that of a fibre, a command or a build, not that of a queue, a launch or a write. -/
def FRecord.token (r : FRecord) : Option Nat := if field (r.ws.getD 0 0) 4 4 ≤ 2 then some (field (r.ws.getD 7 0) 44 20) else none

/-- Whether the record of what a token names still waits to be written (R305). -/
def recordOwed (d : Dev) (c token : Nat) : Bool := (d.ctx c).owed.any fun r => r.token == some token

/-- What an `rfe` has named while its record waited goes on once the record is written (R305; assumption 63). -/
def resumeNamed (d : Dev) (c token : Nat) : Dev :=
  let marked := fun (f : Fibre) => f.ctx == c && fibreToken f == token && match f.frozen with
    | some z => z.resume
    | none => false
  let d := match d.fibres.find? marked with
    | some f => resumeFibre d f (BitVec.allOnes 64)
    | none => d
  { d with
    cmds := d.cmds.map fun k => if k.ctx = c ∧ k.state = .resuming ∧ engineToken k.core k.entry false = token then
      { k with state := .moving } else k
    builds := d.builds.map fun b => if b.ctx = c ∧ b.state = .resuming ∧ engineToken b.core b.entry true = token then
      { b with state := .queued } else b }

/-- WRITE ONE RECORD: its sequence is the tail; then the tail advances and FQNOTE is stored. The write is a release at `.sys`, and who reads the
record, the tail or FQNOTE may acquire it (R188, R305). -/
def writeRecord (d : Dev) (c : Nat) (r : FRecord) : Dev :=
  let x := d.ctx c
  let ws := setAt r.ws 0 (setField (r.ws.getD 0 0) 32 32 x.fqtail)
  let tail := (x.fqtail + 1) % 2 ^ 32
  let w := d.writeFrom r.know (fun e => [⟨.sys, true, [e]⟩]) (physBytes (x.fqbase + 64 * (x.fqtail % x.fqcap)) (ws.flatMap wordLE))
  let d := (w.2.setCtx c { x with owed := x.owed.drop 1, fqtail := tail }).noteReg r.team r.core c 0x058 [w.1]
  if x.fqnote = 0 then d else (d.writeFrom [w.1] (fun e => [⟨.sys, true, [e]⟩]) (physBytes x.fqnote (natLE 8 tail))).2

/-- Signal an MSI-X vector; a masked one becomes pending. -/
def signalMsix (e : Env) (v : Nat) : Env :=
  if (e.msixTable.getD (2 * v + 1) 0).getLsbD 32 then { e with msixPending := e.msixPending ||| (1#64 <<< v) }
  else { e with replies := .msix v :: e.replies }

/-- Whether a record is a refusal report, of kind 13. -/
def FRecord.isRefusal (r : FRecord) : Bool := field (r.ws.getD 0 0) 0 4 == 13

/-- FAULT_RECORD_WRITE (R305, R313): it follows the accesses of its fibre, as a release does; a refusal report whose turn finds the ring full is
discarded and counted. -/
def execFaultRecordWrite (ctx : Nat) (s : State) : Host.Outcome State Fault Refusal :=
  let x := s.dev.ctx ctx
  match x.owed with
  | [] => .next s
  | r :: rest =>
    if ctx < 64 ∧ ringRoom x = false ∧ r.isRefusal = true then .next (s.withDev (s.dev.setCtx ctx { x with owed := rest }.lose))
    else if ctx < 64 ∧ ringRoom x = true ∧ (liveIds s.dev r.after).isEmpty = true then
      let d := writeRecord s.dev ctx r
      .next { s with dev := (r.token.map (resumeNamed d ctx)).getD d, env := signalMsix s.env ctx }
    else .next s

end Sys2Proof.Machine
end

