-- ==== Sys2Proof/Machine/System.lean ====
section
/-!
DEFINITION. The system instructions (R308 to R312).
-/

namespace Sys2Proof.Machine

/-! ### Stops by instruction (R309) -/

/-- `trap` and `brk`: the active lanes have moved on; the fibre freezes with the code (R303, R304, R309). -/
def stopBody (kind : Nat) (code : BitVec 16) : Body := ifActive fun x d =>
  some (.trap d { kind := kind, reason := code.toNat % 256, detail := BitVec.ofNat 64 code.toNat, lanes := x.act, second := 0 })

/-- `trap` (R309). -/
def execTrap (h : Hdr) (code : BitVec 16) (s : State) : Host.Outcome State Fault Refusal :=
  issueOn (.trap h code) h s (stopBody 9 code)

/-- `brk` (R309). -/
def execBrk (h : Hdr) (code : BitVec 16) (s : State) : Host.Outcome State Fault Refusal :=
  issueOn (.brk h code) h s (stopBody 10 code)

/-! ### Operands of the privileged instructions (R308) -/

/-- The value of an `SU` operand; none when it does not count as U. -/
def suVal (x : Iss) (d : Dev) (a : Src) : Option Word :=
  if srcU d (x.fib d) a then some (srcZ d (x.fib d) x.t ((lowestLane x.act).getD 0) a) else none

/-- Context and byte offset of a selector; none where R308 makes it illegal. -/
def selector (v : Word) : Option (Nat × Nat) :=
  if field v 6 3 == 0 && field v 18 46 == 0 then some (field v 0 6, field v 6 12) else none

/-- Whether every access the active lanes must follow has performed: `sysr`, `sysw` and `rfe` act after it (R310, R312). -/
def allOver (x : Iss) (d : Dev) : Bool := x.lanes.all fun L => laneOver d x.f.uid L

/-! ### Control registers by instruction (R310) -/

/-- A lane's read of a control register: an `.sc` access at `.sys`, after all that its thread has done (R174, R310). -/
def readReg (x : Iss) (c off : Nat) (d : Dev) (L : Nat) : Dev :=
  let j := d.join (((x.fib d).thread L).reached false .sys)
  let ns := j.2.notes.filter fun n => n.places.contains (regPlace c off) && n.syncs x.t.uid x.f.core .sys
  let d := acquireNotes j.2 j.1 ns
  d.setFibre ((x.fib d).onLanes (LaneMask.ofLanes [L]) fun _ t => t.fenced false .sys j.1)

/-- What the write of a control register by the active lanes hands on (R310). -/
def regKnow (x : Iss) (d : Dev) : List Nat := dedupNat (x.lanes.flatMap fun L => ((x.fib d).thread L).reached false .sys)

/-- `sysr` (R310). -/
def execSysr (h : Hdr) (d : Reg) (a : Src) (s : State) : Host.Outcome State Fault Refusal :=
  issueOn (.sysr h d a) h s (ifActive fun x dv => match (suVal x dv a).bind selector with
    | none => some x.illegal
    | some (c, off) =>
      if allOver x dv then
        some (.done (sendResult x (x.lanes.foldl (readReg x c off) dv) true true [d.toNat] 0 fun _ => [ctxReg dv c off]))
      else none)

/-- `sysw` (R310): the write is made once, as a host write would be. -/
def execSysw (h : Hdr) (a b : Src) (s : State) : Host.Outcome State Fault Refusal :=
  issueOn (.sysw h a b) h s (ifActive fun x dv => match (suVal x dv a).bind selector, suVal x dv b with
    | some (c, off), some v => if allOver x dv then
        some (.done (Dev.regWrite s.clk.now dv x.t.uid x.f.core c off v (regKnow x dv)))
      else none
    | _, _ => some x.illegal)

/-! ### Halts by instruction (R311) -/

/-- `halt.ctx` (R311): false at once where there is nothing to halt; otherwise the predicate comes when the context is Halted. -/
def execHaltCtx (h : Hdr) (d : PredIdx) (a : Src) (s : State) : Host.Outcome State Fault Refusal :=
  issueOn (.haltCtx h d a) h s (ifActive fun x dv => match suVal x dv a with
    | none => some x.illegal
    | some v =>
      if 64 ≤ v.toNat then some x.illegal
      else match (dv.ctx v.toNat).state with
        | .free | .created | .destroyed => some (.done (sendPred x dv d fun _ => false))
        | _ => some (.done (addFlight (cmdHalt s.clk.now dv v.toNat)
            (mkFlight x (.haltWait v.toNat false) (x.lanes.map fun L => laneOps L []) [] (if d.toNat < 24 then some d.toNat else none)))))

/-- Stop one fibre at an instruction boundary (R307). -/
def stopFibre (clk : Clk) (d : Dev) (f : Fibre) : Dev :=
  takeFault clk d f.uid (((fibreKeys f).headD (0, 0)).1) ⟨12, 2, 0, f.live, 0⟩

/-- `halt.core` (R307, R311). -/
def execHaltCore (h : Hdr) (d : PredIdx) (a b : Src) (s : State) : Host.Outcome State Fault Refusal :=
  issueOn (.haltCore h d a b) h s (ifActive fun x dv => match suVal x dv a, suVal x dv b with
    | some k, some c =>
      if 384 ≤ k.toNat ∨ 64 ≤ c.toNat then some x.illegal
      else
        let fs := dv.fibres.filter fun f => f.core == k.toNat && f.ctx == c.toNat
        some (.done (sendPred x (fs.foldl (stopFibre s.clk) dv) d fun _ => !fs.isEmpty))
    | _, _ => some x.illegal)

/-! ### Return (R312) -/

/-- A suspended command goes on from its progress; while its record is `owed`, once that is written. -/
def resumeCmd (owed : Bool) (token : Nat) (c : Cmd) : Cmd :=
  if c.state = .suspended ∧ engineToken c.core c.entry false = token then { c with state := if owed then .resuming else .moving } else c

/-- A suspended build goes on from its progress; while its record is `owed`, once that is written. -/
def resumeBuild (owed : Bool) (token : Nat) (b : Build) : Build :=
  if b.state = .suspended ∧ engineToken b.core b.entry true = token then { b with state := if owed then .resuming else .queued } else b

/-- A resumed fibre's threads come after the event of the `rfe`, a release at `.sys` (R312). -/
def Fibre.comesAfter (f : Fibre) (event : Nat) : Fibre := f.mapThreads fun _ t => t.after false .sys event

/-- A fibre marked for resumption: a saved one resumes at its restore (R302), another once its record is written (R305). -/
def markFibre (token : Nat) (lim : Word) (event : Nat) (f : Fibre) : Fibre :=
  match f.frozen with
  | some z => if fibreToken f = token ∧ z.resume = false then
      { f.comesAfter event with frozen := some { z with resume := true }, stklim := if lim = BitVec.allOnes 64 then f.stklim else lim }
    else f
  | none => f

/-- What `rfe` changes in a saved team. -/
def markSaved (token : Nat) (lim : Word) (event : Nat) (s : SavedTeam) : SavedTeam :=
  { s with
    fibres := s.fibres.map (markFibre token lim event)
    cmds := s.cmds.map (resumeCmd false token)
    builds := s.builds.map (resumeBuild false token) }

/-- RETURN: resume what a token names in a context; none when it names nothing that is frozen or suspended (R312). DESIGN CHOICE
(assumption 63): what stays stopped because its record waits for room (R305) is marked, and goes on when the record is written; R312 alone
would clear the freeze at once. `event`: what the resumed fibre comes after. -/
def returnTo (d : Dev) (c token : Nat) (lim : Word) (event : Nat) : Option Dev :=
  let owed := recordOwed d c token
  match d.fibres.find? fun f => f.ctx == c && fibreToken f == token && f.frozen.isSome with
  | some f =>
    if !owed then some (resumeFibre d (f.comesAfter event) lim)
    else if markFibre token lim event f = f then none
    else some (d.setFibre (markFibre token lim event f))
  | none =>
    let cmds := d.cmds.map fun k => if k.ctx = c then resumeCmd owed token k else k
    let builds := d.builds.map fun b => if b.ctx = c then resumeBuild owed token b else b
    let x := d.ctx c
    let saved := x.saved.map (markSaved token lim event)
    if cmds = d.cmds ∧ builds = d.builds ∧ saved = x.saved then none
    else some { d.setCtx c { x with saved := saved } with cmds := cmds, builds := builds }

/-- `rfe` (R312). -/
def execRfe (h : Hdr) (d : PredIdx) (a b : Src) (s : State) : Host.Outcome State Fault Refusal :=
  issueOn (.rfe h d a b) h s (ifActive fun x dv => match suVal x dv a, suVal x dv b with
    | some v, some lim =>
      if !allOver x dv then none
      else if field v 20 12 == 0 && field v 38 26 == 0 then
        let j := dv.join (regKnow x dv)
        match returnTo j.2 (field v 32 6) (field v 0 20) lim j.1 with
        | some dv => some (.done (sendPred x dv d fun _ => true))
        | none => some (.done (sendPred x dv d fun _ => false))
      else some (.done (sendPred x dv d fun _ => false))
    | _, _ => some x.illegal)

end Sys2Proof.Machine
end

