-- ==== Sys2Proof/Machine/Time.lean ====
section
/-!
DEFINITION. The time base as instructions read it, sleep, marks, the trace writer and stall samples (R320 to R327).
-/

namespace Sys2Proof.Machine

/-! ### Time (R320, R321) -/

/-- What a read of the time base follows: the accesses, time reads and builds of the active threads, and what their acquires have named (R291,
R320). -/
def timeAfter (x : Iss) (d : Dev) : List Nat :=
  let mine := fun (g : Flight) => g.fib == x.f.uid && (g.isMem || g.kind == .clk) && g.acc.any fun a => x.act.has a.lane
  let held := d.holds.filter fun h => h.fib == x.f.uid && x.act.has h.lane
  dedupNat ((d.flights.filter mine).map Flight.id ++ x.lanes.flatMap (buildsOf d x.f.uid) ++ liveIds d (held.flatMap Hold.ids))

/-- `clk` (R320). What a task of an active thread has buffered commits first, since its earlier accesses perform before the read (assumption
61). -/
def execClk (h : Hdr) (d : Reg) (s : State) : Host.Outcome State Fault Refusal :=
  issueOn (.clk h d) h s (ifActive fun x dv =>
    let id := dv.nextId
    let dv' := addFlight dv { mkFlight x .clk (x.lanes.map fun L => laneOps L []) [d.toNat] none with after := timeAfter x dv }
    committed x x.act dv <| some (.done (x.lanes.foldl (fun dv L => holdFor dv { Hold.on x.f.uid L [id] .sys with uo := true }) dv')))

/-- Park the active threads until their instants; one whose instant has passed goes on (R321). -/
def sleepBody (instant : Iss → Dev → Nat → Word) : Body := ifActive fun x d =>
  let stay := lanesWhere fun L => x.act.has L && decide (x.s.clk.now.toNat < (instant x d L).toNat)
  some (.done (d.setFibre ((x.fib d).onLanes stay fun L t => { t with wait := .sleep (instant x d L) })))

/-- `sleep.abs` (R321). -/
def execSleepAbs (h : Hdr) (a : Src) (s : State) : Host.Outcome State Fault Refusal :=
  issueOn (.sleepAbs h a) h s (sleepBody fun x d L => srcZ d x.f x.t L a)

/-- `sleep.rel` (R321). -/
def execSleepRel (h : Hdr) (a : Src) (s : State) : Host.Outcome State Fault Refusal :=
  issueOn (.sleepRel h a) h s (sleepBody fun x d L => x.s.clk.now + srcZ d x.f x.t L a)

/-- SLEEP_WAKE (R321): the instant has come. -/
def execSleepWake (fibre lane : Nat) (s : State) : Host.Outcome State Fault Refusal :=
  onDev s fun s => match s.dev.fibre? fibre with
    | none => s.dev
    | some f => match (f.thread lane).wait with
      | .sleep til =>
        if til.toNat ≤ s.clk.now.toNat then
          s.dev.setFibre (f.onLanes (LaneMask.ofLanes [lane]) fun _ t => { t with wait := .none })
        else s.dev
      | _ => s.dev

/-! ### Marks (R323) -/

/-- `mark` (R323): one record of the path, with the lowest active lane's value. -/
def execMark (h : Hdr) (a : Src) (code : BitVec 16) (s : State) : Host.Outcome State Fault Refusal :=
  issueOn (.mark h a code) h s (ifActive fun x d =>
    some (.done (emitTrace d (markRecs x 0 x.act (srcZ d x.f x.t ((lowestLane x.act).getD 0) a) code.toNat))))

/-- `mark.all` (R323): one record for each active lane. -/
def execMarkAll (h : Hdr) (a : Src) (code : BitVec 16) (s : State) : Host.Outcome State Fault Refusal :=
  issueOn (.markAll h a code) h s (ifActive fun x d =>
    some (.done (emitTrace d (x.lanes.flatMap fun L => markRecs x 0 (LaneMask.ofLanes [L]) (srcZ d x.f x.t L a) code.toNat))))

/-! ### The trace writer (R324) -/

/-- A ring with a record in it at its tail. -/
def ringPut (m : List Host.Cell) (r : Ring) (ws : List Word) : List Host.Cell × Ring :=
  (memPut m (r.base + 64 * (r.tail % r.cap)) ((setAt ws 0 (setField (ws.getD 0 0) 32 32 r.tail)).flatMap wordLE),
   { r with tail := (r.tail + 1) % 2 ^ 32 })

/-- Records a ring has room for. -/
def ringFree (r : Ring) : Nat := r.cap - (r.tail + 2 ^ 32 - r.head) % 2 ^ 32

/-- The record of type 5: how many were dropped. -/
def lostRec (now : Word) (n : Nat) : List Word := [5, now, 0, 0, 0, BitVec.ofNat 64 n, 0, 0]

/-- A record that is dropped. -/
def ringDrop (r : Ring) : Ring := { r with lost := min (r.lost + 1) (2 ^ 64 - 1), owed := r.owed + 1 }

/-- WRITE A TRACE RECORD to a ring: after a loss, the count of what was dropped comes first; with no room the record is dropped. -/
def ringWrite (now : Word) (m : List Host.Cell) (r : Ring) (ws : List Word) : List Host.Cell × Ring :=
  if r.cap = 0 ∨ ringFree r = 0 then (m, ringDrop r)
  else if r.owed = 0 then ringPut m r ws
  else
    let p := ringPut m { r with owed := 0 } (lostRec now r.owed)
    if ringFree p.2 = 0 then (p.1, ringDrop p.2) else ringPut p.1 p.2 ws

/-- Write the records waiting, oldest first. -/
def flushRecs (now : Word) : List TraceRec → List Host.Cell → List Ring → List Host.Cell × List Ring
  | [], m, rs => (m, rs)
  | r :: rest, m, rs =>
    let p := ringWrite now m (rs.getD r.quarter default) r.ws
    flushRecs now rest p.1 (setAt rs r.quarter p.2)

/-- The count of what rings have dropped, written to each as soon as it has room again (R324). -/
def returnRings (now : Word) : List Ring → List Host.Cell → List Host.Cell × List Ring
  | [], m => (m, [])
  | r :: rs, m =>
    let p := if r.cap = 0 ∨ ringFree r = 0 ∨ r.owed = 0 then (m, r) else ringPut m { r with owed := 0 } (lostRec now r.owed)
    let q := returnRings now rs p.1
    (q.1, p.2 :: q.2)

/-- Hand the records waiting to the rings. -/
def flushTrace (s : State) : State :=
  if s.dev.trace.isEmpty && s.env.rings.all fun r => r.owed == 0 then s
  else
    let b := returnRings s.clk.now s.env.rings s.dev.mem
    let p := flushRecs s.clk.now s.dev.trace b.1 b.2
    { s with
      dev := { s.dev.memBecomes p.1 with trace := [] }
      env := { s.env with rings := p.2 } }

/-- A time event: TSTAT has changed; the record of type 6 goes to Quarter 0's ring when TRCTL bit 3 is set. -/
def timeEvent (s : State) (tstat : Nat) (off : BitVec 32) : State :=
  let v := BitVec.ofNat 64 (tstat % 4 + 2 ^ 32 * off.toNat)
  let recs : List TraceRec := if s.dev.traceCtl.getLsbD 3 then [⟨0, [6, s.clk.now, 0, 0, 0, v, 0, 0]⟩] else []
  { s with dev := emitTrace s.dev recs, env := { s.env with tstat := tstat, toffset := off } }

/-! ### Stall samples (R327) -/

/-- Why a path does not issue: reason, blamed PC, unit, and whether the waiting instruction is the one issued last. -/
structure Stall where
  reason : Nat
  blamed : Word
  unit : Nat
  last : Bool
  deriving DecidableEq, Repr

/-- The registers of the key groups that some lanes of a `qnins` or `qnwalk` read, by the trees their handles name (R290, R292). -/
def groupReads (d : Dev) (f : Fibre) (act : LaneMask) (a b : Reg) (len : QTree → Nat) : List Nat :=
  regGroup a ((act.lanes.filterMap fun L => (treeOf d f.ctx (regLane d f b.toNat L)).map len).foldl max 0)

/-- The registers that an instruction reads besides those its word names: those an `rxld` computes (R80) and key groups (R290). -/
def namedReads (d : Dev) (f : Fibre) (act : LaneMask) : Instr → List Nat
  | .rxld _ _ idx => rxNamed d f idx act
  | .qnins _ _ _ a b => groupReads d f act a b insertRegs
  | .qnwalk _ _ _ a b => groupReads d f act a b keyRegs
  | _ => []

/-- The PC of the producer that an instruction of the lanes `m` of a path waits for: of a variable-latency result first, with parked threads
(R46, R176), else of a fixed-latency one. -/
def producerPc (d : Dev) (f : Fibre) (m : LaneMask) (cycle guard : Nat) (u : Uses) : Word :=
  let owes := fun (path : LaneMask) (r : Nat) => u.reads.contains r || (meets path m && (u.writes.map Prod.fst).contains r)
  let owesPred := fun (path : LaneMask) (p : Nat) => (guard :: u.pr).contains p || (meets path m && (u.pw.map Prod.fst).contains p)
  let late := (d.flights.filterMap fun g => if g.fib == f.uid && (g.dst.any (owes g.path) || g.pdst.any (owesPred g.path)) then
      some (g.id, g.pc) else none) ++
    (d.builds.filterMap fun b => if b.fib == f.uid && owes b.path b.dst then some (b.id, b.pc) else none) ++
    (d.waiters.filterMap fun w => if w.fib == f.uid && owes w.path w.dst then some (w.id, w.pc) else none)
  match sortBy Prod.fst late with
  | p :: _ => p.2
  | [] => match f.pendW.find? fun p => owes p.path p.reg && decide (cycle < p.land) with
    | some p => p.pc
    | none => ((f.pendP.find? fun p => owesPred p.path p.idx && decide (cycle < p.land)).map PendP.pc).getD 0

/-- The team's earlier instruction on the object an instruction names (R203, R205). -/
def objectPc (d : Dev) (t : Team) (i : Instr) : Word :=
  let tile := fun (ta : Nat) => match t.mmas.find? fun m => m.ta == ta with
    | some m => m.pc
    | none => match d.flights.find? fun g => g.team == t.uid && g.kind == .accld ta with
      | some g => g.pc
      | none => (t.cvs.findSome? fun c => match c with
        | .armed _ _ _ (some r) _ => if r.ta = ta then some r.pc else none
        | _ => none).getD 0
  match i with
  | .mma _ o => tile o.ta.toNat
  | .mmaCv _ cv o => if tileBusy d t o.ta.toNat || tileArmedBut t cv.toNat o.ta.toNat then tile o.ta.toNat else t.cvPcs.getD cv.toNat 0
  | .accld _ o | .accst _ o => tile o.ta.toNat
  | .acczero _ ta => tile ta.toNat
  | .cvsetN _ cv _ | .cvsetF _ cv | .cvsign _ cv => t.cvPcs.getD cv.toNat 0
  | .plrel _ h => match t.mmas.find? fun m => m.handle == h.toNat with
    | some m => m.pc
    | none => match d.cmds.find? fun c => c.team == t.uid && cmdNames c h.toNat with
      | some c => c.pc
      | none => (t.cvs.findSome? fun c => match c with
        | .armed _ _ _ (some r) _ => if r.b.toNat % 8 = h.toNat then some r.pc else none
        | _ => none).getD 0
  | _ => 0

/-- The address operand and length of an access of the team scratchpad. -/
def spAccess : Instr → Option (MAddr × Nat)
  | .ld _ o | .st _ o | .stMc _ o => if o.sp = .sp then some (o.addr, sizeBytes o.t o.size) else none
  | .atomAdd _ o | .atomMin _ o | .atomMax _ o | .atomExch _ o | .atomAnd _ o | .atomOr _ o | .atomXor _ o
  | .redAdd _ o | .redMin _ o | .redMax _ o | .redAnd _ o | .redOr _ o | .redXor _ o =>
    if o.sp = .sp then some (o.addr, (atyN o.t).width / 8) else none
  | .cas _ .sp _ _ t _ a => some (a, (ctyN t).width / 8)
  | .waitaddr _ o | .wake _ o => if o.sp = .sp then some (o.addr, 8) else none
  | .accld _ o | .accst _ o => if o.sp = .sp then some (o.addr, 4096) else none
  | _ => none

/-- The direct command in flight whose range holds back an access (R216). -/
def rangePc (d : Dev) (f : Fibre) (t : Team) (m : LaneMask) (i : Instr) : Option Word :=
  match spAccess i with
  | none => none
  | some (a, n) =>
    let hit := fun (c : Cmd) => m.lanes.any fun L =>
      let va := (addrLane d f a L).toNat
      spBusy { d with cmds := [c] } t va n
    (d.cmds.find? hit).map Cmd.pc

/-- The unit of R14 that is full and holds an instruction of some active lanes at issue: the core's Trowel queue, its build slots, or its Quarter's
walker. The spec gives no other unit of R327 a number of requests, so none of them is ever full. -/
def fullUnit (d : Dev) (f : Fibre) (act : LaneMask) (i : Instr) : Option Nat :=
  match i with
  | .cpy .. | .gth .. | .sct .. => if 16 ≤ (d.cmds.filter fun c => c.core == f.core).length then some 3 else none
  | .qnbld .. => if 16 ≤ (d.builds.filter fun b => b.core == f.core).length then some 4 else none
  | i => if walkerBusy d f act i then some 2 else none

/-- The instruction whose flags an `fflag` waits for (R140). -/
def raiserPc (d : Dev) (f : Fibre) : Instr → Option Word
  | .fflag .. => (d.flights.find? fun g => g.fib == f.uid && g.raises).map Flight.pc
  | _ => none

/-- Whether an instruction names an object of its team whose order R203 keeps. -/
def teamObject : Instr → Bool
  | .mma .. | .mmaCv .. | .accld .. | .accst .. | .acczero .. | .plrel .. | .cvsetN .. | .cvsetF .. | .cvsign .. => true
  | _ => false

/-- The instruction whose result or access another one of the lanes `m` of a path waits for: a write of a window register before an arrival
(R110), a build (R290), what an acquire or a fence of the lanes waits for, or an access of theirs still in flight. -/
def waitedPc (d : Dev) (f : Fibre) (m : LaneMask) : Word :=
  let held := (d.holds.filter fun h => h.fib == f.uid && m.has h.lane).flatMap Hold.ids
  match f.pendW.find? fun p => f.isWindow p.reg && meets p.path m with
  | some p => p.pc
  | none => match d.builds.find? fun b => b.fib == f.uid with
    | some b => b.pc
    | none => match d.flights.find? fun g => held.contains g.id || (g.fib == f.uid && g.acc.any fun a => m.has a.lane) with
      | some g => g.pc
      | none => 0

/-- What a path's next instruction waits for, beyond its threads' own waits. -/
def instrStall (d : Dev) (f : Fibre) (t : Team) (cycle : Nat) (k : Word × Nat) (m : LaneMask) (i : Instr) : Stall :=
  let g := ((hdrOf i).map (guardOf i)).getD 31
  let act := ((hdrOf i).map (activeLanes f ⟨f.uid, m, 0, 0, 0⟩)).getD 0
  let held := blocked d f t m i || walkHeld d f i || d.stuck.contains ⟨f.uid, k.1, k.2⟩
  let named := namedReads d f act i
  if pendingWait d f m cycle g (usesOf i) then ⟨2, producerPc d f m cycle g (usesOf i), 0, false⟩
  else if named.any (regPending d f) then ⟨2, producerPc d f m cycle 31 (uses (named.map fun r => ⟨r, 1, true, none, false⟩)), 0, false⟩
  else match raiserPc d f i, fullUnit d f act i, rangePc d f t m i with
    | some pc, _, _ => ⟨2, pc, 0, false⟩
    | none, some u, _ => ⟨5, 0, u, false⟩
    | none, none, some pc => ⟨8, pc, 0, false⟩
    | none, none, none =>
      if !held then ⟨0, 0, 0, false⟩
      else if teamObject i then ⟨9, objectPc d t i, 0, false⟩
      else ⟨2, waitedPc d f m, 0, false⟩

/-- THE REASON a path gives a sample, the lowest that holds (R327). `issued`: PCs the quadrant issued in the sampled cycle. DESIGN CHOICE (assumption
32): R327 names no reason for an access whose walk waits for a zeroing; the model gives 2, a pending result, with the access's own PC. -/
def stallOf (d : Dev) (f : Fibre) (t : Team) (cycle : Nat) (issued : List Word) (m : LaneMask) (pc : Word) : Stall :=
  let u := f.thread ((lowestLane m).getD 0)
  let next : Stall := match fetchAt d f t pc with
    | .instr i => instrStall d f t cycle (pc, u.depth) m i
    | _ => ⟨0, 0, 0, false⟩
  let more : Stall := match next.reason, f.frozen with
    | 0, some z => ⟨10, z.pc, 0, false⟩
    | _, _ => next
  if issued.contains u.stallPc then ⟨0, 0, 0, false⟩
  else if cycle < u.stallTo then ⟨1, u.stallPc, 0, false⟩
  else if cycle < f.readyAt then ⟨1, 0, 0, false⟩
  else match u.wait with
    | .bar _ | .fbar _ | .fbarHeld _ => ⟨3, u.stallPc, 0, true⟩
    | .addr | .sleep _ => ⟨4, u.stallPc, 0, true⟩
    | .zero _ => ⟨2, pc, 0, false⟩
    | .overlay _ => ⟨6, pc, 0, false⟩
    | .frame => ⟨7, pc, 0, false⟩
    | .none => more

/-- The slot a port served last; a slot pair of 64-lane fibres stands under its first slot (R83, R85). -/
def sampledSlot (d : Dev) (p : Port) : Nat :=
  if d.fibres.any fun f => f.core == p.core && f.quad == p.quad && f.width == 64 && f.slot + 1 == p.last then p.last - 1 else p.last

/-- The records of a quadrant's sample. -/
def sampleRecs (now : Word) (d : Dev) (cycle : Nat) (p : Port) : List TraceRec :=
  let slot := sampledSlot d p
  let pos := ((turnOf d p.core p.quad slot).map Turn.pos).getD 0
  match contextFibres d p.core p.quad slot pos with
  | [] => []
  | f :: _ => match d.team? f.team, fibreKeys f with
    | some t, k :: _ =>
      let m := lanesWhere fun L => decide (L < f.width) && f.liveLane L && (f.thread L).pc == k.1 && (f.thread L).depth == k.2
      let st := stallOf d f t cycle (if cycle ≤ p.busy then p.paths else []) m k.1
      let pc := if st.last then (f.thread ((lowestLane m).getD 0)).stallPc else k.1
      (traceNames t m).map fun (L, m') => traceRec now f t 3 st.reason pc st.blamed L m' 0 st.unit
    | _, _ => []

/-- STALL_SAMPLE (R327). -/
def execStallSample (s : State) : Host.Outcome State Fault Refusal :=
  if s.dev.traceCtl.getLsbD 1 = true ∧ s.env.smpper ≠ 0 ∧ s.env.smpNext.toNat ≤ s.clk.now.toNat then
    .next { s with
      dev := emitTrace s.dev (s.dev.ports.flatMap (sampleRecs s.clk.now s.dev s.clk.cycle))
      env := { s.env with smpNext := s.env.smpNext + BitVec.ofNat 64 s.env.smpper } }
  else .next s

end Sys2Proof.Machine
end

