-- ==== Sys2Proof/Machine/Links.lean ====
section
/-!
DEFINITION. The host aperture and device page (R313 to R315), Ultra Ethernet (R316, R317), Boulevard links (R318), PTP (R319).
-/

namespace Sys2Proof.Machine

/-! ### The device page (R314) -/

/-- A Quarter's ring. -/
def Env.ring (e : Env) (q : Nat) : Ring := e.rings.getD q default

/-- TSTAT. -/
def tstatWord (e : Env) : Word := BitVec.ofNat 64 (e.tstat % 4 + 2 ^ 32 * e.toffset.toNat)

/-- The register at a byte offset of the device page; what it does not list, and what only is written, reads 0. -/
def devReg (s : State) (off : Nat) : Word :=
  let n := BitVec.ofNat 64
  let e := s.env
  if off = 0x000 then s.clk.now
  else if off = 0x008 then tstatWord e
  else if off = 0x018 then e.ptpctl
  else if 0x040 ≤ off ∧ off < 0x0C0 then
    let r := e.ring ((off - 0x040) / 32)
    if off % 32 = 0 then n r.base else if off % 32 = 8 then n r.cap else if off % 32 = 16 then n r.head
    else if off % 32 = 24 then n r.tail else 0
  else if 0x0C0 ≤ off ∧ off < 0x0E0 ∧ off % 8 = 0 then n (e.ring ((off - 0x0C0) / 8)).lost
  else if off = 0x0E0 then s.dev.traceCtl
  else if off = 0x0E8 then n e.smpper
  else if off = 0x0F8 then s.dev.armedId
  else if off = 0x100 then e.dmwbase
  else if off = 0x108 then n e.dmwctx
  else if off = 0x110 then n e.dmwerr
  else 0

/-- A write to a register of a Quarter's ring. -/
def ringReg (r : Ring) (k n : Nat) : Ring :=
  if k = 0 then (if n % 64 = 0 ∧ populated n 64 = true then { r with base := n } else r)
  else if k = 8 then
    (if n = 0 ∨ (64 ≤ n ∧ n ≤ 2 ^ 24 ∧ n = 2 ^ n.log2) then { r with cap := n } else r)
  else if k = 16 then (if n < 2 ^ 32 then { r with head := n } else r)
  else r

/-- Step the time base (R314, R319): once, and not when any context has been created. -/
def stepTime (s : State) (v : Word) : State :=
  if s.dev.created || s.env.stepped then s else { s with clk := { s.clk with now := v }, env := { s.env with stepped := true } }

/-- Arm full branch trace (R326). -/
def armTrace (s : State) (v : Word) : State :=
  if v.getLsbD 63 ∧ field v 14 49 = 0 then
    { s with dev := { s.dev with armed := some (field v 0 6, field v 6 8), armedId := 0 } }
  else s

/-- WRITE A DEVICE-PAGE REGISTER (R314); a value outside its range is ignored. -/
def devWriteReg (s : State) (off : Nat) (v : Word) : State :=
  let n := v.toNat
  let e := s.env
  if off = 0x010 then stepTime s v
  else if off = 0x018 then (if field v 20 44 = 0 ∧ field v 16 2 ≠ 3 then { s with env := { e with ptpctl := v } } else s)
  else if 0x040 ≤ off ∧ off < 0x0C0 then
    let q := (off - 0x040) / 32
    { s with env := { e with rings := setAt e.rings q (ringReg (e.ring q) (off % 32) n) } }
  else if off = 0x0E0 then
    (if n < 16 then
      let s' := { s with dev := { s.dev with traceCtl := v } }
      if v.getLsbD 1 && !s.dev.traceCtl.getLsbD 1 then { s' with env := { e with smpNext := s.clk.now + BitVec.ofNat 64 e.smpper } } else s'
    else s)
  else if off = 0x0E8 then
    (if 1000 ≤ n ∧ n ≤ 1000000000 then { s with env := { e with smpper := n, smpNext := s.clk.now + v } } else s)
  else if off = 0x0F0 then armTrace s v
  else if off = 0x100 then (if n % 65536 = 0 then { s with env := { e with dmwbase := v } } else s)
  else if off = 0x108 then (if n < 64 then { s with env := { e with dmwctx := n } } else s)
  else s

/-- CONTROL_REGISTER_WRITE (R297, R314): the host writes a control block's register, or with no context the device page's, where the access
tables let it (R334). -/
def execControlRegisterWrite (ctx : Option Nat) (off : Nat) (v : Word) (s : State) : Host.Outcome State Fault Refusal :=
  .next (hostRegs s fun s => match ctx with
    | some c => if c < 64 then s.withDev (Dev.regWrite s.clk.now s.dev 0 0 c off v s.dev.hostKnow) else s
    | none => devWriteReg s off v)

/-- TSET (R314): a register of the device page, which the host writes where the access tables let it (R334). -/
def execTset (v : Word) (s : State) : Host.Outcome State Fault Refusal := .next (hostRegs s fun s => stepTime s v)

/-- TRARM (R314, R326): as TSET. -/
def execTrarm (v : Word) (s : State) : Host.Outcome State Fault Refusal := .next (hostRegs s fun s => armTrace s v)

/-! ### Plain accesses from outside (R315, R317) -/

/-- Where the bytes of a write from outside the device land: in every copy of a replicated page (R156). -/
def outsideBytes (pl : List (Place × Nat)) (bs : List Byte) : List (Place × Byte) :=
  (pl.zip bs).flatMap fun pb => match pb.1.1, mcKind pb.1.2 with
    | .phys a, true => (List.range 4).map fun q => (.phys (a + q * 2 ^ 38), pb.2)
    | p, _ => [(p, pb.2)]

/-- The byte places of an access from outside, when every page of it translates. -/
def outsidePlaces (d : Dev) (ctx : Nat) (write : Bool) (va : Word) (n : Nat) : Option (List (Place × Nat)) × Dev :=
  match translateNow ctx ⟨write, false⟩ (n / 65536 + 3) d va n with
  | (.parts ps, d) => (some (ps.flatMap fun p => p.places 0 write), d)
  | (_, d) => (none, d)

/-- The bytes at places, from their homes. -/
def plainRead (d : Dev) (pl : List (Place × Nat)) : List Byte := pl.map fun p => match p.1 with
  | .phys a => memRead d.mem a
  | _ => 0

/-! ### The host aperture (R313, R315) -/

/-- A write through the device memory window; a failed translation writes nothing and is counted. -/
def windowWrite (s : State) (off : Nat) (bs : List Byte) : State :=
  match outsidePlaces s.dev s.env.dmwctx true (s.env.dmwbase + BitVec.ofNat 64 off) bs.length with
  | (some pl, d) => s.withDev (d.hostWrite (outsideBytes pl bs))
  | (none, d) => { s with dev := d, env := { s.env with dmwerr := min (s.env.dmwerr + 1) (2 ^ 64 - 1) } }

/-- An answer to the host, a peer or the management port. -/
def reply (s : State) (r : Reply) : State := { s with env := { s.env with replies := r :: s.env.replies } }

/-- A read through the device memory window. -/
def windowRead (s : State) (off len : Nat) : State :=
  match outsidePlaces s.dev s.env.dmwctx false (s.env.dmwbase + BitVec.ofNat 64 off) len with
  | (some pl, d) => reply (s.withDev (d.hostRead (pl.map Prod.fst))) (.hostRead (some (plainRead d pl)))
  | (none, d) => reply { s with dev := d, env := { s.env with dmwerr := min (s.env.dmwerr + 1) (2 ^ 64 - 1) } } (.hostRead none)

/-- Send what a vector that is no longer masked owes. -/
def sendPending (e : Env) (v : Nat) : Env :=
  if e.msixPending.getLsbD v && !(e.msixTable.getD (2 * v + 1) 0).getLsbD 32 then
    { e with msixPending := e.msixPending &&& ~~~(1#64 <<< v), replies := .msix v :: e.replies }
  else e

/-- An aligned 8-byte write of a register by BAR0 offset. -/
def barReg (s : State) (off : Nat) (v : Word) : State :=
  if off < 0x40000 then
    s.withDev (Dev.regWrite s.clk.now s.dev 0 0 (off / 4096) (off % 4096) v s.dev.hostKnow)
  else if off < 0x41000 then devWriteReg s (off - 0x40000) v
  else if 0x50000 ≤ off ∧ off < 0x50400 then
    let k := (off - 0x50000) / 8
    { s with env := sendPending { s.env with msixTable := setAt s.env.msixTable k v } (k / 2) }
  else s

/-- Aligned 8-byte register writes in order; bytes that fill no aligned 8-byte part are ignored. -/
def barRegs : Nat → Nat → List Byte → State → State
  | 0, _, _, s => s
  | n + 1, off, bs, s => barRegs n (off + 8) (bs.drop 8) (barReg s off (leWord (bs.take 8)))

/-- A write to an append window of BAR0 (R236). -/
def barAppend (s : State) (off : Nat) (bs : List Byte) : State :=
  let c := off / 2 ^ 20
  let q := off / 4096 % 256
  s.withDev (if off % 128 = 0 ∧ bs.length = 128 then outsideAppend s.clk.now s.dev c q s.dev.hostKnow (leWords 16 bs)
    else dropAppend s.clk.now s.dev c q)

/-- HOST_WINDOW_WRITE (R313, R315): a posted write at a BAR0 offset. -/
def execHostWindowWrite (off : Nat) (bytes : List Byte) (s : State) : Host.Outcome State Fault Refusal :=
  if !s.env.linkUp then .next s
  else if 2 ^ 36 ≤ off ∧ off + bytes.length ≤ 2 ^ 37 then
    .next (if s.env.allows .host .memoryWindow true then windowWrite s (off - 2 ^ 36) bytes else { s with env := s.env.denied })
  else if 2 ^ 24 ≤ off ∧ off < 2 ^ 24 + 2 ^ 26 then .next (hostRegs s fun s => barAppend s (off - 2 ^ 24) bytes)
  else if off < 2 ^ 24 then .next (hostRegs s fun s => if off < 0x50400 ∧ off % 8 = 0 then barRegs (bytes.length / 8) off bytes s else s)
  else .next s

/-- A byte of the register regions of BAR0. -/
def barByte (s : State) (off : Nat) : Byte :=
  let r := off / 8 * 8
  let w := if r < 0x40000 then ctxReg s.dev (r / 4096) (r % 4096)
    else if r < 0x41000 then devReg s (r - 0x40000)
    else if 0x50000 ≤ r ∧ r < 0x50400 then s.env.msixTable.getD ((r - 0x50000) / 8) 0
    else if r = 0x51000 then s.env.msixPending
    else 0
  BitVec.ofNat 8 (field w (8 * (off % 8)) 8)

/-- HOST_WINDOW_READ (R313, R315): a read at a BAR0 offset. -/
def execHostWindowRead (off len : Nat) (s : State) : Host.Outcome State Fault Refusal :=
  if !s.env.linkUp then .next s
  else if 2 ^ 36 ≤ off ∧ off + len ≤ 2 ^ 37 then
    .next (if s.env.allows .host .memoryWindow false then windowRead s (off - 2 ^ 36) len
      else reply { s with env := s.env.denied } (.hostRead none))
  else if s.env.allows .host .contextControl false then
    .next (reply (s.withDev (s.dev.hostRead ((List.range len).map fun i => regPlace ((off + i) / 4096) ((off + i) % 4096 / 8 * 8))))
      (.hostRead (some ((List.range len).map fun i => barByte s (off + i)))))
  else .next (reply { s with env := s.env.denied } (.hostRead none))

/-- HOST_LINK_TRAINING (R313): the link trains at a PCIe rate (generation 1 to 7) and width, or, with generation 0, goes down. It is
enabled by boot stage 4 (R331). -/
def execHostLinkTraining (gen lanes : Nat) (s : State) : Host.Outcome State Fault Refusal :=
  if gen = 0 then .next { s with env := { s.env with linkUp := false, linkGen := 0, linkLanes := 0 } }
  else if gen ≤ 7 ∧ [1, 2, 4, 8, 16].contains lanes = true ∧ s.dev.regions = true then
    .next { s with env := { s.env with linkUp := true, linkGen := gen, linkLanes := lanes } }
  else .next s

/-! ### Ultra Ethernet (R316, R317) -/

/-- The registrations at an instant: those the state holds, and those the resident service has made by then, a free value, since the spec
gives its registering no operation (R317; assumption 30). -/
def Env.registrations (e : Env) (now : Word) : List RmaReg := e.rma ++ Config.registered now.toNat

/-- The registration a peer's operation names, when its class, permission and range let it. -/
def rmaOf (e : Env) (now : Word) (cls : Nat) (key : BitVec 32) (off n : Nat) (write : Bool) : Option RmaReg :=
  match (e.registrations now).find? fun r => r.key == key with
  | none => none
  | some r =>
    if cls < 4 ∧ e.allows (.peer cls) .registered write = true ∧ (if write then r.write else r.read) = true ∧ off + n ≤ r.len then some r
    else none

/-- Whether the access tables deny a peer's class (R334). -/
def peerDenied (e : Env) (cls : Nat) (write : Bool) : Env := if e.allows (.peer cls) .registered write then e else e.denied

/-- The bytes of a peer's message perform, and then 1 is added to the 64-bit completion word at its home: an atomic that releases them at `.sys`
(R317). -/
def peerWrite (d : Dev) (ps : List (Place × Byte)) (word : List (Place × Nat)) : Dev :=
  let r := d.writeFrom [] (fun _ => []) ps
  match word with
  | (.phys a, _) :: _ =>
    let j := r.2.join [r.1]
    homeWrite j.2 (Author.outside j.1 (isHost a) [⟨.sys, true, [j.1]⟩]) true (physBytes a (wordLE (memWord r.2.mem a + 1)))
  | _ => r.2

/-- RMA_WRITE (R317): all bytes, then the count, or nothing and an error completion. -/
def execRmaWrite (cls : Nat) (key : BitVec 32) (off : Nat) (bytes : List Byte) (s : State) : Host.Outcome State Fault Refusal :=
  let refuse := .next (reply { s with env := peerDenied s.env cls true } (.peerDone false))
  match rmaOf s.env s.clk.now cls key off bytes.length true with
  | none => refuse
  | some r =>
    match outsidePlaces s.dev r.ctx true (r.base + BitVec.ofNat 64 off) bytes.length with
    | (none, _) => refuse
    | (some pl, d) => match outsidePlaces d r.ctx true r.word 8 with
      | (none, _) => refuse
      | (some wl, d) => .next (reply (s.withDev (peerWrite d (outsideBytes pl bytes) wl)) (.peerDone true))

/-- RMA_READ (R317). -/
def execRmaRead (cls : Nat) (key : BitVec 32) (off len : Nat) (s : State) : Host.Outcome State Fault Refusal :=
  let refuse := .next (reply { s with env := peerDenied s.env cls false } (.peerRead none))
  match rmaOf s.env s.clk.now cls key off len false with
  | none => refuse
  | some r => match outsidePlaces s.dev r.ctx false (r.base + BitVec.ofNat 64 off) len with
    | (none, _) => refuse
    | (some pl, d) => .next (reply (s.withDev d) (.peerRead (some (plainRead d pl))))

/-- SERVICE_SEND (R317): a send becomes an append. Its packets are checked against the access table of the peer's class (R316), which is a free
value (assumption 30). -/
def execServiceSend (ctx queue : Nat) (ws : List Word) (s : State) : Host.Outcome State Fault Refusal :=
  if 64 ≤ ctx ∨ 256 ≤ queue then .next s
  else if s.env.allows (.peer (Config.sendClass s.clk.now.toNat)) .registered true then .next (s.withDev (outsideAppend s.clk.now s.dev ctx queue [] ws))
  else .next (reply { s with env := s.env.denied } (.peerDone false))

/-- PEER_ATOMIC (R316): not accepted. -/
def execPeerAtomic (port : Nat) (s : State) : Host.Outcome State Fault Refusal :=
  if port < 8 then .next (reply s (.peerDone false)) else .next s

/-! ### The Boulevard (R318) -/

/-- FLIT_REPLAY (R318): replayed in order; nothing but latency shows. -/
def execFlitReplay (_link : Nat) (s : State) : Host.Outcome State Fault Refusal := .next s

/-- The Quarters a Boulevard link joins. -/
def linkEnds (k : Nat) : Nat × Nat := [(0, 1), (0, 2), (0, 3), (1, 2), (1, 3), (2, 3)].getD k (0, 0)

/-- Whether a Quarter has lost its three links. -/
def cutOff (up : List Bool) (q : Nat) : Bool :=
  (List.range 6).all fun k => ((linkEnds k).1 != q && (linkEnds k).2 != q) || !(up.getD k true)

/-- Halt every context as command 3 does. -/
def haltAll (now : Word) (d : Dev) : Dev := (List.range 64).foldl (cmdHalt now) d

/-- LINK_FAILURE (R318): traffic goes through a third Quarter; each Quarter that loses its last link is reported, and every context stops. -/
def execLinkFailure (link : Nat) (s : State) : Host.Outcome State Fault Refusal :=
  if 6 ≤ link then .next s
  else
    let up := setAt s.env.boulevard link false
    let lost := (List.range 4).filter fun q => cutOff up q && !cutOff s.env.boulevard q
    let s := { s with env := { s.env with boulevard := up } }
    if lost.isEmpty then .next s
    else .next (lost.foldl (fun s q => reply s (.mgmt 0 [1, q] [])) (s.withDev (haltAll s.clk.now s.dev)))

/-! ### PTP (R319) -/

/-- A signed number saturated to 32 bits. -/
def sat32 (x : Int) : BitVec 32 := BitVec.ofInt 32 (max (-(2 ^ 31 : Nat) : Int) (min x ((2 ^ 31 - 1 : Nat) : Int)))

/-- The rate that takes out an offset, within 100 ppm. -/
def slewRate (off : Int) : Int := max (-100) (min 100 (-off))

/-- PTP_MESSAGE (R319): a message from the grandmaster on a port of PTPCTL disciplines the time base. The first lock steps it, where
no context has been created and nothing has stepped it before; otherwise it only slews. -/
def execPtpMessage (port master : Nat) (s : State) : Host.Outcome State Fault Refusal :=
  if 8 ≤ port ∨ s.env.ptpctl.getLsbD port = false then .next s
  else
    let off : Int := (s.clk.now.toNat : Int) - (master : Int)
    match s.env.tstat with
    | 1 =>
      if s.env.locked = false ∧ s.dev.created = false ∧ s.env.stepped = false then
        .next (timeEvent { s with
          clk := { s.clk with now := BitVec.ofNat 64 master, rate := 0 }
          env := { s.env with locked := true, stepped := true } } 2 0)
      else
        .next (timeEvent { s with clk := { s.clk with rate := slewRate off }, env := { s.env with locked := true } } 2 (sat32 off))
    | 2 => .next { s with clk := { s.clk with rate := slewRate off }, env := { s.env with toffset := sat32 off } }
    | _ => .next (timeEvent s 1 (sat32 off))

/-- HOLDOVER (R319): every master is lost; the time base goes on at its last rate. -/
def execHoldover (s : State) : Host.Outcome State Fault Refusal :=
  if s.env.tstat = 1 ∨ s.env.tstat = 2 then .next (timeEvent s 3 s.env.toffset) else .next s

end Sys2Proof.Machine
end

