-- ==== Sys2Proof/Machine/Package.lean ====
section
/-!
DEFINITION. Power, clock and gating (R328 to R330), boot and firmware (R331, R332), the management port (R333), access tables (R334), soft
errors (R335).
-/

namespace Sys2Proof.Machine

/-! ### Power (R328 to R330) -/

/-- POWER_CAP_SET (R328): 1,500 to 3,000 W in steps of 50 W. -/
def execPowerCapSet (watts : Nat) (s : State) : Host.Outcome State Fault Refusal :=
  if 1500 ≤ watts ∧ watts ≤ 3000 ∧ watts % 50 = 0 then .next { s with env := { s.env with cap := watts } } else .next s

/-- The clocks with another arithmetic clock: the time base stands where it stood (R16). -/
def setClock (c : Clk) (mhz : Nat) : Clk := { c with mhz := mhz, frac := c.frac * mhz / c.mhz }

/-- CLOCK_STEP (R329): 100 MHz down to 800 MHz, or up to the nominal clock of R16. -/
def execClockStep (up : Bool) (s : State) : Host.Outcome State Fault Refusal :=
  if up = true ∧ s.clk.mhz + 100 ≤ 1700 then .next { s with clk := setClock s.clk (s.clk.mhz + 100) }
  else if up = false ∧ 900 ≤ s.clk.mhz then .next { s with clk := setClock s.clk (s.clk.mhz - 100) }
  else .next s

/-- Compute dies lose their power once every halt has ended (R329). -/
def powerDown (s : State) : State :=
  if s.env.hot.isEmpty || (s.dev.ctxs.any fun x => x.state == .preempted) then s
  else s.withDev { s.dev with powered := false }

/-- DIE_SHUTDOWN (R329): a die has reached 115 °C. -/
def execDieShutdown (die : Nat) (s : State) : Host.Outcome State Fault Refusal :=
  let s := { s with dev := haltAll s.clk.now s.dev, env := { s.env with hot := die :: s.env.hot } }
  .next (powerDown (reply s (.mgmt 0 [2, die] [])))

/-- A fibre that keeps no compute unit awake: frozen, or every live thread asleep, parked or at a barrier (R330). -/
def fibreIdle (f : Fibre) : Bool := f.frozen.isSome || everyLive f fun t => t.wait.long

/-- Whether every fibre of a core is idle. -/
def coreIdle (d : Dev) (core : Nat) : Bool := (d.fibres.filter fun f => f.core == core).all fibreIdle

/-- Keep, for every core that holds fibres and is idle, the instant since which it has been (R330). -/
def trackIdle (now : Word) (d : Dev) : Dev :=
  let cores := (dedupNat (d.fibres.map Fibre.core)).filter (coreIdle d)
  { d with idleSince := cores.map fun c => (c, ((d.idleSince.find? fun p => p.1 == c).map Prod.snd).getD now) }

/-- POWER_GATE (R330): a core idle for 20 µs is gated. -/
def execPowerGate (core : Nat) (s : State) : Host.Outcome State Fault Refusal :=
  onDev s fun s =>
    let long := match s.dev.idleSince.find? fun p => p.1 == core with
      | some p => decide (p.2.toNat + 20000 ≤ s.clk.now.toNat)
      | none => !(s.dev.fibres.any fun f => f.core == core)
    if core < 392 ∧ long = true ∧ coreIdle s.dev core = true ∧ s.dev.gated.contains core = false then
      { s.dev with gated := core :: s.dev.gated }
    else s.dev

/-- Wake a gated core that has a ready fibre. -/
def wakeCore (cycle : Nat) (d : Dev) (core : Nat) : Dev :=
  if d.fibres.any fun f => f.core == core && fibreReady d cycle f then { d with gated := d.gated.filter (· != core) } else d

/-- GATED_CORE_WAKE (R330). -/
def execGatedCoreWake (core : Nat) (s : State) : Host.Outcome State Fault Refusal :=
  onDev s fun s => if s.dev.gated.contains core then wakeCore s.clk.cycle s.dev core else s.dev

/-! ### Firmware images and boot (R331, R332) -/

/-- Bytes of an image, zeros past its end. -/
def imgBytes (img : Image) (off n : Nat) : List Byte := (List.range n).map fun i => img.getD (off + i) 0

/-- A little-endian number of an image. -/
def imgNum (img : Image) (off n : Nat) : Nat := leNat (imgBytes img off n)

/-- The fused security counter as it stands: what the fuses held, or what a boot has advanced it to (R332). -/
def Env.fuses (e : Env) : Nat := max Config.fusedCounter e.counter

/-- VERIFY AN IMAGE of a kind (R332). -/
def imageOk (e : Env) (kind : Nat) (img : Image) : Bool :=
  let len := imgNum img 16 8
  let body := (img.drop 4096).take len
  let key := imgBytes img 56 1312
  decide (4096 ≤ img.length) && imgNum img 0 4 == 0x57465847 && imgNum img 4 4 == kind && decide (1 ≤ len) &&
  decide (len ≤ 67108864) && decide (img.length = 4096 + len) && (imgBytes img 3788 308).all (· == 0) &&
  decide (e.fuses ≤ imgNum img 8 8) && Config.sha3_256 body == imgBytes img 24 32 &&
  Config.sha3_256 key == Config.fusedKeyDigest && Config.mlDsaVerify key (imgBytes img 0 56) (imgBytes img 1368 2420)

/-- A boot stage that failed: the device stays where it is and the code goes to the management port (R331). -/
def bootFail (s : State) (code : Nat) : State :=
  reply { s with env := { s.env with boot := { s.env.boot with code := code } } } (.mgmt 0 [0, code] [])

/-- Whether boot has come to a stage and not failed. -/
def Env.bootAt (e : Env) (stage : Nat) : Bool := e.boot.stage == stage && e.boot.code == 0

/-- Images without those of a kind. -/
def dropKind (kind : Nat) (ms : List Image) : List Image := ms.filter fun m => imgNum m 4 4 != kind

/-- The image of a kind that a boot uses: the one a firmware update stored before the boot began, or the one given (R333). -/
def Env.image (e : Env) (kind : Nat) (img : Image) : Image := (e.stored.find? fun m => imgNum m 4 4 == kind).getD img

/-- The compute device as a boot finds it: nothing runs. What memory holds stays, what has been retired stays so, and dies without power stay
without it (R329, R335). -/
def Dev.restarted (d : Dev) : Dev :=
  { Dev.initial with mem := d.mem, retiredCores := d.retiredCores, retiredWays := d.retiredWays, powered := d.powered }

/-- The device page, the MSI-X structures and the time discipline as they stand at boot (R313, R314, R319). -/
def Env.pageReset (e : Env) : Env :=
  { e with
    tstat := 0
    toffset := 0
    ptpctl := 0
    rings := Env.initial.rings
    smpper := 0
    smpNext := 0
    dmwbase := 0
    dmwctx := 0
    dmwerr := 0
    msixTable := Env.initial.msixTable
    msixPending := 0
    rma := []
    locked := false
    stepped := false }

/-- A boot begins: the host link is down, the images stored by now are those that it uses (R331, R333), the registers of the device page hold
their reset values, and the time base starts at 0 in free-run, which the first lock or TSET may step once more (R314, R319). -/
def bootBegin (s : State) : State :=
  { s with
    dev := s.dev.restarted
    clk := { s.clk with now := 0, frac := 0, rate := 0 }
    env := { s.env.pageReset with
      boot := ⟨0, 0⟩
      service := none
      linkUp := false
      linkGen := 0
      linkLanes := 0
      stored := s.env.staged.foldl (fun ms m => m :: dropKind (imgNum m 4 4) ms) s.env.stored
      staged := [] } }

/-- Whether a boot may begin: the first, the next after one that failed, and the next after an update has been stored (R333; assumption 64). -/
def Env.mayBoot (e : Env) : Bool := e.boot.stage == 0 || e.boot.code != 0 || (e.boot.stage == 4 && !e.staged.isEmpty)

/-- BOOT_ROM_CHECK (R331, R332): stage 1 of a boot. -/
def execBootRomCheck (monitor : Image) (s : State) : Host.Outcome State Fault Refusal :=
  if !s.env.mayBoot then .next s
  else
    let s := bootBegin s
    let img := s.env.image 1 monitor
    if imageOk s.env 1 img then
      .next { s with env := { s.env with boot := ⟨1, 0⟩, monitor := some img, counter := max s.env.counter (imgNum img 8 8) } }
    else .next (bootFail s 1)

/-- The default access tables (R334). -/
def defaultAccess : List Access :=
  [⟨.host, .contextControl, true, true⟩, ⟨.host, .memoryWindow, true, true⟩] ++
  ((List.range 4).map fun k => ⟨.peer k, .registered, true, true⟩) ++
  [⟨.mgmt, .contextControl, true, false⟩, ⟨.control, .contextControl, true, true⟩, ⟨.control, .hbm, true, true⟩,
   ⟨.security, .contextControl, true, true⟩, ⟨.security, .memoryWindow, true, true⟩, ⟨.security, .hbm, true, true⟩,
   ⟨.security, .securityMemory, true, true⟩]

/-- MONITOR_INIT (R331): stage 2; every SRAM is cleared and the default access tables are written. -/
def execMonitorInit (trained : Bool) (s : State) : Host.Outcome State Fault Refusal :=
  if !s.env.bootAt 1 then .next s
  else if trained then
    .next { s with
      dev := s.dev.restarted
      env := { s.env with boot := ⟨2, 0⟩, access := defaultAccess } }
  else .next (bootFail s 2)

/-- Cores that are not retired (R15). -/
def enabledCores (d : Dev) : Nat := 384 - (d.retiredCores.filter (· < 384)).length

/-- Report the number of enabled cores to the resident service, once it is loaded (R15). -/
def tellService (s : State) : State := if s.env.service.isSome then reply s (.service (enabledCores s.dev)) else s

/-- SERVICE_LOAD (R331): stage 3. -/
def execServiceLoad (service : Image) (s : State) : Host.Outcome State Fault Refusal :=
  let img := s.env.image 2 service
  if !s.env.bootAt 2 then .next s
  else if imageOk s.env 2 img then
    .next (tellService { s with env := { s.env with boot := ⟨3, 0⟩, service := some img } })
  else .next (bootFail s 3)

/-- REGION_RESERVE (R331): stage 4; context numbers then accept command 1. Whether the service finds the room is a free value
(assumption 64). -/
def execRegionReserve (s : State) : Host.Outcome State Fault Refusal :=
  if !s.env.bootAt 3 then .next s
  else if Config.reserves s.clk.now.toNat then .next { s with dev := { s.dev with regions := true }, env := { s.env with boot := ⟨4, 0⟩ } }
  else .next (bootFail s 4)

/-! ### The management port (R333) -/

/-- PLDM_DISCOVERY (R333): the PLDM types the port carries. -/
def execPldmDiscovery (s : State) : Host.Outcome State Fault Refusal := .next (reply s (.mgmt 1 [0, 2, 5] []))

/-- The window: 24 hours in ns. -/
def dayNs : Nat := 86400000000000

/-- Whether an error has left the window. -/
def aged (now : Word) (e : SoftError) : Bool := decide (e.time.toNat + dayNs ≤ now.toNat)

/-- Corrected errors of a kind in the window. -/
def errorCount (e : Env) (now : Word) (kind : Nat) : Nat := (e.softErrors.filter fun r => r.kind == kind && !aged now r).length

/-- PLDM_SENSORS (R333, R334): module power, die and coolant temperatures, clock, enabled cores, corrected errors, retirements, denials. -/
def execPldmSensors (s : State) : Host.Outcome State Fault Refusal :=
  let e := s.env
  .next (reply s (.mgmt 2 [Config.sensor 0, Config.sensor 1, Config.sensor 2, s.clk.mhz, enabledCores s.dev,
    errorCount e s.clk.now 0, errorCount e s.clk.now 1, errorCount e s.clk.now 2, e.retired.length, e.denials] []))

/-- FIRMWARE_UPDATE (R332, R333): the monitor stores an image that passes, one of each kind; it takes effect at the next boot. -/
def execFirmwareUpdate (img : Image) (s : State) : Host.Outcome State Fault Refusal :=
  if s.env.boot.stage = 0 then .next s
  else if imageOk s.env 1 img || imageOk s.env 2 img then
    .next (reply { s with env := { s.env with staged := img :: dropKind (imgNum img 4 4) s.env.staged } } (.mgmt 5 [1] []))
  else .next (reply s (.mgmt 5 [0] []))

/-- The access tables as bytes: one for each master and target. -/
def accessBytes (e : Env) : List Byte :=
  let ms := [Master.host] ++ (List.range 4).map Master.peer ++ [.mgmt, .control, .security]
  ms.flatMap fun m => [Target.contextControl, .memoryWindow, .hbm, .registered, .securityMemory].map fun t =>
    (if e.allows m t false then 1 else 0) + (if e.allows m t true then 2 else 0)

/-- The measurements of R333. -/
def measurements (e : Env) : List Byte :=
  Config.sha3_256 (e.monitor.getD []) ++ Config.sha3_256 (e.service.getD []) ++ Config.sha3_256 (accessBytes e)

/-- ATTESTATION (R333): the measurements, signed with the requester's 32-byte nonce. -/
def execAttestation (nonce : List Byte) (s : State) : Host.Outcome State Fault Refusal :=
  if s.env.boot.stage = 0 ∨ nonce.length ≠ 32 then .next s
  else
    let m := measurements s.env
    .next (reply s (.mgmt 6 [] (m ++ Config.mlDsaSign (m ++ nonce))))

/-! ### Access tables (R334) -/

/-- A master by number. -/
def masterOf (n : Nat) : Option Master :=
  if n = 0 then some .host else if n ≤ 4 then some (.peer (n - 1)) else if n = 5 then some .mgmt else if n = 6 then some .control
  else if n = 7 then some .security else none

/-- A target by number. -/
def targetOf (n : Nat) : Option Target :=
  [Target.contextControl, .memoryWindow, .hbm, .registered, .securityMemory][n]?

/-- ACCESS_TABLE_CHANGE (R334): the service's request; its own row and the security core's do not change. -/
def execAccessTableChange (master target : Nat) (r w : Bool) (s : State) : Host.Outcome State Fault Refusal :=
  match masterOf master, targetOf target with
  | some m, some t =>
    if s.env.boot.stage < 3 ∨ m = .control ∨ m = .security then .next s
    else .next { s with env := { s.env with
      access := ⟨m, t, r, w⟩ :: s.env.access.filter fun a => !(a.master == m && a.target == t) } }
  | _, _ => .next s

/-! ### Soft errors (R335) -/

/-- Corrections that retire a unit when exceeded: core, HBM row, SRAM way. -/
def errorLimit (kind : Nat) : Nat := [64, 8, 32].getD kind 0

/-- Tasks on a retired core are retried elsewhere while they may be (R247, R335). -/
def retryCore (now : Word) (d : Dev) (core : Nat) : Dev :=
  (d.fibres.filter fun f => f.core == core).foldl (fun d f =>
    let m := retryLanes f f.live
    if m = 0 then d else retryTasks now d f m) d

/-- RETIRE A UNIT: no further placement on a core, whose number the service learns (R15); a way's capacity is lost; a row shows only in
latency (R335). -/
def retireUnit (s : State) (kind unit : Nat) : State :=
  if s.env.retired.contains (kind, unit) then s
  else
    let d := match kind with
      | 0 => retryCore s.clk.now { s.dev with retiredCores := unit :: s.dev.retiredCores } unit
      | 2 => { s.dev with retiredWays := unit :: s.dev.retiredWays }
      | _ => s.dev
    let s := { s with dev := d, env := { s.env with retired := (kind, unit) :: s.env.retired } }
    if kind = 0 then tellService s else s

/-- SOFT_ERROR_CORRECTED (R335). -/
def execSoftErrorCorrected (kind unit : Nat) (s : State) : Host.Outcome State Fault Refusal :=
  if 3 ≤ kind then .next s
  else
    let errs := ⟨kind, unit, s.clk.now⟩ :: s.env.softErrors.filter fun e => !aged s.clk.now e
    let s := { s with env := { s.env with softErrors := errs } }
    if errorLimit kind < (errs.filter fun e => e.kind == kind && e.unit == unit).length then .next (retireUnit s kind unit) else .next s

/-- ERROR_WINDOW_AGE (R335): errors older than 24 hours leave their unit's count. -/
def execErrorWindowAge (kind unit : Nat) (s : State) : Host.Outcome State Fault Refusal :=
  .next { s with env := { s.env with
    softErrors := s.env.softErrors.filter fun e => !(e.kind == kind && e.unit == unit && aged s.clk.now e) } }

/-- UNCORRECTABLE_ERROR (R335): the contexts whose data it touched halt as by command 3; the unit is retired and reported. -/
def execUncorrectableError (kind unit : Nat) (ctxs : List Nat) (s : State) : Host.Outcome State Fault Refusal :=
  if 3 ≤ kind then .next s
  else
    let s := s.withDev ((ctxs.filter (· < 64)).foldl (cmdHalt s.clk.now) s.dev)
    .next (reply (retireUnit s kind unit) (.mgmt 0 [3, kind, unit] []))

end Sys2Proof.Machine
end

