-- ==== Sys2Proof/Machine/Pair.lean ====
section
/-!
DEFINITION. The pair format (R57 to R60).
-/

namespace Sys2Proof.Machine

/-- A half's source as an operand: patterns 1 to 3 are `.rot(1)`, `.bc(1)`, `.bf(1)` (R57). -/
def halfSrc (r : Reg) (p : BitVec 2) : RegOp :=
  { idx := r, pat := match p.toNat with
      | 0 => .none
      | 1 => .rot 1
      | 2 => .bc 1
      | _ => .bf 1, neg := false, abs := false }

/-- The unsigned integer type of a half (R58). -/
def halfInt (t : BitVec 2) : ITy :=
  match t.toNat with
  | 0 => .n8
  | 1 => .n16
  | 2 => .n32
  | _ => .n64

/-- The float type of a half (R58). -/
def halfFlt (t : BitVec 2) : FTy :=
  match t.toNat with
  | 0 => .f16
  | 1 => .bf16
  | 2 => .f32
  | _ => .f64

/-- An integer half: shape and lane results, as the standard instruction of its name and type (R58). -/
def intHalf (x : Iss) (dv : Dev) (h : Half) (t : ITy) (sh : Iss → Dev → Sh) (g : Nat → Nat → Nat × Word) : Sh × (Nat → Word × Word) :=
  (sh x dv, fun L => subs3 t.width (fun a b _ => g a b) (srcReg dv (x.fib dv) (halfSrc h.s1 h.p1) (.int t) L)
    (srcReg dv (x.fib dv) (halfSrc h.s2 h.p2) (.int t) L) 0)

/-- A float half. -/
def fltHalf (x : Iss) (dv : Dev) (h : Half) (t : FTy) (rd : Bool) (g : Nat → Nat → Nat → Nat × Word) : Sh × (Nat → Word × Word) :=
  (fltShape t rd h.d (.reg (halfSrc h.s1 h.p1)) (.reg (halfSrc h.s2 h.p2)) x dv,
    fun L => subs3 t.width g (srcReg dv (x.fib dv) (halfSrc h.s1 h.p1) (.flt t) L)
      (srcReg dv (x.fib dv) (halfSrc h.s2 h.p2) (.flt t) L) (regLane dv (x.fib dv) h.d.toNat L))

/-- What a half computes: none for `hnop`. -/
def halfRes (x : Iss) (dv : Dev) (h : Half) (tc : BitVec 2) (rnd : Rnd) (ftz : Bool) : Option (Sh × (Nat → Word × Word)) :=
  let t := halfInt tc
  let s := sintOf t.width
  let f := halfFlt tc
  let a : Src := .reg (halfSrc h.s1 h.p1)
  let b : Src := .reg (halfSrc h.s2 h.p2)
  let plain := intShape t false h.d a b
  match h.op with
  | .hnop => none
  | .iadd => some (intHalf x dv h t (affShape t false h.d a b affAdd affPlus) fun u v => ((u + v) % 2 ^ t.width, 0))
  | .isub => some (intHalf x dv h t (affShape t false h.d a b affAdd affMinus) fun u v => (truncW t.width ((u : Int) - v), 0))
  | .imul => some (intHalf x dv h t (affShape t false h.d a b affMul affTimes) fun u v => (u * v % 2 ^ t.width, 0))
  | .imins => some (intHalf x dv h s plain fun u v => (truncW s.width (min (intVal s u) (intVal s v)), 0))
  | .iminu => some (intHalf x dv h t plain fun u v => (min u v, 0))
  | .imaxs => some (intHalf x dv h s plain fun u v => (truncW s.width (max (intVal s u) (intVal s v)), 0))
  | .imaxu => some (intHalf x dv h t plain fun u v => (max u v, 0))
  | .and => some (intHalf x dv h t plain fun u v => (u &&& v, 0))
  | .or => some (intHalf x dv h t plain fun u v => (u ||| v, 0))
  | .xor => some (intHalf x dv h t plain fun u v => (Nat.xor u v, 0))
  | .shl => some (intHalf x dv h t (affShape t false h.d a b affShl affShift) fun u v => (shlSub t.width u v, 0))
  | .shr => some (intHalf x dv h t plain fun u v => (shrSub t.width u v, 0))
  | .sar => some (intHalf x dv h t plain fun u v => (sarSub t.width u v, 0))
  | .mov => some (intHalf x dv h t (fun x dv => srcShape dv (x.fib dv) (.int t) a) fun u _ => (u, 0))
  | .not => some (intHalf x dv h t (intShape1 t a) fun u _ => (2 ^ t.width - 1 - u, 0))
  | .fadd => some (fltHalf x dv h f false fun u v _ => faddR f rnd ftz u v)
  | .fsub => some (fltHalf x dv h f false fun u v _ => fsubR f rnd ftz u v)
  | .fmul => some (fltHalf x dv h f false fun u v _ => fmulR f rnd ftz u v)
  | .ffma => some (fltHalf x dv h f true fun u v d => fmaR f f rnd ftz [(u, v)] d)
  | .fmin => some (fltHalf x dv h f false fun u v _ => fminmaxR f false ftz u v)
  | .fmax => some (fltHalf x dv h f false fun u v _ => fminmaxR f true ftz u v)

/-- Write a half's result with the latency of its class. -/
def putHalf (x : Iss) (f : Fibre) (h : Half) : Option (Sh × (Nat → Word × Word)) → Fibre
  | none => f
  | some r =>
    raise (pushW x f h.d.toNat (halfLat h) (outReg x r.1 fun L => (r.2 L).1)) (laneFlags x fun L => (r.2 L).2)

/-- Both halves read all of their operands before either writes (R60). -/
def execPair (h : Hdr) (o : PairOp) (s : State) : Host.Outcome State Fault Refusal :=
  issueOn (.pair h o) h s fun x dv =>
    let r0 := halfRes x dv o.h0 o.t0 o.rnd o.ftz
    let r1 := halfRes x dv o.h1 o.t1 o.rnd o.ftz
    some (.done (dv.setFibre (putHalf x (putHalf x (x.fib dv) o.h0 r0) o.h1 r1)))

end Sys2Proof.Machine
end

