-- ==== Sys2Proof/Machine/Dispatch.lean ====
section
/-!
DEFINITION. One arm per constructor of `Instr`: each calls the meaning of that instruction or event.
-/

namespace Sys2Proof.Machine

/-- The effect of an instruction issued by the current issuer, or of an event. -/
def exec (i : Instr) (s : State) : Host.Outcome State Fault Refusal :=
  match i with
  | .nop h => Sys2Proof.Machine.execNop h s
  | .bra h off => Sys2Proof.Machine.execBra h off s
  | .brx h t => Sys2Proof.Machine.execBrx h t s
  | .call h off => Sys2Proof.Machine.execCall h off s
  | .callx h t => Sys2Proof.Machine.execCallx h t s
  | .ret h => Sys2Proof.Machine.execRet h s
  | .exit h => Sys2Proof.Machine.execExit h s
  | .yield h => Sys2Proof.Machine.execYield h s
  | .voteAny h d p => Sys2Proof.Machine.execVoteAny h d p s
  | .voteAll h d p => Sys2Proof.Machine.execVoteAll h d p s
  | .voteMask h d p => Sys2Proof.Machine.execVoteMask h d p s
  | .matchAny h d a => Sys2Proof.Machine.execMatchAny h d a s
  | .matchAll h d a => Sys2Proof.Machine.execMatchAll h d a s
  | .iadd h o => Sys2Proof.Machine.execIadd h o s
  | .isub h o => Sys2Proof.Machine.execIsub h o s
  | .iaddc h o => Sys2Proof.Machine.execIaddc h o s
  | .imul h o => Sys2Proof.Machine.execImul h o s
  | .imulh h o => Sys2Proof.Machine.execImulh h o s
  | .imad h o => Sys2Proof.Machine.execImad h o s
  | .idiv h o => Sys2Proof.Machine.execIdiv h o s
  | .irem h o => Sys2Proof.Machine.execIrem h o s
  | .ineg h o => Sys2Proof.Machine.execIneg h o s
  | .iabs h o => Sys2Proof.Machine.execIabs h o s
  | .imin h o => Sys2Proof.Machine.execImin h o s
  | .imax h o => Sys2Proof.Machine.execImax h o s
  | .icmp h t c d a b => Sys2Proof.Machine.execIcmp h t c d a b s
  | .isel h p o => Sys2Proof.Machine.execIsel h p o s
  | .and h o => Sys2Proof.Machine.execAnd h o s
  | .or h o => Sys2Proof.Machine.execOr h o s
  | .xor h o => Sys2Proof.Machine.execXor h o s
  | .not h o => Sys2Proof.Machine.execNot h o s
  | .bmix h tt o => Sys2Proof.Machine.execBmix h tt o s
  | .shl h o => Sys2Proof.Machine.execShl h o s
  | .shr h o => Sys2Proof.Machine.execShr h o s
  | .sar h o => Sys2Proof.Machine.execSar h o s
  | .rot h o => Sys2Proof.Machine.execRot h o s
  | .bfe h o => Sys2Proof.Machine.execBfe h o s
  | .bfi h o => Sys2Proof.Machine.execBfi h o s
  | .popc h o => Sys2Proof.Machine.execPopc h o s
  | .clz h o => Sys2Proof.Machine.execClz h o s
  | .ctz h o => Sys2Proof.Machine.execCtz h o s
  | .brev h o => Sys2Proof.Machine.execBrev h o s
  | .lea h o => Sys2Proof.Machine.execLea h o s
  | .mov h o => Sys2Proof.Machine.execMov h o s
  | .movi h t d v => Sys2Proof.Machine.execMovi h t d v s
  | .movhM h d a v => Sys2Proof.Machine.execMovhM h d a v s
  | .movhH h d a v => Sys2Proof.Machine.execMovhH h d a v s
  | .plop h tt d a b => Sys2Proof.Machine.execPlop h tt d a b s
  | .p2v h d a => Sys2Proof.Machine.execP2v h d a s
  | .p2vAll h d => Sys2Proof.Machine.execP2vAll h d s
  | .v2p h d a => Sys2Proof.Machine.execV2p h d a s
  | .v2pAll h a => Sys2Proof.Machine.execV2pAll h a s
  | .pack h o => Sys2Proof.Machine.execPack h o s
  | .unpkLo h o => Sys2Proof.Machine.execUnpkLo h o s
  | .unpkHi h o => Sys2Proof.Machine.execUnpkHi h o s
  | .pair h o => Sys2Proof.Machine.execPair h o s
  | .fadd h o => Sys2Proof.Machine.execFadd h o s
  | .fsub h o => Sys2Proof.Machine.execFsub h o s
  | .fmul h o => Sys2Proof.Machine.execFmul h o s
  | .ffma h o => Sys2Proof.Machine.execFfma h o s
  | .fmin h o => Sys2Proof.Machine.execFmin h o s
  | .fmax h o => Sys2Proof.Machine.execFmax h o s
  | .fcmp h t ftz c d a b => Sys2Proof.Machine.execFcmp h t ftz c d a b s
  | .fdiv h o => Sys2Proof.Machine.execFdiv h o s
  | .fsqrt h o => Sys2Proof.Machine.execFsqrt h o s
  | .frcp h o => Sys2Proof.Machine.execFrcp h o s
  | .frsq h o => Sys2Proof.Machine.execFrsq h o s
  | .fexp2 h o => Sys2Proof.Machine.execFexp2 h o s
  | .flog2 h o => Sys2Proof.Machine.execFlog2 h o s
  | .fsin h o => Sys2Proof.Machine.execFsin h o s
  | .fcos h o => Sys2Proof.Machine.execFcos h o s
  | .fclass h t d a => Sys2Proof.Machine.execFclass h t d a s
  | .fcvt h src hi o => Sys2Proof.Machine.execFcvt h src hi o s
  | .f2i h t src hi rnd ftz d a => Sys2Proof.Machine.execF2i h t src hi rnd ftz d a s
  | .i2f h t src hi rnd ftz d a => Sys2Proof.Machine.execI2f h t src hi rnd ftz d a s
  | .frnd h o => Sys2Proof.Machine.execFrnd h o s
  | .frndX h o => Sys2Proof.Machine.execFrndX h o s
  | .fscale h t rnd ftz d a b => Sys2Proof.Machine.execFscale h t rnd ftz d a b s
  | .fdot2 h bf rnd ftz d a b => Sys2Proof.Machine.execFdot2 h bf rnd ftz d a b s
  | .fflag h d mask => Sys2Proof.Machine.execFflag h d mask s
  | .lpull h t d a b => Sys2Proof.Machine.execLpull h t d a b s
  | .lpush h t d a b => Sys2Proof.Machine.execLpush h t d a b s
  | .lred h op t rnd ftz sat d a => Sys2Proof.Machine.execLred h op t rnd ftz sat d a s
  | .lscan h op ex t rnd ftz sat d a => Sys2Proof.Machine.execLscan h op ex t rnd ftz sat d a s
  | .rnd h d a b => Sys2Proof.Machine.execRnd h d a b s
  | .rndF32 h d a b => Sys2Proof.Machine.execRndF32 h d a b s
  | .rndF64 h d a b => Sys2Proof.Machine.execRndF64 h d a b s
  | .qnt h t rnd ftz d a => Sys2Proof.Machine.execQnt h t rnd ftz d a s
  | .dqnt h src rnd ftz d a => Sys2Proof.Machine.execDqnt h src rnd ftz d a s
  | .ld h o => Sys2Proof.Machine.execLd h o s
  | .st h o => Sys2Proof.Machine.execSt h o s
  | .stMc h o => Sys2Proof.Machine.execStMc h o s
  | .atomAdd h o => Sys2Proof.Machine.execAtomAdd h o s
  | .atomMin h o => Sys2Proof.Machine.execAtomMin h o s
  | .atomMax h o => Sys2Proof.Machine.execAtomMax h o s
  | .atomExch h o => Sys2Proof.Machine.execAtomExch h o s
  | .atomAnd h o => Sys2Proof.Machine.execAtomAnd h o s
  | .atomOr h o => Sys2Proof.Machine.execAtomOr h o s
  | .atomXor h o => Sys2Proof.Machine.execAtomXor h o s
  | .cas h spc ord sc t d addr => Sys2Proof.Machine.execCas h spc ord sc t d addr s
  | .redAdd h o => Sys2Proof.Machine.execRedAdd h o s
  | .redMin h o => Sys2Proof.Machine.execRedMin h o s
  | .redMax h o => Sys2Proof.Machine.execRedMax h o s
  | .redAnd h o => Sys2Proof.Machine.execRedAnd h o s
  | .redOr h o => Sys2Proof.Machine.execRedOr h o s
  | .redXor h o => Sys2Proof.Machine.execRedXor h o s
  | .fenceAcq h sc => Sys2Proof.Machine.execFenceAcq h sc s
  | .fenceRel h sc => Sys2Proof.Machine.execFenceRel h sc s
  | .fenceSc h sc => Sys2Proof.Machine.execFenceSc h sc s
  | .fenceUo h sc => Sys2Proof.Machine.execFenceUo h sc s
  | .waitaddr h o => Sys2Proof.Machine.execWaitaddr h o s
  | .wake h o => Sys2Proof.Machine.execWake h o s
  | .pfL1 h addr => Sys2Proof.Machine.execPfL1 h addr s
  | .pfL2 h addr => Sys2Proof.Machine.execPfL2 h addr s
  | .sopenR h n a => Sys2Proof.Machine.execSopenR h n a s
  | .sopenW h n a => Sys2Proof.Machine.execSopenW h n a s
  | .snext h d n => Sys2Proof.Machine.execSnext h d n s
  | .stest h d n => Sys2Proof.Machine.execStest h d n s
  | .sput h n a => Sys2Proof.Machine.execSput h n a s
  | .sclose h d n => Sys2Proof.Machine.execSclose h d n s
  | .pginfo h d addr => Sys2Proof.Machine.execPginfo h d addr s
  | .tlbiPg h dev d a b => Sys2Proof.Machine.execTlbiPg h dev d a b s
  | .tlbiCtx h dev d b => Sys2Proof.Machine.execTlbiCtx h dev d b s
  | .tlbiAll h dev d => Sys2Proof.Machine.execTlbiAll h dev d s
  | .rxld h d ix => Sys2Proof.Machine.execRxld h d ix s
  | .rxst h ix b => Sys2Proof.Machine.execRxst h ix b s
  | .shpget h d a => Sys2Proof.Machine.execShpget h d a s
  | .shpsetU h d a => Sys2Proof.Machine.execShpsetU h d a s
  | .shpsetA h d a => Sys2Proof.Machine.execShpsetA h d a s
  | .shpsetG h d a => Sys2Proof.Machine.execShpsetG h d a s
  | .fspawn h d a off => Sys2Proof.Machine.execFspawn h d a off s
  | .fexit h => Sys2Proof.Machine.execFexit h s
  | .fbarArrive h => Sys2Proof.Machine.execFbarArrive h s
  | .fbarWait h => Sys2Proof.Machine.execFbarWait h s
  | .fbarSync h => Sys2Proof.Machine.execFbarSync h s
  | .fstat h d => Sys2Proof.Machine.execFstat h d s
  | .plres h d pl b => Sys2Proof.Machine.execPlres h d pl b s
  | .plrel h pl => Sys2Proof.Machine.execPlrel h pl s
  | .cvsetN h cv a => Sys2Proof.Machine.execCvsetN h cv a s
  | .cvsetF h cv => Sys2Proof.Machine.execCvsetF h cv s
  | .cvsign h cv => Sys2Proof.Machine.execCvsign h cv s
  | .mma h o => Sys2Proof.Machine.execMma h o s
  | .mmaCv h cv o => Sys2Proof.Machine.execMmaCv h cv o s
  | .mmaShape h pl pb => Sys2Proof.Machine.execMmaShape h pl pb s
  | .accld h o => Sys2Proof.Machine.execAccld h o s
  | .accst h o => Sys2Proof.Machine.execAccst h o s
  | .acczero h ta => Sys2Proof.Machine.execAcczero h ta s
  | .tlive h mask => Sys2Proof.Machine.execTlive h mask s
  | .cpy h o => Sys2Proof.Machine.execCpy h o s
  | .gth h o => Sys2Proof.Machine.execGth h o s
  | .sct h o => Sys2Proof.Machine.execSct h o s
  | .pub h sc a => Sys2Proof.Machine.execPub h sc a s
  | .pubReg h d a k => Sys2Proof.Machine.execPubReg h d a k s
  | .pubUnreg h k => Sys2Proof.Machine.execPubUnreg h k s
  | .barv h b a => Sys2Proof.Machine.execBarv h b a s
  | .bars h b a => Sys2Proof.Machine.execBars h b a s
  | .barw h b => Sys2Proof.Machine.execBarw h b s
  | .barq h d b => Sys2Proof.Machine.execBarq h d b s
  | .barqSt h d b => Sys2Proof.Machine.execBarqSt h d b s
  | .qputM h d a q => Sys2Proof.Machine.execQputM h d a q s
  | .qputV h d a q => Sys2Proof.Machine.execQputV h d a q s
  | .task h d a g => Sys2Proof.Machine.execTask h d a g s
  | .tend h => Sys2Proof.Machine.execTend h s
  | .launch h d a => Sys2Proof.Machine.execLaunch h d a s
  | .join h d a => Sys2Proof.Machine.execJoin h d a s
  | .joinPoll h d a => Sys2Proof.Machine.execJoinPoll h d a s
  | .qfireEx h d q => Sys2Proof.Machine.execQfireEx h d q s
  | .qfireGn h d n => Sys2Proof.Machine.execQfireGn h d n s
  | .qstat h d q => Sys2Proof.Machine.execQstat h d q s
  | .qstatArg h d k => Sys2Proof.Machine.execQstatArg h d k s
  | .vappEye h d a p => Sys2Proof.Machine.execVappEye h d a p s
  | .vappLight h d a p => Sys2Proof.Machine.execVappLight h d a p s
  | .vseal h sc d a => Sys2Proof.Machine.execVseal h sc d a s
  | .vld h sc d g a => Sys2Proof.Machine.execVld h sc d g a s
  | .vcon h sc d w g => Sys2Proof.Machine.execVcon h sc d w g s
  | .vconAll h sc d w g => Sys2Proof.Machine.execVconAll h sc d w g s
  | .vmrg h sc d w g => Sys2Proof.Machine.execVmrg h sc d w g s
  | .vrew h d a b => Sys2Proof.Machine.execVrew h d a b s
  | .vpin h d a => Sys2Proof.Machine.execVpin h d a s
  | .vunpin h d a => Sys2Proof.Machine.execVunpin h d a s
  | .vframe h d => Sys2Proof.Machine.execVframe h d s
  | .qnins h sc d a b => Sys2Proof.Machine.execQnins h sc d a b s
  | .qnbld h pad d a pb => Sys2Proof.Machine.execQnbld h pad d a pb s
  | .qnset h a dot depth => Sys2Proof.Machine.execQnset h a dot depth s
  | .qnwalk h sc d a b => Sys2Proof.Machine.execQnwalk h sc d a b s
  | .qnnext h d => Sys2Proof.Machine.execQnnext h d s
  | .qnend h d => Sys2Proof.Machine.execQnend h d s
  | .qnsum h k d g => Sys2Proof.Machine.execQnsum h k d g s
  | .trap h code => Sys2Proof.Machine.execTrap h code s
  | .brk h code => Sys2Proof.Machine.execBrk h code s
  | .sysr h d a => Sys2Proof.Machine.execSysr h d a s
  | .sysw h a b => Sys2Proof.Machine.execSysw h a b s
  | .haltCtx h d a => Sys2Proof.Machine.execHaltCtx h d a s
  | .haltCore h d a b => Sys2Proof.Machine.execHaltCore h d a b s
  | .rfe h d a b => Sys2Proof.Machine.execRfe h d a b s
  | .clk h d => Sys2Proof.Machine.execClk h d s
  | .sleepAbs h a => Sys2Proof.Machine.execSleepAbs h a s
  | .sleepRel h a => Sys2Proof.Machine.execSleepRel h a s
  | .mark h a code => Sys2Proof.Machine.execMark h a code s
  | .markAll h a code => Sys2Proof.Machine.execMarkAll h a code s
  | .resultReturn id => Sys2Proof.Machine.execResultReturn id s
  | .holdLimit core quad slot => Sys2Proof.Machine.execHoldLimit core quad slot s
  | .helperReady fibre => Sys2Proof.Machine.execHelperReady fibre s
  | .overlayLoadComplete core ctx base evict => Sys2Proof.Machine.execOverlayLoadComplete core ctx base evict s
  | .frameFillComplete fibre lane => Sys2Proof.Machine.execFrameFillComplete fibre lane s
  | .zeroingComplete entry => Sys2Proof.Machine.execZeroingComplete entry s
  | .waitaddrDeadline fibre lane => Sys2Proof.Machine.execWaitaddrDeadline fibre lane s
  | .sleepWake fibre lane => Sys2Proof.Machine.execSleepWake fibre lane s
  | .streamRunAhead fibre n => Sys2Proof.Machine.execStreamRunAhead fibre n s
  | .streamDrainComplete fibre n => Sys2Proof.Machine.execStreamDrainComplete fibre n s
  | .trowelCommandStart core => Sys2Proof.Machine.execTrowelCommandStart core s
  | .completionArrival cmd => Sys2Proof.Machine.execCompletionArrival cmd s
  | .commandFault cmd => Sys2Proof.Machine.execCommandFault cmd s
  | .flipPerform id quarter => Sys2Proof.Machine.execFlipPerform id quarter s
  | .mmaComplete id => Sys2Proof.Machine.execMmaComplete id s
  | .buildComplete id => Sys2Proof.Machine.execBuildComplete id s
  | .walkItemPush fibre lane => Sys2Proof.Machine.execWalkItemPush fibre lane s
  | .vertexRetirement quarter slot => Sys2Proof.Machine.execVertexRetirement quarter slot s
  | .vertexSpill quarter => Sys2Proof.Machine.execVertexSpill quarter s
  | .launchDispatch ctx queue => Sys2Proof.Machine.execLaunchDispatch ctx queue s
  | .teamPlacement quarter => Sys2Proof.Machine.execTeamPlacement quarter s
  | .teamRetirement team => Sys2Proof.Machine.execTeamRetirement team s
  | .gridRetirement ctx launch => Sys2Proof.Machine.execGridRetirement ctx launch s
  | .waveReleaseTimer ctx queue plaza entry => Sys2Proof.Machine.execWaveReleaseTimer ctx queue plaza entry s
  | .waveSteal plaza => Sys2Proof.Machine.execWaveSteal plaza s
  | .expertFire ctx queue => Sys2Proof.Machine.execExpertFire ctx queue s
  | .expertTimer ctx queue => Sys2Proof.Machine.execExpertTimer ctx queue s
  | .hostAppend ctx queue ws => Sys2Proof.Machine.execHostAppend ctx queue ws s
  | .hostWindowWrite off bytes => Sys2Proof.Machine.execHostWindowWrite off bytes s
  | .hostWindowRead off len => Sys2Proof.Machine.execHostWindowRead off len s
  | .ccmdCreate ctx => Sys2Proof.Machine.execCcmdCreate ctx s
  | .ccmdStart ctx => Sys2Proof.Machine.execCcmdStart ctx s
  | .ccmdHalt ctx => Sys2Proof.Machine.execCcmdHalt ctx s
  | .ccmdDestroy ctx => Sys2Proof.Machine.execCcmdDestroy ctx s
  | .qsel ctx v => Sys2Proof.Machine.execQsel ctx v s
  | .gsel ctx v => Sys2Proof.Machine.execGsel ctx v s
  | .dstopt ctx v => Sys2Proof.Machine.execDstopt ctx v s
  | .controlRegisterWrite ctx off v => Sys2Proof.Machine.execControlRegisterWrite ctx off v s
  | .tset v => Sys2Proof.Machine.execTset v s
  | .trarm v => Sys2Proof.Machine.execTrarm v s
  | .debugThreadStop ctx => Sys2Proof.Machine.execDebugThreadStop ctx s
  | .preemptionDecision => Sys2Proof.Machine.execPreemptionDecision s
  | .timeSliceExpiry ctx => Sys2Proof.Machine.execTimeSliceExpiry ctx s
  | .haltRequest ctx => Sys2Proof.Machine.execHaltRequest ctx s
  | .saveComplete ctx => Sys2Proof.Machine.execSaveComplete ctx s
  | .teamRestore ctx => Sys2Proof.Machine.execTeamRestore ctx s
  | .faultRecordWrite ctx => Sys2Proof.Machine.execFaultRecordWrite ctx s
  | .stallSample => Sys2Proof.Machine.execStallSample s
  | .rmaWrite cls key off bytes => Sys2Proof.Machine.execRmaWrite cls key off bytes s
  | .rmaRead cls key off len => Sys2Proof.Machine.execRmaRead cls key off len s
  | .serviceSend ctx queue ws => Sys2Proof.Machine.execServiceSend ctx queue ws s
  | .peerAtomic port => Sys2Proof.Machine.execPeerAtomic port s
  | .ptpMessage port master => Sys2Proof.Machine.execPtpMessage port master s
  | .holdover => Sys2Proof.Machine.execHoldover s
  | .flitReplay link => Sys2Proof.Machine.execFlitReplay link s
  | .linkFailure link => Sys2Proof.Machine.execLinkFailure link s
  | .powerCapSet watts => Sys2Proof.Machine.execPowerCapSet watts s
  | .clockStep up => Sys2Proof.Machine.execClockStep up s
  | .dieShutdown die => Sys2Proof.Machine.execDieShutdown die s
  | .powerGate core => Sys2Proof.Machine.execPowerGate core s
  | .gatedCoreWake core => Sys2Proof.Machine.execGatedCoreWake core s
  | .bootRomCheck monitor => Sys2Proof.Machine.execBootRomCheck monitor s
  | .monitorInit trained => Sys2Proof.Machine.execMonitorInit trained s
  | .serviceLoad service => Sys2Proof.Machine.execServiceLoad service s
  | .regionReserve => Sys2Proof.Machine.execRegionReserve s
  | .pldmDiscovery => Sys2Proof.Machine.execPldmDiscovery s
  | .pldmSensors => Sys2Proof.Machine.execPldmSensors s
  | .firmwareUpdate img => Sys2Proof.Machine.execFirmwareUpdate img s
  | .attestation nonce => Sys2Proof.Machine.execAttestation nonce s
  | .accessTableChange master target r w => Sys2Proof.Machine.execAccessTableChange master target r w s
  | .softErrorCorrected kind unit => Sys2Proof.Machine.execSoftErrorCorrected kind unit s
  | .errorWindowAge kind unit => Sys2Proof.Machine.execErrorWindowAge kind unit s
  | .uncorrectableError kind unit ctxs => Sys2Proof.Machine.execUncorrectableError kind unit ctxs s
  | .storePerform id => Sys2Proof.Machine.execStorePerform id s
  | .destroyComplete ctx => Sys2Proof.Machine.execDestroyComplete ctx s
  | .hostLinkTraining gen lanes => Sys2Proof.Machine.execHostLinkTraining gen lanes s

end Sys2Proof.Machine
end

