-- ==== Sys2Proof/Machine/Cycle.lean ====
section
/-!
DEFINITION. A cycle of the arithmetic clock: turns, ports, the vote and the ages (R10, R85, R88 to R92, R103); the issue of a part of a path;
what follows at once from a change of state; and the order of the device's own events, which the spec leaves open.
-/

namespace Sys2Proof.Machine

/-! ### What follows at once -/

/-- Whether a fibre has no live thread left: it leaves its context (R98, R102). -/
def fibreGone (f : Fibre) : Bool := !(f.threads.any fun t => t.life == .live)

/-- The threads of a grid's fibre that leaves hand on, at the grid's retirement, their accesses and what they know, and the writes of its streams
(R199). -/
def tellGrid (d : Dev) (t : Team) (f : Fibre) : Dev :=
  match t.wave, d.grid? t.ctx t.lid with
  | none, some g => d.setGrid { g with learnt := dedupNat (g.learnt ++ f.threads.flatMap Thread.all ++ f.streams.filterMap fun s => s.map Stream.event) }
  | _, _ => d

/-- A fibre leaves: its threads' signatures go to the team (R326), its write streams drain on (R98), its unsealed vertices are reclaimed
(R258). DESIGN CHOICE (assumption 76): a write of a window register that it still owes has no effect any more (R98 says so of loads alone). -/
def leaveFibre (d : Dev) (f : Fibre) : Dev :=
  let sigs := (f.threads.filter fun t => t.life == .exited).map fun t => (t.logical, t.psig)
  let d := match d.team? f.team with
    | some t => tellGrid (d.setTeam { t with psigs := t.psigs ++ sigs }) t f
    | none => d
  let d := detachStreams d f
  reclaimUnsealed { d with fibres := d.fibres.filter fun g => g.uid != f.uid } f.uid

/-- Fibres without live threads leave. -/
def dropFibres (d : Dev) : Dev := (d.fibres.filter fibreGone).foldl leaveFibre d

/-- Teams without fibres are Draining (R86). -/
def drainTeams (d : Dev) : Dev :=
  { d with teams := d.teams.map fun t => if d.fibres.any fun f => f.team == t.uid then t else { t with state := .draining } }

/-- Fibre barriers and convergence registers whose conditions now hold (R109, R208). -/
def checkSync (cycle : Nat) (d : Dev) : Dev :=
  let d := (d.groups.map Group.uid).foldl checkFbar d
  (d.teams.map Team.uid).foldl (fun d t => (List.range 16).foldl (fun d k => checkCv cycle d t k) d) d

/-- Whether a parked thread's word differs from what it expects (R177). -/
def waiterDue (d : Dev) (w : Waiter) : Bool := !w.marked && leWord (homeBytes d w.team w.acc) != w.expect

/-- Parked threads whose word has changed return, oldest first. -/
def wakeChanged (d : Dev) : Dev := (d.waiters.filter (waiterDue d)).foldl (returnWaiter []) d

/-- Queues and nodes of the contexts that dispatch (R249, R250). -/
def runQueues (now : Word) (d : Dev) : Dev :=
  (List.range 64).foldl (fun d c =>
    let x := d.ctx c
    if dispatches x && !(x.queues.isEmpty && x.nodes.isEmpty) then fireQueues now (runNodes now d c) c else d) d

/-- WHAT FOLLOWS AT ONCE from a change of state. -/
def settle (s : State) : State :=
  let now := s.clk.now
  let d := drainTeams (dropFibres (checkSync s.clk.cycle (seeHalts s.dev)))
  let d := runQueues now (wakeChanged d)
  let d := retireVertices d.vertices.length (releaseFull d.bins.length d)
  powerDown (flushTrace (s.withDev (trackIdle now d)))

/-! ### Turns (R10, R92, R103) -/

/-- Whether a convergence register is Armed. -/
def Conv.isArmed : Conv → Bool
  | .idle => false
  | .armed .. => true

/-- Whether the instruction of the lanes `m` of a path waits on a pending source (R10): a register or predicate it reads, a register an `rxld`
names (R80), a register of a key group (R290), an object of its team whose order it keeps (R203), or an arrival that is held (R223). DESIGN
CHOICE (assumption 79): a pending guard counts as a source and a pending destination does not; the waits of `plrel` (R205), of `cvset` on an
Armed register and of a signer that may not sign yet (R208) count as well. -/
def sourcePending (d : Dev) (f : Fibre) (tm : Team) (m : LaneMask) (h : Hdr) (i : Instr) : Bool :=
  let act := activeLanes f ⟨f.uid, m, 0, 0, 0⟩ h
  let signs := fun (cv : BitVec 4) => act.lanes.any fun L => canSign (tm.cv cv.toNat) (logicalOf f L)
  ((usesOf i).reads.any fun r => regPending d f r) || (namedReads d f act i).any (regPending d f) || ((guardOf i h :: (usesOf i).pr).any fun p => predPending d f p) ||
  match i with
  | .mma .. | .accld .. | .accst .. | .acczero .. | .plrel .. => blocked d f tm m i
  | .mmaCv _ cv _ => blocked d f tm m i || (act != 0 && !signs cv)
  | .cvsign _ cv => act != 0 && !signs cv
  | .cvsetN _ cv _ | .cvsetF _ cv => act != 0 && (tm.cv cv.toNat).isArmed
  | .barv _ b _ | .bars _ b _ => act.lanes.any fun L => (f.thread L).arrd.getLsbD b.toNat
  | _ => false

/-- Whether a path of the fibre has come to a `sw` instruction that finds a source pending (R10). -/
def swStalled (d : Dev) (cycle : Nat) (f : Fibre) : Bool :=
  (fibreKeys f).any fun k => freePart cycle f k != 0 && match d.team? f.team with
    | none => false
    | some tm => match fetchAt d f tm k.1 with
      | .instr i => match hdrOf i with
        | some h => h.sw && sourcePending d f tm (freePart cycle f k) h i
        | none => false
      | _ => false

/-- Whether the context that holds a turn has issued in a cycle. -/
def issuedIn (d : Dev) (cycle : Nat) (u : Turn) : Bool :=
  let wide := (contextFibres d u.core u.quad u.slot u.pos).any fun f => f.width == 64
  d.ports.any fun p => p.core == u.core && p.quad == u.quad && decide (cycle ≤ p.busy) && (p.last == u.slot || (wide && p.last == u.slot + 1))

/-- Whether the fibre that holds a slot gives it up: switched out on a stall, in long waits only, frozen, or gone (R10). -/
def givesUp (d : Dev) (cycle : Nat) (u : Turn) : Bool :=
  let fs := contextFibres d u.core u.quad u.slot u.pos
  fs.all (fun f => f.frozen.isSome || (everyLive f fun t => t.wait.long) || !(f.threads.any fun t => t.life == .live)) ||
  (!issuedIn d cycle u && !contextReady d cycle u.core u.quad u.slot u.pos && fs.any (swStalled d cycle))

/-- Whether a turn has come to its hold limit at the end of a cycle (R92). -/
def holdOver (d : Dev) (cycle : Nat) (u : Turn) : Bool :=
  let lim := ((contextFibres d u.core u.quad u.slot u.pos).map Fibre.agelimit).foldl max 4
  u.issued && decide (u.since + lim ≤ cycle + 1)

/-- The turns that a cycle gives up or that have come to their limit in it. -/
def endingTurns (cycle : Nat) (d : Dev) : List Turn := d.turns.filter fun u => givesUp d cycle u || holdOver d cycle u

/-- The ending turns pass as the next cycle begins, to the contexts ready then. -/
def passTurns (cycle : Nat) (us : List Turn) (d : Dev) : Dev :=
  us.foldl (fun d u => passTurn d cycle cycle u.core u.quad u.slot u.pos) d

/-- The slots that hold fibres. -/
def liveSlots (d : Dev) : List (Nat × Nat × Nat) :=
  d.fibres.foldl (fun acc f => if acc.contains (f.core, f.quad, f.slot) then acc else acc ++ [(f.core, f.quad, f.slot)]) []

/-- A slot whose turn nobody holds gives it to its first fibre with a ready path. -/
def takeTurns (cycle : Nat) (d : Dev) : Dev :=
  (liveSlots d).foldl (fun d k =>
    if (turnOf d k.1 k.2.1 k.2.2).isSome then d
    else match (List.range 4).find? (contextReady d cycle k.1 k.2.1 k.2.2) with
      | some p => setTurn d ⟨k.1, k.2.1, k.2.2, p, cycle, false⟩
      | none => d) d

/-- Turns of slots that hold no fibre any more end. -/
def dropTurns (d : Dev) : Dev :=
  { d with turns := d.turns.filter fun u => d.fibres.any fun f => f.core == u.core && f.quad == u.quad && f.slot == u.slot }

/-! ### The vote (R88 to R90) -/

/-- The keys of a context's live threads in unfrozen fibres, lowest first. -/
def contextKeys (fs : List Fibre) : List (Word × Nat) :=
  let ks := (fs.filter fun f => f.frozen.isNone).flatMap fibreKeys
  sortBy (fun k => k.1.toNat * 2 ^ 24 + k.2) (ks.foldl (fun acc k => if acc.contains k then acc else acc ++ [k]) [])

/-- Age of a path (R89). DESIGN CHOICE (assumption 81): a path of a restored team takes the age that stands at its place under its key. -/
def ageOf (d : Dev) (core quad slot pos : Nat) (k : Word × Nat) : Nat :=
  ((d.ages.find? fun a => a.core == core && a.quad == quad && a.slot == slot && a.pos == pos && a.pc == k.1 && a.depth == k.2).map
    Age.age).getD 0

/-- Port 1's path among the ready ones after port 0's (R89). -/
def secondPath (limit : Nat) (age : Word × Nat → Nat) (rest : List (Word × Nat)) : Option (Word × Nat) :=
  match (rest.filter fun k => decide (limit < age k)).foldl (fun best k => match best with
    | none => some k
    | some b => if age b < age k then some k else some b) none with
  | some k => some k
  | none => rest.head?

/-- ONE ISSUE CYCLE of a context (R89): the parts that issue, port 0's first, and the ages after it. -/
def vote (d : Dev) (cycle core quad slot pos : Nat) : List Item × List Age :=
  let fs := contextFibres d core quad slot pos
  let keys := contextKeys fs
  let ready := keys.filter fun k => fs.any fun f => partOf d cycle f k != 0
  let age := ageOf d core quad slot pos
  let limit := (fs.map Fibre.agelimit).foldl max 0
  let picks := match ready with
    | [] => []
    | k :: rest => k :: (secondPath limit age rest).toList
  let items := ((picks.zip (List.range 2)).flatMap fun p => fs.filterMap fun f =>
    let m := partOf d cycle f p.1
    if m = 0 then none else some (Item.mk f.uid m p.1.1 p.1.2 p.2))
  let older := (keys.filter fun k => !picks.contains k).map fun k =>
    Age.mk core quad slot pos k.1 k.2 (age k + if ready.contains k then 1 else 0)
  (items, (older.filter fun a => a.age != 0) ++
    d.ages.filter fun a => !(a.core == core && a.quad == quad && a.slot == slot && a.pos == pos))

/-! ### The ports of the quadrants (R85, R92) -/

/-- A quadrant's port; one that has never served starts at slot 0. -/
def portOf (d : Dev) (core quad : Nat) : Option Port := d.ports.find? fun p => p.core == core && p.quad == quad

/-- The slot a quadrant serves: the first after the one served last whose issuing fibre has a ready path. -/
def servedSlot (d : Dev) (cycle core quad last : Nat) : Option Turn :=
  ((List.range 4).map fun k => (last + 1 + k) % 4).findSome? fun s => match turnOf d core quad s with
    | some u => if contextReady d cycle core quad s u.pos then some u else none
    | none => none

/-- Serve one quadrant: the parts it issues this cycle. A wide fibre's issue keeps the port for two cycles, which count as one issue cycle (R85): its
instruction is executed from the first on, and its accesses of lanes 32 to 63 are out from the second (`secondHalf`; assumption 69). -/
def serveQuad (cycle : Nat) (acc : List Item × Dev) (cq : Nat × Nat) : List Item × Dev :=
  let d := acc.2
  let p := portOf d cq.1 cq.2
  let last := (p.map Port.last).getD 3
  if d.gated.contains cq.1 || (match p with
      | some p => decide (cycle ≤ p.busy)
      | none => false) then acc
  else match servedSlot d cycle cq.1 cq.2 last with
    | none => acc
    | some u =>
      let v := vote d cycle u.core u.quad u.slot u.pos
      let wide := (contextFibres d u.core u.quad u.slot u.pos).any fun f => f.width == 64
      let port : Port := ⟨cq.1, cq.2, if wide then u.slot + 1 else u.slot, if wide then cycle + 1 else cycle, dedupW (v.1.map Item.pc)⟩
      let d := setTurn d { u with issued := true }
      (acc.1 ++ v.1, { d with
        ages := v.2
        ports := port :: d.ports.filter fun q => !(q.core == cq.1 && q.quad == cq.2) })
where
  /-- Program counters without repeats. -/
  dedupW (ws : List Word) : List Word := ws.foldl (fun acc w => if acc.contains w then acc else acc ++ [w]) []

/-- The quadrants that hold fibres, in ascending order, which is a team's order within a cycle (R203). -/
def liveQuads (d : Dev) : List (Nat × Nat) :=
  sortBy (fun q => 4 * q.1 + q.2) (d.fibres.foldl (fun acc f => if acc.contains (f.core, f.quad) then acc else acc ++ [(f.core, f.quad)]) [])

/-- The time base after a cycle (R16, R319). -/
def tick (c : Clk) : Clk :=
  let unit := c.mhz * 1000000
  let total := c.frac + 1000 * (1000000 + c.rate).toNat
  { c with cycle := c.cycle + 1, now := c.now + BitVec.ofNat 64 (total / unit), frac := total % unit }

/-! ### The issue of a part of a path -/

/-- What stands at a part's PC for its fibre, as far as it may still issue: the fibre, the team, the lanes still live. DESIGN CHOICE
(assumption 75): where port 0's `fexit` of the same cycle has ended the threads of port 1's path (R107), port 1's instruction does nothing. -/
def itemOf (d : Dev) (cycle : Nat) (c : Item) : Option (Fibre × Team × Item) :=
  match d.fibre? c.fib with
  | none => none
  | some f => match d.team? f.team with
    | none => none
    | some t =>
      let m := c.lanes &&& f.live
      let stopped := match f.frozen with
        | some z => z.cycle != cycle
        | none => false
      if m = 0 || stopped || !ctxIssues d f.ctx then none else some (f, t, { c with lanes := m })

/-- The lanes of a part whose task has not started (R243). -/
def unstarted (f : Fibre) (c : Item) : LaneMask := lanesWhere fun L => c.lanes.has L && match (f.thread L).task with
  | some k => !k.started
  | none => false

/-- Mark tasks as started. -/
def markStarted (d : Dev) (f : Fibre) (m : LaneMask) : Dev :=
  if m = 0 then d
  else d.setFibre (f.onLanes m fun _ t => { t with task := t.task.map fun k => { k with started := true } })

/-- The fault of a fetch. -/
def fetchFault (s : State) (c : Item) (i : FaultInfo) : State := s.withDev (takeFault s.clk s.dev c.fib c.pc i)

/-- What a part does: an instruction to execute, or the state after what stands at its PC (R63, R66, R71, R243). -/
inductive Part0 where
  | run (i : Instr) (s : State)
  | ended (s : State)

/-- PREPARE THE ISSUE of a part of a path. DESIGN CHOICE: the record of an undecodable word names every lane of the part (assumption 59), and
keeps the word beside the 64 bytes that R304 lays out (R66; assumption 66); a path that has fallen through past an overlay's last word
takes the miss of an overlay that is not resident, or the violation where no overlay stands, there, at its next issue and with the new PC, not
at the instruction before, which keeps its effect (assumption 67). -/
def prepare (c : Item) (s : State) : Part0 :=
  match itemOf s.dev s.clk.cycle c with
  | none => .ended s
  | some (f, t, c) =>
    let new := unstarted f c
    let entry := if new = 0 then Dest.valid else classify s.dev f.core f.ctx t true c.pc
    match entry with
    | .violation r => .ended (fetchFault s c (landingFault (new.lanes.map fun L => (L, r))))
    | .miss b n => .ended (s.withDev (overlayMiss s.dev f c.lanes b n))
    | .valid => match fetchAt s.dev f t c.pc with
      | .violation r => .ended (fetchFault s c (landingFault (c.lanes.lanes.map fun L => (L, r))))
      | .miss b n => .ended (s.withDev (overlayMiss s.dev f c.lanes b n))
      | .illegal => .ended (fetchFault s c ⟨2, 0, 0, c.lanes, 0⟩)
      | .instr i => .run i { s.withDev (markStarted s.dev f new) with cur := some c }

/-! ### The order of the two ports (R90) -/

/-- The lanes of a register that an instruction has come to write whole, between the device before and after it: an `lpush` writes only the
elements it names, and lands in the order of the pending writes (R143). -/
def lanesOwed (d e : Dev) (f g : Fibre) (reg : Nat) : LaneMask :=
  let now := (g.pendW.drop f.pendW.length).foldl (fun m p => if p.reg == reg && p.bits.isEmpty then m ||| p.lanes else m) 0
  let late := (e.flights.filter fun h => decide (d.nextId ≤ h.id) && h.fib == f.uid && h.dst.contains reg).flatMap fun h => h.acc.map LaneAcc.lane
  let park := (e.waiters.filter fun w => decide (d.nextId ≤ w.id) && w.fib == f.uid && w.dst == reg).map Waiter.lane
  let built := (e.builds.filter fun b => decide (d.nextId ≤ b.id) && b.fib == f.uid && b.dst == reg).foldl (fun m b => m ||| b.lanes) 0
  now ||| built ||| LaneMask.ofLanes (late ++ park)

/-- The results that port 0 of the cycle still owes a register of a fibre. -/
def owedNow (d : Dev) (fib reg : Nat) : List Nat :=
  (d.flights.filter fun g => decide (d.mark ≤ g.id) && g.fib == fib && g.dst.contains reg).map Flight.id ++
  (d.builds.filter fun b => decide (d.mark ≤ b.id) && b.fib == fib && b.dst == reg).map Build.id ++
  (d.waiters.filter fun w => decide (d.mark ≤ w.id) && w.fib == fib && w.dst == reg).map Waiter.id

/-- PORT 1's EFFECT LANDS LAST (R90, R143): an `lpush` of port 0 in the cycle writes no lane that port 1's instruction writes whole, and an
`lpush` of port 1 lands after it and after the results that port 0 of the cycle owes its register. `d` and `e` stand before and after port 1's instruction. -/
def portOrder (cycle : Nat) (c : Item) (d e : Dev) : Dev :=
  match d.fibre? c.fib, e.fibre? c.fib with
  | some f, some g =>
    if c.port != 1 || f.pendW.length == g.pendW.length && d.nextId == e.nextId then e
    else
      let old := fun (p : PendW) => if !p.bits.isEmpty && p.land == cycle + 8 && !meets p.path c.lanes then
          { p with lanes := p.lanes &&& ~~~(lanesOwed d e f g p.reg) } else p
      let new := fun (p : PendW) => if p.bits.isEmpty then p else { p with after := owedNow d f.uid p.reg }
      e.setFibre { g with pendW := (g.pendW.take f.pendW.length).map old ++ (g.pendW.drop f.pendW.length).map new }
  | _, _ => e

/-- What an instruction of a part of a path leads to, in the order of the two ports. -/
def ported (c : Item) (s : State) (o : Host.Outcome State Fault Refusal) : Host.Outcome State Fault Refusal :=
  match o with
  | .next t => .next (t.withDev (portOrder s.clk.cycle c s.dev t.dev))
  | o => o

/-! ### The cycle -/

/-- Whether the next instruction of a part of a path is held back by its own conditions in this cycle: executed, it changes nothing. -/
def heldBack (s : State) (f : Fibre) (k : Word × Nat) : Bool :=
  let m := partOf s.dev s.clk.cycle f k
  m != 0 && match prepare ⟨f.uid, m, k.1, k.2, 0⟩ s with
    | .ended _ => false
    | .run i t => match exec i t with
      | .next u => u.dev.fibre? f.uid == t.dev.fibre? f.uid
      | _ => false

/-- The parts of paths that are held back (R86). -/
def stuckPaths (s : State) : List PathKey :=
  s.dev.fibres.flatMap fun f => ((fibreKeys f).filter (heldBack s f)).map fun k => ⟨f.uid, k.1, k.2⟩

/-- Threads asleep or parked whose instant or deadline has come go on in a cycle that begins 199 or 200 ns after it at the latest (R20, R177,
R321): at 800 MHz or more and a slew of at most 100 ppm no cycle lasts longer than 2 ns of the time base (R16, R319), whatever the clock does
before the next one. -/
def wakeOverdue (clk : Clk) (d : Dev) : Dev :=
  let due := fun (i : Word) => decide (i.toNat + 199 ≤ clk.now.toNat)
  let wake := fun (_ : Nat) (t : Thread) => match t.wait with
    | .sleep til => if due til then { t with wait := .none } else t
    | _ => t
  let d : Dev := { d with fibres := d.fibres.map fun (f : Fibre) => f.mapThreads wake }
  (d.waiters.filter fun (w : Waiter) => !w.marked && w.deadline != BitVec.allOnes 64 && due w.deadline).foldl (returnWaiter []) d

/-- The device as a cycle begins: results of fixed latency have landed (R46), overdue threads go on, a pre-empted context's matrix
operations whose time is over complete (R19), and the parts of paths that are held back
in this cycle are known. -/
def beginCycle (s : State) (clk : Clk) : Dev :=
  let d := wakeOverdue clk (endMmas clk.cycle (landAll clk.cycle s.dev))
  let d := { d with mark := d.nextId, framed := [], stuck := [] }
  { d with stuck := stuckPaths { s with dev := d, clk := clk } }

/-- A CYCLE OF THE ARITHMETIC CLOCK: turns pass, results of fixed latency land (R46), gated cores with ready fibres wake (R330), and every
quadrant's port issues. -/
def newCycle (s : State) : State :=
  let d := dropTurns s.dev
  let ending := endingTurns s.clk.cycle d
  let clk := tick s.clk
  let d := beginCycle (s.withDev d) clk
  let d := d.gated.foldl (wakeCore clk.cycle) d
  let d := takeTurns clk.cycle (passTurns clk.cycle ending d)
  let r := if d.powered then (liveQuads d).foldl (serveQuad clk.cycle) ([], d) else ([], d)
  { s with dev := r.2, clk := clk, issueQ := r.1 }

/-! ### The device's own events -/

/-- An event of the device: what it makes of a state. -/
abbrev Event := State → Host.Outcome State Fault Refusal

/-- The event by which a flight performs. -/
def flightEvent (g : Flight) : Event :=
  match g.kind with
  | .drain n => execStreamDrainComplete g.fib n
  | .flip q => execFlipPerform g.id q
  | k => if k.writes && !k.loads then execStorePerform g.id else execResultReturn g.id

/-- Events of a thread. -/
def threadEvents (f : Fibre) (L : Nat) : List Event :=
  let t := f.thread L
  (if t.walk.isSome then [execWalkItemPush f.uid L] else []) ++
  match t.wait with
  | .sleep _ => [execSleepWake f.uid L]
  | .addr => [execWaitaddrDeadline f.uid L]
  | .frame => [execFrameFillComplete f.uid L]
  | _ => []

/-- Events of a fibre. -/
def fibreEvents (f : Fibre) : List Event :=
  execHelperReady f.uid ::
  ((List.range 8).filter fun n => (f.stream n).isSome).map (execStreamRunAhead f.uid) ++ (List.range f.width).flatMap (threadEvents f)

/-- Events of a context. -/
def ctxEvents (d : Dev) (c : Nat) : List Event :=
  let x := d.ctx c
  if x.state = .free then []
  else
    [execFaultRecordWrite c, execDebugThreadStop c, execSaveComplete c, execDestroyComplete c, execTeamRestore c, execTimeSliceExpiry c] ++
    x.queues.flatMap fun q => [execLaunchDispatch c q.1, execExpertTimer c q.1]

/-- Events of the engines. -/
def engineEvents (d : Dev) : List Event :=
  (d.zeroings.map fun z => execZeroingComplete z.entryAt) ++
  (d.loads.flatMap fun l => [execOverlayLoadComplete l.core l.ctx l.base [],
    execOverlayLoadComplete l.core l.ctx l.base ((d.residents.filter fun r => r.core == l.core).map Resident.base)]) ++
  ((dedupNat (d.cmds.map Cmd.core)).map fun c => execTrowelCommandStart c) ++
  (d.cmds.flatMap fun c => [execCompletionArrival c.id, execCommandFault c.id]) ++
  (d.builds.map fun b => execBuildComplete b.id) ++ (d.drains.map fun w => execStreamRunAhead w.fib w.n) ++
  (d.teams.flatMap fun t => t.mmas.map fun m => execMmaComplete m.id)

/-- EVERY EVENT the device may have by itself, in the order the model tries them; which comes first is the agenda's choice. -/
def ownEvents (d : Dev) : List Event :=
  d.flights.map flightEvent ++ d.fibres.flatMap fibreEvents ++ engineEvents d ++
  (d.teams.map fun t => execTeamRetirement t.uid) ++ (d.grids.map fun g => execGridRetirement g.ctx g.lid) ++
  (List.range 64).flatMap (ctxEvents d) ++
  (d.bins.map fun b => execWaveReleaseTimer b.ctx b.queue b.plaza b.entry) ++
  (List.range 4).map execTeamPlacement ++ [execPreemptionDecision] ++ (List.range 4).map execVertexSpill ++ [execStallSample] ++
  d.idleSince.map fun p => execPowerGate p.1

/-- The state an event leads to, when it changes something. -/
def tryEvent (s : State) (e : Event) : Option State :=
  match e s with
  | .next t => if t = s then none else some t
  | _ => none

/-- With nothing on the agenda: the first event that changes something, otherwise a cycle of the clock. -/
def advanceAlone (s : State) : State :=
  match (ownEvents s.dev).findSome? (tryEvent s) with
  | some t => t
  | none => newCycle s

end Sys2Proof.Machine
end

