-- ==== Sys2Proof/Machine/Placed.lean ====
section
/-!
DEFINITION. A program placed from outside: the smallest state of a launched team whose next part of a path issues a given word.
-/

namespace Sys2Proof.Machine

/-- Address of the placed kernel's only overlay. -/
def placedBase : Word := 0x10000

/-- The words of an instruction's bits, zeros up to the longest instruction (R42, R61). -/
def placedWords (nbits w : Nat) : List IWord := leIWords 5 (natLE 60 (w % 2 ^ nbits))

/-- Header terms of the placed kernel: 128 registers, width 8, tiles and scratchpad of one unit each. -/
def placedHdr : KernelHdr :=
  { entry := placedBase, n := 128, w := 0, width := 8, rf := 1, sp := 1, tiles := 4, pallet := 8, stack := 65536,
    overlays := [(placedBase, 5, false)] }

/-- The core the instruction runs on: a control core when it is privileged (R308). -/
def placedCore (i : Option Instr) : Nat :=
  match i with
  | some i => if privilegedInstr i then 384 else 0
  | none => 0

/-- PLACE AN INSTRUCTION: context 0 is Running, one team of 8 threads stands on a core with the word resident at its entry, and the part of
its only path is selected to issue. -/
def placeWord (s : State) (nbits w : Nat) : State :=
  let core := placedCore (decodeTableWord nbits w)
  let d := s.dev
  let x := { d.ctx 0 with state := .running }
  let room : Room := ⟨core, [(0, 0, 0)], 0⟩
  let uid := d.nextId
  let t := newTeam uid 0 0x10000000000 0 8 placedHdr 0 none room
  let f := newFibre (uid + 2) (uid + 1) x t 0 (0, 0, 0, 0) false 0 ((List.range 8).map fun L => newThread .live placedBase L none)
  { s with
    dev := { d.setCtx 0 x with
      nextId := uid + 3
      teams := t :: d.teams
      groups := ⟨uid + 1, [], 0, [], [], [], []⟩ :: d.groups
      fibres := f :: d.fibres
      residents := ⟨core, 0, placedBase, placedWords nbits w⟩ :: d.residents }
    issueQ := [⟨uid + 2, 0xFF, placedBase, 0, 0⟩] }

end Sys2Proof.Machine
end

