-- ==== Sys2Proof/Machine/Step.lean ====
section
/-!
DEFINITION. One step of the machine, and the placement of an instruction where the next step fetches.
-/

namespace Sys2Proof.Machine

/-- What an outcome leads to once its state has settled. -/
def settled (o : Host.Outcome State Fault Refusal) : Host.Outcome State Fault Refusal :=
  match o with
  | .next s => .next (settle { s with cur := none })
  | .fault r => .fault r
  | .refused r => .refused r

/-- ONE STEP. The next selected part of a path issues its instruction. When none is left in this cycle, the agenda's next agent acts: an
event, or a cycle of the arithmetic clock. With nothing on the agenda the device goes on by itself. -/
def step (s : State) : Host.Outcome State Fault Refusal :=
  match s.issueQ with
  | c :: rest =>
    match prepare c { s with issueQ := rest } with
    | .run i t => settled (ported c t (exec i t))
    | .ended t => settled (.next t)
  | [] =>
    match s.agenda with
    | some e :: rest => settled (exec e { s with agenda := rest, cur := none })
    | none :: rest => settled (.next (newCycle { s with agenda := rest }))
    | [] => settled (.next (advanceAlone s))

/-- The state with an instruction's bits stored where the next step fetches: a small kernel of one team that a launch has placed (the
load of a program from outside the machine, assumption 2). -/
def State.withFetchWord (s : State) (nbits w : Nat) : State := placeWord s nbits w

end Sys2Proof.Machine
end

