-- ==== Sys2Proof/Safety.lean ====
section
/-!
DEFINITION. The terms the statements use: an instruction that comes to its own effect, where its result lands, what an issue leaves
unchanged, and the invariants.
-/

namespace Sys2Proof.Machine

/-! ### An instruction that comes to its own effect -/

/-- The issue of an instruction that neither waits at issue (R46, R86) nor fails a check made before any effect (R47, R75, R308). It
depends on the state and the operands alone. -/
def issue? (i : Instr) (s : State) : Option Iss :=
  match hdrOf i with
  | none => none
  | some h =>
    match issOf s h with
    | none => none
    | some x => if waitsAtIssue s.dev x.f x.t x.c.lanes s.clk.cycle i || (precheck i x).isSome then none else some x

/-- The device once the issue has begun: the part of the path stands at the next word under its stall count (R8), its latch is released
(R212) and the `tm` mark made (R45). -/
def begun (i : Instr) (x : Iss) : Dev := prologue x (instrWords i) false

/-- The issuing fibre at that point. -/
def begunFib (i : Instr) (x : Iss) : Fibre := advance x (instrWords i) (releaseLatch x.c x.f)

/-- `exec` answers the next state whose device is `d`. -/
def Answers (i : Instr) (s : State) (d : Dev) : Prop := exec i s = .next (s.withDev d)

/-- `exec` answers the state in which register `d` takes the value `v` in the active lanes `lat` cycles after this issue (R9, R46) and
the fibre's sticky flags have `fl` ORed in at once (R32). Nothing else changes but the issue itself. -/
def Lands (i : Instr) (s : State) (x : Iss) (d lat : Nat) (v : VReg) (fl : Word) : Prop :=
  Answers i s ((begun i x).setFibre (raise (pushW x (begunFib i x) d lat v) fl))

/-- The same for a predicate. -/
def LandsP (i : Instr) (s : State) (x : Iss) (p lat : Nat) (v : Nat → Bool) (fl : Word) : Prop :=
  Answers i s ((begun i x).setFibre (raise (pushP x (begunFib i x) p lat v) fl))

/-- A flag when some sub-element of some active lane meets a condition (R32). -/
def flagIf (x : Iss) (n : Nat) (fl : Word) (p : Nat → Nat → Bool) : Word :=
  if x.lanes.any fun L => (List.range n).any (p L) then fl else 0

/-- An integer source's sub-element in a lane, as its type reads it (R24, R53). -/
def srcInt (x : Iss) (t : ITy) (a : Src) (L j : Nat) : Int := intVal t (sub (srcVal x.s.dev x.f x.t (.int t) L a) t.width j)

/-- A register's sub-element in a lane, as an integer type reads it. -/
def regInt (x : Iss) (t : ITy) (r : Reg) (L j : Nat) : Int := intVal t (sub (regLane x.s.dev x.f r.toNat L) t.width j)

/-- An integer source's sub-element in a lane as a bit pattern. -/
def srcBits (x : Iss) (t : ITy) (a : Src) (L j : Nat) : Nat := sub (srcVal x.s.dev x.f x.t (.int t) L a) t.width j

/-- AN INTEGER OPERATION whose exact result in a sub-element is `n`: the low bits of `n`, or with `sat` of `n` clamped to the type's
range, with IO raised where the clamp changes it (R24, R115). -/
def IntResult (i : Instr) (t : ITy) (sat : Bool) (d : Reg) (n : Iss → Nat → Nat → Int) : Prop :=
  ∀ s x, issue? i s = some x → ∃ v,
    Lands i s x d.toNat 4 v (flagIf x (64 / t.width) fIO fun L j => sat && decide (satTo t (n x L j) ≠ n x L j)) ∧
    ∀ L, x.act.has L = true → ∀ j, j < 64 / t.width →
      sub (laneVal x.f v L) t.width j = truncW t.width (if sat then satTo t (n x L j) else n x L j)

/-- A SUB-ELEMENT RESULT without flags: each sub-element of each active lane meets `p`. -/
def SubWhere (i : Instr) (w : Nat) (d : Reg) (lat : Nat) (p : Iss → Nat → Nat → Nat → Prop) : Prop :=
  ∀ s x, issue? i s = some x → ∃ v,
    Lands i s x d.toNat lat v 0 ∧ ∀ L, x.act.has L = true → ∀ j, j < 64 / w → p x L j (sub (laneVal x.f v L) w j)

/-- A LANE RESULT without flags: the 64-bit value of each active lane meets `p`. -/
def LaneWhere (i : Instr) (d : Reg) (lat : Nat) (p : Iss → Nat → Word → Prop) : Prop :=
  ∀ s x, issue? i s = some x → ∃ v, Lands i s x d.toNat lat v 0 ∧ ∀ L, x.act.has L = true → p x L (laneVal x.f v L)

/-- A LANE RESULT without flags whose value is given. -/
def LaneResult (i : Instr) (d : Reg) (lat : Nat) (val : Iss → Nat → Word) : Prop := LaneWhere i d lat fun x L v => v = val x L

/-- A SUB-ELEMENT RESULT with flags: the value of each sub-element of each active lane, and the union of the flags of all of them. -/
def SubResult (i : Instr) (w : Nat) (d : Reg) (lat : Nat) (val : Iss → Nat → Nat → Nat × Word) : Prop :=
  ∀ s x, issue? i s = some x → ∃ v fl,
    Lands i s x d.toNat lat v fl ∧
    (∀ L, x.act.has L = true → ∀ j, j < 64 / w → sub (laneVal x.f v L) w j = (val x L j).1 % 2 ^ w) ∧
    ∀ b, fl.getLsbD b = true ↔ ∃ L j, x.act.has L = true ∧ j < 64 / w ∧ (val x L j).2.getLsbD b = true

/-- A PREDICATE RESULT without flags: each active lane's value meets `p`. -/
def PredWhere (i : Instr) (q : PredIdx) (lat : Nat) (p : Iss → Nat → Bool → Prop) : Prop :=
  ∀ s x, issue? i s = some x → ∃ v, LandsP i s x q.toNat lat v 0 ∧ ∀ L, x.act.has L = true → p x L (v L)

/-- A PREDICATE RESULT without flags whose value is given. -/
def PredResult (i : Instr) (q : PredIdx) (lat : Nat) (val : Iss → Nat → Bool) : Prop := PredWhere i q lat fun x L v => v = val x L

/-- A COMPARE whose condition in a sub-element is `c`: in a predicate true when it holds in every, or with `.any` in at least one,
sub-element; in a vector all ones or zero in each sub-element (R118, R133). `fl` is what each sub-element raises. -/
def CompareResult (i : Instr) (dst : CmpDst) (w lat : Nat) (c : Iss → Nat → Nat → Bool) (fl : Iss → Nat → Nat → Word) : Prop :=
  ∀ s x, issue? i s = some x → ∃ fs,
    (∀ b, fs.getLsbD b = true ↔ ∃ L j, x.act.has L = true ∧ j < 64 / w ∧ (fl x L j).getLsbD b = true) ∧
    match dst with
    | .pred p any => ∃ v, LandsP i s x p.toNat lat v fs ∧ ∀ L, x.act.has L = true →
        (v L = true ↔ if any then ∃ j, j < 64 / w ∧ c x L j = true else ∀ j, j < 64 / w → c x L j = true)
    | .vec d => ∃ v, Lands i s x d.toNat lat v fs ∧ ∀ L, x.act.has L = true → ∀ j, j < 64 / w →
        sub (laneVal x.f v L) w j = if c x L j then 2 ^ w - 1 else 0

/-- A register's lane value as the instruction finds it (R67). -/
def inReg (x : Iss) (r : Reg) (L : Nat) : Word := regLane x.s.dev x.f r.toNat L

/-- An integer source's lane value as the instruction finds it (R53). -/
def inSrc (x : Iss) (t : ITy) (a : Src) (L : Nat) : Word := srcVal x.s.dev x.f x.t (.int t) L a

/-- A float source's sub-element as the instruction finds it. -/
def inFlt (x : Iss) (t : FTy) (a : FSrc) (L j : Nat) : Nat := sub (fsrcVal x.s.dev x.f t L a) t.width j

/-- A predicate source as the instruction finds it, after its negate bit (R49). -/
def inPred (x : Iss) (p : POp) (L : Nat) : Bool := predLane x.f p.idx.toNat L != p.neg

/-- A source of any numeric type, its sub-element as the instruction finds it (R141). -/
def inNum (x : Iss) (t : NTy) (a : Src) (L j : Nat) : Nat := sub (srcVal x.s.dev x.f x.t t L a) t.width j

/-! ### Shapes of results (R76) -/

/-- What an integer source counts as when the instruction issues (R55). -/
def shI (x : Iss) (t : ITy) (a : Src) : Sh := srcShape x.s.dev x.f (.int t) a

/-- What a float source counts as. -/
def shF (x : Iss) (t : FTy) (a : FSrc) : Sh := fsrcShape x.s.dev x.f t a

/-- What a plain register counts as. -/
def shR (x : Iss) (r : Reg) : Sh := plainShape x.s.dev x.f r.toNat

/-- A register value carries a shape. -/
def HasTag (k : Sh) (v : VReg) : Prop :=
  match k with
  | .u => ∃ w, v = .u w
  | .a b s => v = .a b s
  | .g => ∃ vs, v = .g vs

/-- U when every source counts as U, otherwise G. -/
def uOrG (ks : List Sh) : Sh := if ks.all (· == .u) then .u else .g

/-- The affine rows of R76, `g` combining base and stride of the two sources; a U operand has stride 0. Two U sources give U, and every row
but those of 64-bit types without `.sat` gives G. -/
def runTag (x : Iss) (t : ITy) (sat : Bool) (a b : Src) (g : Option (Word × Word) → Option (Word × Word) → Option (Word × Word)) : Sh :=
  let u := fun (s : Src) => srcVal x.s.dev x.f x.t (.int t) ((lowestLane x.act).getD 0) s
  let run := fun (s : Src) => match shI x t s with
    | .u => some (u s, 0)
    | .a p k => some (p, k)
    | .g => none
  if shI x t a = .u ∧ shI x t b = .u then .u
  else if t.width = 64 ∧ sat = false then match g (run a) (run b) with
    | some r => .a r.1 r.2
    | none => .g
  else .g

/-- THE SHAPE OF A RESULT: with some lane active, the value that lands carries the shape that R76 gives it. -/
def Shaped (i : Instr) (d : Reg) (lat : Nat) (tag : Iss → Sh) : Prop :=
  ∀ s x, issue? i s = some x → ∃ v fl, Lands i s x d.toNat lat v fl ∧ (x.act ≠ 0 → HasTag (tag x) v)

/-- A VARIABLE-LATENCY RESULT (R46): the next state differs from the begun one by one flight that carries the result of every active
lane and the flags it will raise; it counts as U only when every active lane has one value. -/
def LateResult (i : Instr) (w : Nat) (d : Reg) (val : Iss → Nat → Nat → Nat × Word) : Prop :=
  ∀ s x, issue? i s = some x → ∃ (uni : Bool) (v : Nat → Word) (fl : Word),
    Answers i s (sendResult x (begun i x) uni true [d.toNat] fl fun L => [v L]) ∧
    (uni = true → ∀ L M, x.act.has L = true → x.act.has M = true → v L = v M) ∧
    (∀ L, x.act.has L = true → ∀ j, j < 64 / w → sub (v L) w j = (val x L j).1 % 2 ^ w) ∧
    ∀ b, fl.getLsbD b = true ↔ ∃ L j, x.act.has L = true ∧ j < 64 / w ∧ (val x L j).2.getLsbD b = true

/-- A CONVERSION from elements of width `sw` to width `tw` (R136): which elements are read and written, what a narrowing one keeps. -/
def ConvResult (i : Instr) (sw tw : Nat) (hi : Bool) (d : Reg) (src : Iss → Nat → Nat → Nat) (g : Nat → Nat × Word) : Prop :=
  ∀ s x, issue? i s = some x → ∃ v fl,
    let n := min (64 / sw) (64 / tw)
    let from' := fun j => if sw < tw ∧ hi = true then j + n else j
    let to' := fun j => if tw < sw ∧ hi = true then j + n else j
    Lands i s x d.toNat 6 v fl ∧
    (∀ L, x.act.has L = true →
      (∀ j, j < n → sub (laneVal x.f v L) tw (to' j) = (g (src x L (from' j))).1 % 2 ^ tw) ∧
      ∀ k, k < 64 / tw → (∀ j, j < n → k ≠ to' j) → sub (laneVal x.f v L) tw k = sub (inReg x d L) tw k) ∧
    ∀ b, fl.getLsbD b = true ↔ ∃ L j, x.act.has L = true ∧ j < n ∧ (g (src x L (from' j))).2.getLsbD b = true

/-! ### Exact values and their rounding (R26 to R30) -/

/-- The rational number of a finite value; 0 for the others. -/
def ratOf : FVal → ℚ
  | .fin neg m e => (if neg then -1 else 1) * m * 2 ^ e
  | _ => 0

/-- Whether a value is finite. -/
def finite : FVal → Bool
  | .fin _ _ _ => true
  | _ => false

/-- Whether a value is the zero of a sign. -/
def isZeroOf (neg : Bool) : FVal → Bool
  | .fin s m _ => s == neg && m == 0
  | _ => false

/-- `n` is the magnitude `y` of a number of sign `neg`, rounded to an integer by mode (R27). -/
def RoundsTo (r : Rnd) (neg : Bool) (y : ℝ) (n : ℕ) : Prop :=
  let below := (n : ℝ) ≤ y ∧ y < n + 1
  let above := y ≤ (n : ℝ) ∧ (n : ℝ) < y + 1
  match r with
  | .rn => |y - n| ≤ 1 / 2 ∧ (|y - n| = 1 / 2 → n % 2 = 0)
  | .rz => below
  | .rp => if neg then below else above
  | .rm => if neg then above else below

/-- `res` is the encoding and the flags of the number of sign `neg` and magnitude `y > 0` rounded once (R27, R28): `y` lies in the binade
of `2^k`; its significand `n` has the format's precision, less below the smallest normal. From `2^(bias+1)` on the result overflows by
R27's table. With `.ftz` a non-zero result below the smallest normal is a zero of its sign with UF and NX. Else the encoding has the value
of `n`; NX says that it is not `y`, and UF that, besides, the value rounded without a lowest exponent (`free`) is below the smallest
normal. -/
def IsRounded (t : FTy) (r : Rnd) (ftz neg : Bool) (y : ℝ) (res : Nat × Word) : Prop :=
  ∃ (k : ℤ) (n free : ℕ),
    let p := FTy.frac t
    let emin : ℤ := 1 - FTy.bias t
    let q := max k emin - p
    (2 : ℝ) ^ k ≤ y ∧ y < 2 ^ (k + 1) ∧ RoundsTo r neg (y / 2 ^ q) n ∧ RoundsTo r neg (y / 2 ^ (k - p)) free ∧
    ((2 : ℝ) ^ ((FTy.bias t : ℤ) + 1) ≤ n * 2 ^ q →
      res = (signBit t neg + (if r = .rn ∨ (r = .rp ∧ neg = false) ∨ (r = .rm ∧ neg = true) then FTy.inf t else FTy.inf t - 1),
        fOF ||| fNX)) ∧
    ((n : ℝ) * 2 ^ q < 2 ^ ((FTy.bias t : ℤ) + 1) →
      (ftz = true ∧ n ≠ 0 ∧ n < 2 ^ p → res = (signBit t neg, fUF ||| fNX)) ∧
      (¬(ftz = true ∧ n ≠ 0 ∧ n < 2 ^ p) →
        res.1 < 2 ^ t.width ∧ (∃ m e, fval t false res.1 = .fin neg m e ∧ (m : ℝ) * 2 ^ e = n * 2 ^ q) ∧
        res.2 = if (n : ℝ) * 2 ^ q = y then 0 else if (free : ℝ) * 2 ^ (k - p) < 2 ^ emin then fUF ||| fNX else fNX))

/-- `res` is the exact sum of finite values rounded once; an exact zero sum has the sign of R28. -/
def IsSum (t : FTy) (r : Rnd) (ftz : Bool) (vs : List FVal) (res : Nat × Word) : Prop :=
  let sum := (vs.map ratOf).sum
  if sum = 0 then res = (signBit t (if r = .rm then !vs.all (isZeroOf false) else vs.all (isZeroOf true)), 0)
  else IsRounded t r ftz (decide (sum < 0)) |(sum : ℝ)| res

/-- The exact product of two finite values. -/
def prodOf (a b : FVal) : FVal :=
  match a, b with
  | .fin s m e, .fin u n f => .fin (s != u) (m * n) (e + f)
  | _, _ => .nan false

/-- `x` encodes the number of sign `neg` and magnitude `y` exactly in a format. -/
def Encodes (t : FTy) (x : Nat) (neg : Bool) (y : ℚ) : Prop := ∃ m e, fval t false x = .fin neg m e ∧ (m : ℚ) * 2 ^ e = y

/-! ### Approximate functions (R40) -/

/-- `c` lies within `n` ulp of the number `y` of sign, significand and exponent, one ulp being that of R40 at `y`; an infinity does where that
reaches the numbers that round to it. -/
def WithinUlps (t : FTy) (n : Nat) (y : Bool × Nat × Int) (c : Nat) : Prop :=
  let bias : Int := FTy.bias t
  let ulp : ℚ := 2 ^ (max ((y.2.1.log2 : Int) + y.2.2) (1 - bias) - FTy.frac t)
  let signed := fun (s : Bool) (v : ℚ) => if s then -v else v
  match fval t false c with
  | .nan _ => False
  | .inf s => s = y.1 ∧ (2 : ℚ) ^ (bias + 1) - 2 ^ (bias - FTy.prec t) ≤ y.2.1 * 2 ^ y.2.2 + n * ulp
  | .fin s m e => |signed s (m * 2 ^ e) - signed y.1 (y.2.1 * 2 ^ y.2.2)| ≤ n * ulp

/-- `res` is the inexact result `c` with its flags: ∞ with OF and NX, a tiny one, flushed by `.ftz`, with UF and NX, any other with NX. -/
def InexactIs (t : FTy) (ftz : Bool) (c : Nat) (res : Nat × Word) : Prop :=
  let mag := c % 2 ^ (t.width - 1)
  (mag = FTy.inf t → res = (c, fOF ||| fNX)) ∧
  (mag < 2 ^ FTy.frac t → res = (if ftz then c - mag else c, fUF ||| fNX)) ∧
  (mag ≠ FTy.inf t → 2 ^ FTy.frac t ≤ mag → res = (c, fNX))

/-- A power of two that a format holds: with `.ftz`, as a normal number. -/
def Holds (t : FTy) (ftz : Bool) (k : ℤ) : Prop :=
  1 - (FTy.bias t : ℤ) - (if ftz then 0 else (FTy.frac t : ℤ)) ≤ k ∧ k ≤ FTy.bias t

/-! ### Random bits (R145) -/

/-- The quarter-round of RFC 8439, section 2.1, on words `a`, `b`, `c`, `d` of a state of 16 words. -/
def rfcQuarter (a b c d : Nat) (s : Nat → BitVec 32) : Nat → BitVec 32 :=
  let a1 := s a + s b
  let d1 := (s d ^^^ a1).rotateLeft 16
  let c1 := s c + d1
  let b1 := (s b ^^^ c1).rotateLeft 12
  let a2 := a1 + b1
  let d2 := (d1 ^^^ a2).rotateLeft 8
  let c2 := c1 + d2
  let b2 := (b1 ^^^ c2).rotateLeft 7
  fun n => if n = a then a2 else if n = b then b2 else if n = c then c2 else if n = d then d2 else s n

/-- A column round and then a diagonal round. -/
def rfcDouble (s : Nat → BitVec 32) : Nat → BitVec 32 :=
  rfcQuarter 3 4 9 14 (rfcQuarter 2 7 8 13 (rfcQuarter 1 6 11 12 (rfcQuarter 0 5 10 15
    (rfcQuarter 3 7 11 15 (rfcQuarter 2 6 10 14 (rfcQuarter 1 5 9 13 (rfcQuarter 0 4 8 12 s)))))))

/-- The state words of R145 for a seed and an element index. -/
def rfcInit (seed idx : Word) (n : Nat) : BitVec 32 :=
  let blk := idx / 8
  match n with
  | 0 => 0x61707865
  | 1 => 0x3320646E
  | 2 => 0x79622D32
  | 3 => 0x6B206574
  | 4 => seed.extractLsb' 0 32
  | 5 => seed.extractLsb' 32 32
  | 12 => blk.extractLsb' 0 32
  | 13 => blk.extractLsb' 32 32
  | _ => 0

/-- A word of the keystream block of R145. -/
def rfcWord (seed idx : Word) (n : Nat) : BitVec 32 :=
  rfcDouble (rfcDouble (rfcDouble (rfcDouble (rfcInit seed idx)))) n + rfcInit seed idx n

/-! ### Bond blocks (R33 to R37) -/

/-- The scale of the elements of a pair: `2^(E - 127 - μ - (m - 1))` (R33). -/
def bondScale (bm E mu : Nat) : ℚ := 2 ^ ((E : ℤ) - 127 - mu - (bm - 1))

/-- `res` is the block of R36 of 16 `f32` inputs and its flags: E, μ, signs and magnitudes in the layout of R33, with padding 0. -/
def IsQnt (bm : Nat) (ftz : Bool) (xs : List Nat) (res : Nat × Word) : Prop :=
  let b := res.1
  let top := 2 ^ bm - 1
  let E := b % 256
  let mu := fun j => b / 2 ^ (8 + j) % 2
  let M := fun i => b / 2 ^ (16 + (bm + 1) * i) % 2 ^ bm
  let sgn := fun i => b / 2 ^ (16 + (bm + 1) * i + bm) % 2
  let v := fun i => fval .f32 ftz (xs.getD i 0)
  let mag := fun i => |ratOf (v i)|
  let nans := ∃ i, i < 16 ∧ (v i).isNaN = true
  let inf := fun i => v i = .inf true ∨ v i = .inf false
  let zeros := ∀ i, i < 16 → finite (v i) = true ∧ mag i = 0
  b < 2 ^ (16 + 16 * (bm + 1)) ∧
  (nans → E = 255 ∧ (∀ j, j < 8 → mu j = 0) ∧ (∀ i, i < 16 → sgn i = 0 ∧ M i = top) ∧ res.2 = fNV) ∧
  (zeros → res = (0, 0)) ∧
  (¬nans → ¬zeros →
    ((∀ i, i < 16 → mag i = 0) → E = 254) ∧
    (∀ (i : Nat) (k : ℤ), i < 16 → (∀ j, j < 16 → mag j ≤ mag i) → (2 : ℚ) ^ k ≤ mag i → mag i < 2 ^ (k + 1) →
      (E : ℤ) = min 254 (max 1 (k + 127))) ∧
    (∀ j, j < 8 → (mu j = 1 ↔ ∀ i, (i = 2 * j ∨ i = 2 * j + 1) →
      ¬inf i ∧ ∃ n, RoundsTo .rn false (mag i / bondScale bm E 1 : ℚ) n ∧ n ≤ top)) ∧
    (∀ i, i < 16 → sgn i = xs.getD i 0 / 2 ^ 31 % 2 ∧ (inf i → M i = top)) ∧
    ∃ q : Nat → Nat, (∀ i, i < 16 → ¬inf i →
      RoundsTo .rn false (mag i / bondScale bm E (mu (i / 2)) : ℚ) (q i) ∧ M i = min (q i) top) ∧
      ∀ n, res.2.getLsbD n = true ↔
        (n = 6 ∧ ∃ i, i < 16 ∧ (inf i ∨ top < q i)) ∨
        (n = 4 ∧ ∃ i, i < 16 ∧ ¬inf i ∧ M i * bondScale bm E (mu (i / 2)) ≠ mag i) ∨
        (n = 3 ∧ ∃ i, i < 16 ∧ ¬inf i ∧ M i = 0 ∧ mag i ≠ 0))

/-- `x` is the `f32` encoding of element `i` of a block (R33, R35, R37). -/
def IsDqnt (bm blk i x : Nat) : Prop :=
  let E := blk % 256
  let mu := blk / 2 ^ (8 + i / 2) % 2
  let M := blk / 2 ^ (16 + (bm + 1) * i) % 2 ^ bm
  let sgn := blk / 2 ^ (16 + (bm + 1) * i + bm) % 2
  x < 2 ^ 32 ∧ (E = 0 → x = 0) ∧ (E = 255 → x = 0x7FC00000) ∧
  (E ≠ 0 → E ≠ 255 → Encodes .f32 x (sgn == 1) (M * bondScale bm E mu))

/-! ### Paths of vertices (R262, R264, R271) -/

/-- The vertices from `v` to its root, each the parent of the one before. -/
def ChainFrom (d : Dev) : Vertex → List Vertex → Prop
  | _, [] => False
  | v, [u] => u = v ∧ parentOf d v = none
  | v, u :: w :: us => u = v ∧ parentOf d v = some w ∧ ChainFrom d w (w :: us)

/-- The chain of a side of a connection: empty where the side is absent. -/
def SideChain (d : Dev) (v : Option Vertex) (us : List Vertex) : Prop :=
  match v with
  | none => us = []
  | some v => ChainFrom d v us ∧ us.length ≤ 256

/-- The density that stands for p← of the vertex `k` places from its endpoint: the supplied ones for the endpoint and its parent (R262). -/
def suppliedPb (w : Word) (k : Nat) (u : Vertex) : Nat := if k = 0 then field w 0 32 else if k = 1 then field w 32 32 else u.pb

/-- Vertex `i` of the full path: the eye chain from its root, then the light chain to its root (R264). -/
def pathAt (d : Dev) (es ls : List Vertex) (de dl : Word) (i : Nat) : Option WV :=
  if i < es.length then
    let k := es.length - 1 - i
    es[k]?.map fun u => wv d u (suppliedPb de k u)
  else
    let k := i - es.length
    ls[k]?.map fun u => wv d u (suppliedPb dl k u)

/-- The terms of R264 in the order of R271, slot by slot: `P` is the product of the *r* factors outward from the current strategy `s` of
`n` vertices `x`, and the remaining factor comes last. -/
def IsTerms (w : Weigh) (s n : Nat) (x : Nat → WV) (T : Nat → Nat) : Prop :=
  ∃ P : Nat → Nat, P s = wOne ∧
    (∀ m, m < s → P m = wMul (P (m + 1)) (w.r (x m))) ∧ (∀ m, s ≤ m → m < n → P (m + 1) = wMul (P m) (w.r (x m))) ∧
    T s = wOne ∧ (∀ m, m < s → T m = wMul (P m) (wC (x m))) ∧ (∀ m, s < m → m ≤ n → T m = wMul (P m) (wC (x (m - 1)))) ∧
    (∀ m, n < m → m < 9 → T m = 0) ∧
    (∀ j, j < n → T (9 + j) = wMul (P (if j < s then j + 1 else j)) (w.m (j == 0 || j + 1 == n) (x j))) ∧
    ∀ j, n ≤ j → j < 9 → T (9 + j) = 0

/-! ### Pair halves (R58) -/

/-- The operation of a pair half on one sub-element of each operand and the old destination (R58): an integer half takes the unsigned type
of its width, `imin` and `imax` signed the signed one, an FMA half the float type of its code. -/
def halfOut (op : HalfOp) (t : BitVec 2) (rnd : Rnd) (ftz : Bool) (a b d : Nat) : Nat × Word :=
  let i := halfInt t
  let s := sintOf i.width
  let f := halfFlt t
  match op with
  | .hnop => (0, 0)
  | .iadd => (truncW i.width (intVal i a + intVal i b), 0)
  | .isub => (truncW i.width (intVal i a - intVal i b), 0)
  | .imul => (truncW i.width (intVal i a * intVal i b), 0)
  | .imins => (truncW i.width (min (intVal s a) (intVal s b)), 0)
  | .iminu => (truncW i.width (min (intVal i a) (intVal i b)), 0)
  | .imaxs => (truncW i.width (max (intVal s a) (intVal s b)), 0)
  | .imaxu => (truncW i.width (max (intVal i a) (intVal i b)), 0)
  | .and => (a &&& b, 0)
  | .or => (a ||| b, 0)
  | .xor => (a ^^^ b, 0)
  | .shl => (a * 2 ^ (b % i.width), 0)
  | .shr => (a / 2 ^ (b % i.width), 0)
  | .sar => (truncW i.width ((toSigned i.width a).fdiv ((2 ^ (b % i.width) : Nat) : Int)), 0)
  | .mov => (a, 0)
  | .not => (2 ^ i.width - 1 - a, 0)
  | .fadd => faddR f rnd ftz a b
  | .fsub => fsubR f rnd ftz a b
  | .fmul => fmulR f rnd ftz a b
  | .ffma => fmaR f f rnd ftz [(a, b)] d
  | .fmin => fminmaxR f false ftz a b
  | .fmax => fminmaxR f true ftz a b

/-- The element type of a half (R58). -/
def halfTy (h : Half) (t : BitVec 2) : NTy := if h.op.isFma then .flt (halfFlt t) else .int (halfInt t)

/-- A half's result in a sub-element, every operand as the word finds it (R60). -/
def halfVal (x : Iss) (h : Half) (t : BitVec 2) (rnd : Rnd) (ftz : Bool) (L j : Nat) : Nat × Word :=
  let w := (halfTy h t).width
  halfOut h.op t rnd ftz (sub (srcReg x.s.dev x.f (halfSrc h.s1 h.p1) (halfTy h t) L) w j)
    (sub (srcReg x.s.dev x.f (halfSrc h.s2 h.p2) (halfTy h t) L) w j) (sub (inReg x h.d L) w j)

/-- A half's write as it is scheduled on a fibre; `hnop` has none (R46, R58). -/
def putHalfOut (x : Iss) (h : Half) (v : VReg) (fl : Word) (f : Fibre) : Fibre :=
  if h.op = .hnop then f else raise (pushW x f h.d.toNat (if h.op.isFma then 6 else 4) v) fl

/-- What `putHalfOut`'s value and flags are. -/
def HalfSays (x : Iss) (h : Half) (t : BitVec 2) (rnd : Rnd) (ftz : Bool) (v : VReg) (fl : Word) : Prop :=
  let w := (halfTy h t).width
  (∀ L, x.act.has L = true → ∀ j, j < 64 / w → sub (laneVal x.f v L) w j = (halfVal x h t rnd ftz L j).1 % 2 ^ w) ∧
  ∀ b, fl.getLsbD b = true ↔ ∃ L j, x.act.has L = true ∧ j < 64 / w ∧ (halfVal x h t rnd ftz L j).2.getLsbD b = true

/-! ### Transfers and ends (R94 to R98) -/

/-- The targets of the active lanes all classify as valid (R96). -/
def AllValid (s : State) (x : Iss) (lp : Bool) (tgt : Nat → Word) : Prop :=
  ∀ L, x.act.has L = true → classify s.dev x.f.core x.f.ctx x.t lp (tgt L) = .valid

/-- A TRANSFER in which every active lane commits: its thread becomes `g L t` of its begun thread `t`; every other lane goes on at the
next word; a traced grid gets its branch records (R97, R326). -/
def TransferTo (i : Instr) (s : State) (x : Iss) (tgt : Nat → Word) (g : Nat → Thread → Thread) : Prop :=
  Answers i s (emitTrace ((begun i x).setFibre ((begunFib i x).onLanes x.act g))
    (branchRecs x (x.act.lanes.map fun L => (L, tgt L))))

/-- A TRANSFER lane by lane (R97): a lane whose target is valid commits as in `TransferTo`; one whose target is a landing violation or not
resident stays at the instruction, the latter waiting for the load of its overlay; every other lane goes on at the next word; and where some
lane violates, the landing fault of those lanes is taken. -/
def TransferEach (i : Instr) (s : State) (x : Iss) (lp : Bool) (tgt : Nat → Word) (g : Nat → Thread → Thread) : Prop :=
  let dest := fun L => classify s.dev x.f.core x.f.ctx x.t lp (tgt L)
  let bad := x.act.lanes.filterMap fun L => match dest L with
    | .violation r => some (L, r)
    | _ => none
  ∃ d f', exec i s = .next (finish x (if bad = [] then .done d else .trap d (landingFault bad))) ∧ d.fibre? x.f.uid = some f' ∧
    d.mem = s.dev.mem ∧ d.flights = s.dev.flights ∧
    (∀ L, L < x.f.threads.length → L < 64 →
      let t := (begunFib i x).thread L
      let back := { t with pc := x.c.pc, depth := x.c.depth }
      if x.act.has L = false then f'.thread L = t
      else match dest L with
        | .valid => f'.thread L = g L t
        | .violation _ => f'.thread L = back
        | .miss b _ => f'.thread L = { back with wait := .overlay b }) ∧
    ∀ L b n, x.act.has L = true → dest L = .miss b n → ∃ l, l ∈ d.loads ∧ l.core = x.f.core ∧ l.ctx = x.f.ctx ∧ l.base = b

/-- A jump moves the PC and the path signature (R97, R326). -/
def jumpTo (tgt : Nat → Word) (L : Nat) (t : Thread) : Thread :=
  { t with pc := tgt L, psig := (t.psig.rotateLeft 1) ^^^ tgt L }

/-- A call besides writes its frame at the new depth and goes one deeper (R94, R97). -/
def callTo (x : Iss) (tgt : Nat → Word) (L : Nat) (t : Thread) : Thread :=
  { jumpTo tgt L t with
    depth := x.c.depth + 1
    held := min 4 (t.held + 1)
    stack := memPut t.stack (x.t.hdr.stack - 16 * (x.c.depth + 1)) (natLE 8 (x.c.pc + 12).toNat ++ List.replicate 8 0) }

/-- A return goes one less deep (R94, R97). -/
def retTo (x : Iss) (tgt : Nat → Word) (L : Nat) (t : Thread) : Thread :=
  { jumpTo tgt L t with depth := x.c.depth - 1, held := t.held - 1 }

/-- The return PC in a lane's own frame (R94). -/
def framePc (x : Iss) (L : Nat) : Word := memWord (x.f.thread L).stack (x.t.hdr.stack - 16 * x.c.depth)

/-! ### The host (R313, R334) -/

/-- The host reaches the device's registers: the link is up and the access tables let it write them. -/
def HostMayWrite (s : State) : Prop := s.env.linkUp = true ∧ s.env.allows .host .contextControl true = true

/-! ### Memory instructions (R166, R167) -/

/-- Every lane's access of a memory instruction passes R166: no lane is on a page being zeroed (R153), none faults, no watchpoint is hit
(R181). `gs` are the lanes with their byte places, `d` the device after the translations' own effects. -/
def Passes (i : Instr) (x : Iss) (spc : Space) (k : Ask) (addr : MAddr) (gs : List Good) (d : Dev) : Prop :=
  let order := logicalOrder x.f x.act.lanes
  let at' := addrLane x.s.dev x.f addr
  waitOf (checkLanes x.f x.t spc (fun _ => k) at' order x.s.dev).1 = none ∧
  (checkLanes x.f x.t spc (fun _ => k) at' order (begun i x)).2 = d ∧
  badOf (checkLanes x.f x.t spc (fun _ => k) at' order (begun i x)).1 = [] ∧
  goodOf (checkLanes x.f x.t spc (fun _ => k) at' order (begun i x)).1 = gs

/-- No watchpoint of the fibre's context is hit by the passing lanes (R306). -/
def Unwatched (x : Iss) (spc : Space) (k : Ask) (gs : List Good) (d : Dev) : Prop := watchLanes d x.f.ctx spc (fun _ => k) gs = 0

/-- No passing lane's access meets a direct Trowel command in flight (R216). -/
def Unbusy (x : Iss) (gs : List Good) (d : Dev) : Prop := gs.any (Good.busy d x.t) = false

/-- The ask of `ld` (R166): any alignment; host pages serve it. -/
def askLoad (o : MemOp) : Ask := ⟨sizeBytes o.t o.size, false, 1, true, false, 8⟩

/-- The ask of `st` and `st.mc`. -/
def askStore (mc : Bool) (o : MemOp) : Ask := ⟨sizeBytes o.t o.size, true, 1, true, mc, 9⟩

/-- The ask of an atomic: natural alignment; a host page serves `add` and `exch` on integers. -/
def askAtom (op : AOp) (o : AtomOp) : Ask := ⟨(atyN o.t).width / 8, true, (atyN o.t).width / 8, atomHost op o.t, false, 9⟩

/-- The operation of an `atom` or `red` instruction and whether it returns the old value (R170). -/
def atomOf : Instr → Option (AOp × Bool × AtomOp)
  | .atomAdd _ o => some (.add, true, o)
  | .atomMin _ o => some (.min, true, o)
  | .atomMax _ o => some (.max, true, o)
  | .atomExch _ o => some (.exch, true, o)
  | .atomAnd _ o => some (.and, true, o)
  | .atomOr _ o => some (.or, true, o)
  | .atomXor _ o => some (.xor, true, o)
  | .redAdd _ o => some (.add, false, o)
  | .redMin _ o => some (.min, false, o)
  | .redMax _ o => some (.max, false, o)
  | .redAnd _ o => some (.and, false, o)
  | .redOr _ o => some (.or, false, o)
  | .redXor _ o => some (.xor, false, o)
  | _ => none

/-- A register that the fibre has: `vz`, a private or slack register of its file, or a window register of its slot group (R73, R74). -/
def HasReg (d : Dev) (f : Fibre) (r : Nat) : Prop :=
  r = 255 ∨ if f.isWindow r then ∃ g, d.groups.find? (fun g => g.uid == f.grp) = some g ∧ r - f.nPriv < g.regs.length
    else r < f.regs.length

/-- The byte that a store flight leaves at a physical address: its last byte there, by place and page kind. -/
def lastStored (g : Flight) (a : Nat) : Option Byte :=
  (((g.acc.flatMap fun c => (c.places.zip c.kinds).zip c.data).filter fun p => p.1.1 == .phys a).getLast?).map Prod.snd

/-- No `fence.uo` waits for the flight (R175). -/
def NoUoFence (d : Dev) (id : Nat) : Prop := ∀ h, h ∈ d.holds → h.flush = true → id ∉ h.ids

/-! ### Tiles -/

/-- The device a matrix operation begins on: with `ru` the path's latch is kept (R212). -/
def begunMma (i : Instr) (x : Iss) : Dev := prologue x (instrWords i) x.h.ru

/-- The ask of `accld` and `accst`: 4,096 bytes at a multiple of 4 (R206). -/
def askTile (write : Bool) : Ask := ⟨4096, write, 4, true, false, if write then 9 else 8⟩

/-- The single access of `accld` or `accst` passes R166: as `Passes`, for the lowest active lane alone. -/
def PassesLow (i : Instr) (x : Iss) (spc : Space) (k : Ask) (addr : MAddr) (gs : List Good) (d : Dev) : Prop :=
  let lo := [(lowestLane x.act).getD 0]
  let at' := addrLane x.s.dev x.f addr
  waitOf (checkLanes x.f x.t spc (fun _ => k) at' lo x.s.dev).1 = none ∧
  (checkLanes x.f x.t spc (fun _ => k) at' lo (begun i x)).2 = d ∧
  badOf (checkLanes x.f x.t spc (fun _ => k) at' lo (begun i x)).1 = [] ∧
  goodOf (checkLanes x.f x.t spc (fun _ => k) at' lo (begun i x)).1 = gs

/-! ### Frames -/

/-- The instructions whose whole effect, on every operand, is a result in the active lanes of their destinations and flags: of control,
integer, floating point, cross-lane, random, quantise and pair (R95, R114, R130) all that never fault by themselves, but `lpush`, whose
result lands in the lanes it names; `shpget` and the reads of state that go into a register. (`barq` is not among them: where it tells true, its threads acquire.) -/
def registerOnly : Instr → Bool
  | .nop .. | .voteAny .. | .voteAll .. | .voteMask .. | .matchAny .. | .matchAll .. => true
  | .iadd .. | .isub .. | .iaddc .. | .imul .. | .imulh .. | .imad .. | .idiv .. | .irem .. | .ineg .. | .iabs .. | .imin .. | .imax ..
  | .icmp .. | .isel .. | .and .. | .or .. | .xor .. | .not .. | .bmix .. | .shl .. | .shr .. | .sar .. | .rot .. | .bfe .. | .bfi ..
  | .popc .. | .clz .. | .ctz .. | .brev .. | .lea .. | .mov .. | .movi .. | .plop .. | .p2v .. | .p2vAll ..
  | .pack .. | .unpkLo .. | .unpkHi .. | .pair .. => true
  | .fadd .. | .fsub .. | .fmul .. | .ffma .. | .fmin .. | .fmax .. | .fcmp .. | .fdiv .. | .fsqrt .. | .frcp .. | .frsq .. | .fexp2 ..
  | .flog2 .. | .fsin .. | .fcos .. | .fclass .. | .fcvt .. | .f2i .. | .i2f .. | .frnd .. | .frndX .. | .fscale .. | .fdot2 .. => true
  | .lpull .. | .lred .. | .lscan .. | .rnd .. | .rndF32 .. | .rndF64 .. | .qnt .. | .dqnt .. | .v2p .. | .shpget .. => true
  | .fstat .. | .barqSt .. => true
  | _ => false

/-- The registers an instruction writes. -/
def destRegs (i : Instr) : List Nat := (usesOf i).writes.map Prod.fst

/-- The predicates an instruction writes. -/
def destPreds (i : Instr) : List Nat := (usesOf i).pw.map Prod.fst

/-- The register instructions that raise a flag on some operands (R32): division, a saturating form, and arithmetic on floats. -/
def mayRaise : Instr → Bool
  | .iadd _ o | .isub _ o | .imul _ o | .imad _ o | .pack _ o => o.sat
  | .ineg _ o | .iabs _ o => o.sat
  | .idiv .. | .irem .. | .pair .. => true
  | .fadd .. | .fsub .. | .fmul .. | .ffma .. | .fmin .. | .fmax .. | .fcmp .. | .fdiv .. | .fsqrt .. | .frcp .. | .frsq .. | .fexp2 ..
  | .flog2 .. | .fsin .. | .fcos .. | .fcvt .. | .f2i .. | .i2f .. | .frnd .. | .frndX .. | .fscale .. | .fdot2 .. => true
  | .lred .. | .lscan .. | .qnt .. | .dqnt .. => true
  | _ => false

/-- ONLY ITS DESTINATIONS: the next state differs from `s` in the issuing fibre alone, and there in nothing but the PCs and stall of the
issuing path, the released latch, flags raised, and pending writes whose registers and predicates are the instruction's destinations and
whose lanes are the active ones; and in new flights and trace records. Registers, predicates, memory and everything else stand. -/
def OnlyDests (i : Instr) (s : State) (x : Iss) (t : State) : Prop :=
  ∃ ws ps fl gs rs n,
    t = s.withDev { s.dev with
      fibres := s.dev.fibres.map fun f => if f.uid == x.f.uid then
        { begunFib i x with pendW := x.f.pendW ++ ws, pendP := x.f.pendP ++ ps, fflags := x.f.fflags ||| fl } else f
      flights := s.dev.flights ++ gs
      trace := s.dev.trace ++ rs
      nextId := n } ∧
    (mayRaise i = false → fl = 0) ∧
    (∀ w, w ∈ ws → w.reg ∈ destRegs i ∧ w.lanes = x.act ∧ s.clk.cycle < w.land) ∧
    (∀ p, p ∈ ps → p.idx ∈ destPreds i ∧ p.lanes = x.act ∧ s.clk.cycle < p.land) ∧
    ∀ g, g ∈ gs → g.fib = x.f.uid ∧ (∀ r, r ∈ g.dst → r ∈ destRegs i) ∧ (∀ p, g.pdst = some p → p ∈ destPreds i) ∧
      (∀ a, a ∈ g.acc → x.act.has a.lane = true) ∧ g.kind.writes = false ∧ (mayRaise i = false → g.flags = 0)

/-! ### Saved fibres -/

/-- A fibre as a save finds it: one thread for each lane of its width, and a G register with a word for each lane (R73, R77). -/
def WholeFibre (f : Fibre) : Prop :=
  f.threads.length = f.width ∧ ∀ vs, VReg.g vs ∈ privRegs f → vs.length = f.width

/-- The device as a save of a context finds it: UO copies written back, fixed-latency results landed (R299). -/
def atSave (d : Dev) (cycle c : Nat) : Dev :=
  (d.teams.filter fun t => t.ctx == c).foldl (fun d t => settleFibres cycle (uoFlush d t.core) t) d

/-! ### Invariants -/

/-- A trace ring's registers lie in the ranges of R314. -/
def RingOk (r : Ring) : Prop :=
  r.base % 64 = 0 ∧ (r.cap = 0 ∨ (64 ≤ r.cap ∧ r.cap ≤ 2 ^ 24)) ∧ r.head < 2 ^ 32 ∧ r.tail < 2 ^ 32 ∧ r.lost < 2 ^ 64

/-- THE PACKAGE IN RANGE: the arithmetic clock between 800 MHz and nominal in steps of 100 (R329), the fraction of a ns below one, the
slew within 100 ppm (R319), TSTAT a state of R314, the power cap as R328 allows, boot at one of its stages (R331), and the device page's
registers in their ranges (R314). -/
def PackageOk (s : State) : Prop :=
  (800 ≤ s.clk.mhz ∧ s.clk.mhz ≤ 1700 ∧ s.clk.mhz % 100 = 0 ∧ s.clk.frac < s.clk.mhz * 1000000 ∧ -100 ≤ s.clk.rate ∧ s.clk.rate ≤ 100) ∧
  (s.env.tstat ≤ 3 ∧ 1500 ≤ s.env.cap ∧ s.env.cap ≤ 3000 ∧ s.env.cap % 50 = 0 ∧ s.env.boot.stage ≤ 4) ∧
  (s.env.rings.length = 4 ∧ (∀ r, r ∈ s.env.rings → RingOk r) ∧ s.env.boulevard.length = 6 ∧ s.env.msixTable.length = 128) ∧
  s.env.dmwctx < 64 ∧ s.env.dmwbase.toNat % 65536 = 0 ∧ s.env.dmwerr < 2 ^ 64 ∧ (s.env.smpper = 0 ∨ (1000 ≤ s.env.smpper ∧ s.env.smpper ≤ 1000000000)) ∧
  field s.env.ptpctl 20 44 = 0 ∧ field s.env.ptpctl 16 2 ≠ 3

/-- DEVICE MEMORY IN ITS CANONICAL FORM. -/
def MemOk (s : State) : Prop := Memory.wf s.dev.mem = true

end Sys2Proof.Machine
end

