-- ==== Sys2Proof/Certificates/Slice0/Obligations.lean ====
section
/-!
DEFINITION. The statements for the provers. Each says in its docstring which rules of spec/ it formalises; what rests on a choice of the
model names its log entry.
-/

open Sys2Proof Sys2Proof.Machine

/-- R115: the arithmetic instructions on each sub-element, wrapped or with `.sat` saturated (R24), the old destination read before any
write; IO is raised where a saturation changes the exact result, and nothing else. -/
def Obligations.IntegerArithmeticGivesExactResult : Prop :=
  (∀ h o, IntResult (.iadd h o) o.t o.sat o.d fun x L j => srcInt x o.t o.a L j + srcInt x o.t o.b L j) ∧
  (∀ h o, IntResult (.isub h o) o.t o.sat o.d fun x L j => srcInt x o.t o.a L j - srcInt x o.t o.b L j) ∧
  (∀ h o, IntResult (.imul h o) o.t o.sat o.d fun x L j => srcInt x o.t o.a L j * srcInt x o.t o.b L j) ∧
  (∀ h o, IntResult (.imulh h o) o.t false o.d fun x L j =>
    (srcInt x o.t o.a L j * srcInt x o.t o.b L j).fdiv ((2 ^ o.t.width : Nat) : Int)) ∧
  (∀ h o, IntResult (.imad h o) o.t o.sat o.d fun x L j =>
    srcInt x o.t o.a L j * srcInt x o.t o.b L j + regInt x o.t o.d L j) ∧
  (∀ h o, IntResult (.ineg h o) o.t o.sat o.d fun x L j => -srcInt x o.t o.a L j) ∧
  (∀ h o, IntResult (.iabs h o) o.t o.sat o.d fun x L j => ((srcInt x o.t o.a L j).natAbs : Int)) ∧
  (∀ h o, IntResult (.imin h o) o.t false o.d fun x L j => min (srcInt x o.t o.a L j) (srcInt x o.t o.b L j)) ∧
  (∀ h o, IntResult (.imax h o) o.t false o.d fun x L j => max (srcInt x o.t o.a L j) (srcInt x o.t o.b L j))

/-- R25, R117: quotient and remainder with their three special cases and flags. R116: `iaddc` writes the 64-bit sum with carry to vD and
the carry out to its carry predicate; its type says how an immediate is extended, zero-extended beside `n64` (DEDUCED, assumption 56). -/
def Obligations.DivisionAndCarry : Prop :=
  ((∀ h o, SubResult (.idiv h o) o.t.width o.d 4 fun x L j =>
    let a := srcInt x o.t o.a L j
    let b := srcInt x o.t o.b L j
    if b = 0 then (2 ^ o.t.width - 1, fDZ)
    else if o.t.signed = true ∧ a = ITy.min o.t ∧ b = -1 then (truncW o.t.width (if o.sat then ITy.max o.t else a), fIO)
    else (truncW o.t.width (a.tdiv b), 0)) ∧
  (∀ h o, SubResult (.irem h o) o.t.width o.d 4 fun x L j =>
    let a := srcInt x o.t o.a L j
    let b := srcInt x o.t o.b L j
    if b = 0 then (truncW o.t.width a, fDZ)
    else if o.t.signed = true ∧ a = ITy.min o.t ∧ b = -1 then (0, fIO)
    else (truncW o.t.width (a.tmod b), 0))) ∧
  (∀ h (o : I64) s x, issue? (.iaddc h o) s = some x →
    let i : Instr := .iaddc h o
    let val := fun a L => if o.uns then srcZ s.dev x.f x.t L a else inSrc x .i64 a L
    let sum := fun L => (val o.a L).toNat + (val o.b L).toNat + if predLane x.f o.k.toNat L then 1 else 0
    ∃ v c, Answers i s ((begun i x).setFibre (pushP x (pushW x (begunFib i x) o.d.toNat 4 v) o.k.toNat 4 c)) ∧
      ∀ L, x.act.has L = true → (laneVal x.f v L).toNat = sum L % 2 ^ 64 ∧ (c L = true ↔ 2 ^ 64 ≤ sum L))

/-- R119, R124, R125: `isel`, `lea`, `mov`, `movi` and `movh`. `movh` needs a U source when some lane is active; otherwise it takes an
illegal-instruction fault, which R66 gives. -/
def Obligations.MovesSelectsAndAddresses : Prop :=
  (∀ h p o, LaneResult (.isel h p o) o.d 4 fun x L =>
    if predLane x.f p.toNat L then inSrc x o.t o.a L else inSrc x o.t o.b L) ∧
  (∀ h o, LaneResult (.lea h o) o.d 4 fun x L =>
    inSrc x (ity64 o.uns) o.a L + (inSrc x (ity64 o.uns) o.b L <<< o.k.toNat)) ∧
  (∀ h o, LaneResult (.mov h o) o.d 4 fun x L => inSrc x o.t o.a L) ∧
  (∀ h t d v, SubWhere (.movi h t d v) t.width d 4 fun _ _ _ r => r = truncW t.width v.toInt) ∧
  (∀ h d a (v : BitVec 22) s x, issue? (.movhM h d a v) s = some x →
    if x.act ≠ 0 ∧ plainShape s.dev x.f a.toNat ≠ .u then
      exec (.movhM h d a v) s = .next (finish x (.trap s.dev ⟨2, 0, 0, x.act, 0⟩))
    else ∃ w, Lands (.movhM h d a v) s x d.toNat 4 (.u w) 0 ∧ ∀ L, x.act.has L = true → ∀ b, b < 64 →
      w.getLsbD b = if 22 ≤ b ∧ b < 44 then v.getLsbD (b - 22) else (inReg x a L).getLsbD b) ∧
  (∀ h d a (v : BitVec 20) s x, issue? (.movhH h d a v) s = some x →
    if x.act ≠ 0 ∧ plainShape s.dev x.f a.toNat ≠ .u then
      exec (.movhH h d a v) s = .next (finish x (.trap s.dev ⟨2, 0, 0, x.act, 0⟩))
    else ∃ w, Lands (.movhH h d a v) s x d.toNat 4 (.u w) 0 ∧ ∀ L, x.act.has L = true → ∀ b, b < 64 →
      w.getLsbD b = if 44 ≤ b then v.getLsbD (b - 44) else (inReg x a L).getLsbD b)

/-- R120: `and`, `or`, `xor`, `not` on all 64 bits, and `bmix` bit by bit through its truth table. R128: packing narrow elements and
unpacking them, for the narrow types the instructions have. -/
def Obligations.LogicAndPacking : Prop :=
  ((∀ h o, LaneResult (.and h o) o.d 4 fun x L => inSrc x o.t o.a L &&& inSrc x o.t o.b L) ∧
  (∀ h o, LaneResult (.or h o) o.d 4 fun x L => inSrc x o.t o.a L ||| inSrc x o.t o.b L) ∧
  (∀ h o, LaneResult (.xor h o) o.d 4 fun x L => inSrc x o.t o.a L ^^^ inSrc x o.t o.b L) ∧
  (∀ h o, LaneResult (.not h o) o.d 4 fun x L => ~~~inSrc x o.t o.a L) ∧
  (∀ h tt o, LaneWhere (.bmix h tt o) o.d 4 fun x L v => ∀ k, k < 64 →
    v.getLsbD k = tt.getLsbD (4 * ((inSrc x o.t o.b L).getLsbD k).toNat + 2 * ((inSrc x o.t o.a L).getLsbD k).toNat +
      ((inReg x o.d L).getLsbD k).toNat))) ∧
  ((∀ h o, o.t.width ≤ 32 → SubResult (.pack h o) o.t.width o.d 4 fun x L j =>
    let n := 32 / o.t.width
    let e := intVal (ITy.wide o.t) (sub (inSrc x (ITy.wide o.t) (if j < n then o.a else o.b) L) (2 * o.t.width) (j % n))
    (truncW o.t.width (if o.sat then satTo o.t e else e), if o.sat = true ∧ satTo o.t e ≠ e then fIO else 0)) ∧
  (∀ h o, o.t.width ≤ 32 → SubWhere (.unpkLo h o) (2 * o.t.width) o.d 4 fun x L k r => r = truncW (2 * o.t.width) (srcInt x o.t o.a L k)) ∧
  (∀ h o, o.t.width ≤ 32 → SubWhere (.unpkHi h o) (2 * o.t.width) o.d 4 fun x L k r =>
    r = truncW (2 * o.t.width) (srcInt x o.t o.a L (32 / o.t.width + k))))

/-- R121: the shifts; the count is the second source's sub-element, read unsigned, mod the width. R122: bit-field extract and insert.
R123: counts of bits and the reversal, on each sub-element's bit pattern. -/
def Obligations.ShiftsFieldsAndCounts : Prop :=
  ((∀ h o, SubWhere (.shl h o) o.t.width o.d 4 fun x L j r =>
    r = srcBits x o.t o.a L j * 2 ^ (srcBits x o.t o.b L j % o.t.width) % 2 ^ o.t.width) ∧
  (∀ h o, SubWhere (.shr h o) o.t.width o.d 4 fun x L j r =>
    r = srcBits x o.t o.a L j / 2 ^ (srcBits x o.t o.b L j % o.t.width)) ∧
  (∀ h o, SubWhere (.sar h o) o.t.width o.d 4 fun x L j r =>
    toSigned o.t.width r =
      (toSigned o.t.width (srcBits x o.t o.a L j)).fdiv ((2 ^ (srcBits x o.t o.b L j % o.t.width) : Nat) : Int)) ∧
  (∀ h o, SubWhere (.rot h o) o.t.width o.d 4 fun x L j r => ∀ k, k < o.t.width →
    r.testBit ((k + srcBits x o.t o.b L j % o.t.width) % o.t.width) = (srcBits x o.t o.a L j).testBit k)) ∧
  ((∀ h o, SubWhere (.bfe h o) o.t.width o.d 4 fun x L j r =>
    let b := inSrc x .n64 o.b L
    let pos := field b 0 6
    let len := min (field b 8 7) (o.t.width - pos)
    ∀ k, k < o.t.width → r.testBit k =
      if k < len then (srcBits x o.t o.a L j).testBit (pos + k)
      else o.t.signed && decide (1 ≤ len) && (srcBits x o.t o.a L j).testBit (pos + len - 1)) ∧
  (∀ h o, SubWhere (.bfi h o) o.t.width o.d 4 fun x L j r =>
    let b := inSrc x .n64 o.b L
    let pos := field b 0 6
    let len := min (field b 8 7) (o.t.width - pos)
    ∀ k, k < o.t.width → r.testBit k =
      if pos ≤ k ∧ k < pos + len then (srcBits x o.t o.a L j).testBit (k - pos)
      else (sub (inReg x o.d L) o.t.width j).testBit k)) ∧
  ((∀ h o, SubWhere (.popc h o) o.t.width o.d 4 fun x L j r =>
    r = ((List.range o.t.width).filter fun k => (srcBits x o.t o.a L j).testBit k).length) ∧
  (∀ h o, SubWhere (.clz h o) o.t.width o.d 4 fun x L j r =>
    r ≤ o.t.width ∧ (∀ k, k < r → (srcBits x o.t o.a L j).testBit (o.t.width - 1 - k) = false) ∧
      (r < o.t.width → (srcBits x o.t o.a L j).testBit (o.t.width - 1 - r) = true)) ∧
  (∀ h o, SubWhere (.ctz h o) o.t.width o.d 4 fun x L j r =>
    r ≤ o.t.width ∧ (∀ k, k < r → (srcBits x o.t o.a L j).testBit k = false) ∧
      (r < o.t.width → (srcBits x o.t o.a L j).testBit r = true)) ∧
  (∀ h o, SubWhere (.brev h o) o.t.width o.d 4 fun x L j r => ∀ k, k < o.t.width →
    r.testBit (o.t.width - 1 - k) = (srcBits x o.t o.a L j).testBit k))

/-- R118: `icmp` into a predicate or a vector; it raises no flag. R133: `fcmp` into a predicate or a vector: the condition of the table,
and NV for a signalling NaN, or for any NaN under an ordering condition. +0 and −0 compare equal; under `.ftz` a subnormal compares as
zero. -/
def Obligations.ComparesGiveTheirCondition : Prop :=
  (∀ h t c d a b, CompareResult (.icmp h t c d a b) d t.width 4
    (fun x L j =>
      let u := srcInt x t a L j
      let v := srcInt x t b L j
      match c with
      | .eq => decide (u = v)
      | .ne => decide (u ≠ v)
      | .lt => decide (u < v)
      | .le => decide (u ≤ v)
      | .gt => decide (u > v)
      | .ge => decide (u ≥ v))
    fun _ _ _ => 0) ∧
  (∀ h t ftz c d a b, CompareResult (.fcmp h t ftz c d a b) d t.width 6
    (fun x L j =>
      let u := fval t ftz (inFlt x t a L j)
      let v := fval t ftz (inFlt x t b L j)
      let un := u.isNaN || v.isNaN
      match c with
      | .eq => !un && !fless false u v && !fless false v u
      | .ne => un || fless false u v || fless false v u
      | .lt => !un && fless false u v
      | .le => !un && !fless false v u
      | .gt => !un && fless false v u
      | .ge => !un && !fless false u v
      | .un => un
      | .ord => !un)
    (fun x L j =>
      let u := fval t ftz (inFlt x t a L j)
      let v := fval t ftz (inFlt x t b L j)
      let loud := match c with
        | .lt | .le | .gt | .ge => true
        | .eq | .ne | .un | .ord => false
      if u.isS || v.isS || (loud && (u.isNaN || v.isNaN)) then fNV else 0))

/-- R126, R127: predicate logic, and moves between predicates and vector registers. R100: votes over the active lanes, and matches of a
lane's value against the other active lanes'. -/
def Obligations.PredicatesVotesAndMatches : Prop :=
  ((∀ h tt d a b, PredResult (.plop h tt d a b) d 4 fun x L =>
    tt.getLsbD (2 * (inPred x a L).toNat + (inPred x b L).toNat)) ∧
  (∀ h d a, LaneResult (.p2v h d a) d 4 fun x L => if inPred x a L then 1 else 0) ∧
  (∀ h d, LaneWhere (.p2vAll h d) d 4 fun x L v => ∀ k, k < 64 → v.getLsbD k = (decide (k < 24) && predLane x.f k L)) ∧
  (∀ h d a, PredResult (.v2p h d a) d 4 fun x L => decide (inSrc x .n64 a L ≠ 0)) ∧
  (∀ h a s x, issue? (.v2pAll h a) s = some x →
    Answers (.v2pAll h a) s ((begun (.v2pAll h a) x).setFibre ((List.range 24).foldl
      (fun f k => pushP x f k 4 fun L => (inSrc x .n64 a L).getLsbD k) (begunFib (.v2pAll h a) x))))) ∧
  ((∀ h d p, PredWhere (.voteAny h d p) d 4 fun x _ v => (v = true ↔ ∃ M, x.act.has M = true ∧ inPred x p M = true)) ∧
  (∀ h d p, PredWhere (.voteAll h d p) d 4 fun x _ v => (v = true ↔ ∀ M, x.act.has M = true → inPred x p M = true)) ∧
  (∀ h d p, LaneWhere (.voteMask h d p) d 4 fun x _ v => ∀ M, M < 64 → v.getLsbD M = (x.act.has M && inPred x p M)) ∧
  (∀ h d a, LaneWhere (.matchAny h d a) d 8 fun x L v => ∀ M, M < 64 →
    v.getLsbD M = (x.act.has M && decide (srcReg x.s.dev x.f ⟨a.idx, a.pat, false, false⟩ (.int .n64) M =
      srcReg x.s.dev x.f ⟨a.idx, a.pat, false, false⟩ (.int .n64) L))) ∧
  (∀ h d a, PredWhere (.matchAll h d a) d 8 fun x _ v => (v = true ↔ ∀ M N, x.act.has M = true → x.act.has N = true →
    srcReg x.s.dev x.f ⟨a.idx, a.pat, false, false⟩ (.int .n64) M = srcReg x.s.dev x.f ⟨a.idx, a.pat, false, false⟩ (.int .n64) N)))

/-- R131 to R134, R137 to R139: each sub-element's result and the flags of all active ones, 6 cycles later; `fmin` and `fmax` give an
operand or the canonical NaN, `fclass` one bit. The functions of two encodings are those the statements of rounding, NaNs and signs below
are about. R140: `fflag` COMPLETES from every state in which it issues (`exec` answers a next state): with a lane active it sends the old
flags with shape U and clears the masked ones; with none it does neither. It issues only when no flight of its fibre will still raise a
flag. -/
def Obligations.FloatResultsAndFlags : Prop :=
  ((∀ h o, SubResult (.fadd h o) o.t.width o.d 6 fun x L j => faddR o.t o.rnd o.ftz (inFlt x o.t o.a L j) (inFlt x o.t o.b L j)) ∧
  (∀ h o, SubResult (.fsub h o) o.t.width o.d 6 fun x L j => fsubR o.t o.rnd o.ftz (inFlt x o.t o.a L j) (inFlt x o.t o.b L j)) ∧
  (∀ h o, SubResult (.fmul h o) o.t.width o.d 6 fun x L j => fmulR o.t o.rnd o.ftz (inFlt x o.t o.a L j) (inFlt x o.t o.b L j)) ∧
  (∀ h o, SubResult (.ffma h o) o.t.width o.d 6 fun x L j =>
    fmaR o.t o.t o.rnd o.ftz [(inFlt x o.t o.a L j, inFlt x o.t o.b L j)] (sub (inReg x o.d L) o.t.width j)) ∧
  (∀ h o, SubResult (.fmin h o) o.t.width o.d 6 fun x L j => fminmaxR o.t false o.ftz (inFlt x o.t o.a L j) (inFlt x o.t o.b L j)) ∧
  (∀ h o, SubResult (.fmax h o) o.t.width o.d 6 fun x L j => fminmaxR o.t true o.ftz (inFlt x o.t o.a L j) (inFlt x o.t o.b L j)) ∧
  (∀ h t d a, SubWhere (.fclass h t d a) t.width d 6 fun x L j r => r = 2 ^ fclassR t (inFlt x t a L j)) ∧
  (∀ h o, SubResult (.frnd h o) o.t.width o.d 6 fun x L j => frndR o.t o.rnd o.ftz false (inFlt x o.t o.a L j)) ∧
  (∀ h o, SubResult (.frndX h o) o.t.width o.d 6 fun x L j => frndR o.t o.rnd o.ftz true (inFlt x o.t o.a L j)) ∧
  (∀ h t rnd ftz d a b, SubResult (.fscale h t rnd ftz d a b) t.width d 6 fun x L j =>
    fscaleR t rnd ftz (inFlt x t a L j) (toSigned t.width (srcBits x (sintOf t.width) b L j))) ∧
  (∀ h bf rnd ftz d a b, SubResult (.fdot2 h bf rnd ftz d a b) 32 d 6 fun x L j =>
    let t : FTy := if bf then .bf16 else .f16
    fmaR t .f32 rnd ftz [(inFlt x t a L (2 * j), inFlt x t b L (2 * j)), (inFlt x t a L (2 * j + 1), inFlt x t b L (2 * j + 1))]
      (sub (inReg x d L) 32 j))) ∧
  ((∀ h d (mask : BitVec 7) s x, issue? (.fflag h d mask) s = some x → x.act = 0 →
    exec (.fflag h d mask) s = .next (s.withDev (begun (.fflag h d mask) x))) ∧
  (∀ h d (mask : BitVec 7) s x, issue? (.fflag h d mask) s = some x → x.act ≠ 0 →
    exec (.fflag h d mask) s = .next (s.withDev
      ((sendResult x (begun (.fflag h d mask) x) true true [d.toNat] 0 fun _ => [x.f.fflags]).setFibre
        { begunFib (.fflag h d mask) x with fflags := x.f.fflags &&& ~~~(mask.setWidth 64) }))) ∧
  (∀ h d (mask : BitVec 7) s x, issue? (.fflag h d mask) s = some x →
    ∀ g, g ∈ s.dev.flights → g.fib = x.f.uid → g.raises = false))

/-- R136: `fcvt`, `f2i` and `i2f`: which elements are read, which are written with the conversion of R30, which are kept. -/
def Obligations.ConversionsReadAndWriteTheirElements : Prop :=
  (∀ h s' hi o, ConvResult (.fcvt h s' hi o) s'.width o.t.width hi o.d (fun x L j => inFlt x s' o.a L j) (fcvtR s' o.t o.rnd o.ftz)) ∧
  (∀ h t s' hi rnd ftz d a, ConvResult (.f2i h t s' hi rnd ftz d a) s'.width t.width hi d (fun x L j => inFlt x s' a L j)
    (f2iR s' t rnd ftz)) ∧
  (∀ h t s' hi rnd ftz d a, ConvResult (.i2f h t s' hi rnd ftz d a) s'.width t.width hi d (fun x L j => srcBits x s' a L j)
    fun u => i2fR t rnd ftz (intVal s' u))

/-- R131, R135, R46: `fdiv`, `fsqrt` and the approximate functions are variable-latency: their results and flags are sent on their way.
The value of an approximate function inside R40's bound is free (assumption 13). -/
def Obligations.SpecialFunctionsSendTheirResults : Prop :=
  (∀ h o, LateResult (.fdiv h o) o.t.width o.d fun x L j => fdivR o.t o.rnd o.ftz (inFlt x o.t o.a L j) (inFlt x o.t o.b L j)) ∧
  (∀ h o, LateResult (.fsqrt h o) o.t.width o.d fun x L j => fsqrtR o.t o.rnd o.ftz (inFlt x o.t o.a L j)) ∧
  (∀ h o, LateResult (.frcp h o) o.t.width o.d fun x L j => approxR .rcp o.t o.ftz (inFlt x o.t o.a L j)) ∧
  (∀ h o, LateResult (.frsq h o) o.t.width o.d fun x L j => approxR .rsq o.t o.ftz (inFlt x o.t o.a L j)) ∧
  (∀ h o, LateResult (.fexp2 h o) o.t.width o.d fun x L j => approxR .exp2 o.t o.ftz (inFlt x o.t o.a L j)) ∧
  (∀ h o, LateResult (.flog2 h o) o.t.width o.d fun x L j => approxR .log2 o.t o.ftz (inFlt x o.t o.a L j)) ∧
  (∀ h o, LateResult (.fsin h o) o.t.width o.d fun x L j => approxR .sin o.t o.ftz (inFlt x o.t o.a L j)) ∧
  (∀ h o, LateResult (.fcos h o) o.t.width o.d fun x L j => approxR .cos o.t o.ftz (inFlt x o.t o.a L j))

/-- R141 to R144: `lpull` reads elements of the row of all lanes, `lpush` sends elements to the lanes that hold a thread, the highest
logical thread and then the highest sub-element winning, over those lanes as they stand when the result lands; `lred` and `lscan` combine
the active lanes. The index is read at the instruction's type, beside a float type at the unsigned type of its width (assumption 57).
R144: the combination of a set of elements: the identity of an empty one; an integer sum wrapped or saturated; the least or greatest
element; the bitwise operations. -/
def Obligations.CrossLaneMovesAndCombinations : Prop :=
  ((∀ h t d a b, SubWhere (.lpull h t d a b) t.width d 8 fun x L j r =>
    let S := 64 / t.width
    let k := inNum x (indexTy t) b L j % (x.f.width * S)
    r = inNum x t a (k / S) (k % S)) ∧
  (∀ h t d a b s x, issue? (.lpush h t d a b) s = some x →
    let i : Instr := .lpush h t d a b
    let S := 64 / t.width
    let aims := fun L j M k => x.act.has L = true ∧ M < 64 ∧ j < S ∧ (x.f.thread M).life ≠ .empty ∧
      inNum x (indexTy t) b L j % (x.f.width * S) = M * S + k ∧ k < S
    let beats := fun L j L' j' => logicalOf x.f L < logicalOf x.f L' ∨
      (logicalOf x.f L = logicalOf x.f L' ∧ (L < L' ∨ (L = L' ∧ j ≤ j')))
    ((d = 255#8 ∨ ∀ L j M k, ¬aims L j M k) ∧ Answers i s (begun i x)) ∨
    (d ≠ 255#8 ∧ ∃ p : PendW, p.land = s.clk.cycle + 8 ∧ p.reg = d.toNat ∧ p.path = x.c.lanes ∧ p.full = false ∧ p.pc = x.c.pc ∧
      (∀ M, M < 64 → (p.lanes.has M = true ↔ ∃ L j k, aims L j M k)) ∧
      Answers i s ((begun i x).setFibre { begunFib i x with pendW := x.f.pendW ++ [p] }) ∧
      ∀ old M, M < x.f.width → M < 64 → p.lanes.has M = true → ∀ k, k < S →
        (∀ L j, aims L j M k → (∀ L' j', aims L' j' M k → beats L' j' L j) →
          sub ((p.over old).lane M) t.width k = inNum x t a L j) ∧
        ((∀ L j, ¬aims L j M k) → sub ((p.over old).lane M) t.width k = sub (old.lane M) t.width k))) ∧
  (∀ h op t rnd ftz sat d a, SubResult (.lred h op t rnd ftz sat d a) t.width d 8 fun x _ j =>
    combine op t rnd ftz sat (x.act.lanes.map fun M => inNum x t a M j)) ∧
  (∀ h op ex t rnd ftz sat d a, SubResult (.lscan h op ex t rnd ftz sat d a) t.width d 8 fun x L j =>
    combine op t rnd ftz sat ((x.act.lanes.filter fun M => if ex then decide (M < L) else decide (M ≤ L)).map fun M => inNum x t a M j))) ∧
  ((∀ op t rnd ftz sat, combine op t rnd ftz sat [] = (redIdent op t, 0)) ∧
  (∀ t rnd ftz sat v vs, combine .add (.int t) rnd ftz sat (v :: vs) =
    let n := ((v :: vs).map (intVal t)).sum
    if sat then (truncW t.width (satTo t n), if satTo t n = n then 0 else fIO) else (truncW t.width n, 0)) ∧
  (∀ t rnd ftz sat v vs, let r := combine .min (.int t) rnd ftz sat (v :: vs)
    r.1 ∈ v :: vs ∧ r.2 = 0 ∧ ∀ u, u ∈ v :: vs → intVal t r.1 ≤ intVal t u) ∧
  (∀ t rnd ftz sat v vs, let r := combine .max (.int t) rnd ftz sat (v :: vs)
    r.1 ∈ v :: vs ∧ r.2 = 0 ∧ ∀ u, u ∈ v :: vs → intVal t u ≤ intVal t r.1) ∧
  (∀ t rnd ftz sat v vs k,
    ((combine .and t rnd ftz sat (v :: vs)).1.testBit k = true ↔ ∀ u, u ∈ v :: vs → u.testBit k = true) ∧
    ((combine .or t rnd ftz sat (v :: vs)).1.testBit k = true ↔ ∃ u, u ∈ v :: vs ∧ u.testBit k = true) ∧
    ((combine .xor t rnd ftz sat (v :: vs)).1.testBit k = true ↔ ((v :: vs).filter fun u => u.testBit k).length % 2 = 1)))

/-- R145, R146: random bits from seed and index: the words of the ChaCha8 block, and the floats of their upper bits exactly; quantising a
group of 16 elements into a block and back, the whole source read before any write, every register of the group G, with the fields and flags
of R36 and the values of R33, R35 and R37. -/
def Obligations.RandomBitsAndQuantising : Prop :=
  (∀ h d a b, LaneResult (.rnd h d a b) d 8 fun x L => chacha8 (inSrc x .n64 a L) (inSrc x .n64 b L)) ∧
  (∀ h d a b, SubWhere (.rndF32 h d a b) 32 d 8 fun x L j r =>
    Encodes .f32 r false ((sub (chacha8 (inSrc x .n64 a L) (inSrc x .n64 b L)) 32 j / 2 ^ 8 : Nat) * 2 ^ (-24 : ℤ))) ∧
  (∀ h d a b, SubWhere (.rndF64 h d a b) 64 d 8 fun x L _ r =>
    Encodes .f64 r false (((chacha8 (inSrc x .n64 a L) (inSrc x .n64 b L)).toNat / 2 ^ 11 : Nat) * 2 ^ (-53 : ℤ))) ∧
  (∀ seed idx : Word, let q := idx.toNat % 8
    chacha8 seed idx = (rfcWord seed idx (2 * q + 1)) ++ (rfcWord seed idx (2 * q))) ∧
  (∀ bm ftz xs, bm = 2 ∨ bm = 4 ∨ bm = 7 → xs.length = 16 → (∀ y, y ∈ xs → y < 2 ^ 32) → IsQnt bm ftz xs (qntR bm ftz xs)) ∧
  (∀ bm blk i, bm = 2 ∨ bm = 4 ∨ bm = 7 → i < 16 → IsDqnt bm blk i (dqntR bm blk i)) ∧
  (∀ h t rnd ftz d (a : Reg) s x, issue? (.qnt h t rnd ftz d a) s = some x →
    let i : Instr := .qnt h t rnd ftz d a
    let blk := fun L => qntR t.m ftz ((List.range 16).map fun k => sub (regLane s.dev x.f (a.toNat + k / 2) L) 32 (k % 2))
    ∃ fl, Answers i s ((begun i x).setFibre (raise (pushGroup x (begunFib i x) d.toNat t.regs 8 fun L => (blk L).1) fl)) ∧
      ∀ b, fl.getLsbD b = true ↔ ∃ L, x.act.has L = true ∧ (blk L).2.getLsbD b = true) ∧
  (∀ h t rnd ftz d (a : Reg) s x, issue? (.dqnt h t rnd ftz d a) s = some x →
    let i : Instr := .dqnt h t rnd ftz d a
    ∃ val : Nat → Nat, Answers i s ((begun i x).setFibre (pushGroup x (begunFib i x) d.toNat 8 8 val)) ∧
      ∀ L k, k < 16 → val L / 2 ^ (32 * k) % 2 ^ 32 =
        dqntR t.m (ofSubs 64 ((List.range t.regs).map fun n => (regLane s.dev x.f (a.toNat + n) L).toNat)) k % 2 ^ 32)

/-- R27: rounding a significand divided by a power of two to an integer: to nearest with ties to even, toward zero, up or down by the
sign, and inexact exactly when the value changes. A value that its format represents is its own rounding, in every mode, and raises
nothing. R27, R28: every other value is rounded once from the exact number, with the overflow table of R27, tininess after rounding and
the flush of `.ftz` (`IsRounded`); the sum, the product, the fused product and sum with one pair or two, the quotient, the square root, the
conversions and the scaling of finite inputs round the exact real result, with the zero signs of R28. R30: a float rounds to an integer by
the mode. R29: every NaN a float operation gives is the canonical quiet NaN of its format; a NaN input of an operation that computes gives
it; NV is raised for a signalling one. -/
def Obligations.RoundingAndNaNs : Prop :=
  (∀ (neg : Bool) (m k : Nat),
    (let q := (rndShift .rn neg m k).1
     2 * (q * 2 ^ k) ≤ 2 * m + 2 ^ k ∧ 2 * m ≤ 2 * (q * 2 ^ k) + 2 ^ k ∧
       (2 * (q * 2 ^ k) = 2 * m + 2 ^ k ∨ 2 * m = 2 * (q * 2 ^ k) + 2 ^ k → q % 2 = 0)) ∧
    (let q := (rndShift .rz neg m k).1; q * 2 ^ k ≤ m ∧ m < (q + 1) * 2 ^ k) ∧
    (let q := (rndShift .rp neg m k).1
     if neg then q * 2 ^ k ≤ m ∧ m < (q + 1) * 2 ^ k else m ≤ q * 2 ^ k ∧ q * 2 ^ k < m + 2 ^ k) ∧
    (let q := (rndShift .rm neg m k).1
     if neg then m ≤ q * 2 ^ k ∧ q * 2 ^ k < m + 2 ^ k else q * 2 ^ k ≤ m ∧ m < (q + 1) * 2 ^ k) ∧
    ∀ r, ((rndShift r neg m k).2 = true ↔ (rndShift r neg m k).1 * 2 ^ k ≠ m)) ∧
  (∀ t r x neg m e, x < 2 ^ t.width → fval t false x = .fin neg m e → roundTo t r false neg m e = (x, 0)) ∧
  ((∀ t r ftz neg m e, (m = 0 → roundTo t r ftz neg m e = (signBit t neg, 0)) ∧
    (m ≠ 0 → IsRounded t r ftz neg (m * 2 ^ e) (roundTo t r ftz neg m e))) ∧
  (∀ t r ftz x y, finite (fval t ftz x) = true → finite (fval t ftz y) = true →
    IsSum t r ftz [fval t ftz x, fval t ftz y] (faddR t r ftz x y) ∧
    IsSum t r ftz [fval t ftz x, (fval t ftz y).negate] (fsubR t r ftz x y)) ∧
  (∀ t r ftz x y s m e u n f, fval t ftz x = .fin s m e → fval t ftz y = .fin u n f →
    (m * n = 0 → fmulR t r ftz x y = (signBit t (s != u), 0)) ∧
    (m * n ≠ 0 → IsRounded t r ftz (s != u) ((m * 2 ^ e) * (n * 2 ^ f)) (fmulR t r ftz x y)) ∧
    (m = 0 → n ≠ 0 → fdivR t r ftz x y = (signBit t (s != u), 0)) ∧
    (m ≠ 0 → n ≠ 0 → IsRounded t r ftz (s != u) ((m * 2 ^ e) / (n * 2 ^ f)) (fdivR t r ftz x y)) ∧
    (m ≠ 0 → n = 0 → fdivR t r ftz x y = (signBit t (s != u) + FTy.inf t, fDZ))) ∧
  (∀ t r ftz x s m e, fval t ftz x = .fin s m e →
    (m = 0 → fsqrtR t r ftz x = (signBit t s, 0)) ∧
    (m ≠ 0 → s = false → IsRounded t r ftz false (Real.sqrt (m * 2 ^ e)) (fsqrtR t r ftz x)) ∧
    (∀ k : Int, (m = 0 → fscaleR t r ftz x k = (signBit t s, 0)) ∧
      (m ≠ 0 → IsRounded t r ftz s (m * 2 ^ e * 2 ^ k) (fscaleR t r ftz x k)))) ∧
  (∀ s t r ftz x y z, finite (fval s ftz x) = true → finite (fval s ftz y) = true → finite (fval t ftz z) = true →
    IsSum t r ftz [prodOf (fval s ftz x) (fval s ftz y), fval t ftz z] (fmaR s t r ftz [(x, y)] z) ∧
    ∀ u v, finite (fval s ftz u) = true → finite (fval s ftz v) = true →
      IsSum t r ftz [prodOf (fval s ftz x) (fval s ftz y), prodOf (fval s ftz u) (fval s ftz v), fval t ftz z]
        (fmaR s t r ftz [(x, y), (u, v)] z)) ∧
  (∀ s t r ftz x neg m e, fval s ftz x = .fin neg m e → (m = 0 → fcvtR s t r ftz x = (signBit t neg, 0)) ∧
    (m ≠ 0 → IsRounded t r ftz neg (m * 2 ^ e) (fcvtR s t r ftz x))) ∧
  (∀ t r ftz (v : Int), (v = 0 → i2fR t r ftz v = (0, 0)) ∧
    (v ≠ 0 → IsRounded t r ftz (decide (v < 0)) |(v : ℝ)| (i2fR t r ftz v))) ∧
  (∀ s t r ftz x neg m e, fval s ftz x = .fin neg m e → ∃ n : Nat, RoundsTo r neg (m * 2 ^ e) n ∧
    (let v : Int := if neg then -(n : Int) else n
     f2iR s t r ftz x = if ITy.max t < v then (truncW t.width (ITy.max t), fNV)
       else if v < ITy.min t then (truncW t.width (ITy.min t), fNV)
       else (truncW t.width v, if (n : ℝ) = m * 2 ^ e then 0 else fNX)))) ∧
  ((∀ t r ftz x y v, (v = (faddR t r ftz x y).1 ∨ v = (fsubR t r ftz x y).1 ∨ v = (fmulR t r ftz x y).1 ∨ v = (fdivR t r ftz x y).1 ∨
      v = (fsqrtR t r ftz x).1 ∨ v = (frndR t r ftz false x).1 ∨ v = (fminmaxR t false ftz x y).1 ∨ v = (fminmaxR t true ftz x y).1) →
    (fval t false v).isNaN = true → v = FTy.nan t) ∧
  (∀ t r ftz x y z, (fval t false (fmaR t t r ftz [(x, y)] z).1).isNaN = true → (fmaR t t r ftz [(x, y)] z).1 = FTy.nan t) ∧
  (∀ s t r ftz x, (fval t false (fcvtR s t r ftz x).1).isNaN = true → (fcvtR s t r ftz x).1 = FTy.nan t) ∧
  (∀ t r ftz x y, (fval t ftz x).isNaN = true ∨ (fval t ftz y).isNaN = true → ∀ v,
    (v = faddR t r ftz x y ∨ v = fsubR t r ftz x y ∨ v = fmulR t r ftz x y ∨ v = fdivR t r ftz x y) → v.1 = FTy.nan t ∧
      (v.2 = fNV ∨ v.2 = 0) ∧ ((fval t ftz x).isS = true ∨ (fval t ftz y).isS = true → v.2 = fNV)))

/-- R41: the approximate functions at zeros, infinities, values below zero, 1 and NaNs, in every format, with `.ftz` or without. R40: the exact
cases give the exact result and no flag, where the format holds it; every other result lies within the function's bound of the exact one,
or overflows to ∞ of its sign, and raises NX, with UF where it is tiny and OF where it is ∞; beyond 2^20 a sine or cosine is finite and in
[−1, 1]. `aExact` is the exact result of which the bound is taken: for `frcp` and `frsq` it is the real one cut off after 299 bits or more;
that of the other four, which no statement compares with the real functions, is the model's own series. That an exact case whose result is
a subnormal raises nothing is the model's choice (assumption 65). -/
def Obligations.ApproximateSpecialResults : Prop :=
  (∀ (t : FTy) (ftz : Bool) (x : Nat),
    let one := FTy.bias t * 2 ^ FTy.frac t
    let inf := FTy.inf t
    let minus := 2 ^ (t.width - 1)
    let bad := (FTy.nan t, fNV)
    (∀ e, fval t ftz x = .fin false 0 e → approxR .rcp t ftz x = (inf, fDZ) ∧ approxR .rsq t ftz x = (inf, fDZ) ∧
      approxR .exp2 t ftz x = (one, 0) ∧ approxR .log2 t ftz x = (minus + inf, fDZ) ∧ approxR .sin t ftz x = (0, 0) ∧
      approxR .cos t ftz x = (one, 0)) ∧
    (∀ e, fval t ftz x = .fin true 0 e → approxR .rcp t ftz x = (minus + inf, fDZ) ∧ approxR .rsq t ftz x = (minus + inf, fDZ) ∧
      approxR .exp2 t ftz x = (one, 0) ∧ approxR .log2 t ftz x = (minus + inf, fDZ) ∧ approxR .sin t ftz x = (minus, 0) ∧
      approxR .cos t ftz x = (one, 0)) ∧
    (fval t ftz x = .inf false → approxR .rcp t ftz x = (0, 0) ∧ approxR .rsq t ftz x = (0, 0) ∧ approxR .exp2 t ftz x = (inf, 0) ∧
      approxR .log2 t ftz x = (inf, 0) ∧ approxR .sin t ftz x = bad ∧ approxR .cos t ftz x = bad) ∧
    (fval t ftz x = .inf true → approxR .rcp t ftz x = (minus, 0) ∧ approxR .rsq t ftz x = bad ∧ approxR .exp2 t ftz x = (0, 0) ∧
      approxR .log2 t ftz x = bad ∧ approxR .sin t ftz x = bad ∧ approxR .cos t ftz x = bad) ∧
    (∀ m e, m ≠ 0 → fval t ftz x = .fin true m e → approxR .rsq t ftz x = bad ∧ approxR .log2 t ftz x = bad) ∧
    (x = one → approxR .rcp t ftz x = (one, 0) ∧ approxR .rsq t ftz x = (one, 0) ∧ approxR .exp2 t ftz x = (one + 2 ^ FTy.frac t, 0) ∧
      approxR .log2 t ftz x = (0, 0)) ∧
    ∀ sig fn, fval t ftz x = .nan sig → approxR fn t ftz x = (FTy.nan t, if sig then fNV else 0)) ∧
  (∀ (t : FTy) ftz x s m e (n : ℤ), fval t ftz x = .fin s m e → (m : ℚ) * 2 ^ e = 2 ^ n →
    (Holds t ftz (-n) → Encodes t (approxR .rcp t ftz x).1 s (2 ^ (-n)) ∧ (approxR .rcp t ftz x).2 = 0) ∧
    (s = false → ∀ j : ℤ, n = 2 * j → Encodes t (approxR .rsq t ftz x).1 false (2 ^ (-j)) ∧ (approxR .rsq t ftz x).2 = 0) ∧
    (s = false → Encodes t (approxR .log2 t ftz x).1 (decide (n < 0)) |(n : ℚ)| ∧ (approxR .log2 t ftz x).2 = 0)) ∧
  (∀ (t : FTy) ftz x s m e (n : ℤ), fval t ftz x = .fin s m e → ((if s then -1 else 1) * m : ℚ) * 2 ^ e = n → Holds t ftz n →
    Encodes t (approxR .exp2 t ftz x).1 false (2 ^ n) ∧ (approxR .exp2 t ftz x).2 = 0) ∧
  (∀ fn (t : FTy) ftz x s m e, fval t ftz x = .fin s m e → m ≠ 0 → (s = true → fn ≠ .rsq ∧ fn ≠ .log2) →
    (fn = .sin ∨ fn = .cos → (m : ℚ) * 2 ^ e ≤ 2 ^ 20) →
    let y := (aPower fn s m e).getD (aExact fn s m e)
    ((aPower fn s m e).isSome = true ∧ (roundTo t .rn false y.1 y.2.1 y.2.2).2 = 0 → approxR fn t ftz x = roundTo t .rn ftz y.1 y.2.1 y.2.2) ∧
    (aPower fn s m e = none ∨ (roundTo t .rn false y.1 y.2.1 y.2.2).2 ≠ 0 →
      ((FTy.bias t : Int) < (y.2.1.log2 : Int) + y.2.2 → approxR fn t ftz x = (signBit t y.1 + FTy.inf t, fOF ||| fNX)) ∧
      ((y.2.1.log2 : Int) + y.2.2 ≤ FTy.bias t → ∃ c, WithinUlps t (if fn = .rcp ∨ fn = .rsq then 1 else 2) y c ∧
        InexactIs t ftz c (approxR fn t ftz x)))) ∧
  (∀ fn (t : FTy) ftz x s m e, fn = .sin ∨ fn = .cos → fval t ftz x = .fin s m e → (2 : ℚ) ^ 20 < m * 2 ^ e →
    ∃ c u n f, fval t false c = .fin u n f ∧ (n : ℚ) * 2 ^ f ≤ 1 ∧ InexactIs t ftz c (approxR fn t ftz x)) ∧
  (∀ s m e, m ≠ 0 → let y := aExact .rcp s m e
    y.1 = s ∧ 2 ^ 299 ≤ y.2.1 ∧ (y.2.1 : ℝ) * 2 ^ y.2.2 ≤ 1 / (m * 2 ^ e) ∧ 1 / ((m : ℝ) * 2 ^ e) < (y.2.1 + 1) * 2 ^ y.2.2) ∧
  ∀ m e, m ≠ 0 → let y := aExact .rsq false m e
    y.1 = false ∧ 2 ^ 299 ≤ y.2.1 ∧ (y.2.1 : ℝ) * 2 ^ y.2.2 ≤ 1 / Real.sqrt (m * 2 ^ e) ∧
      1 / Real.sqrt ((m : ℝ) * 2 ^ e) < (y.2.1 + 1) * 2 ^ y.2.2

/-- R58, R60: a pair word schedules both halves' results with the latency of each half's class and raises the flags of both; every operand
is read before either half writes. -/
def Obligations.PairWritesBothHalves : Prop :=
  ∀ h (o : PairOp) s x, issue? (.pair h o) s = some x →
    ∃ v0 fl0 v1 fl1,
      Answers (.pair h o) s ((begun (.pair h o) x).setFibre
        (putHalfOut x o.h1 v1 fl1 (putHalfOut x o.h0 v0 fl0 (begunFib (.pair h o) x)))) ∧
      (o.h0.op ≠ .hnop → HalfSays x o.h0 o.t0 o.rnd o.ftz v0 fl0) ∧ (o.h1.op ≠ .hnop → HalfSays x o.h1 o.t1 o.rnd o.ftz v1 fl1)

/-- R97, R94, R326: a transfer with an active lane: where every lane's target is valid, and lane by lane where some are landing violations or
not resident. R65, R98, R99, R107, R44: `nop` and an instruction of this group with no active lane only advance; `exit` ends the active
threads, `fexit` every live thread of the fibre; `yield` passes the slot's turn. -/
def Obligations.TransfersEndsAndYield : Prop :=
  ((∀ h off s x, issue? (.bra h off) s = some x → x.act ≠ 0 → AllValid s x false (fun _ => x.c.pc + 12 * BitVec.ofInt 64 off.toInt) →
    TransferTo (.bra h off) s x (fun _ => x.c.pc + 12 * BitVec.ofInt 64 off.toInt)
      (jumpTo fun _ => x.c.pc + 12 * BitVec.ofInt 64 off.toInt)) ∧
  (∀ h r s x, issue? (.brx h r) s = some x → x.act ≠ 0 → AllValid s x true (inReg x r) →
    TransferTo (.brx h r) s x (inReg x r) (jumpTo (inReg x r))) ∧
  (∀ h off s x, issue? (.call h off) s = some x → x.act ≠ 0 → x.f.stklim.toNat + 16 * (x.c.depth + 1) ≤ x.t.hdr.stack →
    AllValid s x false (fun _ => x.c.pc + 12 * BitVec.ofInt 64 off.toInt) →
    TransferTo (.call h off) s x (fun _ => x.c.pc + 12 * BitVec.ofInt 64 off.toInt)
      (callTo x fun _ => x.c.pc + 12 * BitVec.ofInt 64 off.toInt)) ∧
  (∀ h r s x, issue? (.callx h r) s = some x → x.act ≠ 0 → x.f.stklim.toNat + 16 * (x.c.depth + 1) ≤ x.t.hdr.stack →
    AllValid s x true (inReg x r) → TransferTo (.callx h r) s x (inReg x r) (callTo x (inReg x r))) ∧
  (∀ h s x, issue? (.ret h) s = some x → x.act ≠ 0 → x.c.depth ≠ 0 →
    (∀ L, x.act.has L = true → (x.f.thread L).held ≠ 0) → AllValid s x false (framePc x) →
    TransferTo (.ret h) s x (framePc x) (retTo x (framePc x))) ∧
  (∀ h off s x, issue? (.bra h off) s = some x → x.act ≠ 0 →
    TransferEach (.bra h off) s x false (fun _ => x.c.pc + 12 * BitVec.ofInt 64 off.toInt)
      (jumpTo fun _ => x.c.pc + 12 * BitVec.ofInt 64 off.toInt)) ∧
  (∀ h r s x, issue? (.brx h r) s = some x → x.act ≠ 0 → TransferEach (.brx h r) s x true (inReg x r) (jumpTo (inReg x r))) ∧
  (∀ h off s x, issue? (.call h off) s = some x → x.act ≠ 0 → x.f.stklim.toNat + 16 * (x.c.depth + 1) ≤ x.t.hdr.stack →
    TransferEach (.call h off) s x false (fun _ => x.c.pc + 12 * BitVec.ofInt 64 off.toInt)
      (callTo x fun _ => x.c.pc + 12 * BitVec.ofInt 64 off.toInt)) ∧
  (∀ h r s x, issue? (.callx h r) s = some x → x.act ≠ 0 → x.f.stklim.toNat + 16 * (x.c.depth + 1) ≤ x.t.hdr.stack →
    TransferEach (.callx h r) s x true (inReg x r) (callTo x (inReg x r))) ∧
  (∀ h s x, issue? (.ret h) s = some x → x.act ≠ 0 → x.c.depth ≠ 0 → (∀ L, x.act.has L = true → (x.f.thread L).held ≠ 0) →
    TransferEach (.ret h) s x false (framePc x) (retTo x (framePc x)))) ∧
  ((∀ h s x, issue? (.nop h) s = some x → Answers (.nop h) s (begun (.nop h) x)) ∧
  (∀ h s x, issue? (.exit h) s = some x → Answers (.exit h) s
    (if x.act = 0 then begun (.exit h) x else endThreads (begun (.exit h) x) x.f.uid x.act)) ∧
  (∀ h s x, issue? (.fexit h) s = some x → Answers (.fexit h) s
    (if x.act = 0 then begun (.fexit h) x else endThreads (begun (.fexit h) x) x.f.uid x.f.live)) ∧
  (∀ h s x, issue? (.yield h) s = some x → Answers (.yield h) s
    (if x.act = 0 then begun (.yield h) x
     else passTurn (begun (.yield h) x) s.clk.cycle (s.clk.cycle + 1) x.f.core x.f.quad x.f.slot x.f.pos)) ∧
  (∀ d u f m, d.fibre? u = some f → (∀ L, m.has L = true → (f.thread L).task = none) →
    ∃ f', (endThreads d u m).fibre? u = some f' ∧ (∀ L, L < f.threads.length →
      (f'.thread L).life = if m.has L = true ∧ (f.thread L).life = .live then .exited else (f.thread L).life) ∧
      (endThreads d u m).mem = d.mem ∧ (endThreads d u m).flights = d.flights ∧ f'.regs = f.regs))

/-- R96: the classification of a target: the first row that applies. R94, R44: a `call` or `callx` whose frame would lie below
`sr.stklim`, and a `ret` at depth 0, take a stack-bound fault before any effect when some lane is active; with no active lane every
transfer falls through. -/
def Obligations.TargetsAndStackBound : Prop :=
  (∀ (d : Dev) (core ctx : Nat) (t : Team) (lp : Bool) (a : Word),
    (overlayOf t a = none → classify d core ctx t lp a = .violation 1) ∧
    ∀ base len, overlayOf t a = some (base, len) →
      base.toNat ≤ a.toNat ∧ a.toNat < base.toNat + 12 * len ∧
      ((a.toNat - base.toNat) % 12 ≠ 0 → classify d core ctx t lp a = .violation 2) ∧
      ((a.toNat - base.toNat) % 12 = 0 →
        (residentAt d core ctx base = none → classify d core ctx t lp a = .miss base len) ∧
        ∀ r w, residentAt d core ctx base = some r → r.words[(a.toNat - base.toNat) / 12]? = some w →
          classify d core ctx t lp a =
            if w.extractLsb' 88 8 = 0xF0#8 then .violation 3
            else if lp = true ∧ w.getLsbD 71 = false then .violation 4
            else .valid)) ∧
  ((∀ (i : Instr) h s x, ((∃ off, i = .call h off) ∨ ∃ r, i = .callx h r) → issue? i s = some x → x.act ≠ 0 →
    x.t.hdr.stack < x.f.stklim.toNat + 16 * (x.c.depth + 1) →
    exec i s = .next (finish x (.trap s.dev
      ⟨4, 0, BitVec.ofInt 64 ((x.t.hdr.stack : Int) - 16 * ((x.c.depth : Int) + 1)), x.act, 0⟩))) ∧
  (∀ h s x, issue? (.ret h) s = some x → x.act ≠ 0 → x.c.depth = 0 →
    exec (.ret h) s = .next (finish x (.trap s.dev ⟨4, 0, 0, x.act, 0⟩))) ∧
  (∀ (i : Instr) h s x, ((∃ off, i = .bra h off) ∨ (∃ r, i = .brx h r) ∨ (∃ off, i = .call h off) ∨ (∃ r, i = .callx h r) ∨ i = .ret h) →
    issue? i s = some x → x.act = 0 → Answers i s (begun i x)))

/-- R106: `fspawn` with an active lane. A target that is a landing violation faults before any effect. Otherwise a helper is created in
the lowest free context of the slot when the fibre is not ganged and the register file has room, and every active lane's predicate tells.
With no active lane nothing happens. R106: the helper that a spawn creates: in the spawner's slot and block, ready four cycles later,
active lanes hold threads at the target with depth 0 and false predicates, other lanes none; its v0, private or a window register, holds
the operand, and every other register of its own file U 0. That its float flags are 0 at first is the model's choice (assumption 7): R106
does not say. -/
def Obligations.FspawnCreatesAHelper : Prop :=
  (∀ h p (a : Reg) off s x, issue? (.fspawn h p a off) s = some x →
    let i : Instr := .fspawn h p a off
    let tgt := x.c.pc + 12 * BitVec.ofInt 64 off.toInt
    let helpers := ((begun i x).fibres.filter fun g => g.team == x.t.uid && g.helper).length
    let free := fun c => ∀ g, g ∈ (begun i x).fibres →
      ¬(g.core = x.f.core ∧ g.quad = x.f.quad ∧ g.slot = x.f.slot ∧ g.pos = c ∧ g.block = x.f.block)
    let room := x.f.width ≠ 64 ∧
      rfBytes x.t.hdr x.t.size + (helpers + 1) * x.f.width * 8 * (x.f.nAlloc - x.f.nWin) ≤ x.t.hdr.rf * 16384
    (x.act = 0 → Answers i s (begun i x)) ∧
    (x.act ≠ 0 → ∀ r, classify s.dev x.f.core x.f.ctx x.t false tgt = .violation r →
      exec i s = .next (finish x (.trap s.dev (landingFault (x.act.lanes.map fun L => (L, r)))))) ∧
    (x.act ≠ 0 → (∀ r, classify s.dev x.f.core x.f.ctx x.t false tgt ≠ .violation r) →
      (∀ c, c < 4 → free c → (∀ c', c' < c → ¬free c') → room →
        Answers i s (sendPred x (spawn x (begun i x) a.toNat c tgt) p fun _ => true)) ∧
      ((∀ c, c < 4 → ¬free c) ∨ ¬room → Answers i s (sendPred x (begun i x) p fun _ => false)))) ∧
  (∀ (x : Iss) (d : Dev) (f : Fibre) (a : Reg) (c : Nat) (tgt : Word), d.fibre? x.f.uid = some f → d.fibre? d.nextId = none →
    d.team? x.t.uid = some x.t → f.width ≤ 64 →
    ∃ g, (spawn x d a.toNat c tgt).fibre? d.nextId = some g ∧ g.helper = true ∧ g.readyAt = x.s.clk.cycle + 4 ∧ g.pos = c ∧
      g.core = x.t.core ∧ g.quad = f.quad ∧ g.slot = f.slot ∧ g.block = f.block ∧ g.grp = f.grp ∧ g.fflags = 0 ∧
      g.stklim = BitVec.ofNat 64 x.t.hdr.stack ∧
      (∀ L, L < f.width → (g.thread L).life = (if x.act.has L then .live else .empty) ∧ (g.thread L).pc = tgt ∧ (g.thread L).depth = 0 ∧
        (g.thread L).preds = 0 ∧ (g.thread L).logical = helperIndex f c L) ∧
      (HasReg (spawn x d a.toNat c tgt) g 0 → ∀ L, x.act.has L = true → L < f.width →
        regLane (spawn x d a.toNat c tgt) g 0 L = regLane d f a.toNat L) ∧
      ∀ k, k ≠ 0 ∨ g.isWindow 0 = true → g.regs.getD k (.u 0) = .u 0)

/-- R109, R112: the fibre barrier's instructions. A lane whose arrival in the open phase stands waits at an arriving instruction; the
others arrive, and with `.sync` wait; `fbar.wait` waits for the recorded phase while it is open; the phase completes once every live
thread has arrived. `fstat` sends its status word with shape U. R109: what an arrival, a wait and the check of the phase do: the arriving
lanes hold an arrival and record the open phase; lanes that recorded the open phase wait and the others go on; the phase completes exactly
when the group has a live thread and every live thread has arrived, and then its number advances by 1, its arrivals are cleared and its
waiters, held arrivals among them, go on. -/
def Obligations.FibreBarriers : Prop :=
  ((∀ h s x, issue? (.fbarArrive h) s = some x → x.act = 0 → Answers (.fbarArrive h) s (begun (.fbarArrive h) x)) ∧
  (∀ h s x, issue? (.fbarSync h) s = some x → x.act = 0 → Answers (.fbarSync h) s (begun (.fbarSync h) x)) ∧
  (∀ h s x, issue? (.fbarWait h) s = some x → x.act = 0 → Answers (.fbarWait h) s (begun (.fbarWait h) x)) ∧
  (∀ h s x, issue? (.fbarArrive h) s = some x → x.act ≠ 0 → (∀ L, x.act.has L = true → (x.f.thread L).fbArr = false) →
    Answers (.fbarArrive h) s (checkFbar (fbarArrive x (begun (.fbarArrive h) x) x.act) x.f.grp)) ∧
  (∀ h s x, issue? (.fbarSync h) s = some x → x.act ≠ 0 → (∀ L, x.act.has L = true → (x.f.thread L).fbArr = false) →
    Answers (.fbarSync h) s (checkFbar (fbarWait x (fbarArrive x (begun (.fbarSync h) x) x.act) x.act) x.f.grp)) ∧
  (∀ (i : Instr) h (sync : Bool) s x, i = (if sync then .fbarSync h else .fbarArrive h) → issue? i s = some x → x.act ≠ 0 →
    let held := lanesWhere fun L => x.act.has L && (x.f.thread L).fbArr
    let go := x.act &&& ~~~held
    let d := fbarArrive x ((begun i x).setFibre ((begunFib i x).onLanes held fun _ t =>
      { t with pc := x.c.pc, depth := x.c.depth, wait := .fbarHeld (s.dev.group x.f.grp).phase })) go
    Answers i s (checkFbar (if sync then fbarWait x d go else d) x.f.grp)) ∧
  (∀ h s x, issue? (.fbarWait h) s = some x → x.act ≠ 0 → Answers (.fbarWait h) s (fbarWait x (begun (.fbarWait h) x) x.act)) ∧
  (∀ h d s x, issue? (.fstat h d) s = some x → Answers (.fstat h d) s
    (if x.act = 0 then begun (.fstat h d) x
     else sendResult x (begun (.fstat h d) x) true true [d.toNat] 0 fun _ => [statWord x (begun (.fstat h d) x)]))) ∧
  ((∀ (x : Iss) (d : Dev) (f : Fibre) (m : LaneMask), d.fibre? x.f.uid = some f →
    ∃ f', (fbarArrive x d m).fibre? x.f.uid = some f' ∧ ∀ L, L < f.threads.length →
      (f'.thread L).fbArr = (m.has L || (f.thread L).fbArr) ∧
      (f'.thread L).fbRec = if m.has L then some (d.group f.grp).phase else (f.thread L).fbRec) ∧
  (∀ (x : Iss) (d : Dev) (f : Fibre) (m : LaneMask), d.fibre? x.f.uid = some f →
    ∃ f', (fbarWait x d m).fibre? x.f.uid = some f' ∧ ∀ L, L < f.threads.length → L < 64 →
      (f'.thread L).wait = if m.has L = true ∧ (f.thread L).fbRec = some (d.group f.grp).phase then .fbar (d.group f.grp).phase
        else (f.thread L).wait) ∧
  (∀ (d : Dev) (grp : Nat) (g : Group), d.groups.find? (fun h => h.uid == grp) = some g →
    let done := (∃ f t, f ∈ d.fibres ∧ f.grp = grp ∧ t ∈ f.threads ∧ t.life = .live) ∧
      ∀ f t, f ∈ d.fibres → f.grp = grp → t ∈ f.threads → t.life = .live → t.fbArr = true
    (¬done → checkFbar d grp = d) ∧
    (done → ((checkFbar d grp).group grp).phase = g.phase + 1 ∧
      ∀ f t, f ∈ (checkFbar d grp).fibres → f.grp = grp → t ∈ f.threads →
        t.fbArr = false ∧ t.wait ≠ .fbar g.phase ∧ t.wait ≠ .fbarHeld g.phase)))

/-- R223, R231, R232: the named barriers' instructions. Arrivals are taken lane by lane in logical order, when no active thread's arrival
stands and the count agrees; a bad count is an illegal instruction before any effect; `bars` and `barw` wait for the recorded phase. R222,
R223, R225: one thread arrival fixes N, adds 1 to Arrived and completes the phase when Landed equals Joined and Arrived equals N: the
phase advances by 1 and N, Arrived, Joined and Landed become 0. A wait leaves threads with a recorded phase waiting, the others not. -/
def Obligations.NamedBarriers : Prop :=
  ((∀ (i : Instr) h (b : BitVec 4) a s x (sync : Bool), i = (if sync then .bars h b a else .barv h b a) → issue? i s = some x →
    let n := (srcZ s.dev x.f x.t ((lowestLane x.act).getD 0) a).toNat
    let v := x.t.bar b.toNat
    let arrived := (logicalOrder x.f x.act.lanes).foldl (arriveLane x.t.uid b.toNat n x.f.uid) (begun i x)
    (x.act = 0 → Answers i s (begun i x)) ∧
    (x.act ≠ 0 → (srcU s.dev x.f a = false ∨ n < 1 ∨ 1024 < n) → exec i s = .next (finish x (.trap s.dev ⟨2, 0, 0, x.act, 0⟩))) ∧
    (x.act ≠ 0 → srcU s.dev x.f a = true → 1 ≤ n → n ≤ 1024 → (∀ L, x.act.has L = true → (x.f.thread L).arrd.getLsbD b.toNat = false) →
      (v.n ≠ 0 ∧ v.n ≠ n → exec i s = .next (finish x (.trap s.dev ⟨2, 0, 0, x.act, 0⟩))) ∧
      (v.n = 0 ∨ v.n = n → Answers i s (if sync then waitLanes x arrived b.toNat else arrived)))) ∧
  (∀ h (b : BitVec 4) s x, issue? (.barw h b) s = some x → Answers (.barw h b) s
    (if x.act = 0 then begun (.barw h b) x else waitLanes x (begun (.barw h b) x) b.toNat)) ∧
  (∀ h p (b : BitVec 4) s x, issue? (.barq h p b) s = some x →
    let i : Instr := .barq h p b
    let clear := fun L => !(x.f.thread L).recd.getLsbD b.toNat
    Answers i s (if x.act = 0 then begun i x
      else sendPred x (acquire (begun i x) x.f.uid (lanesWhere fun L => x.act.has L && clear L) false (x.t.bar b.toNat).ids
        (x.t.bar b.toNat).know) p clear)) ∧
  (∀ h d (b : BitVec 4) s x, issue? (.barqSt h d b) s = some x →
    let i : Instr := .barqSt h d b
    let v := x.t.bar b.toNat
    Answers i s (if x.act = 0 then begun i x
      else sendResult x (begun i x) true true [d.toNat] 0 fun _ => [BitVec.ofNat 64
        (v.arrived % 2 ^ 11 + 2 ^ 11 * (v.n % 2 ^ 11) + 2 ^ 22 * ((v.joined - v.landed) % 2 ^ 5) + 2 ^ 32 * v.phase.toNat)]))) ∧
  ((∀ (d : Dev) team b n fib L (t : Team) (f : Fibre), d.team? team = some t → d.fibre? fib = some f → b < t.bars.length → 1 ≤ n →
    let v := t.bar b
    let n' := if v.n = 0 then n else v.n
    ∃ t', (arriveLane team b n fib d L).team? team = some t' ∧
      if v.landed = v.joined ∧ v.arrived + 1 = n' then
        (t'.bar b).phase = v.phase + 1 ∧ (t'.bar b).n = 0 ∧ (t'.bar b).arrived = 0 ∧ (t'.bar b).joined = 0 ∧ (t'.bar b).landed = 0
      else (t'.bar b).phase = v.phase ∧ (t'.bar b).n = n' ∧ (t'.bar b).arrived = v.arrived + 1 ∧ (t'.bar b).joined = v.joined ∧
        (t'.bar b).landed = v.landed) ∧
  (∀ (x : Iss) (d : Dev) b (f : Fibre), d.fibre? x.f.uid = some f → b < 16 →
    ∃ f', (waitLanes x d b).fibre? x.f.uid = some f' ∧ ∀ L, L < f.threads.length → L < 64 →
      (f'.thread L).wait = if x.act.has L = true ∧ (f.thread L).recd.getLsbD b = true then .bar b else (f.thread L).wait))

/-- R169, R155, R44: `ld`. With no active lane it does nothing; when every lane's access passes, one flight goes on its way for all of
them, in logical order, with the bytes of the thread's own stack and of its task's buffer fixed at issue; it goes behind one more flight
for each lane whose access straddles a page boundary, which brings that lane's bytes of the first page. -/
def Obligations.LoadsSendOneAccessForEveryLane : Prop :=
  ∀ h (o : MemOp) s x, issue? (.ld h o) s = some x →
    let i : Instr := .ld h o
    let n := sizeBytes o.t o.size
    (x.act = 0 → Answers i s (begun i x)) ∧
    ∀ gs d, x.act ≠ 0 → Passes i x o.sp (askLoad o) o.addr gs d → Unwatched x o.sp (askLoad o) gs d → Unbusy x gs d →
      let acc := gs.map fun g => match o.sp with
        | .g => forward x.f (g.acc [] [])
        | .sp => g.acc [] []
        | .stk => { g.acc [] [] with
            places := (memBytes (x.f.thread g.lane).stack g.va.toNat n).map .lit, kinds := List.replicate n 0 }
      let dst := (List.range (sizeRegs o.size)).map fun k => o.d.toNat + k
      let two := acc.filter LaneAcc.straddles
      (two = [] → Answers i s (sendAccess x d (.load o.t o.size) o.ord o.sc dst acc)) ∧
      (two ≠ [] → Answers i s (sendBehind x
        (two.foldl (fun d' a => sendAccess x d' (.piece (d.nextId + two.length)) o.ord o.sc [] [a.part1]) d)
        ((List.range two.length).map fun k => d.nextId + k) (.load o.t o.size) o.ord o.sc dst (acc.map LaneAcc.rest)))

/-- R169, R155, R156, R247, R44: `st` and `st.mc`. A `.sp` store, and a `.g` store outside a task, goes on its way with its bytes, in one
flight where no lane straddles a page boundary and otherwise in one for each page of each lane; a task's `.g` store goes to its buffer; a
`.stk` store writes the thread's own stack at once. -/
def Obligations.StoresSendTheirBytes : Prop :=
  ∀ (i : Instr) h (mc : Bool) (o : MemOp) s x, i = (if mc then .stMc h o else .st h o) → issue? i s = some x →
    let n := sizeBytes o.t o.size
    let bytes := fun L => (((List.range (sizeRegs o.size)).flatMap fun k =>
      wordLE (regLane s.dev x.f (o.d.toNat + k) L)).take n : List Byte)
    (x.act = 0 → Answers i s (begun i x)) ∧
    ∀ gs d, x.act ≠ 0 → Passes i x o.sp (askStore mc o) o.addr gs d → Unwatched x o.sp (askStore mc o) gs d → Unbusy x gs d →
      let acc := gs.map fun g => g.acc (bytes g.lane) []
      (o.sp = .sp ∨ (o.sp = .g ∧ ∀ L, (x.f.thread L).task = none) →
        (acc.any LaneAcc.straddles = false → Answers i s (sendAccess x d (.store (mcLeft d.nextId acc)) o.ord o.sc [] acc)) ∧
        (acc.any LaneAcc.straddles = true → Answers i s ((acc.flatMap LaneAcc.pages).foldl
          (fun d a => sendAccess x d (.store (mcLeft d.nextId [a])) o.ord o.sc [] [a]) d))) ∧
      (o.sp = .g → let r := bufStores x.f.uid acc d
        Answers i s (sendStore x r.2 o.ord o.sc r.1)) ∧
      (o.sp = .stk → ∃ d' f', Answers i s d' ∧ d'.mem = d.mem ∧ d'.flights = d.flights ∧ d'.fibre? x.f.uid = some f' ∧
        ∀ L, (f'.thread L).stack = match gs.find? fun g => g.lane == L with
          | some g => memPut (x.f.thread L).stack g.va.toNat (bytes L)
          | none => (x.f.thread L).stack)

/-- R170, R171, R172: `atom`, `red` and `cas` send one read-modify-write for each lane, with the operand of sub-element 0 read at issue,
and end the task's retries. `atomOf` answers for the thirteen constructors atomAdd, atomMin, atomMax, atomExch, atomAnd, atomOr, atomXor,
redAdd, redMin, redMax, redAnd, redOr and redXor, so each of them is covered by the first clause. -/
def Obligations.AtomicsSendTheirOperands : Prop :=
  (∀ (i : Instr) h op ret (o : AtomOp) s x, hdrOf i = some h → atomOf i = some (op, ret, o) → issue? i s = some x →
    (x.act = 0 → Answers i s (begun i x)) ∧
    ∀ gs d, x.act ≠ 0 → Passes i x o.sp (askAtom op o) o.addr gs d → Unwatched x o.sp (askAtom op o) gs d → Unbusy x gs d →
      Answers i s (sendAccess x (noRetry d x.f.uid (LaneMask.ofLanes (gs.map Good.lane)))
        (if ret then .atom op o.t o.ftz else .red op o.t o.ftz) o.ord o.sc (if ret then [o.d.toNat] else [])
        (gs.map fun g => g.acc ((wordLE (inReg x o.d g.lane)).take ((atyN o.t).width / 8)) []))) ∧
  (∀ h spc ord sc t (r : Reg) addr s x, issue? (.cas h spc ord sc t r addr) s = some x →
    let i : Instr := .cas h spc ord sc t r addr
    let n := (ctyN t).width / 8
    (x.act = 0 → Answers i s (begun i x)) ∧
    ∀ gs d, x.act ≠ 0 → Passes i x spc ⟨n, true, n, true, false, 9⟩ addr gs d → Unwatched x spc ⟨n, true, n, true, false, 9⟩ gs d →
      Unbusy x gs d →
      Answers i s (sendAccess x (noRetry d x.f.uid (LaneMask.ofLanes (gs.map Good.lane))) (.cas t) ord sc [r.toNat]
        (gs.map fun g => g.acc (List.replicate n 0)
          [BitVec.ofNat 64 (sub (inReg x r g.lane) (8 * n) 0), BitVec.ofNat 64 (sub (regLane s.dev x.f (r.toNat + 1) g.lane) (8 * n) 0)])))

/-- R175, R154, R180: `fence.acq`, `fence.rel`, `fence.sc`, `fence.uo`, `pf.l1` and `pf.l2` COMPLETE from every state in which they issue:
`exec` answers a next state. A fence acts for each active lane in turn, `fence.uo` after writing back the core's dirty UO bytes and
dropping its copies; `pf.l1` may only bring UO copies in, `pf.l2` changes nothing a program can see. R177, R178: `waitaddr` and `wake`
COMPLETE (`exec` answers a next state) with no active lane, and wherever their lanes' accesses pass. A passing `waitaddr` whose earlier
accesses have performed takes its lanes in logical order: a lane returns the word when it differs from the expected value or the deadline
has passed, and otherwise stands at the tail of the FIFO; the words returned come back in one result. A passing `wake` goes on its way
with its counts. -/
def Obligations.FencesPrefetchesAndParks : Prop :=
  ((∀ h sc s x, issue? (.fenceAcq h sc) s = some x →
    exec (.fenceAcq h sc) s = .next (s.withDev (x.act.lanes.foldl (fenceAcqLane x sc) (begun (.fenceAcq h sc) x)))) ∧
  (∀ h sc s x, issue? (.fenceRel h sc) s = some x →
    exec (.fenceRel h sc) s = .next (s.withDev (x.act.lanes.foldl (fenceRelLane x sc) (begun (.fenceRel h sc) x)))) ∧
  (∀ h sc s x, issue? (.fenceSc h sc) s = some x →
    exec (.fenceSc h sc) s = .next (s.withDev (x.act.lanes.foldl (fenceScLane x sc) (begun (.fenceSc h sc) x)))) ∧
  (∀ h sc s x, issue? (.fenceUo h sc) s = some x →
    exec (.fenceUo h sc) s = .next (s.withDev (if x.act = 0 then begun (.fenceUo h sc) x
      else x.act.lanes.foldl (fenceUoLane x sc) (uoFlush (begun (.fenceUo h sc) x) x.f.core)))) ∧
  (∀ (d : Dev) (core : Nat), (∀ u, u ∈ (uoFlush d core).uo → u ∈ d.uo ∧ u.core ≠ core) ∧
    ((d.uo.map fun u => (u.core, u.addr)).Nodup → ∀ a, memRead (uoFlush d core).mem a =
      match uoCopy d core a with
      | some u => if u.dirty then u.byte else memRead d.mem a
      | none => memRead d.mem a)) ∧
  (∀ (d : Dev) (core a : Nat) (b : Byte) (w : Option Author), (d.uo.map fun u => (u.core, u.addr)).Nodup →
    ((uoPut d core a b w).uo.map fun u => (u.core, u.addr)).Nodup) ∧
  (∀ h addr s x, issue? (.pfL1 h addr) s = some x → ∃ uo,
    exec (.pfL1 h addr) s = .next (s.withDev { begun (.pfL1 h addr) x with uo := uo }) ∧
    ∀ u, u ∈ uo → u ∈ s.dev.uo ∨ (u.core = x.f.core ∧ u.dirty = false ∧ u.byte = memRead s.dev.mem u.addr)) ∧
  (∀ h addr s x, issue? (.pfL2 h addr) s = some x →
    exec (.pfL2 h addr) s = .next (s.withDev (begun (.pfL2 h addr) x)))) ∧
  ((∀ h (o : WaitOp) s x, issue? (.waitaddr h o) s = some x →
    let i : Instr := .waitaddr h o
    let k : Ask := ⟨8, false, 8, true, false, 8⟩
    (x.act = 0 → exec i s = .next (s.withDev (begun i x))) ∧
    ∀ gs d, x.act ≠ 0 → Passes i x o.sp k o.addr gs d → Unwatched x o.sp k gs d → Unbusy x gs d →
      (∀ n, n ∈ afterOf d x.f.uid (.load (.int .n64) .r) o.ord o.sc (gs.map fun g => g.acc [] []) → d.pending n = false) →
      let r := gs.foldl (waitLane x o) ([], noRetry d x.f.uid (LaneMask.ofLanes (gs.map Good.lane)))
      exec i s = .next (s.withDev (if r.1.isEmpty then r.2
        else addFlight r.2 { mkFlight x (.result false false) (r.1.map fun v => laneOps v.1 [v.2]) [o.d.toNat] none with
          full := LaneMask.ofLanes (r.1.map Prod.fst) == x.f.live }))) ∧
  (∀ h (o : WaitOp) s x, issue? (.wake h o) s = some x →
    let i : Instr := .wake h o
    let k : Ask := ⟨8, false, 8, true, false, 63⟩
    (x.act = 0 → exec i s = .next (s.withDev (begun i x))) ∧
    ∀ gs d, x.act ≠ 0 → Passes i x o.sp k o.addr gs d → Unwatched x o.sp k gs d → Unbusy x gs d →
      exec i s = .next (s.withDev (sendAccess x (noRetry d x.f.uid (LaneMask.ofLanes (gs.map Good.lane))) .wake o.ord o.sc []
        (gs.map fun g => g.acc [] [inReg x o.d g.lane])))))

/-- R162, R163: `pginfo` sends the report of each lane's page; a `tlbi` whose context number counts as U and is below 64 drops the entries
its scope and operands name, writes back the dirty UO bytes of the cores in its scope, and its predicate follows every access that used
one, flights, the stores that tasks buffer and parked threads, saved ones too, among them, and the zeroings that walks
names await; a number of 64 or more makes it false. What the issuing threads' own tasks buffer commits first (assumption 61). -/
def Obligations.TranslationReportsAndInvalidation : Prop :=
  (∀ h (r : Reg) addr s x, issue? (.pginfo h r addr) s = some x →
    let i : Instr := .pginfo h r addr
    Answers i s (if x.act = 0 then begun i x
      else sendResult x (begun i x) false false [r.toNat] 0 fun L =>
        [pgWord (begun i x) x.f.core (s.dev.ctx x.f.ctx).root (addrLane s.dev x.f addr L)])) ∧
  (∀ (i : Instr) h (dev : Bool) p s x (names : TlbEntry → Bool) (ctxs : Nat → Bool) (ok illegal : Bool),
    ((∃ (a : Reg) (b : Src), i = .tlbiPg h dev p a b ∧
        let n := (srcZ s.dev x.f x.t ((lowestLane x.act).getD 0) b).toNat
        ok = decide (n < 64) ∧ illegal = !srcU s.dev x.f b ∧ (∀ c, ctxs c = (c == n)) ∧
        ∀ t, names t = (t.ctx == n && x.act.lanes.any fun L =>
          t.page == field (inReg x a L) (if t.large then 29 else 16) (if t.large then 26 else 39))) ∨
      (∃ b : Src, i = .tlbiCtx h dev p b ∧
        let n := (srcZ s.dev x.f x.t ((lowestLane x.act).getD 0) b).toNat
        ok = decide (n < 64) ∧ illegal = !srcU s.dev x.f b ∧ (∀ c, ctxs c = (c == n)) ∧ ∀ t, names t = (t.ctx == n)) ∨
      (i = .tlbiAll h dev p ∧ ok = true ∧ illegal = false ∧ (∀ c, ctxs c = true) ∧ ∀ t, names t = true)) →
    issue? i s = some x →
    let near := fun c => dev || ownerQuarter c == quarterOf x.f.core
    (x.act = 0 → Answers i s (begun i x)) ∧
    (x.act ≠ 0 → illegal = true → exec i s = .next (finish x (.trap s.dev ⟨2, 0, 0, x.act, 0⟩))) ∧
    (x.act ≠ 0 → illegal = false → ok = false → Answers i s (sendPred x (begun i x) p fun _ => false)) ∧
    (x.act ≠ 0 → illegal = false → ok = true →
      let d := uoClean (commitTasks x x.act (begun i x)) near
      let hit := fun (c : Nat) (a : LaneAcc) => a.uses c names
      let waits := fun (g : Flight) => g.isMem && near g.core && g.acc.any (hit g.ctx)
      let fs := fibresOf d near ctxs
      let parked := (d.waiters.filter fun w => near w.core && hit w.ctx w.acc).map Waiter.id
      Answers i s (addFlight
        { d with
          tlb := s.dev.tlb.filter fun t => !(near t.owner && names t)
          flights := d.flights.map fun g => if waits g then { g with through := true } else g }
        { mkFlight x (.tlbi (tasksHolding fs hit) parked (zerosAwaited d near)) (x.act.lanes.map fun L => laneOps L []) []
            (if p.toNat < 24 then some p.toNat else none) with
          after := (d.flights.filter waits).map Flight.id })))

/-- R166, R167: the first row of the table that applies decides a lane's outcome; in an instruction with a faulting lane the passing
lanes' accesses stand, every faulting lane is at the instruction still, and the faults are taken; outside tasks the fibre freezes with one
record: kind, reason and address of the lowest faulting lane, the address that lane used, and every faulting lane in the mask. -/
def Obligations.AddressChecksAndPartialFaults : Prop :=
  (∀ (d : Dev) f t spc (k : Ask) (va : Word),
    (va.toNat % k.align ≠ 0 → (checkLane d f t spc k va).1 = .bad 5 1) ∧
    (va.toNat % k.align = 0 → spc = .sp → spBytes t < va.toNat + k.n → (checkLane d f t spc k va).1 = .bad 5 2) ∧
    (va.toNat % k.align = 0 → spc = .stk → va.toNat < f.stklim.toNat ∨ t.hdr.stack < va.toNat + k.n →
      (checkLane d f t spc k va).1 = .bad 4 0) ∧
    (va.toNat % k.align = 0 → spc = .g → ∀ r a d', translateAll f.core f.ctx ⟨k.write, false⟩ (k.n / 65536 + 2) d va k.n = (.fault r a, d') →
      checkLane d f t spc k va = (.bad 1 r, d')) ∧
    (va.toNat % k.align = 0 → spc = .g → ∀ ps d', translateAll f.core f.ctx ⟨k.write, false⟩ (k.n / 65536 + 2) d va k.n = (.parts ps, d') →
      (k.hostOk = false → (∃ p, p ∈ ps ∧ isHost p.phys = true) → checkLane d f t spc k va = (.bad 5 3, d')) ∧
      (k.hostOk = true ∨ (∀ p, p ∈ ps → isHost p.phys = false) →
        checkLane d f t spc k va = (.ok (ps.flatMap fun p => p.places f.core k.mc), d'))) ∧
    (va.toNat % k.align = 0 → spc = .sp → va.toNat + k.n ≤ spBytes t → checkLane d f t spc k va =
      (.ok ((List.range k.n).map fun i => (.spad (va.toNat + i), 0)), d)) ∧
    (va.toNat % k.align = 0 → spc = .stk → f.stklim.toNat ≤ va.toNat → va.toNat + k.n ≤ t.hdr.stack →
      checkLane d f t spc k va = (.ok [], d))) ∧
  (∀ op (o : AtomOp), (askAtom op o).hostOk = true ↔ (op = .add ∨ op = .exch) ∧ o.t ≠ .f32 ∧ o.t ≠ .f64) ∧
  (∀ h (o : MemOp) s x, issue? (.ld h o) s = some x → x.act ≠ 0 →
    let i : Instr := .ld h o
    let order := logicalOrder x.f x.act.lanes
    let w := checkLanes x.f x.t o.sp (fun _ => askLoad o) (addrLane s.dev x.f o.addr) order s.dev
    let r := checkLanes x.f x.t o.sp (fun _ => askLoad o) (addrLane s.dev x.f o.addr) order (begun i x)
    ∀ lo d', waitOf w.1 = none → lo ∈ badOf r.1 → (∀ b, b ∈ badOf r.1 → lo.lane ≤ b.lane) →
      sendLoads x r.2 o.sp (sizeBytes o.t o.size) (.load o.t o.size) o.ord o.sc
        ((List.range (sizeRegs o.size)).map fun k => o.d.toNat + k) (goodOf r.1) = some d' →
      let m := LaneMask.ofLanes ((badOf r.1).map LaneFault.lane)
      let hits := watchLanes d' x.f.ctx o.sp (fun _ => askLoad o) (goodOf r.1)
      exec i s = .next (finish x (.each (d'.setFibre (keepPc x m (x.fib d'))) (badOf r.1) hits)) ∧
        partialFault (badOf r.1) hits = ⟨lo.kind, lo.reason, addrLane s.dev x.f o.addr lo.lane, m, hits⟩) ∧
  (∀ clk (d : Dev) uid pc fs hits (f : Fibre) (t : Team), d.fibre? uid = some f → d.team? f.team = some t → t.wave = none →
    takeFaults clk d uid pc fs hits = takeFault clk d uid pc (partialFault fs hits))

/-- R169, R98: a load that performs writes the bytes it reads, extended or register by register, in the lanes whose thread has not exited,
and leaves memory as it is. The bytes are those that memory holds, or older ones: R187 leaves open how many writes ago a load of an RC page
reads as of, which is a free value among those that it, R168 and R188 to R190 allow (assumption 70): never before an earlier write of its
own fibre to those bytes or a write that happens before it. R169, R154, R190: a store that performs. Bytes of
UO pages that do not go through stay in the core's L1, where its own reads see them; every other byte is in memory; every address outside
the stored bytes reads as before. R171, R170: one lane's atomic at device memory of a kind that no core keeps copies of: the element
becomes the operation's result on the old one, and every address outside it reads as before. -/
def Obligations.AccessesPerformAtTheirHomes : Prop :=
  (∀ s id (g : Flight) (f : Fibre) t size, s.dev.flights.find? (fun k => k.id == id && (k.kind.loads || !k.kind.writes)) = some g →
    g.kind = .load t size → mayPerform s.dev g = true → s.dev.fibre? g.fib = some f → (g.acc.map LaneAcc.lane).Nodup → g.dst.Nodup →
    (∀ r, r ∈ g.dst → r ≠ 255 ∧ HasReg s.dev f r) → NoUoFence s.dev g.id →
    ∃ d f', exec (.resultReturn id) s = .next (s.withDev d) ∧ d.fibre? g.fib = some f' ∧
      (∀ a k, a ∈ g.acc → a.lane < f.width → a.lane < 64 → (f.thread a.lane).life = .live → k < g.dst.length →
        regLane d f' (g.dst.getD k 255) a.lane =
          (loadWords t size (bytesBack s.dev g.core g.team (backOf s.dev g a) a)).getD k 0) ∧
      (∀ r, r ∉ g.dst → regOf d f' r = regOf s.dev f r) ∧ d.mem = s.dev.mem) ∧
  (∀ (d : Dev) core team (a : LaneAcc), bytesBack d core team 0 a = (a.places.zip a.kinds).map (readPlace d core team)) ∧
  (∀ (d : Dev) (g : Flight) (a : LaneAcc), (d.past = [] → backOf d g a = 0) ∧ (backOf d g a ≠ 0 →
    mayRead d g (backOf d g a) a = true ∧ a.isSO = false ∧
    ∀ e p, e ∈ d.past → d.clock < e.moment + backOf d g a → p ∈ a.cells → copyRead d g.core p = none → e.has g.team p.1 = true →
      ¬(e.author.fib = some g.fib ∧ e.author.flight < g.id) ∧ e.author.event ∉ reach d.before true a.view)) ∧
  (∀ s id (g : Flight), s.dev.flights.find? (fun k => k.id == id && k.kind.writes && !k.kind.loads) = some g → g.kind = .store [] →
    mayPerform s.dev g = true → (∀ a k, a ∈ g.acc → k ∈ a.kinds → mcKind k = false) → NoUoFence s.dev g.id →
    ∃ d, exec (.storePerform id) s = .next (s.withDev d) ∧
      ((∀ a k, a ∈ g.acc → k ∈ a.kinds → k % 4 ≠ 2 ∨ g.through = true) →
        ∀ a, memRead d.mem a = (lastStored g a).getD (memRead s.dev.mem a)) ∧
      ((∀ a k, a ∈ g.acc → k ∈ a.kinds → k % 4 = 2) → g.through = false →
        d.mem = s.dev.mem ∧ ∀ a, uoRead d g.core a = (lastStored g a).getD (uoRead s.dev g.core a))) ∧
  (∀ s id (g : Flight) (a : LaneAcc) (base n : Nat) op t ftz,
    s.dev.flights.find? (fun k => k.id == id && k.kind.writes && !k.kind.loads) = some g → g.kind = .red op t ftz →
    mayPerform s.dev g = true → NoUoFence s.dev g.id → g.acc = [a] → a.places = (List.range n).map (fun k => .phys (base + k)) →
    a.kinds.length = n → (∀ k, k ∈ a.kinds → k % 4 ≠ 2) →
    ∃ d, exec (.storePerform id) s = .next (s.withDev d) ∧
      memBytes d.mem base n = natLE n (aopRes op t ftz (leNat (memBytes s.dev.mem base n)) (leNat a.data)).1 ∧
      ∀ b, b < base ∨ base + n ≤ b → memRead d.mem b = memRead s.dev.mem b)

/-- R183 to R185, R44: streams. `sopen` takes a legal description of U registers; `snext` hands the elements that are there to the active
lanes by rank; `stest` tells which lanes are past the count; `sput` takes the lanes' values when there is room; `sclose` closes a read
stream at once and lets a write stream drain. (That `snext` on a closed stream is illegal is assumption 53.) R79, R80: computed register
access. An index at or above A, or 255, in an active lane is a register-bound fault of those lanes before any effect; otherwise `rxld`
reads the named register in each lane 6 cycles later, and `rxst` sends a write of every register some lane names. R82: `shpget` gives the
tag code; `shpset` schedules the narrowed or widened register, whose live lanes keep their values and whose lanes of exited threads take
the new shape's: U when they all agree, A when they form an affine run (its stride the exact quotient of the signed difference of the two
lowest lanes), and otherwise the register as it stands. -/
def Obligations.StreamsComputedRegistersAndShapes : Prop :=
  ((∀ (i : Instr) h (n : BitVec 3) (a : Reg) (write : Bool) s x, i = (if write then .sopenW h n a else .sopenR h n a) →
    issue? i s = some x →
    let desc := streamDesc (begun i x) (begunFib i x) write a.toNat x.act
    (x.act = 0 → Answers i s (begun i x)) ∧
    (x.act ≠ 0 → desc = none → exec i s = .next (finish x (.trap s.dev ⟨2, 0, 0, x.act, 0⟩))) ∧
    ∀ st, x.act ≠ 0 → desc = some st →
      (x.f.stream n.toNat = none ∨ (∃ old, x.f.stream n.toNat = some old ∧ (old.write = false ∨
        (old.stop = none ∧ old.closing = false ∧ old.fifo = [])))) →
      Answers i s (openStream (begun i x) x.f.uid n.toNat st)) ∧
  (∀ h (r : Reg) (n : BitVec 3) s x, issue? (.snext h r n) s = some x →
    let i : Instr := .snext h r n
    (x.act = 0 → Answers i s (begun i x)) ∧
    (x.act ≠ 0 → (∀ st, x.f.openStream n.toNat = some st → st.write = true) →
      exec i s = .next (finish x (.trap s.dev ⟨2, 0, 0, x.act, 0⟩))) ∧
    ∀ st, x.act ≠ 0 → x.f.openStream n.toNat = some st → st.write = false →
      let ls := x.act.lanes
      let need := min ls.length (st.count - st.pos)
      need ≤ st.fifo.length → Answers i s (addFlight
        (setStream (begun i x) x.f.uid n.toNat (some { st with fifo := st.fifo.drop need, pos := st.pos + need }))
        { mkFlight x (.result false false) (ls.map fun L => laneOps L [st.fifo.getD (rankIn ls L) 0]) [r.toNat] none with
          full := x.act == x.f.live })) ∧
  (∀ h p (n : BitVec 3) s x, issue? (.stest h p n) s = some x →
    let i : Instr := .stest h p n
    Answers i s (if x.act = 0 then begun i x else sendPred x (begun i x) p fun L => match x.f.openStream n.toNat with
      | none => true
      | some st => decide (st.count ≤ st.pos + rankIn x.act.lanes L))) ∧
  (∀ h (n : BitVec 3) (a : Reg) s x, issue? (.sput h n a) s = some x →
    let i : Instr := .sput h n a
    (x.act = 0 → Answers i s (begun i x)) ∧
    (x.act ≠ 0 → (∀ st, x.f.openStream n.toNat = some st → st.write = false) →
      exec i s = .next (finish x (.trap s.dev ⟨2, 0, 0, x.act, 0⟩))) ∧
    ∀ st, x.act ≠ 0 → x.f.openStream n.toNat = some st → st.write = true → st.stop = none →
      let k := min x.act.lanes.length (st.count - st.pos)
      st.fifo.length + k ≤ 64 → Answers i s (setStream (begun i x) x.f.uid n.toNat (some { st with
        fifo := st.fifo ++ (x.act.lanes.take k).map fun L => BitVec.ofNat 64 ((inReg x a L).toNat % 2 ^ (8 * 2 ^ st.size))
        pos := st.pos + k
        after := dedupNat (liveIds (begun i x) st.after ++ engineAfter (begun i x) x.f.uid x.act)
        afterW := dedupNat (liveIds (begun i x) st.afterW ++ engineAfterW (begun i x) x.f.uid x.act)
        since := (begun i x).nextId }))) ∧
  (∀ h p (n : BitVec 3) s x, issue? (.sclose h p n) s = some x →
    let i : Instr := .sclose h p n
    (x.act = 0 → Answers i s (begun i x)) ∧
    (x.act ≠ 0 → x.f.openStream n.toNat = none → Answers i s (sendPred x (begun i x) p fun _ => true)) ∧
    (∀ st, x.act ≠ 0 → x.f.openStream n.toNat = some st → st.write = false →
      Answers i s (sendPred x (setStream (begun i x) x.f.uid n.toNat none) p fun _ => true)) ∧
    ∀ st, x.act ≠ 0 → x.f.openStream n.toNat = some st → st.write = true → st.stop = none →
      Answers i s (addFlight (setStream (begun i x) x.f.uid n.toNat (some { st with closing := true }))
        (mkFlight x (.drain n.toNat) (x.act.lanes.map fun L => laneOps L []) [] (if p.toNat < 24 then some p.toNat else none))))) ∧
  ((∀ h (r : Reg) ix s x, issue? (.rxld h r ix) s = some x →
    let i : Instr := .rxld h r ix
    let idx := fun L => (riVal s.dev x.f L ix).toNat
    let bad := lanesWhere fun L => x.act.has L && decide (min x.f.nAlloc 255 ≤ idx L)
    (x.act = 0 → Answers i s (begun i x)) ∧
    (bad ≠ 0 → exec i s = .next (finish x (.trap s.dev ⟨3, 0, 0, bad, 0⟩))) ∧
    (x.act ≠ 0 → bad = 0 → x.f.chk = false → (∀ L, x.act.has L = true → regPending s.dev x.f (idx L) = false) →
      ∃ v, Lands i s x r.toNat 6 v 0 ∧ ∀ L, x.act.has L = true → laneVal x.f v L = regLane s.dev x.f (idx L) L)) ∧
  (∀ h ix (b : Reg) s x, issue? (.rxst h ix b) s = some x →
    let i : Instr := .rxst h ix b
    let idx := fun L => (riVal s.dev x.f L ix).toNat
    let bad := lanesWhere fun L => x.act.has L && decide (min x.f.nAlloc 255 ≤ idx L)
    (x.act = 0 → Answers i s (begun i x)) ∧
    (bad ≠ 0 → exec i s = .next (finish x (.trap s.dev ⟨3, 0, 0, bad, 0⟩))) ∧
    (x.act ≠ 0 → bad = 0 →
      (∀ L, x.act.has L = true →
        regOwed s.dev x.f x.c.lanes (idx L) = false ∧ wawReg x.f x.c.lanes s.clk.cycle (idx L) 0 = false) →
      ∃ full v, Answers i s ((dedupNat (x.act.lanes.map idx)).foldl (fun d r =>
          addFlight d { mkFlight x (.regw v) ((x.act.lanes.filter fun L => idx L == r).map fun L => laneOps L []) [r] none with full := full })
          (begun i x)) ∧
        ∀ L, x.act.has L = true → laneVal x.f v L = inReg x b L))) ∧
  ((∀ h d (a : Reg), LaneResult (.shpget h d a) d 4 fun x _ => match regOf x.s.dev x.f a.toNat with
    | .u _ => 0
    | .a _ _ => 1
    | .g _ => 2) ∧
  (∀ h (d a : Reg) s x, issue? (.shpsetU h d a) s = some x → Answers (.shpsetU h d a) s
    ((begun (.shpsetU h d a) x).setFibre (pushShape x (begunFib (.shpsetU h d a) x) d.toNat 4 (narrowU s.dev x.f a.toNat)))) ∧
  (∀ h (d a : Reg) s x, issue? (.shpsetA h d a) s = some x → Answers (.shpsetA h d a) s
    ((begun (.shpsetA h d a) x).setFibre (pushShape x (begunFib (.shpsetA h d a) x) d.toNat 4 (narrowA s.dev x.f a.toNat)))) ∧
  (∀ h (d a : Reg) s x, issue? (.shpsetG h d a) s = some x → Answers (.shpsetG h d a) s
    ((begun (.shpsetG h d a) x).setFibre (pushShape x (begunFib (.shpsetG h d a) x) d.toNat 4
      (.g ((List.range x.f.width).map fun L => inReg x a L))))) ∧
  (∀ (d : Dev) (f : Fibre) (r L : Nat), f.live.has L = true →
    laneVal f (narrowU d f r) L = regLane d f r L ∧ laneVal f (narrowA d f r) L = regLane d f r L) ∧
  (∀ (d : Dev) (f : Fibre) (r : Nat) (v : Word), f.live ≠ 0 → (∀ L, f.live.has L = true → regLane d f r L = v) →
    narrowU d f r = .u v ∧ ∃ b, narrowA d f r = .a b 0) ∧
  ∀ (d : Dev) (f : Fibre) (r L0 L1 : Nat) Ls, f.live.lanes = L0 :: L1 :: Ls →
    let diff := (regLane d f r L1 - regLane d f r L0).toInt
    let fits := fun (b s : Word) => ∀ L, f.live.has L = true → regLane d f r L = b + BitVec.ofNat 64 L * s
    (∀ (b : Word) (s : Int), diff = s * ((L1 : Int) - (L0 : Int)) → fits b (BitVec.ofInt 64 s) →
      narrowA d f r = .a b (BitVec.ofInt 64 s)) ∧
    ((¬∃ (b : Word) (s : Int), diff = s * ((L1 : Int) - (L0 : Int)) ∧ fits b (BitVec.ofInt 64 s)) → narrowA d f r = regOf d f r) ∧
    ((∃ L M, f.live.has L = true ∧ f.live.has M = true ∧ regLane d f r L ≠ regLane d f r M) → narrowU d f r = regOf d f r))

/-- R205, R206, R208, R221, R44: reservations, tiles and convergence registers. R208: convergence registers. `cvset` arms an idle one;
`cvsign` signs for the active threads in logical order. -/
def Obligations.TilesReservationsAndConvergence : Prop :=
  ((∀ h p (pl : BitVec 3) (b : Reg) s x, issue? (.plres h p pl b) s = some x →
    let i : Instr := .plres h p pl b
    let r := inReg x b 0
    (x.act = 0 → Answers i s (begun i x)) ∧
    (x.act ≠ 0 → plainShape s.dev x.f b.toNat ≠ .u ∨ recordOk x.t.hdr.pallet r = false →
      exec i s = .next (finish x (.trap s.dev ⟨2, 0, 0, x.act, 0⟩))) ∧
    (x.act ≠ 0 → plainShape s.dev x.f b.toNat = .u → recordOk x.t.hdr.pallet r = true →
      ((handleOf x.t pl.toNat = none ∧ ∀ g, some g ∈ x.t.handles → recOverlap g.record r = false) →
        Answers i s (sendPred x ((begun i x).setTeam { x.t with handles := setAt x.t.handles pl.toNat (some ⟨r, 1, 16⟩) }) p
          fun _ => true)) ∧
      ((handleOf x.t pl.toNat ≠ none ∨ ∃ g, some g ∈ x.t.handles ∧ recOverlap g.record r = true) →
        Answers i s (sendPred x (begun i x) p fun _ => false)))) ∧
  (∀ h (pl : BitVec 3) s x, issue? (.plrel h pl) s = some x → Answers (.plrel h pl) s
    (if x.act = 0 then begun (.plrel h pl) x else (begun (.plrel h pl) x).setTeam { x.t with
      handles := setAt x.t.handles pl.toNat none
      shadow := x.t.shadow.filter fun b => b.obj != 8 + pl.toNat })) ∧
  (∀ h (ta : BitVec 4) s x, issue? (.acczero h ta) s = some x →
    (x.act = 0 → Answers (.acczero h ta) s (begun (.acczero h ta) x)) ∧
    (x.act ≠ 0 → ∃ t', Answers (.acczero h ta) s ((begun (.acczero h ta) x).setTeam t') ∧ t'.uid = x.t.uid ∧
      ∀ a, memRead t'.tile a = if 4096 * ta.toNat ≤ a ∧ a < 4096 * (ta.toNat + 1) then 0 else memRead x.t.tile a)) ∧
  (∀ h mask s x, issue? (.tlive h mask) s = some x → Answers (.tlive h mask) s
    (if x.act = 0 then begun (.tlive h mask) x else (begun (.tlive h mask) x).setTeam { x.t with tlive := mask, tliveOk := true })) ∧
  (∀ h (o : TileMem) s x gs d, issue? (.accld h o) s = some x → x.act ≠ 0 → plainShape s.dev x.f o.addr.base.toNat = .u →
    riU s.dev x.f o.addr.off = true → PassesLow (.accld h o) x o.sp (askTile false) o.addr gs d → Unwatched x o.sp (askTile false) gs d →
    ∀ d', sendLoads x d o.sp 4096 (.accld o.ta.toNat) o.ord o.sc [] gs = some d' → Answers (.accld h o) s d') ∧
  (∀ h (o : TileMem) s x gs d, issue? (.accst h o) s = some x → x.act ≠ 0 → plainShape s.dev x.f o.addr.base.toNat = .u →
    riU s.dev x.f o.addr.off = true → PassesLow (.accst h o) x o.sp (askTile true) o.addr gs d → Unwatched x o.sp (askTile true) gs d →
    ∀ d', sendStores x d o.sp o.ord o.sc gs (fun _ => memBytes x.t.tile (4096 * o.ta.toNat) 4096) = some d' → Answers (.accst h o) s d') ∧
  (∀ h (o : TileMem) s x, x.act = 0 → (issue? (.accld h o) s = some x → Answers (.accld h o) s (begun (.accld h o) x)) ∧
    (issue? (.accst h o) s = some x → Answers (.accst h o) s (begun (.accst h o) x)))) ∧
  ((∀ h (cv : BitVec 4) a s x, issue? (.cvsetN h cv a) s = some x →
    let i : Instr := .cvsetN h cv a
    let n := (srcZ s.dev x.f x.t ((lowestLane x.act).getD 0) a).toNat
    (x.act = 0 → Answers i s (begun i x)) ∧
    (x.act ≠ 0 → srcU s.dev x.f a = false ∨ n < 1 ∨ 1024 < n → exec i s = .next (finish x (.trap s.dev ⟨2, 0, 0, x.act, 0⟩))) ∧
    (x.act ≠ 0 → srcU s.dev x.f a = true → 1 ≤ n → n ≤ 1024 → x.t.cv cv.toNat = .idle →
      Answers i s (setCv (begun i x) x.t.uid cv.toNat (.armed (some n) [] [] none [])))) ∧
  (∀ h (cv : BitVec 4) s x, issue? (.cvsetF h cv) s = some x →
    let i : Instr := .cvsetF h cv
    (x.act = 0 → Answers i s (begun i x)) ∧
    (x.act ≠ 0 → x.t.cv cv.toNat = .idle →
      Answers i s (setCv (begun i x) x.t.uid cv.toNat (.armed none (x.act.lanes.map (logicalOf x.f)) [] none [])))) ∧
  (∀ h (cv : BitVec 4) s x, issue? (.cvsign h cv) s = some x →
    let i : Instr := .cvsign h cv
    let r := (logicalOrder x.f x.act.lanes).foldl (signLane x cv.toNat none fun _ => []) (begun i x, [])
    (x.act = 0 → Answers i s (begun i x)) ∧
    (x.act ≠ 0 → r.2 ≠ [] →
      Answers i s (r.1.setFibre (keepPc x (x.act &&& ~~~(LaneMask.ofLanes r.2)) (x.fib r.1))))))

/-- R209 to R212, R44: `mma` issues at once on the issuing quadrant's unit with the active lanes' rows and the B tile as it stands, or
signs a convergence register; `mma.shape` gives a live handle its strides. R211, R38, R39: an operation that issues takes its unit for the
cycles of its type after the unit is free; one whose time is over, and which no earlier operation on its tile precedes, replaces each
element of its tile by one step of 16 products on the old element, or on +0 with `.z`, and leaves every other tile. -/
def Obligations.MatrixOperations : Prop :=
  ((∀ h (o : MmaOp) s x, issue? (.mma h o) s = some x →
    let i : Instr := .mma h o
    let v := riVal s.dev x.f 0 o.b
    (x.act = 0 → Answers i s (idleMma x (begunMma i x))) ∧
    (x.act ≠ 0 → riU s.dev x.f o.b = false → exec i s = .next (finish x (.trap s.dev ⟨2, 0, 0, x.act, 0⟩))) ∧
    ∀ rows f', x.act ≠ 0 → riU s.dev x.f o.b = true → aGroup x (begunMma i x) o = some (rows, f') →
      (∀ e, bCheck x x.t o.t v = some e → exec i s = .next (finish x e)) ∧
      (bCheck x x.t o.t v = none → Answers i s (issueMma ((begunMma i x).setFibre f') x.t.uid x.f.quad s.clk.cycle
        ⟨o.ta.toNat, o.t, o.z, v, x.c.pc, x.f.quad⟩ ((logicalOrder x.f x.act.lanes).map fun L => (logicalOf x.f L, rows L))))) ∧
  (∀ h (cv : BitVec 4) (o : MmaOp) s x, issue? (.mmaCv h cv o) s = some x →
    let i : Instr := .mmaCv h cv o
    let v := riVal s.dev x.f 0 o.b
    let r : MmaRec := ⟨o.ta.toNat, o.t, o.z, v, x.c.pc, x.f.quad⟩
    (x.act = 0 → Answers i s (idleMma x (begunMma i x))) ∧
    ∀ rows f' n set signed q old, x.act ≠ 0 → riU s.dev x.f o.b = true → aGroup x (begunMma i x) o = some (rows, f') →
      x.t.cv cv.toNat = .armed n set signed q old → (∃ L, x.act.has L = true ∧ canSign (x.t.cv cv.toNat) (logicalOf x.f L) = true) →
      (q = none ∧ bCheck x x.t o.t v = none) ∨ (∃ q', q = some q' ∧ { q' with pc := x.c.pc, quad := x.f.quad } = r) →
      let a := (logicalOrder x.f x.act.lanes).foldl (signLane x cv.toNat (some r) rows) ((begunMma i x).setFibre f', [])
      let stay := x.act &&& ~~~(LaneMask.ofLanes a.2)
      let held := if stay ≠ 0 ∧ x.h.ru = true then (latchOf x x.f).toList else []
      a.2 ≠ [] → Answers i s (a.1.setFibre { keepPc x stay (x.fib a.1) with latches := held ++ (x.fib a.1).latches })) ∧
  (∀ h (pl : BitVec 3) pb s x, issue? (.mmaShape h pl pb) s = some x →
    let i : Instr := .mmaShape h pl pb
    (mmaShapeLit pb = false → exec i s = .next (finish x x.illegal)) ∧
    (mmaShapeLit pb = true → x.act = 0 → Answers i s (begun i x)) ∧
    (mmaShapeLit pb = true → x.act ≠ 0 → handleOf x.t pl.toNat = none →
      exec i s = .next (finish x (.trap s.dev ⟨5, 2, BitVec.ofNat 64 pl.toNat, x.act, 0⟩))) ∧
    ∀ g sh, mmaShapeLit pb = true → x.act ≠ 0 → handleOf x.t pl.toNat = some g → resolveShape (begun i x) (begunFib i x) pb = some sh →
      if mmaShapeOk sh pb g.record then
        Answers i s ((begun i x).setTeam { x.t with
          handles := setAt x.t.handles pl.toNat (some { g with sk := sh.str.getD 0 0, sc := sh.str.getD 1 0 }) })
      else exec i s = .next (finish x (.trap s.dev ⟨2, 0, 0, x.act, 0⟩)))) ∧
  ((∀ (d : Dev) team quad cycle r rows t g, d.team? team = some t → handleOf t (r.b.toNat % 8) = some g →
    ∃ m, (issueMma d team quad cycle r rows).team? team = some { t with mmas := t.mmas ++ [m] } ∧ m.id = d.nextId ∧ m.ta = r.ta ∧
      m.rows = rows ∧ m.b = bTile t g (field r.b 3 61) ∧ m.held = false ∧
      m.ready = max (unitFree d t.core quad cycle) (tileFree t r.ta cycle) + mmaCycles r.t) ∧
  (∀ s id (t : Team) (m : MmaOpn), s.dev.teams.find? (fun t => t.mmas.any fun m => m.id == id) = some t →
    t.mmas.find? (fun m => m.id == id) = some m → s.dev.team? t.uid = some t → m.ready ≤ s.clk.cycle → m.held = false →
    (∀ k, k ∈ t.mmas → k.ta = m.ta → m.id ≤ k.id) →
    ∃ d t', exec (.mmaComplete id) s = .next (s.withDev d) ∧ d.team? t.uid = some t' ∧ t'.mmas = t.mmas.filter (fun k => k.id != id) ∧
      d.mem = s.dev.mem ∧ d.fibres = s.dev.fibres ∧
      (∀ r c, r < 32 → c < 32 → leNat (memBytes t'.tile (4096 * m.ta + 128 * r + 4 * c) 4) =
        mmaStep ((List.range 16).map fun k =>
          (rowElemVal m.t (rowOf m.rows r) k, bElemVal m.t ((m.b.getD k []).getD c 0)))
          (if m.z then 0 else leNat (memBytes t.tile (4096 * m.ta + 128 * r + 4 * c) 4)) % 2 ^ 32) ∧
      ∀ a, a < 4096 * m.ta ∨ 4096 * (m.ta + 1) ≤ a → memRead t'.tile a = memRead t.tile a))

/-- R213, R215, R44: `cpy`, `gth` and `sct`. With its group of shape U and a legal shape record, whose spaces the team has, the command
stands at the end of its core's queue with its addresses, extents, strides, format and what the active tasks buffer fixed, has joined its
barrier's open phase, and moves nothing yet; one of no elements completes at once. A group that is not U, or a record that does not
resolve, is an illegal instruction. -/
def Obligations.TrowelCommandsEnterTheQueue : Prop :=
  ∀ (i : Instr) h op (o : TrowelOp) s x,
    ((op = CmdOp.cpy ∧ i = .cpy h o) ∨ (op = .gth ∧ i = .gth h o) ∨ (op = .sct ∧ i = .sct h o)) → issue? i s = some x →
    let n := if op = .cpy then 2 else 3
    let base := fun k => regLane s.dev x.f (o.a.toNat + k) 0
    let shape := resolveShape (begun i x) (begunFib i x) o.pb
    (x.act = 0 → Answers i s (begun i x)) ∧
    (x.act ≠ 0 → groupU s.dev x.f o.a.toNat n = false ∨ shape = none → exec i s = .next (finish x (.trap s.dev ⟨2, 0, 0, x.act, 0⟩))) ∧
    ∀ sh, x.act ≠ 0 → groupU s.dev x.f o.a.toNat n = true → shape = some sh →
      spaceFault x x.t o.dst (base 0) = none → spaceFault x x.t o.src (base 1) = none →
      (op ≠ .cpy → spaceFault x x.t o.src (base 2) = none) →
      ∃ c : Cmd, c.id = s.dev.nextId ∧ c.core = x.f.core ∧ c.team = x.t.uid ∧ c.op = op ∧ c.dst = o.dst ∧ c.src = o.src ∧
        c.bar = o.bar.map BitVec.toNat ∧ c.dstA = base 0 ∧ c.srcA = base 1 ∧ (op ≠ .cpy → c.idxA = base 2) ∧
        c.ext = sh.ext ∧ c.str = sh.str ∧ c.fmt = sh.fmt ∧ c.blk = sh.blk ∧ c.sOff = sh.sOff ∧ c.dOff = sh.dOff ∧
        c.prog = 0 ∧ c.state = .queued ∧ c.buf = taskBuf x.f x.act ∧
        let d := { begun i x with nextId := s.dev.nextId + 1 }
        let d := match c.bar with
          | none => d
          | some b => (setBar d x.t.uid b { x.t.bar b with joined := (x.t.bar b).joined + 1 }).setFibre
              ((begunFib i x).onLanes x.act fun _ u => { u with recd := setBit u.recd b })
        Answers i s (if c.total = 0 then landCmd d c else { d with cmds := s.dev.cmds ++ [c] })

/-- R197, R218, R219, R44: `pub.reg` registers a buffer of 64-byte lines that meets no other; `pub.unreg` takes it away with its shadow;
`pub` flips the covered shadow bytes: those of the Pallet and of tiles at once, those of `.g` buffers home by home, as releases, after its
core's dirty UO bytes have gone home; and every one ends the active tasks' retries. -/
def Obligations.PublicationFlipsTheCoveredShadow : Prop :=
  (∀ h (p : PredIdx) (a : Reg) (k : BitVec 3) s x, issue? (.pubReg h p a k) s = some x →
    let i : Instr := .pubReg h p a k
    let b := inReg x a 0
    let n := (regLane s.dev x.f (a.toNat + 1) 0).toNat
    let legal := groupU s.dev x.f a.toNat 2 = true ∧ b.toNat % 64 = 0 ∧ n % 64 = 0 ∧ 64 ≤ n ∧ n ≤ 2 ^ 26
    let free := x.t.bufs.getD k.toNat none = none ∧
      ∀ c m, some (c, m) ∈ x.t.bufs → b.toNat + n ≤ c.toNat ∨ c.toNat + m ≤ b.toNat
    (x.act = 0 → Answers i s (begun i x)) ∧
    (x.act ≠ 0 → ¬legal → exec i s = .next (finish x (.trap s.dev ⟨2, 0, 0, x.act, 0⟩))) ∧
    (x.act ≠ 0 → legal → free → Answers i s (sendPred x
      (noRetry ((begun i x).setTeam { x.t with bufs := setAt x.t.bufs k.toNat (some (b, n)) }) x.f.uid x.act) p fun _ => true)) ∧
    (x.act ≠ 0 → legal → ¬free → Answers i s (sendPred x (noRetry (begun i x) x.f.uid x.act) p fun _ => false))) ∧
  (∀ h (k : BitVec 3) s x, issue? (.pubUnreg h k) s = some x → Answers (.pubUnreg h k) s
    (if x.act = 0 then begun (.pubUnreg h k) x else noRetry ((begun (.pubUnreg h k) x).setTeam { x.t with
      bufs := setAt x.t.bufs k.toNat none
      shadow := x.t.shadow.filter fun b => b.obj != k.toNat }) x.f.uid x.act)) ∧
  (∀ h sc a s x, issue? (.pub h sc a) s = some x →
    let i : Instr := .pub h sc a
    let mask := srcZ s.dev x.f x.t ((lowestLane x.act).getD 0) a
    let know := dedupNat (x.act.lanes.flatMap fun L => (x.f.thread L).reached true sc)
    let seen := reach s.dev.before false (knownTo x.f x.act)
    let covered := x.t.shadow.filter fun b => mask.getLsbD b.obj && (seen.contains (soleEv b.cmd) || x.t.freeCmds.contains b.cmd)
    let core := covered.filter fun b => decide (8 ≤ b.obj)
    let wait := (∃ L n, x.act.has L = true ∧ n ∈ releaseAfter s.dev x.f.uid L ∧ s.dev.pending n = true) ∨
      ∃ b, b ∈ core ∧ 16 ≤ b.obj ∧ tileBusy s.dev x.t (b.obj - 16) = true
    (x.act = 0 → Answers i s (begun i x)) ∧
    (x.act ≠ 0 → srcU s.dev x.f a = false ∨ field mask 32 32 ≠ 0 → exec i s = .next (finish x (.trap s.dev ⟨2, 0, 0, x.act, 0⟩))) ∧
    let gs := newest (covered.filter fun b => decide (b.obj < 8))
    (x.act ≠ 0 → srcU s.dev x.f a = true → field mask 32 32 = 0 → (core = [] ∨ ¬wait) → Answers i s
      ((List.range 4).foldl (sendFlip x sc know gs) (pubUo x gs
        (noRetry ((begun i x).setTeam (flipCore { x.t with shadow := x.t.shadow.filter fun b => !covered.contains b } core)) x.f.uid x.act)))))

/-- R251, R252, R44: `qput.m`, `qput.v`, `task` and `tend`. The active lanes append in lane order, each after its thread's earlier
accesses, and each receives whether its record was accepted; while a task of an active lane buffers stores, the buffer is committed and
the instruction stays to issue again (assumption 61); a queue operand that is not U or not below 256 is an illegal instruction; `tend`
ends the active task threads, and is illegal in a thread that runs no task. R234, R235, R236, R237, R244, R249: an append is one step. It
is accepted by an Open queue that has room and whose kind the record fits: a launch queue takes a packet at its tail; a task queue a task,
whose sequence number is the count of earlier ones; an expert queue the tokens at its tail; the entry hands on the commands its appender
knows; and a queue that does not accept is left as it was, as is every other queue of every context. -/
def Obligations.AppendsAreOneStep : Prop :=
  ((∀ h (p : PredIdx) a q s x, issue? (.qputV h p a q) s = some x →
    let i : Instr := .qputV h p a q
    let n := (srcZ s.dev x.f x.t ((lowestLane x.act).getD 0) q).toNat
    (x.act = 0 → Answers i s (begun i x)) ∧
    (x.act ≠ 0 → srcU s.dev x.f q = false ∨ 256 ≤ n → exec i s = .next (finish x (.trap s.dev ⟨2, 0, 0, x.act, 0⟩))) ∧
    (x.act ≠ 0 → srcU s.dev x.f q = true → n < 256 → buffering x.f x.act = true → Answers i s (commitTasks x x.act s.dev)) ∧
    (x.act ≠ 0 → srcU s.dev x.f q = true → n < 256 → buffering x.f x.act = false →
      (∀ L, x.act.has L = true → laneOver (begun i x) x.f.uid L = true) →
      let r := eachLane (fun dv L => if ((dv.ctx x.f.ctx).queue n).kind = 3
        then appendRec s.clk.now (uoFlush dv x.f.core) x.f.ctx n (some (plazaOf x.f.core)) (laneKnow x dv L) [1, srcZ s.dev x.f x.t L a] else (false, dv))
        (x.order (begun i x)) (noRetry (begun i x) x.f.uid x.act)
      Answers i s (sendPreds x r.2 p r.1))) ∧
  (∀ h (p : PredIdx) (a g : Reg) s x, issue? (.task h p a g) s = some x →
    let i : Instr := .task h p a g
    let n := (regLane s.dev x.f (a.toNat + 1) ((lowestLane x.act).getD 0)).toNat
    (x.act = 0 → Answers i s (begun i x)) ∧
    (x.act ≠ 0 → groupU s.dev x.f (a.toNat + 1) 1 = false ∨ 256 ≤ n → exec i s = .next (finish x (.trap s.dev ⟨2, 0, 0, x.act, 0⟩))) ∧
    (x.act ≠ 0 → groupU s.dev x.f (a.toNat + 1) 1 = true → n < 256 → buffering x.f x.act = true → Answers i s (commitTasks x x.act s.dev)) ∧
    (x.act ≠ 0 → groupU s.dev x.f (a.toNat + 1) 1 = true → n < 256 → buffering x.f x.act = false →
      (∀ L, x.act.has L = true → laneOver (begun i x) x.f.uid L = true) →
      let r := eachLane (fun dv L => if ((dv.ctx x.f.ctx).queue n).kind = 2
        then appendRec s.clk.now (uoFlush dv x.f.core) x.f.ctx n (some (plazaOf x.f.core)) (laneKnow x dv L)
          (inReg x a L :: (List.range 8).map fun k => regLane s.dev x.f (g.toNat + k) L) else (false, dv))
        (x.order (begun i x)) (noRetry (begun i x) x.f.uid x.act)
      Answers i s (sendPreds x r.2 p r.1))) ∧
  (∀ h (p : PredIdx) (a : Reg) q s x gs d, issue? (.qputM h p a q) s = some x →
    let i : Instr := .qputM h p a q
    let n := (srcZ s.dev x.f x.t ((lowestLane x.act).getD 0) q).toNat
    let kind := ((s.dev.ctx x.f.ctx).queue n).kind
    let addr := fun L => inReg x a L
    let k := fun L => (⟨recordBytes (begun i x) (begunFib i x) kind (addr L), false, 8, true, false, 8⟩ : Ask)
    let r := checkLanes x.f x.t .g k addr (x.order (begun i x)) (begun i x)
    (x.act = 0 → Answers i s (begun i x)) ∧
    (x.act ≠ 0 → srcU s.dev x.f q = false ∨ 256 ≤ n → exec i s = .next (finish x (.trap s.dev ⟨2, 0, 0, x.act, 0⟩))) ∧
    let m := passing x (begun i x) .g k (x.order (begun i x)) addr
    (x.act ≠ 0 → srcU s.dev x.f q = true → n < 256 → buffering x.f m = true → Answers i s (commitTasks x m s.dev)) ∧
    (x.act ≠ 0 → srcU s.dev x.f q = true → n < 256 → buffering x.f m = false →
      (∀ L, x.act.has L = true → laneOver (begun i x) x.f.uid L = true) →
      waitOf (checkLanes x.f x.t .g k addr (x.order (begun i x)) s.dev).1 = none → badOf r.1 = [] → goodOf r.1 = gs → r.2 = d →
      let e := eachLane (fun dv L => match gs.find? fun g => g.lane == L with
        | none => (false, dv)
        | some g => let w := readWords x dv g
          appendRec s.clk.now (uoFlush w.2 x.f.core) x.f.ctx n (some (plazaOf x.f.core)) (laneKnow x w.2 L) w.1)
        (gs.map Good.lane) (noRetry d x.f.uid (LaneMask.ofLanes (gs.map Good.lane)))
      let d' := sendPreds x e.2 p e.1
      watchLanes d' x.f.ctx .g k gs = 0 → Answers i s d')) ∧
  (∀ h s x, issue? (.tend h) s = some x →
    (x.act = 0 → Answers (.tend h) s (begun (.tend h) x)) ∧
    (x.act ≠ 0 → (∀ L, x.act.has L = true → (x.f.thread L).task ≠ none) →
      Answers (.tend h) s (endThreads (begun (.tend h) x) x.f.uid x.act)) ∧
    ((∃ L, x.act.has L = true ∧ (x.f.thread L).task = none) → exec (.tend h) s = .next (finish x (.trap s.dev ⟨2, 0, 0, x.act, 0⟩))))) ∧
  ((∀ now (d : Dev) c qn plaza know ws, c < d.ctxs.length → (appendRec now d c qn plaza know ws).1 = true →
    let q := (d.ctx c).queue qn
    q.isOpen = true ∧ queueRoom d c qn q = true ∧ recordFits q.kind plaza.isSome ws = true) ∧
  (∀ now (d : Dev) c qn plaza know ws, (appendRec now d c qn plaza know ws).1 = false → (appendRec now d c qn plaza know ws).2 = d) ∧
  (∀ now (d : Dev) c qn plaza know ws, c < d.ctxs.length → let q := (d.ctx c).queue qn
    q.isOpen = true → queueRoom d c qn q = true → recordFits q.kind plaza.isSome ws = true →
    (q.kind = 1 → appendRec now d c qn plaza know ws =
      (true, setQueue d c qn { q with entries := q.entries ++ [⟨(List.range 16).map fun k => ws.getD k 0, now, know⟩] })) ∧
    (q.kind = 2 → ∃ d', appendRec now d c qn plaza know ws = (true, d') ∧ (((d'.ctx c).queue qn).seq = q.seq + 1) ∧
      d'.mem = d.mem ∧ d'.fibres = d.fibres ∧ d'.grids = d.grids) ∧
    (q.kind = 3 → dispatches (d.ctx c) = false → appendRec now d c qn plaza know ws =
      (true, setQueue d c qn { q with entries := q.entries ++ [⟨(List.range (ws.getD 0 0).toNat).map fun k => ws.getD (k + 1) 0, now, know⟩] }))) ∧
  ∀ (d : Dev) c qn (v : Queue), c < d.ctxs.length →
    (((setQueue d c qn v).ctx c).queue qn = v) ∧
    (∀ r, r ≠ qn → ((setQueue d c qn v).ctx c).queue r = (d.ctx c).queue r) ∧
    ∀ k, k ≠ c → (setQueue d c qn v).ctx k = d.ctx k)

/-- R241, R248, R253, R199, R44: `launch`, `join`, `join.poll`, `qfire.ex`, `qfire.gn`, `qstat` and `qstat.arg`. A `launch` of a task that
buffers stores commits them and stays to issue again (assumption 61). Each lane of a `join` waits by itself for its own child. -/
def Obligations.LaunchesJoinsAndQueueStatus : Prop :=
  (∀ h (r a : Reg) s x gs d, issue? (.launch h r a) s = some x →
    let i : Instr := .launch h r a
    let k : Ask := ⟨128, false, 8, true, false, 8⟩
    let addr := fun L => inReg x a L
    let ls := (x.order (begun i x)).filter (leads x.f)
    let others := (x.order (begun i x)).filter fun L => !leads x.f L
    let c := checkLanes x.f x.t .g (fun _ => k) addr ls (begun i x)
    (x.act = 0 → Answers i s (begun i x)) ∧
    let m := passing x (begun i x) .g (fun _ => k) ls addr
    (x.act ≠ 0 → buffering x.f m = true → Answers i s (commitTasks x m s.dev)) ∧
    (x.act ≠ 0 → buffering x.f m = false → (∀ L, L ∈ ls → laneOver (begun i x) x.f.uid L = true) →
      waitOf (checkLanes x.f x.t .g (fun _ => k) addr ls s.dev).1 = none → badOf c.1 = [] → goodOf c.1 = gs → c.2 = d →
      let e := eachLane (fun dv L => match gs.find? fun g => g.lane == L with
        | none => (0, dv)
        | some g => launchChild s.clk.now x dv g) (gs.map Good.lane) (noRetry d x.f.uid (LaneMask.ofLanes (gs.map Good.lane)))
      let d' := sendLanes x e.2 r (e.1 ++ others.map fun L => (L, 0x8000000000000004))
      watchLanes d' x.f.ctx .g (fun _ => k) gs = 0 → Answers i s d')) ∧
  (∀ h (r : Reg) a s x, issue? (.join h r a) s = some x →
    let i : Instr := .join h r a
    let lid := fun L => srcZ s.dev x.f x.t L a
    (x.act = 0 → Answers i s (begun i x)) ∧
    let held := fun (f : Fibre) => { f with threads := f.threads.map (Thread.begins · []) }
    (x.act ≠ 0 → ∃ d, Answers i s d ∧ (∀ u, (d.fibre? u).map held = ((begun i x).fibre? u).map held) ∧ d.mem = s.dev.mem ∧
      d.flights = s.dev.flights ++ x.act.lanes.mapIdx fun k L => { mkFlight x .join [laneOps L [lid L]] [r.toNat] none with
        id := s.dev.nextId + k, full := LaneMask.ofLanes [L] == x.f.live })) ∧
  (∀ h (r : Reg) a s x, issue? (.joinPoll h r a) s = some x → Answers (.joinPoll h r a) s
    (if x.act = 0 then begun (.joinPoll h r a) x
     else sendResult x (x.act.lanes.foldl (pollLane x.f.uid fun L => srcZ s.dev x.f x.t L a) (begun (.joinPoll h r a) x))
      false true [r.toNat] 0 fun L => [BitVec.ofNat 64 (joinAnswer s.dev x.f.uid L (srcZ s.dev x.f x.t L a))])) ∧
  (∀ (d : Dev) fib f t L lid, d.fibre? fib = some f → d.team? f.team = some t →
    let mine := fun (g : Grid) => match (f.thread L).task with
      | some k => g.parentTask = some (k.queue, k.seq)
      | none => g.parent = some t.lid ∧ g.parentTask = none
    (d.grid? f.ctx lid = none → joinAnswer d fib L lid = 3) ∧
    ∀ g, d.grid? f.ctx lid = some g → (¬mine g → joinAnswer d fib L lid = 3) ∧
      (mine g → joinAnswer d fib L lid = if g.retired = false then 0 else if g.refused = true then 2 else 1)) ∧
  (∀ h (p : PredIdx) q s x, issue? (.qfireEx h p q) s = some x →
    let i : Instr := .qfireEx h p q
    let n := (srcZ s.dev x.f x.t ((lowestLane x.act).getD 0) q).toNat
    (x.act = 0 → Answers i s (begun i x)) ∧
    (x.act ≠ 0 → srcU s.dev x.f q = false ∨ 256 ≤ n → exec i s = .next (finish x (.trap s.dev ⟨2, 0, 0, x.act, 0⟩))) ∧
    (x.act ≠ 0 → srcU s.dev x.f q = true → n < 256 →
      let e := eachLane (fun (dv : Dev) (_ : Nat) =>
        let v := (dv.ctx x.f.ctx).queue n
        if v.kind = 3 ∧ 0 < v.tokens then (true, fireQueue s.clk.now x.f.ctx n 4096 (setQueue dv x.f.ctx n { v with fireReq := true }))
        else (false, dv)) (x.order (begun i x)) (noRetry (begun i x) x.f.uid x.act)
      Answers i s (sendPreds x e.2 p e.1))) ∧
  (∀ h (p : PredIdx) a s x, issue? (.qfireGn h p a) s = some x →
    let i : Instr := .qfireGn h p a
    let e := eachLane (fun dv L => fireNode s.clk.now dv x.f.ctx (srcZ s.dev x.f x.t L a)) (x.order (begun i x))
      (noRetry (begun i x) x.f.uid x.act)
    Answers i s (if x.act = 0 then begun i x else sendPreds x e.2 p e.1)) ∧
  (∀ h (r : Reg) q s x, issue? (.qstat h r q) s = some x →
    let i : Instr := .qstat h r q
    let n := (srcZ s.dev x.f x.t ((lowestLane x.act).getD 0) q).toNat
    (x.act = 0 → Answers i s (begun i x)) ∧
    (x.act ≠ 0 → srcU s.dev x.f q = false ∨ 256 ≤ n → exec i s = .next (finish x (.trap s.dev ⟨2, 0, 0, x.act, 0⟩))) ∧
    (x.act ≠ 0 → srcU s.dev x.f q = true → n < 256 →
      Answers i s (sendResult x (begun i x) false true [r.toNat] 0 fun _ => [queueStatus s.dev x.f.ctx n]))) ∧
  (∀ h (r : Reg) (k : BitVec 3) s x, issue? (.qstatArg h r k) s = some x → Answers (.qstatArg h r k) s
    (if x.act = 0 then begun (.qstatArg h r k) x else sendResult x (begun (.qstatArg h r k) x) false true [r.toNat] 0 fun L =>
      [if (x.f.thread L).task.isSome then 0 else match s.dev.grid? x.f.ctx x.t.lid with
        | some g => g.packet.getD (8 + k.toNat) 0
        | none => 0])) ∧
  ∀ (d : Dev) c qn, let q := (d.ctx c).queue qn
    let w := (queueStatus d c qn).toNat
    let held := if q.kind = 2 then tasksHeld d c qn else if q.kind = 3 then q.tokens else q.entries.length
    q.dropped < 65536 → q.kind < 16 →
      w % 2 ^ 16 = held % 2 ^ 16 ∧ w / 2 ^ 16 % 2 ^ 16 = q.fld 0 16 16 ∧ w / 2 ^ 32 % 16 = q.kind ∧
      w / 2 ^ 36 % 16 = (if q.isOpen then 1 else 0) ∧ w / 2 ^ 40 % 256 = (q.slots.filter Option.isNone).length % 256 ∧
      w / 2 ^ 48 = q.dropped

/-- R266 to R275, R44: the Mortar's instructions. Each takes its active lanes in logical order; an append answers the new handle or 0, a
seal, read, connection, merge, growth or pin a predicate, and the readers and weights their groups beside it; `vframe` moves the context's
frame on by 1 modulo 65,536, once for the path, and answers it. R262, R264, R270 to R272: the weights: r, c and μ of a vertex with the
densities supplied; W and M of a side of a connection and its weight; every slot of `vcon.all`, each term built outward from the current
strategy, their sum exact and rounded once; the weight of a merge. -/
def Obligations.MortarInstructions : Prop :=
  ((∀ (i : Instr) h (light : Bool) (r a p : Reg) s x, i = (if light then .vappLight h r a p else .vappEye h r a p) →
    issue? i s = some x →
    let e := eachLane (fun dv L => appendLane x light ((List.range 8).map fun k => regLane s.dev x.f (a.toNat + k) L)
      (if p.toNat = 255 then none else some (inReg x p L)) dv) (x.order (begun i x)) (begun i x)
    Answers i s (if x.act = 0 then begun i x else engineLanes x e.2 r e.1)) ∧
  (∀ h sc (p : PredIdx) (a : Reg) s x, issue? (.vseal h sc p a) s = some x →
    let i : Instr := .vseal h sc p a
    let e := eachLane (fun dv L => sealLane x sc (regLane dv (x.fib dv) a.toNat L) L dv) (x.order (begun i x)) (begun i x)
    (x.act = 0 → Answers i s (begun i x)) ∧
    (x.act ≠ 0 → (∀ L, x.act.has L = true → laneOver (begun i x) x.f.uid L = true) → Answers i s (enginePreds x e.2 p e.1))) ∧
  (∀ h sc (p : PredIdx) (g a : Reg) s x, issue? (.vld h sc p g a) s = some x →
    let i : Instr := .vld h sc p g a
    let e := eachLane (fun dv L => vldLane x sc (inReg x a L) L dv) (x.order (begun i x)) (begun i x)
    Answers i s (if x.act = 0 then begun i x else sendBoth x e.2 g 8 p e.1)) ∧
  (∀ h sc (p : PredIdx) (r g : Reg) s x (i : Instr) n need
      (go : Weigh → (Nat → Word) → Dev → Option Vertex → Option Vertex → Option (List Word)),
    ((i = .vcon h sc p r g ∧ n = 1 ∧ need = false ∧
        ∀ w gr d e l, go w gr d e l = some [BitVec.ofNat 64 (conWeight d w e l (gr 2) (gr 3))]) ∨
      (i = .vconAll h sc p r g ∧ n = 9 ∧ need = false ∧ ∀ w gr d e l, go w gr d e l = allSlots d w e l (gr 2) (gr 3)) ∨
      (i = .vmrg h sc p r g ∧ n = 1 ∧ need = true ∧
        (∀ w gr d e l, go w gr d (some e) (some l) = some [BitVec.ofNat 64 (mrgWeight d w e l (gr 2) (gr 3))]) ∧
        ∀ w gr d e l, e = none ∨ l = none → go w gr d e l = none)) →
    issue? i s = some x →
    let gr := fun L k => regLane s.dev x.f (g.toNat + k) L
    let e := eachLane (fun dv L => pairLane x sc n (gr L) L need (go (weighOf (s.dev.ctx x.f.ctx)) (gr L)) dv) (x.order (begun i x)) (begun i x)
    Answers i s (if x.act = 0 then begun i x else sendBoth x e.2 r n p e.1)) ∧
  (∀ h (p : PredIdx) (a : Reg) b s x, issue? (.vrew h p a b) s = some x →
    let i : Instr := .vrew h p a b
    let e := eachLane (fun dv L => rewLane x (inReg x a L) (srcZ s.dev x.f x.t L b) dv) (x.order (begun i x)) (begun i x)
    Answers i s (if x.act = 0 then begun i x else enginePreds x e.2 p e.1)) ∧
  (∀ (i : Instr) h (up : Bool) (p : PredIdx) (a : Reg) s x, i = (if up then .vpin h p a else .vunpin h p a) → issue? i s = some x →
    let e := eachLane (fun dv L => pinLane x up (inReg x a L) dv) (x.order (begun i x)) (begun i x)
    Answers i s (if x.act = 0 then begun i x else enginePreds x e.2 p e.1)) ∧
  ∀ h (r : Reg) s x, issue? (.vframe h r) s = some x →
    let i : Instr := .vframe h r
    let c := s.dev.ctx x.f.ctx
    let n := (c.frame + 1) % 65536
    (x.act = 0 → Answers i s (begun i x)) ∧
    (x.act ≠ 0 → framedBy x s.dev = none → Answers i s (sendResult x
      { (begun i x).setCtx x.f.ctx { c with frame := n } with
        framed := ⟨x.f.core, x.f.quad, x.f.slot, x.f.pos, x.c.pc, x.c.depth, n⟩ :: s.dev.framed }
      false false [r.toNat] 0 fun _ => [BitVec.ofNat 64 n])) ∧
    ∀ m, x.act ≠ 0 → framedBy x s.dev = some m →
      Answers i s (sendResult x (begun i x) false false [r.toNat] 0 fun _ => [BitVec.ofNat 64 m])) ∧
  ((∀ (d : Dev) (w : Weigh) (v : Vertex) pb fin, let x := wv d v pb
    let q := wDiv (pb % 2 ^ 31) v.pf
    let β := fun y => if w.power then wMul y y else y
    (v.delta = true → w.r x = wOne) ∧
    (v.delta = false → w.r x = β (if (fval .f32 false q).isNaN then FTy.inf .f32 else q)) ∧
    wC x = (if v.delta = true ∨ ∃ p, parentOf d v = some p ∧ p.delta = true then 0 else wOne) ∧
    w.m fin x = wMul (if w.merge = true ∧ v.delta = false ∧ v.hasParent = true ∧ fin = false then wOne else 0)
      (β (wMul w.eta (pb % 2 ^ 31)))) ∧
  (∀ (d : Dev) (w : Weigh) pb1 pb2 fin, sideSums d w none pb1 pb2 fin = (0, 0) ∧
    ∀ v, let x := wv d v pb1
      (parentOf d v = none → sideSums d w (some v) pb1 pb2 fin = (wMul (w.r x) (wC x), w.m fin x)) ∧
      ∀ u, parentOf d v = some u → let y := wv d u pb2
        sideSums d w (some v) pb1 pb2 fin =
          (wMul (w.r x) (wAdd (wC x) (wMul (w.r y) (wAdd (wC y) u.qc))),
            wAdd (w.m fin x) (wMul (w.r x) (wAdd (w.m false y) (wMul (w.r y) u.qm))))) ∧
  (∀ (d : Dev) (w : Weigh) e l de dl,
    let a := sideSums d w e (field de 0 32) (field de 32 32) l.isNone
    let b := sideSums d w l (field dl 0 32) (field dl 32 32) e.isNone
    let S := wAdd (wAdd (wAdd (wAdd wOne a.1) b.1) a.2) b.2
    let dead := ∃ v, (e = some v ∨ l = some v) ∧ v.delta = true
    (dead ∨ finite (fval .f32 false S) = false → conWeight d w e l de dl = 0) ∧
    (¬dead → finite (fval .f32 false S) = true → conWeight d w e l de dl = wDiv wOne S)) ∧
  (∀ (d : Dev) (w : Weigh) e l de dl es ls, SideChain d e es → SideChain d l ls →
    let n := es.length + ls.length
    let dead := ∃ v, (e = some v ∨ l = some v) ∧ v.delta = true
    (8 < n → allSlots d w e l de dl = none) ∧
    (n ≤ 8 → ∃ out : Nat → Nat,
      allSlots d w e l de dl = some ((List.range 9).map fun k => BitVec.ofNat 64 (out (2 * k) + 2 ^ 32 * out (2 * k + 1))) ∧
      (dead → ∀ k, k < 18 → out k = 0) ∧
      (¬dead → ∃ (x : Nat → WV) (T : Nat → Nat), (∀ k, k < n → pathAt d es ls de dl k = some (x k)) ∧ IsTerms w es.length n x T ∧
        let total := (fsumR .f32 .rn false ((List.range 18).map T)).1
        ∀ k, k < 18 → out k = if finite (fval .f32 false total) then wDiv (T k) total else 0))) ∧
  (∀ t r ftz (ts : List Nat), ts ≠ [] → (∀ y, y ∈ ts → finite (fval t ftz y) = true) →
    IsSum t r ftz (ts.map (fval t ftz)) (fsumR t r ftz ts)) ∧
  (∀ (d : Dev) (w : Weigh) (e l : Vertex) de dl,
    (e.delta = true ∨ l.delta = true ∨ e.hasParent = false ∨ l.hasParent = false ∨ w.merge = false → mrgWeight d w e l de dl = 0) ∧
    ∀ e2 l2, e.delta = false → l.delta = false → w.merge = true → parentOf d e = some e2 → parentOf d l = some l2 →
      let side := fun (v u : Vertex) pb => let y := wv d u pb
        let qc := wMul (w.r y) (wAdd (wC y) u.qc)
        let qm := wAdd (w.m false y) (wMul (w.r y) u.qm)
        let h := wMul w.eta v.pf
        wDiv (wAdd (wAdd (wC (wv d v v.pb)) qc) qm) (if w.power then wMul h h else h)
      mrgWeight d w e l de dl = wDiv wOne (wAdd (wAdd wOne (side e e2 (field de 0 32))) (side l l2 (field dl 0 32)))))

/-- R256 to R258, R267 to R269, R273, R274: one lane of a vertex instruction. A handle names a record of its own context while slot,
generation and frame agree, and nothing else; an append that finds a slot answers the handle of a new unsealed record, after a full store
has spilled a sealed one, and otherwise 0 with nothing changed; an append to a parent makes its child and, where there is a grandparent,
the sums of R263; a seal seals the whole path and nothing else; a growth multiplies Qm, a pin moves the count by 1, and an unpin to 0 may
retire the vertex; an append or seal of what is not the fibre's own, a read of another
fibre's unsealed record, a growth or pin of an unsealed one, answer false and change nothing; reclaiming makes every handle of the record
stale. R259, R260: a sealed vertex outside the window of its context, without pins or children, retires; a record in a full store that is
sealed spills and stays readable. A store holds 1,048,576 records while none of its ways is retired. -/
def Obligations.VertexRecords : Prop :=
  ((∀ (d : Dev) c hw v, vertexOf d c hw = some v →
    vertexAt d (field hw 26 2) (field hw 0 26) = some v ∧ v.ctx = c ∧ v.frame = field hw 44 16 ∧
      field hw 28 16 = slotGen d v.quarter v.slot ∧ field hw 28 16 ≠ 0 ∧ field hw 60 4 = 0) ∧
  (∀ (d : Dev) (v : Vertex), v.quarter < 4 → v.slot < 2 ^ 26 → v.frame < 65536 → slotGen d v.quarter v.slot < 65536 →
    slotGen d v.quarter v.slot ≠ 0 → vertexAt d v.quarter v.slot = some v → vertexOf d v.ctx (handleWord d v) = some v) ∧
  (∀ (x : Iss) light img (d : Dev) n, freeVertex d (quarterOf x.f.core) = some n → (d.ctx x.f.ctx).frame < 65536 →
    let q := quarterOf x.f.core
    let d1 := spillOne { d with freeSeq := d.freeSeq + 1 } q
    ∃ v : Vertex, v.quarter = quarterOf x.f.core ∧ v.spilled = decide (storeCap d1 q ≤ (storeHeld d1 q).length) ∧ v.slot = n ∧ v.ctx = x.f.ctx ∧ v.state = .unsealed x.f.uid ∧
      v.frame = (d.ctx x.f.ctx).frame ∧ v.light = light ∧ v.hasParent = false ∧ v.depth = 0 ∧ v.pin = 0 ∧ v.child = false ∧
      (∀ k, k < 3 → v.ws.getD k 0 = img.getD k 0) ∧
      appendLane x light img none d = (handleWord d v, { d1 with vertices := d1.vertices ++ [v] })) ∧
  (∀ (x : Iss) light img (d : Dev), freeVertex d (quarterOf x.f.core) = none → appendLane x light img none d = (0, d)) ∧
  (∀ (x : Iss) light img hw (d : Dev), (∀ v, vertexOf d x.f.ctx hw = some v →
      v.state ≠ .unsealed x.f.uid ∨ v.light ≠ light ∨ v.child = true ∨ 255 ≤ v.depth) → appendLane x light img (some hw) d = (0, d)) ∧
  (∀ (x : Iss) light img hw (d : Dev) p n, vertexOf d x.f.ctx hw = some p → p.state = .unsealed x.f.uid → p.light = light → p.child = false →
    p.depth < 255 → p.ws.length = 8 → p.quarter < 4 → p.slot < 2 ^ 26 → (d.ctx x.f.ctx).frame < 65536 → freeVertex d p.quarter = some n →
    ∃ v p' d', appendLane x light img (some hw) d = (handleWord d v, d') ∧ vertexAt d' p.quarter n = some v ∧ v.quarter = p.quarter ∧
      v.slot = n ∧ v.ctx = x.f.ctx ∧ v.state = .unsealed x.f.uid ∧ v.frame = (d.ctx x.f.ctx).frame ∧ v.light = light ∧
      v.hasParent = true ∧ v.fld 6 26 2 = p.quarter ∧ v.fld 6 0 26 = p.slot ∧ v.depth = p.depth + 1 ∧ v.pb = 0 ∧ v.qc = 0 ∧ v.qm = 0 ∧
      v.pin = 0 ∧ v.child = false ∧ (∀ k, k < 3 → v.ws.getD k 0 = img.getD k 0) ∧ v.pf = field (img.getD 3 0) 32 31 ∧
      vertexAt d' p.quarter p.slot = some p' ∧ p'.child = true ∧
      (parentOf d p = none → p'.qc = p.qc ∧ p'.qm = p.qm) ∧
      ∀ g, parentOf d p = some g → ¬(g.quarter = p.quarter ∧ g.slot = p.slot) → g.ws.length = 8 →
        let w := weighOf (d.ctx x.f.ctx)
        let pb := field (img.getD 4 0) 0 32
        let y := wv d g pb
        p'.qc = wMul (w.r y) (wAdd (wC y) g.qc) ∧ p'.qm = wAdd (w.m false y) (wMul (w.r y) g.qm) ∧
        ∃ g', vertexAt d' g.quarter g.slot = some g' ∧ g'.fld 4 0 32 = pb ∧ g'.qc = g.qc ∧ ∀ k, k ≠ 4 → g'.ws.getD k 0 = g.ws.getD k 0) ∧
  (∀ (x : Iss) sc hw L (d : Dev), (∀ v, vertexOf d x.f.ctx hw = some v → v.state ≠ .unsealed x.f.uid ∨ v.child = true) →
    sealLane x sc hw L d = (false, d)) ∧
  (∀ (x : Iss) sc hw L (d : Dev) v us, vertexOf d x.f.ctx hw = some v → v.state = .unsealed x.f.uid → v.child = false →
    ChainFrom d v us → us.length ≤ 256 → (∀ u, u ∈ us → u.ws.length = 8) →
    ∃ d', sealLane x sc hw L d = (true, d') ∧ d' = { d with vertices := d'.vertices } ∧
      (∀ u, u ∈ us → ∃ u', vertexAt d' u.quarter u.slot = some u' ∧ u'.state = .sealed ∧ u'.sc = sc ∧
        u'.sealer = (x.t.uid, x.f.core) ∧ u'.fld 7 11 1 = 1 ∧ ∀ k, k < 7 → u'.ws.getD k 0 = u.ws.getD k 0) ∧
      ∀ q k, (∀ u, u ∈ us → ¬(u.quarter = q ∧ u.slot = k)) → vertexAt d' q k = vertexAt d q k) ∧
  (∀ (x : Iss) hw n (d : Dev) v, vertexOf d x.f.ctx hw = some v → v.state = .sealed → 1 ≤ n.toNat → n.toNat ≤ 65535 →
    ∃ F fl, IsRounded .f32 .rn false false (if (weighOf (d.ctx x.f.ctx)).power then (n.toNat : ℝ) * n.toNat else n.toNat) (F, fl) ∧
      rewLane x hw n d = (true, setVertex d (v.put 5 0 32 (wMul v.qm F)))) ∧
  (∀ (x : Iss) (up : Bool) hw (d : Dev) v, vertexOf d x.f.ctx hw = some v → v.state = .sealed → v.ws.length = 8 →
    (if up then v.pin < 255 else 0 < v.pin) → ∃ v', v'.pin = (if up then v.pin + 1 else v.pin - 1) ∧
      v'.state = .sealed ∧ v'.child = v.child ∧ v'.frame = v.frame ∧ (∀ k, k ≠ 7 → v'.ws.getD k 0 = v.ws.getD k 0) ∧
      let c := d.ctx v.ctx
      let goes := v'.pin = 0 ∧ v.child = false ∧ c.mwin < (c.frame + 65536 - v.frame) % 65536
      (goes → pinLane x up hw d = (true, reclaim (setVertex d v') v')) ∧
      (¬goes → pinLane x up hw d = (true, setVertex d v'))) ∧
  (∀ (x : Iss) sc hw L (d : Dev), (∀ v, vertexOf d x.f.ctx hw = some v → v.state ≠ .sealed ∧ v.state ≠ .unsealed x.f.uid) →
    vldLane x sc hw L d = ((false, List.replicate 8 0), d)) ∧
  (∀ (x : Iss) sc hw L (d : Dev) v, vertexOf d x.f.ctx hw = some v → v.state = .sealed ∨ v.state = .unsealed x.f.uid →
    (vldLane x sc hw L d).1 = (true, v.ws)) ∧
  (∀ (x : Iss) hw n (d : Dev), (∀ v, vertexOf d x.f.ctx hw = some v → v.state ≠ .sealed) ∨ n.toNat = 0 ∨ 65535 < n.toNat →
    rewLane x hw n d = (false, d)) ∧
  (∀ (x : Iss) up hw (d : Dev), (∀ v, vertexOf d x.f.ctx hw = some v → v.state ≠ .sealed ∨ (up = true ∧ v.pin = 255) ∨ (up = false ∧ v.pin = 0)) →
    pinLane x up hw d = (false, d)) ∧
  ∀ (d : Dev) (v : Vertex) hw, vertexAt d v.quarter v.slot = some v → vertexOf d v.ctx hw = some v →
    ∀ c, vertexOf (reclaim d v) c hw = none) ∧
  ((∀ s quarter slot v, vertexAt s.dev quarter slot = some v → v.state = .sealed → v.pin = 0 → v.child = false →
    (s.dev.ctx v.ctx).mwin < ((s.dev.ctx v.ctx).frame + 65536 - v.frame) % 65536 →
    exec (.vertexRetirement quarter slot) s = .next (s.withDev (reclaim s.dev v))) ∧
  (∀ s quarter v, storeCap s.dev quarter ≤ (storeHeld s.dev quarter).length →
    (storeHeld s.dev quarter).find? Vertex.isSealed = some v →
    exec (.vertexSpill quarter) s = .next (s.withDev (setVertex s.dev { v with spilled := true }))) ∧
  (∀ s quarter, (storeHeld s.dev quarter).length < storeCap s.dev quarter → exec (.vertexSpill quarter) s = .next s) ∧
  (∀ (d : Dev) quarter, d.retiredWays = [] → storeCap d quarter = 1048576) ∧
  (∀ (d : Dev) v c hw u, vertexAt d v.quarter v.slot = some v → vertexOf d c hw = some u →
    ∃ u', vertexOf (setVertex d { v with spilled := true }) c hw = some u' ∧ u'.ws = u.ws ∧ u'.state = u.state) ∧
  ∀ (d : Dev) v, (∀ u, u ∈ (reclaim d v).vertices → ¬(u.quarter = v.quarter ∧ u.slot = v.slot)) ∧
    slotGen (reclaim d v) v.quarter v.slot = (if slotGen d v.quarter v.slot = 65535 then 1 else slotGen d v.quarter v.slot + 1))

/-- R290 to R294, R44: the tree instructions. `qnset` takes legal settings of shape U; `qnins` inserts for its lanes in logical order,
after their earlier accesses; `qnbld` enters a build in its core's store; `qnwalk` starts each lane's walk of its tree; `qnnext` pops each
lane's next item and `qnend` tells whether a walk is over, once every lane has an item or its walk is over; `qnsum` reads a chunk of each
lane's current item. A group that would hold `vz` is an illegal instruction. That a group of `qnins` or `qnwalk` is checked only in the lanes
whose handle is live is DEDUCED (assumption 39), and so is that −0 is a legal setting (assumption 45). -/
def Obligations.TreeInstructions : Prop :=
  (∀ h (a : Reg) dot (depth : BitVec 8) s x, issue? (.qnset h a dot depth) s = some x →
    let i : Instr := .qnset h a dot depth
    let v := inReg x a 0
    let θ : F32 := BitVec.ofNat 32 (sub v 32 0)
    let ε : F32 := BitVec.ofNat 32 (sub v 32 1)
    let legal := groupU s.dev x.f a.toNat 1 = true ∧ openOk θ = true ∧ openOk ε = true
    (x.act = 0 → Answers i s (begun i x)) ∧
    (x.act ≠ 0 → ¬legal → exec i s = .next (finish x (.trap s.dev ⟨2, 0, 0, x.act, 0⟩))) ∧
    (x.act ≠ 0 → legal → Answers i s ((begun i x).setFibre
      { begunFib i x with theta := θ, eps := ε, maxDepth := depth.toNat, dot := dot }))) ∧
  (∀ h sc (r a b : Reg) s x, issue? (.qnins h sc r a b) s = some x →
    let i : Instr := .qnins h sc r a b
    let hd := fun L => inReg x b L
    let n := (x.act.lanes.filterMap fun L => (treeOf s.dev x.f.ctx (hd L)).map insertRegs).foldl max 0
    (x.act = 0 → Answers i s (begun i x)) ∧
    (x.act ≠ 0 → 255 < a.toNat + n → exec i s = .next (finish x (.trap s.dev ⟨2, 0, 0, x.act, 0⟩))) ∧
    (x.act ≠ 0 → a.toNat + n ≤ 255 → x.f.nAlloc < a.toNat + n →
      exec i s = .next (finish x (.trap s.dev ⟨3, 0, 0, x.act, 0⟩))) ∧
    (x.act ≠ 0 → a.toNat + n ≤ 255 → a.toNat + n ≤ x.f.nAlloc → x.f.chk = false → (∀ r, r ∈ regGroup a n → regPending s.dev x.f r = false) →
      (∀ L, x.act.has L = true → laneOver (begun i x) x.f.uid L = true) →
      let e := eachLane (fun dv L => insertLane x sc (hd L) (fun k => regLane s.dev x.f (a.toNat + k) L) L dv) (x.order (begun i x)) (begun i x)
      Answers i s (engineLanes x e.2 r e.1))) ∧
  (∀ h pad (r a : Reg) pb s x, issue? (.qnbld h pad r a pb) s = some x →
    let i : Instr := .qnbld h pad r a pb
    let w := regLane s.dev x.f (a.toNat + 2) 0
    let shape := resolveShape (begun i x) (begunFib i x) pb
    (bldShapeLit pb = false → exec i s = .next (finish x x.illegal)) ∧
    (bldShapeLit pb = true → x.act = 0 → Answers i s (begun i x)) ∧
    (bldShapeLit pb = true → x.act ≠ 0 → (groupU s.dev x.f a.toNat 3 = false ∨ shape = none ∨ configOk w = false ∨ ∀ sh, shape = some sh → bldShapeOk w pb sh = false) →
      exec i s = .next (finish x (.trap s.dev ⟨2, 0, 0, x.act, 0⟩))) ∧
    ∀ sh, bldShapeLit pb = true → x.act ≠ 0 → groupU s.dev x.f a.toNat 3 = true → shape = some sh → configOk w = true → bldShapeOk w pb sh = true →
      ∃ b : Build, b.id = s.dev.nextId ∧ b.core = x.f.core ∧ b.team = x.t.uid ∧ b.ctx = x.f.ctx ∧ b.fib = x.f.uid ∧ b.lanes = x.act ∧
        b.dst = r.toNat ∧ b.scratch = pad ∧ b.config = w ∧ b.keyA = inReg x a 0 ∧ b.payA = regLane s.dev x.f (a.toNat + 1) 0 ∧
        b.count = sh.ext.getD 1 0 ∧ b.strideK = sh.str.getD 0 0 ∧ b.strideD = sh.str.getD 1 0 ∧ b.prog = 0 ∧ b.keys = [] ∧
        b.state = .queued ∧ b.path = x.c.lanes ∧ b.buf = taskBuf x.f x.act ∧
        Answers i s (x.act.lanes.foldl (noteBuild x.f.uid b.id) { begun i x with nextId := s.dev.nextId + 1, builds := s.dev.builds ++ [b] })) ∧
  (∀ h sc (p : PredIdx) (a b : Reg) s x, issue? (.qnwalk h sc p a b) s = some x →
    let i : Instr := .qnwalk h sc p a b
    let hd := fun L => inReg x b L
    let n := (x.act.lanes.filterMap fun L => (treeOf s.dev x.f.ctx (hd L)).map keyRegs).foldl max 0
    (x.act = 0 → Answers i s (begun i x)) ∧
    (x.act ≠ 0 → 255 < a.toNat + n → exec i s = .next (finish x (.trap s.dev ⟨2, 0, 0, x.act, 0⟩))) ∧
    (x.act ≠ 0 → a.toNat + n ≤ 255 → x.f.nAlloc < a.toNat + n →
      exec i s = .next (finish x (.trap s.dev ⟨3, 0, 0, x.act, 0⟩))) ∧
    (x.act ≠ 0 → a.toNat + n ≤ 255 → a.toNat + n ≤ x.f.nAlloc → x.f.chk = false → (∀ r, r ∈ regGroup a n → regPending s.dev x.f r = false) →
      let e := eachLane (fun dv L => walkLane x sc (hd L) (fun k => regLane s.dev x.f (a.toNat + k) L) L dv) (x.order (begun i x)) (begun i x)
      Answers i s (enginePreds x e.2 p e.1))) ∧
  (∀ h (r : Reg) s x, issue? (.qnnext h r) s = some x →
    let i : Instr := .qnnext h r
    let e := eachLane (popLane x) (x.order (begun i x)) (begun i x)
    (x.act = 0 → Answers i s (begun i x)) ∧
    (x.act ≠ 0 → (∀ L, x.act.has L = true → walkReady (x.f.thread L) = true) → Answers i s (engineLanes x e.2 r e.1))) ∧
  (∀ h (p : PredIdx) s x, issue? (.qnend h p) s = some x →
    let i : Instr := .qnend h p
    (x.act = 0 → Answers i s (begun i x)) ∧
    (x.act ≠ 0 → (∀ L, x.act.has L = true → walkReady (x.f.thread L) = true) →
      Answers i s (enginePreds x (begun i x) p (x.act.lanes.map fun L => (L, match (x.f.thread L).walk with
        | none => true
        | some w => w.done && w.fifo.isEmpty))))) ∧
  ∀ h (k : BitVec 4) (p : PredIdx) (g : Reg) s x, issue? (.qnsum h k p g) s = some x →
    let i : Instr := .qnsum h k p g
    Answers i s (if x.act = 0 then begun i x else sendBoth x (begun i x) g 8 p (x.act.lanes.map fun L =>
      (L, match (x.f.thread L).walk.bind WalkSt.cur with
        | some m => (true, m.image.getD k.toNat (List.replicate 8 0))
        | none => (false, List.replicate 8 0))))

/-- R278, R282, R284, R292, R294: one lane of a tree instruction. A handle names a tree of its own context and of its index's current
generation only; a stale one answers the first refusal code and changes nothing, as does a key that is not finite with the second; an
insert that fits answers the key's number, which is the count of earlier keys, and adds the key at the end; the first key of a tree is its
root. A lane's walk pops its items in order, and an ended one answers bit 63. R201, R287 to R291: the walk reads
each node as some of the tree's inserts have left it, among them every one whose key's insert happens before its start; it takes a node whose opening test
passes as one item, a leaf that fails it key by key, each as the leaf is read then, and otherwise its children before what was still to
visit; and a build whose keys have all been read gives its index a new generation whose handle its lanes receive, or, with a number that
is not finite or a full store, leaves it and they receive 0. -/
def Obligations.TreeInsertsAndWalks : Prop :=
  ((∀ (d : Dev) c hw t, treeOf d c hw = some t → t.ctx = c ∧ t.index = field hw 0 8 ∧ t.home = field hw 8 2 ∧ t.gen = field hw 10 16 ∧
    t.gen = treeGen (d.ctx c) t.index ∧ field hw 26 38 = 0 ∧ t ∈ d.trees) ∧
  (∀ (x : Iss) sc hw reg L (d : Dev), treeOf d x.f.ctx hw = none → insertLane x sc hw reg L d = (0x8000000000000001, d)) ∧
  (∀ (x : Iss) sc hw reg L (d : Dev) t, treeOf d x.f.ctx hw = some t →
    ((groupKey t reg).all qFinite && (groupPay t reg).all qFinite) = false → insertLane x sc hw reg L d = (0x8000000000000002, d)) ∧
  (∀ (x : Iss) sc hw reg L (d : Dev) t, treeOf d x.f.ctx hw = some t →
    ((groupKey t reg).all qFinite && (groupPay t reg).all qFinite) = true →
    storeFull d t.home ((insertKey t ⟨groupKey t reg, groupPay t reg⟩).nodes.length - t.nodes.length) = false → t.keys.length < 2 ^ 32 - 1 →
    ∃ t' d', insertLane x sc hw reg L d = (BitVec.ofNat 64 t.keys.length, growTree d' t t') ∧ t'.uid = t.uid ∧
      t'.keys = t.keys ++ [⟨groupKey t reg, groupPay t reg⟩] ∧ d'.trees = d.trees ∧ d'.mem = d.mem ∧
      (growTree d' t t').trees = d.trees.map fun u => if u.uid == t.uid then { t' with olds := t.olds ++ [t.nodes] } else u) ∧
  (∀ (t : QTree) k, (insertKey t k).keys = t.keys ++ [k]) ∧
  (∀ (t : QTree) k, t.nodes = [] → ∃ n, (insertKey t k).nodes = [n] ∧ n.depth = 0 ∧ n.count = 1 ∧ n.centroid = k.vals ∧ n.spread = 0 ∧
    n.paySum = k.pay ∧ n.children = [] ∧ n.keys = [t.keys.length]) ∧
  (∀ (x : Iss) (d : Dev) L, ((x.fib d).thread L).walk = none → popLane x d L = (0x8000000000000000, d)) ∧
  (∀ (x : Iss) (d : Dev) L w m ms, d.fibre? x.f.uid = some (x.fib d) → L < 64 → L < (x.fib d).threads.length →
    ((x.fib d).thread L).walk = some w → w.fifo = m :: ms →
    ∃ d', popLane x d L = (m.word, d') ∧ ((x.fib d').thread L).walk = some { w with fifo := ms, cur := some m }) ∧
  ∀ s fib L f w, s.dev.fibre? fib = some f → (f.thread L).walk = some w →
    exec (.walkItemPush fib L) s = .next (s.withDev (s.dev.setFibre (f.onLanes (LaneMask.ofLanes [L]) fun _ t =>
      { t with walk := some (walkOn (treeKnow f.team f.core w.sc) (2 * w.tree.nodes.length + 2) w) })))) ∧
  ((∀ kn k (w : WalkSt) n j ns, w.done = false → w.fifo.length < 16 → w.keys = [] → w.stack = (n, j) :: ns →
    let m := w.look n j
    let u := w.tree.upTo m
    let rest := w.tree.siblings n j m ++ ns
    (u.node n).count ≠ 0 →
    (accepted w (u.node n) = true → walkOn kn (k + 1) w = { w with
      read := w.read + 1
      stack := rest
      fifo := w.fifo ++ [{ nodeItem u n with know := kn u (keysBelow u u.nodes.length n) }] }) ∧
    (accepted w (u.node n) = false → (u.node n).children = [] → walkOn kn (k + 1) w = walkOn kn k { w with
      read := w.read + 1
      stack := rest
      keys := (u.node n).keys.map fun key => { keyItem u n key with know := kn u [key] } }) ∧
    (accepted w (u.node n) = false → (u.node n).children ≠ [] →
      walkOn kn (k + 1) w = walkOn kn k { w with read := w.read + 1, stack := (u.node n).children.map (fun c => (c, m)) ++ rest })) ∧
  (∀ (w : WalkSt) n j, w.look n j ≤ w.tree.olds.length ∧ ∀ i, 0 < i → i ≤ w.tree.olds.length → w.tree.changed i n = true →
    w.tree.keyOf i ∈ w.must → i ≤ w.look n j) ∧
  (∀ (d : Dev) f L sc (t : QTree) q n, n ∈ t.notes → (n.fib = f.uid ∨ n.event ∈ reach d.before false (f.thread L).know ∧
      scopeHas n.sc n.team n.core f.team f.core = true ∧ scopeHas sc f.team f.core n.team n.core = true) →
    n.key ∈ (startWalk d f L sc t q).must) ∧
  (∀ kn k (w : WalkSt) m ms, w.done = false → w.fifo.length < 16 → w.keys = m :: ms →
    walkOn kn (k + 1) w = { w with keys := ms, fifo := w.fifo ++ [m] }) ∧
  (∀ kn k (w : WalkSt), w.fifo.length < 16 → w.keys = [] → w.stack = [] → (walkOn kn (k + 1) w).done = true) ∧
  (∀ (w : WalkSt) (n : QNode), w.dot = true →
    (accepted w n = true ↔ 0 < n.count ∧ n.depth ≤ w.maxDepth ∧
      let p := dotSum w.query n.centroid
      qLess (qMul (dotSum w.query w.query) (qMul n.spread n.spread)) (qMax (qMul (qMul w.theta w.theta) (qMul p p)) (qMul w.eps w.eps)) = true)) ∧
  (∀ (w : WalkSt) (n : QNode), w.dot = false →
    (accepted w n = true ↔ 0 < n.count ∧ n.depth ≤ w.maxDepth ∧
      qLess (qMul n.spread n.spread) (qMax (qMul (qMul w.theta w.theta) (sqDist w.query n.centroid)) (qMul w.eps w.eps)) = true)) ∧
  (∀ s id (b : Build) t, s.dev.builds.find? (fun k => k.id == id) = some b → s.dev.team? b.team = some t → b.state = .queued →
    b.scratch = false → (∀ j, j ∈ b.after → s.dev.pending j = false) → b.count = b.prog →
    (∀ c, c ∈ s.dev.builds → c.fib = b.fib → b.id ≤ c.id) →
    exec (.buildComplete id) s = .next (s.withDev (landBuild s.dev { b with state := .moved }))) ∧
  ∀ (d : Dev) (b : Build) f, d.fibre? b.fib = some f → HasReg d f b.dst → b.ctx < d.ctxs.length →
    let index := field b.config 0 8
    let g := treeGen (d.ctx b.ctx) index
    let d' := landBuild d b
    let finite := ∀ k, k ∈ b.keys → (∀ v, v ∈ k.vals → qFinite v = true) ∧ ∀ v, v ∈ k.pay → qFinite v = true
    let full := storeFull d (quarterOf b.core) (buildTree (emptyTree d.nextId (if g = 65535 then 1 else g + 1) b) b.keys).nodes.length
    let receives := fun (w : Word) => b.dst ≠ 255 → ∃ f', d'.fibre? b.fib = some f' ∧
      ∀ L, b.lanes.has L = true → f.liveLane L = true → L < f.width → L < 64 → regLane d' f' b.dst L = w
    (finite → full = false → treeGen (d'.ctx b.ctx) index = (if g = 65535 then 1 else g + 1) ∧
      ∃ t, t ∈ d'.trees ∧ t.ctx = b.ctx ∧ t.index = index ∧ t.home = quarterOf b.core ∧
        (∀ u, u ∈ d'.trees → u.ctx = b.ctx → u.index = index → u = t) ∧ receives (treeHandle t)) ∧
    (¬finite ∨ full = true → d'.trees = d.trees ∧ treeGen (d'.ctx b.ctx) index = g ∧ receives 0))

/-- R90, R104, R247, R303, R304: taking a fault or stop. The fibre freezes as it stands and one record of it is owed to its context's
fault queue; nothing else changes, and a fibre already frozen takes nothing more. In task threads, a fault that is no page fault and whose
lanes may all retry ends those threads and puts their tasks back; with no retry left the kind becomes 8 and the reason the original kind.
R305, R313: the fault-queue writer. A record owed goes to the ring at its tail with the tail as its sequence, FQTAIL advances, FQNOTE
receives the new tail, and the context's vector is signalled; with the ring full, or an access that its fibre has made before the fault
still to perform, it waits, and a refusal's record is discarded and counted. -/
def Obligations.FaultsFreezeAndRecordsAreWritten : Prop :=
  ((∀ clk (d : Dev) uid f t pc (i : FaultInfo), d.fibre? uid = some f → d.team? f.team = some t → f.frozen = none → f.ctx < d.ctxs.length →
    i.kind = 1 ∨ 9 ≤ i.kind ∨ t.wave = none →
    let d' := takeFault clk d uid pc i
    d'.fibre? uid = some { f with frozen := some ⟨i.kind, i.lanes, false, clk.cycle, pc⟩ } ∧ (∀ u, u ≠ uid → d'.fibre? u = d.fibre? u) ∧
      (d'.ctx f.ctx).owed = (d.ctx f.ctx).owed ++ [fibreRecord clk.now d f t pc i] ∧
      d' = { d with fibres := d'.fibres, ctxs := d'.ctxs } ∧ ∀ c, c ≠ f.ctx → d'.ctx c = d.ctx c) ∧
  (∀ clk (d : Dev) uid f pc i, d.fibre? uid = some f → f.frozen ≠ none → takeFault clk d uid pc i = d) ∧
  (∀ clk (d : Dev) uid f t pc (i : FaultInfo), d.fibre? uid = some f → d.team? f.team = some t → f.frozen = none → i.kind ≠ 1 → i.kind < 9 →
    t.wave ≠ none → i.lanes ≠ 0 →
    ((∀ L, i.lanes.has L = true → ∃ k, (f.thread L).task = some k ∧ k.retryable = true ∧ 0 < k.retries) →
      takeFault clk d uid pc i = retryTasks clk.now d f i.lanes) ∧
    ((∀ L, i.lanes.has L = true → ∃ k, (f.thread L).task = some k ∧ k.retryable = true ∧ k.retries = 0) →
      takeFault clk d uid pc i = freezeWith clk d f t pc { i with kind := 8, reason := i.kind })) ∧
  ∀ now (d : Dev) (f : Fibre) (t : Team) pc (i : FaultInfo), f.width < 256 → f.ctx < 64 →
    let w := fun k => (fibreRecord now d f t pc i).ws.getD k 0
    field (w 0) 0 4 = i.kind % 16 ∧ field (w 0) 4 4 = 0 ∧ field (w 0) 8 8 = i.reason % 256 ∧ field (w 0) 16 8 = f.width ∧
      field (w 0) 24 8 = f.ctx ∧ field (w 0) 32 32 = 0 ∧ w 1 = now ∧ w 2 = pc ∧ w 3 = i.detail ∧ w 4 = i.lanes ∧ w 5 = i.second ∧
      w 6 = t.lid ∧ field (w 7) 0 32 = laneTeam f t ((lowestLane i.lanes).getD 0) % 2 ^ 32 ∧
      field (w 7) 32 12 = (f.thread 0).logical % 4096 ∧ field (w 7) 44 20 = fibreToken f % 2 ^ 20) ∧
  ((∀ s c r rest, let x := s.dev.ctx c
    x.owed = r :: rest → c < 64 → c < s.dev.ctxs.length → ringRoom x = true → liveIds s.dev r.after = [] →
    r.ws.length = 8 → x.fqtail < 2 ^ 32 →
    ∃ s', exec (.faultRecordWrite c) s = .next s' ∧ s'.env = signalMsix s.env c ∧ s'.clk = s.clk ∧
      s'.dev.ctx c = { x with owed := rest, fqtail := (x.fqtail + 1) % 2 ^ 32 } ∧
      (x.fqnote = 0 → (∀ k, 1 ≤ k → k < 8 → memWord s'.dev.mem (x.fqbase + 64 * (x.fqtail % x.fqcap) + 8 * k) = r.ws.getD k 0) ∧
        field (memWord s'.dev.mem (x.fqbase + 64 * (x.fqtail % x.fqcap))) 32 32 = x.fqtail ∧
        field (memWord s'.dev.mem (x.fqbase + 64 * (x.fqtail % x.fqcap))) 0 32 = field (r.ws.getD 0 0) 0 32 ∧
        ∀ a, a < x.fqbase + 64 * (x.fqtail % x.fqcap) ∨ x.fqbase + 64 * (x.fqtail % x.fqcap) + 64 ≤ a →
          memRead s'.dev.mem a = memRead s.dev.mem a) ∧
      (x.fqnote ≠ 0 → memWord s'.dev.mem x.fqnote = BitVec.ofNat 64 ((x.fqtail + 1) % 2 ^ 32))) ∧
  (∀ s c r rest, (s.dev.ctx c).owed = r :: rest → ringRoom (s.dev.ctx c) = false → r.isRefusal = false → exec (.faultRecordWrite c) s = .next s) ∧
  (∀ s c r rest, c < 64 → (s.dev.ctx c).owed = r :: rest → ringRoom (s.dev.ctx c) = false → r.isRefusal = true →
    exec (.faultRecordWrite c) s = .next (s.withDev (s.dev.setCtx c
      { s.dev.ctx c with owed := rest, fqlost := min ((s.dev.ctx c).fqlost + 1) (2 ^ 64 - 1) }))) ∧
  (∀ s c r rest, (s.dev.ctx c).owed = r :: rest → liveIds s.dev r.after ≠ [] → r.isRefusal = false → exec (.faultRecordWrite c) s = .next s) ∧
  ∀ (d : Dev) c r, c < d.ctxs.length → let x := d.ctx c
    (x.fqcap ≤ (x.fqtail + 2 ^ 32 - x.fqhead) % 2 ^ 32 →
      oweRecord d c r true = d.setCtx c { x with fqlost := min (x.fqlost + 1) (2 ^ 64 - 1) }) ∧
    ((x.fqtail + 2 ^ 32 - x.fqhead) % 2 ^ 32 < x.fqcap → oweRecord d c r true = d.setCtx c { x with owed := x.owed ++ [r] }) ∧
    oweRecord d c r false = d.setCtx c { x with owed := x.owed ++ [r] })

/-- R161, R308, R44: a privileged instruction issued on a core that is not in privileged configuration is an illegal instruction: its
fibre takes that fault, whatever its guard. R309 to R312, R44: the system instructions on a core that may issue them. R104, R185, R302,
R305, R312: what `rfe` resumes. A frozen fibre of the context that the token names has its freeze cleared, with the new stack limit unless
that is all ones, and is found by it no more; a suspended command of the context goes on from its progress; a token that names nothing of
the context changes nothing. What stays stopped because its record still waits for room is marked, and goes on once that is written
(assumption 63). That the check for privilege comes before the register-bound and underrun checks is the model's choice (assumption 58), and
so is that the mask of a fault with no active lane holds the path's lanes (assumption 59). -/
def Obligations.PrivilegeAndSystemInstructions : Prop :=
  (∀ (i : Instr) h s x, hdrOf i = some h → issOf s h = some x → waitsAtIssue s.dev x.f x.t x.c.lanes s.clk.cycle i = false →
    privilegedInstr i = true → privilegedCore x.f.core = false →
    exec i s = .next (finish x (.trap s.dev ⟨2, 0, 0, if x.act = 0 then x.c.lanes else x.act, 0⟩))) ∧
  ((∀ (i : Instr) h kind (code : BitVec 16) s x, (kind = 9 ∧ i = .trap h code) ∨ (kind = 10 ∧ i = .brk h code) → issue? i s = some x →
    (x.act = 0 → Answers i s (begun i x)) ∧
    (x.act ≠ 0 → exec i s = .next (finish x (.trap (begun i x) ⟨kind, code.toNat % 256, BitVec.ofNat 64 code.toNat, x.act, 0⟩)))) ∧
  (∀ h (r : Reg) a s x, issue? (.sysr h r a) s = some x →
    let i : Instr := .sysr h r a
    (x.act = 0 → Answers i s (begun i x)) ∧
    (x.act ≠ 0 → (suVal x s.dev a).bind selector = none → exec i s = .next (finish x (.trap s.dev ⟨2, 0, 0, x.act, 0⟩))) ∧
    ∀ c off, x.act ≠ 0 → (suVal x s.dev a).bind selector = some (c, off) → allOver x (begun i x) = true →
      Answers i s (sendResult x (x.act.lanes.foldl (readReg x c off) (begun i x)) true true [r.toNat] 0 fun _ => [ctxReg (begun i x) c off])) ∧
  (∀ h a b s x, issue? (.sysw h a b) s = some x →
    let i : Instr := .sysw h a b
    (x.act = 0 → Answers i s (begun i x)) ∧
    (x.act ≠ 0 → (suVal x s.dev a).bind selector = none ∨ suVal x s.dev b = none →
      exec i s = .next (finish x (.trap s.dev ⟨2, 0, 0, x.act, 0⟩))) ∧
    ∀ c off v, x.act ≠ 0 → (suVal x s.dev a).bind selector = some (c, off) → suVal x s.dev b = some v → allOver x (begun i x) = true →
      Answers i s (Dev.regWrite s.clk.now (begun i x) x.t.uid x.f.core c off v (regKnow x (begun i x)))) ∧
  (∀ v, (selector v = none ↔ field v 6 3 ≠ 0 ∨ field v 18 46 ≠ 0) ∧
    ∀ c off, selector v = some (c, off) → c = field v 0 6 ∧ off = field v 6 12) ∧
  (∀ h (p : PredIdx) a s x, issue? (.haltCtx h p a) s = some x →
    let i : Instr := .haltCtx h p a
    (x.act = 0 → Answers i s (begun i x)) ∧
    (x.act ≠ 0 → suVal x s.dev a = none → exec i s = .next (finish x (.trap s.dev ⟨2, 0, 0, x.act, 0⟩))) ∧
    ∀ v, x.act ≠ 0 → suVal x s.dev a = some v →
      (64 ≤ v.toNat → exec i s = .next (finish x (.trap s.dev ⟨2, 0, 0, x.act, 0⟩))) ∧
      (v.toNat < 64 → let st := (s.dev.ctx v.toNat).state
        (st = .free ∨ st = .created ∨ st = .destroyed → Answers i s (sendPred x (begun i x) p fun _ => false)) ∧
        (st ≠ .free → st ≠ .created → st ≠ .destroyed → Answers i s (addFlight (cmdHalt s.clk.now (begun i x) v.toNat)
          (mkFlight x (.haltWait v.toNat false) (x.act.lanes.map fun L => laneOps L []) [] (if p.toNat < 24 then some p.toNat else none)))))) ∧
  (∀ h (p : PredIdx) a b s x, issue? (.haltCore h p a b) s = some x →
    let i : Instr := .haltCore h p a b
    (x.act = 0 → Answers i s (begun i x)) ∧
    (x.act ≠ 0 → suVal x s.dev a = none ∨ suVal x s.dev b = none → exec i s = .next (finish x (.trap s.dev ⟨2, 0, 0, x.act, 0⟩))) ∧
    ∀ k c, x.act ≠ 0 → suVal x s.dev a = some k → suVal x s.dev b = some c →
      (384 ≤ k.toNat ∨ 64 ≤ c.toNat → exec i s = .next (finish x (.trap s.dev ⟨2, 0, 0, x.act, 0⟩))) ∧
      (k.toNat < 384 → c.toNat < 64 →
        let fs := (begun i x).fibres.filter fun f => f.core == k.toNat && f.ctx == c.toNat
        Answers i s (sendPred x (fs.foldl (stopFibre s.clk) (begun i x)) p fun _ => !fs.isEmpty))) ∧
  ∀ h (p : PredIdx) a b s x, issue? (.rfe h p a b) s = some x →
    let i : Instr := .rfe h p a b
    (x.act = 0 → Answers i s (begun i x)) ∧
    (x.act ≠ 0 → suVal x s.dev a = none ∨ suVal x s.dev b = none → exec i s = .next (finish x (.trap s.dev ⟨2, 0, 0, x.act, 0⟩))) ∧
    ∀ v lim, x.act ≠ 0 → suVal x s.dev a = some v → suVal x s.dev b = some lim → allOver x (begun i x) = true →
      let legal := field v 20 12 = 0 ∧ field v 38 26 = 0
      let j := (begun i x).join (regKnow x (begun i x))
      (∀ d, legal → returnTo j.2 (field v 32 6) (field v 0 20) lim j.1 = some d → Answers i s (sendPred x d p fun _ => true)) ∧
      (¬legal ∨ returnTo j.2 (field v 32 6) (field v 0 20) lim j.1 = none → Answers i s (sendPred x (begun i x) p fun _ => false))) ∧
  ((∀ (d : Dev) c token lim event f, d.fibres.find? (fun f => f.ctx == c && fibreToken f == token && f.frozen.isSome) = some f →
    d.fibre? f.uid = some f → recordOwed d c token = false →
    ∃ d' f', returnTo d c token lim event = some d' ∧ d'.fibre? f.uid = some f' ∧ f'.frozen = none ∧
      f'.threads = f.threads.map (fun t => t.after false .sys event) ∧ f'.regs = f.regs ∧
      f'.stklim = (if lim = BitVec.allOnes 64 then f.stklim else lim) ∧ (∀ st, some st ∈ f'.streams → st.stop = none) ∧
      d' = { d with fibres := d'.fibres } ∧ ∀ u, u ≠ f.uid → d'.fibre? u = d.fibre? u) ∧
  (∀ (d : Dev) c token lim event f z, d.fibres.find? (fun f => f.ctx == c && fibreToken f == token && f.frozen.isSome) = some f →
    recordOwed d c token = true → f.frozen = some z → z.resume = false →
    returnTo d c token lim event = some (d.setFibre { f with
      threads := f.threads.map fun t => t.after false .sys event
      frozen := some { z with resume := true }
      stklim := if lim = BitVec.allOnes 64 then f.stklim else lim })) ∧
  (∀ (d : Dev) c token f z, d.fibres.find? (fun f => f.ctx == c && fibreToken f == token && f.frozen.any Freeze.resume) = some f →
    d.fibre? f.uid = some f → f.frozen = some z →
    ∃ f', (resumeNamed d c token).fibre? f.uid = some f' ∧ f'.frozen = none ∧ f'.threads = f.threads ∧ f'.stklim = f.stklim) ∧
  (∀ (d : Dev) c token lim event k, (∀ f, f ∈ d.fibres → f.ctx = c → fibreToken f = token → f.frozen = none) → k ∈ d.cmds → k.ctx = c →
    k.state = .suspended → engineToken k.core k.entry false = token →
    ∃ d', returnTo d c token lim event = some d' ∧
      { k with state := if recordOwed d c token then .resuming else .moving } ∈ d'.cmds ∧ d'.fibres = d.fibres ∧ d'.mem = d.mem) ∧
  ∀ (d : Dev) c token lim event, (∀ f, f ∈ d.fibres → f.ctx = c → fibreToken f = token → f.frozen = none) →
    (∀ k, k ∈ d.cmds → k.ctx = c → k.state ≠ .suspended ∨ engineToken k.core k.entry false ≠ token) →
    (∀ b, b ∈ d.builds → b.ctx = c → b.state ≠ .suspended ∨ engineToken b.core b.entry true ≠ token) →
    (d.ctx c).saved = [] → returnTo d c token lim event = none)

/-- R320, R321, R323, R44: `clk` sends a read of the time base that follows the active threads' accesses and time reads, once
what their tasks buffer is committed (assumption 61); `sleep` parks the
active threads whose instant is still to come, and wakes each when it has come; `mark` hands the trace writer one record of the path, and
`mark.all` one for each active lane, when marks are recorded. -/
def Obligations.TimeSleepAndMarks : Prop :=
  (∀ h (r : Reg) s x, issue? (.clk h r) s = some x →
    let i : Instr := .clk h r
    (x.act = 0 → Answers i s (begun i x)) ∧
    (x.act ≠ 0 → buffering x.f x.act = true → Answers i s (commitTasks x x.act s.dev)) ∧
    (x.act ≠ 0 → buffering x.f x.act = false → ∃ d, Answers i s d ∧ d.mem = s.dev.mem ∧ d.fibres = (begun i x).fibres ∧
      d.flights = s.dev.flights ++ [{ mkFlight x .clk (x.act.lanes.map fun L => laneOps L []) [r.toNat] none with
        id := s.dev.nextId, after := timeAfter x (begun i x) }])) ∧
  (∀ (i : Instr) h (rel : Bool) a s x, i = (if rel then .sleepRel h a else .sleepAbs h a) → issue? i s = some x →
    let instant := fun L => (if rel then s.clk.now + srcZ s.dev x.f x.t L a else srcZ s.dev x.f x.t L a : Word)
    ∃ f', Answers i s ((begun i x).setFibre f') ∧ f' = { begunFib i x with threads := f'.threads } ∧
      ∀ L, L < x.f.threads.length → f'.thread L = if x.act.has L = true ∧ s.clk.now.toNat < (instant L).toNat
        then { (begunFib i x).thread L with wait := .sleep (instant L) } else (begunFib i x).thread L) ∧
  (∀ s fib L f til, s.dev.fibre? fib = some f → (f.thread L).wait = .sleep til →
    (til.toNat ≤ s.clk.now.toNat → exec (.sleepWake fib L) s = .next (s.withDev (s.dev.setFibre (f.onLanes (LaneMask.ofLanes [L]) fun _ t =>
      { t with wait := .none })))) ∧
    (s.clk.now.toNat < til.toNat → exec (.sleepWake fib L) s = .next s)) ∧
  ∀ h a (code : BitVec 16) s x,
    (issue? (.mark h a code) s = some x → Answers (.mark h a code) s (if x.act = 0 then begun (.mark h a code) x
      else emitTrace (begun (.mark h a code) x) (markRecs x 0 x.act (srcZ s.dev x.f x.t ((lowestLane x.act).getD 0) a) code.toNat))) ∧
    (issue? (.markAll h a code) s = some x → Answers (.markAll h a code) s (if x.act = 0 then begun (.markAll h a code) x
      else emitTrace (begun (.markAll h a code) x) (x.act.lanes.flatMap fun L =>
        markRecs x 0 (LaneMask.ofLanes [L]) (srcZ s.dev x.f x.t L a) code.toNat)))

/-- R71, R92, R94, R106, R153, R177: the events of fibres and memory. A turn at its hold limit passes to the next context in cyclic order
that is ready; a helper's wait ends; an overlay whose copy fits becomes resident and its waiting lanes go on; a spilled frame is held
again; a zeroing leaves zeros in its page's bytes, ZS ready in its entry and every other byte as it was; a parked thread whose deadline
has passed returns. R183, R185, R196, R197, R213 to R215, R220, R224: the events of streams and of the Trowel. A command moves one element
in each step, so that what other agents store in between is seen from there on: R196 leaves the order and the grain of its accesses open;
one element a step, at a position among those still to move that is a free value, is the model's choice (assumption 41). A `waitaddr` whose
deadline has passed reads its word as a load does (R177), and so does a stream: where writes may still be missed, some writes ago
(assumption 70). -/
def Obligations.EventsOfFibresMemoryAndEngines : Prop :=
  ((∀ s core quad slot u, turnOf s.dev core quad slot = some u → u.issued = true →
    (∀ f, f ∈ contextFibres s.dev core quad slot u.pos → u.since + f.agelimit ≤ s.clk.cycle + 1) → u.since + 4 ≤ s.clk.cycle + 1 →
    ∃ d, exec (.holdLimit core quad slot) s = .next (s.withDev d) ∧
      ∀ k, 1 ≤ k → k ≤ 3 → contextReady s.dev s.clk.cycle core quad slot ((u.pos + k) % 4) = true →
        (∀ j, 1 ≤ j → j < k → contextReady s.dev s.clk.cycle core quad slot ((u.pos + j) % 4) = false) →
        turnOf d core quad slot = some ⟨core, quad, slot, (u.pos + k) % 4, s.clk.cycle + 1, false⟩) ∧
  (∀ s fib f, s.dev.fibre? fib = some f → f.readyAt ≤ s.clk.cycle →
    exec (.helperReady fib) s = .next (s.withDev (s.dev.setFibre { f with readyAt := 0 }))) ∧
  (∀ s core c base evict l ps d ws, s.dev.loads.find? (fun l => l.core == core && l.ctx == c && l.base == base) = some l →
    residentBytes (evictOverlays s.dev core evict).residents core + ovlBytes l.len ≤ 262144 →
    loadHeld (evictOverlays s.dev core evict) core c base = false → readOverlay (evictOverlays s.dev core evict) core c base l.len = (.parts ps, d, ws) →
    ∃ d', exec (.overlayLoadComplete core c base evict) s = .next (s.withDev d') ∧ residentAt d' core c base = some ⟨core, c, base, ws⟩ ∧
      (∀ l, l ∈ d'.loads → ¬(l.core = core ∧ l.ctx = c ∧ l.base = base)) ∧
      ∀ f t, f ∈ d'.fibres → t ∈ f.threads → f.core = core → f.ctx = c → t.wait ≠ .overlay base) ∧
  (∀ s fib L f, s.dev.fibre? fib = some f → (f.thread L).life = .live → (f.thread L).held < min 4 (f.thread L).depth →
    exec (.frameFillComplete fib L) s = .next (s.withDev (s.dev.setFibre (f.onLanes (LaneMask.ofLanes [L]) fun _ t =>
      { t with held := t.held + 1, wait := if t.wait == .frame then .none else t.wait })))) ∧
  (∀ s e z, s.dev.zeroings.filter (fun z => z.entryAt == e) = [z] → z.repl = false → e + 8 ≤ z.base ∨ z.base + z.len ≤ e →
    ∃ d, exec (.zeroingComplete e) s = .next (s.withDev d) ∧
      (∀ a, z.base ≤ a → a < z.base + z.len → memRead d.mem a = 0) ∧
      (z.named (memWord s.dev.mem e) = true → memWord d.mem e = memWord s.dev.mem e &&& ~~~(0x1800#64)) ∧
      (z.named (memWord s.dev.mem e) = false → memWord d.mem e = memWord s.dev.mem e) ∧
      (∀ a, a < z.base ∨ z.base + z.len ≤ a → a < e ∨ e + 8 ≤ a → memRead d.mem a = memRead s.dev.mem a) ∧
      ∀ f t, f ∈ d.fibres → t ∈ f.threads → t.wait ≠ .zero e) ∧
  (∀ s e z y ys, s.dev.zeroings.filter (fun z => z.entryAt == e) = z :: y :: ys → z.repl = false →
    ∃ d, exec (.zeroingComplete e) s = .next (s.withDev d) ∧ d.zeroings.filter (fun z => z.entryAt == e) = y :: ys ∧
      (∀ a, memRead d.mem a = if z.base ≤ a ∧ a < z.base + z.len then 0 else memRead s.dev.mem a) ∧ d.fibres = s.dev.fibres) ∧
  ∀ s fib L w f, s.dev.waiters.find? (fun w => w.fib == fib && w.lane == L && !w.marked && w.deadline != BitVec.allOnes 64 &&
      decide (w.deadline.toNat ≤ s.clk.now.toNat)) = some w → s.dev.fibre? fib = some f → (f.thread L).life = .live → L < 64 →
    L < f.width → HasReg s.dev f w.dst → (∀ k, k ∈ w.acc.kinds → k % 4 ≠ 2) →
    ∃ d f', exec (.waitaddrDeadline fib L) s = .next (s.withDev d) ∧ w ∉ d.waiters ∧ d.fibre? fib = some f' ∧
      (f'.thread L).wait = .none ∧ d.mem = s.dev.mem ∧
      (w.dst ≠ 255 → ∃ b, (s.dev.past = [] → b = 0) ∧ regLane d f' w.dst L = leWord (bytesBack s.dev w.core w.team b w.acc)) ∧
      ∀ r, r ≠ w.dst → regOf d f' r = regOf s.dev f r) ∧
  ((∀ s fib n f t st, s.dev.fibre? fib = some f → s.dev.team? f.team = some t → f.stream n = some st → st.stop = none →
    liveIds s.dev st.after = [] → st.write = false → st.form = 2 → st.scratch = true → st.prog < st.count →
    st.fifo.length < 64 →
    let va := st.base + BitVec.ofNat 64 (st.prog * st.bytes)
    let a := (st.engine s.dev f.core f.ctx fib n).acc va (spPlaces va.toNat st.bytes) 0
    bytesBack s.dev f.core t.uid 0 a = memBytes t.sp va.toNat st.bytes ∧
    (va.toNat + st.bytes ≤ spBytes t → st.buf = [] → (∀ g, g ∈ s.dev.flights → g.fib ≠ fib) → (∀ c, c ∈ s.dev.cmds → c.team ≠ t.uid) →
      ∃ b, (s.dev.past = [] → b = 0) ∧ exec (.streamRunAhead fib n) s = .next (s.withDev (setStream s.dev fib n
        (some { st with fifo := st.fifo ++ [leWord (bytesBack s.dev f.core t.uid b a)], prog := st.prog + 1 })))) ∧
    (spBytes t < va.toNat + st.bytes → st.closing = false →
      exec (.streamRunAhead fib n) s = .next (s.withDev (setStream s.dev fib n (some { st with stop := some (5, 2, va) }))))) ∧
  (∀ s fib n f st g, s.dev.fibre? fib = some f → f.stream n = some st → st.closing = true → st.fifo = [] →
    s.dev.flights.find? (fun g => g.fib == fib && g.kind == .drain n) = some g → NoUoFence s.dev g.id → n < f.streams.length →
    ∃ d f', exec (.streamDrainComplete fib n) s = .next (s.withDev d) ∧ d.fibre? fib = some f' ∧ f'.stream n = none ∧
      (∀ h, h ∈ d.flights → h.id ≠ g.id) ∧ d.mem = s.dev.mem ∧
      ∀ p a, g.pdst = some p → p < 24 → a ∈ g.acc → a.lane < 64 → a.lane < f.threads.length → predLane f' p a.lane = true) ∧
  (∀ s core c, nextCmd s.dev core = some c → cmdMayStart s.dev c = true →
    let r := moveStep s.dev c c.next fun k => Config.older c.id (4 * c.next + k)
    exec (.trowelCommandStart core) s = .next (s.withDev (r.1.setCmd r.2))) ∧
  (∀ c : Cmd, c.prog < c.total → c.prog ≤ c.next ∧ c.next < c.total ∧ (c.next ≠ c.prog → ∀ q, q ∈ c.done → q.1 ≠ c.next)) ∧
  (∀ (c : Cmd) p put,
    (p ≠ c.prog → c.stepped p put =
      { c with done := (p, put) :: c.done, pos := p, state := if c.total ≤ c.prog then .moved else .moving }) ∧
    (c.done = [] → c.stepped c.prog put =
      { c with prog := c.prog + 1, pos := c.prog, state := if c.total ≤ c.prog + 1 then .moved else .moving })) ∧
  (∀ (d : Dev) (c : Cmd) p back t, d.team? c.team = some t → c.op = .cpy → c.src = .sp → c.dst = .sp → c.blk = false → c.buf = [] →
    let n := elemBytes c.fmt false
    let src := c.srcA + BitVec.ofInt 64 (c.strided p * n)
    let dst := c.dstA + BitVec.ofInt 64 ((p : Int) * n)
    (d.past = [] → c.done = [] → c.afterW = [] → (∀ g, g ∈ d.flights → g.fib ≠ c.fib) → (∀ b, b ∈ d.builds → b.fib ≠ c.fib) →
      (∀ k, k ∈ d.cmds → k.team = c.team → c.id ≤ k.id) → src.toNat + n ≤ spBytes t → dst.toNat + n ≤ spBytes t → moveStep d c p back =
      (endNotes (d.setTeam { t with sp := memPut t.sp dst.toNat (memBytes t.sp src.toNat n) }) t.uid
        ((List.range n).map fun i => .spad (dst.toNat + i)), c.stepped p [((p : Int) * n, n)])) ∧
    (spBytes t < src.toNat + n → moveStep d c p back = (d, { c with state := .faulted 5 2 src, pos := p }))) ∧
  (∀ (c : Cmd) p, c.ext.length = 4 → c.str.length = 4 → (∀ e, e ∈ c.ext → 0 < e) →
    c.strided p = (p % c.ext.getD 0 1 : Nat) * (c.str.getD 0 0).toInt + (p / c.ext.getD 0 1 % c.ext.getD 1 1 : Nat) * (c.str.getD 1 0).toInt +
      (p / (c.ext.getD 0 1 * c.ext.getD 1 1) % c.ext.getD 2 1 : Nat) * (c.str.getD 2 0).toInt +
      (p / (c.ext.getD 0 1 * c.ext.getD 1 1 * c.ext.getD 2 1) % c.ext.getD 3 1 : Nat) * (c.str.getD 3 0).toInt) ∧
  (∀ s id (c : Cmd), s.dev.cmds.find? (fun c => c.id == id && c.state == .moved) = some c →
    exec (.completionArrival id) s = .next (s.withDev (landCmd { s.dev with cmds := s.dev.cmds.filter fun b => b.id != id } c))) ∧
  (∀ s id (c : Cmd) k r va, s.dev.cmds.find? (fun c => c.id == id) = some c → c.state = .faulted k r va → c.ctx < s.dev.ctxs.length →
    ∃ d rec', exec (.commandFault id) s = .next (s.withDev d) ∧ (d.ctx c.ctx).owed = (s.dev.ctx c.ctx).owed ++ [rec'] ∧
      d.cmds = s.dev.cmds.map (fun b => if b.id == c.id then { c with state := .suspended } else b) ∧ rec'.ws.getD 2 0 = c.pc ∧
      rec'.ws.getD 3 0 = va ∧ rec'.ws.getD 5 0 = BitVec.ofNat 64 c.pos ∧ rec'.ws.getD 6 0 = c.lid ∧
      field (rec'.ws.getD 0 0) 0 8 = k % 16 + 16 ∧ field (rec'.ws.getD 7 0) 44 20 = engineToken c.core c.entry false % 2 ^ 20) ∧
  ∀ s id q (g : Flight) a, s.dev.flights.find? (fun g => g.id == id && g.kind == .flip q) = some g → mayPerform s.dev g = true →
    NoUoFence s.dev g.id → g.acc = [a] → (∀ k, k ∈ a.kinds → mcKind k = false) →
    ∃ d, exec (.flipPerform id q) s = .next (s.withDev d) ∧
      (∀ b, memRead d.mem b = (lastStored g b).getD (memRead s.dev.mem b)) ∧ ∀ h, h ∈ d.flights → h.id ≠ g.id)

/-- R237, R238, R239: dispatch. A launch queue's next packet is dispatched while its context's queues dispatch, once every team of the
packet before is placed and, for a Serial packet, that grid has retired and its completion write has performed; its grid acquires what the
append handed on, and a Serial one's what that grid did; a packet that passes the checks becomes a grid whose teams are all Queued, each
team in exactly one Quarter's range. -/
def Obligations.PacketsDispatchInOrder : Prop :=
  (∀ s c qn (e : QEntry) rest, let x := s.dev.ctx c
    let q := x.queue qn
    q.entries = e :: rest → q.kind = 1 → dispatches x = true →
    (∀ l g, q.last = some l → s.dev.grid? c l = some g → g.todo = [] ∧ (field (e.ws.getD 0 0) 8 1 = 1 → g.retired = true)) →
    (field (e.ws.getD 0 0) 8 1 = 1 → ∀ i, q.wrote = some i → ∀ f, f ∈ s.dev.flights → f.id ≠ i) →
    exec (.launchDispatch c qn) s = .next (s.withDev
      (dispatch s.clk.now (setQueue s.dev c qn { q with entries := rest, seq := q.seq + 1, last := some (queueLid qn q.seq) }) c e.ws
        (queueLid qn q.seq) ⟨0, 0, none, none, some qn, none, none,
          dedupNat (e.know ++ if field (e.ws.getD 0 0) 8 1 = 1 then q.learnt else [])⟩))) ∧
  (∀ s c qn, let x := s.dev.ctx c
    let q := x.queue qn
    (q.kind ≠ 1 ∨ dispatches x = false ∨ (∃ l g, q.last = some l ∧ s.dev.grid? c l = some g ∧ g.todo ≠ []) ∨
      ∃ e rest i, q.entries = e :: rest ∧ field (e.ws.getD 0 0) 8 1 = 1 ∧ q.wrote = some i ∧ ∃ f, f ∈ s.dev.flights ∧ f.id = i) →
    exec (.launchDispatch c qn) s = .next s) ∧
  (∀ now (d d1 : Dev) c ws lid (o : Origin) h, packetOk ws = true →
    readHeader d c (ws.getD 1 0) (field (ws.getD 2 0) 0 11) = (some h, d1) →
    slotsNeed h (field (ws.getD 2 0) 0 11) ≤ 16 → h.rf + h.sp + h.tiles ≤ 128 → d1.armed = none →
    ∃ g, dispatch now d c ws lid o = { d1 with order := d1.order + 1, grids := d1.grids ++ [g] } ∧ g.know = o.know ∧ g.ctx = c ∧ g.lid = lid ∧ g.packet = ws ∧
      g.hdr = h ∧ g.depth = o.depth ∧ g.todo = partition ws ∧ g.live = 0 ∧ g.refused = false ∧ g.retired = false ∧ g.parent = o.parent) ∧
  ∀ ws, packetOk ws = true → ∀ k, k < field (ws.getD 0 0) 32 32 →
    ∃ p, p ∈ partition ws ∧ p.1 < 4 ∧ p.2.1 ≤ k ∧ k < p.2.2 ∧
      ∀ p', p' ∈ partition ws → p'.2.1 ≤ k → k < p'.2.2 → p' = p

/-- R83, R86, R240, R242, R296, R298: placement and retirement. The Quarter's next context places its next team, or released wave, on the
room found, which makes the context Running; the room is on the core with the most free pool units, the lowest of equals; a draining team
whose work is complete retires, which makes a context with no other team Resident; a grid whose teams have all retired and whose children
have too retires and lets nodes and expert queues go on. R245, R246, R249: bins, waves and expert queues. A bin whose oldest task has
waited long enough is released whole; a Plaza without a wave takes one it can place from its own Quarter; an expert queue that has reached
its threshold, timed out or been asked fires one batch when a slot is free, and its timer asks for it. -/
def Obligations.PlacementWavesAndExpertQueues : Prop :=
  ((∀ s q c g i r, let d := (List.range 64).foldl (reportHeld s.clk.now q) s.dev
    nextContext d q = some (c, .grid g i r) →
    exec (.teamPlacement q) s = .next (s.withDev (startTeam s.clk.now (d.setGrid (takeTeam g q)) c g.lid i
      (field (g.packet.getD 2 0) 0 11) g.hdr g.depth none [] g.know r))) ∧
  (∀ s q c w r, let d := (List.range 64).foldl (reportHeld s.clk.now q) s.dev
    nextContext d q = some (c, .wave w r) →
    exec (.teamPlacement q) s = .next (s.withDev (startTeam s.clk.now
      { d.setCtx c { d.ctx c with waveSeq := (d.ctx c).waveSeq + 1 } with waves := d.waves.filter (· != w) } c (queueLid w.queue 0)
      (d.ctx c).waveSeq w.tasks.length (waveHdr { d.setCtx c { d.ctx c with waveSeq := (d.ctx c).waveSeq + 1 } with
        waves := d.waves.filter (· != w) } w) 0 (some w.queue) w.tasks [] r))) ∧
  (∀ now (d : Dev) c lid index threads h depth wave tasks know r, c < d.ctxs.length →
    let d' := startTeam now d c lid index threads h depth wave tasks know r
    d'.teams = d.teams ++ [newTeam d.nextId c lid index threads h depth wave r] ∧ (d'.ctx c).state = .running) ∧
  (∀ (d : Dev) room cores b, bestRoom d room cores = some b → (∃ k, k ∈ cores ∧ room k = some b) ∧
    (∀ k r, k ∈ cores → room k = some r → freeUnits d r.core ≤ freeUnits d b.core) ∧
    (cores.Pairwise (· < ·) → (∀ k r, room k = some r → r.core = k) →
      ∀ k r, k ∈ cores → room k = some r → freeUnits d r.core = freeUnits d b.core → b.core ≤ k)) ∧
  (∀ s tm t, s.dev.team? tm = some t → teamOver s.dev t = true →
    exec (.teamRetirement tm) s = .next (s.withDev (retireTeam s.clk.now s.dev t))) ∧
  (∀ now (d : Dev) (t : Team), (∀ u, u ∈ (retireTeam now d t).teams → u.uid ≠ t.uid) ∧
    (t.ctx < d.ctxs.length → (d.ctx t.ctx).state = .running → (∀ u, u ∈ d.teams → u.ctx = t.ctx → u.uid = t.uid) →
      (d.ctx t.ctx).saved = [] → ((retireTeam now d t).ctx t.ctx).state = .resident)) ∧
  ∀ s c lid g, s.dev.grid? c lid = some g → g.retired = false → g.todo = [] → g.live = 0 →
    (∀ h, h ∈ s.dev.grids → h.ctx = g.ctx → h.parent = some g.lid → h.parentTask = none → h.retired = true) →
    exec (.gridRetirement c lid) s = .next (s.withDev
      (fireQueues s.clk.now (runNodes s.clk.now (retireGrid s.clk.now s.dev g) c) c))) ∧
  ((∀ s c q plaza entry (b : Bin) (k : Task) ks,
    s.dev.bins.find? (fun b => b.ctx == c && b.queue == q && b.plaza == plaza && b.entry == entry) = some b → b.tasks = k :: ks →
    (k.since.toNat + (s.dev.ctx c).wavewait ≤ s.clk.now.toNat →
      ∃ d, exec (.waveReleaseTimer c q plaza entry) s = .next (s.withDev d) ∧
        d.waves = s.dev.waves ++ [⟨c, q, plaza, entry, b.tasks, s.dev.order, false⟩] ∧ d.order = s.dev.order + 1 ∧
        ∀ b', b' ∈ d.bins ↔ b' ∈ s.dev.bins ∧ ¬(b'.ctx = c ∧ b'.queue = q ∧ b'.plaza = plaza ∧ b'.entry = entry)) ∧
    (s.clk.now.toNat < k.since.toNat + (s.dev.ctx c).wavewait → exec (.waveReleaseTimer c q plaza entry) s = .next s)) ∧
  (∀ s plaza w, (∀ v, v ∈ s.dev.waves → v.plaza ≠ plaza) → (nearPlazas plaza).findSome? (stealable s.dev plaza) = some w →
    exec (.waveSteal plaza) s = .next (s.withDev { s.dev with
      waves := s.dev.waves.map fun v => if v == w then { v with plaza := plaza } else v })) ∧
  (∀ s plaza, (∃ v, v ∈ s.dev.waves ∧ v.plaza = plaza) → exec (.waveSteal plaza) s = .next s) ∧
  (∀ (q : Queue) now, q.mayFire now = true ↔ q.kind = 3 ∧ q.freeSlotNo ≠ none ∧ 0 < q.tokens ∧
    (q.fld 2 0 12 ≤ q.tokens ∨ q.timedOut now = true ∨ q.fireReq = true)) ∧
  (∀ s c qn, dispatches (s.dev.ctx c) = true → ((s.dev.ctx c).queue qn).mayFire s.clk.now = true → (s.dev.ctx c).batchOwed qn = false →
    exec (.expertFire c qn) s = .next (s.withDev (fireOnce s.clk.now s.dev c qn).2)) ∧
  (∀ s c qn, dispatches (s.dev.ctx c) = false ∨ ((s.dev.ctx c).queue qn).mayFire s.clk.now = false →
    exec (.expertFire c qn) s = .next s) ∧
  (∀ s c qn, let q := (s.dev.ctx c).queue qn
    q.kind = 3 → q.timedOut s.clk.now = true →
    exec (.expertTimer c qn) s = .next (s.withDev (fireQueue s.clk.now c qn 4096 (setQueue s.dev c qn { q with fireReq := true })))) ∧
  ∀ now (d : Dev) c qn k event d1, let q := (d.ctx c).queue qn
    let toks := (q.entries.flatMap QEntry.ws).take (q.fld 2 12 12)
    let va := BitVec.ofNat 64 (q.fld 4 0 64 + k * ((8 + 8 * q.fld 2 12 12 + 63) / 64 * 64))
    let fired := firedEntries toks.length q.entries
    let p := ctxWords d1 c (BitVec.ofNat 64 (q.fld 1 0 64)) 16
    q.freeSlotNo = some k → ctxWrite d c va ((BitVec.ofNat 64 toks.length :: toks).flatMap wordLE) = .ok (event, d1) →
    ∃ q', fireOnce now d c qn = (true, dispatch now (setQueue p.2 c qn q') c
        (setAt (p.1.getD (List.replicate 16 0)) 15 va) (queueLid qn q.seq)
        ⟨BitVec.ofNat 64 (q.fld 1 0 64), 0, none, none, some qn, some k, none, dedupNat (event :: fired.flatMap QEntry.know)⟩) ∧
      q'.entries = dropTokens toks.length q.entries ∧ q'.seq = q.seq + 1 ∧ q'.slots = setAt q.slots k (some (queueLid qn q.seq)) ∧
      q'.fireReq = false ∧ q'.desc = q.desc)

/-- R236, R313 to R315, R334: the host. Over a link that is up, and where the access tables let it, an append reaches its queue or is
counted as dropped; a register write acts on the control block, the device page or the vector table; a write or read of the memory window
acts on the bytes of the window's context, and one whose pages do not translate is counted, a read answered by Completer Abort; a register
read answers the registers' bytes, at any offset and length (DEDUCED, assumption 24). That bit 32 of word 2k + 1 of the vector table masks
vector k, and that a pending vector is sent when its mask clears, is the model's choice (PRESUMED, assumption 35); so is that what the
device sends is the list `replies` (assumption 34). Where the tables do not, the access is counted and a read is answered by Completer Abort. -/
def Obligations.HostAccesses : Prop :=
  (∀ s c q ws, c < 64 → q < 256 → ws.length = 16 → s.env.linkUp = true →
    exec (.hostAppend c q ws) s = .next (if s.env.allows .host .contextControl true
      then s.withDev (outsideAppend s.clk.now s.dev c q s.dev.hostKnow ws) else { s with env := { s.env with denials := s.env.denials + 1 } })) ∧
  (∀ now (d : Dev) c q know ws, outsideAppend now d c q know ws = if (appendRec now d c q none know ws).1 then (appendRec now d c q none know ws).2
    else oweRefusal now (setQueue d c q { (d.ctx c).queue q with dropped := min (((d.ctx c).queue q).dropped + 1) 65535 }) c 4 0 0 0) ∧
  (∀ s off (v : Word), s.env.linkUp = true → s.env.allows .host .contextControl true = true → off % 8 = 0 →
    (off < 0x40000 → exec (.hostWindowWrite off (wordLE v)) s =
      .next (s.withDev (Dev.regWrite s.clk.now s.dev 0 0 (off / 4096) (off % 4096) v s.dev.hostKnow))) ∧
    (0x40000 ≤ off → off < 0x41000 → exec (.hostWindowWrite off (wordLE v)) s = .next (devWriteReg s (off - 0x40000) v)) ∧
    (0x50000 ≤ off → off < 0x50400 → s.env.msixTable.length = 128 → let k := (off - 0x50000) / 8
      ∃ e, exec (.hostWindowWrite off (wordLE v)) s = .next { s with env := e } ∧ e.msixTable = setAt s.env.msixTable k v ∧
        (s.env.msixPending.getLsbD (k / 2) = true → (e.msixTable.getD (2 * (k / 2) + 1) 0).getLsbD 32 = false →
          e.replies = .msix (k / 2) :: s.env.replies ∧ e.msixPending.getLsbD (k / 2) = false) ∧
        (s.env.msixPending.getLsbD (k / 2) = false ∨ (e.msixTable.getD (2 * (k / 2) + 1) 0).getLsbD 32 = true →
          e.replies = s.env.replies ∧ e.msixPending = s.env.msixPending))) ∧
  (∀ s off bs, s.env.linkUp = true → s.env.allows .host .contextControl true = false → off < 2 ^ 24 + 2 ^ 26 →
    exec (.hostWindowWrite off bs) s = .next { s with env := { s.env with denials := s.env.denials + 1 } }) ∧
  (∀ s off bs, s.env.linkUp = true → 2 ^ 36 ≤ off → off + bs.length ≤ 2 ^ 37 →
    (s.env.allows .host .memoryWindow true = true → exec (.hostWindowWrite off bs) s = .next (windowWrite s (off - 2 ^ 36) bs)) ∧
    (s.env.allows .host .memoryWindow true = false →
      exec (.hostWindowWrite off bs) s = .next { s with env := { s.env with denials := s.env.denials + 1 } })) ∧
  (∀ s off len, s.env.linkUp = true → (off < 2 ^ 36 ∨ 2 ^ 37 < off + len) →
    exec (.hostWindowRead off len) s = .next (if s.env.allows .host .contextControl false
      then { s with
        dev := s.dev.hostRead ((List.range len).map fun k => regPlace ((off + k) / 4096) ((off + k) % 4096 / 8 * 8))
        env := { s.env with
          replies := .hostRead (some ((List.range len).map fun k => barByte s (off + k))) :: s.env.replies } }
      else { s with env := { s.env with denials := s.env.denials + 1, replies := .hostRead none :: s.env.replies } })) ∧
  (∀ s off len, s.env.linkUp = true → 2 ^ 36 ≤ off → off + len ≤ 2 ^ 37 → s.env.allows .host .memoryWindow false = true →
    exec (.hostWindowRead off len) s = .next (windowRead s (off - 2 ^ 36) len)) ∧
  (∀ s off len, s.env.linkUp = true → 2 ^ 36 ≤ off → off + len ≤ 2 ^ 37 → s.env.allows .host .memoryWindow false = false →
    exec (.hostWindowRead off len) s = .next { s with env := { s.env with
      denials := s.env.denials + 1, replies := .hostRead none :: s.env.replies } }) ∧
  (∀ s off bs pl d, outsidePlaces s.dev s.env.dmwctx true (s.env.dmwbase + BitVec.ofNat 64 off) bs.length = (some pl, d) →
    windowWrite s off bs = s.withDev (d.hostWrite (outsideBytes pl bs))) ∧
  (∀ s off bs d, outsidePlaces s.dev s.env.dmwctx true (s.env.dmwbase + BitVec.ofNat 64 off) bs.length = (none, d) →
    windowWrite s off bs = { s with dev := d, env := { s.env with dmwerr := min (s.env.dmwerr + 1) (2 ^ 64 - 1) } }) ∧
  (∀ s off len pl d, outsidePlaces s.dev s.env.dmwctx false (s.env.dmwbase + BitVec.ofNat 64 off) len = (some pl, d) →
    windowRead s off len = { s with dev := d.hostRead (pl.map Prod.fst), env := { s.env with
      replies := .hostRead (some (pl.map fun p => match p.1 with
        | .phys a => memRead d.mem a
        | _ => 0)) :: s.env.replies } }) ∧
  (∀ s off len d, outsidePlaces s.dev s.env.dmwctx false (s.env.dmwbase + BitVec.ofNat 64 off) len = (none, d) →
    windowRead s off len = { s with dev := d, env := { s.env with
      dmwerr := min (s.env.dmwerr + 1) (2 ^ 64 - 1), replies := .hostRead none :: s.env.replies } }) ∧
  (∀ (d : Dev) ps, (d.hostRead ps).mem = d.mem ∧ (d.hostRead ps).fibres = d.fibres ∧ (d.hostRead ps).ctxs = d.ctxs) ∧
  ∀ (d : Dev) pl bs a, memRead (d.hostWrite (outsideBytes pl bs)).mem a =
    (((outsideBytes pl bs).reverse.find? fun p => p.1 == .phys a).map Prod.snd).getD (memRead d.mem a)

/-- R233, R250, R296 to R298, R307, R314, R326: commands and control registers. Command 1 makes a Free context Created with its registers
at their first values; command 2 makes a Created or Halted context with a root, a save area and a fault ring Resident; command 3 and
command 4 halt and destroy, a Pre-empted one once its halt has ended; QSEL and GSEL commit (a commit of zeros to a Closed queue without
entries deletes it: the model's choice, assumption 20); every register of the control block and of the device page takes the values of its
range, ROOT, SAVE, SAVELEN, FQBASE and FQCAP only of a Created, Switched or Halted context, and a value outside its range or a write to what
is only read or not listed changes nothing, DSTOPT with bits 63:44 set (DEDUCED, assumption 21) and TRCTL of 16 or more (DEDUCED,
assumption 51) and SMPPER of 0 (DEDUCED, assumption 23) among them; the sampling period counts from its write, or from the setting of TRCTL
bit 1 (the model's choice, assumption 23); TSET steps the time base once, before any context
exists. Commands and register writes are the host's: they come over its link, and where the access tables do not let it write (R334) they
change nothing but the count of denials. -/
def Obligations.CommandsAndControlRegisters : Prop :=
  (∀ s c, HostMayWrite s → c < 64 → s.dev.regions = true → (s.dev.ctx c).state = .free →
    exec (.ccmdCreate c) s = .next (s.withDev
      { s.dev.setCtx c { Ctx.initial with state := .created, treeGens := (s.dev.ctx c).treeGens } with created := true })) ∧
  (∀ s c, HostMayWrite s → (s.dev.ctx c).state ≠ .free ∨ s.dev.regions = false → exec (.ccmdCreate c) s = .next s) ∧
  (∀ s c, HostMayWrite s → c < 64 → let x := s.dev.ctx c
    (x.root ≠ 0 → x.save ≠ 0 → x.fqbase ≠ 0 → x.state = .created ∨ (x.state = .halted ∧ x.saved = []) →
      exec (.ccmdStart c) s = .next (s.withDev (s.dev.setCtx c { x with state := .resident }))) ∧
    (x.root ≠ 0 → x.save ≠ 0 → x.fqbase ≠ 0 → x.state = .halted → x.saved ≠ [] →
      exec (.ccmdStart c) s = .next (s.withDev (s.dev.setCtx c { x with state := .switched }))) ∧
    (x.root = 0 ∨ x.save = 0 ∨ x.fqbase = 0 → exec (.ccmdStart c) s = .next s)) ∧
  (∀ s c, HostMayWrite s → c < 64 → let x := s.dev.ctx c
    (x.state = .running → exec (.ccmdHalt c) s = .next (s.withDev
      (s.dev.setCtx c { x with state := .preempted, goal := some .halted, haltAt := s.clk.now })) ∧
      exec (.ccmdDestroy c) s = .next (s.withDev
        (s.dev.setCtx c { x with state := .preempted, goal := some .destroyed, haltAt := s.clk.now }))) ∧
    (x.state = .preempted → exec (.ccmdDestroy c) s = .next (s.withDev (s.dev.setCtx c { x with goal := some .destroyed })) ∧
      (x.goal ≠ some .destroyed →
        exec (.ccmdHalt c) s = .next (s.withDev (s.dev.setCtx c { x with goal := some .halted })))) ∧
    (x.state = .resident ∨ x.state = .switched →
      exec (.ccmdHalt c) s = .next (s.withDev (s.dev.setCtx c { x with state := .halted }))) ∧
    (x.state = .created ∨ x.state = .resident ∨ x.state = .switched ∨ x.state = .halted →
      exec (.ccmdDestroy c) s = .next (s.withDev (discard s.dev c))) ∧
    (x.state = .free ∨ x.state = .destroyed → exec (.ccmdDestroy c) s = .next s)) ∧
  (∀ (d : Dev) c, c < d.ctxs.length → ((discard d c).ctx c).state = .destroyed ∧ ((discard d c).ctx c).queues = [] ∧
    (discard d c).mem = d.mem ∧ (∀ g, g ∈ (discard d c).grids → g.ctx ≠ c) ∧ (∀ t, t ∈ (discard d c).trees → t.ctx ≠ c) ∧
    (∀ k, k ≠ c → (discard d c).ctx k = d.ctx k)) ∧
  (∀ s c (v : Word), HostMayWrite s → c < 64 → c < s.dev.ctxs.length → v.toNat < 256 →
    let r := queueCommit s.dev c v.toNat (s.dev.ctx c).qdesc
    ∃ d, exec (.qsel c v) s = .next (s.withDev d) ∧ (d.ctx c).qres = r.1 ∧
      ((d.ctx c).queue v.toNat = if r.1 = 1 then r.2.1 else (s.dev.ctx c).queue v.toNat) ∧
      (deletesQueue s.dev c v.toNat (s.dev.ctx c).qdesc = true → r.1 = 1 ∧ r.2.1.desc = none) ∧
      (deletesQueue s.dev c v.toNat (s.dev.ctx c).qdesc = false →
        (descOk (s.dev.ctx c).qdesc = false → r.1 = 2) ∧ (r.1 = 1 → r.2.1.desc = some (s.dev.ctx c).qdesc))) ∧
  (∀ s c (v : Word), HostMayWrite s → c < 64 → c < s.dev.ctxs.length → v.toNat < 4096 → let st := ((s.dev.ctx c).node v.toNat).state
    ∃ d, exec (.gsel c v) s = .next (s.withDev d) ∧
      ((∃ n, st = .armed n) ∨ (∃ l, st = .launched l) → (d.ctx c).gres = 2 ∧ (d.ctx c).node v.toNat = (s.dev.ctx c).node v.toNat) ∧
      ((st = .idle ∨ st = .done) → (d.ctx c).gres = 1 ∧ (d.ctx c).node v.toNat = ⟨v.toNat, (s.dev.ctx c).gnode, .idle, 0, []⟩)) ∧
  (∀ s c (v : Word), HostMayWrite s → c < 64 → (field v 44 20 = 0 → exec (.dstopt c v) s = .next (s.withDev
      ((s.dev.setCtx c { s.dev.ctx c with dstopt := v, dstopArmed := true }).noteReg 0 0 c 0x0A8 s.dev.hostKnow))) ∧
    (field v 44 20 ≠ 0 → exec (.dstopt c v) s = .next s)) ∧
  (∀ s c off (v : Word), HostMayWrite s → c < 64 →
    off ≠ 0x008 → off ≠ 0x440 → off ≠ 0x4C0 → exec (.controlRegisterWrite (some c) off v) s = .next (match ctxPlain (s.dev.ctx c) off v with
      | some x => s.withDev ((s.dev.setCtx c x).noteReg 0 0 c off s.dev.hostKnow)
      | none => s)) ∧
  (∀ (x : Ctx) (v : Word), let n := v.toNat
    let set := ctxPlain x
    let hbm := fun k => n < 2 ^ 51 ∧ n / 2 ^ 38 < 4 ∧ n % 2 ^ 38 + k ≤ 192000000000
    let idle := x.state = .created ∨ x.state = .switched ∨ x.state = .halted
    set 0x010 v = (if n ≤ 7 then some { x with prio := n } else none) ∧
    set 0x018 v = (if n = 0 ∨ (100000 ≤ n ∧ n ≤ 10 ^ 9) then some { x with slice := n } else none) ∧
    set 0x020 v = (if idle ∧ n % 65536 = 0 ∧ hbm 65536 then some { x with root := n } else none) ∧
    set 0x028 v = (if idle ∧ n % 4096 = 0 ∧ hbm 4096 then some { x with save := n } else none) ∧
    set 0x030 v = (if idle ∧ n % 4096 = 0 then some { x with savelen := n } else none) ∧
    set 0x040 v = (if idle ∧ n % 64 = 0 ∧ hbm 64 then some { x with fqbase := n } else none) ∧
    set 0x048 v = (if idle ∧ n ∈ (List.range 13).map (fun k => 2 ^ (4 + k)) then some { x with fqcap := n } else none) ∧
    set 0x050 v = (if n < 2 ^ 32 then some { x with fqhead := n } else none) ∧
    set 0x060 v = (if n = 0 ∨ hbm 8 then some { x with fqnote := n } else none) ∧
    set 0x070 v = (if field v 2 30 = 0 ∧ wFinite (field v 32 32) = true ∧ 0 < field v 32 32 ∧ field v 32 32 < 2 ^ 31
      then some { x with mortar := v } else none) ∧
    set 0x078 v = (if n ≤ 32767 then some { x with mwin := n } else none) ∧
    set 0x088 v = (if n ≤ 1 then some { x with chk := n == 1 } else none) ∧
    set 0x090 v = (if 16 ≤ n ∧ n ≤ 1024 then some { x with agelimit := n } else none) ∧
    set 0x098 v = (if 1 ≤ n ∧ n ≤ 10 ^ 9 then some { x with wavewait := n } else none) ∧
    set 0x0A0 v = some { x with dstopl := v } ∧
    (∀ k, k < 4 → set (0x0C0 + 16 * k) v = some { x with waddr := setAt x.waddr k v } ∧
      set (0x0C8 + 16 * k) v = (if field v 0 5 ≤ 16 ∧ field v 5 3 = 0 ∧ field v 10 54 = 0
        then some { x with wctl := setAt x.wctl k v } else none)) ∧
    (∀ k, k < 8 → set (0x400 + 8 * k) v = some { x with qdesc := setAt x.qdesc k v } ∧
      set (0x480 + 8 * k) v = some { x with gnode := setAt x.gnode k v }) ∧
    ∀ off, off ∈ [0x000, 0x038, 0x058, 0x068, 0x080, 0x448, 0x4C8] ∨ 0x4D0 ≤ off → set off v = none) ∧
  (∀ s (v : Word), HostMayWrite s → let n := v.toNat
    let wr := fun off => exec (.controlRegisterWrite none off v) s
    let keep := fun (e : Env) => { s with env := e }
    wr 0x010 = exec (.tset v) s ∧ wr 0x0F0 = exec (.trarm v) s ∧
    wr 0x018 = .next (if field v 20 44 = 0 ∧ field v 16 2 ≠ 3 then keep { s.env with ptpctl := v } else s) ∧
    (∀ q, q < 4 → let r := s.env.ring q
      let ring := fun (r : Ring) => keep { s.env with rings := setAt s.env.rings q r }
      wr (0x040 + 32 * q) = .next (if n % 64 = 0 ∧ populated n 64 = true then ring { r with base := n } else s) ∧
      wr (0x048 + 32 * q) = .next (if n = 0 ∨ n ∈ (List.range 19).map (fun k => 2 ^ (6 + k)) then ring { r with cap := n } else s) ∧
      wr (0x050 + 32 * q) = .next (if n < 2 ^ 32 then ring { r with head := n } else s) ∧ wr (0x058 + 32 * q) = .next s) ∧
    wr 0x0E8 = .next (if 1000 ≤ n ∧ n ≤ 10 ^ 9 then keep { s.env with smpper := n, smpNext := s.clk.now + v } else s) ∧
    wr 0x100 = .next (if n % 65536 = 0 then keep { s.env with dmwbase := v } else s) ∧
    wr 0x108 = .next (if n < 64 then keep { s.env with dmwctx := n } else s) ∧
    ∀ off, off ∈ [0x000, 0x008, 0x0C0, 0x0C8, 0x0D0, 0x0D8, 0x0F8, 0x110] ∨ 0x118 ≤ off → wr off = .next s) ∧
  (∀ s (v : Word), HostMayWrite s →
    exec (.controlRegisterWrite none 0x0E0 v) s = .next (if 16 ≤ v.toNat then s
      else { s with
        dev := { s.dev with traceCtl := v }
        env := if v.getLsbD 1 = true ∧ s.dev.traceCtl.getLsbD 1 = false then
            { s.env with smpNext := s.clk.now + BitVec.ofNat 64 s.env.smpper } else s.env })) ∧
  (∀ s (v : Word), HostMayWrite s →
    exec (.tset v) s = .next (if s.dev.created = true ∨ s.env.stepped = true then s
      else { s with clk := { s.clk with now := v }, env := { s.env with stepped := true } })) ∧
  (∀ s c off (v : Word), s.env.linkUp = true → s.env.allows .host .contextControl true = false →
    let t := { s with env := { s.env with denials := s.env.denials + 1 } }
    exec (.controlRegisterWrite c off v) s = .next t ∧ exec (.tset v) s = .next t ∧ exec (.trarm v) s = .next t ∧
      ∀ n, exec (.ccmdCreate n) s = .next t ∧ exec (.ccmdStart n) s = .next t ∧ exec (.ccmdHalt n) s = .next t ∧
        exec (.ccmdDestroy n) s = .next t ∧ exec (.qsel n v) s = .next t ∧ exec (.gsel n v) s = .next t ∧ exec (.dstopt n v) s = .next t) ∧
  (∀ s c (v : Word), s.env.linkUp = false → exec (.ccmdCreate c) s = .next s ∧ exec (.ccmdStart c) s = .next s ∧ exec (.ccmdHalt c) s = .next s ∧
    exec (.ccmdDestroy c) s = .next s ∧ exec (.qsel c v) s = .next s ∧ exec (.gsel c v) s = .next s ∧ exec (.dstopt c v) s = .next s) ∧
  ∀ s (v : Word), HostMayWrite s → v.getLsbD 63 = true → field v 14 49 = 0 →
    exec (.trarm v) s = .next { s with dev := { s.dev with armed := some (field v 0 6, field v 6 8), armedId := 0 } }

/-- R296, R298 to R302, R307, R327: the events of contexts. A thread stop freezes the fibre that holds the named thread, with the thread's
lane alone; an expired slice with an equal waiting, or a request, makes a Running context Pre-empted; a save that may complete ends the
halt in the state it asked for, or, with no team saved, Resident (DEDUCED, assumption 25); it writes the save area's header, the bytes of
blocks still saved and the placed teams' blocks, each with its team's scratchpad, pallet, tiles, lanes, predicates and registers (R77, R301);
a saved team is restored on its room, and one whose block stands unedited gives back its threads, registers, images, barriers, groups and
commands as they were saved (R300); a Destroyed
context of which nothing is left is Free again, its number's tree generations kept; a stall sample is taken when its instant has come, and
adds the records of every quadrant's sampled path with the reason that R327 gives it. How DSTOPT names a thread of a task team is DEDUCED
(assumption 21). -/
def Obligations.ContextEvents : Prop :=
  (∀ s c f L, c < 64 → (s.dev.ctx c).dstopArmed = true → stopTarget s.dev c = some (f, L) → f.frozen = none →
    exec (.debugThreadStop c) s = .next (s.withDev (takeFault s.clk
      (s.dev.setCtx c { s.dev.ctx c with dstopArmed := false }) f.uid (f.thread L).pc ⟨12, 1, 0, LaneMask.ofLanes [L], 0⟩))) ∧
  (∀ (d : Dev) c f L, stopTarget d c = some (f, L) → f ∈ d.fibres ∧ f.ctx = c ∧ L < f.width ∧ f.liveLane L = true ∧
    ∃ t, d.team? f.team = some t ∧ t.lid = (d.ctx c).dstopl ∧ laneTeam f t L % 2 ^ 32 = field (d.ctx c).dstopt 0 32) ∧
  (∀ s c, c < 64 → (s.dev.ctx c).state = .running →
    exec (.haltRequest c) s = .next (s.withDev (s.dev.setCtx c
      { s.dev.ctx c with state := .preempted, goal := some .switched, haltAt := s.clk.now }))) ∧
  (∀ s c k, c < 64 → k < 64 → k ≠ c → let x := s.dev.ctx c
    x.state = .running → x.runSince.toNat + (if x.slice = 0 then 2000000 else x.slice) ≤ s.clk.now.toNat →
    (s.dev.ctx k).prio = x.prio → stuck (afterHalts s.dev) k = true →
    exec (.timeSliceExpiry c) s = .next (s.withDev (s.dev.setCtx c
      { x with state := .preempted, goal := some .switched, haltAt := s.clk.now }))) ∧
  (∀ s v, (byPriority s.dev).findSome? (fun c => if stuck (afterHalts s.dev) c then victimBelow s.dev (s.dev.ctx c).prio else none) = some v →
    v < s.dev.ctxs.length →
    ∃ d, exec .preemptionDecision s = .next (s.withDev d) ∧ (d.ctx v).state = .preempted ∧ (d.ctx v).goal = some .switched) ∧
  (∀ (d : Dev) p v, victimBelow d p = some v → v < 64 ∧ (d.ctx v).state = .running ∧ (d.ctx v).prio < p ∧
    ∀ c, c < 64 → (d.ctx c).state = .running → (d.ctx c).prio < p → (d.ctx v).prio < (d.ctx c).prio ∨ ((d.ctx v).prio = (d.ctx c).prio ∧ c ≤ v)) ∧
  (∀ s c, c < 64 → saveReady s.dev c = true → let d := saveContext s.dev s.clk c
    ((d.ctx c).goal = some .halted → exec (.saveComplete c) s = .next (s.withDev (d.setCtx c { d.ctx c with state := .halted, goal := none }))) ∧
    ((d.ctx c).goal = some .switched → exec (.saveComplete c) s = .next (s.withDev (d.setCtx c
      { d.ctx c with state := if (d.ctx c).saved.isEmpty then .resident else .switched, goal := none }))) ∧
    ((d.ctx c).goal = some .destroyed → exec (.saveComplete c) s = .next (s.withDev (discard d c)))) ∧
  (∀ (d : Dev) clk c, c < d.ctxs.length → let x := d.ctx c
    let e := atSave d clk.cycle c
    let ts := d.teams.filter fun t => t.ctx == c
    let fresh := ts.map (savedOf e clk.cycle)
    let area := saveHeader (x.saved.length + ts.length) (256 + ((x.saved ++ fresh).map fun s => s.image.length).foldl (· + ·) 0) x.haltAt ++
      x.saved.flatMap (blockNow e c) ++ fresh.flatMap SavedTeam.image
    let d' := saveContext d clk c
    (d'.ctx c).saved = placeBlocks 256 (x.saved ++ fresh) ∧
    (∀ k, k < area.length → memRead d'.mem (x.save + k) = area.getD k 0) ∧
    (∀ a, a < x.save ∨ x.save + area.length ≤ a → memRead d'.mem a = memRead e.mem a) ∧
    (∀ t u, t ∈ d'.teams → u ∈ ts → t.uid ≠ u.uid) ∧
    (x.saved = [] → ∀ s, s ∈ (d'.ctx c).saved → blockNow d' c s = s.image)) ∧
  (∀ n len a, saveHeader n len a = natLE 8 n ++ natLE 8 len ++ wordLE a ++ List.replicate 232 0) ∧
  (∀ (d : Dev) cycle t, let b := (savedOf d cycle t).image
    (t.bufs.length = 8 → b.take 256 = teamHeader d t ∧ (b.drop 256).take (spBytes t) = memBytes t.sp 0 (spBytes t) ∧
      (b.drop (256 + spBytes t)).take (t.hdr.pallet * 1024) = memBytes t.pallet 0 (t.hdr.pallet * 1024)) ∧
    (∀ k, k < 4 * t.hdr.tiles → t.tliveOk = false ∨ t.tlive.getLsbD k = true → ∃ pre post, b = pre ++ memBytes t.tile (tileAt k) 4096 ++ post) ∧
    (∀ f, f ∈ teamFibres d t → ∃ pre post, b = pre ++ fibreBlock d cycle t f ++ post)) ∧
  (∀ (d : Dev) cycle t f,
    (fibreBlock d cycle t f).take 8 = natLE 8 (fibreToken f) ∧
    (∀ L, L < f.width → let u := f.thread L
      let e := ((fibreBlock d cycle t f).drop (64 + 16 * L)).take 16
      leWord (e.take 8) = u.pc ∧ BitVec.ofNat 24 (leNat ((e.drop 12).take 3)) = u.preds ∧ leNat ((e.drop 8).take 3) = u.depth % 2 ^ 24) ∧
    ((fibreBlock d cycle t f).drop (64 + alignUp (16 * f.width) 64)).take (regBlockLen f.width (privRegs f)) = regBlock f.width (privRegs f)) ∧
  (∀ (d : Dev) cycle t, (∀ f, f ∈ teamFibres d t → WholeFibre f) → let s := savedOf d cycle t
    readBlock s s.image = some ((teamFibres d t).map fun f => (f, false))) ∧
  (∀ clk (d d0 : Dev) c r cycle t o ss, let s := { savedOf d0 cycle t with off := o }
    c < d.ctxs.length → (d.ctx c).saved = s :: ss → (∀ f, f ∈ s.fibres → WholeFibre f) → blockNow (uoFlush d r.core) c s = s.image →
    (∀ v, v ∈ d.teams → v.uid ≠ t.uid) → (∀ w f, w ∈ d.waiters → f ∈ s.fibres → w.fib ≠ f.uid) →
    (∀ f u z, f ∈ s.fibres → u ∈ f.threads → u.wait ≠ .zero z) →
    let d' := restoreTeam clk d c s r
    (∀ f, f ∈ teamFibres d0 t → backFibre (d.ctx c) r.core f ∈ d'.fibres) ∧
    (∃ v, v ∈ d'.teams ∧ v = { t with core := r.core, grBase := r.gr, tile := v.tile, mmas := v.mmas } ∧
      ∀ k, t.tliveOk = false ∨ t.tlive.getLsbD (k / 4096) = true → memRead v.tile k = memRead t.tile k) ∧
    (∀ g, g ∈ teamGroups d0 t → g ∈ d'.groups) ∧
    (∀ k, k ∈ s.cmds → ∃ n, { k with core := r.core, entry := n } ∈ d'.cmds) ∧
    (d'.ctx c).saved = ss ∧ (d'.ctx c).state = .running) ∧
  (∀ x core f, let b := backFibre x core f
    b.regs = f.regs ∧ b.threads = f.threads ∧ b.core = core ∧ b.chk = x.chk ∧ b.agelimit = x.agelimit ∧
    b.frozen = f.frozen.bind fun z => if z.resume then none else some z) ∧
  (∀ s c t ts r, (s.dev.ctx c).saved = t :: ts → nextContext s.dev (quarterOf t.team.core) = some (c, .saved) → savedRoom s.dev t = some r →
    exec (.teamRestore c) s = .next (s.withDev (restoreTeam s.clk s.dev c t r))) ∧
  (∀ s c, c < 64 → (s.dev.ctx c).state = .destroyed → (∀ g, g ∈ s.dev.flights → g.ctx ≠ c) →
    exec (.destroyComplete c) s = .next (s.withDev
      { s.dev.setCtx c { Ctx.initial with treeGens := (s.dev.ctx c).treeGens } with tlb := s.dev.tlb.filter fun t => t.ctx != c })) ∧
  (∀ s, s.dev.traceCtl.getLsbD 1 = true → s.env.smpper ≠ 0 → s.env.smpNext.toNat ≤ s.clk.now.toNat →
    exec .stallSample s = .next { s with
      dev := { s.dev with trace := s.dev.trace ++ s.dev.ports.flatMap (sampleRecs s.clk.now s.dev s.clk.cycle) }
      env := { s.env with smpNext := s.env.smpNext + BitVec.ofNat 64 s.env.smpper } }) ∧
  (∀ now (d : Dev) cycle p, contextFibres d p.core p.quad (sampledSlot d p)
    (((turnOf d p.core p.quad (sampledSlot d p)).map Turn.pos).getD 0) = [] → sampleRecs now d cycle p = []) ∧
  (∀ now (d : Dev) cycle p f fs t k ks, contextFibres d p.core p.quad (sampledSlot d p)
      (((turnOf d p.core p.quad (sampledSlot d p)).map Turn.pos).getD 0) = f :: fs → d.team? f.team = some t → fibreKeys f = k :: ks →
    f.ctx < 256 → f.width < 256 → f.quad < 4 →
    let m := lanesWhere fun L => decide (L < f.width) && f.liveLane L && (f.thread L).pc == k.1 && (f.thread L).depth == k.2
    let st := stallOf d f t cycle (if cycle ≤ p.busy then p.paths else []) m k.1
    st.reason ≤ 10 ∧ ((sampleRecs now d cycle p).map fun r => (r.ws.getD 6 0).toNat).foldl (· ||| ·) 0 = m.toNat ∧
      ∀ r, r ∈ sampleRecs now d cycle p → r.quarter = quarterOf f.core ∧ field (r.ws.getD 0 0) 0 8 = 3 ∧
        field (r.ws.getD 0 0) 8 8 = st.reason ∧ r.ws.getD 1 0 = now ∧ r.ws.getD 5 0 = st.blamed ∧ field (r.ws.getD 7 0) 32 32 = st.unit % 2 ^ 32 ∧
        (st.last = false → r.ws.getD 4 0 = k.1)) ∧
  ∀ (d : Dev) f t cycle issued (m : LaneMask) pc, let u := f.thread ((lowestLane m).getD 0)
    let st := stallOf d f t cycle issued m pc
    (u.stallPc ∈ issued → st.reason = 0 ∧ st.blamed = 0) ∧
    (u.stallPc ∉ issued → cycle < u.stallTo → st.reason = 1 ∧ st.blamed = u.stallPc) ∧
    (u.stallPc ∉ issued → u.stallTo ≤ cycle → f.readyAt ≤ cycle →
      ((∃ b, u.wait = .bar b ∨ u.wait = .fbar b ∨ u.wait = .fbarHeld b) → st.reason = 3 ∧ st.blamed = u.stallPc) ∧
      (u.wait = .addr ∨ (∃ til, u.wait = .sleep til) → st.reason = 4 ∧ st.blamed = u.stallPc) ∧
      (∀ b, u.wait = .overlay b → st.reason = 6 ∧ st.blamed = pc) ∧ (u.wait = .frame → st.reason = 7 ∧ st.blamed = pc) ∧
      (∀ i, u.wait = .none → fetchAt d f t pc = .instr i →
        (pendingWait d f m cycle (((hdrOf i).map (guardOf i)).getD 31) (usesOf i) = true → st.reason = 2) ∧
        (∀ z, f.frozen = some z → (instrStall d f t cycle (pc, u.depth) m i).reason = 0 → st.reason = 10 ∧ st.blamed = z.pc)))

/-- R316 to R319, R334: links and time. A peer's write that its registration, class and range let through, with pages that translate, writes all
its bytes and adds 1 to the completion word, a read answers the bytes, and one that is not let through or whose pages do not translate
changes no memory and gets an error completion; a send is an append; no atomic
is accepted; a replay shows nothing; each Quarter that loses the last of its links is reported and every context halts; a message from the
master locks the time base, by a step only before any context exists and where nothing has stepped it, and from then on only slews it;
without masters it holds its rate. The class whose table a send passes and the registrations beyond the state's are free values
(assumption 30); which message moves TSTAT from free-run or holdover to acquiring and from there to locked is DEDUCED (assumption 26). -/
def Obligations.LinksAndTimeDiscipline : Prop :=
  (∀ s cls key off bs r pl d wl d', rmaOf s.env s.clk.now cls key off bs.length true = some r →
    outsidePlaces s.dev r.ctx true (r.base + BitVec.ofNat 64 off) bs.length = (some pl, d) →
    outsidePlaces d r.ctx true r.word 8 = (some wl, d') →
    exec (.rmaWrite cls key off bs) s = .next { s with
      dev := peerWrite d' (outsideBytes pl bs) wl
      env := { s.env with replies := .peerDone true :: s.env.replies } }) ∧
  (∀ (d : Dev) pl bs w k ws, let m := (d.writeFrom [] (fun _ => []) (outsideBytes pl bs)).2.mem
    (∀ a, memRead m a = (((outsideBytes pl bs).reverse.find? fun p => p.1 == .phys a).map Prod.snd).getD (memRead d.mem a)) ∧
    memWord (peerWrite d (outsideBytes pl bs) ((.phys w, k) :: ws)).mem w = memWord m w + 1 ∧
    ∀ a, a < w ∨ w + 8 ≤ a → memRead (peerWrite d (outsideBytes pl bs) ((.phys w, k) :: ws)).mem a = memRead m a) ∧
  (∀ s cls key off bs r d, rmaOf s.env s.clk.now cls key off bs.length true = some r →
    outsidePlaces s.dev r.ctx true (r.base + BitVec.ofNat 64 off) bs.length = (none, d) ∨
      (∃ pl d1, outsidePlaces s.dev r.ctx true (r.base + BitVec.ofNat 64 off) bs.length = (some pl, d1) ∧
        outsidePlaces d1 r.ctx true r.word 8 = (none, d)) →
    exec (.rmaWrite cls key off bs) s = .next { s with env := { s.env with replies := .peerDone false :: s.env.replies } }) ∧
  (∀ s cls key off len r d, rmaOf s.env s.clk.now cls key off len false = some r →
    outsidePlaces s.dev r.ctx false (r.base + BitVec.ofNat 64 off) len = (none, d) →
    exec (.rmaRead cls key off len) s = .next { s with env := { s.env with replies := .peerRead none :: s.env.replies } }) ∧
  (∀ s cls key off len, rmaOf s.env s.clk.now cls key off len false = none →
    ∃ e, exec (.rmaRead cls key off len) s = .next { s with env := e } ∧ e.replies = .peerRead none :: s.env.replies) ∧
  (∀ s cls key off bs, rmaOf s.env s.clk.now cls key off bs.length true = none →
    ∃ e, exec (.rmaWrite cls key off bs) s = .next { s with env := e } ∧ e.replies = .peerDone false :: s.env.replies) ∧
  (∀ s cls key off len r pl d, rmaOf s.env s.clk.now cls key off len false = some r →
    outsidePlaces s.dev r.ctx false (r.base + BitVec.ofNat 64 off) len = (some pl, d) →
    exec (.rmaRead cls key off len) s = .next { s with
      dev := d
      env := { s.env with replies := .peerRead (some (plainRead d pl)) :: s.env.replies } }) ∧
  (∀ e now cls key off n write r, rmaOf e now cls key off n write = some r → (r ∈ e.rma ∨ r ∈ Config.registered now.toNat) ∧ r.key = key ∧ cls < 4 ∧ off + n ≤ r.len ∧
    (if write then r.write else r.read) = true ∧ e.allows (.peer cls) .registered write = true) ∧
  (∀ s c q ws, c < 64 → q < 256 →
    let allowed := s.env.allows (.peer (Config.sendClass s.clk.now.toNat)) .registered true
    (allowed = true → exec (.serviceSend c q ws) s = .next (s.withDev (outsideAppend s.clk.now s.dev c q [] ws))) ∧
    (allowed = false → exec (.serviceSend c q ws) s = .next { s with
      env := { s.env with denials := s.env.denials + 1, replies := .peerDone false :: s.env.replies } })) ∧
  (∀ s c q ws, 64 ≤ c ∨ 256 ≤ q → exec (.serviceSend c q ws) s = .next s) ∧
  (∀ s port, port < 8 → exec (.peerAtomic port) s = .next { s with env := { s.env with replies := .peerDone false :: s.env.replies } }) ∧
  (∀ s link, exec (.flitReplay link) s = .next s) ∧
  (∀ s link, link < 6 → let up := setAt s.env.boulevard link false
    let e := { s.env with boulevard := up }
    ((∀ q, q < 4 → cutOff up q = cutOff s.env.boulevard q) → exec (.linkFailure link) s = .next { s with env := e }) ∧
    ∀ q, q < 4 → cutOff up q = true → cutOff s.env.boulevard q = false → ∃ rs,
      exec (.linkFailure link) s = .next { s with
        dev := haltAll s.clk.now s.dev
        env := { e with replies := rs ++ s.env.replies } } ∧
      ∀ r, r ∈ rs ↔ ∃ p, p < 4 ∧ cutOff up p = true ∧ cutOff s.env.boulevard p = false ∧ r = .mgmt 0 [1, p] []) ∧
  (∀ s port (master : Nat), port < 8 → s.env.ptpctl.getLsbD port = true →
    let off : Int := (s.clk.now.toNat : Int) - (master : Int)
    (s.env.tstat = 1 → s.env.locked = false → s.dev.created = false → s.env.stepped = false →
      ∃ d e, exec (.ptpMessage port master) s = .next { s with
          dev := d, env := e, clk := { s.clk with now := BitVec.ofNat 64 master, rate := 0 } } ∧
        e = { s.env with tstat := 2, toffset := 0, locked := true, stepped := true } ∧ d = { s.dev with trace := d.trace }) ∧
    (s.env.tstat = 1 → s.env.locked = true ∨ s.dev.created = true ∨ s.env.stepped = true →
      ∃ d, exec (.ptpMessage port master) s = .next { s with
          dev := d, env := { s.env with tstat := 2, toffset := sat32 off, locked := true }, clk := { s.clk with rate := slewRate off } } ∧
        d = { s.dev with trace := d.trace }) ∧
    (s.env.tstat = 2 → exec (.ptpMessage port master) s = .next { s with
      env := { s.env with toffset := sat32 off }, clk := { s.clk with rate := slewRate off } }) ∧
    (s.env.tstat = 0 ∨ s.env.tstat = 3 → ∃ d, exec (.ptpMessage port master) s = .next { s with
        dev := d, env := { s.env with tstat := 1, toffset := sat32 off } } ∧ d = { s.dev with trace := d.trace })) ∧
  (∀ off, -100 ≤ slewRate off ∧ slewRate off ≤ 100 ∧ (-100 ≤ off → off ≤ 100 → slewRate off = -off)) ∧
  ∀ s, s.env.tstat = 1 ∨ s.env.tstat = 2 → ∃ d, exec .holdover s = .next { s with dev := d, env := { s.env with tstat := 3 } } ∧
    d = { s.dev with trace := d.trace }

/-- R328 to R335: the package. The power cap takes a multiple of 50 W from 1,500 to 3,000 and nothing else; the clock moves by 100 MHz
within its range; a die that grows too hot halts every context and is reported, and power goes when no context is Pre-empted (DEDUCED,
assumption 28); a core idle for 20 µs is gated and wakes for a fibre that is ready. The boot goes through its stages in order, each with its
image or its condition, and otherwise stays in its stage with the code reported; it may begin before the first stage, after a failure, or at
stage 4 where an image is stored, and then starts the device afresh with the stored images in place of the given ones. The management port
answers what it supports, its sensors, updates and signed measurements; an access table changes one master's right to one target and no
other. A corrected error counts for 24 hours and retires its unit above the limit of its kind; an uncorrectable one halts the contexts named,
is reported and retires its unit; a retired core or way is out of use. A host link trains to a generation and width once the regions stand.
Boot after a failure, what stored images do and the free value `Config.reserves` are the model's choice (assumption 64). -/
def Obligations.PackageEvents : Prop :=
  (∀ s w, exec (.powerCapSet w) s = .next (if 1500 ≤ w ∧ w ≤ 3000 ∧ w % 50 = 0 then { s with env := { s.env with cap := w } } else s)) ∧
  (∀ s, (s.clk.mhz + 100 ≤ 1700 → exec (.clockStep true) s = .next { s with clk := setClock s.clk (s.clk.mhz + 100) }) ∧
    (900 ≤ s.clk.mhz → exec (.clockStep false) s = .next { s with clk := setClock s.clk (s.clk.mhz - 100) }) ∧
    (1600 < s.clk.mhz → exec (.clockStep true) s = .next s) ∧ (s.clk.mhz < 900 → exec (.clockStep false) s = .next s)) ∧
  (∀ s die, (∃ x, x ∈ (haltAll s.clk.now s.dev).ctxs ∧ x.state = .preempted) →
    exec (.dieShutdown die) s = .next { s with
      dev := haltAll s.clk.now s.dev
      env := { s.env with hot := die :: s.env.hot, replies := .mgmt 0 [2, die] [] :: s.env.replies } }) ∧
  (∀ s die, (∀ x, x ∈ (haltAll s.clk.now s.dev).ctxs → x.state ≠ .preempted) →
    exec (.dieShutdown die) s = .next { s with
      dev := { haltAll s.clk.now s.dev with powered := false }
      env := { s.env with hot := die :: s.env.hot, replies := .mgmt 0 [2, die] [] :: s.env.replies } }) ∧
  (∀ s core t, core < 392 → s.dev.idleSince.find? (fun p => p.1 == core) = some (core, t) → t.toNat + 20000 ≤ s.clk.now.toNat →
    coreIdle s.dev core = true → core ∉ s.dev.gated →
    exec (.powerGate core) s = .next (s.withDev { s.dev with gated := core :: s.dev.gated })) ∧
  (∀ s core f, core ∈ s.dev.gated → f ∈ s.dev.fibres → f.core = core → fibreReady s.dev s.clk.cycle f = true →
    exec (.gatedCoreWake core) s = .next (s.withDev { s.dev with gated := s.dev.gated.filter (· != core) })) ∧
  (∀ s : State, s.env.mayBoot = true ↔ s.env.boot.stage = 0 ∨ s.env.boot.code ≠ 0 ∨ (s.env.boot.stage = 4 ∧ s.env.staged ≠ [])) ∧
  (∀ s, let b := bootBegin s
    b.clk = s.clk ∧ b.dev = s.dev.restarted ∧ b.dev.mem = s.dev.mem ∧ b.dev.fibres = [] ∧ b.dev.regions = false ∧ b.env.linkUp = false ∧
      b.env.staged = [] ∧ ∀ kind given,
        (∀ m, s.env.staged.filter (fun m => imgNum m 4 4 == kind) = [m] → b.env.image kind given = m) ∧
        (s.env.staged.filter (fun m => imgNum m 4 4 == kind) = [] → b.env.image kind given = s.env.image kind given)) ∧
  (∀ s given, s.env.mayBoot = false → exec (.bootRomCheck given) s = .next s) ∧
  (∀ s given, s.env.mayBoot = true → let b := bootBegin s
    let img := b.env.image 1 given
    exec (.bootRomCheck given) s = .next (if imageOk b.env 1 img
    then { b with env := { b.env with boot := ⟨1, 0⟩, monitor := some img, counter := max b.env.counter (imgNum img 8 8) } }
    else { b with env := { b.env with boot := ⟨0, 1⟩, replies := .mgmt 0 [0, 1] [] :: b.env.replies } })) ∧
  (∀ s trained, s.env.boot = ⟨1, 0⟩ → exec (.monitorInit trained) s = .next (if trained
    then { s with
      dev := s.dev.restarted
      env := { s.env with boot := ⟨2, 0⟩, access := defaultAccess } }
    else { s with env := { s.env with boot := ⟨1, 2⟩, replies := .mgmt 0 [0, 2] [] :: s.env.replies } })) ∧
  (∀ s given, s.env.boot = ⟨2, 0⟩ → let img := s.env.image 2 given
    exec (.serviceLoad given) s = .next (if imageOk s.env 2 img
    then { s with env := { s.env with
      boot := ⟨3, 0⟩, service := some img, replies := .service (enabledCores s.dev) :: s.env.replies } }
    else { s with env := { s.env with boot := ⟨2, 3⟩, replies := .mgmt 0 [0, 3] [] :: s.env.replies } })) ∧
  (∀ s, s.env.boot = ⟨3, 0⟩ →
    exec .regionReserve s = .next (if Config.reserves s.clk.now.toNat
      then { s with dev := { s.dev with regions := true }, env := { s.env with boot := ⟨4, 0⟩ } }
      else { s with env := { s.env with boot := ⟨3, 4⟩, replies := .mgmt 0 [0, 4] [] :: s.env.replies } })) ∧
  (∀ s, exec .pldmDiscovery s = .next { s with env := { s.env with replies := .mgmt 1 [0, 2, 5] [] :: s.env.replies } }) ∧
  (∀ s, ∃ p t c, exec .pldmSensors s = .next { s with env := { s.env with 
    replies := .mgmt 2 [p, t, c, s.clk.mhz, enabledCores s.dev, errorCount s.env s.clk.now 0, errorCount s.env s.clk.now 1,
      errorCount s.env s.clk.now 2, s.env.retired.length, s.env.denials] [] :: s.env.replies } }) ∧
  (∀ s img, s.env.boot.stage ≠ 0 → exec (.firmwareUpdate img) s = .next (if imageOk s.env 1 img || imageOk s.env 2 img
    then { s with env := { s.env with staged := img :: dropKind (imgNum img 4 4) s.env.staged, replies := .mgmt 5 [1] [] :: s.env.replies } }
    else { s with env := { s.env with replies := .mgmt 5 [0] [] :: s.env.replies } })) ∧
  (∀ s nonce, s.env.boot.stage ≠ 0 → nonce.length = 32 → exec (.attestation nonce) s = .next { s with env := { s.env with
    replies := .mgmt 6 [] (measurements s.env ++ Config.mlDsaSign (measurements s.env ++ nonce)) :: s.env.replies } }) ∧
  (∀ s m t r w m' t', masterOf m = some m' → targetOf t = some t' → 3 ≤ s.env.boot.stage → m' ≠ .control → m' ≠ .security →
    ∃ e, exec (.accessTableChange m t r w) s = .next { s with env := e } ∧ e = { s.env with access := e.access } ∧
      e.allows m' t' false = r ∧ e.allows m' t' true = w ∧
      ∀ n k write, (n, k) ≠ (m', t') → e.allows n k write = s.env.allows n k write) ∧
  (∀ s kind unit, kind < 3 → let errs := ⟨kind, unit, s.clk.now⟩ :: s.env.softErrors.filter fun e => !aged s.clk.now e
    let s' := { s with env := { s.env with softErrors := errs } }
    exec (.softErrorCorrected kind unit) s = .next (if (if kind = 0 then 64 else if kind = 1 then 8 else 32) <
      (errs.filter fun e => e.kind == kind && e.unit == unit).length then retireUnit s' kind unit else s')) ∧
  (∀ s kind unit, ∃ e, exec (.errorWindowAge kind unit) s = .next { s with env := e } ∧
    e = { s.env with softErrors := e.softErrors } ∧
    ∀ r, r ∈ e.softErrors ↔ r ∈ s.env.softErrors ∧ ¬(r.kind = kind ∧ r.unit = unit ∧ r.time.toNat + 86400000000000 ≤ s.clk.now.toNat)) ∧
  (∀ s kind unit ctxs, kind < 3 → let r := retireUnit (s.withDev ((ctxs.filter (· < 64)).foldl (cmdHalt s.clk.now) s.dev)) kind unit
    exec (.uncorrectableError kind unit ctxs) s = .next { r with env := { r.env with
      replies := .mgmt 0 [3, kind, unit] [] :: r.env.replies } } ∧ (kind, unit) ∈ r.env.retired) ∧
  (∀ s unit, (0, unit) ∉ s.env.retired → let r := retireUnit s 0 unit
    unit ∈ r.dev.retiredCores ∧ r.env.replies = if s.env.service.isSome then .service (enabledCores r.dev) :: s.env.replies else s.env.replies) ∧
  (∀ s unit, (2, unit) ∉ s.env.retired → (retireUnit s 2 unit).dev = { s.dev with retiredWays := unit :: s.dev.retiredWays }) ∧
  ∀ s gen lanes, (gen = 0 → exec (.hostLinkTraining gen lanes) s = .next { s with
      env := { s.env with linkUp := false, linkGen := 0, linkLanes := 0 } }) ∧
    (1 ≤ gen → gen ≤ 7 → lanes = 1 ∨ lanes = 2 ∨ lanes = 4 ∨ lanes = 8 ∨ lanes = 16 → s.dev.regions = true →
      exec (.hostLinkTraining gen lanes) s = .next { s with env := { s.env with linkUp := true, linkGen := gen, linkLanes := lanes } })

/-- R42 to R62: no bit of an encoding is dropped. The bytes of every well-formed instruction, with every operand at every value it admits,
decode to that instruction with nothing left over; they are 12 for each of its words. -/
def Obligations.DecodeInvertsEncode : Prop :=
  ∀ i : Instr, wellFormed i = true → decode (encode i) = .ok (i, []) ∧ (encode i).length = 12 * instrWords i

/-- R42, R48 to R58, and the spec's worked encodings: words written out bit by bit decode to the instructions they stand for. -/
def Obligations.WordsDecodeAsTheSpecWritesThem : Prop :=
  decodeTableWord 96 0 = some (.nop ⟨false, 0, 0, false, false, false, false⟩) ∧
  decodeTableWord 96 0x0100840C0000000000400003 = some (.bra ⟨false, 2, 1, false, false, false, false⟩ 3) ∧
  decodeTableWord 96 0xD007C00C000040002A000000 = some (.trap ⟨false, 31, 0, false, false, false, false⟩ 0x2A) ∧
  decodeTableWord 96 0xD607C00015C0000000000000 = some (.clk ⟨false, 31, 0, false, false, false, false⟩ 5) ∧
  decodeTableWord 96 0x9007C0040400004000400004 = some (.fspawn ⟨false, 31, 0, false, false, false, false⟩ 1 1 4)

/-- R42, R61 to R66: a parameter word, a reserved major opcode, a reserved guard, a reserved bit, a `nop` with any operand bit and an
owner without four well-formed parameter words behind it are no instruction. -/
def Obligations.ReservedWordsAreRefused : Prop :=
  (∀ (w : IWord) rest i, w.extractLsb' 88 8 = 0xF0#8 → decodeWord w rest ≠ .ok i) ∧
  (∀ (w : IWord) rest i, let m := (w.extractLsb' 88 8).toNat
    ((0x0A ≤ m ∧ m ≤ 0x0F) ∨ m = 0x1E ∨ m = 0x1F ∨ (0x38 ≤ m ∧ m ≤ 0x3F) ∨ (0x57 ≤ m ∧ m ≤ 0x5F) ∨ (0x67 ≤ m ∧ m ≤ 0x6F) ∨
      (0x8D ≤ m ∧ m ≤ 0x8F) ∨ m = 0x9F ∨ (0xA9 ≤ m ∧ m ≤ 0xAF) ∨ (0xB7 ≤ m ∧ m ≤ 0xBF) ∨ (0xC4 ≤ m ∧ m ≤ 0xCF) ∨
      (0xD9 ≤ m ∧ m ≤ 0xDF) ∨ (0xF1 ≤ m ∧ m ≤ 0xFF)) → decodeWord w rest ≠ .ok i) ∧
  (∀ (w : IWord) rest i, 24 ≤ (w.extractLsb' 78 5).toNat → (w.extractLsb' 78 5).toNat ≤ 30 → decodeWord w rest ≠ .ok i) ∧
  (∀ (w : IWord) rest i, w.extractLsb' 68 2 ≠ 0#2 → decodeWord w rest ≠ .ok i) ∧
  (∀ (w : IWord) rest i, w.extractLsb' 88 8 = 0#8 → w.extractLsb' 84 4 ≠ 0#4 ∨ w.extractLsb' 0 68 ≠ 0#68 → decodeWord w rest ≠ .ok i) ∧
  ∀ (w : IWord) (rest : List IWord) i,
    w.extractLsb' 88 8 ∈ [0x89#8, 0x8A, 0x8B, 0xB1] ∨ (w.extractLsb' 88 8 = 0x84#8 ∧ w.extractLsb' 84 4 = 8#4) →
    (rest.length < 4 ∨ (∃ k v, k < 4 ∧ rest[k]? = some v ∧ (v.extractLsb' 88 8 ≠ 0xF0#8 ∨ v.extractLsb' 72 16 ≠ 0#16)) ∨
      ∃ v, rest[3]? = some v ∧ v.extractLsb' 48 24 ≠ 0#24) →
    decodeWord w rest ≠ .ok i

/-- R65 and R8: the all-zero word is a `nop` with guard `p0` and stall count 0, and a `nop` word with any other bit set below its header
is no instruction; whatever its guard, `nop` changes no state but the PCs of its path, which moves on under the stall count, and the latch
of the path; its mark is emitted when `tm` is set. -/
def Obligations.NopOnlyObeysItsHeader : Prop :=
  decodeWord 0 [] = .ok (.nop ⟨false, 0, 0, false, false, false, false⟩) ∧
  (∀ (w : IWord) rest i, w.extractLsb' 88 8 = 0#8 → w.extractLsb' 84 4 ≠ 0#4 ∨ w.extractLsb' 0 68 ≠ 0#68 → decodeWord w rest ≠ .ok i) ∧
  ∀ h s x, issue? (.nop h) s = some x →
    exec (.nop h) s = .next (s.withDev (emitTrace (s.dev.setFibre (begunFib (.nop h) x))
      (if h.tm then markRecs x 1 x.c.lanes 0 0 else []))) ∧
    ∀ L, L < x.f.threads.length → L < 64 → (begunFib (.nop h) x).thread L =
      if x.c.lanes.has L then { x.f.thread L with
        pc := (x.f.thread L).pc + 12
        stallTo := s.clk.cycle + max h.stall.toNat 1
        stallPc := x.c.pc }
      else x.f.thread L

/-- R63, R66, R70, R71, R89: a step. When the words at the PC of the next selected part decode to an instruction, the step runs `exec` of it
with the part as the issuing one, and what follows at once is settled; words that decode to none freeze the fibre as an illegal instruction;
an address outside every overlay, off a word boundary or at a parameter word freezes it with a landing violation; a word that is not
resident makes the part wait for its overlay. What the second part of a cycle wrote to registers then stands after what the first did, in
its own fibre alone (R90). With no part left, the step is the agenda's next agent: an event, or a cycle of the arithmetic clock. The agenda,
which chooses the next agent where the spec leaves the order open, is the model's choice (assumption 2); so are that an undecodable word
freezes every lane of its path (assumption 59) and that a path that falls through to a word that is not resident misses it as a transfer
does (assumption 67). -/
def Obligations.StepRunsTheDecodedInstruction : Prop :=
  (∀ s c rest f t c', s.issueQ = c :: rest → itemOf s.dev s.clk.cycle c = some (f, t, c') → unstarted f c' = 0 →
    (∀ i, fetchAt s.dev f t c'.pc = .instr i →
      let s' := { s with issueQ := rest, cur := some c' }
      step s = settled (ported c s' (exec i s'))) ∧
    (fetchAt s.dev f t c'.pc = .illegal →
      step s = settled (.next { s with issueQ := rest, dev := takeFault s.clk s.dev c'.fib c'.pc ⟨2, 0, 0, c'.lanes, 0⟩ })) ∧
    (∀ r, fetchAt s.dev f t c'.pc = .violation r → step s = settled (.next { s with
      issueQ := rest
      dev := takeFault s.clk s.dev c'.fib c'.pc (landingFault (c'.lanes.lanes.map fun L => (L, r))) })) ∧
    ∀ b n, fetchAt s.dev f t c'.pc = .miss b n →
      step s = settled (.next { s with issueQ := rest, dev := overlayMiss s.dev f c'.lanes b n })) ∧
  (∀ (d : Dev) f t pc base len (r : Resident) ws w i, overlayOf t pc = some (base, len) → (pc.toNat - base.toNat) % 12 = 0 →
    residentAt d f.core f.ctx base = some r → r.words.drop ((pc.toNat - base.toNat) / 12) = w :: ws → decodeWord w (ws.take 4) = .ok i →
    fetchAt d f t pc = .instr i) ∧
  (∀ c s o, c.port ≠ 1 → ported c s o = o) ∧
  (∀ c s t, ∃ d, ported c s (.next t) = .next (t.withDev d) ∧ d = { t.dev with fibres := d.fibres } ∧ ∀ u, u ≠ c.fib → d.fibre? u = t.dev.fibre? u) ∧
  (∀ s e rest, s.issueQ = [] → s.agenda = some e :: rest → step s = settled (exec e { s with agenda := rest, cur := none })) ∧
  (∀ s rest, s.issueQ = [] → s.agenda = none :: rest → step s = settled (.next (newCycle { s with agenda := rest }))) ∧
  ∀ nbits w i, decodeTableWord nbits w = some i → nbits ≤ 480 →
    ∃ t, step (State.reset.withFetchWord nbits w) = settled (exec i t) ∧ t.dev = (State.reset.withFetchWord nbits w).dev ∧ t.issueQ = []

/-- R44, R66: the guard and a waiting instruction. With no active lane the issue changes nothing but the PCs, the stall, the latch and the
mark of its header, whatever its operands hold; an instruction that waits at issue changes nothing; a check on the word itself is made
whatever the guard, and its fault comes before any effect. -/
def Obligations.NoActiveLaneChangesNothing : Prop :=
  (∀ i s x, issue? i s = some x → x.act = 0 → (∀ h o, i ≠ .mma h o) → (∀ h cv o, i ≠ .mmaCv h cv o) → Answers i s (begun i x)) ∧
  (∀ i s h x, hdrOf i = some h → issOf s h = some x → waitsAtIssue s.dev x.f x.t x.c.lanes s.clk.cycle i = true → exec i s = .next s) ∧
  ∀ i s h x e, hdrOf i = some h → issOf s h = some x → waitsAtIssue s.dev x.f x.t x.c.lanes s.clk.cycle i = false →
    precheck i x = some e →
    x.f.frozen = none → exec i s = .next (s.withDev (takeFault s.clk s.dev x.f.uid x.c.pc e))

/-- R9, R46, R90: how fixed-latency results land. Lanes that were not written keep their value, a sibling's lane of a window register too; with
every live lane written a U or A result gives its own shape to the whole register, otherwise the register is G. Until its cycle a register
reads as before; a write lands in its own register and no other, and not while a result that R90 puts before it is still owed; of two writes
of one register the one that lands later, and in one cycle the later in program order, stands. R76: the shape that an integer, logic, shift, compare, move, float or cross-lane result has:
U where every source counts as U, the affine rows for 64-bit sums, differences, products and shifts, the source's for `mov`, and otherwise G.
That a window register's write lands in every
lane at once, where R12 lets a sibling see either value in each lane, is the model's choice (assumption 55). -/
def Obligations.FixedResultsLandInOrder : Prop :=
  (∀ f old lanes full (v : VReg) L, L < f.width → (f.thread L).life ≠ .empty →
    (lanes.has L = true ∨ (full = true ∧ ∀ vs, v ≠ .g vs) → laneVal f (mergeReg f old lanes full v) L = laneVal f v L) ∧
    (lanes.has L = false → full = false ∨ (∃ vs, v = .g vs) → laneVal f (mergeReg f old lanes full v) L = laneVal f old L)) ∧
  (∀ f old lanes full (v : VReg) L, L < f.width → lanes.has L = false → full = false ∨ (∃ vs, v = .g vs) →
    (mergeReg f old lanes full v).lane L = old.lane L) ∧
  (∀ f old lanes (v : VReg), (∀ vs, v ≠ .g vs) → mergeReg f old lanes true v = v) ∧
  (∀ f old lanes (v : VReg), ∃ vs, mergeReg f old lanes false v = .g vs) ∧
  (∀ cycle d uid f, d.fibre? uid = some f → (∀ p, p ∈ f.pendW → p.due d cycle = false) → (∀ p, p ∈ f.pendP → cycle < p.land) →
    (landFibre cycle d uid).fibre? uid = some f ∧ ∀ r, regOf (landFibre cycle d uid) f r = regOf d f r) ∧
  (∀ (p : PendW) d cycle, p.due d cycle = true ↔ p.land ≤ cycle ∧ ∀ i, i ∈ p.after →
    d.pending i = false ∧ ∀ w, w ∈ d.waiters → w.id ≠ i) ∧
  (∀ cycle d uid f p, d.fibre? uid = some f → f.pendW.filter (fun p => p.due d cycle) = [p] →
    (∀ q, q ∈ f.pendP → cycle < q.land) → p.reg ≠ 255 → HasReg d f p.reg →
    ∃ f', (landFibre cycle d uid).fibre? uid = some f' ∧
      regOf (landFibre cycle d uid) f' p.reg = mergeReg f (regOf d f p.reg) p.lanes p.full (p.over (regOf d f p.reg)) ∧
      (∀ r, r ≠ p.reg → regOf (landFibre cycle d uid) f' r = regOf d f r) ∧
      f'.threads = f.threads ∧ f'.pendW = f.pendW.filter fun p => !p.due d cycle) ∧
  (∀ cycle d uid f p q, d.fibre? uid = some f → f.pendW.filter (fun p => p.due d cycle) = [p, q] → q.reg = p.reg →
    (∀ r, r ∈ f.pendP → cycle < r.land) → p.reg ≠ 255 → HasReg d f p.reg →
    let put := fun (p : PendW) (v : VReg) => mergeReg f v p.lanes p.full (p.over v)
    ∃ f', (landFibre cycle d uid).fibre? uid = some f' ∧ regOf (landFibre cycle d uid) f' p.reg =
      if p.land ≤ q.land then put q (put p (regOf d f p.reg)) else put p (put q (regOf d f p.reg))) ∧
  ((∀ h o, Shaped (.iadd h o) o.d 4 fun x => runTag x o.t o.sat o.a o.b fun p q => p.bind fun p => q.map fun q => (p.1 + q.1, p.2 + q.2)) ∧
  (∀ h o, Shaped (.isub h o) o.d 4 fun x => runTag x o.t o.sat o.a o.b fun p q => p.bind fun p => q.map fun q => (p.1 - q.1, p.2 - q.2)) ∧
  (∀ h o, Shaped (.imul h o) o.d 4 fun x => if shI x o.t o.a = .u ∨ shI x o.t o.b = .u then
    runTag x o.t o.sat o.a o.b fun p q => p.bind fun p => q.map fun q => (p.1 * q.1, p.1 * q.2 + p.2 * q.1) else .g) ∧
  (∀ h o, Shaped (.shl h o) o.d 4 fun x => if shI x o.t o.b = .u then
    runTag x o.t false o.a o.b fun p q => p.bind fun p => q.map fun q => (p.1 <<< (q.1.toNat % 64), p.2 <<< (q.1.toNat % 64)) else .g) ∧
  (∀ (i : Instr) h o, i ∈ [.imulh h o, .imin h o, .imax h o, .irem h o, .and h o, .or h o, .xor h o, .shr h o, .sar h o, .rot h o] →
    Shaped i o.d 4 fun x => uOrG [shI x o.t o.a, shI x o.t o.b]) ∧
  (∀ h o, Shaped (.idiv h o) o.d 4 fun x => uOrG [shI x o.t o.a, shI x o.t o.b]) ∧
  (∀ h o, Shaped (.imad h o) o.d 4 fun x => uOrG [shI x o.t o.a, shI x o.t o.b, shR x o.d]) ∧
  (∀ h tt o, Shaped (.bmix h tt o) o.d 4 fun x => uOrG [shI x o.t o.a, shI x o.t o.b, shR x o.d]) ∧
  (∀ h o, Shaped (.bfe h o) o.d 4 fun x => uOrG [shI x o.t o.a, shI x .n64 o.b]) ∧
  (∀ h o, Shaped (.bfi h o) o.d 4 fun x => uOrG [shI x o.t o.a, shI x .n64 o.b, shR x o.d]) ∧
  (∀ (i : Instr) h o, i ∈ [.ineg h o, .iabs h o] → Shaped i o.d 4 fun x => uOrG [shI x o.t o.a]) ∧
  (∀ (i : Instr) h o, i ∈ [.not h o, .popc h o, .clz h o, .ctz h o, .brev h o, .unpkLo h o, .unpkHi h o] →
    Shaped i o.d 4 fun x => uOrG [shI x o.t o.a]) ∧
  (∀ h o, Shaped (.pack h o) o.d 4 fun x => uOrG [shI x (ITy.wide o.t) o.a, shI x (ITy.wide o.t) o.b]) ∧
  (∀ h o, Shaped (.lea h o) o.d 4 fun x => uOrG [shI x (ity64 o.uns) o.a, shI x (ity64 o.uns) o.b]) ∧
  (∀ h o, Shaped (.mov h o) o.d 4 fun x => shI x o.t o.a) ∧
  (∀ h t d v, Shaped (.movi h t d v) d 4 fun _ => .u) ∧
  (∀ h p o, Shaped (.isel h p o) o.d 4 fun _ => .g) ∧
  (∀ h d a, Shaped (.p2v h d a) d 4 fun _ => .g) ∧
  (∀ h d, Shaped (.p2vAll h d) d 4 fun _ => .g) ∧
  (∀ h (o : I64) s x, issue? (.iaddc h o) s = some x → ∃ vs c,
    Answers (.iaddc h o) s ((begun (.iaddc h o) x).setFibre (pushP x (pushW x (begunFib (.iaddc h o) x) o.d.toNat 4 (.g vs)) o.k.toNat 4 c))) ∧
  (∀ h t c d a b, Shaped (.icmp h t c (.vec d) a b) d 4 fun x => uOrG [shI x t a, shI x t b]) ∧
  (∀ h t ftz c d a b, Shaped (.fcmp h t ftz c (.vec d) a b) d 6 fun x => uOrG [shF x t a, shF x t b]) ∧
  (∀ (i : Instr) h o, i ∈ [.fadd h o, .fsub h o, .fmul h o] → Shaped i o.d 6 fun x => uOrG [shF x o.t o.a, shF x o.t o.b]) ∧
  (∀ (i : Instr) h o, i ∈ [.fmin h o, .fmax h o] → Shaped i o.d 6 fun x => uOrG [shF x o.t o.a, shF x o.t o.b]) ∧
  (∀ h o, Shaped (.ffma h o) o.d 6 fun x => uOrG [shF x o.t o.a, shF x o.t o.b, shR x o.d]) ∧
  (∀ (i : Instr) h o, i ∈ [.frnd h o, .frndX h o] → Shaped i o.d 6 fun x => uOrG [shF x o.t o.a]) ∧
  (∀ h t d a, Shaped (.fclass h t d a) d 6 fun x => uOrG [shF x t a]) ∧
  (∀ h t rnd ftz d a b, Shaped (.fscale h t rnd ftz d a b) d 6 fun x => uOrG [shF x t a, shI x (sintOf t.width) b]) ∧
  (∀ h bf rnd ftz d a b, Shaped (.fdot2 h bf rnd ftz d a b) d 6 fun x =>
    uOrG [shF x (if bf then .bf16 else .f16) a, shF x (if bf then .bf16 else .f16) b, shR x d]) ∧
  (∀ h s' hi o, Shaped (.fcvt h s' hi o) o.d 6 fun x => uOrG (shF x s' o.a :: if s'.width ≤ o.t.width then [] else [shR x o.d])) ∧
  (∀ h t s' hi rnd ftz d a, Shaped (.f2i h t s' hi rnd ftz d a) d 6 fun x => uOrG (shF x s' a :: if s'.width ≤ t.width then [] else [shR x d])) ∧
  (∀ h t s' hi rnd ftz d a, Shaped (.i2f h t s' hi rnd ftz d a) d 6 fun x => uOrG (shI x s' a :: if s'.width ≤ t.width then [] else [shR x d])) ∧
  (∀ h d a, Shaped (.shpget h d a) d 4 fun _ => .u) ∧
  (∀ h p d, Shaped (.voteMask h d p) d 4 fun _ => .g) ∧
  (∀ h d a, Shaped (.matchAny h d a) d 8 fun _ => .g) ∧
  (∀ h t d a b, Shaped (.lpull h t d a b) d 8 fun _ => .g) ∧
  (∀ h op t rnd ftz sat d a, Shaped (.lred h op t rnd ftz sat d a) d 8 fun _ => .g) ∧
  ∀ h op ex t rnd ftz sat d a, Shaped (.lscan h op ex t rnd ftz sat d a) d 8 fun _ => .g)

/-- R48, R66, R115 and the families' result rules: THE FRAME of the instructions whose whole effect is a result. Every one completes, and
leaves everything as it was but the issuing path's PCs and stall, pending writes of its own destinations in its active lanes, and, where
it may raise one, flags: every register, every other predicate, accumulator, special and control register, every byte of memory stands.
R314, R319, R329: no device instruction reaches the package. Whatever it does to the device, the device page, the links, the clocks and
the boot state stand, and it always answers a next state. -/
def Obligations.FramesOfInstructions : Prop :=
  ((∀ i s x, registerOnly i = true → issue? i s = some x → ∃ t, exec i s = .next t ∧ OnlyDests i s x t) ∧
  ∀ i (x : Iss), (begunFib i x).regs = x.f.regs ∧ ∀ L, ∃ pc n spc, (begunFib i x).thread L =
    { x.f.thread L with pc := pc, stallTo := n, stallPc := spc }) ∧
  (∀ i h s, hdrOf i = some h → ∃ d, exec i s = .next (s.withDev d))

/-- What reset leaves, as R297, R314, R319 and R328 give it: every context number is Free, the time base stands at 0 in free-run, every
register of the device page reads its reset value and the power cap is 3,000 W. The invariants hold there. That the arithmetic clock is
the nominal 1,700 MHz, that no memory byte is set and that boot has reached no stage is the model's choice (assumptions 1, 4 and 64). -/
def Obligations.ResetIsAsTheSpecGives : Prop :=
  (∀ c, c < 64 → ctxReg State.reset.dev c 0 = 0) ∧ State.reset.clk.now = 0 ∧
  (∀ off, devReg State.reset off = 0) ∧
  State.reset.env.cap = 3000 ∧ State.reset.env.boot = ⟨0, 0⟩ ∧ PackageOk State.reset ∧ MemOk State.reset

/-- R314, R318, R319, R328, R329, R331: THE PACKAGE STAYS IN RANGE in every step of every state, whether an instruction issues, an event
happens or a cycle passes. -/
def Obligations.EveryStepKeepsThePackageInRange : Prop :=
  ∀ s t, PackageOk s → step s = .next t → PackageOk t

/-- DEVICE MEMORY KEEPS ITS CANONICAL FORM in every step of every state: stores, atomics, page-table bits, zeroing, records, traces, saves
and accesses from outside all go through the operations that keep it. The form (addresses rising, none twice, no zero listed) is the model's
own (assumption 4): no rule of the spec speaks of it. -/
def Obligations.EveryStepKeepsMemoryCanonical : Prop :=
  ∀ s t, MemOk s → step s = .next t → MemOk t
end

