-- ==== Sys2Proof/Laws/State.lean ====
section
/-!
SUPPORT. One lemma per field per update: what each update of State, Dev and Fibre leaves of every other component.
-/

namespace Sys2Proof.Machine

@[simp] theorem withDev_dev (s : State) (d : Dev) : (s.withDev d).dev = d := rfl
@[simp] theorem withDev_env (s : State) (d : Dev) : (s.withDev d).env = s.env := rfl
@[simp] theorem withDev_clk (s : State) (d : Dev) : (s.withDev d).clk = s.clk := rfl
@[simp] theorem withDev_agenda (s : State) (d : Dev) : (s.withDev d).agenda = s.agenda := rfl
@[simp] theorem withDev_issueQ (s : State) (d : Dev) : (s.withDev d).issueQ = s.issueQ := rfl
@[simp] theorem withDev_cur (s : State) (d : Dev) : (s.withDev d).cur = s.cur := rfl
@[simp] theorem withDev_self (s : State) : s.withDev s.dev = s := rfl
@[simp] theorem withDev_withDev (s : State) (d e : Dev) : (s.withDev d).withDev e = s.withDev e := rfl

@[simp] theorem setFibre_mem (d : Dev) (f : Fibre) : (d.setFibre f).mem = d.mem := rfl
@[simp] theorem setFibre_nextId (d : Dev) (f : Fibre) : (d.setFibre f).nextId = d.nextId := rfl
@[simp] theorem setFibre_groups (d : Dev) (f : Fibre) : (d.setFibre f).groups = d.groups := rfl
@[simp] theorem setFibre_teams (d : Dev) (f : Fibre) : (d.setFibre f).teams = d.teams := rfl
@[simp] theorem setFibre_flights (d : Dev) (f : Fibre) : (d.setFibre f).flights = d.flights := rfl
@[simp] theorem setFibre_holds (d : Dev) (f : Fibre) : (d.setFibre f).holds = d.holds := rfl
@[simp] theorem setFibre_waiters (d : Dev) (f : Fibre) : (d.setFibre f).waiters = d.waiters := rfl
@[simp] theorem setFibre_tlb (d : Dev) (f : Fibre) : (d.setFibre f).tlb = d.tlb := rfl
@[simp] theorem setFibre_zeroings (d : Dev) (f : Fibre) : (d.setFibre f).zeroings = d.zeroings := rfl
@[simp] theorem setFibre_uo (d : Dev) (f : Fibre) : (d.setFibre f).uo = d.uo := rfl
@[simp] theorem setFibre_notes (d : Dev) (f : Fibre) : (d.setFibre f).notes = d.notes := rfl
@[simp] theorem setFibre_cmds (d : Dev) (f : Fibre) : (d.setFibre f).cmds = d.cmds := rfl
@[simp] theorem setFibre_builds (d : Dev) (f : Fibre) : (d.setFibre f).builds = d.builds := rfl
@[simp] theorem setFibre_residents (d : Dev) (f : Fibre) : (d.setFibre f).residents = d.residents := rfl
@[simp] theorem setFibre_loads (d : Dev) (f : Fibre) : (d.setFibre f).loads = d.loads := rfl
@[simp] theorem setFibre_ctxs (d : Dev) (f : Fibre) : (d.setFibre f).ctxs = d.ctxs := rfl
@[simp] theorem setFibre_grids (d : Dev) (f : Fibre) : (d.setFibre f).grids = d.grids := rfl
@[simp] theorem setFibre_bins (d : Dev) (f : Fibre) : (d.setFibre f).bins = d.bins := rfl
@[simp] theorem setFibre_waves (d : Dev) (f : Fibre) : (d.setFibre f).waves = d.waves := rfl
@[simp] theorem setFibre_trees (d : Dev) (f : Fibre) : (d.setFibre f).trees = d.trees := rfl
@[simp] theorem setFibre_vertices (d : Dev) (f : Fibre) : (d.setFibre f).vertices = d.vertices := rfl
@[simp] theorem setFibre_slotGens (d : Dev) (f : Fibre) : (d.setFibre f).slotGens = d.slotGens := rfl
@[simp] theorem setFibre_ages (d : Dev) (f : Fibre) : (d.setFibre f).ages = d.ages := rfl
@[simp] theorem setFibre_turns (d : Dev) (f : Fibre) : (d.setFibre f).turns = d.turns := rfl
@[simp] theorem setFibre_ports (d : Dev) (f : Fibre) : (d.setFibre f).ports = d.ports := rfl
@[simp] theorem setFibre_served (d : Dev) (f : Fibre) : (d.setFibre f).served = d.served := rfl
@[simp] theorem setFibre_order (d : Dev) (f : Fibre) : (d.setFibre f).order = d.order := rfl
@[simp] theorem setFibre_regions (d : Dev) (f : Fibre) : (d.setFibre f).regions = d.regions := rfl
@[simp] theorem setFibre_retiredCores (d : Dev) (f : Fibre) : (d.setFibre f).retiredCores = d.retiredCores := rfl
@[simp] theorem setFibre_gated (d : Dev) (f : Fibre) : (d.setFibre f).gated = d.gated := rfl
@[simp] theorem setFibre_idleSince (d : Dev) (f : Fibre) : (d.setFibre f).idleSince = d.idleSince := rfl
@[simp] theorem setFibre_trace (d : Dev) (f : Fibre) : (d.setFibre f).trace = d.trace := rfl
@[simp] theorem setFibre_traceCtl (d : Dev) (f : Fibre) : (d.setFibre f).traceCtl = d.traceCtl := rfl
@[simp] theorem setFibre_armed (d : Dev) (f : Fibre) : (d.setFibre f).armed = d.armed := rfl
@[simp] theorem setFibre_armedId (d : Dev) (f : Fibre) : (d.setFibre f).armedId = d.armedId := rfl
@[simp] theorem setFibre_freeSeq (d : Dev) (f : Fibre) : (d.setFibre f).freeSeq = d.freeSeq := rfl
@[simp] theorem setFibre_created (d : Dev) (f : Fibre) : (d.setFibre f).created = d.created := rfl
@[simp] theorem setFibre_powered (d : Dev) (f : Fibre) : (d.setFibre f).powered = d.powered := rfl
@[simp] theorem setFibre_retiredWays (d : Dev) (f : Fibre) : (d.setFibre f).retiredWays = d.retiredWays := rfl
@[simp] theorem setFibre_mark (d : Dev) (f : Fibre) : (d.setFibre f).mark = d.mark := rfl
@[simp] theorem setFibre_stuck (d : Dev) (f : Fibre) : (d.setFibre f).stuck = d.stuck := rfl
@[simp] theorem setFibre_drains (d : Dev) (f : Fibre) : (d.setFibre f).drains = d.drains := rfl
@[simp] theorem setFibre_framed (d : Dev) (f : Fibre) : (d.setFibre f).framed = d.framed := rfl
@[simp] theorem setFibre_past (d : Dev) (f : Fibre) : (d.setFibre f).past = d.past := rfl
@[simp] theorem setFibre_clock (d : Dev) (f : Fibre) : (d.setFibre f).clock = d.clock := rfl
@[simp] theorem setFibre_before (d : Dev) (f : Fibre) : (d.setFibre f).before = d.before := rfl
@[simp] theorem setFibre_agreed (d : Dev) (f : Fibre) : (d.setFibre f).agreed = d.agreed := rfl
@[simp] theorem setFibre_scs (d : Dev) (f : Fibre) : (d.setFibre f).scs = d.scs := rfl
@[simp] theorem setFibre_hostKnow (d : Dev) (f : Fibre) : (d.setFibre f).hostKnow = d.hostKnow := rfl
@[simp] theorem setTeam_mem (d : Dev) (t : Team) : (d.setTeam t).mem = d.mem := rfl
@[simp] theorem setTeam_nextId (d : Dev) (t : Team) : (d.setTeam t).nextId = d.nextId := rfl
@[simp] theorem setTeam_fibres (d : Dev) (t : Team) : (d.setTeam t).fibres = d.fibres := rfl
@[simp] theorem setTeam_groups (d : Dev) (t : Team) : (d.setTeam t).groups = d.groups := rfl
@[simp] theorem setTeam_flights (d : Dev) (t : Team) : (d.setTeam t).flights = d.flights := rfl
@[simp] theorem setTeam_holds (d : Dev) (t : Team) : (d.setTeam t).holds = d.holds := rfl
@[simp] theorem setTeam_waiters (d : Dev) (t : Team) : (d.setTeam t).waiters = d.waiters := rfl
@[simp] theorem setTeam_tlb (d : Dev) (t : Team) : (d.setTeam t).tlb = d.tlb := rfl
@[simp] theorem setTeam_zeroings (d : Dev) (t : Team) : (d.setTeam t).zeroings = d.zeroings := rfl
@[simp] theorem setTeam_uo (d : Dev) (t : Team) : (d.setTeam t).uo = d.uo := rfl
@[simp] theorem setTeam_notes (d : Dev) (t : Team) : (d.setTeam t).notes = d.notes := rfl
@[simp] theorem setTeam_cmds (d : Dev) (t : Team) : (d.setTeam t).cmds = d.cmds := rfl
@[simp] theorem setTeam_builds (d : Dev) (t : Team) : (d.setTeam t).builds = d.builds := rfl
@[simp] theorem setTeam_residents (d : Dev) (t : Team) : (d.setTeam t).residents = d.residents := rfl
@[simp] theorem setTeam_loads (d : Dev) (t : Team) : (d.setTeam t).loads = d.loads := rfl
@[simp] theorem setTeam_ctxs (d : Dev) (t : Team) : (d.setTeam t).ctxs = d.ctxs := rfl
@[simp] theorem setTeam_grids (d : Dev) (t : Team) : (d.setTeam t).grids = d.grids := rfl
@[simp] theorem setTeam_bins (d : Dev) (t : Team) : (d.setTeam t).bins = d.bins := rfl
@[simp] theorem setTeam_waves (d : Dev) (t : Team) : (d.setTeam t).waves = d.waves := rfl
@[simp] theorem setTeam_trees (d : Dev) (t : Team) : (d.setTeam t).trees = d.trees := rfl
@[simp] theorem setTeam_vertices (d : Dev) (t : Team) : (d.setTeam t).vertices = d.vertices := rfl
@[simp] theorem setTeam_slotGens (d : Dev) (t : Team) : (d.setTeam t).slotGens = d.slotGens := rfl
@[simp] theorem setTeam_ages (d : Dev) (t : Team) : (d.setTeam t).ages = d.ages := rfl
@[simp] theorem setTeam_turns (d : Dev) (t : Team) : (d.setTeam t).turns = d.turns := rfl
@[simp] theorem setTeam_ports (d : Dev) (t : Team) : (d.setTeam t).ports = d.ports := rfl
@[simp] theorem setTeam_served (d : Dev) (t : Team) : (d.setTeam t).served = d.served := rfl
@[simp] theorem setTeam_order (d : Dev) (t : Team) : (d.setTeam t).order = d.order := rfl
@[simp] theorem setTeam_regions (d : Dev) (t : Team) : (d.setTeam t).regions = d.regions := rfl
@[simp] theorem setTeam_retiredCores (d : Dev) (t : Team) : (d.setTeam t).retiredCores = d.retiredCores := rfl
@[simp] theorem setTeam_gated (d : Dev) (t : Team) : (d.setTeam t).gated = d.gated := rfl
@[simp] theorem setTeam_idleSince (d : Dev) (t : Team) : (d.setTeam t).idleSince = d.idleSince := rfl
@[simp] theorem setTeam_trace (d : Dev) (t : Team) : (d.setTeam t).trace = d.trace := rfl
@[simp] theorem setTeam_traceCtl (d : Dev) (t : Team) : (d.setTeam t).traceCtl = d.traceCtl := rfl
@[simp] theorem setTeam_armed (d : Dev) (t : Team) : (d.setTeam t).armed = d.armed := rfl
@[simp] theorem setTeam_armedId (d : Dev) (t : Team) : (d.setTeam t).armedId = d.armedId := rfl
@[simp] theorem setTeam_freeSeq (d : Dev) (t : Team) : (d.setTeam t).freeSeq = d.freeSeq := rfl
@[simp] theorem setTeam_created (d : Dev) (t : Team) : (d.setTeam t).created = d.created := rfl
@[simp] theorem setTeam_powered (d : Dev) (t : Team) : (d.setTeam t).powered = d.powered := rfl
@[simp] theorem setTeam_retiredWays (d : Dev) (t : Team) : (d.setTeam t).retiredWays = d.retiredWays := rfl
@[simp] theorem setTeam_mark (d : Dev) (t : Team) : (d.setTeam t).mark = d.mark := rfl
@[simp] theorem setTeam_stuck (d : Dev) (t : Team) : (d.setTeam t).stuck = d.stuck := rfl
@[simp] theorem setTeam_drains (d : Dev) (t : Team) : (d.setTeam t).drains = d.drains := rfl
@[simp] theorem setTeam_framed (d : Dev) (t : Team) : (d.setTeam t).framed = d.framed := rfl
@[simp] theorem setTeam_past (d : Dev) (t : Team) : (d.setTeam t).past = d.past := rfl
@[simp] theorem setTeam_clock (d : Dev) (t : Team) : (d.setTeam t).clock = d.clock := rfl
@[simp] theorem setTeam_before (d : Dev) (t : Team) : (d.setTeam t).before = d.before := rfl
@[simp] theorem setTeam_agreed (d : Dev) (t : Team) : (d.setTeam t).agreed = d.agreed := rfl
@[simp] theorem setTeam_scs (d : Dev) (t : Team) : (d.setTeam t).scs = d.scs := rfl
@[simp] theorem setTeam_hostKnow (d : Dev) (t : Team) : (d.setTeam t).hostKnow = d.hostKnow := rfl
@[simp] theorem setGroup_mem (d : Dev) (g : Group) : (d.setGroup g).mem = d.mem := rfl
@[simp] theorem setGroup_nextId (d : Dev) (g : Group) : (d.setGroup g).nextId = d.nextId := rfl
@[simp] theorem setGroup_fibres (d : Dev) (g : Group) : (d.setGroup g).fibres = d.fibres := rfl
@[simp] theorem setGroup_teams (d : Dev) (g : Group) : (d.setGroup g).teams = d.teams := rfl
@[simp] theorem setGroup_flights (d : Dev) (g : Group) : (d.setGroup g).flights = d.flights := rfl
@[simp] theorem setGroup_holds (d : Dev) (g : Group) : (d.setGroup g).holds = d.holds := rfl
@[simp] theorem setGroup_waiters (d : Dev) (g : Group) : (d.setGroup g).waiters = d.waiters := rfl
@[simp] theorem setGroup_tlb (d : Dev) (g : Group) : (d.setGroup g).tlb = d.tlb := rfl
@[simp] theorem setGroup_zeroings (d : Dev) (g : Group) : (d.setGroup g).zeroings = d.zeroings := rfl
@[simp] theorem setGroup_uo (d : Dev) (g : Group) : (d.setGroup g).uo = d.uo := rfl
@[simp] theorem setGroup_notes (d : Dev) (g : Group) : (d.setGroup g).notes = d.notes := rfl
@[simp] theorem setGroup_cmds (d : Dev) (g : Group) : (d.setGroup g).cmds = d.cmds := rfl
@[simp] theorem setGroup_builds (d : Dev) (g : Group) : (d.setGroup g).builds = d.builds := rfl
@[simp] theorem setGroup_residents (d : Dev) (g : Group) : (d.setGroup g).residents = d.residents := rfl
@[simp] theorem setGroup_loads (d : Dev) (g : Group) : (d.setGroup g).loads = d.loads := rfl
@[simp] theorem setGroup_ctxs (d : Dev) (g : Group) : (d.setGroup g).ctxs = d.ctxs := rfl
@[simp] theorem setGroup_grids (d : Dev) (g : Group) : (d.setGroup g).grids = d.grids := rfl
@[simp] theorem setGroup_bins (d : Dev) (g : Group) : (d.setGroup g).bins = d.bins := rfl
@[simp] theorem setGroup_waves (d : Dev) (g : Group) : (d.setGroup g).waves = d.waves := rfl
@[simp] theorem setGroup_trees (d : Dev) (g : Group) : (d.setGroup g).trees = d.trees := rfl
@[simp] theorem setGroup_vertices (d : Dev) (g : Group) : (d.setGroup g).vertices = d.vertices := rfl
@[simp] theorem setGroup_slotGens (d : Dev) (g : Group) : (d.setGroup g).slotGens = d.slotGens := rfl
@[simp] theorem setGroup_ages (d : Dev) (g : Group) : (d.setGroup g).ages = d.ages := rfl
@[simp] theorem setGroup_turns (d : Dev) (g : Group) : (d.setGroup g).turns = d.turns := rfl
@[simp] theorem setGroup_ports (d : Dev) (g : Group) : (d.setGroup g).ports = d.ports := rfl
@[simp] theorem setGroup_served (d : Dev) (g : Group) : (d.setGroup g).served = d.served := rfl
@[simp] theorem setGroup_order (d : Dev) (g : Group) : (d.setGroup g).order = d.order := rfl
@[simp] theorem setGroup_regions (d : Dev) (g : Group) : (d.setGroup g).regions = d.regions := rfl
@[simp] theorem setGroup_retiredCores (d : Dev) (g : Group) : (d.setGroup g).retiredCores = d.retiredCores := rfl
@[simp] theorem setGroup_gated (d : Dev) (g : Group) : (d.setGroup g).gated = d.gated := rfl
@[simp] theorem setGroup_idleSince (d : Dev) (g : Group) : (d.setGroup g).idleSince = d.idleSince := rfl
@[simp] theorem setGroup_trace (d : Dev) (g : Group) : (d.setGroup g).trace = d.trace := rfl
@[simp] theorem setGroup_traceCtl (d : Dev) (g : Group) : (d.setGroup g).traceCtl = d.traceCtl := rfl
@[simp] theorem setGroup_armed (d : Dev) (g : Group) : (d.setGroup g).armed = d.armed := rfl
@[simp] theorem setGroup_armedId (d : Dev) (g : Group) : (d.setGroup g).armedId = d.armedId := rfl
@[simp] theorem setGroup_freeSeq (d : Dev) (g : Group) : (d.setGroup g).freeSeq = d.freeSeq := rfl
@[simp] theorem setGroup_created (d : Dev) (g : Group) : (d.setGroup g).created = d.created := rfl
@[simp] theorem setGroup_powered (d : Dev) (g : Group) : (d.setGroup g).powered = d.powered := rfl
@[simp] theorem setGroup_retiredWays (d : Dev) (g : Group) : (d.setGroup g).retiredWays = d.retiredWays := rfl
@[simp] theorem setGroup_mark (d : Dev) (g : Group) : (d.setGroup g).mark = d.mark := rfl
@[simp] theorem setGroup_stuck (d : Dev) (g : Group) : (d.setGroup g).stuck = d.stuck := rfl
@[simp] theorem setGroup_drains (d : Dev) (g : Group) : (d.setGroup g).drains = d.drains := rfl
@[simp] theorem setGroup_framed (d : Dev) (g : Group) : (d.setGroup g).framed = d.framed := rfl
@[simp] theorem setGroup_past (d : Dev) (g : Group) : (d.setGroup g).past = d.past := rfl
@[simp] theorem setGroup_clock (d : Dev) (g : Group) : (d.setGroup g).clock = d.clock := rfl
@[simp] theorem setGroup_before (d : Dev) (g : Group) : (d.setGroup g).before = d.before := rfl
@[simp] theorem setGroup_agreed (d : Dev) (g : Group) : (d.setGroup g).agreed = d.agreed := rfl
@[simp] theorem setGroup_scs (d : Dev) (g : Group) : (d.setGroup g).scs = d.scs := rfl
@[simp] theorem setGroup_hostKnow (d : Dev) (g : Group) : (d.setGroup g).hostKnow = d.hostKnow := rfl
@[simp] theorem setCtx_mem (d : Dev) (c : Nat) (x : Ctx) : (d.setCtx c x).mem = d.mem := rfl
@[simp] theorem setCtx_nextId (d : Dev) (c : Nat) (x : Ctx) : (d.setCtx c x).nextId = d.nextId := rfl
@[simp] theorem setCtx_fibres (d : Dev) (c : Nat) (x : Ctx) : (d.setCtx c x).fibres = d.fibres := rfl
@[simp] theorem setCtx_groups (d : Dev) (c : Nat) (x : Ctx) : (d.setCtx c x).groups = d.groups := rfl
@[simp] theorem setCtx_teams (d : Dev) (c : Nat) (x : Ctx) : (d.setCtx c x).teams = d.teams := rfl
@[simp] theorem setCtx_flights (d : Dev) (c : Nat) (x : Ctx) : (d.setCtx c x).flights = d.flights := rfl
@[simp] theorem setCtx_holds (d : Dev) (c : Nat) (x : Ctx) : (d.setCtx c x).holds = d.holds := rfl
@[simp] theorem setCtx_waiters (d : Dev) (c : Nat) (x : Ctx) : (d.setCtx c x).waiters = d.waiters := rfl
@[simp] theorem setCtx_tlb (d : Dev) (c : Nat) (x : Ctx) : (d.setCtx c x).tlb = d.tlb := rfl
@[simp] theorem setCtx_zeroings (d : Dev) (c : Nat) (x : Ctx) : (d.setCtx c x).zeroings = d.zeroings := rfl
@[simp] theorem setCtx_uo (d : Dev) (c : Nat) (x : Ctx) : (d.setCtx c x).uo = d.uo := rfl
@[simp] theorem setCtx_notes (d : Dev) (c : Nat) (x : Ctx) : (d.setCtx c x).notes = d.notes := rfl
@[simp] theorem setCtx_cmds (d : Dev) (c : Nat) (x : Ctx) : (d.setCtx c x).cmds = d.cmds := rfl
@[simp] theorem setCtx_builds (d : Dev) (c : Nat) (x : Ctx) : (d.setCtx c x).builds = d.builds := rfl
@[simp] theorem setCtx_residents (d : Dev) (c : Nat) (x : Ctx) : (d.setCtx c x).residents = d.residents := rfl
@[simp] theorem setCtx_loads (d : Dev) (c : Nat) (x : Ctx) : (d.setCtx c x).loads = d.loads := rfl
@[simp] theorem setCtx_grids (d : Dev) (c : Nat) (x : Ctx) : (d.setCtx c x).grids = d.grids := rfl
@[simp] theorem setCtx_bins (d : Dev) (c : Nat) (x : Ctx) : (d.setCtx c x).bins = d.bins := rfl
@[simp] theorem setCtx_waves (d : Dev) (c : Nat) (x : Ctx) : (d.setCtx c x).waves = d.waves := rfl
@[simp] theorem setCtx_trees (d : Dev) (c : Nat) (x : Ctx) : (d.setCtx c x).trees = d.trees := rfl
@[simp] theorem setCtx_vertices (d : Dev) (c : Nat) (x : Ctx) : (d.setCtx c x).vertices = d.vertices := rfl
@[simp] theorem setCtx_slotGens (d : Dev) (c : Nat) (x : Ctx) : (d.setCtx c x).slotGens = d.slotGens := rfl
@[simp] theorem setCtx_ages (d : Dev) (c : Nat) (x : Ctx) : (d.setCtx c x).ages = d.ages := rfl
@[simp] theorem setCtx_turns (d : Dev) (c : Nat) (x : Ctx) : (d.setCtx c x).turns = d.turns := rfl
@[simp] theorem setCtx_ports (d : Dev) (c : Nat) (x : Ctx) : (d.setCtx c x).ports = d.ports := rfl
@[simp] theorem setCtx_served (d : Dev) (c : Nat) (x : Ctx) : (d.setCtx c x).served = d.served := rfl
@[simp] theorem setCtx_order (d : Dev) (c : Nat) (x : Ctx) : (d.setCtx c x).order = d.order := rfl
@[simp] theorem setCtx_regions (d : Dev) (c : Nat) (x : Ctx) : (d.setCtx c x).regions = d.regions := rfl
@[simp] theorem setCtx_retiredCores (d : Dev) (c : Nat) (x : Ctx) : (d.setCtx c x).retiredCores = d.retiredCores := rfl
@[simp] theorem setCtx_gated (d : Dev) (c : Nat) (x : Ctx) : (d.setCtx c x).gated = d.gated := rfl
@[simp] theorem setCtx_idleSince (d : Dev) (c : Nat) (x : Ctx) : (d.setCtx c x).idleSince = d.idleSince := rfl
@[simp] theorem setCtx_trace (d : Dev) (c : Nat) (x : Ctx) : (d.setCtx c x).trace = d.trace := rfl
@[simp] theorem setCtx_traceCtl (d : Dev) (c : Nat) (x : Ctx) : (d.setCtx c x).traceCtl = d.traceCtl := rfl
@[simp] theorem setCtx_armed (d : Dev) (c : Nat) (x : Ctx) : (d.setCtx c x).armed = d.armed := rfl
@[simp] theorem setCtx_armedId (d : Dev) (c : Nat) (x : Ctx) : (d.setCtx c x).armedId = d.armedId := rfl
@[simp] theorem setCtx_freeSeq (d : Dev) (c : Nat) (x : Ctx) : (d.setCtx c x).freeSeq = d.freeSeq := rfl
@[simp] theorem setCtx_created (d : Dev) (c : Nat) (x : Ctx) : (d.setCtx c x).created = d.created := rfl
@[simp] theorem setCtx_powered (d : Dev) (c : Nat) (x : Ctx) : (d.setCtx c x).powered = d.powered := rfl
@[simp] theorem setCtx_retiredWays (d : Dev) (c : Nat) (x : Ctx) : (d.setCtx c x).retiredWays = d.retiredWays := rfl
@[simp] theorem setCtx_mark (d : Dev) (c : Nat) (x : Ctx) : (d.setCtx c x).mark = d.mark := rfl
@[simp] theorem setCtx_stuck (d : Dev) (c : Nat) (x : Ctx) : (d.setCtx c x).stuck = d.stuck := rfl
@[simp] theorem setCtx_drains (d : Dev) (c : Nat) (x : Ctx) : (d.setCtx c x).drains = d.drains := rfl
@[simp] theorem setCtx_framed (d : Dev) (c : Nat) (x : Ctx) : (d.setCtx c x).framed = d.framed := rfl
@[simp] theorem setCtx_past (d : Dev) (c : Nat) (x : Ctx) : (d.setCtx c x).past = d.past := rfl
@[simp] theorem setCtx_clock (d : Dev) (c : Nat) (x : Ctx) : (d.setCtx c x).clock = d.clock := rfl
@[simp] theorem setCtx_before (d : Dev) (c : Nat) (x : Ctx) : (d.setCtx c x).before = d.before := rfl
@[simp] theorem setCtx_agreed (d : Dev) (c : Nat) (x : Ctx) : (d.setCtx c x).agreed = d.agreed := rfl
@[simp] theorem setCtx_scs (d : Dev) (c : Nat) (x : Ctx) : (d.setCtx c x).scs = d.scs := rfl
@[simp] theorem setCtx_hostKnow (d : Dev) (c : Nat) (x : Ctx) : (d.setCtx c x).hostKnow = d.hostKnow := rfl
@[simp] theorem setGrid_mem (d : Dev) (g : Grid) : (d.setGrid g).mem = d.mem := rfl
@[simp] theorem setGrid_nextId (d : Dev) (g : Grid) : (d.setGrid g).nextId = d.nextId := rfl
@[simp] theorem setGrid_fibres (d : Dev) (g : Grid) : (d.setGrid g).fibres = d.fibres := rfl
@[simp] theorem setGrid_groups (d : Dev) (g : Grid) : (d.setGrid g).groups = d.groups := rfl
@[simp] theorem setGrid_teams (d : Dev) (g : Grid) : (d.setGrid g).teams = d.teams := rfl
@[simp] theorem setGrid_flights (d : Dev) (g : Grid) : (d.setGrid g).flights = d.flights := rfl
@[simp] theorem setGrid_holds (d : Dev) (g : Grid) : (d.setGrid g).holds = d.holds := rfl
@[simp] theorem setGrid_waiters (d : Dev) (g : Grid) : (d.setGrid g).waiters = d.waiters := rfl
@[simp] theorem setGrid_tlb (d : Dev) (g : Grid) : (d.setGrid g).tlb = d.tlb := rfl
@[simp] theorem setGrid_zeroings (d : Dev) (g : Grid) : (d.setGrid g).zeroings = d.zeroings := rfl
@[simp] theorem setGrid_uo (d : Dev) (g : Grid) : (d.setGrid g).uo = d.uo := rfl
@[simp] theorem setGrid_notes (d : Dev) (g : Grid) : (d.setGrid g).notes = d.notes := rfl
@[simp] theorem setGrid_cmds (d : Dev) (g : Grid) : (d.setGrid g).cmds = d.cmds := rfl
@[simp] theorem setGrid_builds (d : Dev) (g : Grid) : (d.setGrid g).builds = d.builds := rfl
@[simp] theorem setGrid_residents (d : Dev) (g : Grid) : (d.setGrid g).residents = d.residents := rfl
@[simp] theorem setGrid_loads (d : Dev) (g : Grid) : (d.setGrid g).loads = d.loads := rfl
@[simp] theorem setGrid_ctxs (d : Dev) (g : Grid) : (d.setGrid g).ctxs = d.ctxs := rfl
@[simp] theorem setGrid_bins (d : Dev) (g : Grid) : (d.setGrid g).bins = d.bins := rfl
@[simp] theorem setGrid_waves (d : Dev) (g : Grid) : (d.setGrid g).waves = d.waves := rfl
@[simp] theorem setGrid_trees (d : Dev) (g : Grid) : (d.setGrid g).trees = d.trees := rfl
@[simp] theorem setGrid_vertices (d : Dev) (g : Grid) : (d.setGrid g).vertices = d.vertices := rfl
@[simp] theorem setGrid_slotGens (d : Dev) (g : Grid) : (d.setGrid g).slotGens = d.slotGens := rfl
@[simp] theorem setGrid_ages (d : Dev) (g : Grid) : (d.setGrid g).ages = d.ages := rfl
@[simp] theorem setGrid_turns (d : Dev) (g : Grid) : (d.setGrid g).turns = d.turns := rfl
@[simp] theorem setGrid_ports (d : Dev) (g : Grid) : (d.setGrid g).ports = d.ports := rfl
@[simp] theorem setGrid_served (d : Dev) (g : Grid) : (d.setGrid g).served = d.served := rfl
@[simp] theorem setGrid_order (d : Dev) (g : Grid) : (d.setGrid g).order = d.order := rfl
@[simp] theorem setGrid_regions (d : Dev) (g : Grid) : (d.setGrid g).regions = d.regions := rfl
@[simp] theorem setGrid_retiredCores (d : Dev) (g : Grid) : (d.setGrid g).retiredCores = d.retiredCores := rfl
@[simp] theorem setGrid_gated (d : Dev) (g : Grid) : (d.setGrid g).gated = d.gated := rfl
@[simp] theorem setGrid_idleSince (d : Dev) (g : Grid) : (d.setGrid g).idleSince = d.idleSince := rfl
@[simp] theorem setGrid_trace (d : Dev) (g : Grid) : (d.setGrid g).trace = d.trace := rfl
@[simp] theorem setGrid_traceCtl (d : Dev) (g : Grid) : (d.setGrid g).traceCtl = d.traceCtl := rfl
@[simp] theorem setGrid_armed (d : Dev) (g : Grid) : (d.setGrid g).armed = d.armed := rfl
@[simp] theorem setGrid_armedId (d : Dev) (g : Grid) : (d.setGrid g).armedId = d.armedId := rfl
@[simp] theorem setGrid_freeSeq (d : Dev) (g : Grid) : (d.setGrid g).freeSeq = d.freeSeq := rfl
@[simp] theorem setGrid_created (d : Dev) (g : Grid) : (d.setGrid g).created = d.created := rfl
@[simp] theorem setGrid_powered (d : Dev) (g : Grid) : (d.setGrid g).powered = d.powered := rfl
@[simp] theorem setGrid_retiredWays (d : Dev) (g : Grid) : (d.setGrid g).retiredWays = d.retiredWays := rfl
@[simp] theorem setGrid_mark (d : Dev) (g : Grid) : (d.setGrid g).mark = d.mark := rfl
@[simp] theorem setGrid_stuck (d : Dev) (g : Grid) : (d.setGrid g).stuck = d.stuck := rfl
@[simp] theorem setGrid_drains (d : Dev) (g : Grid) : (d.setGrid g).drains = d.drains := rfl
@[simp] theorem setGrid_framed (d : Dev) (g : Grid) : (d.setGrid g).framed = d.framed := rfl
@[simp] theorem setGrid_past (d : Dev) (g : Grid) : (d.setGrid g).past = d.past := rfl
@[simp] theorem setGrid_clock (d : Dev) (g : Grid) : (d.setGrid g).clock = d.clock := rfl
@[simp] theorem setGrid_before (d : Dev) (g : Grid) : (d.setGrid g).before = d.before := rfl
@[simp] theorem setGrid_agreed (d : Dev) (g : Grid) : (d.setGrid g).agreed = d.agreed := rfl
@[simp] theorem setGrid_scs (d : Dev) (g : Grid) : (d.setGrid g).scs = d.scs := rfl
@[simp] theorem setGrid_hostKnow (d : Dev) (g : Grid) : (d.setGrid g).hostKnow = d.hostKnow := rfl
@[simp] theorem emitTrace_mem (d : Dev) (rs : List TraceRec) : (emitTrace d rs).mem = d.mem := rfl
@[simp] theorem emitTrace_nextId (d : Dev) (rs : List TraceRec) : (emitTrace d rs).nextId = d.nextId := rfl
@[simp] theorem emitTrace_fibres (d : Dev) (rs : List TraceRec) : (emitTrace d rs).fibres = d.fibres := rfl
@[simp] theorem emitTrace_groups (d : Dev) (rs : List TraceRec) : (emitTrace d rs).groups = d.groups := rfl
@[simp] theorem emitTrace_teams (d : Dev) (rs : List TraceRec) : (emitTrace d rs).teams = d.teams := rfl
@[simp] theorem emitTrace_flights (d : Dev) (rs : List TraceRec) : (emitTrace d rs).flights = d.flights := rfl
@[simp] theorem emitTrace_holds (d : Dev) (rs : List TraceRec) : (emitTrace d rs).holds = d.holds := rfl
@[simp] theorem emitTrace_waiters (d : Dev) (rs : List TraceRec) : (emitTrace d rs).waiters = d.waiters := rfl
@[simp] theorem emitTrace_tlb (d : Dev) (rs : List TraceRec) : (emitTrace d rs).tlb = d.tlb := rfl
@[simp] theorem emitTrace_zeroings (d : Dev) (rs : List TraceRec) : (emitTrace d rs).zeroings = d.zeroings := rfl
@[simp] theorem emitTrace_uo (d : Dev) (rs : List TraceRec) : (emitTrace d rs).uo = d.uo := rfl
@[simp] theorem emitTrace_notes (d : Dev) (rs : List TraceRec) : (emitTrace d rs).notes = d.notes := rfl
@[simp] theorem emitTrace_cmds (d : Dev) (rs : List TraceRec) : (emitTrace d rs).cmds = d.cmds := rfl
@[simp] theorem emitTrace_builds (d : Dev) (rs : List TraceRec) : (emitTrace d rs).builds = d.builds := rfl
@[simp] theorem emitTrace_residents (d : Dev) (rs : List TraceRec) : (emitTrace d rs).residents = d.residents := rfl
@[simp] theorem emitTrace_loads (d : Dev) (rs : List TraceRec) : (emitTrace d rs).loads = d.loads := rfl
@[simp] theorem emitTrace_ctxs (d : Dev) (rs : List TraceRec) : (emitTrace d rs).ctxs = d.ctxs := rfl
@[simp] theorem emitTrace_grids (d : Dev) (rs : List TraceRec) : (emitTrace d rs).grids = d.grids := rfl
@[simp] theorem emitTrace_bins (d : Dev) (rs : List TraceRec) : (emitTrace d rs).bins = d.bins := rfl
@[simp] theorem emitTrace_waves (d : Dev) (rs : List TraceRec) : (emitTrace d rs).waves = d.waves := rfl
@[simp] theorem emitTrace_trees (d : Dev) (rs : List TraceRec) : (emitTrace d rs).trees = d.trees := rfl
@[simp] theorem emitTrace_vertices (d : Dev) (rs : List TraceRec) : (emitTrace d rs).vertices = d.vertices := rfl
@[simp] theorem emitTrace_slotGens (d : Dev) (rs : List TraceRec) : (emitTrace d rs).slotGens = d.slotGens := rfl
@[simp] theorem emitTrace_ages (d : Dev) (rs : List TraceRec) : (emitTrace d rs).ages = d.ages := rfl
@[simp] theorem emitTrace_turns (d : Dev) (rs : List TraceRec) : (emitTrace d rs).turns = d.turns := rfl
@[simp] theorem emitTrace_ports (d : Dev) (rs : List TraceRec) : (emitTrace d rs).ports = d.ports := rfl
@[simp] theorem emitTrace_served (d : Dev) (rs : List TraceRec) : (emitTrace d rs).served = d.served := rfl
@[simp] theorem emitTrace_order (d : Dev) (rs : List TraceRec) : (emitTrace d rs).order = d.order := rfl
@[simp] theorem emitTrace_regions (d : Dev) (rs : List TraceRec) : (emitTrace d rs).regions = d.regions := rfl
@[simp] theorem emitTrace_retiredCores (d : Dev) (rs : List TraceRec) : (emitTrace d rs).retiredCores = d.retiredCores := rfl
@[simp] theorem emitTrace_gated (d : Dev) (rs : List TraceRec) : (emitTrace d rs).gated = d.gated := rfl
@[simp] theorem emitTrace_idleSince (d : Dev) (rs : List TraceRec) : (emitTrace d rs).idleSince = d.idleSince := rfl
@[simp] theorem emitTrace_traceCtl (d : Dev) (rs : List TraceRec) : (emitTrace d rs).traceCtl = d.traceCtl := rfl
@[simp] theorem emitTrace_armed (d : Dev) (rs : List TraceRec) : (emitTrace d rs).armed = d.armed := rfl
@[simp] theorem emitTrace_armedId (d : Dev) (rs : List TraceRec) : (emitTrace d rs).armedId = d.armedId := rfl
@[simp] theorem emitTrace_freeSeq (d : Dev) (rs : List TraceRec) : (emitTrace d rs).freeSeq = d.freeSeq := rfl
@[simp] theorem emitTrace_created (d : Dev) (rs : List TraceRec) : (emitTrace d rs).created = d.created := rfl
@[simp] theorem emitTrace_powered (d : Dev) (rs : List TraceRec) : (emitTrace d rs).powered = d.powered := rfl
@[simp] theorem emitTrace_retiredWays (d : Dev) (rs : List TraceRec) : (emitTrace d rs).retiredWays = d.retiredWays := rfl
@[simp] theorem emitTrace_mark (d : Dev) (rs : List TraceRec) : (emitTrace d rs).mark = d.mark := rfl
@[simp] theorem emitTrace_stuck (d : Dev) (rs : List TraceRec) : (emitTrace d rs).stuck = d.stuck := rfl
@[simp] theorem emitTrace_drains (d : Dev) (rs : List TraceRec) : (emitTrace d rs).drains = d.drains := rfl
@[simp] theorem emitTrace_framed (d : Dev) (rs : List TraceRec) : (emitTrace d rs).framed = d.framed := rfl
@[simp] theorem emitTrace_past (d : Dev) (rs : List TraceRec) : (emitTrace d rs).past = d.past := rfl
@[simp] theorem emitTrace_clock (d : Dev) (rs : List TraceRec) : (emitTrace d rs).clock = d.clock := rfl
@[simp] theorem emitTrace_before (d : Dev) (rs : List TraceRec) : (emitTrace d rs).before = d.before := rfl
@[simp] theorem emitTrace_agreed (d : Dev) (rs : List TraceRec) : (emitTrace d rs).agreed = d.agreed := rfl
@[simp] theorem emitTrace_scs (d : Dev) (rs : List TraceRec) : (emitTrace d rs).scs = d.scs := rfl
@[simp] theorem emitTrace_hostKnow (d : Dev) (rs : List TraceRec) : (emitTrace d rs).hostKnow = d.hostKnow := rfl
@[simp] theorem mapThreads_uid (f : Fibre) (g : Nat → Thread → Thread) : (f.mapThreads g).uid = f.uid := rfl
@[simp] theorem mapThreads_team (f : Fibre) (g : Nat → Thread → Thread) : (f.mapThreads g).team = f.team := rfl
@[simp] theorem mapThreads_ctx (f : Fibre) (g : Nat → Thread → Thread) : (f.mapThreads g).ctx = f.ctx := rfl
@[simp] theorem mapThreads_core (f : Fibre) (g : Nat → Thread → Thread) : (f.mapThreads g).core = f.core := rfl
@[simp] theorem mapThreads_quad (f : Fibre) (g : Nat → Thread → Thread) : (f.mapThreads g).quad = f.quad := rfl
@[simp] theorem mapThreads_slot (f : Fibre) (g : Nat → Thread → Thread) : (f.mapThreads g).slot = f.slot := rfl
@[simp] theorem mapThreads_pos (f : Fibre) (g : Nat → Thread → Thread) : (f.mapThreads g).pos = f.pos := rfl
@[simp] theorem mapThreads_block (f : Fibre) (g : Nat → Thread → Thread) : (f.mapThreads g).block = f.block := rfl
@[simp] theorem mapThreads_width (f : Fibre) (g : Nat → Thread → Thread) : (f.mapThreads g).width = f.width := rfl
@[simp] theorem mapThreads_helper (f : Fibre) (g : Nat → Thread → Thread) : (f.mapThreads g).helper = f.helper := rfl
@[simp] theorem mapThreads_grp (f : Fibre) (g : Nat → Thread → Thread) : (f.mapThreads g).grp = f.grp := rfl
@[simp] theorem mapThreads_nPriv (f : Fibre) (g : Nat → Thread → Thread) : (f.mapThreads g).nPriv = f.nPriv := rfl
@[simp] theorem mapThreads_nWin (f : Fibre) (g : Nat → Thread → Thread) : (f.mapThreads g).nWin = f.nWin := rfl
@[simp] theorem mapThreads_nAlloc (f : Fibre) (g : Nat → Thread → Thread) : (f.mapThreads g).nAlloc = f.nAlloc := rfl
@[simp] theorem mapThreads_regs (f : Fibre) (g : Nat → Thread → Thread) : (f.mapThreads g).regs = f.regs := rfl
@[simp] theorem mapThreads_pendW (f : Fibre) (g : Nat → Thread → Thread) : (f.mapThreads g).pendW = f.pendW := rfl
@[simp] theorem mapThreads_pendP (f : Fibre) (g : Nat → Thread → Thread) : (f.mapThreads g).pendP = f.pendP := rfl
@[simp] theorem mapThreads_fflags (f : Fibre) (g : Nat → Thread → Thread) : (f.mapThreads g).fflags = f.fflags := rfl
@[simp] theorem mapThreads_stklim (f : Fibre) (g : Nat → Thread → Thread) : (f.mapThreads g).stklim = f.stklim := rfl
@[simp] theorem mapThreads_chk (f : Fibre) (g : Nat → Thread → Thread) : (f.mapThreads g).chk = f.chk := rfl
@[simp] theorem mapThreads_agelimit (f : Fibre) (g : Nat → Thread → Thread) : (f.mapThreads g).agelimit = f.agelimit := rfl
@[simp] theorem mapThreads_frozen (f : Fibre) (g : Nat → Thread → Thread) : (f.mapThreads g).frozen = f.frozen := rfl
@[simp] theorem mapThreads_latches (f : Fibre) (g : Nat → Thread → Thread) : (f.mapThreads g).latches = f.latches := rfl
@[simp] theorem mapThreads_streams (f : Fibre) (g : Nat → Thread → Thread) : (f.mapThreads g).streams = f.streams := rfl
@[simp] theorem mapThreads_theta (f : Fibre) (g : Nat → Thread → Thread) : (f.mapThreads g).theta = f.theta := rfl
@[simp] theorem mapThreads_eps (f : Fibre) (g : Nat → Thread → Thread) : (f.mapThreads g).eps = f.eps := rfl
@[simp] theorem mapThreads_maxDepth (f : Fibre) (g : Nat → Thread → Thread) : (f.mapThreads g).maxDepth = f.maxDepth := rfl
@[simp] theorem mapThreads_dot (f : Fibre) (g : Nat → Thread → Thread) : (f.mapThreads g).dot = f.dot := rfl
@[simp] theorem mapThreads_readyAt (f : Fibre) (g : Nat → Thread → Thread) : (f.mapThreads g).readyAt = f.readyAt := rfl
@[simp] theorem onLanes_uid (f : Fibre) (m : LaneMask) (g : Nat → Thread → Thread) : (f.onLanes m g).uid = f.uid := rfl
@[simp] theorem onLanes_team (f : Fibre) (m : LaneMask) (g : Nat → Thread → Thread) : (f.onLanes m g).team = f.team := rfl
@[simp] theorem onLanes_ctx (f : Fibre) (m : LaneMask) (g : Nat → Thread → Thread) : (f.onLanes m g).ctx = f.ctx := rfl
@[simp] theorem onLanes_core (f : Fibre) (m : LaneMask) (g : Nat → Thread → Thread) : (f.onLanes m g).core = f.core := rfl
@[simp] theorem onLanes_quad (f : Fibre) (m : LaneMask) (g : Nat → Thread → Thread) : (f.onLanes m g).quad = f.quad := rfl
@[simp] theorem onLanes_slot (f : Fibre) (m : LaneMask) (g : Nat → Thread → Thread) : (f.onLanes m g).slot = f.slot := rfl
@[simp] theorem onLanes_pos (f : Fibre) (m : LaneMask) (g : Nat → Thread → Thread) : (f.onLanes m g).pos = f.pos := rfl
@[simp] theorem onLanes_block (f : Fibre) (m : LaneMask) (g : Nat → Thread → Thread) : (f.onLanes m g).block = f.block := rfl
@[simp] theorem onLanes_width (f : Fibre) (m : LaneMask) (g : Nat → Thread → Thread) : (f.onLanes m g).width = f.width := rfl
@[simp] theorem onLanes_helper (f : Fibre) (m : LaneMask) (g : Nat → Thread → Thread) : (f.onLanes m g).helper = f.helper := rfl
@[simp] theorem onLanes_grp (f : Fibre) (m : LaneMask) (g : Nat → Thread → Thread) : (f.onLanes m g).grp = f.grp := rfl
@[simp] theorem onLanes_nPriv (f : Fibre) (m : LaneMask) (g : Nat → Thread → Thread) : (f.onLanes m g).nPriv = f.nPriv := rfl
@[simp] theorem onLanes_nWin (f : Fibre) (m : LaneMask) (g : Nat → Thread → Thread) : (f.onLanes m g).nWin = f.nWin := rfl
@[simp] theorem onLanes_nAlloc (f : Fibre) (m : LaneMask) (g : Nat → Thread → Thread) : (f.onLanes m g).nAlloc = f.nAlloc := rfl
@[simp] theorem onLanes_regs (f : Fibre) (m : LaneMask) (g : Nat → Thread → Thread) : (f.onLanes m g).regs = f.regs := rfl
@[simp] theorem onLanes_pendW (f : Fibre) (m : LaneMask) (g : Nat → Thread → Thread) : (f.onLanes m g).pendW = f.pendW := rfl
@[simp] theorem onLanes_pendP (f : Fibre) (m : LaneMask) (g : Nat → Thread → Thread) : (f.onLanes m g).pendP = f.pendP := rfl
@[simp] theorem onLanes_fflags (f : Fibre) (m : LaneMask) (g : Nat → Thread → Thread) : (f.onLanes m g).fflags = f.fflags := rfl
@[simp] theorem onLanes_stklim (f : Fibre) (m : LaneMask) (g : Nat → Thread → Thread) : (f.onLanes m g).stklim = f.stklim := rfl
@[simp] theorem onLanes_chk (f : Fibre) (m : LaneMask) (g : Nat → Thread → Thread) : (f.onLanes m g).chk = f.chk := rfl
@[simp] theorem onLanes_agelimit (f : Fibre) (m : LaneMask) (g : Nat → Thread → Thread) : (f.onLanes m g).agelimit = f.agelimit := rfl
@[simp] theorem onLanes_frozen (f : Fibre) (m : LaneMask) (g : Nat → Thread → Thread) : (f.onLanes m g).frozen = f.frozen := rfl
@[simp] theorem onLanes_latches (f : Fibre) (m : LaneMask) (g : Nat → Thread → Thread) : (f.onLanes m g).latches = f.latches := rfl
@[simp] theorem onLanes_streams (f : Fibre) (m : LaneMask) (g : Nat → Thread → Thread) : (f.onLanes m g).streams = f.streams := rfl
@[simp] theorem onLanes_theta (f : Fibre) (m : LaneMask) (g : Nat → Thread → Thread) : (f.onLanes m g).theta = f.theta := rfl
@[simp] theorem onLanes_eps (f : Fibre) (m : LaneMask) (g : Nat → Thread → Thread) : (f.onLanes m g).eps = f.eps := rfl
@[simp] theorem onLanes_maxDepth (f : Fibre) (m : LaneMask) (g : Nat → Thread → Thread) : (f.onLanes m g).maxDepth = f.maxDepth := rfl
@[simp] theorem onLanes_dot (f : Fibre) (m : LaneMask) (g : Nat → Thread → Thread) : (f.onLanes m g).dot = f.dot := rfl
@[simp] theorem onLanes_readyAt (f : Fibre) (m : LaneMask) (g : Nat → Thread → Thread) : (f.onLanes m g).readyAt = f.readyAt := rfl
@[simp] theorem raise_uid (f : Fibre) (fl : Word) : (raise f fl).uid = f.uid := rfl
@[simp] theorem raise_team (f : Fibre) (fl : Word) : (raise f fl).team = f.team := rfl
@[simp] theorem raise_ctx (f : Fibre) (fl : Word) : (raise f fl).ctx = f.ctx := rfl
@[simp] theorem raise_core (f : Fibre) (fl : Word) : (raise f fl).core = f.core := rfl
@[simp] theorem raise_quad (f : Fibre) (fl : Word) : (raise f fl).quad = f.quad := rfl
@[simp] theorem raise_slot (f : Fibre) (fl : Word) : (raise f fl).slot = f.slot := rfl
@[simp] theorem raise_pos (f : Fibre) (fl : Word) : (raise f fl).pos = f.pos := rfl
@[simp] theorem raise_block (f : Fibre) (fl : Word) : (raise f fl).block = f.block := rfl
@[simp] theorem raise_width (f : Fibre) (fl : Word) : (raise f fl).width = f.width := rfl
@[simp] theorem raise_helper (f : Fibre) (fl : Word) : (raise f fl).helper = f.helper := rfl
@[simp] theorem raise_grp (f : Fibre) (fl : Word) : (raise f fl).grp = f.grp := rfl
@[simp] theorem raise_nPriv (f : Fibre) (fl : Word) : (raise f fl).nPriv = f.nPriv := rfl
@[simp] theorem raise_nWin (f : Fibre) (fl : Word) : (raise f fl).nWin = f.nWin := rfl
@[simp] theorem raise_nAlloc (f : Fibre) (fl : Word) : (raise f fl).nAlloc = f.nAlloc := rfl
@[simp] theorem raise_regs (f : Fibre) (fl : Word) : (raise f fl).regs = f.regs := rfl
@[simp] theorem raise_pendW (f : Fibre) (fl : Word) : (raise f fl).pendW = f.pendW := rfl
@[simp] theorem raise_pendP (f : Fibre) (fl : Word) : (raise f fl).pendP = f.pendP := rfl
@[simp] theorem raise_stklim (f : Fibre) (fl : Word) : (raise f fl).stklim = f.stklim := rfl
@[simp] theorem raise_chk (f : Fibre) (fl : Word) : (raise f fl).chk = f.chk := rfl
@[simp] theorem raise_agelimit (f : Fibre) (fl : Word) : (raise f fl).agelimit = f.agelimit := rfl
@[simp] theorem raise_frozen (f : Fibre) (fl : Word) : (raise f fl).frozen = f.frozen := rfl
@[simp] theorem raise_latches (f : Fibre) (fl : Word) : (raise f fl).latches = f.latches := rfl
@[simp] theorem raise_streams (f : Fibre) (fl : Word) : (raise f fl).streams = f.streams := rfl
@[simp] theorem raise_theta (f : Fibre) (fl : Word) : (raise f fl).theta = f.theta := rfl
@[simp] theorem raise_eps (f : Fibre) (fl : Word) : (raise f fl).eps = f.eps := rfl
@[simp] theorem raise_maxDepth (f : Fibre) (fl : Word) : (raise f fl).maxDepth = f.maxDepth := rfl
@[simp] theorem raise_dot (f : Fibre) (fl : Word) : (raise f fl).dot = f.dot := rfl
@[simp] theorem raise_readyAt (f : Fibre) (fl : Word) : (raise f fl).readyAt = f.readyAt := rfl
@[simp] theorem raise_threads (f : Fibre) (fl : Word) : (raise f fl).threads = f.threads := rfl
@[simp] theorem releaseLatch_uid (c : Item) (f : Fibre) : (releaseLatch c f).uid = f.uid := rfl
@[simp] theorem releaseLatch_team (c : Item) (f : Fibre) : (releaseLatch c f).team = f.team := rfl
@[simp] theorem releaseLatch_ctx (c : Item) (f : Fibre) : (releaseLatch c f).ctx = f.ctx := rfl
@[simp] theorem releaseLatch_core (c : Item) (f : Fibre) : (releaseLatch c f).core = f.core := rfl
@[simp] theorem releaseLatch_quad (c : Item) (f : Fibre) : (releaseLatch c f).quad = f.quad := rfl
@[simp] theorem releaseLatch_slot (c : Item) (f : Fibre) : (releaseLatch c f).slot = f.slot := rfl
@[simp] theorem releaseLatch_pos (c : Item) (f : Fibre) : (releaseLatch c f).pos = f.pos := rfl
@[simp] theorem releaseLatch_block (c : Item) (f : Fibre) : (releaseLatch c f).block = f.block := rfl
@[simp] theorem releaseLatch_width (c : Item) (f : Fibre) : (releaseLatch c f).width = f.width := rfl
@[simp] theorem releaseLatch_helper (c : Item) (f : Fibre) : (releaseLatch c f).helper = f.helper := rfl
@[simp] theorem releaseLatch_grp (c : Item) (f : Fibre) : (releaseLatch c f).grp = f.grp := rfl
@[simp] theorem releaseLatch_nPriv (c : Item) (f : Fibre) : (releaseLatch c f).nPriv = f.nPriv := rfl
@[simp] theorem releaseLatch_nWin (c : Item) (f : Fibre) : (releaseLatch c f).nWin = f.nWin := rfl
@[simp] theorem releaseLatch_nAlloc (c : Item) (f : Fibre) : (releaseLatch c f).nAlloc = f.nAlloc := rfl
@[simp] theorem releaseLatch_regs (c : Item) (f : Fibre) : (releaseLatch c f).regs = f.regs := rfl
@[simp] theorem releaseLatch_pendW (c : Item) (f : Fibre) : (releaseLatch c f).pendW = f.pendW := rfl
@[simp] theorem releaseLatch_pendP (c : Item) (f : Fibre) : (releaseLatch c f).pendP = f.pendP := rfl
@[simp] theorem releaseLatch_fflags (c : Item) (f : Fibre) : (releaseLatch c f).fflags = f.fflags := rfl
@[simp] theorem releaseLatch_stklim (c : Item) (f : Fibre) : (releaseLatch c f).stklim = f.stklim := rfl
@[simp] theorem releaseLatch_chk (c : Item) (f : Fibre) : (releaseLatch c f).chk = f.chk := rfl
@[simp] theorem releaseLatch_agelimit (c : Item) (f : Fibre) : (releaseLatch c f).agelimit = f.agelimit := rfl
@[simp] theorem releaseLatch_frozen (c : Item) (f : Fibre) : (releaseLatch c f).frozen = f.frozen := rfl
@[simp] theorem releaseLatch_streams (c : Item) (f : Fibre) : (releaseLatch c f).streams = f.streams := rfl
@[simp] theorem releaseLatch_theta (c : Item) (f : Fibre) : (releaseLatch c f).theta = f.theta := rfl
@[simp] theorem releaseLatch_eps (c : Item) (f : Fibre) : (releaseLatch c f).eps = f.eps := rfl
@[simp] theorem releaseLatch_maxDepth (c : Item) (f : Fibre) : (releaseLatch c f).maxDepth = f.maxDepth := rfl
@[simp] theorem releaseLatch_dot (c : Item) (f : Fibre) : (releaseLatch c f).dot = f.dot := rfl
@[simp] theorem releaseLatch_readyAt (c : Item) (f : Fibre) : (releaseLatch c f).readyAt = f.readyAt := rfl
@[simp] theorem releaseLatch_threads (c : Item) (f : Fibre) : (releaseLatch c f).threads = f.threads := rfl
@[simp] theorem advance_uid (x : Iss) (n : Nat) (f : Fibre) : (advance x n f).uid = f.uid := rfl
@[simp] theorem advance_team (x : Iss) (n : Nat) (f : Fibre) : (advance x n f).team = f.team := rfl
@[simp] theorem advance_ctx (x : Iss) (n : Nat) (f : Fibre) : (advance x n f).ctx = f.ctx := rfl
@[simp] theorem advance_core (x : Iss) (n : Nat) (f : Fibre) : (advance x n f).core = f.core := rfl
@[simp] theorem advance_quad (x : Iss) (n : Nat) (f : Fibre) : (advance x n f).quad = f.quad := rfl
@[simp] theorem advance_slot (x : Iss) (n : Nat) (f : Fibre) : (advance x n f).slot = f.slot := rfl
@[simp] theorem advance_pos (x : Iss) (n : Nat) (f : Fibre) : (advance x n f).pos = f.pos := rfl
@[simp] theorem advance_block (x : Iss) (n : Nat) (f : Fibre) : (advance x n f).block = f.block := rfl
@[simp] theorem advance_width (x : Iss) (n : Nat) (f : Fibre) : (advance x n f).width = f.width := rfl
@[simp] theorem advance_helper (x : Iss) (n : Nat) (f : Fibre) : (advance x n f).helper = f.helper := rfl
@[simp] theorem advance_grp (x : Iss) (n : Nat) (f : Fibre) : (advance x n f).grp = f.grp := rfl
@[simp] theorem advance_nPriv (x : Iss) (n : Nat) (f : Fibre) : (advance x n f).nPriv = f.nPriv := rfl
@[simp] theorem advance_nWin (x : Iss) (n : Nat) (f : Fibre) : (advance x n f).nWin = f.nWin := rfl
@[simp] theorem advance_nAlloc (x : Iss) (n : Nat) (f : Fibre) : (advance x n f).nAlloc = f.nAlloc := rfl
@[simp] theorem advance_regs (x : Iss) (n : Nat) (f : Fibre) : (advance x n f).regs = f.regs := rfl
@[simp] theorem advance_pendW (x : Iss) (n : Nat) (f : Fibre) : (advance x n f).pendW = f.pendW := rfl
@[simp] theorem advance_pendP (x : Iss) (n : Nat) (f : Fibre) : (advance x n f).pendP = f.pendP := rfl
@[simp] theorem advance_fflags (x : Iss) (n : Nat) (f : Fibre) : (advance x n f).fflags = f.fflags := rfl
@[simp] theorem advance_stklim (x : Iss) (n : Nat) (f : Fibre) : (advance x n f).stklim = f.stklim := rfl
@[simp] theorem advance_chk (x : Iss) (n : Nat) (f : Fibre) : (advance x n f).chk = f.chk := rfl
@[simp] theorem advance_agelimit (x : Iss) (n : Nat) (f : Fibre) : (advance x n f).agelimit = f.agelimit := rfl
@[simp] theorem advance_frozen (x : Iss) (n : Nat) (f : Fibre) : (advance x n f).frozen = f.frozen := rfl
@[simp] theorem advance_latches (x : Iss) (n : Nat) (f : Fibre) : (advance x n f).latches = f.latches := rfl
@[simp] theorem advance_streams (x : Iss) (n : Nat) (f : Fibre) : (advance x n f).streams = f.streams := rfl
@[simp] theorem advance_theta (x : Iss) (n : Nat) (f : Fibre) : (advance x n f).theta = f.theta := rfl
@[simp] theorem advance_eps (x : Iss) (n : Nat) (f : Fibre) : (advance x n f).eps = f.eps := rfl
@[simp] theorem advance_maxDepth (x : Iss) (n : Nat) (f : Fibre) : (advance x n f).maxDepth = f.maxDepth := rfl
@[simp] theorem advance_dot (x : Iss) (n : Nat) (f : Fibre) : (advance x n f).dot = f.dot := rfl
@[simp] theorem advance_readyAt (x : Iss) (n : Nat) (f : Fibre) : (advance x n f).readyAt = f.readyAt := rfl
@[simp] theorem keepPc_uid (x : Iss) (m : LaneMask) (f : Fibre) : (keepPc x m f).uid = f.uid := rfl
@[simp] theorem keepPc_team (x : Iss) (m : LaneMask) (f : Fibre) : (keepPc x m f).team = f.team := rfl
@[simp] theorem keepPc_ctx (x : Iss) (m : LaneMask) (f : Fibre) : (keepPc x m f).ctx = f.ctx := rfl
@[simp] theorem keepPc_core (x : Iss) (m : LaneMask) (f : Fibre) : (keepPc x m f).core = f.core := rfl
@[simp] theorem keepPc_quad (x : Iss) (m : LaneMask) (f : Fibre) : (keepPc x m f).quad = f.quad := rfl
@[simp] theorem keepPc_slot (x : Iss) (m : LaneMask) (f : Fibre) : (keepPc x m f).slot = f.slot := rfl
@[simp] theorem keepPc_pos (x : Iss) (m : LaneMask) (f : Fibre) : (keepPc x m f).pos = f.pos := rfl
@[simp] theorem keepPc_block (x : Iss) (m : LaneMask) (f : Fibre) : (keepPc x m f).block = f.block := rfl
@[simp] theorem keepPc_width (x : Iss) (m : LaneMask) (f : Fibre) : (keepPc x m f).width = f.width := rfl
@[simp] theorem keepPc_helper (x : Iss) (m : LaneMask) (f : Fibre) : (keepPc x m f).helper = f.helper := rfl
@[simp] theorem keepPc_grp (x : Iss) (m : LaneMask) (f : Fibre) : (keepPc x m f).grp = f.grp := rfl
@[simp] theorem keepPc_nPriv (x : Iss) (m : LaneMask) (f : Fibre) : (keepPc x m f).nPriv = f.nPriv := rfl
@[simp] theorem keepPc_nWin (x : Iss) (m : LaneMask) (f : Fibre) : (keepPc x m f).nWin = f.nWin := rfl
@[simp] theorem keepPc_nAlloc (x : Iss) (m : LaneMask) (f : Fibre) : (keepPc x m f).nAlloc = f.nAlloc := rfl
@[simp] theorem keepPc_regs (x : Iss) (m : LaneMask) (f : Fibre) : (keepPc x m f).regs = f.regs := rfl
@[simp] theorem keepPc_pendW (x : Iss) (m : LaneMask) (f : Fibre) : (keepPc x m f).pendW = f.pendW := rfl
@[simp] theorem keepPc_pendP (x : Iss) (m : LaneMask) (f : Fibre) : (keepPc x m f).pendP = f.pendP := rfl
@[simp] theorem keepPc_fflags (x : Iss) (m : LaneMask) (f : Fibre) : (keepPc x m f).fflags = f.fflags := rfl
@[simp] theorem keepPc_stklim (x : Iss) (m : LaneMask) (f : Fibre) : (keepPc x m f).stklim = f.stklim := rfl
@[simp] theorem keepPc_chk (x : Iss) (m : LaneMask) (f : Fibre) : (keepPc x m f).chk = f.chk := rfl
@[simp] theorem keepPc_agelimit (x : Iss) (m : LaneMask) (f : Fibre) : (keepPc x m f).agelimit = f.agelimit := rfl
@[simp] theorem keepPc_frozen (x : Iss) (m : LaneMask) (f : Fibre) : (keepPc x m f).frozen = f.frozen := rfl
@[simp] theorem keepPc_latches (x : Iss) (m : LaneMask) (f : Fibre) : (keepPc x m f).latches = f.latches := rfl
@[simp] theorem keepPc_streams (x : Iss) (m : LaneMask) (f : Fibre) : (keepPc x m f).streams = f.streams := rfl
@[simp] theorem keepPc_theta (x : Iss) (m : LaneMask) (f : Fibre) : (keepPc x m f).theta = f.theta := rfl
@[simp] theorem keepPc_eps (x : Iss) (m : LaneMask) (f : Fibre) : (keepPc x m f).eps = f.eps := rfl
@[simp] theorem keepPc_maxDepth (x : Iss) (m : LaneMask) (f : Fibre) : (keepPc x m f).maxDepth = f.maxDepth := rfl
@[simp] theorem keepPc_dot (x : Iss) (m : LaneMask) (f : Fibre) : (keepPc x m f).dot = f.dot := rfl
@[simp] theorem keepPc_readyAt (x : Iss) (m : LaneMask) (f : Fibre) : (keepPc x m f).readyAt = f.readyAt := rfl

@[simp] theorem addBefore_mem (d : Dev) (e : Nat) (host : Bool) (ks : List Nat) : (d.addBefore e host ks).mem = d.mem := by
  unfold Dev.addBefore; split <;> rfl
@[simp] theorem addBefore_nextId (d : Dev) (e : Nat) (host : Bool) (ks : List Nat) : (d.addBefore e host ks).nextId = d.nextId := by
  unfold Dev.addBefore; split <;> rfl
@[simp] theorem addBefore_fibres (d : Dev) (e : Nat) (host : Bool) (ks : List Nat) : (d.addBefore e host ks).fibres = d.fibres := by
  unfold Dev.addBefore; split <;> rfl
@[simp] theorem addBefore_groups (d : Dev) (e : Nat) (host : Bool) (ks : List Nat) : (d.addBefore e host ks).groups = d.groups := by
  unfold Dev.addBefore; split <;> rfl
@[simp] theorem addBefore_teams (d : Dev) (e : Nat) (host : Bool) (ks : List Nat) : (d.addBefore e host ks).teams = d.teams := by
  unfold Dev.addBefore; split <;> rfl
@[simp] theorem addBefore_flights (d : Dev) (e : Nat) (host : Bool) (ks : List Nat) : (d.addBefore e host ks).flights = d.flights := by
  unfold Dev.addBefore; split <;> rfl
@[simp] theorem addBefore_holds (d : Dev) (e : Nat) (host : Bool) (ks : List Nat) : (d.addBefore e host ks).holds = d.holds := by
  unfold Dev.addBefore; split <;> rfl
@[simp] theorem addBefore_waiters (d : Dev) (e : Nat) (host : Bool) (ks : List Nat) : (d.addBefore e host ks).waiters = d.waiters := by
  unfold Dev.addBefore; split <;> rfl
@[simp] theorem addBefore_tlb (d : Dev) (e : Nat) (host : Bool) (ks : List Nat) : (d.addBefore e host ks).tlb = d.tlb := by
  unfold Dev.addBefore; split <;> rfl
@[simp] theorem addBefore_zeroings (d : Dev) (e : Nat) (host : Bool) (ks : List Nat) : (d.addBefore e host ks).zeroings = d.zeroings := by
  unfold Dev.addBefore; split <;> rfl
@[simp] theorem addBefore_uo (d : Dev) (e : Nat) (host : Bool) (ks : List Nat) : (d.addBefore e host ks).uo = d.uo := by
  unfold Dev.addBefore; split <;> rfl
@[simp] theorem addBefore_notes (d : Dev) (e : Nat) (host : Bool) (ks : List Nat) : (d.addBefore e host ks).notes = d.notes := by
  unfold Dev.addBefore; split <;> rfl
@[simp] theorem addBefore_cmds (d : Dev) (e : Nat) (host : Bool) (ks : List Nat) : (d.addBefore e host ks).cmds = d.cmds := by
  unfold Dev.addBefore; split <;> rfl
@[simp] theorem addBefore_builds (d : Dev) (e : Nat) (host : Bool) (ks : List Nat) : (d.addBefore e host ks).builds = d.builds := by
  unfold Dev.addBefore; split <;> rfl
@[simp] theorem addBefore_residents (d : Dev) (e : Nat) (host : Bool) (ks : List Nat) : (d.addBefore e host ks).residents = d.residents := by
  unfold Dev.addBefore; split <;> rfl
@[simp] theorem addBefore_loads (d : Dev) (e : Nat) (host : Bool) (ks : List Nat) : (d.addBefore e host ks).loads = d.loads := by
  unfold Dev.addBefore; split <;> rfl
@[simp] theorem addBefore_ctxs (d : Dev) (e : Nat) (host : Bool) (ks : List Nat) : (d.addBefore e host ks).ctxs = d.ctxs := by
  unfold Dev.addBefore; split <;> rfl
@[simp] theorem addBefore_grids (d : Dev) (e : Nat) (host : Bool) (ks : List Nat) : (d.addBefore e host ks).grids = d.grids := by
  unfold Dev.addBefore; split <;> rfl
@[simp] theorem addBefore_bins (d : Dev) (e : Nat) (host : Bool) (ks : List Nat) : (d.addBefore e host ks).bins = d.bins := by
  unfold Dev.addBefore; split <;> rfl
@[simp] theorem addBefore_waves (d : Dev) (e : Nat) (host : Bool) (ks : List Nat) : (d.addBefore e host ks).waves = d.waves := by
  unfold Dev.addBefore; split <;> rfl
@[simp] theorem addBefore_trees (d : Dev) (e : Nat) (host : Bool) (ks : List Nat) : (d.addBefore e host ks).trees = d.trees := by
  unfold Dev.addBefore; split <;> rfl
@[simp] theorem addBefore_vertices (d : Dev) (e : Nat) (host : Bool) (ks : List Nat) : (d.addBefore e host ks).vertices = d.vertices := by
  unfold Dev.addBefore; split <;> rfl
@[simp] theorem addBefore_slotGens (d : Dev) (e : Nat) (host : Bool) (ks : List Nat) : (d.addBefore e host ks).slotGens = d.slotGens := by
  unfold Dev.addBefore; split <;> rfl
@[simp] theorem addBefore_ages (d : Dev) (e : Nat) (host : Bool) (ks : List Nat) : (d.addBefore e host ks).ages = d.ages := by
  unfold Dev.addBefore; split <;> rfl
@[simp] theorem addBefore_turns (d : Dev) (e : Nat) (host : Bool) (ks : List Nat) : (d.addBefore e host ks).turns = d.turns := by
  unfold Dev.addBefore; split <;> rfl
@[simp] theorem addBefore_ports (d : Dev) (e : Nat) (host : Bool) (ks : List Nat) : (d.addBefore e host ks).ports = d.ports := by
  unfold Dev.addBefore; split <;> rfl
@[simp] theorem addBefore_served (d : Dev) (e : Nat) (host : Bool) (ks : List Nat) : (d.addBefore e host ks).served = d.served := by
  unfold Dev.addBefore; split <;> rfl
@[simp] theorem addBefore_order (d : Dev) (e : Nat) (host : Bool) (ks : List Nat) : (d.addBefore e host ks).order = d.order := by
  unfold Dev.addBefore; split <;> rfl
@[simp] theorem addBefore_regions (d : Dev) (e : Nat) (host : Bool) (ks : List Nat) : (d.addBefore e host ks).regions = d.regions := by
  unfold Dev.addBefore; split <;> rfl
@[simp] theorem addBefore_retiredCores (d : Dev) (e : Nat) (host : Bool) (ks : List Nat) : (d.addBefore e host ks).retiredCores = d.retiredCores := by
  unfold Dev.addBefore; split <;> rfl
@[simp] theorem addBefore_retiredWays (d : Dev) (e : Nat) (host : Bool) (ks : List Nat) : (d.addBefore e host ks).retiredWays = d.retiredWays := by
  unfold Dev.addBefore; split <;> rfl
@[simp] theorem addBefore_gated (d : Dev) (e : Nat) (host : Bool) (ks : List Nat) : (d.addBefore e host ks).gated = d.gated := by
  unfold Dev.addBefore; split <;> rfl
@[simp] theorem addBefore_idleSince (d : Dev) (e : Nat) (host : Bool) (ks : List Nat) : (d.addBefore e host ks).idleSince = d.idleSince := by
  unfold Dev.addBefore; split <;> rfl
@[simp] theorem addBefore_trace (d : Dev) (e : Nat) (host : Bool) (ks : List Nat) : (d.addBefore e host ks).trace = d.trace := by
  unfold Dev.addBefore; split <;> rfl
@[simp] theorem addBefore_traceCtl (d : Dev) (e : Nat) (host : Bool) (ks : List Nat) : (d.addBefore e host ks).traceCtl = d.traceCtl := by
  unfold Dev.addBefore; split <;> rfl
@[simp] theorem addBefore_armed (d : Dev) (e : Nat) (host : Bool) (ks : List Nat) : (d.addBefore e host ks).armed = d.armed := by
  unfold Dev.addBefore; split <;> rfl
@[simp] theorem addBefore_armedId (d : Dev) (e : Nat) (host : Bool) (ks : List Nat) : (d.addBefore e host ks).armedId = d.armedId := by
  unfold Dev.addBefore; split <;> rfl
@[simp] theorem addBefore_freeSeq (d : Dev) (e : Nat) (host : Bool) (ks : List Nat) : (d.addBefore e host ks).freeSeq = d.freeSeq := by
  unfold Dev.addBefore; split <;> rfl
@[simp] theorem addBefore_created (d : Dev) (e : Nat) (host : Bool) (ks : List Nat) : (d.addBefore e host ks).created = d.created := by
  unfold Dev.addBefore; split <;> rfl
@[simp] theorem addBefore_powered (d : Dev) (e : Nat) (host : Bool) (ks : List Nat) : (d.addBefore e host ks).powered = d.powered := by
  unfold Dev.addBefore; split <;> rfl
@[simp] theorem addBefore_mark (d : Dev) (e : Nat) (host : Bool) (ks : List Nat) : (d.addBefore e host ks).mark = d.mark := by
  unfold Dev.addBefore; split <;> rfl
@[simp] theorem addBefore_stuck (d : Dev) (e : Nat) (host : Bool) (ks : List Nat) : (d.addBefore e host ks).stuck = d.stuck := by
  unfold Dev.addBefore; split <;> rfl
@[simp] theorem addBefore_drains (d : Dev) (e : Nat) (host : Bool) (ks : List Nat) : (d.addBefore e host ks).drains = d.drains := by
  unfold Dev.addBefore; split <;> rfl
@[simp] theorem addBefore_framed (d : Dev) (e : Nat) (host : Bool) (ks : List Nat) : (d.addBefore e host ks).framed = d.framed := by
  unfold Dev.addBefore; split <;> rfl
@[simp] theorem addBefore_past (d : Dev) (e : Nat) (host : Bool) (ks : List Nat) : (d.addBefore e host ks).past = d.past := by
  unfold Dev.addBefore; split <;> rfl
@[simp] theorem addBefore_clock (d : Dev) (e : Nat) (host : Bool) (ks : List Nat) : (d.addBefore e host ks).clock = d.clock := by
  unfold Dev.addBefore; split <;> rfl
@[simp] theorem addBefore_agreed (d : Dev) (e : Nat) (host : Bool) (ks : List Nat) : (d.addBefore e host ks).agreed = d.agreed := by
  unfold Dev.addBefore; split <;> rfl
@[simp] theorem addBefore_scs (d : Dev) (e : Nat) (host : Bool) (ks : List Nat) : (d.addBefore e host ks).scs = d.scs := by
  unfold Dev.addBefore; split <;> rfl
@[simp] theorem addBefore_hostKnow (d : Dev) (e : Nat) (host : Bool) (ks : List Nat) : (d.addBefore e host ks).hostKnow = d.hostKnow := by
  unfold Dev.addBefore; split <;> rfl
@[simp] theorem settleBytes_mem (d : Dev) (gone : Nat → Place → Bool) : (d.settleBytes gone).mem = d.mem := rfl
@[simp] theorem settleBytes_nextId (d : Dev) (gone : Nat → Place → Bool) : (d.settleBytes gone).nextId = d.nextId := rfl
@[simp] theorem settleBytes_fibres (d : Dev) (gone : Nat → Place → Bool) : (d.settleBytes gone).fibres = d.fibres := rfl
@[simp] theorem settleBytes_groups (d : Dev) (gone : Nat → Place → Bool) : (d.settleBytes gone).groups = d.groups := rfl
@[simp] theorem settleBytes_teams (d : Dev) (gone : Nat → Place → Bool) : (d.settleBytes gone).teams = d.teams := rfl
@[simp] theorem settleBytes_flights (d : Dev) (gone : Nat → Place → Bool) : (d.settleBytes gone).flights = d.flights := rfl
@[simp] theorem settleBytes_holds (d : Dev) (gone : Nat → Place → Bool) : (d.settleBytes gone).holds = d.holds := rfl
@[simp] theorem settleBytes_waiters (d : Dev) (gone : Nat → Place → Bool) : (d.settleBytes gone).waiters = d.waiters := rfl
@[simp] theorem settleBytes_tlb (d : Dev) (gone : Nat → Place → Bool) : (d.settleBytes gone).tlb = d.tlb := rfl
@[simp] theorem settleBytes_zeroings (d : Dev) (gone : Nat → Place → Bool) : (d.settleBytes gone).zeroings = d.zeroings := rfl
@[simp] theorem settleBytes_uo (d : Dev) (gone : Nat → Place → Bool) : (d.settleBytes gone).uo = d.uo := rfl
@[simp] theorem settleBytes_notes (d : Dev) (gone : Nat → Place → Bool) : (d.settleBytes gone).notes = d.notes := rfl
@[simp] theorem settleBytes_cmds (d : Dev) (gone : Nat → Place → Bool) : (d.settleBytes gone).cmds = d.cmds := rfl
@[simp] theorem settleBytes_builds (d : Dev) (gone : Nat → Place → Bool) : (d.settleBytes gone).builds = d.builds := rfl
@[simp] theorem settleBytes_residents (d : Dev) (gone : Nat → Place → Bool) : (d.settleBytes gone).residents = d.residents := rfl
@[simp] theorem settleBytes_loads (d : Dev) (gone : Nat → Place → Bool) : (d.settleBytes gone).loads = d.loads := rfl
@[simp] theorem settleBytes_ctxs (d : Dev) (gone : Nat → Place → Bool) : (d.settleBytes gone).ctxs = d.ctxs := rfl
@[simp] theorem settleBytes_grids (d : Dev) (gone : Nat → Place → Bool) : (d.settleBytes gone).grids = d.grids := rfl
@[simp] theorem settleBytes_bins (d : Dev) (gone : Nat → Place → Bool) : (d.settleBytes gone).bins = d.bins := rfl
@[simp] theorem settleBytes_waves (d : Dev) (gone : Nat → Place → Bool) : (d.settleBytes gone).waves = d.waves := rfl
@[simp] theorem settleBytes_trees (d : Dev) (gone : Nat → Place → Bool) : (d.settleBytes gone).trees = d.trees := rfl
@[simp] theorem settleBytes_vertices (d : Dev) (gone : Nat → Place → Bool) : (d.settleBytes gone).vertices = d.vertices := rfl
@[simp] theorem settleBytes_slotGens (d : Dev) (gone : Nat → Place → Bool) : (d.settleBytes gone).slotGens = d.slotGens := rfl
@[simp] theorem settleBytes_ages (d : Dev) (gone : Nat → Place → Bool) : (d.settleBytes gone).ages = d.ages := rfl
@[simp] theorem settleBytes_turns (d : Dev) (gone : Nat → Place → Bool) : (d.settleBytes gone).turns = d.turns := rfl
@[simp] theorem settleBytes_ports (d : Dev) (gone : Nat → Place → Bool) : (d.settleBytes gone).ports = d.ports := rfl
@[simp] theorem settleBytes_served (d : Dev) (gone : Nat → Place → Bool) : (d.settleBytes gone).served = d.served := rfl
@[simp] theorem settleBytes_order (d : Dev) (gone : Nat → Place → Bool) : (d.settleBytes gone).order = d.order := rfl
@[simp] theorem settleBytes_regions (d : Dev) (gone : Nat → Place → Bool) : (d.settleBytes gone).regions = d.regions := rfl
@[simp] theorem settleBytes_retiredCores (d : Dev) (gone : Nat → Place → Bool) : (d.settleBytes gone).retiredCores = d.retiredCores := rfl
@[simp] theorem settleBytes_retiredWays (d : Dev) (gone : Nat → Place → Bool) : (d.settleBytes gone).retiredWays = d.retiredWays := rfl
@[simp] theorem settleBytes_gated (d : Dev) (gone : Nat → Place → Bool) : (d.settleBytes gone).gated = d.gated := rfl
@[simp] theorem settleBytes_idleSince (d : Dev) (gone : Nat → Place → Bool) : (d.settleBytes gone).idleSince = d.idleSince := rfl
@[simp] theorem settleBytes_trace (d : Dev) (gone : Nat → Place → Bool) : (d.settleBytes gone).trace = d.trace := rfl
@[simp] theorem settleBytes_traceCtl (d : Dev) (gone : Nat → Place → Bool) : (d.settleBytes gone).traceCtl = d.traceCtl := rfl
@[simp] theorem settleBytes_armed (d : Dev) (gone : Nat → Place → Bool) : (d.settleBytes gone).armed = d.armed := rfl
@[simp] theorem settleBytes_armedId (d : Dev) (gone : Nat → Place → Bool) : (d.settleBytes gone).armedId = d.armedId := rfl
@[simp] theorem settleBytes_freeSeq (d : Dev) (gone : Nat → Place → Bool) : (d.settleBytes gone).freeSeq = d.freeSeq := rfl
@[simp] theorem settleBytes_created (d : Dev) (gone : Nat → Place → Bool) : (d.settleBytes gone).created = d.created := rfl
@[simp] theorem settleBytes_powered (d : Dev) (gone : Nat → Place → Bool) : (d.settleBytes gone).powered = d.powered := rfl
@[simp] theorem settleBytes_mark (d : Dev) (gone : Nat → Place → Bool) : (d.settleBytes gone).mark = d.mark := rfl
@[simp] theorem settleBytes_stuck (d : Dev) (gone : Nat → Place → Bool) : (d.settleBytes gone).stuck = d.stuck := rfl
@[simp] theorem settleBytes_drains (d : Dev) (gone : Nat → Place → Bool) : (d.settleBytes gone).drains = d.drains := rfl
@[simp] theorem settleBytes_framed (d : Dev) (gone : Nat → Place → Bool) : (d.settleBytes gone).framed = d.framed := rfl
@[simp] theorem settleBytes_clock (d : Dev) (gone : Nat → Place → Bool) : (d.settleBytes gone).clock = d.clock := rfl
@[simp] theorem settleBytes_agreed (d : Dev) (gone : Nat → Place → Bool) : (d.settleBytes gone).agreed = d.agreed := rfl
@[simp] theorem settleBytes_scs (d : Dev) (gone : Nat → Place → Bool) : (d.settleBytes gone).scs = d.scs := rfl
@[simp] theorem settleBytes_hostKnow (d : Dev) (gone : Nat → Place → Bool) : (d.settleBytes gone).hostKnow = d.hostKnow := rfl
@[simp] theorem settleBytes_before (d : Dev) (gone : Nat → Place → Bool) : (d.settleBytes gone).before = d.before := rfl

end Sys2Proof.Machine
end

