-- ==== Sys2Proof/Laws/Lanes.lean ====
section
/-!
SUPPORT. Lane masks: which lanes a mask built from a list or a test holds, and what the active lanes of an issue are.
-/

namespace Sys2Proof.Machine

theorem getLsbD_one_shiftLeft (l i : Nat) : (1#64 <<< l).getLsbD i = decide (i = l ∧ i < 64) := by
  simp only [BitVec.getLsbD_shiftLeft, BitVec.getLsbD_one]
  by_cases h1 : i < 64 <;> by_cases h2 : i < l <;> simp [h1, h2] <;> omega

theorem has_foldl_or (ls : List Nat) (m : LaneMask) (i : Nat) :
    (ls.foldl (fun m l => m ||| (1#64 <<< l)) m).getLsbD i = (m.getLsbD i || decide (i ∈ ls ∧ i < 64)) := by
  induction ls generalizing m with
  | nil => simp
  | cons l ls ih =>
    rw [List.foldl_cons, ih, BitVec.getLsbD_or, getLsbD_one_shiftLeft]
    by_cases h' : i < 64
    · by_cases h : i = l <;> simp [h, h']
      exact fun _ _ => .inr (h ▸ h')
    · simp [h']

/-- A lane of the mask of a list. -/
@[simp] theorem has_ofLanes (ls : List Nat) (i : Nat) : (LaneMask.ofLanes ls).has i = decide (i ∈ ls ∧ i < 64) := by
  simp [LaneMask.has, LaneMask.ofLanes, has_foldl_or]

/-- A lane of the mask of a test. -/
@[simp] theorem has_lanesWhere (p : Nat → Bool) (i : Nat) : (lanesWhere p).has i = (decide (i < 64) && p i) := by
  simp only [lanesWhere, has_ofLanes, List.mem_filter, List.mem_range]
  by_cases h : i < 64 <;> simp [h]

/-- The lanes of a mask are below 64. -/
theorem lt_of_has {m : LaneMask} {L : Nat} (h : m.has L = true) : L < 64 := by
  by_contra hc
  simp [LaneMask.has, BitVec.getLsbD_of_ge _ _ (Nat.le_of_not_lt hc)] at h

/-- The list of a mask's lanes. -/
theorem mem_lanes {m : LaneMask} {L : Nat} : L ∈ m.lanes ↔ m.has L = true := by
  simp only [LaneMask.lanes, List.mem_filter, List.mem_range, LaneMask.has]
  exact ⟨fun h => h.2, fun h => ⟨lt_of_has h, h⟩⟩

/-- The intersection of two masks. -/
@[simp] theorem has_and (m n : LaneMask) (i : Nat) : LaneMask.has (m &&& n) i = (m.has i && n.has i) := by
  simp [LaneMask.has]

/-- The live lanes of a fibre hold live threads within its width. -/
theorem has_live {f : Fibre} {L : Nat} (h : f.live.has L = true) : L < f.width ∧ (f.thread L).life = .live := by
  simp only [Fibre.live, has_lanesWhere, Bool.and_eq_true, decide_eq_true_eq, Fibre.liveLane, beq_iff_eq] at h
  exact h.2

end Sys2Proof.Machine
end

