-- ==== Sys2Proof/Laws/Issue.lean ====
section
/-!
SUPPORT. The issue of an instruction: what finding, replacing and beginning leave, the answer of `issueWith` for an instruction that comes
to its effect, and what reading a register or operand sees after the issue has begun.
-/

namespace Sys2Proof.Machine

/-! ### Finding and replacing -/

theorem find_map_setFib (fs : List Fibre) (g : Fibre) (u : Nat) :
    (fs.map fun k => if k.uid == g.uid then g else k).find? (fun k => k.uid == u) =
      if u = g.uid then (fs.find? fun k => k.uid == u).map fun _ => g else fs.find? fun k => k.uid == u := by
  induction fs with
  | nil => simp
  | cons k ks ih =>
    rw [List.map_cons, List.find?_cons, ih, List.find?_cons]
    by_cases hk : k.uid = g.uid <;> by_cases hu : u = g.uid
    · simp [hk, hu]
    · have h1 : (g.uid == u) = false := by simpa using fun e => hu e.symm
      simp [hk, h1, hu]
    · have h1 : (k.uid == u) = false := by simpa [hu] using hk
      rw [hu] at h1 ⊢
      rw [if_neg (by simpa using hk), h1]
    · simp only [beq_iff_eq, hk, if_false, hu]

/-- Looking a fibre up after a fibre has been replaced. -/
theorem fibre?_setFibre (d : Dev) (g : Fibre) (u : Nat) :
    (d.setFibre g).fibre? u = if u = g.uid then (d.fibre? u).map fun _ => g else d.fibre? u :=
  find_map_setFib d.fibres g u

/-- A replaced fibre is found where there was one. -/
theorem fibre?_setFibre_self {d : Dev} {g f : Fibre} (h : d.fibre? g.uid = some f) : (d.setFibre g).fibre? g.uid = some g := by
  simp [fibre?_setFibre, h]

/-- Other fibres are found as before. -/
theorem fibre?_setFibre_other {d : Dev} {g : Fibre} {u : Nat} (h : u ≠ g.uid) : (d.setFibre g).fibre? u = d.fibre? u := by
  simp [fibre?_setFibre, h]

@[simp] theorem fibre?_emitTrace (d : Dev) (rs : List TraceRec) (u : Nat) : (emitTrace d rs).fibre? u = d.fibre? u := rfl
@[simp] theorem team?_emitTrace (d : Dev) (rs : List TraceRec) (u : Nat) : (emitTrace d rs).team? u = d.team? u := rfl
@[simp] theorem team?_setFibre (d : Dev) (f : Fibre) (u : Nat) : (d.setFibre f).team? u = d.team? u := rfl
@[simp] theorem group_setFibre (d : Dev) (f : Fibre) (u : Nat) : (d.setFibre f).group u = d.group u := rfl
@[simp] theorem ctx_setFibre (d : Dev) (f : Fibre) (c : Nat) : (d.setFibre f).ctx c = d.ctx c := rfl
@[simp] theorem group_emitTrace (d : Dev) (rs : List TraceRec) (u : Nat) : (emitTrace d rs).group u = d.group u := rfl
@[simp] theorem ctx_emitTrace (d : Dev) (rs : List TraceRec) (c : Nat) : (emitTrace d rs).ctx c = d.ctx c := rfl

/-! ### What an issue is -/

/-- What `issOf` says when it answers. -/
theorem issOf_eq {s : State} {h : Hdr} {x : Iss} (hx : issOf s h = some x) :
    x.s = s ∧ x.h = h ∧ s.cur = some x.c ∧ x.act = activeLanes x.f x.c h ∧
      (∃ u, s.dev.fibre? u = some x.f) ∧ s.dev.team? x.f.team = some x.t := by
  unfold issOf at hx
  split at hx
  · simp at hx
  · rename_i c hc
    split at hx
    · simp at hx
    · rename_i f hf
      split at hx
      · simp at hx
      · rename_i t ht
        cases hx
        exact ⟨rfl, rfl, hc, rfl, ⟨_, hf⟩, ht⟩

/-- A fibre is found by its own identity. -/
theorem fibre?_uid {d : Dev} {u : Nat} {f : Fibre} (h : d.fibre? u = some f) : d.fibre? f.uid = some f := by
  have := List.find?_some h
  simp only [beq_iff_eq] at this
  rw [this]; exact h

/-- A team is found by its own identity. -/
theorem team?_uid {d : Dev} {u : Nat} {t : Team} (h : d.team? u = some t) : d.team? t.uid = some t := by
  have := List.find?_some h
  simp only [beq_iff_eq] at this
  rw [this]; exact h

/-- What `issue?` says when it answers. -/
theorem issue?_eq {i : Instr} {s : State} {x : Iss} (hx : issue? i s = some x) :
    ∃ h, hdrOf i = some h ∧ issOf s h = some x ∧ waitsAtIssue s.dev x.f x.t x.c.lanes s.clk.cycle i = false ∧ precheck i x = none := by
  unfold issue? at hx
  split at hx
  · simp at hx
  · rename_i h hh
    split at hx
    · simp at hx
    · rename_i y hy
      split at hx
      · simp at hx
      · rename_i hc
        cases hx
        simp only [Bool.or_eq_true, not_or, Bool.not_eq_true, Option.isSome_eq_false_iff, Option.isNone_iff_eq_none] at hc
        exact ⟨h, hh, hy, hc.1, hc.2⟩

theorem issue?_s {i : Instr} {s : State} {x : Iss} (hx : issue? i s = some x) : x.s = s := by
  obtain ⟨h, -, hy, -⟩ := issue?_eq hx; exact (issOf_eq hy).1

theorem issue?_fibre {i : Instr} {s : State} {x : Iss} (hx : issue? i s = some x) : s.dev.fibre? x.f.uid = some x.f := by
  obtain ⟨h, -, hy, -⟩ := issue?_eq hx
  obtain ⟨-, -, -, -, ⟨u, hu⟩, -⟩ := issOf_eq hy
  exact fibre?_uid hu

theorem issue?_team {i : Instr} {s : State} {x : Iss} (hx : issue? i s = some x) : s.dev.team? x.t.uid = some x.t := by
  obtain ⟨h, -, hy, -⟩ := issue?_eq hx
  obtain ⟨-, -, -, -, -, ht⟩ := issOf_eq hy
  exact team?_uid ht

/-- THE ANSWER of an instruction that comes to its effect: what its body answers on the begun device. -/
theorem issueWith_answer {i : Instr} {h : Hdr} {k : Bool} {s : State} {x : Iss} {b : Body} {r : Res} (hh : hdrOf i = some h)
    (hx : issue? i s = some x) (hb : b x (prologue x (instrWords i) k) = some r) :
    issueWith i h k s b = .next (finish x r) := by
  obtain ⟨h', hh', hy, hw, hp⟩ := issue?_eq hx
  cases hh.symm.trans hh'
  simp [issueWith, hy, hw, hp, hb]

/-- An instruction whose body finishes answers the body's device. -/
theorem issueOn_answers {i : Instr} {h : Hdr} {s : State} {x : Iss} {b : Body} {d : Dev} (hh : hdrOf i = some h)
    (hx : issue? i s = some x) (hb : b x (begun i x) = some (.done d)) : issueOn i h s b = .next (s.withDev d) := by
  have := issueWith_answer (k := false) (b := b) hh hx hb
  rw [issueOn, this]
  simp [finish, issue?_s hx]

/-! ### The begun device -/

/-- The begun device: the issuing fibre advanced, the mark of a `tm` hint emitted. -/
theorem begun_eq (i : Instr) (x : Iss) : ∃ rs, begun i x = emitTrace (x.s.dev.setFibre (begunFib i x)) rs := by
  unfold begun prologue
  cases x.h.tm
  · exact ⟨[], by cases x.s; simp only [emitTrace, List.append_nil]; rfl⟩
  · exact ⟨_, rfl⟩

theorem begun_fibre? {i : Instr} {s : State} {x : Iss} (hx : issue? i s = some x) : (begun i x).fibre? x.f.uid = some (begunFib i x) := by
  have hf : x.s.dev.fibre? (begunFib i x).uid = some x.f := by rw [issue?_s hx]; exact issue?_fibre hx
  obtain ⟨rs, h⟩ := begun_eq i x
  rw [h]
  exact fibre?_setFibre_self hf

theorem fib_begun {i : Instr} {s : State} {x : Iss} (hx : issue? i s = some x) : x.fib (begun i x) = begunFib i x := by
  simp [Iss.fib, begun_fibre? hx]

theorem begun_team? (i : Instr) (x : Iss) (u : Nat) : (begun i x).team? u = x.s.dev.team? u := by
  obtain ⟨rs, h⟩ := begun_eq i x; rw [h]; rfl

theorem begun_group (i : Instr) (x : Iss) (u : Nat) : (begun i x).group u = x.s.dev.group u := by
  obtain ⟨rs, h⟩ := begun_eq i x; rw [h]; rfl

theorem begun_ctx (i : Instr) (x : Iss) (c : Nat) : (begun i x).ctx c = x.s.dev.ctx c := by
  obtain ⟨rs, h⟩ := begun_eq i x; rw [h]; rfl

theorem team_begun {i : Instr} {s : State} {x : Iss} (hx : issue? i s = some x) : x.team (begun i x) = x.t := by
  have := issue?_team hx
  simp [Iss.team, begun_team?, issue?_s hx, this]

/-- A lane's thread under a change that keeps what `p` reads of it. -/
theorem thread_mapThreads {α : Type} (f : Fibre) (g : Nat → Thread → Thread) (L : Nat) (p : Thread → α)
    (h : ∀ n t, p (g n t) = p t) : p ((f.mapThreads g).thread L) = p (f.thread L) := by
  simp only [Fibre.thread, Fibre.mapThreads, List.getD_eq_getElem?_getD, List.getElem?_mapIdx]
  cases f.threads[L]? <;> simp [h]

/-- Beginning an issue changes of a thread only its PC and its stall count. -/
theorem thread_begunFib {α : Type} (i : Instr) (x : Iss) (L : Nat) (p : Thread → α)
    (h : ∀ t pc st sp', p { t with pc := pc, stallTo := st, stallPc := sp' } = p t) :
    p ((begunFib i x).thread L) = p (x.f.thread L) := by
  have : p ((begunFib i x).thread L) = p ((releaseLatch x.c x.f).thread L) := by
    unfold begunFib advance Fibre.onLanes
    apply thread_mapThreads
    intro n t; split
    · exact h _ _ _ _
    · rfl
  simpa [Fibre.thread, releaseLatch] using this

/-! ### The fields of the begun fibre -/

@[simp] theorem begunFib_uid (i : Instr) (x : Iss) : (begunFib i x).uid = x.f.uid := rfl
@[simp] theorem begunFib_team (i : Instr) (x : Iss) : (begunFib i x).team = x.f.team := rfl
@[simp] theorem begunFib_ctx (i : Instr) (x : Iss) : (begunFib i x).ctx = x.f.ctx := rfl
@[simp] theorem begunFib_core (i : Instr) (x : Iss) : (begunFib i x).core = x.f.core := rfl
@[simp] theorem begunFib_quad (i : Instr) (x : Iss) : (begunFib i x).quad = x.f.quad := rfl
@[simp] theorem begunFib_slot (i : Instr) (x : Iss) : (begunFib i x).slot = x.f.slot := rfl
@[simp] theorem begunFib_pos (i : Instr) (x : Iss) : (begunFib i x).pos = x.f.pos := rfl
@[simp] theorem begunFib_block (i : Instr) (x : Iss) : (begunFib i x).block = x.f.block := rfl
@[simp] theorem begunFib_width (i : Instr) (x : Iss) : (begunFib i x).width = x.f.width := rfl
@[simp] theorem begunFib_helper (i : Instr) (x : Iss) : (begunFib i x).helper = x.f.helper := rfl
@[simp] theorem begunFib_grp (i : Instr) (x : Iss) : (begunFib i x).grp = x.f.grp := rfl
@[simp] theorem begunFib_nPriv (i : Instr) (x : Iss) : (begunFib i x).nPriv = x.f.nPriv := rfl
@[simp] theorem begunFib_nWin (i : Instr) (x : Iss) : (begunFib i x).nWin = x.f.nWin := rfl
@[simp] theorem begunFib_nAlloc (i : Instr) (x : Iss) : (begunFib i x).nAlloc = x.f.nAlloc := rfl
@[simp] theorem begunFib_regs (i : Instr) (x : Iss) : (begunFib i x).regs = x.f.regs := rfl
@[simp] theorem begunFib_pendW (i : Instr) (x : Iss) : (begunFib i x).pendW = x.f.pendW := rfl
@[simp] theorem begunFib_pendP (i : Instr) (x : Iss) : (begunFib i x).pendP = x.f.pendP := rfl
@[simp] theorem begunFib_fflags (i : Instr) (x : Iss) : (begunFib i x).fflags = x.f.fflags := rfl
@[simp] theorem begunFib_stklim (i : Instr) (x : Iss) : (begunFib i x).stklim = x.f.stklim := rfl
@[simp] theorem begunFib_chk (i : Instr) (x : Iss) : (begunFib i x).chk = x.f.chk := rfl
@[simp] theorem begunFib_agelimit (i : Instr) (x : Iss) : (begunFib i x).agelimit = x.f.agelimit := rfl
@[simp] theorem begunFib_frozen (i : Instr) (x : Iss) : (begunFib i x).frozen = x.f.frozen := rfl
@[simp] theorem begunFib_streams (i : Instr) (x : Iss) : (begunFib i x).streams = x.f.streams := rfl
@[simp] theorem begunFib_theta (i : Instr) (x : Iss) : (begunFib i x).theta = x.f.theta := rfl
@[simp] theorem begunFib_eps (i : Instr) (x : Iss) : (begunFib i x).eps = x.f.eps := rfl
@[simp] theorem begunFib_maxDepth (i : Instr) (x : Iss) : (begunFib i x).maxDepth = x.f.maxDepth := rfl
@[simp] theorem begunFib_dot (i : Instr) (x : Iss) : (begunFib i x).dot = x.f.dot := rfl
@[simp] theorem begunFib_readyAt (i : Instr) (x : Iss) : (begunFib i x).readyAt = x.f.readyAt := rfl

/-! ### Reading on the begun device is reading before it -/

theorem regOf_begun (i : Instr) (x : Iss) (r : Nat) : regOf (begun i x) (begunFib i x) r = regOf x.s.dev x.f r := by
  simp only [regOf, begun_group, Fibre.isWindow, begunFib_nPriv, begunFib_nWin, begunFib_grp, begunFib_regs]
  rfl

theorem laneVal_begun (i : Instr) (x : Iss) (v : VReg) (L : Nat) : laneVal (begunFib i x) v L = laneVal x.f v L := by
  cases v <;> simp [laneVal, thread_begunFib i x L Thread.life (fun _ _ _ _ => rfl)]

theorem regLane_begun (i : Instr) (x : Iss) (r L : Nat) : regLane (begun i x) (begunFib i x) r L = regLane x.s.dev x.f r L := by
  simp [regLane, regOf_begun, laneVal_begun]

theorem predLane_begun (i : Instr) (x : Iss) (p L : Nat) : predLane (begunFib i x) p L = predLane x.f p L := by
  simp [predLane, thread_begunFib i x L Thread.preds (fun _ _ _ _ => rfl)]

theorem srcReg_begun (i : Instr) (x : Iss) (r : RegOp) (t : NTy) (L : Nat) :
    srcReg (begun i x) (begunFib i x) r t L = srcReg x.s.dev x.f r t L := by
  simp only [srcReg, regLane_begun, begunFib_width]

theorem sregLane_begun (i : Instr) (x : Iss) (tm : Team) (n : SReg) (L : Nat) :
    sregLane (begun i x) (begunFib i x) tm n L = sregLane x.s.dev x.f tm n L := by
  cases n <;> simp only [sregLane, begun_ctx, thread_begunFib i x _ Thread.logical (fun _ _ _ _ => rfl),
    thread_begunFib i x _ Thread.psig (fun _ _ _ _ => rfl), begunFib_width, begunFib_pos, begunFib_core, begunFib_agelimit, begunFib_chk,
    begunFib_ctx, begunFib_stklim]
  rfl

theorem srcVal_begun (i : Instr) (x : Iss) (tm : Team) (t : NTy) (L : Nat) (a : Src) :
    srcVal (begun i x) (begunFib i x) tm t L a = srcVal x.s.dev x.f tm t L a := by
  cases a <;> simp [srcVal, srcReg_begun, sregLane_begun]

theorem fsrcVal_begun (i : Instr) (x : Iss) (t : FTy) (L : Nat) (a : FSrc) :
    fsrcVal (begun i x) (begunFib i x) t L a = fsrcVal x.s.dev x.f t L a := by
  cases a <;> simp [fsrcVal, srcReg_begun]

theorem srcShape_begun (i : Instr) (x : Iss) (t : NTy) (a : Src) :
    srcShape (begun i x) (begunFib i x) t a = srcShape x.s.dev x.f t a := by
  cases a with
  | reg r => simp [srcShape, regOf_begun]
  | imm v => rfl
  | sr n => cases n <;> simp [srcShape, thread_begunFib i x _ Thread.logical (fun _ _ _ _ => rfl)]

theorem fsrcShape_begun (i : Instr) (x : Iss) (t : FTy) (a : FSrc) :
    fsrcShape (begun i x) (begunFib i x) t a = fsrcShape x.s.dev x.f t a := by
  cases a <;> simp [fsrcShape, regOf_begun]

theorem plainShape_begun (i : Instr) (x : Iss) (r : Nat) : plainShape (begun i x) (begunFib i x) r = plainShape x.s.dev x.f r := by
  simp [plainShape, regOf_begun]

/-! ### Bodies that put one result -/

/-- The result of a body that writes one vector register. -/
theorem vecBody_lands {i : Instr} {h : Hdr} {s : State} {x : Iss} {d : Reg} {lat : Nat} {sh : Iss → Dev → Sh}
    {val : Iss → Dev → Nat → Word × Word} (hh : hdrOf i = some h) (hx : issue? i s = some x)
    (he : exec i s = issueOn i h s (vecBody d lat sh val)) :
    Lands i s x d.toNat lat (outReg x (sh x (begun i x)) fun L => (val x (begun i x) L).1)
      (laneFlags x fun L => (val x (begun i x) L).2) := by
  unfold Lands Answers
  rw [he]
  apply issueOn_answers hh hx
  simp [vecBody, putVec, fib_begun hx]

/-- The result of a body that writes one predicate. -/
theorem predBody_lands {i : Instr} {h : Hdr} {s : State} {x : Iss} {p : PredIdx} {lat : Nat}
    {val : Iss → Dev → Nat → Bool × Word} (hh : hdrOf i = some h) (hx : issue? i s = some x)
    (he : exec i s = issueOn i h s (predBody p lat val)) :
    LandsP i s x p.toNat lat (fun L => (val x (begun i x) L).1) (laneFlags x fun L => (val x (begun i x) L).2) := by
  unfold LandsP Answers
  rw [he]
  apply issueOn_answers hh hx
  simp [predBody, fib_begun hx]

/-- An active lane holds a live thread within the fibre's width (R44). -/
theorem active_live {i : Instr} {s : State} {x : Iss} (hx : issue? i s = some x) {L : Nat} (hL : x.act.has L = true) :
    L < x.f.width ∧ (x.f.thread L).life = .live := by
  obtain ⟨h, -, hy, -⟩ := issue?_eq hx
  rw [(issOf_eq hy).2.2.2.1] at hL
  simp only [activeLanes, has_lanesWhere, Bool.and_eq_true, decide_eq_true_eq, Fibre.liveLane, beq_iff_eq] at hL
  exact ⟨hL.2.1.1.2, hL.2.1.2⟩

/-- A G result gives every active lane its value. -/
theorem laneVal_outReg_g {i : Instr} {s : State} {x : Iss} (hx : issue? i s = some x) (val : Nat → Word) {L : Nat}
    (hL : x.act.has L = true) : laneVal x.f (outReg x .g val) L = val L := by
  obtain ⟨hw, hl⟩ := active_live hx hL
  simp [laneVal, outReg, hl, hw, hL]

/-- A U result gives every active lane its value when the value is the same in all of them. -/
theorem laneVal_outReg_u {x : Iss} (val : Nat → Word) (hu : ∀ L M, x.act.has L = true → x.act.has M = true → val L = val M) {L : Nat}
    (hL : x.act.has L = true) : laneVal x.f (outReg x .u val) L = val L := by
  have hm : L ∈ x.act.lanes := mem_lanes.2 hL
  cases hl : x.act.lanes with
  | nil => rw [hl] at hm; simp at hm
  | cons M ms =>
    have hM : x.act.has M = true := mem_lanes.1 (by rw [hl]; simp)
    simp [laneVal, outReg, lowestLane, hl, hu L M hL hM]

/-! ### Bodies that act only with an active lane (R44) -/

/-- With no active lane such a body changes nothing more. -/
theorem idle_answers {i : Instr} {h : Hdr} {s : State} {x : Iss} {b : Body} (hh : hdrOf i = some h) (hx : issue? i s = some x)
    (he : exec i s = issueOn i h s (ifActive b)) (ha : x.act = 0) : Answers i s (begun i x) := by
  unfold Answers
  rw [he]
  exact issueOn_answers hh hx (if_pos ha)

/-- With an active lane it answers what it does. -/
theorem active_answers {i : Instr} {h : Hdr} {s : State} {x : Iss} {b : Body} {d : Dev} (hh : hdrOf i = some h)
    (hx : issue? i s = some x) (he : exec i s = issueOn i h s (ifActive b)) (ha : x.act ≠ 0)
    (hb : b x (begun i x) = some (.done d)) : Answers i s d := by
  unfold Answers
  rw [he]
  exact issueOn_answers hh hx ((if_neg ha).trans hb)

/-- Both cases in one. -/
theorem guarded_answers {i : Instr} {h : Hdr} {s : State} {x : Iss} {b : Body} {d : Dev} (hh : hdrOf i = some h)
    (hx : issue? i s = some x) (he : exec i s = issueOn i h s (ifActive b)) (hb : b x (begun i x) = some (.done d)) :
    Answers i s (if x.act = 0 then begun i x else d) := by
  split
  · exact idle_answers hh hx he ‹_›
  · exact active_answers hh hx he ‹_› hb

/-- A fault its body finds is taken. -/
theorem active_traps {i : Instr} {h : Hdr} {s : State} {x : Iss} {b : Body} {d : Dev} {e : FaultInfo} (hh : hdrOf i = some h)
    (hx : issue? i s = some x) (he : exec i s = issueOn i h s (ifActive b)) (ha : x.act ≠ 0)
    (hb : b x (begun i x) = some (.trap d e)) : exec i s = .next (finish x (.trap d e)) := by
  rw [he]
  exact issueWith_answer hh hx ((if_neg ha).trans hb)

end Sys2Proof.Machine
end

