-- ==== Sys2Proof/Laws/Memory.lean ====
section
/-!
SUPPORT. Byte memories: a read after a write, and the canonical form that every memory operation keeps.
-/

namespace Sys2Proof.Machine

/-! ### Reading after writing -/

theorem memRead_memInsert (m : List Host.Cell) (a : Nat) (v : Byte) (b : Nat) (h : ∀ c, c ∈ m → c.1 ≠ a) :
    memRead (memInsert m a v) b = if b = a then v else memRead m b := by
  induction m with
  | nil => simp [memInsert, memRead, eq_comm]
  | cons c m ih =>
    obtain ⟨k, w⟩ := c
    have hk : k ≠ a := h (k, w) (by simp)
    have ih := ih fun c hc => h c (by simp [hc])
    by_cases ha : a < k
    · simp only [memInsert, if_pos ha, memRead, eq_comm]
    · simp only [memInsert, if_neg ha, memRead, ih]
      by_cases hb : k = b
      · subst hb; simp [hk]
      · simp [hb]

theorem memRead_filter_ne (m : List Host.Cell) (a b : Nat) :
    memRead (m.filter fun c => c.1 != a) b = if b = a then 0 else memRead m b := by
  induction m with
  | nil => simp [memRead]
  | cons c m ih =>
    obtain ⟨k, w⟩ := c
    by_cases hk : k = a
    · subst hk
      by_cases hb : b = k
      · subst hb; simpa using ih
      · have : k ≠ b := fun h => hb h.symm
        simpa [memRead, hb, this] using ih
    · by_cases hb : k = b
      · subst hb; simp [memRead, hk]
      · simp [memRead, hk, hb, ih]

/-- READ AFTER WRITE: the written byte, and every other byte as before. -/
theorem memRead_memWrite (m : List Host.Cell) (a : Nat) (v : Byte) (b : Nat) :
    memRead (memWrite m a v) b = if b = a then v else memRead m b := by
  unfold memWrite
  by_cases hv : v = 0
  · simp [hv, memRead_filter_ne]
  · rw [if_neg hv, memRead_memInsert _ _ _ _ (by simp)]
    by_cases hb : b = a <;> simp [hb, memRead_filter_ne]

/-- Reading after a run of bytes has been written. -/
theorem memRead_memPut (m : List Host.Cell) (a : Nat) (bs : List Byte) (b : Nat) :
    memRead (memPut m a bs) b = if a ≤ b ∧ b < a + bs.length then bs.getD (b - a) 0 else memRead m b := by
  induction bs generalizing m a with
  | nil => simp [memPut]
  | cons v bs ih =>
    rw [memPut, ih, memRead_memWrite]
    by_cases h1 : a + 1 ≤ b ∧ b < a + 1 + bs.length
    · have h2 : a ≤ b ∧ b < a + (v :: bs).length := by simp; omega
      obtain ⟨n, rfl⟩ : ∃ n, b = a + 1 + n := ⟨b - (a + 1), by omega⟩
      rw [if_pos h1, if_pos h2]
      have e1 : a + 1 + n - (a + 1) = n := by omega
      have e2 : a + 1 + n - a = n + 1 := by omega
      rw [e1, e2, List.getD_cons_succ]
    · rw [if_neg h1]
      by_cases hb : b = a
      · subst hb; simp
      · have h2 : ¬(a ≤ b ∧ b < a + (v :: bs).length) := by simp; omega
        rw [if_neg hb, if_neg h2]

theorem length_memBytes (m : List Host.Cell) (a n : Nat) : (memBytes m a n).length = n := by
  induction n generalizing a with
  | zero => rfl
  | succ n ih => simp [memBytes, ih]

/-- A byte of a run that is read. -/
theorem getD_memBytes (m : List Host.Cell) (a n k : Nat) (h : k < n) : (memBytes m a n).getD k 0 = memRead m (a + k) := by
  induction n generalizing a k with
  | zero => omega
  | succ n ih =>
    cases k with
    | zero => simp [memBytes]
    | succ k => simp only [memBytes, List.getD_cons_succ]; rw [ih _ _ (by omega)]; congr 1; omega

/-- A run of bytes read back after it has been written. -/
theorem memBytes_memPut (m : List Host.Cell) (a : Nat) (bs : List Byte) : memBytes (memPut m a bs) a bs.length = bs := by
  apply List.ext_getElem (length_memBytes _ _ _)
  intro k h1 h2
  have h := getD_memBytes (memPut m a bs) a bs.length k h2
  rw [memRead_memPut, if_pos (by omega)] at h
  have e : a + k - a = k := by omega
  simpa [List.getD_eq_getElem?_getD, h1, h2, e] using h

/-! ### The canonical form -/

theorem wfFrom_iff (lo : Nat) (m : List Host.Cell) :
    Memory.wfFrom lo m = true ↔ (m.map Prod.fst).Pairwise (· < ·) ∧ ∀ c, c ∈ m → lo ≤ c.1 ∧ c.2 ≠ 0 := by
  induction m generalizing lo with
  | nil => simp [Memory.wfFrom]
  | cons c m ih =>
    obtain ⟨k, v⟩ := c
    simp only [Memory.wfFrom, Bool.and_eq_true, decide_eq_true_eq, bne_iff_ne, ih, List.map_cons, List.pairwise_cons, List.mem_cons,
      List.mem_map]
    constructor
    · rintro ⟨⟨h1, h2⟩, h3, h4⟩
      refine ⟨⟨?_, h3⟩, ?_⟩
      · rintro _ ⟨c, hc, rfl⟩; have := (h4 c hc).1; omega
      · rintro c (rfl | hc)
        · exact ⟨h1, h2⟩
        · have := h4 c hc; exact ⟨by omega, this.2⟩
    · rintro ⟨⟨h1, h3⟩, h4⟩
      refine ⟨⟨(h4 (k, v) (.inl rfl)).1, (h4 (k, v) (.inl rfl)).2⟩, h3, fun c hc => ⟨?_, (h4 c (.inr hc)).2⟩⟩
      have := h1 c.1 ⟨c, hc, rfl⟩; omega

/-- The canonical form: rising addresses, no zero byte listed. -/
theorem wf_iff (m : List Host.Cell) : Memory.wf m = true ↔ (m.map Prod.fst).Pairwise (· < ·) ∧ ∀ c, c ∈ m → c.2 ≠ 0 := by
  rw [Memory.wf, wfFrom_iff]; simp

theorem wf_nil : Memory.wf [] = true := rfl

/-- Dropping cells keeps the form. -/
theorem wf_filter {m : List Host.Cell} (p : Host.Cell → Bool) (h : Memory.wf m = true) : Memory.wf (m.filter p) = true := by
  rw [wf_iff] at h ⊢
  exact ⟨h.1.sublist ((List.filter_sublist (l := m)).map _), fun c hc => h.2 c (List.mem_of_mem_filter hc)⟩

theorem mem_memInsert {m : List Host.Cell} {a : Nat} {v : Byte} {c : Host.Cell} : c ∈ memInsert m a v ↔ c = (a, v) ∨ c ∈ m := by
  induction m with
  | nil => simp [memInsert]
  | cons d m ih =>
    obtain ⟨k, w⟩ := d
    by_cases h : a < k
    · simp [memInsert, h]
    · simp only [memInsert, if_neg h, List.mem_cons, ih]; tauto

/-- A cell put at an address that was not listed keeps the addresses rising. -/
theorem rising_memInsert {m : List Host.Cell} {a : Nat} {v : Byte} (h : (m.map Prod.fst).Pairwise (· < ·)) (ha : ∀ c, c ∈ m → c.1 ≠ a) :
    ((memInsert m a v).map Prod.fst).Pairwise (· < ·) := by
  induction m with
  | nil => simp [memInsert]
  | cons d m ih =>
    obtain ⟨k, w⟩ := d
    rw [List.map_cons, List.pairwise_cons] at h
    by_cases hk : a < k
    · simp only [memInsert, if_pos hk, List.map_cons, List.pairwise_cons]
      refine ⟨?_, h⟩
      intro n hn
      rcases List.mem_cons.1 hn with rfl | hn
      · exact hk
      · exact lt_trans hk (h.1 n hn)
    · have hne : k ≠ a := ha (k, w) (by simp)
      simp only [memInsert, if_neg hk, List.map_cons, List.pairwise_cons]
      refine ⟨?_, ih h.2 fun c hc => ha c (by simp [hc])⟩
      intro n hn
      obtain ⟨c, hc, rfl⟩ := List.mem_map.1 hn
      rcases mem_memInsert.1 hc with rfl | hc
      · simp; omega
      · exact h.1 _ (List.mem_map_of_mem hc)

/-- A write keeps the canonical form. -/
theorem wf_memWrite {m : List Host.Cell} (a : Nat) (v : Byte) (h : Memory.wf m = true) : Memory.wf (memWrite m a v) = true := by
  have hf := wf_filter (fun c => c.1 != a) h
  unfold memWrite
  by_cases hv : v = 0
  · simpa [hv] using hf
  · simp only [hv, if_false]
    rw [wf_iff] at hf ⊢
    refine ⟨rising_memInsert hf.1 (by simp), fun c hc => ?_⟩
    rcases mem_memInsert.1 hc with rfl | hc
    · exact hv
    · exact hf.2 c hc

/-- A run of writes keeps the canonical form. -/
theorem wf_memPut {m : List Host.Cell} (a : Nat) (bs : List Byte) (h : Memory.wf m = true) : Memory.wf (memPut m a bs) = true := by
  induction bs generalizing m a with
  | nil => exact h
  | cons v bs ih => exact ih _ (wf_memWrite a v h)

/-- Zeroing keeps the canonical form. -/
theorem wf_memZero {m : List Host.Cell} (a n : Nat) (h : Memory.wf m = true) : Memory.wf (memZero m a n) = true := wf_filter _ h

/-- Memories in canonical form that read alike are equal. -/
theorem eq_of_memRead {m n : List Host.Cell} (hm : Memory.wf m = true) (hn : Memory.wf n = true) (h : ∀ a, memRead m a = memRead n a) :
    m = n := by
  have key : ∀ {m : List Host.Cell} {a : Nat}, (∀ c, c ∈ m → a < c.1) → memRead m a = 0 := by
    intro m a
    induction m with
    | nil => simp [memRead]
    | cons c m ih =>
      intro h
      have h1 := h c (by simp)
      have : c.1 ≠ a := by omega
      simp [memRead, this, ih fun d hd => h d (by simp [hd])]
  induction m generalizing n with
  | nil =>
    cases n with
    | nil => rfl
    | cons c n =>
      rw [wf_iff] at hn
      exact absurd (by simpa [memRead] using (h c.1).symm) (hn.2 c (by simp))
  | cons c m ih =>
    rw [wf_iff, List.map_cons, List.pairwise_cons] at hm
    cases n with
    | nil => exact absurd (by simpa [memRead] using h c.1) (hm.2 c (by simp))
    | cons d n =>
      rw [wf_iff, List.map_cons, List.pairwise_cons] at hn
      have up1 : ∀ e, e ∈ m → c.1 < e.1 := fun e he => hm.1.1 _ (List.mem_map_of_mem he)
      have up2 : ∀ e, e ∈ n → d.1 < e.1 := fun e he => hn.1.1 _ (List.mem_map_of_mem he)
      have hcd : c.1 = d.1 := by
        rcases lt_trichotomy c.1 d.1 with hlt | heq | hgt
        · have h0 : memRead (d :: n) c.1 = 0 := key (by
            intro e he; rcases List.mem_cons.1 he with rfl | he
            · exact hlt
            · exact lt_trans hlt (up2 e he))
          have h1 := h c.1
          rw [h0] at h1
          exact absurd (by simpa [memRead] using h1) (hm.2 c (by simp))
        · exact heq
        · have h0 : memRead (c :: m) d.1 = 0 := key (by
            intro e he; rcases List.mem_cons.1 he with rfl | he
            · exact hgt
            · exact lt_trans hgt (up1 e he))
          have h1 := h d.1
          rw [h0] at h1
          exact absurd (by simpa [memRead] using h1.symm) (hn.2 d (by simp))
      have hv : c.2 = d.2 := by have := h c.1; simpa [memRead, hcd] using this
      have hcd' : c = d := Prod.ext hcd hv
      subst hcd'
      congr 1
      apply ih ((wf_iff _).2 ⟨hm.1.2, fun e he => hm.2 e (by simp [he])⟩) ((wf_iff _).2 ⟨hn.1.2, fun e he => hn.2 e (by simp [he])⟩)
      intro a
      by_cases ha : c.1 = a
      · subst ha; rw [key up1, key up2]
      · have := h a; simpa [memRead, ha] using this

/-- Memory at reset has the canonical form. -/
theorem wf_reset : Memory.wf State.reset.dev.mem = true := rfl

end Sys2Proof.Machine
end

