-- ==== Sys2Proof/Laws/Shapes.lean ====
section
/-!
SUPPORT. A shape never changes a value (R55, R76): a source that counts as U has one value in every lane, a source that counts as A has
its base plus the lane number times its stride, and a result keeps its lanes' values whatever shape it is given.
-/

namespace Sys2Proof.Machine

/-! ### Sub-elements -/

theorem ofSubs_sub (w : Nat) (xs : List Nat) (j : Nat) (hj : j < xs.length) : ofSubs w xs / 2 ^ (w * j) % 2 ^ w = xs.getD j 0 % 2 ^ w := by
  induction xs generalizing j with
  | nil => simp at hj
  | cons x xs ih =>
    cases j with
    | zero =>
      simp only [ofSubs, Nat.mul_zero, Nat.pow_zero, Nat.div_one, List.getD_cons_zero]
      rw [Nat.add_mul_mod_self_left, Nat.mod_mod]
    | succ j =>
      have hj' : j < xs.length := by simpa using hj
      rw [List.getD_cons_succ, ← ih j hj', ofSubs, Nat.mul_succ, Nat.add_comm (w * j) w, Nat.pow_add, ← Nat.div_div_eq_div_mul]
      congr 2
      have hx : x % 2 ^ w < 2 ^ w := Nat.mod_lt _ (by positivity)
      rw [Nat.add_mul_div_left _ _ (by positivity), Nat.div_eq_of_lt hx, Nat.zero_add]

theorem ofSubs_lt (w : Nat) (xs : List Nat) : ofSubs w xs < 2 ^ (w * xs.length) := by
  induction xs with
  | nil => simp [ofSubs]
  | cons x xs ih =>
    have hx : x % 2 ^ w < 2 ^ w := Nat.mod_lt _ (by positivity)
    have : 2 ^ (w * (x :: xs).length) = 2 ^ w * 2 ^ (w * xs.length) := by
      rw [List.length_cons, Nat.mul_succ, Nat.add_comm, Nat.pow_add]
    rw [this, ofSubs]
    calc x % 2 ^ w + 2 ^ w * ofSubs w xs < 2 ^ w + 2 ^ w * ofSubs w xs := by omega
      _ = 2 ^ w * (ofSubs w xs + 1) := by ring
      _ ≤ 2 ^ w * 2 ^ (w * xs.length) := Nat.mul_le_mul_left _ ih

/-- Sub-element `j` of a register built from sub-elements. -/
theorem sub_ofSubs {w : Nat} (xs : List Nat) {j : Nat} (hj : j < xs.length) (hw : w * xs.length ≤ 64) :
    sub (BitVec.ofNat 64 (ofSubs w xs)) w j = xs.getD j 0 % 2 ^ w := by
  have hlt : ofSubs w xs < 2 ^ 64 := lt_of_lt_of_le (ofSubs_lt w xs) (Nat.pow_le_pow_right (by decide) hw)
  rw [sub, BitVec.toNat_ofNat, Nat.mod_eq_of_lt hlt, ofSubs_sub w xs j hj]

/-- Sub-element `j` of a register built sub-element by sub-element. -/
theorem sub_ofSubs_map {w : Nat} (f : Nat → Nat) {j : Nat} (hj : j < 64 / w) :
    sub (BitVec.ofNat 64 (ofSubs w ((List.range (64 / w)).map f))) w j = f j % 2 ^ w := by
  rw [sub_ofSubs _ (by simpa using hj) (by simpa using Nat.mul_div_le 64 w)]
  simp [hj]

/-- Sub-element `j` of a sub-element operation's result. -/
theorem sub_subs3 {w : Nat} (g : Nat → Nat → Nat → Nat × Word) (a b d : Word) {j : Nat} (hj : j < 64 / w) :
    sub (subs3 w g a b d).1 w j = (g (sub a w j) (sub b w j) (sub d w j)).1 % 2 ^ w := by
  simp only [subs3, List.map_map, nsub]
  exact sub_ofSubs_map _ hj

/-! ### Sources that count as U or A -/

theorem regLane_of_u {d : Dev} {f : Fibre} {r : Nat} {y : Word} (h : regOf d f r = .u y) (L : Nat) : regLane d f r L = y := by
  simp [regLane, h, laneVal]

theorem srcReg_of_u {d : Dev} {f : Fibre} {r : RegOp} {t : NTy} (h : regShape (regOf d f r.idx.toNat) r t = .u) (L M : Nat) :
    srcReg d f r t L = srcReg d f r t M := by
  cases hv : regOf d f r.idx.toNat with
  | u y => simp [srcReg, regLane_of_u hv]
  | a b s =>
    rw [hv] at h
    cases hp : r.pat <;> simp [regShape, hp] at h
    · cases ha : r.abs <;> cases hn : r.neg <;> simp [ha, hn] at h
      split at h <;> simp at h
    · simp [srcReg, hp, patLane]
  | g vs =>
    rw [hv] at h
    cases hp : r.pat <;> simp [regShape, hp] at h
    simp [srcReg, hp, patLane]

/-- An integer source that counts as U has one value in every lane. -/
theorem srcVal_of_u {d : Dev} {f : Fibre} {tm : Team} {t : NTy} {a : Src} (h : (srcShape d f t a).isU = true) (L M : Nat) :
    srcVal d f tm t L a = srcVal d f tm t M a := by
  cases a with
  | reg r =>
    apply srcReg_of_u
    revert h; simp only [srcShape]; cases regShape (regOf d f r.idx.toNat) r t <;> simp [Sh.isU]
  | imm v => rfl
  | sr n => cases n <;> simp_all [srcShape, Sh.isU, srcVal, sregLane]

/-- A float source that counts as U has one value in every lane. -/
theorem fsrcVal_of_u {d : Dev} {f : Fibre} {t : FTy} {a : FSrc} (h : (fsrcShape d f t a).isU = true) (L M : Nat) :
    fsrcVal d f t L a = fsrcVal d f t M a := by
  cases a with
  | reg r =>
    apply srcReg_of_u
    revert h; simp only [fsrcShape]; cases regShape (regOf d f r.idx.toNat) r (.flt t) <;> simp [Sh.isU]
  | imm v => rfl

/-- A register that counts as U has one value in every lane. -/
theorem regLane_of_plainU {d : Dev} {f : Fibre} {r : Nat} (h : (plainShape d f r).isU = true) (L M : Nat) :
    regLane d f r L = regLane d f r M := by
  unfold plainShape at h
  cases hv : regOf d f r with
  | u y => simp [regLane_of_u hv]
  | a b s => rw [hv] at h; simp [Sh.isU] at h
  | g vs => rw [hv] at h; simp [Sh.isU] at h

/-- A 64-bit integer source that counts as A has its base plus the lane number times its stride. -/
theorem srcVal_of_a {d : Dev} {f : Fibre} {tm : Team} {t : ITy} {a : Src} {b s : Word} (ht : t.width = 64)
    (h : srcShape d f (.int t) a = .a b s) (L : Nat) : srcVal d f tm (.int t) L a = b + BitVec.ofNat 64 L * s := by
  cases a with
  | imm v => simp [srcShape] at h
  | sr n => cases n <;> simp [srcShape] at h <;> obtain ⟨rfl, rfl⟩ := h <;> simp [srcVal, sregLane, BitVec.ofNat_add]
  | reg r =>
    simp only [srcShape] at h
    cases hv : regOf d f r.idx.toNat with
    | u y => rw [hv] at h; cases hp : r.pat <;> simp [regShape, hp] at h
    | g vs => rw [hv] at h; cases hp : r.pat <;> simp [regShape, hp] at h
    | a b' s' =>
      rw [hv] at h
      cases hp : r.pat <;> simp [regShape, hp] at h
      have hreg : ∀ K, regLane d f r.idx.toNat K = b' + BitVec.ofNat 64 K * s' := fun K => by simp [regLane, hv, laneVal]
      cases ha : r.abs <;> cases hn : r.neg <;> simp [ha, hn] at h
      · obtain ⟨rfl, rfl⟩ := h
        simp [srcVal, srcReg, hp, hn, ha, patLane, hreg]
      · have h64 : t = .i64 ∨ t = .n64 := by cases t <;> simp [ITy.width] at ht <;> simp
        have h' : -b' = b ∧ -s' = s := by rcases h64 with rfl | rfl <;> simpa using h
        obtain ⟨rfl, rfl⟩ := h'
        have key : ∀ y : Word, mapSubs (NTy.int t).width (fun j => modSub (.int t) true false (sub y (NTy.int t).width (patSub .none (nsub (NTy.int t).width) j))) = -y := by
          intro y
          have hw : (NTy.int t).width = 64 := ht
          simp only [mapSubs, hw, nsub, modSub, negSub, patSub]
          have hy := y.isLt
          simp [ofSubs, sub, ht]
          apply BitVec.eq_of_toNat_eq
          simp only [BitVec.toNat_ofNat, BitVec.toNat_neg]
          have h2 : y.toNat % 18446744073709551616 = y.toNat := Nat.mod_eq_of_lt hy
          simp [h2]
        simp only [srcVal, srcReg, hp, hn, ha, patLane, hreg]
        simp only [Bool.true_eq_false, false_and, and_false, if_false]
        rw [key, BitVec.neg_add, BitVec.sub_eq_add_neg, BitVec.mul_neg]

/-! ### Results keep their values -/

/-- A result keeps its lanes' values whatever shape it is given, as long as the shape is right for them. -/
theorem laneVal_outReg {i : Instr} {s : State} {x : Iss} (hx : issue? i s = some x) {sh : Sh} {val : Nat → Word}
    (hu : sh = .u → ∀ L M, x.act.has L = true → x.act.has M = true → val L = val M)
    (ha : ∀ b st, sh = .a b st → ∀ L, x.act.has L = true → val L = b + BitVec.ofNat 64 L * st) {L : Nat} (hL : x.act.has L = true) :
    laneVal x.f (outReg x sh val) L = val L := by
  cases sh with
  | g => exact laneVal_outReg_g hx val hL
  | u => exact laneVal_outReg_u val (hu rfl) hL
  | a b st => simp [outReg, laneVal, ha b st rfl L hL]

/-- Flags raised under one name by some sub-elements of some active lanes (R32). -/
theorem laneFlags_flagIf (x : Iss) (n : Nat) (fl : Word) (c : Nat → Nat → Bool) :
    (laneFlags x fun L => ((List.range n).map fun j => if c L j then fl else 0).foldl (fun m r => m ||| r) 0) = flagIf x n fl c := by
  have inner : ∀ (js : List Nat) (m : Word) (p : Nat → Bool),
      (js.map fun j => if p j then fl else 0).foldl (fun m r => m ||| r) m = m ||| if js.any p then fl else 0 := by
    intro js
    induction js with
    | nil => intro m p; simp
    | cons k ks ih =>
      intro m p
      rw [List.map_cons, List.foldl_cons, ih, List.any_cons]
      cases h1 : p k <;> cases h2 : ks.any p <;> simp [BitVec.or_assoc]
  have outer : ∀ (ls : List Nat) (m : Word) (q : Nat → Bool),
      ls.foldl (fun m L => m ||| if q L then fl else 0) m = m ||| if ls.any q then fl else 0 := by
    intro ls
    induction ls with
    | nil => intro m q; simp
    | cons k ks ih =>
      intro m q
      rw [List.foldl_cons, ih, List.any_cons]
      cases h1 : q k <;> cases h2 : ks.any q <;> simp [BitVec.or_assoc]
  simp only [laneFlags, inner, flagIf]
  simpa using outer x.lanes 0 fun L => (List.range n).any (c L)

/-- No flags. -/
theorem laneFlags_zero (x : Iss) : (laneFlags x fun _ => 0) = 0 := by
  have : ∀ (ls : List Nat), ls.foldl (fun (m : Word) _ => m ||| 0) 0 = 0 := by
    intro ls; induction ls with
    | nil => rfl
    | cons k ks ih => simp
  exact this x.lanes

end Sys2Proof.Machine
end

