-- ==== Sys2Proof/Tests/Slice0.lean ====
section
/-!
SUPPORT. The model's own tests: terms that well-formedness refuses, words of the spec decoded, single steps with results taken from the
spec's tables and worked examples, and for every statement a state and operands that meet its premises.
-/

namespace Sys2Proof.Tests

-- One theorem after another: each would otherwise take a thread of its own.
set_option Elab.async false

open Sys2Proof Sys2Proof.Machine

/-- A header with guard `pt` and nothing set. -/
def hd : Hdr := ⟨false, 31, 0, false, false, false, false⟩

/-- A plain register source. -/
def rs (n : Reg) : Src := .reg ⟨n, .none, false, false⟩

/-- A plain register float source. -/
def fs (n : Reg) : FSrc := .reg ⟨n, .none, false, false⟩

/-- A parameter block of 4 elements of format `f32`, one dimension. -/
def pb : ParamBlock := ⟨.lit 4, .lit 0, .lit 0, .lit 0, .lit 1, .lit 0, .lit 0, .lit 0, 10, .lit 0, .lit 0⟩

/-! ### Ill-formed terms, one for each check -/

/-- A reserved guard, and `ru` on an instruction without a vector A (R42, R45). -/
theorem test_illformed_headers :
    ([.nop { hd with guard := 24 }, .nop { hd with ru := true }, .iadd { hd with ru := true } ⟨.i32, false, 4, .imm 1, rs 3⟩,
      .mov { hd with ru := true } ⟨.i32, 4, .sr .lane⟩].all fun i : Instr => !wellFormed i) = true := by decide

/-- Reserved predicates, as destination and as source, and a compare destination (R48, R49). -/
theorem test_illformed_predicates :
    ([.voteAny hd 25 ⟨0, false⟩, .voteAll hd 0 ⟨30, true⟩, .plop hd 3 24 ⟨0, false⟩ ⟨1, false⟩, .icmp hd .i32 .eq (.pred 24 false) (rs 2) (rs 3),
      .v2p hd 26 (rs 2), .matchAll hd 27 ⟨2, .none⟩, .barq hd 28 0, .qnend hd 29].all fun i : Instr => !wellFormed i) = true := by decide

/-- An `f16` immediate with high bits, a special register where the type is a float (R52, R53). -/
theorem test_illformed_immediates :
    ([.fadd hd ⟨.f16, .rn, false, 4, fs 2, .imm 0x10000⟩, .fclass hd .bf16 4 (.imm 0x3FFFFF), .lred hd .add (.flt .f32) .rn false false 4 (.sr .lane),
      .lpull hd (.flt .f16) 4 (.imm 0x10000) (rs 3)].all fun i : Instr => !wellFormed i) = true := by decide

/-- Widths, elements and operations that an instruction does not have (R128, R136, R144). -/
theorem test_illformed_types :
    ([.pack hd ⟨.i64, false, 4, rs 2, rs 3⟩, .unpkLo hd ⟨.n64, 4, rs 2⟩, .fcvt hd .f32 true ⟨.f32, .rn, false, 4, fs 2⟩,
      .f2i hd .i32 .f32 true .rn false 4 (fs 2), .lred hd .xor (.flt .f32) .rn false false 4 (rs 2),
      .lred hd .min (.int .i32) .rn false true 4 (rs 2), .lscan hd .add false (.flt .f32) .rn false true 4 (rs 2)].all
        fun i : Instr => !wellFormed i) = true := by decide

/-- Space, order and scope of accesses (R164, R170, R206). -/
theorem test_illformed_accesses :
    ([.ld hd ⟨.r, .g, .rel, .dev, .int .n64, 4, ⟨8, .imm 0⟩⟩, .ld hd ⟨.r, .sp, .rlx, .dev, .int .n64, 4, ⟨8, .imm 0⟩⟩,
      .ld hd ⟨.r, .stk, .acq, .team, .int .n64, 4, ⟨8, .imm 0⟩⟩, .st hd ⟨.r, .g, .acq, .dev, .int .n64, 4, ⟨8, .imm 0⟩⟩,
      .stMc hd ⟨.r, .sp, .rlx, .team, .int .n64, 4, ⟨8, .imm 0⟩⟩, .atomMin hd ⟨.g, .rlx, .dev, .f32, true, 4, ⟨8, .imm 0⟩⟩,
      .atomAnd hd ⟨.g, .rlx, .dev, .f32, false, 4, ⟨8, .imm 0⟩⟩, .atomAdd hd ⟨.stk, .rlx, .team, .n32, false, 4, ⟨8, .imm 0⟩⟩,
      .redAdd hd ⟨.g, .acq, .dev, .n32, false, 4, ⟨8, .imm 0⟩⟩, .cas hd .stk .rlx .team .n32 4 ⟨8, .imm 0⟩,
      .waitaddr hd ⟨.g, .rel, .dev, 4, ⟨8, .imm 0⟩⟩, .wake hd ⟨.g, .acq, .dev, 4, ⟨8, .imm 0⟩⟩,
      .accld hd ⟨.g, .rel, .dev, 1, ⟨8, .imm 0⟩⟩, .accst hd ⟨.stk, .rlx, .team, 1, ⟨8, .imm 0⟩⟩].all
        fun i : Instr => !wellFormed i) = true := by decide

/-- Register groups that would hold `vz` (R207, R213, R266, R290), and a chunk number above 12 (R294). -/
theorem test_illformed_groups :
    ([.mma hd ⟨.f16, false, 1, 252, .imm 8⟩, .cpy hd ⟨.sp, .sp, none, 254, pb⟩, .gth hd ⟨.sp, .ta, none, 4, pb⟩, .vappEye hd 4 248 255,
      .vconAll hd .dev 1 247 8, .vmrg hd .dev 1 4 252, .vpin hd 1 255, .qnbld hd false 4 253 pb, .qnsum hd 13 1 8, .qnsum hd 0 1 248].all
        fun i : Instr => !wellFormed i) = true := by decide

/-- Parameter blocks: format 15, a block length on a format without blocks, a used bit of a dimension that is not there (R61). -/
theorem test_illformed_blocks :
    ([{ pb with s8 := 15 }, { pb with s8 := 0x1A }, { pb with s8 := 0x400 }, { pb with s1 := .lit 1 }, { pb with s7 := .mark 3 }].all
        fun b => !wellFormed (.cpy hd ⟨.sp, .sp, none, 4, b⟩)) = true := by decide

/-- Pair words: two FMA halves, one destination bank, operands of one bank, a filled `hnop`, rounding without an FMA half (R58, R59). -/
theorem test_illformed_pairs :
    ([⟨2, 2, .rn, false, ⟨.fadd, 5, 2, 0, 3, 0⟩, ⟨.fmul, 4, 2, 0, 3, 0⟩⟩, ⟨3, 3, .rn, false, ⟨.iadd, 8, 2, 0, 3, 0⟩, ⟨.imul, 4, 2, 0, 3, 0⟩⟩,
      ⟨3, 3, .rn, false, ⟨.iadd, 5, 2, 0, 6, 0⟩, ⟨.imul, 4, 2, 0, 3, 0⟩⟩, ⟨3, 3, .rn, false, ⟨.hnop, 5, 0, 0, 0, 0⟩, ⟨.imul, 4, 2, 0, 3, 0⟩⟩,
      ⟨3, 3, .rz, false, ⟨.iadd, 5, 2, 0, 3, 0⟩, ⟨.imul, 4, 2, 0, 3, 0⟩⟩, ⟨3, 3, .rn, false, ⟨.not, 5, 2, 0, 3, 0⟩, ⟨.imul, 4, 2, 0, 3, 0⟩⟩].all
        fun o => !wellFormed (.pair hd o)) = true := by decide

/-- An event has no word. -/
theorem test_illformed_events :
    ([.resultReturn 0, .stallSample, .hostLinkTraining 5 16].all fun i : Instr => !wellFormed i) = true := by decide

/-! ### Words written out from the encodings -/

/-- The word of an instruction. -/
def wordOf (i : Instr) : Nat := leNat (encode i)

/-- Control and system: `bra +3`, `trap 0x2A`, `clk v5`, `mark v3, 0x51` (R95, R309, R320, R323). -/
theorem test_decode_control :
    decodeTableWord 96 0x0100840C0000000000400003 = some (.bra ⟨false, 2, 1, false, false, false, false⟩ 3) ∧
    decodeTableWord 96 0xD007C00C000040002A000000 = some (.trap hd 0x2A) ∧ decodeTableWord 96 0xD607C00015C0000000000000 = some (.clk hd 5) ∧
    decodeTableWord 96 0xD807C00C000000C000400051 = some (.mark hd (rs 3) 0x51) := by decide +kernel

/-- Integer, pair and floating point: `iaddc.n64 v4, v1, v2, p5`, `ffma.f64 v3, v2.rot(1), v2.bc(2)`, a pair word (R57, R114, R130). -/
theorem test_decode_arithmetic :
    decodeTableWord 96 0x1257D00011C0004000008000 = some (.iaddc { hd with stall := 4 } ⟨true, 5, 4, rs 1, rs 2⟩) ∧
    decodeTableWord 96 0x4307D8000EC0008820009040 = some (.ffma { hd with stall := 6 }
      ⟨.f64, .rn, false, 3, .reg ⟨2, .rot 1, false, false⟩, .reg ⟨2, .bc 2, false, false⟩⟩) ∧
    decodeTableWord 96 0xEA07D808C1C0502010401008 = some (.pair { hd with stall := 6 }
      ⟨2, 2, .rn, false, ⟨.ffma, 7, 1, 1, 2, 0⟩, ⟨.iadd, 4, 1, 0, 2, 0⟩⟩) := by decide +kernel

/-- Cross-lane, computed registers and shapes, fibres: `lpull.n32 v6, v2, v3` built from R48, R49 and R141, `shpset.u v5, v3`,
`fspawn p1, v1, +4` (R81, R105). -/
theorem test_decode_lanes_and_fibres :
    decodeTableWord 96 0x6007C000198000800000C000 = some (.lpull hd (.int .n32) 6 (rs 2) (rs 3)) ∧
    decodeTableWord 96 0xC307D00015C000C000000000 = some (.shpsetU { hd with stall := 4 } 5 3) ∧
    decodeTableWord 96 0x9007C0040400004000400004 = some (.fspawn hd 1 1 4) := by decide +kernel

/-- Memory: `ld.acq.dev.n64 v4, [v8 + 16]` built from R48, R49 and R164, `atom.min.sp.n64 v3, [vz]`, `pginfo v9, [v4]` (R161). -/
theorem test_decode_memory :
    decodeTableWord 96 0x7047C00011C2020001400010 = some (.ld hd ⟨.r, .g, .acq, .dev, .int .n64, 4, ⟨8, .imm 16⟩⟩) ∧
    decodeTableWord 96 0x7257C4000DC03FC000400000 = some (.atomMin { hd with stall := 1 } ⟨.sp, .rlx, .team, .n64, false, 3, ⟨255, .imm 0⟩⟩) ∧
    decodeTableWord 96 0x7E07C00025C0010000400000 = some (.pginfo hd 9 ⟨4, .imm 0⟩) := by decide +kernel

/-- Tiles, barriers, queues, the Mortar and Quoin: `mma.f16.z ta0, v10, 0 | ru`, `barv b2, 16`, `qput.v p3, v5, 12`, `vcon p3, v30, v40`,
`qnwalk p1, v20, v30` (R207, R230, R251, R266, R290). -/
theorem test_decode_units :
    decodeTableWord 96 0x8427C1080200028000400000 = some (.mma { hd with ru := true } ⟨.f16, true, 0, 10, .imm 0⟩) ∧
    decodeTableWord 96 0x9407C0084800400010000000 = some (.barv hd 2 (.imm 16)) ∧
    decodeTableWord 96 0x9817C4040C0001400040000C = some (.qputV { hd with stall := 1 } 3 (rs 5) (.imm 12)) ∧
    decodeTableWord 96 0xA307C0040C000780000A0000 = some (.vcon hd .team 3 30 40) ∧
    decodeTableWord 96 0xB307C0040400050000078000 = some (.qnwalk hd .team 1 20 30) := by decide +kernel

/-! ### A small state -/

/-- The state in which a placed team's path is about to execute; the word itself is a `nop`. -/
def ready (s : State) : State := { s with cur := s.issueQ.head?, issueQ := [] }

/-- On a compute core. -/
def base : State := ready (State.reset.withFetchWord 96 0)

/-- On a control core. -/
def privileged : State := ready (State.reset.withFetchWord 96 (wordOf (.tlbiAll hd false 1)))

/-- Change the device, every fibre, every team, context 0. -/
def onD (g : Dev → Dev) (s : State) : State := { s with dev := g s.dev }
def onF (g : Fibre → Fibre) (s : State) : State := onD (fun d => { d with fibres := d.fibres.map g }) s
def onT (g : Team → Team) (s : State) : State := onD (fun d => { d with teams := d.teams.map g }) s
def onC (g : Ctx → Ctx) (s : State) : State := onD (fun d => d.setCtx 0 (g (d.ctx 0))) s
def onTh (g : Nat → Thread → Thread) (s : State) : State := onF (fun f => f.mapThreads g) s

/-- Give a register a value. -/
def setv (r : Nat) (v : VReg) (s : State) : State := onF (fun f => { f with regs := setAt f.regs r v }) s

/-- The only fibre; the team. -/
def fib (s : State) : Fibre := s.dev.fibres.headD default
def team (s : State) : Team := s.dev.teams.headD default

/-- The state an instruction answers. -/
def aft (i : Instr) (s : State) : State := match exec i s with
  | .next t => t
  | _ => s

/-- What is on its way to a register or predicate in a lane. -/
def outv (t : State) (r L : Nat) : Option Word := ((fib t).pendW.find? fun p => p.reg == r).map fun p => laneVal (fib t) p.val L
def outp (t : State) (p L : Nat) : Option Bool := ((fib t).pendP.find? fun q => q.idx == p).map fun q => q.vals.has L
def late (t : State) (L : Nat) : Option (List Word) := (t.dev.flights.head?.bind fun g => g.acc.find? fun a => a.lane == L).map LaneAcc.ops

/-! ### Single steps with the spec's numbers -/

/-- The worked example of chapter 8: lanes 0 and 1 of `iaddc.n64 v4, v1, v2, p5`, and the constant that `movh` builds (R116, R124). -/
theorem test_carry_and_constant :
    let s := setv 1 (.u 0xFFFFFFFFFFFFFFFF) (setv 2 (.a 0 1) base)
    let t := aft (.iaddc hd ⟨true, 5, 4, rs 1, rs 2⟩) s
    outv t 4 0 = some 0xFFFFFFFFFFFFFFFF ∧ outv t 4 1 = some 0 ∧ outp t 5 0 = some false ∧ outp t 5 1 = some true ∧
    outv (aft (.movhM hd 6 6 0x400) (setv 6 (.u 7) base)) 6 0 = some 0x100000007 ∧
    outv (aft (.movhH hd 6 6 0x80000) (setv 6 (.u 0x100000007) base)) 6 0 = some 0x8000000100000007 := by decide +kernel

/-- R115's corner values of `ineg.i8`, with and without `.sat`, and of `iabs.i16.sat`. -/
theorem test_integer_corners :
    let s := setv 2 (.u 0x80) base
    let t := aft (.ineg hd ⟨.i8, true, 4, rs 2⟩) s
    let u := aft (.iabs hd ⟨.i16, true, 4, rs 2⟩) (setv 2 (.u 0x8000) base)
    (outv (aft (.ineg hd ⟨.i8, false, 4, rs 2⟩) s) 4 0).map (sub · 8 0) = some 0x80 ∧
    (outv t 4 0).map (sub · 8 0) = some 0x7F ∧ (fib t).fflags = fIO ∧ (outv u 4 0).map (sub · 16 0) = some 0x7FFF ∧ (fib u).fflags = fIO := by
  decide +kernel

/-- R25's examples: −7 ÷ 2 gives −3 and −1 as `i32`; 200 ÷ 0 gives 255 and 200 as `n8`, with DZ. -/
theorem test_division :
    let s := setv 2 (.u 0xFFFFFFF9) (setv 3 (.u 2) base)
    let z := setv 2 (.u 200) base
    (outv (aft (.idiv hd ⟨.i32, false, 4, rs 2, rs 3⟩) s) 4 0).map (sub · 32 0) = some 0xFFFFFFFD ∧
    (outv (aft (.irem hd ⟨.i32, 4, rs 2, rs 3⟩) s) 4 0).map (sub · 32 0) = some 0xFFFFFFFF ∧
    (outv (aft (.idiv hd ⟨.n8, false, 4, rs 2, rs 3⟩) z) 4 0).map (sub · 8 0) = some 255 ∧
    (outv (aft (.irem hd ⟨.n8, 4, rs 2, rs 3⟩) z) 4 0).map (sub · 8 0) = some 200 ∧
    (fib (aft (.idiv hd ⟨.n8, false, 4, rs 2, rs 3⟩) z)).fflags = fDZ := by decide +kernel

/-- R121 and the corners of chapter 8: `shl.n8` by 9 shifts by 1, `sar.n32` of 0x80000000 by 31 is all ones, `imulh.n64` of 2^64 − 1 by
itself is 2^64 − 2; R128: `unpk.lo.i8` of 0xFF7F gives 127 and −1. -/
theorem test_shifts_and_unpack :
    let m := setv 2 (.u 0xFFFFFFFFFFFFFFFF) (setv 3 (.u 0xFFFFFFFFFFFFFFFF) base)
    (outv (aft (.shl hd ⟨.n8, 4, rs 2, .imm 9⟩) (setv 2 (.u 0x81) base)) 4 0).map (sub · 8 0) = some 2 ∧
    (outv (aft (.sar hd ⟨.n32, 4, rs 2, .imm 31⟩) (setv 2 (.u 0x80000000) base)) 4 0).map (sub · 32 0) = some 0xFFFFFFFF ∧
    outv (aft (.imulh hd ⟨.n64, 4, rs 2, rs 3⟩) m) 4 0 = some 0xFFFFFFFFFFFFFFFE ∧
    (outv (aft (.unpkLo hd ⟨.i8, 4, rs 2⟩) (setv 2 (.u 0xFF7F) base)) 4 0).map (sub · 32 0) = some 0xFFFF007F := by decide +kernel

/-- The worked example of chapter 9: the sum 28.0 as 0x41E00000, the exclusive prefix 3.0 of lane 3, and the push that lane 7 wins. -/
theorem test_cross_lane :
    let s := setv 2 (.g [0, 0x3F800000, 0x40000000, 0x40400000, 0x40800000, 0x40A00000, 0x40C00000, 0x40E00000])
      (setv 8 (.g [0, 0, 1, 1, 2, 2, 3, 3]) base)
    outv (aft (.lred hd .add (.flt .f32) .rn false false 3 (rs 2)) s) 3 0 = some 0x41E00000 ∧
    outv (aft (.lscan hd .add true (.flt .f32) .rn false false 4 (rs 2)) s) 4 3 = some 0x40400000 ∧
    outv (aft (.lpush hd (.flt .f32) 7 (rs 2) (rs 8)) s) 7 0 = some 0x4040000000000000 ∧
    outv (aft (.lpush hd (.flt .f32) 7 (rs 2) (rs 8)) s) 7 1 = some 0x40E0000040A00000 := by decide +kernel

/-- The worked example of R36: quantising (3, −1, 0.5, 0.25, 0, …) to `bd2` gives 0x6BFE80 and raises UF and NX; R37 gives back 3 and −1. -/
theorem test_quantise :
    let s := setv 8 (.u 0xBF80000040400000) (setv 9 (.u 0x3E8000003F000000) base)
    let t := aft (.qnt hd .bd2 .rn false 4 8) s
    outv t 4 0 = some 0x6BFE80 ∧ (fib t).fflags = fUF ||| fNX ∧
    outv (aft (.dqnt hd .bd2 .rn false 16 4) (setv 4 (.u 0x6BFE80) base)) 16 0 = some 0xBF80000040400000 := by decide +kernel

/-- The worked example of R38: the truncated terms leave 1.0. -/
theorem test_matrix_window :
    mmaStep [(fval .f16 false 0x0C00, fval .f16 false 0x0C00), (fval .f16 false 0x0600, fval .f16 false 0x0400),
      (fval .f16 false 0x8400, fval .f16 false 0x0200)] 0x3F800000 = 0x3F800000 := by decide +kernel

/-- IEEE sums and R41's special values: 1 + 2 = 3, 1 ÷ 0 = ∞ with DZ, a NaN's canonical form; `fcmp.ne` on a quiet NaN is true and
`fcmp.lt` false with NV (corners of chapter 9). -/
theorem test_floats :
    let s := setv 2 (.u 0x3F800000) (setv 3 (.u 0x40000000) base)
    let n := setv 2 (.u 0x7FC000017FC00001) base
    (outv (aft (.fadd hd ⟨.f32, .rn, false, 4, fs 2, fs 3⟩) s) 4 0).map (sub · 32 0) = some 0x40400000 ∧
    (late (aft (.frcp hd ⟨.f32, .rn, false, 4, fs 5⟩) s) 0).map (fun o => sub (o.getD 0 0) 32 0) = some 0x7F800000 ∧
    (outv (aft (.fadd hd ⟨.f32, .rn, false, 4, fs 2, fs 3⟩) n) 4 0).map (sub · 32 0) = some 0x7FC00000 ∧
    outp (aft (.fcmp hd .f32 false .ne (.pred 1 false) (fs 2) (fs 3)) n) 1 0 = some true ∧
    outp (aft (.fcmp hd .f32 false .lt (.pred 1 false) (fs 2) (fs 3)) n) 1 0 = some false ∧
    (fib (aft (.fcmp hd .f32 false .lt (.pred 1 false) (fs 2) (fs 3)) n)).fflags = fNV := by decide +kernel

/-- R100, R118: a vote's mask and a compare into a predicate, on lanes 0 to 7. -/
theorem test_votes_and_compares :
    let s := setv 2 (.a 0 1) base
    let p := onTh (fun L t => { t with preds := if L < 3 then 4 else 0 }) base
    outp (aft (.icmp hd .n64 .lt (.pred 1 false) (rs 2) (.imm 5)) s) 1 4 = some true ∧
    outp (aft (.icmp hd .n64 .lt (.pred 1 false) (rs 2) (.imm 5)) s) 1 5 = some false ∧
    outv (aft (.voteMask hd 4 ⟨2, false⟩) p) 4 7 = some 7 ∧ outv (aft (.voteMask hd 4 ⟨2, true⟩) p) 4 0 = some 0xF8 := by decide +kernel

/-- R95, R97: `bra +3` at 0x10000 goes to 0x10024, and `exit` ends the threads (R98). -/
theorem test_control :
    ((fib (aft (.bra hd 3) base)).thread 0).pc = 0x10024 ∧ ((fib (aft (.exit hd) base)).thread 7).life = .exited := by decide +kernel

/-- R8, R65: a `nop`: the PC moves on by a word and the stall count holds the path back. -/
theorem test_stall :
    let t := aft (.nop { hd with stall := 5 }) base
    ((fib t).thread 3).pc = 0x1000C ∧ ((fib t).thread 3).stallTo = 5 := by decide +kernel

/-- R166, R304: an access past the scratchpad freezes the fibre with kind 5, and one record is owed. -/
theorem test_scratchpad_bound :
    let t := aft (.ld hd ⟨.r, .sp, .rlx, .team, .int .n64, 4, ⟨8, .imm 16⟩⟩) (setv 8 (.u 0x8000) base)
    (fib t).frozen.map Freeze.kind = some 5 ∧ (t.dev.ctx 0).owed.length = 1 := by decide +kernel

/-- R222, R232: `barv b2, 16` from 8 threads leaves 8 arrivals of 16 in phase 0. -/
theorem test_barrier :
    let b := (team (aft (.barv hd 2 (.imm 16)) base)).bar 2
    b.n = 16 ∧ b.arrived = 8 ∧ b.phase = 0 := by decide +kernel

/-- R309, R161: `trap 0x2A` freezes with kind 9, and a privileged instruction on a compute core with kind 2. -/
theorem test_trap_and_privilege :
    (fib (aft (.trap hd 0x2A) base)).frozen.map Freeze.kind = some 9 ∧
    (fib (aft (.sysr hd 4 (.imm 0)) base)).frozen.map Freeze.kind = some 2 ∧
    (fib (aft (.sysr hd 4 (.imm 0)) privileged)).frozen = none := by decide +kernel

/-- The worked example of R240: the even partition of 10 teams. -/
theorem test_partition :
    partition (10 * 2 ^ 32 :: 0 :: 0 :: List.replicate 13 0) = [(0, 0, 2), (1, 2, 5), (2, 5, 7), (3, 7, 10)] := by decide +kernel

/-- The team signature of chapter 19's worked example, whatever the order in which the threads ended. -/
theorem test_team_signature :
    teamSig { team base with psigs := [(4, 0x1003C), (0, 0x10048), (1, 0x10048), (2, 0x10048), (3, 0x10048), (5, 0x1003C), (7, 0x1003C),
      (6, 0x1003C)] } = 0xFF3AD4 := by decide +kernel

/-- Page tables at 0x40000, 0x50000 and 0x60000 that map the page of `va` by a leaf. -/
def tables (va leaf : Word) (m : List Host.Cell) : List Host.Cell :=
  memPut (memPut (memPut m (0x40000 + 8 * field va 42 13) (wordLE 0x50001)) (0x50000 + 8 * field va 29 13) (wordLE 0x60001))
    (0x60000 + 8 * field va 16 13) (wordLE leaf)
def mapped (va leaf : Word) (s : State) : State :=
  onC (fun x => { x with root := 0x40000 }) (onD (fun d => { d with mem := tables va leaf d.mem }) s)

/-- The worked example of chapter 10: `pginfo` on a compute core, on a control core, and after V has been cleared. -/
theorem test_pginfo :
    let s := fun (leaf : Word) (b : State) => mapped 0x0000123456789ABC leaf (setv 4 (.u 0x0000123456789ABC) b)
    let i : Instr := .pginfo hd 9 ⟨4, .imm 0⟩
    late (aft i (s 0x0000008012340413 base)) 0 = some [0x0000000000000413] ∧
    late (aft i (s 0x0000008012340413 privileged)) 0 = some [0x0000008012340413] ∧
    late (aft i (s 0x0000008012340412 base)) 0 = some [0x0000000000004000] := by decide +kernel

/-- R169, R190: a `.g` store of a word performs at the physical address its page names; nothing beside it changes. -/
theorem test_store_performs :
    let s := mapped 0x0000123456789ABC 0x0000008012340413 (setv 8 (.u 0x0000123456789ABC) (setv 4 (.u 0x1122334455667788)
      (onTh (fun L t => { t with life := if L = 0 then .live else .empty }) (onF id base))))
    let t := aft (.st hd ⟨.r, .g, .rlx, .dev, .int .n64, 4, ⟨8, .imm 0⟩⟩) { s with cur := s.cur.map fun c => { c with lanes := 1 } }
    let u := aft (.storePerform (t.dev.nextId - 1)) t
    memWord t.dev.mem 0x8012349ABC = 0 ∧ memWord u.dev.mem 0x8012349ABC = 0x1122334455667788 ∧
    memRead u.dev.mem 0x8012349ABB = 0 ∧ memRead u.dev.mem 0x8012349AC4 = 0 := by decide +kernel

/-- R171: `red.add.sp.n64` of 5 on an element that holds 7. -/
theorem test_atomic_performs :
    let s := onT (fun t => { t with sp := memPut [] 16 (wordLE 7) }) (setv 4 (.u 5) base)
    let s := { s with cur := s.cur.map fun c => { c with lanes := 1 } }
    let s := onTh (fun L t => { t with life := if L = 0 then .live else .empty }) s
    let t := aft (.redAdd hd ⟨.sp, .rlx, .team, .n64, false, 4, ⟨8, .imm 16⟩⟩) s
    memWord (team (aft (.storePerform (t.dev.nextId - 1)) t)).sp 16 = 12 := by decide +kernel

/-- R267: an append with the handle 0 as parent makes an unsealed root of depth 0. -/
theorem test_append_root :
    let s := onTh (fun L t => { t with life := if L = 0 then .live else .empty }) (setv 11 (.u 0x3F80000000000000) base)
    let t := aft (.vappEye hd 20 8 255) { s with cur := s.cur.map fun c => { c with lanes := 1 } }
    t.dev.vertices.map (fun v => (v.state == .unsealed (fib base).uid, v.depth, v.ctx, v.quarter)) = [(true, 0, 0, 0)] := by decide +kernel

/-- R282 to R284: a first key is a root of count 1, and a 17th key of a leaf splits it. -/
theorem test_tree_grows :
    let t0 : QTree := { (default : QTree) with d := 3 }
    let key := fun (n : Nat) => (⟨[BitVec.ofNat 32 (0x3F800000 + n * 0x100000), 0, 0], []⟩ : QKey)
    let t := fun n => ((List.range n).map key).foldl insertKey t0
    ((t 1).nodes.map QNode.count) = [1] ∧ (t 16).nodes.length = 1 ∧ (t 17).nodes.length = 3 ∧ ((t 17).nodes.getD 0 default).count = 17 ∧
    ((t 17).nodes.getD 0 default).children = [1, 2] := by decide +kernel

/-- R201, R283, R289: a walk that reads a leaf after its split, named by a root that had not seen it, meets the new sibling too; named by one
that had, it reads the leaf as split; and it sees at least the insert of a key it must cover. -/
theorem test_walk_meets_split :
    let p : QNode := { (default : QNode) with children := [1, 2], count := 32 }
    let leaf := fun (n : Nat) => ({ (default : QNode) with count := n } : QNode)
    let t : QTree := { (default : QTree) with
      nodes := [{ p with children := [1, 3, 2], count := 33 }, leaf 8, leaf 16, leaf 9], olds := [[p, leaf 16, leaf 16]], keys := List.replicate 33 default }
    let w : WalkSt := ⟨t, [], [], [], none, false, [], 0, 0, 255, false, .dev, [], 0, 0⟩
    t.siblings 1 0 1 = [(3, 1)] ∧ t.siblings 2 0 1 = [] ∧ t.siblings 1 1 1 = [] ∧ w.least 1 0 = 0 ∧ w.least 1 1 = 1 ∧
    ({ w with must := [32] } : WalkSt).least 1 0 = 1 ∧ ({ w with must := [32] } : WalkSt).least 2 0 = 0 := by decide +kernel

/-- A step decodes and runs the placed word, and goes on to the next (R63): `movi.n64 v3, 9`. -/
theorem test_step_runs :
    (match step (State.reset.withFetchWord 96 (wordOf (.movi hd .n64 3 9))) with
      | .next t => (outv t 3 0, ((fib t).thread 0).pc)
      | _ => (none, 0)) = (some 9, 0x1000C) := by decide +kernel

/-! ### The statements' premises can be met -/

/-- One form of every instruction. -/
def forms0 (h : Hdr) : List Instr := [
  .nop h, .bra h 1, .brx h 4, .call h 1, .callx h 4, .ret h, .exit h, .yield h, .voteAny h 1 ⟨2, false⟩, .voteAll h 1 ⟨2, false⟩,
  .voteMask h 4 ⟨2, false⟩, .matchAny h 4 ⟨2, .none⟩, .matchAll h 1 ⟨2, .none⟩,
  .iadd h ⟨.i64, false, 4, .reg ⟨2, .none, false, false⟩, .reg ⟨3, .none, false, false⟩⟩,
  .isub h ⟨.i64, false, 4, .reg ⟨2, .none, false, false⟩, .reg ⟨3, .none, false, false⟩⟩,
  .iaddc h ⟨false, 3, 4, .reg ⟨2, .none, false, false⟩, .reg ⟨3, .none, false, false⟩⟩,
  .imul h ⟨.i64, false, 4, .reg ⟨2, .none, false, false⟩, .reg ⟨3, .none, false, false⟩⟩,
  .imulh h ⟨.i64, 4, .reg ⟨2, .none, false, false⟩, .reg ⟨3, .none, false, false⟩⟩,
  .imad h ⟨.i64, false, 4, .reg ⟨2, .none, false, false⟩, .reg ⟨3, .none, false, false⟩⟩,
  .idiv h ⟨.i64, false, 4, .reg ⟨2, .none, false, false⟩, .reg ⟨3, .none, false, false⟩⟩,
  .irem h ⟨.i64, 4, .reg ⟨2, .none, false, false⟩, .reg ⟨3, .none, false, false⟩⟩,
  .ineg h ⟨.i64, false, 4, .reg ⟨2, .none, false, false⟩⟩, .iabs h ⟨.i64, false, 4, .reg ⟨2, .none, false, false⟩⟩,
  .imin h ⟨.i64, 4, .reg ⟨2, .none, false, false⟩, .reg ⟨3, .none, false, false⟩⟩,
  .imax h ⟨.i64, 4, .reg ⟨2, .none, false, false⟩, .reg ⟨3, .none, false, false⟩⟩,
  .icmp h .i64 .lt (.pred 1 false) (.reg ⟨2, .none, false, false⟩) (.reg ⟨3, .none, false, false⟩),
  .isel h 1 ⟨.i64, 4, .reg ⟨2, .none, false, false⟩, .reg ⟨3, .none, false, false⟩⟩,
  .and h ⟨.i64, 4, .reg ⟨2, .none, false, false⟩, .reg ⟨3, .none, false, false⟩⟩,
  .or h ⟨.i64, 4, .reg ⟨2, .none, false, false⟩, .reg ⟨3, .none, false, false⟩⟩,
  .xor h ⟨.i64, 4, .reg ⟨2, .none, false, false⟩, .reg ⟨3, .none, false, false⟩⟩,
  .not h ⟨.i64, 4, .reg ⟨2, .none, false, false⟩⟩,
  .bmix h 1 ⟨.i64, 4, .reg ⟨2, .none, false, false⟩, .reg ⟨3, .none, false, false⟩⟩,
  .shl h ⟨.i64, 4, .reg ⟨2, .none, false, false⟩, .reg ⟨3, .none, false, false⟩⟩,
  .shr h ⟨.i64, 4, .reg ⟨2, .none, false, false⟩, .reg ⟨3, .none, false, false⟩⟩,
  .sar h ⟨.i64, 4, .reg ⟨2, .none, false, false⟩, .reg ⟨3, .none, false, false⟩⟩,
  .rot h ⟨.i64, 4, .reg ⟨2, .none, false, false⟩, .reg ⟨3, .none, false, false⟩⟩,
  .bfe h ⟨.i64, 4, .reg ⟨2, .none, false, false⟩, .reg ⟨3, .none, false, false⟩⟩,
  .bfi h ⟨.i64, 4, .reg ⟨2, .none, false, false⟩, .reg ⟨3, .none, false, false⟩⟩,
  .popc h ⟨.i64, 4, .reg ⟨2, .none, false, false⟩⟩, .clz h ⟨.i64, 4, .reg ⟨2, .none, false, false⟩⟩,
  .ctz h ⟨.i64, 4, .reg ⟨2, .none, false, false⟩⟩, .brev h ⟨.i64, 4, .reg ⟨2, .none, false, false⟩⟩,
  .lea h ⟨false, 3, 4, .reg ⟨2, .none, false, false⟩, .reg ⟨3, .none, false, false⟩⟩,
  .mov h ⟨.i64, 4, .reg ⟨2, .none, false, false⟩⟩, .movi h .i64 4 1, .movhM h 4 4 1, .movhH h 4 4 1,
  .plop h 1 1 ⟨2, false⟩ ⟨2, false⟩, .p2v h 4 ⟨2, false⟩, .p2vAll h 4]
def forms1 (h : Hdr) : List Instr := [
  .v2p h 1 (.reg ⟨2, .none, false, false⟩), .v2pAll h (.reg ⟨2, .none, false, false⟩),
  .pack h ⟨.i8, false, 4, .reg ⟨2, .none, false, false⟩, .reg ⟨3, .none, false, false⟩⟩,
  .unpkLo h ⟨.i8, 4, .reg ⟨2, .none, false, false⟩⟩, .unpkHi h ⟨.i8, 4, .reg ⟨2, .none, false, false⟩⟩,
  .pair h ⟨3, 3, .rn, false, ⟨.iadd, 5, 2, 0, 3, 0⟩, ⟨.imul, 4, 2, 0, 3, 0⟩⟩,
  .fadd h ⟨.f32, .rn, false, 4, .reg ⟨2, .none, false, false⟩, .reg ⟨3, .none, false, false⟩⟩,
  .fsub h ⟨.f32, .rn, false, 4, .reg ⟨2, .none, false, false⟩, .reg ⟨3, .none, false, false⟩⟩,
  .fmul h ⟨.f32, .rn, false, 4, .reg ⟨2, .none, false, false⟩, .reg ⟨3, .none, false, false⟩⟩,
  .ffma h ⟨.f32, .rn, false, 4, .reg ⟨2, .none, false, false⟩, .reg ⟨3, .none, false, false⟩⟩,
  .fmin h ⟨.f32, false, 4, .reg ⟨2, .none, false, false⟩, .reg ⟨3, .none, false, false⟩⟩,
  .fmax h ⟨.f32, false, 4, .reg ⟨2, .none, false, false⟩, .reg ⟨3, .none, false, false⟩⟩,
  .fcmp h .f32 false .lt (.pred 1 false) (.reg ⟨2, .none, false, false⟩) (.reg ⟨2, .none, false, false⟩),
  .fdiv h ⟨.f32, .rn, false, 4, .reg ⟨2, .none, false, false⟩, .reg ⟨3, .none, false, false⟩⟩,
  .fsqrt h ⟨.f32, .rn, false, 4, .reg ⟨2, .none, false, false⟩⟩, .frcp h ⟨.f32, .rn, false, 4, .reg ⟨2, .none, false, false⟩⟩,
  .frsq h ⟨.f32, .rn, false, 4, .reg ⟨2, .none, false, false⟩⟩, .fexp2 h ⟨.f32, .rn, false, 4, .reg ⟨2, .none, false, false⟩⟩,
  .flog2 h ⟨.f32, .rn, false, 4, .reg ⟨2, .none, false, false⟩⟩, .fsin h ⟨.f32, .rn, false, 4, .reg ⟨2, .none, false, false⟩⟩,
  .fcos h ⟨.f32, .rn, false, 4, .reg ⟨2, .none, false, false⟩⟩, .fclass h .f32 4 (.reg ⟨2, .none, false, false⟩),
  .fcvt h .f32 false ⟨.f32, .rn, false, 4, .reg ⟨2, .none, false, false⟩⟩,
  .f2i h .i64 .f32 false .rn false 4 (.reg ⟨2, .none, false, false⟩),
  .i2f h .f32 .i64 false .rn false 4 (.reg ⟨2, .none, false, false⟩),
  .frnd h ⟨.f32, .rn, false, 4, .reg ⟨2, .none, false, false⟩⟩, .frndX h ⟨.f32, .rn, false, 4, .reg ⟨2, .none, false, false⟩⟩,
  .fscale h .f32 .rn false 4 (.reg ⟨2, .none, false, false⟩) (.reg ⟨3, .none, false, false⟩),
  .fdot2 h false .rn false 4 (.reg ⟨2, .none, false, false⟩) (.reg ⟨2, .none, false, false⟩), .fflag h 4 7,
  .lpull h (.int .n32) 4 (.reg ⟨2, .none, false, false⟩) (.reg ⟨2, .none, false, false⟩),
  .lpush h (.int .n32) 4 (.reg ⟨2, .none, false, false⟩) (.reg ⟨2, .none, false, false⟩),
  .lred h .add (.int .n32) .rn false false 4 (.reg ⟨2, .none, false, false⟩),
  .lscan h .add false (.int .n32) .rn false false 4 (.reg ⟨2, .none, false, false⟩),
  .rnd h 4 (.reg ⟨2, .none, false, false⟩) (.reg ⟨3, .none, false, false⟩),
  .rndF32 h 4 (.reg ⟨2, .none, false, false⟩) (.reg ⟨3, .none, false, false⟩),
  .rndF64 h 4 (.reg ⟨2, .none, false, false⟩) (.reg ⟨3, .none, false, false⟩), .qnt h .bd2 .rn false 4 4,
  .dqnt h .bd2 .rn false 4 4, .ld h ⟨.r, .sp, .rlx, .team, .int .n64, 4, ⟨8, .imm 16⟩⟩,
  .st h ⟨.r, .sp, .rlx, .team, .int .n64, 4, ⟨8, .imm 16⟩⟩, .stMc h ⟨.r, .g, .rlx, .dev, .int .n64, 4, ⟨8, .imm 16⟩⟩,
  .atomAdd h ⟨.sp, .rlx, .team, .n64, false, 4, ⟨8, .imm 16⟩⟩, .atomMin h ⟨.sp, .rlx, .team, .n64, false, 4, ⟨8, .imm 16⟩⟩,
  .atomMax h ⟨.sp, .rlx, .team, .n64, false, 4, ⟨8, .imm 16⟩⟩, .atomExch h ⟨.sp, .rlx, .team, .n64, false, 4, ⟨8, .imm 16⟩⟩,
  .atomAnd h ⟨.sp, .rlx, .team, .n64, false, 4, ⟨8, .imm 16⟩⟩, .atomOr h ⟨.sp, .rlx, .team, .n64, false, 4, ⟨8, .imm 16⟩⟩,
  .atomXor h ⟨.sp, .rlx, .team, .n64, false, 4, ⟨8, .imm 16⟩⟩, .cas h .g .rlx .dev .n64 4 ⟨8, .imm 0⟩]
def forms2 (h : Hdr) : List Instr := [
  .redAdd h ⟨.sp, .rlx, .team, .n64, false, 4, ⟨8, .imm 16⟩⟩, .redMin h ⟨.sp, .rlx, .team, .n64, false, 4, ⟨8, .imm 16⟩⟩,
  .redMax h ⟨.sp, .rlx, .team, .n64, false, 4, ⟨8, .imm 16⟩⟩, .redAnd h ⟨.sp, .rlx, .team, .n64, false, 4, ⟨8, .imm 16⟩⟩,
  .redOr h ⟨.sp, .rlx, .team, .n64, false, 4, ⟨8, .imm 16⟩⟩, .redXor h ⟨.sp, .rlx, .team, .n64, false, 4, ⟨8, .imm 16⟩⟩,
  .fenceAcq h .dev, .fenceRel h .dev, .fenceSc h .dev, .fenceUo h .dev, .waitaddr h ⟨.sp, .rlx, .team, 4, ⟨8, .imm 16⟩⟩,
  .wake h ⟨.sp, .rlx, .team, 4, ⟨8, .imm 16⟩⟩, .pfL1 h ⟨8, .imm 0⟩, .pfL2 h ⟨8, .imm 0⟩, .sopenR h 2 4, .sopenW h 2 4,
  .snext h 4 2, .stest h 1 2, .sput h 2 4, .sclose h 1 2, .pginfo h 4 ⟨8, .imm 0⟩,
  .tlbiPg h false 1 4 (.reg ⟨3, .none, false, false⟩), .tlbiCtx h false 1 (.reg ⟨3, .none, false, false⟩), .tlbiAll h false 1,
  .rxld h 4 (.imm 3), .rxst h (.imm 3) 4, .shpget h 4 4, .shpsetU h 4 4, .shpsetA h 4 4, .shpsetG h 4 4, .fspawn h 1 4 1,
  .fexit h, .fbarArrive h, .fbarWait h, .fbarSync h, .fstat h 4, .plres h 1 1 4, .plrel h 1,
  .cvsetN h 2 (.reg ⟨2, .none, false, false⟩), .cvsetF h 2, .cvsign h 2, .mma h ⟨.f16, false, 1, 4, .imm 8⟩,
  .mmaCv h 2 ⟨.f16, false, 1, 4, .imm 8⟩, .mmaShape h 1 pb, .accld h ⟨.sp, .rlx, .team, 1, ⟨8, .imm 0⟩⟩,
  .accst h ⟨.sp, .rlx, .team, 1, ⟨8, .imm 0⟩⟩, .acczero h 1, .tlive h 7, .cpy h ⟨.sp, .sp, some 2, 4, pb⟩,
  .gth h ⟨.sp, .sp, some 2, 4, pb⟩]
def forms3 (h : Hdr) : List Instr := [
  .sct h ⟨.sp, .sp, some 2, 4, pb⟩, .pub h .dev (.reg ⟨2, .none, false, false⟩), .pubReg h 1 4 3, .pubUnreg h 3,
  .barv h 5 (.reg ⟨2, .none, false, false⟩), .bars h 5 (.reg ⟨2, .none, false, false⟩), .barw h 5, .barq h 1 5, .barqSt h 4 5,
  .qputM h 1 4 (.reg ⟨2, .none, false, false⟩), .qputV h 1 (.reg ⟨2, .none, false, false⟩) (.reg ⟨2, .none, false, false⟩),
  .task h 1 4 4, .tend h, .launch h 4 4, .join h 4 (.reg ⟨2, .none, false, false⟩),
  .joinPoll h 4 (.reg ⟨2, .none, false, false⟩), .qfireEx h 1 (.reg ⟨2, .none, false, false⟩),
  .qfireGn h 1 (.reg ⟨2, .none, false, false⟩), .qstat h 4 (.reg ⟨2, .none, false, false⟩), .qstatArg h 4 3, .vappEye h 4 4 4,
  .vappLight h 4 4 4, .vseal h .dev 1 4, .vld h .dev 1 4 4, .vcon h .dev 1 4 4, .vconAll h .dev 1 4 4, .vmrg h .dev 1 4 4,
  .vrew h 1 4 (.reg ⟨3, .none, false, false⟩), .vpin h 1 4, .vunpin h 1 4, .vframe h 4, .qnins h .dev 4 4 4,
  .qnbld h false 4 4 pb, .qnset h 4 false 1, .qnwalk h .dev 1 4 4, .qnnext h 4, .qnend h 1, .qnsum h 3 1 4, .trap h 1,
  .brk h 1, .sysr h 4 (.reg ⟨2, .none, false, false⟩), .sysw h (.reg ⟨2, .none, false, false⟩) (.reg ⟨3, .none, false, false⟩),
  .haltCtx h 1 (.reg ⟨2, .none, false, false⟩), .haltCore h 1 (.reg ⟨2, .none, false, false⟩) (.reg ⟨3, .none, false, false⟩),
  .rfe h 1 (.reg ⟨2, .none, false, false⟩) (.reg ⟨3, .none, false, false⟩), .clk h 4,
  .sleepAbs h (.reg ⟨2, .none, false, false⟩), .sleepRel h (.reg ⟨2, .none, false, false⟩),
  .mark h (.reg ⟨2, .none, false, false⟩) 1, .markAll h (.reg ⟨2, .none, false, false⟩) 1]
def forms (h : Hdr) : List Instr := forms0 h ++ forms1 h ++ forms2 h ++ forms3 h

/-- The state in which a placed instruction is about to execute. -/
def demo (i : Instr) : State := ready (State.reset.withFetchWord (8 * (encode i).length) (wordOf i))

/-- Whether an instruction comes to its own effect in a state, and its issue meets a condition. -/
def meets (i : Instr) (s : State) (p : Iss → Bool) : Bool := match issue? i s with
  | some x => p x
  | none => false

theorem meets_spec (i : Instr) (s : State) (p : Iss → Bool) : meets i s p = true ↔ ∃ x, issue? i s = some x ∧ p x = true := by
  unfold meets; cases issue? i s <;> simp

/-- Every instruction has a well-formed form that comes to its own effect, with 8 active lanes and with none: the premise `issue?` of the
statements about instructions, and their clauses about an issue with and without an active lane. -/
theorem wit_every_instruction_issues :
    (forms hd).length = 200 ∧ ((forms hd).all fun i => wellFormed i && meets i (demo i) fun x => x.act == 0xFF) = true ∧
    ((forms { hd with guard := 0 }).all fun i => meets i (demo i) fun x => x.act == 0) = true := by decide +kernel

/-- Encoding and decoding agree on a form of every instruction. -/
theorem wit_forms_round_trip :
    ((forms hd).all fun i => match decode (encode i) with
      | .ok (j, r) => decide (j = i) && r.isEmpty
      | .error _ => false) = true := by decide +kernel

/-- FloatResultsAndFlags, FencesPrefetchesAndParks: the nine forms that a statement says complete, with lanes active and with none, in the
states that meet the statement's premises. -/
theorem wit_nine_complete :
    ((forms hd).filter (fun i => match i with
      | .fflag .. | .fenceAcq .. | .fenceRel .. | .fenceSc .. | .fenceUo .. | .waitaddr .. | .wake .. | .pfL1 .. | .pfL2 .. => true
      | _ => false)).length = 9 ∧
    ([fun h => Instr.fflag h 4 7, fun h => .fenceAcq h .dev, fun h => .fenceRel h .dev, fun h => .fenceSc h .dev, fun h => .fenceUo h .dev,
      fun h => .pfL1 h ⟨8, .imm 0⟩, fun h => .pfL2 h ⟨8, .imm 0⟩, fun h => .waitaddr h ⟨.sp, .rlx, .team, 4, ⟨8, .imm 16⟩⟩,
      fun h => .wake h ⟨.sp, .rlx, .team, 4, ⟨8, .imm 16⟩⟩].all fun form =>
        meets (form hd) (demo (form hd)) (fun x => x.act != 0) && meets (form { hd with guard := 0 }) (demo (form { hd with guard := 0 })) (fun x => x.act == 0) &&
        match exec (form hd) (demo (form hd)) with
        | .next _ => true
        | _ => false) = true := by decide +kernel

/-- MovesSelectsAndAddresses: `movh` with a source of shape U, and of shape G. -/
theorem wit_movh :
    meets (.movhM hd 4 2 1) base (fun x => x.act != 0 && plainShape x.s.dev x.f 2 == .u) = true ∧
    meets (.movhH hd 4 2 1) (setv 2 (.g [1, 2]) base) (fun x => x.act != 0 && plainShape x.s.dev x.f 2 != .u) = true := by decide +kernel

/-- RoundingAndNaNs, ApproximateSpecialResults: encodings of every class the clauses name. -/
theorem wit_float_classes :
    fval .f32 false 0x3F800000 = .fin false 0x800000 (-23) ∧ fval .f32 false 0 = .fin false 0 (-149) ∧
    fval .f32 false 0x80000000 = .fin true 0 (-149) ∧ fval .f32 false 0x7F800000 = .inf false ∧ fval .f32 false 0xFF800000 = .inf true ∧
    fval .f32 false 0xBF800000 = .fin true 0x800000 (-23) ∧ fval .f32 false 0x7F800001 = .nan true ∧ fval .f32 false 0x7FC00000 = .nan false ∧
    FTy.bias .f32 * 2 ^ FTy.frac .f32 = 0x3F800000 ∧ (fval .f32 false (faddR .f32 .rn false 0x7FC00000 0).1).isNaN = true ∧
    (fval .f32 false (fmaR .f32 .f32 .rn false [(0x7FC00000, 0)] 0).1).isNaN = true ∧
    (fval .f16 false (fcvtR .f32 .f16 .rn false 0x7FC00000).1).isNaN = true := by decide +kernel

/-- PairWritesBothHalves: a pair whose halves are not `hnop`. -/
theorem wit_pair : meets (.pair hd ⟨3, 3, .rn, false, ⟨.iadd, 5, 2, 0, 3, 0⟩, ⟨.imul, 4, 2, 0, 3, 0⟩⟩) base (fun x => x.act != 0) = true := by
  decide +kernel

/-- Whether a classification is `valid`; a violation's row. -/
def isValid (c : Dest) : Bool := c == .valid

/-- A state whose first word is a landing point. -/
def landing : State := ready (State.reset.withFetchWord 96 (wordOf (.nop { hd with lp := true })))

/-- A state whose path stands at depth 1 with its frame held, and returns to the entry. -/
def called : State :=
  let s := onTh (fun _ t => { t with depth := 1, held := 1, stack := memPut [] (65536 - 16) (wordLE 0x10000) }) base
  { s with cur := s.cur.map fun c => { c with depth := 1 } }

/-- TransfersEndsAndYield: targets that are valid for each transfer; a fibre without task threads. -/
theorem wit_transfers :
    meets (.bra hd 1) base (fun x => x.act != 0 && x.act.lanes.all fun _ => isValid (classify x.s.dev x.f.core x.f.ctx x.t false (x.c.pc + 12))) = true ∧
    meets (.call hd 1) base (fun x => x.act != 0 && decide (x.f.stklim.toNat + 16 * (x.c.depth + 1) ≤ x.t.hdr.stack) &&
      x.act.lanes.all fun _ => isValid (classify x.s.dev x.f.core x.f.ctx x.t false (x.c.pc + 12))) = true ∧
    meets (.brx hd 4) (setv 4 (.u 0x10000) landing) (fun x => x.act != 0 && x.act.lanes.all fun L =>
      isValid (classify x.s.dev x.f.core x.f.ctx x.t true (inReg x 4 L))) = true ∧
    meets (.callx hd 4) (setv 4 (.u 0x10000) landing) (fun x => x.act != 0 && decide (x.f.stklim.toNat + 16 * (x.c.depth + 1) ≤ x.t.hdr.stack) &&
      x.act.lanes.all fun L => isValid (classify x.s.dev x.f.core x.f.ctx x.t true (inReg x 4 L))) = true ∧
    meets (.ret hd) called (fun x => x.act != 0 && x.c.depth != 0 && x.act.lanes.all fun L => (x.f.thread L).held != 0 &&
      isValid (classify x.s.dev x.f.core x.f.ctx x.t false (framePc x L))) = true ∧
    (base.dev.fibre? (fib base).uid).isSome = true ∧ ((List.range 8).all fun L => ((fib base).thread L).task.isNone) = true := by decide +kernel

/-- TargetsAndStackBound: each row of the classification, a stack with no room for a frame, a return at depth 0. -/
theorem wit_targets :
    let t := team base
    overlayOf t 0x20000 = none ∧ overlayOf t 0x10000 = some (0x10000, 5) ∧ overlayOf t 0x1003B = some (0x10000, 5) ∧ overlayOf t 0x1003C = none ∧
    (0x10001 - 0x10000) % 12 ≠ 0 ∧ residentAt { base.dev with residents := [] } 0 0 0x10000 = none ∧
    ((residentAt base.dev 0 0 0x10000).bind fun r => r.words[4]?).isSome = true ∧
    meets (.call hd 1) (onF (fun f => { f with stklim := 65536 }) base)
      (fun x => x.act != 0 && decide (x.t.hdr.stack < x.f.stklim.toNat + 16 * (x.c.depth + 1))) = true ∧
    meets (.callx hd 4) (onF (fun f => { f with stklim := 65521 }) base)
      (fun x => x.act != 0 && decide (x.t.hdr.stack < x.f.stklim.toNat + 16 * (x.c.depth + 1))) = true ∧
    meets (.ret hd) base (fun x => x.act != 0 && x.c.depth == 0) = true := by decide +kernel

/-- Three more fibres of the team in the other contexts of the slot. -/
def crowded : State := onD (fun d => { d with fibres := d.fibres ++ [1, 2, 3].map fun k => { fib base with uid := 90 + k, pos := k, helper := true } }) base

/-- FspawnCreatesAHelper: a violating target; a free context with and without room; no free context; the spawn's own premises. -/
theorem wit_fspawn :
    meets (.fspawn hd 1 4 1000) base (fun x => x.act != 0 &&
      classify x.s.dev x.f.core x.f.ctx x.t false (x.c.pc + 12000) == .violation 1) = true ∧
    meets (.fspawn hd 1 4 1) base (fun x => x.act != 0 && isValid (classify x.s.dev x.f.core x.f.ctx x.t false (x.c.pc + 12)) && x.f.width != 64 &&
      decide (rfBytes x.t.hdr x.t.size + (0 + 1) * x.f.width * 8 * (x.f.nAlloc - x.f.nWin) ≤ x.t.hdr.rf * 16384) &&
      (begun (.fspawn hd 1 4 1) x).fibres.all fun g => g.pos == 0) = true ∧
    meets (.fspawn hd 1 4 1) (onT (fun t => { t with hdr := { t.hdr with rf := 0 } }) base) (fun x => x.act != 0 &&
      !decide (rfBytes x.t.hdr x.t.size + (0 + 1) * x.f.width * 8 * (x.f.nAlloc - x.f.nWin) ≤ x.t.hdr.rf * 16384)) = true ∧
    meets (.fspawn hd 1 4 1) crowded (fun x => x.act != 0 && (List.range 4).all fun c => x.s.dev.fibres.any fun g => g.pos == c) = true ∧
    (base.dev.fibre? base.dev.nextId).isNone = true ∧ 0 < (team base).hdr.n ∧ (base.dev.team? (team base).uid).isSome = true ∧
    (fib base).width ≤ 64 := by decide +kernel

/-- FibreBarriers: threads without a standing arrival; a group whose live threads have all arrived, and one where they have not. -/
theorem wit_fibre_barriers :
    meets (.fbarSync hd) base (fun x => x.act != 0 && x.act.lanes.all fun L => !(x.f.thread L).fbArr) = true ∧
    (base.dev.groups.find? fun g => g.uid == (fib base).grp).isSome = true ∧ fbarComplete base.dev (fib base).grp = false ∧
    fbarComplete (onTh (fun _ t => { t with fbArr := true }) base).dev (fib base).grp = true := by decide +kernel

/-- NamedBarriers: counts inside and outside 1 to 1,024 at the ends of the range, an agreeing and a disagreeing phase, the last and an
earlier arrival. -/
theorem wit_named_barriers :
    let five := onT (fun t => { t with bars := setAt t.bars 5 { t.bar 5 with n := 5, arrived := 4 } }) base
    ((([.imm 1, .imm 1024] : List Src).all fun a => meets (.barv hd 5 a) base fun x => x.act != 0 && srcU x.s.dev x.f a &&
      decide (1 ≤ (srcZ x.s.dev x.f x.t 0 a).toNat ∧ (srcZ x.s.dev x.f x.t 0 a).toNat ≤ 1024) && (x.t.bar 5).n == 0 &&
      x.act.lanes.all fun L => !(x.f.thread L).arrd.getLsbD 5) = true) ∧
    ((([.imm 0, .imm 1025] : List Src).all fun a => meets (.bars hd 5 a) base fun x => x.act != 0 &&
      decide ((srcZ x.s.dev x.f x.t 0 a).toNat < 1 ∨ 1024 < (srcZ x.s.dev x.f x.t 0 a).toNat)) = true) ∧
    meets (.barv hd 5 (rs 4)) (setv 4 (.g [1]) base) (fun x => x.act != 0 && !srcU x.s.dev x.f (rs 4)) = true ∧
    meets (.bars hd 5 (.imm 6)) five (fun x => (x.t.bar 5).n != 0 && (x.t.bar 5).n != (srcZ x.s.dev x.f x.t 0 (.imm 6)).toNat) = true ∧
    5 < (team five).bars.length ∧ ((team five).bar 5).landed = ((team five).bar 5).joined ∧ ((team five).bar 5).arrived + 1 = 5 ∧
    ((team base).bar 5).arrived + 1 ≠ 5 := by decide +kernel

/-- The premises Passes, Unwatched and Unbusy of a memory instruction, for the lanes and the device its own checks give. -/
def passes (i : Instr) (spc : Space) (k : Ask) (addr : MAddr) (x : Iss) : Bool :=
  let order := logicalOrder x.f x.act.lanes
  let a := addrLane x.s.dev x.f addr
  let r := checkLanes x.f x.t spc (fun _ => k) a order (begun i x)
  x.act != 0 && (waitOf (checkLanes x.f x.t spc (fun _ => k) a order x.s.dev).1).isNone && badOf r.1 == [] &&
    watchLanes r.2 x.f.ctx spc (fun _ => k) (goodOf r.1) == 0 && !(goodOf r.1).any (Good.busy r.2 x.t)

theorem passes_spec (i : Instr) (spc : Space) (k : Ask) (addr : MAddr) (x : Iss) (h : passes i spc k addr x = true) :
    ∃ gs d, x.act ≠ 0 ∧ Passes i x spc k addr gs d ∧ Unwatched x spc k gs d ∧ Unbusy x gs d := by
  simp only [passes, Bool.and_eq_true, bne_iff_ne, beq_iff_eq, Bool.not_eq_true', Option.isNone_iff_eq_none] at h
  exact ⟨_, _, h.1.1.1.1, ⟨h.1.1.1.2, rfl, h.1.1.2, rfl⟩, h.1.2, h.2⟩

/-- One page at 0x0000123456780000, and `v8` at a word of it. -/
def paged : State := mapped 0x0000123456789ABC 0x0000008012340413 (setv 8 (.u 0x0000123456789AB8) base)

/-- LoadsSendOneAccessForEveryLane, StoresSendTheirBytes, AtomicsSendTheirOperands, FencesPrefetchesAndParks: accesses that pass, in each
space. -/
theorem wit_accesses :
    let sp := setv 8 (.u 0) base
    let ld := fun (spc : Space) => (⟨.r, spc, .rlx, .team, .int .n64, 4, ⟨8, .imm 0⟩⟩ : MemOp)
    let at' := fun (spc : Space) => (⟨spc, .rlx, .team, .n64, false, 4, ⟨8, .imm 0⟩⟩ : AtomOp)
    let wt := fun (spc : Space) => (⟨spc, .rlx, .team, 4, ⟨8, .imm 0⟩⟩ : WaitOp)
    ([(Space.g, paged), (.sp, sp)].all fun p =>
      meets (.ld hd (ld p.1)) p.2 (passes (.ld hd (ld p.1)) p.1 (askLoad (ld p.1)) ⟨8, .imm 0⟩) &&
      meets (.st hd (ld p.1)) p.2 (passes (.st hd (ld p.1)) p.1 (askStore false (ld p.1)) ⟨8, .imm 0⟩) &&
      meets (.atomMax hd (at' p.1)) p.2 (passes (.atomMax hd (at' p.1)) p.1 (askAtom .max (at' p.1)) ⟨8, .imm 0⟩) &&
      meets (.redAdd hd (at' p.1)) p.2 (passes (.redAdd hd (at' p.1)) p.1 (askAtom .add (at' p.1)) ⟨8, .imm 0⟩) &&
      meets (.cas hd p.1 .rlx .team .n64 4 ⟨8, .imm 0⟩) p.2
        (passes (.cas hd p.1 .rlx .team .n64 4 ⟨8, .imm 0⟩) p.1 ⟨8, true, 8, true, false, 9⟩ ⟨8, .imm 0⟩) &&
      meets (.waitaddr hd (wt p.1)) p.2 (fun x => passes (.waitaddr hd (wt p.1)) p.1 ⟨8, false, 8, true, false, 8⟩ ⟨8, .imm 0⟩ x &&
        x.s.dev.flights.isEmpty) &&
      meets (.wake hd (wt p.1)) p.2 (passes (.wake hd (wt p.1)) p.1 ⟨8, false, 8, true, false, 63⟩ ⟨8, .imm 0⟩)) = true ∧
    meets (.ld hd (ld .stk)) (setv 8 (.u 65528) base) (passes (.ld hd (ld .stk)) .stk (askLoad (ld .stk)) ⟨8, .imm 0⟩) = true ∧
    meets (.st hd (ld .stk)) (setv 8 (.u 65528) base) (passes (.st hd (ld .stk)) .stk (askStore false (ld .stk)) ⟨8, .imm 0⟩) = true ∧
    meets (.stMc hd (ld .g)) paged (fun x => passes (.stMc hd (ld .g)) .g (askStore true (ld .g)) ⟨8, .imm 0⟩ x &&
      (List.range 64).all fun L => (x.f.thread L).task.isNone) = true := by decide +kernel

/-- TranslationReportsAndInvalidation: a context number below 64, one of 64, one that is not U. -/
theorem wit_tlbi :
    meets (.tlbiCtx hd true 1 (.imm 63)) privileged (fun x => x.act != 0 && srcU x.s.dev x.f (.imm 63) &&
      decide ((srcZ x.s.dev x.f x.t 0 (.imm 63)).toNat < 64)) = true ∧
    meets (.tlbiPg hd false 1 2 (.imm 64)) privileged (fun x => x.act != 0 && srcU x.s.dev x.f (.imm 64) &&
      !decide ((srcZ x.s.dev x.f x.t 0 (.imm 64)).toNat < 64)) = true ∧
    meets (.tlbiCtx hd true 1 (rs 4)) (setv 4 (.g [1]) privileged) (fun x => x.act != 0 && !srcU x.s.dev x.f (rs 4)) = true ∧
    meets (.tlbiAll hd true 1) privileged (fun x => x.act != 0) = true := by decide +kernel

/-- AddressChecksAndPartialFaults: misaligned; at the scratchpad's end and one past it; at the stack's two ends and past them; an unmapped
page; an instruction with a faulting lane beside passing ones. -/
theorem wit_address_rows :
    let f := fib base
    let t := team base
    let k : Ask := ⟨8, false, 8, true, false, 8⟩
    let o : MemOp := ⟨.r, .sp, .rlx, .team, .int .n64, 4, ⟨8, .imm 0⟩⟩
    let s := setv 8 (.g [0, 8, 0x10000, 24, 0x10000, 0, 0, 0]) base
    (4 % k.align ≠ 0) ∧ (16376 % k.align = 0 ∧ 16376 + k.n ≤ spBytes t) ∧ (spBytes t < 16384 + k.n) ∧
    (f.stklim.toNat ≤ 0 ∧ 65528 + k.n ≤ t.hdr.stack) ∧ (t.hdr.stack < 65536 + k.n) ∧
    (translateAll 0 0 ⟨false, false⟩ 2 base.dev 0x1000 8).1 = .fault 1 0x1000 ∧
    meets (.ld hd o) s (fun x => x.act != 0 &&
      let a := addrLane x.s.dev x.f o.addr
      let r := checkLanes x.f x.t .sp (fun _ => askLoad o) a (logicalOrder x.f x.act.lanes) (begun (.ld hd o) x)
      (waitOf (checkLanes x.f x.t .sp (fun _ => askLoad o) a (logicalOrder x.f x.act.lanes) x.s.dev).1).isNone &&
      (badOf r.1).map LaneFault.lane == [2, 4] &&
      (sendLoads x r.2 .sp 8 (.load o.t o.size) o.ord o.sc [4] (goodOf r.1)).isSome) = true := by decide +kernel

/-- One live lane, and the path of it alone. -/
def single (s : State) : State :=
  let s := onTh (fun L t => { t with life := if L = 0 then .live else .empty }) s
  { s with cur := s.cur.map fun c => { c with lanes := 1 } }

/-- The first flight that stands after an instruction. -/
def flight (t : State) : Option Flight := t.dev.flights.head?

/-- AccessesPerformAtTheirHomes: a load, stores of an RC and of a UO page, and a read-modify-write that may perform. -/
theorem wit_performs :
    let mo : MemOp := ⟨.r, .g, .rlx, .dev, .int .n64, 4, ⟨8, .imm 0⟩⟩
    let uo := single (mapped 0x0000123456789ABC 0x0000008012340493 (setv 8 (.u 0x0000123456789AB8) base))
    let ok := fun (t : State) (p : Flight → Bool) => match flight t with
      | some g => p g && mayPerform t.dev g && t.dev.holds.isEmpty && (t.dev.fibre? g.fib).isSome
      | none => false
    ok (aft (.ld hd mo) paged) (fun g => g.kind == .load (.int .n64) .r && decide ((g.acc.map LaneAcc.lane).Nodup) && g.dst == [4] &&
      decide (4 < (fib paged).regs.length) && !(fib paged).isWindow 4) = true ∧
    ok (aft (.st hd mo) paged) (fun g => g.kind == .store [] && g.acc.all fun a => a.kinds.all fun k => k < 8 && k % 4 != 2) = true ∧
    ok (aft (.st hd mo) uo) (fun g => g.kind == .store [] && !g.through && g.acc.all fun a => a.kinds.all fun k => k < 8 && k % 4 == 2) = true ∧
    ok (aft (.redAdd hd ⟨.g, .rlx, .dev, .n64, false, 4, ⟨8, .imm 0⟩⟩) (single paged)) (fun g => g.kind == .red .add .n64 false &&
      match g.acc with
      | [a] => a.places == (List.range 8).map (fun k => .phys (0x8012349AB8 + k)) && a.kinds.length == 8 &&
          a.kinds.all fun k => k % 4 != 2 && k < 8
      | _ => false) = true := by decide +kernel

/-- An open stream of 4 elements, two of them in its FIFO. -/
def stream (write : Bool) : Stream :=
  { write := write, base := 0, index := 0, count := 4, size := 3, form := 2, scratch := true, pos := 0, fifo := [1, 2], prog := 2, stop := none,
    closing := false, after := [], afterW := [], since := 0, lanes := 0, know := [], besides := ⟨[], [], []⟩, event := 0, buf := [] }

/-- StreamsComputedRegistersAndShapes: legal and illegal descriptions, streams open for reading and writing, indices at and below A, and
an empty and a full set of live lanes' values. -/
theorem wit_streams_and_computed :
    let withSt := fun (st : Stream) => onF (fun f => { f with streams := setAt f.streams 1 (some st) }) base
    let desc := setv 6 (.u 4) (setv 7 (.u 0x1B) base)
    let bad := setv 7 (.u 0x0C) base
    let ris := { stream false with fifo := [1, 2, 3, 4] }
    meets (.sopenR hd 1 4) desc (fun x => x.act != 0 && (streamDesc (begun (.sopenR hd 1 4) x) (begunFib (.sopenR hd 1 4) x) false 4 x.act).isSome && (x.f.stream 1).isNone) = true ∧
    meets (.sopenR hd 1 4) (onF (fun f => { f with streams := setAt f.streams 1 (some ris) }) desc) (fun x => x.act != 0 &&
      (x.f.stream 1).any fun st => !st.write) = true ∧
    meets (.sopenW hd 1 4) bad (fun x => x.act != 0 && (streamDesc (begun (.sopenW hd 1 4) x) (begunFib (.sopenW hd 1 4) x) true 4 x.act).isNone) = true ∧
    meets (.snext hd 4 1) (withSt ris) (fun x => x.act != 0 && match x.f.openStream 1 with
      | some st => !st.write && decide (min x.act.lanes.length (st.count - st.pos) ≤ st.fifo.length)
      | none => false) = true ∧
    meets (.snext hd 4 1) base (fun x => x.act != 0 && (x.f.openStream 1).isNone) = true ∧
    meets (.sput hd 1 4) (withSt (stream true)) (fun x => x.act != 0 && match x.f.openStream 1 with
      | some st => st.write && st.stop.isNone && decide (st.fifo.length + min x.act.lanes.length (st.count - st.pos) ≤ 64)
      | none => false) = true ∧
    meets (.sclose hd 1 1) (withSt (stream true)) (fun x => x.act != 0 && (x.f.openStream 1).any fun st => st.write && st.stop.isNone) = true ∧
    meets (.sclose hd 1 1) (withSt ris) (fun x => x.act != 0 && (x.f.openStream 1).any fun st => !st.write) = true ∧
    meets (.sclose hd 1 1) base (fun x => x.act != 0 && (x.f.openStream 1).isNone) = true ∧
    meets (.rxld hd 4 (.imm 127)) base (fun x => x.act != 0 && !x.f.chk && x.act.lanes.all fun L =>
      !decide (min x.f.nAlloc 255 ≤ (riVal x.s.dev x.f L (.imm 127)).toNat) && !regPending x.s.dev x.f 127) = true ∧
    meets (.rxst hd (.imm 127) 4) base (fun x => x.act != 0 && x.act.lanes.all fun L =>
      !decide (min x.f.nAlloc 255 ≤ (riVal x.s.dev x.f L (.imm 127)).toNat) && !wawReg x.f x.c.lanes x.s.clk.cycle 127 0) = true ∧
    meets (.rxst hd (.reg 9) 4) (setv 9 (.g [0, 0, 128]) base) (fun x => x.act != 0 && x.act.lanes.any fun L =>
      decide (min x.f.nAlloc 255 ≤ (riVal x.s.dev x.f L (.reg 9)).toNat)) = true ∧
    (fib base).live ≠ 0 ∧ ((fib base).live.lanes.all fun L => regLane base.dev (fib base) 3 L == 0) = true := by decide +kernel

/-- A record of one granule of `f16` at granule 0 (R204). -/
def record : Word := 0x100100

/-- TilesReservationsAndConvergence: records that fit and that do not, a free and a taken handle, tile addresses that pass, counts at the
ends of 1 to 1,024, idle and armed registers, a signature that finds its set. -/
theorem wit_tiles :
    let r := setv 4 (.u record) base
    let taken := onT (fun t => { t with handles := setAt t.handles 1 (some ⟨record, 1, 16⟩) }) r
    let armed := onT (fun t => { t with cvs := setAt t.cvs 2 (.armed (some 8) [] [] none []) }) base
    let o : TileMem := ⟨.sp, .rlx, .team, 1, ⟨8, .imm 0⟩⟩
    let low := fun (i : Instr) (w : Bool) (x : Iss) =>
      let k := askTile w
      let a := addrLane x.s.dev x.f o.addr
      let c := checkLanes x.f x.t .sp (fun _ => k) a [(lowestLane x.act).getD 0] (begun i x)
      x.act != 0 && plainShape x.s.dev x.f 8 == .u && riU x.s.dev x.f (.imm 0) &&
      (waitOf (checkLanes x.f x.t .sp (fun _ => k) a [(lowestLane x.act).getD 0] x.s.dev).1).isNone && badOf c.1 == [] &&
      watchLanes c.2 x.f.ctx .sp (fun _ => k) (goodOf c.1) == 0 &&
      if w then (sendStores x c.2 .sp .rlx .team (goodOf c.1) (fun _ => memBytes x.t.tile 4096 4096)).isSome
      else (sendLoads x c.2 .sp 4096 (.accld 1) .rlx .team [] (goodOf c.1)).isSome
    meets (.plres hd 1 1 4) r (fun x => x.act != 0 && plainShape x.s.dev x.f 4 == .u && recordOk x.t.hdr.pallet (inReg x 4 0) &&
      (handleOf x.t 1).isNone && x.t.handles.all Option.isNone) = true ∧
    meets (.plres hd 1 2 4) taken (fun x => x.act != 0 && recordOk x.t.hdr.pallet (inReg x 4 0) &&
      x.t.handles.any fun g => g.any fun g => recOverlap g.record (inReg x 4 0)) = true ∧
    meets (.plres hd 1 1 4) base (fun x => x.act != 0 && plainShape x.s.dev x.f 4 == .u && !recordOk x.t.hdr.pallet (inReg x 4 0)) = true ∧
    meets (.plrel hd 1) taken (fun x => x.act != 0 && (handleOf x.t 1).isSome) = true ∧
    meets (.accld hd o) base (low (.accld hd o) false) = true ∧ meets (.accst hd o) base (low (.accst hd o) true) = true ∧
    ((([.imm 1, .imm 1024] : List Src).all fun a => meets (.cvsetN hd 2 a) base fun x => x.act != 0 && srcU x.s.dev x.f a &&
      decide (1 ≤ (srcZ x.s.dev x.f x.t 0 a).toNat ∧ (srcZ x.s.dev x.f x.t 0 a).toNat ≤ 1024) && x.t.cv 2 == .idle) = true) ∧
    ((([.imm 0, .imm 1025] : List Src).all fun a => meets (.cvsetN hd 2 a) base fun x => x.act != 0 &&
      decide ((srcZ x.s.dev x.f x.t 0 a).toNat < 1 ∨ 1024 < (srcZ x.s.dev x.f x.t 0 a).toNat)) = true) ∧
    meets (.cvsetF hd 2) base (fun x => x.act != 0 && x.t.cv 2 == .idle) = true ∧
    meets (.cvsign hd 2) armed (fun x => x.act != 0 && !((logicalOrder x.f x.act.lanes).foldl (signLane x 2 none fun _ => [])
      (begun (.cvsign hd 2) x, [])).2.isEmpty) = true := by decide +kernel

/-- MatrixOperations: a live `f16` handle with a B tile inside it; an operand that is not U and one outside; a signature that is the last of
its set or not; `mma.shape` with legal strides and with none; an operation whose time is over. -/
theorem wit_matrix :
    let held := onT (fun t => { t with handles := setAt t.handles 1 (some ⟨record, 1, 16⟩) }) base
    let armed := onT (fun t => { t with cvs := setAt t.cvs 2 (.armed (some 8) [] [] none []) }) held
    let i : Instr := .mma hd ⟨.f16, false, 1, 4, .imm 1⟩
    let o : MmaOp := ⟨.f16, false, 1, 4, .imm 1⟩
    let sh : ParamBlock := ⟨.lit 16, .lit 32, .lit 0, .lit 0, .lit 1, .lit 16, .lit 0, .lit 0, 0x108, .lit 0, .lit 0⟩
    let t := aft i held
    meets i held (fun x => x.act != 0 && riU x.s.dev x.f o.b && (aGroup x (begunMma i x) o).isSome &&
      (bCheck x x.t o.t (riVal x.s.dev x.f 0 o.b)).isNone) = true ∧
    meets i base (fun x => (bCheck x x.t o.t (riVal x.s.dev x.f 0 o.b)).isSome) = true ∧
    meets (.mma hd { o with b := .reg 9 }) (setv 9 (.g [1]) held) (fun x => x.act != 0 && !riU x.s.dev x.f (.reg 9)) = true ∧
    meets (.mmaCv hd 2 o) armed (fun x => x.act != 0 && riU x.s.dev x.f o.b && match aGroup x (begunMma (.mmaCv hd 2 o) x) o with
      | some (rows, f') => (x.act.lanes.any fun L => canSign (x.t.cv 2) (logicalOf x.f L)) && (bCheck x x.t o.t 1).isNone &&
          !((logicalOrder x.f x.act.lanes).foldl (signLane x 2 (some ⟨1, .f16, false, 1, x.c.pc, x.f.quad⟩) rows)
            ((begunMma (.mmaCv hd 2 o) x).setFibre f', [])).2.isEmpty
      | none => false) = true ∧
    meets (.mmaShape hd 1 sh) held (fun x => x.act != 0 && (handleOf x.t 1).isSome && (resolveShape (begun (.mmaShape hd 1 sh) x)
      (begunFib (.mmaShape hd 1 sh) x) sh).any fun r => mmaShapeOk r sh record) = true ∧
    meets (.mmaShape hd 1 sh) base (fun x => x.act != 0 && (handleOf x.t 1).isNone) = true ∧
    ((team t).mmas.map fun m => (m.ta, decide (m.ready ≤ t.clk.cycle))) = [(1, false)] ∧
    ((team { t with clk := { t.clk with cycle := 1000 } }).mmas.all fun m => m.ready ≤ 1000 && !m.held) = true ∧
    (t.dev.team? (team t).uid).isSome = true := by decide +kernel

/-- TrowelCommandsEnterTheQueue: a legal command with a barrier, one of no elements, a group that is not U, an extent above 2^40. -/
theorem wit_trowel :
    let none' : ParamBlock := { pb with s0 := .mark 12 }
    let ok := fun (b : ParamBlock) (i : Instr) (x : Iss) => x.act != 0 && groupU x.s.dev x.f 4 3 &&
      (resolveShape (begun i x) (begunFib i x) b).isSome && (spaceFault x x.t .sp 0).isNone
    ([pb, none'].all fun b => meets (.cpy hd ⟨.sp, .sp, some 2, 4, b⟩) base (ok b (.cpy hd ⟨.sp, .sp, some 2, 4, b⟩)) &&
      meets (.gth hd ⟨.sp, .g, none, 4, b⟩) base (ok b (.gth hd ⟨.sp, .g, none, 4, b⟩)) &&
      meets (.sct hd ⟨.g, .sp, some 0, 4, b⟩) base (ok b (.sct hd ⟨.g, .sp, some 0, 4, b⟩))) = true ∧
    meets (.cpy hd ⟨.sp, .sp, some 2, 4, none'⟩) (setv 12 (.u 0x10000000001) base) (fun x => x.act != 0 &&
      (resolveShape x.s.dev x.f none').isNone) = true ∧
    meets (.cpy hd ⟨.sp, .sp, some 2, 4, pb⟩) (setv 5 (.g [1]) base) (fun x => x.act != 0 && !groupU x.s.dev x.f 4 2) = true := by decide +kernel

/-- PublicationFlipsTheCoveredShadow: a legal range at both ends of its length, a taken number and an overlap, illegal ranges, a mask that is
legal and one with a high bit. -/
theorem wit_publication :
    let legal := fun (x : Iss) => groupU x.s.dev x.f 4 2 && (inReg x 4 0).toNat % 64 == 0 && (regLane x.s.dev x.f 5 0).toNat % 64 == 0 &&
      decide (64 ≤ (regLane x.s.dev x.f 5 0).toNat ∧ (regLane x.s.dev x.f 5 0).toNat ≤ 2 ^ 26)
    (([64, 0x4000000] : List Word).all fun n => meets (.pubReg hd 1 4 3) (setv 5 (.u n) base) fun x => x.act != 0 && legal x &&
      x.t.bufs.all Option.isNone) = true ∧
    (([0, 32, 0x4000040] : List Word).all fun n => meets (.pubReg hd 1 4 3) (setv 5 (.u n) base) fun x => x.act != 0 && !legal x) = true ∧
    meets (.pubReg hd 1 4 3) (onT (fun t => { t with bufs := setAt t.bufs 2 (some (0, 128)) }) (setv 5 (.u 64) base)) (fun x => x.act != 0 &&
      legal x && x.t.bufs.any fun b => b.any fun b => decide (0 < b.1.toNat + b.2)) = true ∧
    meets (.pub hd .dev (.imm 1)) base (fun x => x.act != 0 && srcU x.s.dev x.f (.imm 1) &&
      field (srcZ x.s.dev x.f x.t 0 (.imm 1)) 32 32 == 0 && x.t.shadow.isEmpty) = true ∧
    meets (.pub hd .dev (rs 4)) (setv 4 (.u 0x100000000) base) (fun x => x.act != 0 && srcU x.s.dev x.f (rs 4) &&
      field (srcZ x.s.dev x.f x.t 0 (rs 4)) 32 32 != 0) = true ∧
    meets (.pub hd .dev (rs 4)) (setv 4 (.g [1]) base) (fun x => x.act != 0 && !srcU x.s.dev x.f (rs 4)) = true := by decide +kernel

/-- A descriptor of an Open queue of a kind with room for 4 entries (R233). -/
def qdesc (kind : Nat) : List Word := [BitVec.ofNat 64 (kind + 0x40 + 0x40000), 0, 0, 0, 0, 0, 0, 0]

/-- Context 0 with its queue 9 of a kind. -/
def queued (kind : Nat) : State := onC (fun x => { x with queues := [(9, { (default : Queue) with desc := some (qdesc kind) })] }) base

/-- A legal packet of 4 teams of 8 threads, with its header at `hdr` (R237). -/
def packet (hdr : Word) : List Word := [0x400000001, hdr, 8] ++ List.replicate 13 0

/-- All lanes' threads are done with their accesses. -/
def quiet (i : Instr) (x : Iss) : Bool := (List.range 64).all fun L => laneOver (begun i x) x.f.uid L

/-- A task a thread runs. -/
def aTask (retries : Nat) : TaskSt := ⟨9, 0, 0, [], retries, true, true, true, []⟩

/-- AppendsAreOneStep: queue numbers at and past 255, operands that are not U, threads of tasks and not, open queues of every kind with
room, records that fit them, and one that does not. -/
theorem wit_appends :
    let tasks := onTh (fun _ t => { t with task := some (aTask 1) }) base
    let okQ := fun (i : Instr) (q : Src) (x : Iss) => x.act != 0 && srcU x.s.dev x.f q && decide ((srcZ x.s.dev x.f x.t 0 q).toNat < 256) && quiet i x
    meets (.qputV hd 1 (rs 4) (.imm 255)) (queued 3) (okQ (.qputV hd 1 (rs 4) (.imm 255)) (.imm 255)) = true ∧
    meets (.qputV hd 1 (rs 4) (.imm 256)) base (fun x => x.act != 0 && decide (256 ≤ (srcZ x.s.dev x.f x.t 0 (.imm 256)).toNat)) = true ∧
    meets (.qputM hd 1 4 (rs 5)) (setv 5 (.g [1]) base) (fun x => x.act != 0 && !srcU x.s.dev x.f (rs 5)) = true ∧
    meets (.task hd 1 4 16) (setv 5 (.u 9) (queued 2)) (fun x => x.act != 0 && groupU x.s.dev x.f 5 1 && quiet (.task hd 1 4 16) x &&
      decide ((regLane x.s.dev x.f 5 0).toNat < 256)) = true ∧
    meets (.task hd 1 4 16) (setv 5 (.u 256) base) (fun x => x.act != 0 && decide (256 ≤ (regLane x.s.dev x.f 5 0).toNat)) = true ∧
    meets (.qputM hd 1 8 (.imm 9)) (onC (fun x => { x with queues := (queued 3).dev.ctx 0 |>.queues }) paged) (fun x =>
      let i : Instr := .qputM hd 1 8 (.imm 9)
      let kind := ((x.s.dev.ctx x.f.ctx).queue 9).kind
      let k := fun L => (⟨recordBytes (begun i x) (begunFib i x) kind (inReg x 8 L), false, 8, true, false, 8⟩ : Ask)
      let r := checkLanes x.f x.t .g k (fun L => inReg x 8 L) (x.order (begun i x)) (begun i x)
      okQ i (.imm 9) x && kind == 3 && (waitOf (checkLanes x.f x.t .g k (fun L => inReg x 8 L) (x.order (begun i x)) x.s.dev).1).isNone &&
        badOf r.1 == [] && x.s.dev.ctxs.all fun c => c.wctl == [0, 0, 0, 0]) = true ∧
    meets (.tend hd) tasks (fun x => x.act != 0 && x.act.lanes.all fun L => (x.f.thread L).task.isSome) = true ∧
    meets (.tend hd) base (fun x => x.act.lanes.any fun L => (x.f.thread L).task.isNone) = true ∧
    (([(1, packet 0), (2, [0]), (3, [15])] : List (Nat × List Word)).all fun p =>
      let q := ((queued p.1).dev.ctx 0).queue 9
      q.kind == p.1 && q.isOpen && queueRoom (queued p.1).dev 0 9 q && recordFits p.1 true p.2 &&
        (appendRec 0 (queued p.1).dev 0 9 (some 0) [] p.2).1) = true ∧
    (appendRec 0 (queued 3).dev 0 9 (some 0) [] [16]).1 = false ∧ 0 < (queued 3).dev.ctxs.length ∧
    dispatches { (queued 3).dev.ctx 0 with state := .destroyed } = false := by decide +kernel

/-- LaunchesJoinsAndQueueStatus: a leader's packet that passes; an operand for `qfire.ex` and `qstat`; a child that exists, is another's, is
running, retired and refused. -/
theorem wit_launches :
    let at8 := fun (w : Word) => mapped 0x0000123456789ABC 0x0000008012340413 (setv 8 (.u w) base)
    let g : Grid := ⟨0, 5, [], (team base).hdr, 1, [], 0, 0, [], some (team base).lid, none, false, false, none, none, none, false, [], []⟩
    let with' := fun (g : Grid) => { base.dev with grids := [g] }
    meets (.launch hd 4 8) (at8 0x0000123456789AB8) (fun x =>
      let i : Instr := .launch hd 4 8
      let k : Ask := ⟨128, false, 8, true, false, 8⟩
      let ls := (x.order (begun i x)).filter (leads x.f)
      let c := checkLanes x.f x.t .g (fun _ => k) (fun L => inReg x 8 L) ls (begun i x)
      x.act != 0 && ls == [0] && quiet i x && (waitOf (checkLanes x.f x.t .g (fun _ => k) (fun L => inReg x 8 L) ls x.s.dev).1).isNone &&
        badOf c.1 == [] && (goodOf c.1).length == 1) = true ∧
    (([.imm 255] : List Src).all fun q => meets (.qfireEx hd 1 q) (queued 3) (fun x => x.act != 0 && srcU x.s.dev x.f q &&
      decide ((srcZ x.s.dev x.f x.t 0 q).toNat < 256)) && meets (.qstat hd 4 q) (queued 3) fun x => x.act != 0 && srcU x.s.dev x.f q) = true ∧
    meets (.qstat hd 4 (.imm 256)) base (fun x => x.act != 0 && decide (256 ≤ (srcZ x.s.dev x.f x.t 0 (.imm 256)).toNat)) = true ∧
    (base.dev.fibre? (fib base).uid).isSome = true ∧ (base.dev.team? (fib base).team).isSome = true ∧
    base.dev.grid? 0 5 = none ∧ joinAnswer (with' g) (fib base).uid 0 5 = 0 ∧ joinAnswer (with' { g with retired := true }) (fib base).uid 0 5 = 1 ∧
    joinAnswer (with' { g with retired := true, refused := true }) (fib base).uid 0 5 = 2 ∧
    joinAnswer (with' { g with parent := some 7 }) (fib base).uid 0 5 = 3 ∧
    (((queued 3).dev.ctx 0).queue 9).dropped < 65536 ∧ (((queued 3).dev.ctx 0).queue 9).kind < 16 := by decide +kernel

/-- A root record in slot 3 of Quarter 0, sealed or of the fibre. -/
def vertex (st : VState) : Vertex := ⟨0, 3, 0, [0, 0, 0, 0, 0, 0, 0, 0], st, false, .dev, (0, 0), []⟩

/-- The base state's device with one vertex. -/
def withVertex (st : VState) : Dev := { base.dev with vertices := [vertex st] }

/-- MortarInstructions, VertexRecords: a lane that is done with its accesses; a live and a stale handle, another fibre's and the own
unsealed record, a sealed one, growth counts at the ends of their range, a full and an empty pin, a free slot, a vertex that may retire. -/
theorem wit_vertices :
    let d := withVertex .sealed
    let h := handleWord d (vertex .sealed)
    meets (.vseal hd .dev 1 4) base (fun x => x.act != 0 && quiet (.vseal hd .dev 1 4) x) = true ∧
    (vertexOf d 0 h).isSome = true ∧ vertexOf d 0 0 = none ∧ vertexOf d 1 h = none ∧ vertexOf (reclaim d (vertex .sealed)) 0 h = none ∧
    (vertex .sealed).frame < 65536 ∧ slotGen d 0 3 = 1 ∧ vertexAt d 0 3 = some (vertex .sealed) ∧
    (vertexOf (withVertex (.unsealed 77)) 0 h).map Vertex.state = some (.unsealed 77) ∧
    (vertexOf (withVertex (.unsealed (fib base).uid)) 0 h).map Vertex.state = some (.unsealed (fib base).uid) ∧
    (vertex .sealed).pin = 0 ∧ (vertex .sealed).child = false ∧ (vertex .sealed).depth < 255 ∧ (vertex .sealed).light = false ∧
    (d.ctx 0).frame < 65536 ∧
    (({ d.ctx 0 with frame := 1 } : Ctx).mwin < (1 + 65536 - (vertex .sealed).frame) % 65536) ∧
    (meets (.vappEye hd 4 8 255) base fun x => x.act != 0) = true := by decide +kernel

/-- A slot is free in an empty store, whichever the free value names. -/
theorem wit_free_slot : ∃ n, freeVertex base.dev 0 = some n := by
  have h : base.dev.vertices = [] := by decide +kernel
  simp [freeVertex, slotFrom, vertexAt, h]

/-- VertexRecords: a store with its 1,048,576 places taken by sealed records. -/
theorem wit_full_store : ∃ d : Dev, let held := d.vertices.filter fun v => v.quarter == 0 && !v.spilled
    1048576 ≤ held.length ∧ held.find? Vertex.isSealed = some (vertex .sealed) := by
  refine ⟨{ base.dev with vertices := List.replicate 1048576 (vertex .sealed) }, ?_⟩
  have h : (List.replicate 1048576 (vertex .sealed)).filter (fun v => v.quarter == 0 && !v.spilled) = List.replicate 1048576 (vertex .sealed) := by
    rw [List.filter_replicate]; rfl
  simp only [h, List.length_replicate, Nat.le_refl, true_and, List.find?_replicate]
  rfl

/-- A tree of context 0 with one key, and its handle. -/
def tree : QTree := insertKey ⟨50, 0, 7, 0, 0, false, 3, 0, 0, [], [], [], []⟩ ⟨[0x3F800000, 0, 0], []⟩
def planted : State := onD (fun d => { d with trees := [tree] }) base

/-- A walk of it that has an item. -/
def walking : WalkSt := walkOn (fun _ _ => []) 4 (startWalk base.dev (fib base) 0 .dev tree [0, 0, 0])

/-- TreeInstructions, TreeInsertsAndWalks: legal and illegal settings, groups within and beyond the file, lanes with an item, a live and a
stale handle, a finite and an infinite key. -/
theorem wit_trees :
    let h := treeHandle tree
    let s := setv 4 (.u h) planted
    let w := onTh (fun _ t => { t with walk := some walking }) planted
    let fin := fun (n : Nat) => if n = 0 then (0x3F8000003F800000 : Word) else 0
    let inf := fun (n : Nat) => if n = 0 then (0x7F800000 : Word) else 0
    let legal := fun (x : Iss) => groupU x.s.dev x.f 4 1 && openOk (BitVec.ofNat 32 (sub (inReg x 4 0) 32 0)) &&
      openOk (BitVec.ofNat 32 (sub (inReg x 4 0) 32 1))
    let grp := fun (i : Instr) (a : Reg) (x : Iss) => x.act != 0 && decide (a.toNat + 2 ≤ x.f.nAlloc) && !x.f.chk && quiet i x &&
      x.act.lanes.all (fun L => (treeOf x.s.dev x.f.ctx (inReg x 4 L)).isSome) && (regGroup a 2).all fun r => !regPending x.s.dev x.f r
    meets (.qnset hd 4 false 9) base (fun x => x.act != 0 && legal x) = true ∧
    meets (.qnset hd 4 false 9) (setv 4 (.u 0xBF800000) base) (fun x => x.act != 0 && !legal x) = true ∧
    meets (.qnins hd .dev 6 126 4) s (grp (.qnins hd .dev 6 126 4) 126) = true ∧
    meets (.qnwalk hd .dev 1 126 4) s (grp (.qnwalk hd .dev 1 126 4) 126) = true ∧
    meets (.qnins hd .dev 6 127 4) s (fun x => x.act != 0 && (treeOf x.s.dev x.f.ctx h).any fun t => decide (x.f.nAlloc < 127 + insertRegs t)) = true ∧
    meets (.qnnext hd 4) w (fun x => x.act != 0 && x.act.lanes.all fun L => walkReady (x.f.thread L)) = true ∧
    meets (.qnend hd 1) w (fun x => x.act != 0 && x.act.lanes.all fun L => walkReady (x.f.thread L)) = true ∧
    treeOf planted.dev 0 h = some tree ∧ treeOf planted.dev 0 (h + 0x400) = none ∧
    (groupKey tree fin).all qFinite = true ∧ (groupKey tree inf).all qFinite = false ∧ tree.keys.length < 2 ^ 32 - 1 ∧
    walking.fifo.length = 1 ∧ (startWalk base.dev (fib base) 0 .dev tree []).stack = [(0, 0)] ∧
    (planted.dev.fibre? (fib planted).uid).isSome = true := by decide +kernel

/-- There is room for one more node, and for a build of one key, whatever the free number of nodes. -/
theorem wit_tree_room : storeFull planted.dev tree.home 1 = false := by
  have h : ((planted.dev.trees.filter fun t => t.home == tree.home).map fun t => t.nodes.length).foldl (· + ·) 0 = 1 := by decide +kernel
  have h' : lostEntries planted.dev (5 + tree.home) = 0 := by decide +kernel
  simp only [storeFull, h, h', decide_eq_false_iff_not]
  omega

/-- A build of one key whose turn has come and whose keys have been read. -/
def build : Build :=
  { id := 60, core := 0, entry := 0, team := (team base).uid, ctx := 0, fib := (fib base).uid, lid := 0, teamIdx := 0, first := 0, pc := 0, path := 0xFF,
    lanes := 0xFF, dst := 255, full := true, scratch := false, config := 0x600, keyA := 0, payA := 0, count := 1, strideK := 1, strideD := 1, fmt := 10,
    after := [], prog := 1, keys := [⟨[0x3F800000, 0, 0], []⟩], state := .queued, know := [], besides := ⟨[], [], []⟩, acqs := [], buf := [] }

/-- TreeInstructions, TreeInsertsAndWalks: `qnbld` with a legal configuration and shape, and a build that completes. -/
theorem wit_build :
    let sh : ParamBlock := ⟨.lit 3, .lit 9, .lit 0, .lit 0, .lit 1, .lit 3, .lit 0, .lit 0, 0x10A, .lit 0, .lit 0⟩
    let d := { base.dev with builds := [build] }
    meets (.qnbld hd false 8 4 sh) (setv 6 (.u 0x600) base) (fun x => x.act != 0 && groupU x.s.dev x.f 4 3 && configOk (regLane x.s.dev x.f 6 0) &&
      (resolveShape (begun (.qnbld hd false 8 4 sh) x) (begunFib (.qnbld hd false 8 4 sh) x) sh).any fun r => bldShapeOk 0x600 sh r) = true ∧
    meets (.qnbld hd false 8 4 sh) base (fun x => x.act != 0 && !configOk (regLane x.s.dev x.f 6 0)) = true ∧
    (d.builds.find? fun k => k.id == 60) = some build ∧ (d.team? build.team).isSome = true ∧ build.count = build.prog ∧
    (d.fibre? build.fib).isSome = true ∧ build.ctx < d.ctxs.length ∧
    (build.keys.all fun k => k.vals.all qFinite && k.pay.all qFinite) = true ∧
    (buildTree (emptyTree d.nextId 1 build) build.keys).nodes.length = 1 := by decide +kernel

/-- A page after that of `paged`, and `v8` 16 bytes below their boundary. -/
def twoPages : State :=
  onD (fun d => { d with mem := memPut d.mem (0x60000 + 8 * field (0x0000123456790000 : Word) 16 13) (wordLE 0x0000008012350413) })
    (setv 8 (.u 0x000012345678FFF0) paged)

/-- A task thread whose buffer holds a byte. -/
def buffered (s : State) : State := onTh (fun _ t => { t with task := some { aTask 1 with buf := [⟨0, 0, [.phys 7], [0], [1], [], [], []⟩] } }) s

/-- LoadsSendOneAccessForEveryLane, StoresSendTheirBytes: lanes whose accesses straddle a page boundary (R155). -/
theorem wit_straddles :
    let o : MemOp := ⟨.r4, .g, .rlx, .team, .int .n64, 4, ⟨8, .imm 0⟩⟩
    let far := fun (i : Instr) (k : Ask) (x : Iss) =>
      let c := checkLanes x.f x.t .g (fun _ => k) (addrLane x.s.dev x.f o.addr) (logicalOrder x.f x.act.lanes) (begun i x)
      passes i .g k o.addr x && ((goodOf c.1).map fun g => g.acc [] []).all LaneAcc.straddles
    meets (.ld hd o) twoPages (far (.ld hd o) (askLoad o)) = true ∧
    meets (.st hd o) twoPages (far (.st hd o) (askStore false o)) = true := by decide +kernel

/-- AppendsAreOneStep, LaunchesJoinsAndQueueStatus: threads whose tasks buffer stores, and threads whose tasks do not. -/
theorem wit_buffering :
    meets (.qputV hd 1 (rs 4) (.imm 255)) (buffered (queued 3)) (fun x => x.act != 0 && srcU x.s.dev x.f (.imm 255) && buffering x.f x.act) = true ∧
    meets (.qputM hd 1 8 (.imm 9)) (buffered (queued 3)) (fun x => x.act != 0 && srcU x.s.dev x.f (.imm 9) && buffering x.f x.act) = true ∧
    meets (.task hd 1 4 16) (buffered (setv 5 (.u 9) (queued 2))) (fun x => x.act != 0 && groupU x.s.dev x.f 5 1 && buffering x.f x.act) = true ∧
    meets (.launch hd 4 8) (buffered base) (fun x => x.act != 0 && buffering x.f x.act) = true ∧
    meets (.launch hd 4 8) base (fun x => !buffering x.f x.act) = true := by decide +kernel

/-- MortarInstructions: a path that has and one that has not advanced the frame in this cycle. -/
theorem wit_frame :
    meets (.vframe hd 4) base (fun x => x.act != 0 && (framedBy x x.s.dev).isNone) = true ∧
    meets (.vframe hd 4) (onD (fun d => { d with framed := [⟨0, 0, 0, 0, 0x10000, 0, 5⟩] }) base)
      (fun x => x.act != 0 && framedBy x x.s.dev == some 5) = true := by decide +kernel

/-- TreeInstructions: a group that would hold `vz`. -/
theorem wit_vz_groups :
    let s := onF (fun f => { f with nAlloc := 255, nPriv := 255 }) (setv 4 (.u (treeHandle tree)) planted)
    meets (.qnins hd .dev 6 254 4) s (fun x => x.act != 0 && (treeOf x.s.dev x.f.ctx (treeHandle tree)).any fun t => decide (255 < 254 + insertRegs t)) = true ∧
    meets (.qnwalk hd .dev 1 254 4) s (fun x => x.act != 0 && (treeOf x.s.dev x.f.ctx (treeHandle tree)).any fun t => decide (255 < 254 + keyRegs t)) = true := by
  decide +kernel

/-- A device whose context 0 owes one record to a ring of 16 entries at 0x80000. -/
def owing (tail note : Nat) : State :=
  onC (fun x => { x with
    fqbase := 0x80000, fqcap := 16, fqhead := 0, fqtail := tail, fqnote := note, owed := [⟨[2, 0, 0, 0, 0, 0, 0, 0], [], [], 0, 0, none, none⟩] }) base

/-- FaultsFreezeAndRecordsAreWritten: a fibre that is not frozen and one that is; task threads with and without a retry; a ring with room,
at the last place and full, with and without a note. -/
theorem wit_faults :
    let tasks := fun n => onT (fun t => { t with wave := some 9 }) (onTh (fun _ t => { t with task := some (aTask n) }) base)
    let ok := fun (s : State) => (s.dev.fibre? (fib s).uid).isSome && (s.dev.team? (fib s).team).isSome && (fib s).frozen.isNone &&
      decide ((fib s).ctx < s.dev.ctxs.length)
    (ok base && (team base).wave.isNone) = true ∧ (fib (aft (.trap hd 1) base)).frozen.isSome = true ∧
    (([0, 1] : List Nat).all fun n => ok (tasks n) && (team (tasks n)).wave.isSome && (List.range 8).all fun L =>
      (((fib (tasks n)).thread L).task.any fun k => k.retryable && k.retries == n)) = true ∧ (0x01 : LaneMask) ≠ 0 ∧
    ((List.range 64).all fun L => !(0x01 : LaneMask).has L || L == 0) = true ∧ (fib base).width < 256 ∧ (fib base).ctx < 64 ∧
    ringRoom ((owing 15 0).dev.ctx 0) = true ∧ ringRoom ((owing 16 0x90000).dev.ctx 0) = false ∧ ((owing 15 0).dev.ctx 0).fqtail < 2 ^ 32 ∧
    ((owing 16 0).dev.ctx 0).fqcap ≤ (((owing 16 0).dev.ctx 0).fqtail + 2 ^ 32 - ((owing 16 0).dev.ctx 0).fqhead) % 2 ^ 32 + 1 := by
  decide +kernel

/-- A command that copies 4 elements inside the scratchpad, queued. -/
def copy (st : CmdState) : Cmd :=
  { id := 70, core := 0, entry := 0, team := (team base).uid, ctx := 0, fib := (fib base).uid, lid := 0, teamIdx := 0, first := 0, pc := 0, op := .cpy,
    dst := .sp, src := .sp, bar := none, dstA := 64, srcA := 0, idxA := 0, ext := [4, 1, 1, 1], str := [1, 0, 0, 0], fmt := 10, blk := false,
    sOff := 0, dOff := 0, after := [], afterW := [], lanes := 0xFF, prog := 0, done := [], pos := 0, state := st, know := [], besides := ⟨[], [], []⟩, buf := [] }

/-- PrivilegeAndSystemInstructions: a privileged instruction on a compute core; selectors that are legal, misaligned and with a high bit;
operands below and at their bounds; a frozen fibre and a suspended command that a token names. -/
theorem wit_privilege :
    let allO := fun (i : Instr) (x : Iss) => x.act != 0 && allOver x (begun i x)
    let frozen := onF (fun f => { f with frozen := some ⟨9, 1, false, 0, 0⟩ }) base
    let cmd : Cmd := { copy .suspended with entry := 3 }
    (match hdrOf (.sysr hd 4 (.imm 0)) with
      | some h => match issOf base h with
        | some x => !waitsAtIssue base.dev x.f x.t x.c.lanes base.clk.cycle (.sysr hd 4 (.imm 0)) && privilegedInstr (.sysr hd 4 (.imm 0)) && !privilegedCore x.f.core
        | none => false
      | none => false) = true ∧
    meets (.sysr hd 4 (.imm 0x200)) privileged (fun x => allO (.sysr hd 4 (.imm 0x200)) x && ((suVal x x.s.dev (.imm 0x200)).bind selector).isSome) = true ∧
    meets (.sysr hd 4 (.imm 0x40)) privileged (fun x => x.act != 0 && ((suVal x x.s.dev (.imm 0x40)).bind selector).isNone) = true ∧
    meets (.sysr hd 4 (rs 9)) (setv 9 (.g [1]) privileged) (fun x => x.act != 0 && (suVal x x.s.dev (rs 9)).isNone) = true ∧
    meets (.sysw hd (.imm 0x400) (.imm 5)) privileged (fun x => allO (.sysw hd (.imm 0x400) (.imm 5)) x &&
      ((suVal x x.s.dev (.imm 0x400)).bind selector).isSome && (suVal x x.s.dev (.imm 5)).isSome) = true ∧
    (([(63, true), (64, false)] : List (BitVec 22 × Bool)).all fun p => meets (.haltCtx hd 1 (.imm p.1)) privileged fun x => x.act != 0 &&
      (suVal x x.s.dev (.imm p.1)).any fun v => decide (v.toNat < 64) == p.2) = true ∧
    (privileged.dev.ctx 0).state = .running ∧ (privileged.dev.ctx 1).state = .free ∧
    (([(383, 63, true), (384, 0, false), (0, 64, false)] : List (BitVec 22 × BitVec 22 × Bool)).all fun p =>
      meets (.haltCore hd 1 (.imm p.1) (.imm p.2.1)) privileged fun x => x.act != 0 && (suVal x x.s.dev (.imm p.1)).any fun k =>
        (suVal x x.s.dev (.imm p.2.1)).any fun c => decide (k.toNat < 384 ∧ c.toNat < 64) == p.2.2) = true ∧
    meets (.rfe hd 1 (rs 9) (.imm 0)) (setv 9 (.u 0) privileged)
      (fun x => allO (.rfe hd 1 (rs 9) (.imm 0)) x && (suVal x x.s.dev (rs 9)).isSome && (suVal x x.s.dev (.imm 0)).isSome &&
        (returnTo (begun (.rfe hd 1 (rs 9) (.imm 0)) x) 0 0 0 0).isNone) = true ∧
    (returnTo frozen.dev 0 (fibreToken (fib frozen)) 0 0).isSome = true ∧ (frozen.dev.fibre? (fib frozen).uid).isSome = true ∧
    (returnTo { base.dev with cmds := [cmd] } 0 (engineToken 0 3 false) 0 0).isSome = true ∧
    (base.dev.fibres.all fun f => f.frozen.isNone) = true ∧ (base.dev.ctx 0).saved = [] := by decide +kernel

/-- TimeSleepAndMarks: instants that are to come and that have come, awake and asleep. -/
theorem wit_time :
    let asleep := onTh (fun _ t => { t with wait := .sleep 100 }) base
    let at' := fun n => { asleep with clk := { asleep.clk with now := n } }
    meets (.sleepAbs hd (.imm 5)) base (fun x => x.act != 0 && decide (x.s.clk.now.toNat < (srcZ x.s.dev x.f x.t 0 (.imm 5)).toNat)) = true ∧
    meets (.sleepRel hd (.imm 0)) base (fun x => x.act != 0 && decide ((x.s.clk.now + srcZ x.s.dev x.f x.t 0 (.imm 0)).toNat ≤ x.s.clk.now.toNat)) = true ∧
    (asleep.dev.fibre? (fib asleep).uid).isSome = true ∧ ((fib asleep).thread 0).wait = .sleep 100 ∧ (100 : Word).toNat ≤ (at' 100).clk.now.toNat ∧
    (at' 99).clk.now.toNat < (100 : Word).toNat := by decide +kernel

/-- EventsOfFibresMemoryAndEngines, the fibres and memory: a turn at its limit with a ready successor, a helper whose cycle has come, an
overlay load that fits, a spilled frame, a recorded zeroing, a waiter whose deadline has passed. -/
theorem wit_fibre_events :
    let two := onD (fun d => { d with
      fibres := d.fibres ++ [{ fib base with uid := 91, pos := 1 }], turns := [⟨0, 0, 0, 0, 0, true⟩] }) base
    let s := { two with clk := { two.clk with cycle := 100 } }
    let u : Turn := ⟨0, 0, 0, 0, 0, true⟩
    let deep := onTh (fun _ t => { t with depth := 5, held := 3 }) base
    let w : Waiter := ⟨80, (fib base).uid, 0, 0, 0, 0, ⟨0, 0, [], [], [], [], [], []⟩, 0, 255, 0, 0, .rlx, .team, 0, 0xFF, false, []⟩
    turnOf s.dev 0 0 0 = some u ∧ (contextFibres s.dev 0 0 0 0).all (fun f => decide (u.since + f.agelimit ≤ s.clk.cycle + 1)) = true ∧
    contextReady s.dev s.clk.cycle 0 0 0 1 = true ∧ u.since + 4 ≤ s.clk.cycle + 1 ∧ (fib base).readyAt ≤ base.clk.cycle ∧
    (readOverlay (mapped 0x0000123456789000 0x0000008012340417 base).dev 0 0 0x0000123456789000 4).1 matches .parts _ ∧
    residentBytes (evictOverlays paged.dev 0 []).residents 0 + ovlBytes 4 ≤ 262144 ∧
    ((fib deep).thread 0).life = .live ∧ ((fib deep).thread 0).held < min 4 ((fib deep).thread 0).depth ∧
    (({ base.dev with zeroings := [⟨0x60000, 0x70000, 65536, false, []⟩] } : Dev).zeroings.find? fun z => z.entryAt == 0x60000) =
      some ⟨0x60000, 0x70000, 65536, false, []⟩ ∧ 0x60000 + 8 ≤ 0x70000 ∧
    (([w] : List Waiter).find? fun v => v.fib == w.fib && v.lane == 0 && !v.marked && v.deadline != BitVec.allOnes 64 &&
      decide (v.deadline.toNat ≤ base.clk.now.toNat)) = some w ∧ ((fib base).thread 0).life = .live := by decide +kernel

/-- EventsOfFibresMemoryAndEngines, the engines: a stream's next element inside and past the scratchpad, a drained write stream, a command
that may start, one that has moved its last element, one that has faulted, a flip. -/
theorem wit_engine_events :
    let run := { stream false with count := 4, prog := 2, after := [] }
    let st := onF (fun f => { f with streams := setAt f.streams 1 (some run) }) base
    let dr := aft (.sclose hd 1 1) (onF (fun f => { f with streams := setAt f.streams 1 (some { stream true with fifo := [] }) }) base)
    let q := { base.dev with cmds := [copy .queued] }
    let g : Flight := ⟨5, 0, 0, 0, 0, .flip 1, [⟨0, 0, [.phys 7], [0], [1], [], [], []⟩], [], none, false, 0, .rlx, .dev, [], 0, [], false, 0⟩
    ((fib st).stream 1 = some run ∧ (2 * run.bytes) + run.bytes ≤ spBytes (team st)) ∧ run.form = 2 ∧
    ((BitVec.ofNat 64 16377 : Word).toNat + run.bytes > spBytes (team st)) ∧ (st.dev.team? (fib st).team).isSome = true ∧
    (((fib dr).stream 1).any fun s => s.closing && s.fifo.isEmpty) = true ∧
    (dr.dev.flights.any fun g => g.fib == (fib dr).uid && g.kind == .drain 1) = true ∧ dr.dev.holds = [] ∧ 1 < (fib dr).streams.length ∧
    nextCmd q 0 = some (copy .queued) ∧ cmdMayStart q (copy .queued) = true ∧ (q.team? (copy .queued).team).isSome = true ∧
    (0 + elemBytes 10 false ≤ spBytes (team base)) ∧ (copy .moved).state = .moved ∧ (copy (.faulted 5 2 9)).state = .faulted 5 2 9 ∧
    (copy .queued).ctx < base.dev.ctxs.length ∧ mayPerform { base.dev with flights := [g] } g = true ∧
    (copy .queued).ext.all (fun e => decide (0 < e)) = true ∧ (copy .queued).str.length = 4 := by decide +kernel

/-- A header of one overlay of 5 words at 0x1234_5678_9100, at 0x1234_5678_9000 (R68 to R70). -/
def headed : State :=
  let words : List Word := [0x000000014B5A5849, 0x0000123456789100, 0x0001010100000010, 0x0000010000000008, 0x0000123456789080, 1, 0, 0]
  onD (fun d => { d with
    mem := memPut (memPut d.mem 0x8012349000 (words.flatMap wordLE)) 0x8012349080 (([0x0000123456789100, 5] : List Word).flatMap wordLE) }) paged

/-- PacketsDispatchInOrder: a launch queue of a dispatching context with a packet at its head, fields and a header that pass, no room
lost to an earlier packet. -/
theorem wit_dispatch :
    let hdr : Word := 0x0000123456789000
    let s := onC (fun x => { x with queues := [(9, { (default : Queue) with desc := some (qdesc 1), entries := [⟨packet hdr, 0, []⟩] })] }) headed
    dispatches (s.dev.ctx 0) = true ∧ ((s.dev.ctx 0).queue 9).kind = 1 ∧ ((s.dev.ctx 0).queue 9).entries.length = 1 ∧
    ((s.dev.ctx 0).queue 9).last = none ∧ packetOk (packet hdr) = true ∧ (readHeader s.dev 0 hdr 8).1.isSome = true ∧
    ((readHeader s.dev 0 hdr 8).1.any fun h => !tooLarge h 8) = true ∧ s.dev.armed = none ∧
    ((onC (fun x => { x with state := .destroyed }) s).dev.ctx 0 |> dispatches) = false ∧
    (let q : Queue := { (default : Queue) with desc := some (qdesc 1), entries := [⟨setAt (packet hdr) 0 0x400000101, 0, []⟩], wrote := some 5 }
     (field ((q.entries.head?.getD ⟨[], 0, []⟩).ws.getD 0 0) 8 1 = 1 ∧ q.wrote = some 5 ∧ base.dev.flights.all fun f => f.id != 5)) := by decide +kernel

/-- FaultsFreezeAndRecordsAreWritten, PrivilegeAndSystemInstructions: a record behind an access in flight; an `rfe` that names a fibre whose
record is still owed, and one that has been named. -/
theorem wit_owed :
    let s := owing 0 0
    let d := { (onC (fun x => { x with owed := [⟨[2, 0, 0, 0, 0, 0, 0, BitVec.ofNat 64 (2 ^ 44 * fibreToken (fib base))], [5], [], 0, 0, none, none⟩] }) s).dev with
      flights := [⟨5, 0, 0, 0, 0, .wake, [], [], none, false, 0, .rlx, .dev, [], 0, [], false, 0⟩] }
    let z := fun (r : Bool) (d : Dev) => { d with fibres := d.fibres.map fun (f : Fibre) => { f with frozen := some ⟨9, 1, r, 0, 0⟩ } }
    liveIds d [5] ≠ [] ∧ liveIds s.dev [5] = [] ∧ recordOwed d 0 (fibreToken (fib base)) = true ∧ recordOwed s.dev 0 (fibreToken (fib base) + 1) = false ∧
    ((z false d).fibres.find? fun f => f.ctx == 0 && fibreToken f == fibreToken (fib base) && f.frozen.isSome).isSome = true ∧
    ((z true d).fibres.find? fun f => f.ctx == 0 && fibreToken f == fibreToken (fib base) && f.frozen.any Freeze.resume).isSome = true ∧
    returnTo (z false d) 0 (fibreToken (fib base)) 0 0 ≠ none := by decide +kernel

/-- A grid of one team of 8 threads Queued in Quarter 0, in a context with room in its save area. -/
def aGrid (hdr : KernelHdr) : Grid := ⟨0, 5, packet 0, hdr, 0, [(0, 0, 1)], 0, 0, [], none, none, false, false, some 9, none, none, false, [], []⟩
def waitingGrid : State := onC (fun x => { x with savelen := 2 ^ 40 }) (onD (fun d => { d with grids := [aGrid placedHdr] }) base)

/-- A wave of one task in Plaza 1, and a bin of one task in Plaza 0, of queue 9. -/
def aTaskRec : Task := ⟨0, 0, [], 1, none, 0, []⟩
def aWave : Wave := ⟨0, 9, 1, 0x10000, [aTaskRec], 0, false⟩
def aBin : Bin := ⟨0, 9, 0, 0x10000, [aTaskRec]⟩

/-- An expert queue with one token, a threshold of 1, batches of 4 in one slot, and a timer of 10 ns. -/
def expert (fire : Bool) : Queue :=
  { (default : Queue) with
    desc := some [0x40043, 0x0000123456789000, 0x1004001, 10, 0x0000123456789000, 0, 0, 0], entries := [⟨[7], 0, []⟩], slots := [none], fireReq := fire }
def withExpert (q : Queue) : State := onC (fun x => { x with queues := [(9, q)] }) paged

/-- PlacementWavesAndExpertQueues: a grid and a wave that may be placed next, a team whose work is over, a grid that may retire, a bin whose
oldest task has and has not waited, a wave to take, a queue that may fire, has timed out, and whose slot can be written. -/
theorem wit_placement :
    let ended := onD (fun d => { d with fibres := [] }) base
    let late := { base with clk := { base.clk with now := 2000 } }
    let bins := { base.dev with bins := [aBin] }
    (match nextContext waitingGrid.dev 0 with
      | some (c, .grid g i _) => c == 0 && g == aGrid placedHdr && i == 0
      | _ => false) = true ∧
    (bestRoom base.dev (fun k => if k = 3 then some ⟨3, [(0, 0, 0)], 0⟩ else none) [2, 3]).isSome = true ∧
    teamOver ended.dev (team ended) = true ∧ (ended.dev.team? (team ended).uid).isSome = true ∧ (ended.dev.ctx 0).state = .running ∧
    (ended.dev.ctx 0).saved = [] ∧ 0 < ended.dev.ctxs.length ∧
    (({ aGrid placedHdr with todo := [] } : Grid).live = 0) ∧ ({ base.dev with grids := [{ aGrid placedHdr with todo := [] }] }.grid? 0 5).isSome = true ∧
    (bins.bins.find? fun b => b.ctx == 0 && b.queue == 9 && b.plaza == 0 && b.entry == 0x10000) = some aBin ∧
    aTaskRec.since.toNat + (base.dev.ctx 0).wavewait ≤ late.clk.now.toNat ∧ base.clk.now.toNat < aTaskRec.since.toNat + (base.dev.ctx 0).wavewait ∧
    (expert false).kind = 3 ∧ (expert false).freeSlotNo = some 0 ∧ (expert false).mayFire 0 = true ∧ (expert false).timedOut 10 = true ∧
    (expert false).timedOut 9 = false ∧ dispatches ((withExpert (expert true)).dev.ctx 0) = true ∧
    (match ctxWrite (withExpert (expert true)).dev 0 0x0000123456789000 (([1, 7] : List Word).flatMap wordLE) with
      | .ok _ => true
      | .error _ => false) = true := by decide +kernel

/-- A wave that is placed next, and one that another Plaza takes. -/
theorem wit_waves :
    let q : Queue := { (default : Queue) with desc := some (qdesc 2), hdr := some placedHdr }
    let s := fun (k : Nat) => onC (fun x => { x with savelen := 2 ^ 40, queues := [(9, q)] }) (onD (fun d => { d with waves := [{ aWave with plaza := k }] }) base)
    (match nextContext (s 0).dev 0 with
      | some (c, .wave w _) => c == 0 && w == { aWave with plaza := 0 }
      | _ => false) = true ∧
    (nearPlazas 0).findSome? (stealable (s 1).dev 0) = some aWave ∧ ((s 1).dev.waves.all fun v => v.plaza != 0) = true := by decide +kernel

/-- The host link up, the tables as boot stage 2 leaves them. -/
def linked (s : State) : State := { s with env := { s.env with linkUp := true, access := defaultAccess } }

/-- HostAccesses: a link that is up, tables that allow and that deny, a window that maps and one that does not, offsets at the regions'
ends. -/
theorem wit_host :
    let s := linked paged
    s.env.linkUp = true ∧ s.env.allows .host .contextControl true = true ∧ s.env.allows .host .memoryWindow true = true ∧
    (linked { paged with env := { paged.env with access := [] } }).env.linkUp = true ∧ paged.env.allows .host .memoryWindow true = false ∧
    (0x3FFF8 % 8 = 0 ∧ 0x3FFF8 < 0x40000) ∧ (0x40FF8 % 8 = 0 ∧ 0x40FF8 < 0x41000) ∧ 2 ^ 37 - 8 + 8 ≤ 2 ^ 37 ∧
    (outsidePlaces s.dev 0 true 0x0000123456789AB8 8).1.isSome = true ∧ (outsidePlaces s.dev 0 true 0x0000123556789AB8 8).1 = none ∧
    (outsidePlaces s.dev 0 false 0x0000123456789AB8 8).1.isSome = true ∧ (List.replicate 16 (0 : Word)).length = 16 := by decide +kernel

/-- CommandsAndControlRegisters: a Free context after boot and before, one that may start, one Halted with and without a saved team, each
state a halt and a destruction find, node states, bits of DSTOPT, ranges. -/
theorem wit_commands :
    let s := onD (fun d => { d with regions := true }) base
    let x : Ctx := { base.dev.ctx 1 with root := 0x40000, save := 0x100000, fqbase := 0x80000, state := .created }
    let node := fun (st : NodeState) => ({ base.dev.ctx 0 with nodes := [⟨3, List.replicate 8 0, st, 0, []⟩] } : Ctx)
    (s.dev.ctx 1).state = .free ∧ s.dev.regions = true ∧ base.dev.regions = false ∧ (s.dev.ctx 0).state ≠ .free ∧
    (x.root ≠ 0 ∧ x.save ≠ 0 ∧ x.fqbase ≠ 0 ∧ x.state = .created) ∧ ({ x with state := .halted } : Ctx).saved = [] ∧ (s.dev.ctx 1).root = 0 ∧
    (s.dev.ctx 0).state = .running ∧ 0 < s.dev.ctxs.length ∧ (255 : Word).toNat < 256 ∧ (4095 : Word).toNat < 4096 ∧
    descOk (qdesc 1) = true ∧ descOk (List.replicate 8 0) = false ∧ ((node (.armed 1)).node 3).state = .armed 1 ∧
    ((node .done).node 3).state = .done ∧ ((base.dev.ctx 0).node 4095).state = .idle ∧ field (0xFFFFFFFFFFF : Word) 44 20 = 0 ∧
    field (0x100000000000 : Word) 44 20 ≠ 0 ∧ ((0x8000000000000000 : Word).getLsbD 63 = true ∧ field (0x8000000000000000 : Word) 14 49 = 0) ∧
    (queueCommit s.dev 0 9 (qdesc 1)).1 = 1 ∧
    deletesQueue ({ (queued 1) with } : State).dev 0 9 (List.replicate 8 0) = false ∧
    deletesQueue (onC (fun x => { x with queues := [(9, { (default : Queue) with desc := some [2, 0, 0, 0, 0, 0, 0, 0] })] }) base).dev 0 9
      (List.replicate 8 0) = true ∧ (linked base).env.linkUp = true ∧ (linked base).env.allows .host .contextControl true = true ∧
    base.env.allows .host .contextControl true = false := by decide +kernel

/-- A saved team. -/
def aSaved : SavedTeam := ⟨team base, [fib base], [], [], [], [], 0, []⟩

/-- CommandsAndControlRegisters, ContextEvents: a Halted context with a saved team. -/
theorem wit_saved : ({ base.dev.ctx 0 with state := .halted, saved := [aSaved] } : Ctx).saved ≠ [] := by simp

/-- ContextEvents: an armed stop that names a thread, a Running context, one whose slice has run out with an equal that waits, one that a
higher priority displaces, a save that may complete for each goal, a saved team with room, a Destroyed context, a sample that is due. -/
theorem wit_context_events :
    let armed := onC (fun x => { x with dstopArmed := true, dstopl := (team base).lid, dstopt := 0 }) base
    let goal := fun g => onC (fun x => { x with state := .preempted, goal := some g }) base
    let sm := { base with dev := { base.dev with traceCtl := 2 }, env := { base.env with smpper := 1000 } }
    (stopTarget armed.dev 0).any (fun p => p.2 == 0 && p.1.frozen.isNone) = true ∧ (armed.dev.ctx 0).dstopArmed = true ∧
    (base.dev.ctx 0).state = .running ∧
    (([HaltGoal.halted, .switched, .destroyed].all fun g => saveReady (goal g).dev 0 && ((goal g).dev.ctx 0).goal == some g)) = true ∧
    (base.dev.setCtx 5 { base.dev.ctx 5 with state := .destroyed } |>.ctx 5).state = .destroyed ∧ base.dev.flights = [] ∧
    sm.dev.traceCtl.getLsbD 1 = true ∧ sm.env.smpper ≠ 0 ∧ sm.env.smpNext.toNat ≤ sm.clk.now.toNat := by decide +kernel

/-- ContextEvents: a context that waits for room which a lower one holds, and an equal one at the end of a slice. -/
theorem wit_preemption :
    let big : KernelHdr := { placedHdr with rf := 128 }
    let full := fun (k : Nat) => { team base with uid := 1000 + k, core := k, hdr := { big with rf := 60, sp := 60 } }
    let d := { base.dev with
      teams := (List.range 96).map full
      grids := [{ aGrid big with ctx := 1 }]
      ctxs := setAt (setAt base.dev.ctxs 1 { base.dev.ctx 1 with state := .resident, prio := 1, savelen := 2 ^ 40, save := 0x100000 })
        0 { base.dev.ctx 0 with savelen := 2 ^ 40 } }
    let e := { d with ctxs := setAt d.ctxs 1 { d.ctx 1 with prio := 0 } }
    (byPriority d).findSome? (fun c => if stuck (afterHalts d) c then victimBelow d (d.ctx c).prio else none) = some 0 ∧
    victimBelow d 1 = some 0 ∧ stuck (afterHalts e) 1 = true ∧ (e.ctx 1).prio = (e.ctx 0).prio ∧ (e.ctx 0).state = .running ∧
    (e.ctx 0).runSince.toNat + 2000000 ≤ (2000000 : Word).toNat := by decide +kernel

/-- ContextEvents: a saved team that has room. -/
theorem wit_restore :
    let s := onC (fun x => { x with state := .switched, saved := [aSaved] }) (onD (fun d => { d with teams := [], fibres := [] }) base)
    (match nextContext s.dev 0 with
      | some (0, .saved) => true
      | _ => false) = true ∧ quarterOf aSaved.team.core = 0 ∧ (savedRoom s.dev aSaved).isSome = true := by decide +kernel

/-- LinksAndTimeDiscipline: a registration that lets a write through and one that does not, links down that do and do not cut a Quarter
off, each state of the time discipline on a listed port. -/
theorem wit_links :
    let r : RmaReg := ⟨9, 0, 0x0000123456789AB8, 64, true, true, 0x0000123456789AB0⟩
    let s := linked { paged with env := { paged.env with rma := [r] } }
    let t := fun n => { base with env := { base.env with tstat := n, ptpctl := 0x80 } }
    rmaOf s.env 0 0 9 56 8 true = some r ∧ rmaOf s.env 0 0 9 57 8 true = none ∧ (rmaOf s.env 0 0 9 0 8 false).isSome = true ∧
    (outsidePlaces s.dev 0 true (r.base + 8) 8).1.isSome = true ∧
    (outsidePlaces (outsidePlaces s.dev 0 true (r.base + 8) 8).2 0 true r.word 8).1.isSome = true ∧
    (outsidePlaces s.dev 0 false (r.base + 8) 8).1.isSome = true ∧
    ((List.range 4).all fun q => !cutOff (setAt base.env.boulevard 5 false) q) = true ∧
    ((List.range 4).any fun q => cutOff (setAt [false, false, true, true, true, true] 2 false) q && !cutOff [false, false, true, true, true, true] q) = true ∧
    s.env.allows (.peer 0) .registered true = true ∧ base.env.allows (.peer 3) .registered true = false ∧ base.env.stepped = false ∧
    ((List.range 4).all fun n => ((t n).env.tstat == n && (t n).env.ptpctl.getLsbD 7)) = true ∧ base.env.locked = false ∧
    base.dev.created = false := by decide +kernel

/-- PackageEvents: the clock at both ends, a context that is Pre-empted and none, an idle core at its time, a gated core with a ready
fibre, each boot stage, a row that may change, units of each kind. -/
theorem wit_package :
    let idle := onD (fun d => { d with idleSince := [(0, 0)] }) (onTh (fun _ t => { t with wait := .sleep 9 }) base)
    (base.clk.mhz = 1700 ∧ 1600 < base.clk.mhz) ∧ (setClock base.clk 800).mhz + 100 ≤ 1700 ∧ (setClock base.clk 800).mhz < 900 ∧
    900 ≤ (setClock base.clk 900).mhz ∧ ((haltAll 0 base.dev).ctxs.any fun x => x.state == .preempted) = true ∧
    ((haltAll 0 State.reset.dev).ctxs.all fun x => x.state != .preempted) = true ∧
    (idle.dev.idleSince.find? fun p => p.1 == 0) = some (0, 0) ∧ (0 : Word).toNat + 20000 ≤ (20000 : Word).toNat ∧ coreIdle idle.dev 0 = true ∧
    idle.dev.gated = [] ∧ fibreReady { base.dev with gated := [0] } base.clk.cycle (fib base) = true ∧ (fib base).core = 0 ∧
    State.reset.env.boot = ⟨0, 0⟩ ∧ (State.reset.env.image 1 []) = [] ∧ State.reset.env.service = none ∧ (masterOf 0).isSome = true ∧ (targetOf 0).isSome = true ∧ (List.replicate 32 (0 : Byte)).length = 32 ∧
    State.reset.env.retired = [] ∧ (1 ≤ 7 ∧ 16 ≤ 16) := by decide +kernel

/-- StepRunsTheDecodedInstruction, NoActiveLaneChangesNothing, FramesOfInstructions: a selected part whose words decode, do not decode, are
no word of an overlay and are not resident; an instruction that waits; one that a check before any effect stops. -/
theorem wit_step :
    let s := State.reset.withFetchWord 96 (wordOf (.iadd hd ⟨.i32, false, 4, rs 2, rs 3⟩))
    let part := fun (s : State) => s.issueQ.head?.bind fun c => itemOf s.dev s.clk.cycle c
    let waits := onF (fun f => { f with pendW := [⟨9, 4, 0xFF, 0xFF, true, .u 1, [], 0, []⟩] }) base
    let fl := onD (fun d => { d with flights := [⟨5, (fib base).uid, 0, 0, 0, .result false true, [], [2], none, false, 0, .rlx, .dev, [], 0, [], false, 0xFF⟩], mark := 6 }) base
    (part s).any (fun p => unstarted p.1 p.2.2 == 0 && match fetchAt s.dev p.1 p.2.1 p.2.2.pc with
      | .instr _ => true
      | _ => false) = true ∧
    ((part (State.reset.withFetchWord 96 (2 ^ 95))).isSome = true ∧ (fetchAt (State.reset.withFetchWord 96 (0xFF * 2 ^ 88)).dev (fib base) (team base) 0x10000) = .illegal) ∧
    fetchAt base.dev (fib base) (team base) 0x20000 = .violation 1 ∧
    fetchAt { base.dev with residents := [] } (fib base) (team base) 0x10000 = .miss 0x10000 5 ∧
    (match hdrOf (.iadd hd ⟨.i32, false, 4, rs 2, rs 3⟩) with
      | some h => (issOf fl h).any fun x => waitsAtIssue fl.dev x.f x.t x.c.lanes fl.clk.cycle (.iadd hd ⟨.i32, false, 4, rs 2, rs 3⟩)
      | none => false) = true ∧
    (match hdrOf (.iadd hd ⟨.i32, false, 200, rs 2, rs 3⟩) with
      | some h => (issOf base h).any fun x => !waitsAtIssue base.dev x.f x.t x.c.lanes base.clk.cycle (.iadd hd ⟨.i32, false, 200, rs 2, rs 3⟩) &&
          (precheck (.iadd hd ⟨.i32, false, 200, rs 2, rs 3⟩) x).isSome && x.f.frozen.isNone
      | none => false) = true ∧
    registerOnly (.iadd hd ⟨.i32, false, 4, rs 2, rs 3⟩) = true ∧ (waits.dev.fibre? (fib waits).uid).isSome = true := by decide +kernel

/-- FixedResultsLandInOrder: writes that are due and that are not, one and two of a register that the fibre has. -/
theorem wit_landing :
    let p : PendW := ⟨9, 4, 0xFF, 0xFF, true, .u 1, [], 0, []⟩
    let f := { fib base with pendW := [p] }
    let g := { fib base with pendW := [p, { p with land := 7 }] }
    (f.pendW.all fun p => decide (8 < p.land)) = true ∧ f.pendP = [] ∧ f.pendW.filter (fun p => decide (p.land ≤ 9)) = [p] ∧
    g.pendW.filter (fun p => decide (p.land ≤ 9)) = [p, { p with land := 7 }] ∧ p.reg ≠ 255 ∧ (f.isWindow 4 = false ∧ 4 < f.regs.length) ∧
    (base.dev.fibre? f.uid).isSome = true ∧ 3 < f.width ∧ (f.thread 3).life ≠ .empty ∧ p.lanes.has 3 = true ∧ (0xF7 : LaneMask).has 3 = false := by
  decide +kernel

/-- EveryStepKeepsThePackageInRange, EveryStepKeepsMemoryCanonical: a state that meets the invariant and steps. -/
theorem wit_invariants :
    (match step base with
      | .next _ => true
      | _ => false) = true ∧ Memory.wf base.dev.mem = true ∧ (800 ≤ base.clk.mhz ∧ base.clk.mhz ≤ 1700) ∧ base.env.rings.length = 4 := by
  decide +kernel

/-! ### Premises of the clauses that speak of exact values, chains, and what stops or waits -/

/-- RoundingAndNaNs: finite inputs of a sum, a product, a quotient and a root; zeros of both signs; a subnormal; a number to scale. -/
theorem wit_exact_values :
    (([0x3F800000, 0xBF800000, 0, 0x80000000, 1, 0x7F7FFFFF] : List Nat).all fun x => finite (fval .f32 false x)) = true ∧
    finite (fval .f32 false 0x7F800000) = false ∧ fval .f32 false 0x7F7FFFFF = .fin false 0xFFFFFF 104 ∧ fval .f32 false 1 = .fin false 1 (-149) ∧
    fval .f32 true 0x80000001 = .fin true 0 (-149) ∧ fval .f16 false 0x3C00 = .fin false 0x400 (-10) ∧ (0xFFFFFF * 0xFFFFFF ≠ 0) ∧
    (ITy.max .i8 : Int) < 128 ∧ (-129 : Int) < ITy.min .i8 := by decide +kernel

/-- RandomBitsAndQuantising: sixteen encodings with and without a NaN, all zeros, an infinity beside zeros, a largest element. -/
theorem wit_blocks :
    let xs := fun (x : Nat) => x :: List.replicate 15 0
    (([0x7FC00000, 0, 0x7F800000, 0x40400000] : List Nat).all fun x => (xs x).length == 16 && (xs x).all fun y => decide (y < 2 ^ 32)) = true ∧
    (fval .f32 false 0x7FC00000).isNaN = true ∧ fval .f32 false 0x7F800000 = .inf false ∧ fval .f32 false 0x40400000 = .fin false 0xC00000 (-22) ∧
    (0x6BFE80 % 256 ≠ 0 ∧ 0x6BFE80 % 256 ≠ 255) := by decide +kernel

/-- TransfersEndsAndYield: one transfer in which lane 0 is valid, lane 1 a violation and lane 2 misses its overlay. -/
theorem wit_mixed_transfer :
    let s := onT (fun t => { t with hdr := { t.hdr with overlays := t.hdr.overlays ++ [(0x30000, 5, false)] } }) (setv 4 (.g [0x10000, 0x20000, 0x30000, 0x10000, 0x10000, 0x10000, 0x10000, 0x10000]) landing)
    meets (.brx hd 4) s (fun x => x.act != 0 && isValid (classify x.s.dev x.f.core x.f.ctx x.t true (inReg x 4 0)) &&
      classify x.s.dev x.f.core x.f.ctx x.t true (inReg x 4 1) == .violation 1 &&
      classify x.s.dev x.f.core x.f.ctx x.t true (inReg x 4 2) == .miss 0x30000 5) = true := by decide +kernel

/-- FibreBarriers: an arriving instruction one of whose lanes has arrived already. -/
theorem wit_held_arrival :
    let s := onTh (fun L t => { t with fbArr := L == 0 }) base
    meets (.fbarSync hd) s (fun x => x.act != 0 && (x.f.thread 0).fbArr && x.act.lanes.any fun L => !(x.f.thread L).fbArr) = true ∧
    meets (.fbarArrive hd) s (fun x => x.act != 0 && (x.f.thread 0).fbArr) = true := by decide +kernel

/-- AddressChecksAndPartialFaults: an access of a host page and one of a device page, and atomics that a host page serves and does not. -/
theorem wit_host_rows :
    let part := fun (leaf : Word) => match (translateAll 0 0 ⟨true, false⟩ 2 (mapped 0x0000123456789ABC leaf base).dev 0x0000123456789AB8 8).1 with
      | .parts ps => ps.map fun p => isHost p.phys
      | _ => []
    part 0x0008000012340013 = [true] ∧ part 0x0000008012340413 = [false] ∧ atomHost .add .n64 = true ∧ atomHost .min .n64 = false ∧
    atomHost .exch .f32 = false ∧ (0x0000123456789AB8 : Word).toNat % 8 = 0 := by decide +kernel

/-- AccessesPerformAtTheirHomes: a device with no past write, and one past write that a load of another fibre may have missed. -/
theorem wit_past :
    let e : Past := ⟨3, ⟨77, 4, some 1, 0, 0, 0, false, []⟩, [.phys 7], [0], []⟩
    base.dev.past = [] ∧ e.has 0 (.phys 7) = true ∧ (4 : Nat) < e.moment + 2 := by decide +kernel

/-- StreamsComputedRegistersAndShapes: streams that `sput` may not take; live lanes whose values form an affine run of stride 4, and ones
that form none. -/
theorem wit_runs :
    let run := setv 4 (.g [7, 11, 15, 19, 23, 27, 31, 35]) base
    let none' := setv 4 (.g [7, 11, 16, 19, 23, 27, 31, 35]) base
    meets (.sput hd 1 4) base (fun x => x.act != 0 && (x.f.openStream 1).isNone) = true ∧
    meets (.sput hd 1 4) (onF (fun f => { f with streams := setAt f.streams 1 (some (stream false)) }) base) (fun x => x.act != 0 &&
      (x.f.openStream 1).any fun st => !st.write) = true ∧
    (fib run).live.lanes = [0, 1, 2, 3, 4, 5, 6, 7] ∧ (regLane run.dev (fib run) 4 1 - regLane run.dev (fib run) 4 0).toInt = 4 * (1 - 0) ∧
    ((List.range 8).all fun L => regLane run.dev (fib run) 4 L == 7 + BitVec.ofNat 64 L * 4) = true ∧
    (regLane none'.dev (fib none') 4 2 ≠ 7 + 2 * 4) := by decide +kernel

/-- A path of three unsealed eye vertices of the fibre in slots 3, 4 and 5 of Quarter 0, each the parent of the next. -/
def pathVertex (k : Nat) (st : VState) : Vertex :=
  ⟨0, 3 + k, 0, [0, 0, 0, 0x3F80000000000000, 0x3F000000, 0, if k = 0 then 0 else BitVec.ofNat 64 (2 ^ 31 + 2 + k),
    BitVec.ofNat 64 (k + if k = 2 then 0 else 4096)], st, false, .team, (0, 0), []⟩
def withPath (st : VState) : Dev := { base.dev with vertices := [0, 1, 2].map fun k => pathVertex k st }

/-- VertexRecords, MortarInstructions: an append to the last vertex of a path with a grandparent, a seal of the path, its chain, and a chain
alone; a sealed vertex to grow, to pin and to unpin, and one that retires with its last pin. -/
theorem wit_paths :
    let st : VState := .unsealed (fib base).uid
    let d := withPath st
    let v := pathVertex 2 st
    let h := handleWord d v
    vertexOf d 0 h = some v ∧ v.child = false ∧ v.light = false ∧ v.depth < 255 ∧ v.ws.length = 8 ∧ parentOf d v = some (pathVertex 1 st) ∧
    parentOf d (pathVertex 1 st) = some (pathVertex 0 st) ∧ parentOf d (pathVertex 0 st) = none ∧
    ¬((pathVertex 1 st).quarter = v.quarter ∧ (pathVertex 1 st).slot = v.slot) ∧ (pathVertex 0 st).delta = false ∧
    ((pathVertex 0 .sealed).put 7 32 8 1).pin = 1 ∧ ((pathVertex 0 .sealed).put 7 32 8 254).pin < 255 ∧
    (vertexOf (withPath .sealed) 0 (handleWord (withPath .sealed) (pathVertex 2 .sealed))).map Vertex.state = some .sealed ∧
    1 ≤ (65535 : Word).toNat ∧ (65535 : Word).toNat ≤ 65535 := by decide +kernel

/-- A path of nine vertices, one more than `vcon.all` takes. -/
def longPath : Dev := { base.dev with vertices := (List.range 9).map fun k => pathVertex k .sealed }

/-- MortarInstructions: a chain of three vertices, and one of nine. -/
theorem wit_chain : ChainFrom (withPath .sealed) (pathVertex 2 .sealed) [pathVertex 2 .sealed, pathVertex 1 .sealed, pathVertex 0 .sealed] := by
  refine ⟨rfl, by decide +kernel, rfl, by decide +kernel, rfl, by decide +kernel⟩

theorem wit_long_chain : ChainFrom longPath (pathVertex 8 .sealed) ([8, 7, 6, 5, 4, 3, 2, 1, 0].map fun k => pathVertex k .sealed) := by
  refine ⟨rfl, ?_, rfl, ?_, rfl, ?_, rfl, ?_, rfl, ?_, rfl, ?_, rfl, ?_, rfl, ?_, rfl, ?_⟩ <;> decide +kernel

/-- VertexRecords: a path has a free slot beside it, whichever the free value names. -/
theorem wit_path_slot : ∃ n, freeVertex (withPath (.unsealed 0)) 0 = some n := by
  unfold freeVertex
  have hl : ((withPath (.unsealed 0)).vertices.filter fun v => v.quarter == 0).length = 3 := by decide +kernel
  have hv : ∀ q k, k ≠ 3 → k ≠ 4 → k ≠ 5 → (vertexAt (withPath (.unsealed 0)) q k).isNone = true := by
    intro q k h3 h4 h5
    simp [vertexAt, withPath, pathVertex, List.map, Ne.symm h3, Ne.symm h4, Ne.symm h5]
  simp only [hl]
  generalize Config.victim (withPath (.unsealed 0)).freeSeq = s
  rw [if_neg (by decide)]
  unfold slotFrom slotFrom slotFrom slotFrom
  repeat' split
  all_goals first
    | exact ⟨_, rfl⟩
    | skip
  rename_i h0 h1 h2 h3
  exfalso
  have f := fun k (h : ¬(vertexAt (withPath (.unsealed 0)) 0 (k % 2 ^ 26)).isNone = true) => not_imp_not.2 (fun g : k % 2 ^ 26 ≠ 3 ∧ k % 2 ^ 26 ≠ 4 ∧ k % 2 ^ 26 ≠ 5 => hv 0 _ g.1 g.2.1 g.2.2) h
  have g0 := f _ h0
  have g1 := f _ h1
  have g2 := f _ h2
  have g3 := f _ h3
  omega

/-- TreeInsertsAndWalks: a build of a key that is not finite. -/
theorem wit_build_not_finite :
    ({ build with dst := 4, keys := [⟨[0x7F800000, 0, 0], []⟩] } : Build).keys.all (fun k => k.vals.all qFinite) = false ∧
    ({ walking with dot := true } : WalkSt).dot = true ∧ build.ctx < base.dev.ctxs.length := by decide +kernel

/-- FaultsFreezeAndRecordsAreWritten: a refusal report and another record that find the ring full, and a record that follows an access. -/
theorem wit_refusals :
    let full := fun (w0 : Word) => onC (fun x => { x with owed := [⟨[w0, 0, 0, 0, 0, 0, 0, 0], [], [], 0, 0, none, none⟩] }) (owing 16 0)
    ringRoom ((full 13).dev.ctx 0) = false ∧ ((full 13).dev.ctx 0).owed.map FRecord.isRefusal = [true] ∧
    ((full 2).dev.ctx 0).owed.map FRecord.isRefusal = [false] ∧
    ((owing 15 0).dev.ctx 0).fqtail + 2 ^ 32 - ((owing 15 0).dev.ctx 0).fqhead = 15 + 2 ^ 32 := by decide +kernel

/-- TimeSleepAndMarks: threads whose tasks buffer stores at a `clk`. -/
theorem wit_clk : meets (.clk hd 4) (buffered base) (fun x => x.act != 0 && buffering x.f x.act) = true ∧
    meets (.clk hd 4) base (fun x => x.act != 0 && !buffering x.f x.act) = true := by decide +kernel

/-- EventsOfFibresMemoryAndEngines: a load that nothing holds, one and two zeroings of an entry, a command's elements. -/
theorem wit_more_events :
    let z : Zeroing := ⟨0x60000, 0x70000, 65536, false, []⟩
    let c := copy .queued
    loadHeld (evictOverlays paged.dev 0 []) 0 0 0x10000 = false ∧ [z].filter (fun y => y.entryAt == 0x60000) = [z] ∧
    ([z, { z with base := 0x80000 }].filter fun y => y.entryAt == 0x60000).length = 2 ∧ c.prog < c.total ∧ c.done = [] ∧
    (c.srcA + BitVec.ofInt 64 (c.strided 3 * 4)).toNat + 4 ≤ spBytes (team base) ∧
    spBytes (team base) < (({ c with srcA := 16380 } : Cmd).srcA + BitVec.ofInt 64 (c.strided 3 * 4)).toNat + 4 ∧ c.ext.length = 4 := by
  decide +kernel

/-- PlacementWavesAndExpertQueues: rooms on two cores of which both have the same free units. -/
theorem wit_equal_rooms :
    let room := fun k => if k = 2 ∨ k = 3 then some (⟨k, [(0, 0, 0)], 0⟩ : Room) else none
    ([2, 3] : List Nat).Pairwise (· < ·) ∧ freeUnits base.dev 2 = freeUnits base.dev 3 ∧
    (bestRoom base.dev room [2, 3]).map Room.core = some 2 := by decide +kernel

/-- HostAccesses: a table of 128 words, offsets at both ends of the vector table, a pending vector and none. -/
theorem wit_vectors :
    base.env.msixTable.length = 128 ∧ 0x503F8 % 8 = 0 ∧ (0x503F8 - 0x50000) / 8 = 127 ∧
    ({ base.env with msixPending := 1 } : Env).msixPending.getLsbD 0 = true ∧ base.env.msixPending.getLsbD 0 = false ∧
    (linked { base with env := { base.env with access := [] } }).env.linkUp = true ∧
    ({ (linked base).env with access := [] } : Env).allows .host .memoryWindow false = false := by decide +kernel

/-- CommandsAndControlRegisters: a host that may write and a Pre-empted context with a goal and with none. -/
theorem wit_preempted_commands :
    HostMayWrite (linked base) ∧
    ((onC (fun x => { x with state := .preempted, goal := some .switched }) base).dev.ctx 0).state = .preempted := by
  exact ⟨⟨by decide +kernel, by decide +kernel⟩, by decide +kernel⟩

/-- ContextEvents: a quadrant whose slot holds a fibre with a path, and paths of it that have issued, stall, stand at a barrier, park, miss,
fill a frame, wait for a result and are frozen. -/
theorem wit_samples :
    let w := fun (u : Wait) => (fib (onTh (fun _ t => { t with wait := u }) base)).thread 0
    let z := onF (fun f => { f with frozen := some ⟨9, 1, false, 0, 0x10000⟩ }) base
    (contextFibres base.dev 0 0 0 0).length = 1 ∧ (base.dev.team? (fib base).team).isSome = true ∧ fibreKeys (fib base) = [(0x10000, 0)] ∧
    (w (.bar 3)).wait = .bar 3 ∧ (w .addr).wait = .addr ∧ (w (.overlay 5)).wait = .overlay 5 ∧ (w .frame).wait = .frame ∧
    (fib z).frozen.map Freeze.pc = some 0x10000 ∧ ((fib base).thread 0).stallTo ≤ base.clk.cycle ∧ (fib base).readyAt ≤ base.clk.cycle ∧
    (match fetchAt z.dev (fib z) (team z) 0x10000 with
      | .instr i => (instrStall z.dev (fib z) (team z) z.clk.cycle (0x10000, 0) 0xFF i).reason == 0
      | _ => false) = true ∧
    contextFibres base.dev 1 0 0 0 = [] := by decide +kernel

/-- LinksAndTimeDiscipline: tables that let a send of whichever class pass, and tables that let none. -/
theorem wit_send (n : Nat) :
    let env := fun (l : List Access) => ({ base.env with linkUp := true, access := l } : Env)
    (env [⟨.peer (Config.sendClass n), .registered, true, true⟩]).allows (.peer (Config.sendClass n)) .registered true = true ∧
    (env []).allows (.peer (Config.sendClass n)) .registered true = false := by
  simp [Env.allows]

/-- PackageEvents: an environment that may boot, one that may not, one stored image of a kind and none. -/
theorem wit_boot :
    let done := { State.reset.env with boot := ⟨4, 0⟩ }
    State.reset.env.mayBoot = true ∧ done.mayBoot = false ∧ ({ done with staged := [List.replicate 16 1] } : Env).mayBoot = true ∧
    ([List.replicate 16 (1 : Byte)].filter fun m => imgNum m 4 4 == 0x01010101).length = 1 ∧ State.reset.env.staged = [] := by decide +kernel

/-- TilesReservationsAndConvergence, TreeInstructions: parameter blocks whose literal fields are legal and are not. -/
theorem wit_literal_blocks :
    let mma : ParamBlock := ⟨.lit 16, .lit 32, .lit 0, .lit 0, .lit 1, .lit 16, .lit 0, .lit 0, 0x108, .lit 0, .lit 0⟩
    let bld : ParamBlock := ⟨.lit 3, .lit 9, .lit 0, .lit 0, .lit 1, .lit 3, .lit 0, .lit 0, 0x10A, .lit 0, .lit 0⟩
    mmaShapeLit mma = true ∧ mmaShapeLit { mma with s0 := .lit 15 } = false ∧ bldShapeLit bld = true ∧ bldShapeLit { bld with s2 := .lit 1 } = false ∧
    meets (.mmaShape hd 1 { mma with s0 := .lit 15 }) base (fun x => x.act != 0) = true ∧
    meets (.qnbld hd false 8 4 { bld with s2 := .lit 1 }) base (fun x => x.act != 0) = true := by decide +kernel

/-- AppendsAreOneStep, LaunchesJoinsAndQueueStatus: lanes that pass, of tasks that buffer and that do not. -/
theorem wit_passing :
    let i : Instr := .qputM hd 1 8 (.imm 9)
    let j : Instr := .launch hd 4 8
    let s := onC (fun x => { x with queues := (queued 3).dev.ctx 0 |>.queues }) paged
    let m := fun (x : Iss) => passing x (begun i x) .g (fun L => ⟨recordBytes (begun i x) (begunFib i x) ((x.s.dev.ctx x.f.ctx).queue 9).kind (inReg x 8 L),
      false, 8, true, false, 8⟩) (x.order (begun i x)) (fun L => inReg x 8 L)
    let n := fun (x : Iss) => passing x (begun j x) .g (fun _ => ⟨128, false, 8, true, false, 8⟩) ((x.order (begun j x)).filter (leads x.f))
      (fun L => inReg x 8 L)
    meets i s (fun x => x.act != 0 && m x != 0 && !buffering x.f (m x)) = true ∧ meets i (buffered s) (fun x => x.act != 0 && buffering x.f (m x)) = true ∧
    meets j paged (fun x => x.act != 0 && n x != 0 && !buffering x.f (n x)) = true ∧
    meets j (buffered paged) (fun x => x.act != 0 && buffering x.f (n x)) = true := by decide +kernel

/-- AddressChecksAndPartialFaults, PackageEvents: a core's copies, one of each byte, dirty and clean. -/
theorem wit_copies :
    let w : Author := ⟨1, 0, some 1, 0, 0, 0, false, []⟩
    let d : Dev := { base.dev with uo := [⟨0, 64, 7, some w, 1⟩, ⟨0, 65, 8, none, 1⟩] }
    (d.uo.map fun u => (u.core, u.addr)).Nodup ∧ (uoCopy d 0 64).any UoByte.dirty = true ∧ (uoCopy d 0 65).any (fun u => !u.dirty) = true ∧
    uoCopy d 0 66 = none := by decide +kernel

/-- TreeInsertsAndWalks: a tree that has grown since its walk's start, an insert that the walk has to see, a node with and without children. -/
theorem wit_walks :
    let t2 : QTree := { insertKey tree ⟨[0x40000000, 0, 0], []⟩ with olds := [tree.nodes], notes := [⟨1, (fib base).uid, (team base).uid, 0, .dev, 5⟩] }
    let w := startWalk base.dev (fib base) 0 .dev t2 [0, 0, 0]
    w.done = false ∧ w.fifo.length < 16 ∧ w.keys = [] ∧ w.stack = [(0, 0)] ∧ (t2.node 0).count ≠ 0 ∧ 1 ∈ w.must ∧ t2.keyOf 1 = 1 ∧
    t2.changed 1 0 = true ∧ 1 ≤ t2.olds.length ∧ (⟨1, (fib base).uid, (team base).uid, 0, .dev, 5⟩ : TreeNote) ∈ t2.notes := by decide +kernel

/-- MatrixOperations: an operation queued that has its turn and one that waits for it. -/
theorem wit_held_mma :
    let m : MmaOpn := ⟨3, 0, 1, .f16, false, 1, [], [], 40, 0, true⟩
    ({ m with held := false } : MmaOpn).held = false ∧ m.held = true ∧ ({ m with held := false } : MmaOpn).ready ≤ 40 := by decide

/-- HostAccesses, LinksAndTimeDiscipline: windows and registrations whose pages do not translate. -/
theorem wit_refused_outside :
    let r : RmaReg := ⟨9, 0, 0x0000123556789AB8, 64, true, true, 0x0000123456789AB0⟩
    let q : RmaReg := { r with base := 0x0000123456789AB8, word := 0x0000123556789AB0 }
    let s := fun (r : RmaReg) => linked { paged with env := { paged.env with rma := [r] } }
    let d := (outsidePlaces (s q).dev 0 true q.base 8).2
    (outsidePlaces (linked paged).dev 0 false 0x0000123556789AB8 8).1 = none ∧ rmaOf (s r).env 0 0 9 0 8 true = some r ∧
    rmaOf (s r).env 0 0 9 0 8 false = some r ∧ (outsidePlaces (s r).dev 0 true r.base 8).1 = none ∧ (outsidePlaces (s r).dev 0 false r.base 8).1 = none ∧
    rmaOf (s q).env 0 0 9 0 8 true = some q ∧ (outsidePlaces (s q).dev 0 true q.base 8).1.isSome = true ∧ (outsidePlaces d 0 true q.word 8).1 = none ∧
    rmaOf (s r).env 0 0 9 60 8 false = none := by decide +kernel

/-- ContextEvents: the fibre of the base state is as a save finds it. -/
theorem wit_whole : WholeFibre (fib base) := by
  refine ⟨by decide +kernel, fun vs h => ?_⟩
  have hu : ∀ v, v ∈ privRegs (fib base) → v = .u 0 := by decide +kernel
  exact absurd (hu _ h) (by simp)

theorem wit_saved_fibres : teamFibres base.dev (team base) = [fib base] ∧ (team base).bufs.length = 8 ∧ 0 < base.dev.ctxs.length ∧
    (∀ u, u ∈ (fib base).threads → u.wait = .none) := by decide +kernel

theorem blockNow_put (d : Dev) (core : Nat) (s : SavedTeam) (a : Nat) (h : d.uo = []) (hm : d.mem = memPut [] a s.image) (ha : (d.ctx 0).save + s.off = a) :
    blockNow (uoFlush d core) 0 s = s.image := by
  have hf : uoFlush d core = { d with uo := [] } := by simp [uoFlush, writeBack, h, dedupNat]
  have hc : (({ d with uo := [] } : Dev).ctx 0).save = (d.ctx 0).save := rfl
  rw [blockNow, hf, hc, ha]
  exact (congrArg (fun m => memBytes m a s.image.length) hm).trans (memBytes_memPut [] a s.image)

/-- ContextEvents: a context that holds a saved team whose block stands in memory as the save wrote it, and no team but it. -/
theorem wit_restored : ∃ (d : Dev) (r : Room), let s := { savedOf base.dev 0 (team base) with off := 256 }
    0 < d.ctxs.length ∧ (d.ctx 0).saved = [s] ∧ s.fibres = [fib base] ∧ blockNow (uoFlush d r.core) 0 s = s.image ∧
    (∀ v, v ∈ d.teams → v.uid ≠ (team base).uid) ∧ (∀ w f, w ∈ d.waiters → f ∈ s.fibres → w.fib ≠ f.uid) := by
  have hs := wit_saved_fibres.1
  have key : ∀ s : SavedTeam, ∃ (d : Dev) (r : Room), 0 < d.ctxs.length ∧ (d.ctx 0).saved = [s] ∧ blockNow (uoFlush d r.core) 0 s = s.image ∧
      d.teams = [] ∧ d.waiters = [] := fun s =>
    ⟨{ State.reset.dev with mem := memPut [] (0x100000 + s.off) s.image, ctxs := [{ Ctx.initial with save := 0x100000, saved := [s] }] },
      ⟨2, [(0, 0, 0)], 0⟩, Nat.one_pos, rfl, blockNow_put _ _ _ _ rfl rfl rfl, rfl, rfl⟩
  obtain ⟨d, r, h1, h2, h3, h4, h5⟩ := key { savedOf base.dev 0 (team base) with off := 256 }
  exact ⟨d, r, h1, h2, hs, h3, by simp [h4], by simp [h5]⟩

/-- FixedResultsLandInOrder, ApproximateSpecialResults: instructions with an active lane; exact cases, one within the bound, one that
overflows, one beyond 2^20. -/
theorem wit_shapes_and_bounds :
    meets (.iadd hd ⟨.i64, false, 4, rs 2, rs 3⟩) base (fun x => x.act != 0) = true ∧
    (match fval .f32 false 0x3F000000 with
      | .fin s m e => !s && decide (m = 2 ^ 23 ∧ e = -24)
      | _ => false) = true ∧
    (match fval .f32 false 0x40400000 with
      | .fin s m e => !s && aPower .rcp s m e == none
      | _ => false) = true ∧
    (match fval .f32 false 0x00000001 with
      | .fin s m e => let y := (aPower .rcp s m e).getD (aExact .rcp s m e)
        decide ((FTy.bias .f32 : Int) < y.2.1.log2 + y.2.2)
      | _ => false) = true ∧
    (match fval .f32 false 0x4A000000 with
      | .fin _ m e => decide (m = 2 ^ 23 ∧ e = -2)
      | _ => false) = true := by decide +kernel

/-- TimeSleepAndMarks, PrivilegeAndSystemInstructions: a device without a past write, so that a stream's or a parked thread's read is of what
stands, and one with. -/
theorem wit_no_past : base.dev.past = [] ∧ ({ base.dev with past := [⟨3, ⟨77, 4, some 1, 0, 0, 0, false, []⟩, [.phys 7], [0], []⟩] } : Dev).past ≠ [] := by
  decide +kernel

/-- CommandsAndControlRegisters: values at the ends of the ranges, and contexts that take and do not take a root. -/
theorem wit_ranges :
    let x := base.dev.ctx 0
    let y := { x with state := .halted }
    (ctxPlain x 0x010 7).isSome = true ∧ ctxPlain x 0x010 8 = none ∧ ctxPlain x 0x018 99999 = none ∧ (ctxPlain x 0x018 100000).isSome = true ∧
    ctxPlain x 0x020 0x40000 = none ∧ (ctxPlain y 0x020 0x40000).isSome = true ∧ (ctxPlain y 0x048 65536).isSome = true ∧ ctxPlain y 0x048 24 = none ∧
    (ctxPlain x 0x090 1024).isSome = true ∧ ctxPlain x 0x090 1025 = none ∧ (16384 : Nat) ∈ (List.range 19).map (fun k => 2 ^ (6 + k)) := by decide +kernel

end Sys2Proof.Tests
end

section
/-!
PROOF of the negation of `FixedResultsLandInOrder`. Its clause on `PendW.due` says that a write which stands behind a result lands only when
that result is no longer `Dev.pending`. A build that a saved team takes with it (R299, R301) stays pending, but it is on the device no more,
and `PendW.due` asks only for the flights, builds and waiters on the device.
-/

namespace Sys2Proof.Machine

/-- A write whose time has come is due when nothing is on its way on the device, whatever it stands behind. -/
theorem due_of_idle {p : PendW} {d : Dev} {cycle : Nat} (hl : p.land ≤ cycle) (hf : d.flights = []) (hb : d.builds = [])
    (hw : d.waiters = []) : p.due d cycle = true := by
  simp [PendW.due, hl, hf, hb, hw]

/-- A build that a saved team holds is still to perform. -/
theorem pending_of_saved {d : Dev} {x : Ctx} {s : SavedTeam} {b : Build} (hx : x ∈ d.ctxs) (hs : s ∈ x.saved) (hb : b ∈ s.builds) :
    d.pending b.id = true := by
  have : (d.ctxs.any fun x => x.saved.any fun s => s.builds.any fun c => c.id == b.id) = true := by
    simp only [List.any_eq_true, beq_iff_eq]
    exact ⟨x, hx, s, hs, b, hb, rfl⟩
  simp [Dev.pending, this]

/-- A queued `qnbld` of identity 7, of 8 lanes, whose handle goes to register 4. -/
def queuedBuild : Build :=
  { id := 7, core := 0, entry := 0, team := 1, ctx := 0, fib := 2, lid := 0, teamIdx := 0, first := 0, pc := 0, path := 0x0F, lanes := 0x0F,
    dst := 4, full := false, scratch := false, config := 0x600, keyA := 0, payA := 0, count := 1, strideK := 1, strideD := 1, fmt := 10,
    after := [], prog := 0, keys := [], state := .queued, know := [], besides := ⟨[], [], []⟩, acqs := [], buf := [] }

/-- An `lpush` of port 1 in the same cycle into the same register, which lands after that build (R90). -/
def pushBehindBuild : PendW :=
  { land := 8, reg := 4, path := 0xF0, lanes := 0x10, full := false, val := .g [0, 0, 0, 0, 5], bits := [0, 0, 0, 0, 0xFF], pc := 12,
    after := [queuedBuild.id] }

/-- Context 0 switched out, with a saved team that took the build with it. -/
def switchedCtx : Ctx :=
  { Ctx.initial with
    state := .switched
    saved := [{ team := default, fibres := [], groups := [], cmds := [], builds := [queuedBuild], drains := [], off := 0, image := [] }] }

/-- The device after reset but for that context. -/
def switchedDev : Dev := State.reset.dev.setCtx 0 switchedCtx

theorem switchedCtx_mem : switchedCtx ∈ switchedDev.ctxs := List.mem_cons_self

theorem pushBehindBuild_due : pushBehindBuild.due switchedDev 8 = true := due_of_idle (Nat.le_refl 8) rfl rfl rfl

theorem queuedBuild_pending : switchedDev.pending queuedBuild.id = true :=
  pending_of_saved switchedCtx_mem List.mem_cons_self List.mem_cons_self

/-- Refutes O56: the clause on when a write is due fails for `pushBehindBuild` on `switchedDev`, where the build it stands behind is pending in
a saved team and the write is due all the same. -/
theorem not_fixedResultsLandInOrder : ¬ Obligations.FixedResultsLandInOrder := by
  intro h
  obtain ⟨-, -, -, -, -, hdue, -⟩ := h
  obtain ⟨-, hafter⟩ := (hdue pushBehindBuild switchedDev 8).1 pushBehindBuild_due
  obtain ⟨hnot, -⟩ := hafter queuedBuild.id List.mem_cons_self
  exact absurd queuedBuild_pending (by simp [hnot])

end Sys2Proof.Machine
end

section
/-!
PROOF of `DivisionAndCarry`. A sub-element operation on two integer sources gives each sub-element of each active lane its value and raises
the union of the sub-elements' flags (R32, R76); `divRes` and `remRes` are then the table of R25 as it stands. `iaddc` is one addition in
each lane, whose result and carry are pushed one after the other (R116).
-/

namespace Sys2Proof.Machine

/-! ### Unions of flags (R32) -/

/-- A bit of a union of words. -/
theorem getLsbD_foldl_or {α : Type} (f : α → Word) (xs : List α) (m : Word) (b : Nat) :
    (xs.foldl (fun m r => m ||| f r) m).getLsbD b = true ↔ m.getLsbD b = true ∨ ∃ r, r ∈ xs ∧ (f r).getLsbD b = true := by
  induction xs generalizing m with
  | nil => simp
  | cons x xs ih => simp [ih, or_assoc]

/-- A flag of the active lanes is one that some active lane raises. -/
theorem getLsbD_laneFlags (x : Iss) (g : Nat → Word) (b : Nat) :
    (laneFlags x g).getLsbD b = true ↔ ∃ L, x.act.has L = true ∧ (g L).getLsbD b = true := by
  simp [laneFlags, getLsbD_foldl_or, Iss.lanes, mem_lanes]

/-- A flag of a sub-element operation is one that some sub-element raises. -/
theorem getLsbD_subs3 (w : Nat) (g : Nat → Nat → Nat → Nat × Word) (a b d : Word) (n : Nat) :
    (subs3 w g a b d).2.getLsbD n = true ↔
      ∃ j, j < 64 / w ∧ (g (sub a w j) (sub b w j) (sub d w j)).2.getLsbD n = true := by
  simp [subs3, getLsbD_foldl_or, nsub]

/-! ### A sub-element operation on two integer sources -/

/-- A list of shapes makes a result U only when it is U throughout. -/
theorem allU_eq_u {us : List Bool} (h : allU us = .u) : ∀ u, u ∈ us → u = true := by
  unfold allU at h
  split at h
  · rename_i hall; simpa using hall
  · cases h

/-- Such a shape is never A. -/
theorem allU_ne_a (us : List Bool) (b s : Word) : allU us ≠ .a b s := by
  unfold allU; split <;> simp

theorem intShape_ne_a (t : ITy) (rd : Bool) (d : Reg) (a b : Src) (x : Iss) (dv : Dev) (p s : Word) :
    intShape t rd d a b x dv ≠ .a p s := allU_ne_a _ p s

/-- Two sources that make a result U hold one value each in all lanes (R55, R76). -/
theorem intArgs_of_u {t : ITy} {d : Reg} {a b : Src} {x : Iss} {dv : Dev} (h : intShape t false d a b x dv = .u) (L M : Nat) :
    (intArgs t d a b x dv L).1 = (intArgs t d a b x dv M).1 ∧ (intArgs t d a b x dv L).2.1 = (intArgs t d a b x dv M).2.1 := by
  have hu := allU_eq_u h
  exact ⟨srcVal_of_u (hu _ (by simp)) L M, srcVal_of_u (hu _ (by simp)) L M⟩

/-- Such an operation reads in each lane what the statement reads before the issue. -/
theorem intArgs_begun {i : Instr} {s : State} {x : Iss} (hx : issue? i s = some x) (t : ITy) (d : Reg) (a b : Src) (L : Nat) :
    intArgs t d a b x (begun i x) L =
      (srcVal x.s.dev x.f x.t (.int t) L a, srcVal x.s.dev x.f x.t (.int t) L b, regLane x.s.dev x.f d.toNat L) := by
  simp only [intArgs, fib_begun hx, srcVal_begun, regLane_begun]

/-- AN OPERATION ON TWO INTEGER SOURCES, which does not read its old destination, gives each sub-element its result, and its flags. -/
theorem subResult_of_int3 {i : Instr} {h : Hdr} {t : ITy} {d : Reg} {a b : Src} {g : Int → Int → Nat × Word} (hh : hdrOf i = some h)
    (he : ∀ s, exec i s = issueOn i h s (int3 t d a b (intShape t false d a b) fun u v _ => g (intVal t u) (intVal t v))) :
    SubResult i t.width d 4 fun x L j => g (srcInt x t a L j) (srcInt x t b L j) := by
  intro s x hx
  have hlands := vecBody_lands hh hx (he s)
  refine ⟨_, _, hlands, fun L hL j hj => ?_, fun n => ?_⟩
  · rw [laneVal_outReg hx ?uniform (fun p s h => absurd h (intShape_ne_a t false d a b _ _ p s)) hL]
    case uniform =>
      intro hu L M _ _
      obtain ⟨ha, hb⟩ := intArgs_of_u hu L M
      simp only [subs3, ha, hb]
    exact (sub_subs3 _ _ _ _ hj).trans (by rw [intArgs_begun hx]; rfl)
  · rw [getLsbD_laneFlags]
    simp only [getLsbD_subs3, intArgs_begun hx]
    exact ⟨fun ⟨L, hL, j, hj, hb⟩ => ⟨L, j, hL, hj, hb⟩, fun ⟨L, j, hL, hj, hb⟩ => ⟨L, hL, j, hj, hb⟩⟩

/-! ### `iaddc` -/

/-- A source of `iaddc` on the begun device is what the statement reads before it. -/
theorem carrySrc_begun {i : Instr} {s : State} {x : Iss} (hx : issue? i s = some x) (uns : Bool) (L : Nat) (a : Src) :
    carrySrc uns x (begun i x) L a = if uns then srcZ s.dev x.f x.t L a else inSrc x .i64 a L := by
  have hz : srcZ (begun i x) (begunFib i x) x.t L a = srcZ s.dev x.f x.t L a := by
    cases a <;> simp [srcZ, srcVal_begun, issue?_s hx]
  simp [carrySrc, fib_begun hx, hz, srcVal_begun, inSrc]

/-- What `iaddc` answers is what its body does. -/
theorem exec_iaddc (h : Hdr) (o : I64) (s : State) : exec (.iaddc h o) s = execIaddc h o s := rfl

/-- Settles O2: quotient and remainder by the lemma on two integer sources; `iaddc` adds in the naturals, cut to 64 bits. -/
theorem divisionAndCarry : Obligations.DivisionAndCarry := by
  refine ⟨⟨fun h o => ?_, fun h o => ?_⟩, fun h o s x hx => ?_⟩
  · exact subResult_of_int3 (g := divRes o.t o.sat) rfl fun s => rfl
  · exact subResult_of_int3 (g := remRes o.t) rfl fun s => rfl
  · refine ⟨_, _, (exec_iaddc h o s).trans (issueOn_answers rfl hx (by rw [fib_begun hx])), fun L hL => ⟨?_, ?_⟩⟩
    · rw [laneVal_outReg_g hx _ hL, BitVec.toNat_ofNat]
      simp only [carrySrc_begun hx, predLane_begun]
    · simp only [decide_eq_true_iff, carrySrc_begun hx, predLane_begun]

end Sys2Proof.Machine
end

section
/-!
PROOF of `MatrixOperations`. An `mma` begins on a device that keeps the path's latch with `ru` (R212); what its operands read there is what
they read before the issue. An operation that has issued stands at the end of its team's list (R211). One that completes writes an image of
32 rows of 32 elements of 4 bytes over its tile (R206), so that an element of the tile is an element of the image.
-/

namespace Sys2Proof.Machine

/-! ### The device an `mma` begins on (R212) -/

/-- The issuing fibre at that point. -/
def mmaFib (i : Instr) (x : Iss) : Fibre := advance x (instrWords i) (if x.h.ru then x.f else releaseLatch x.c x.f)

theorem begunMma_eq (i : Instr) (x : Iss) : ∃ rs, begunMma i x = emitTrace (x.s.dev.setFibre (mmaFib i x)) rs := by
  unfold begunMma prologue
  cases x.h.tm
  · exact ⟨[], by cases x.s; simp only [emitTrace, List.append_nil]; rfl⟩
  · exact ⟨_, rfl⟩

@[simp] theorem mmaFib_uid (i : Instr) (x : Iss) : (mmaFib i x).uid = x.f.uid := by unfold mmaFib; split <;> rfl
@[simp] theorem mmaFib_quad (i : Instr) (x : Iss) : (mmaFib i x).quad = x.f.quad := by unfold mmaFib; split <;> rfl
@[simp] theorem mmaFib_grp (i : Instr) (x : Iss) : (mmaFib i x).grp = x.f.grp := by unfold mmaFib; split <;> rfl
@[simp] theorem mmaFib_nPriv (i : Instr) (x : Iss) : (mmaFib i x).nPriv = x.f.nPriv := by unfold mmaFib; split <;> rfl
@[simp] theorem mmaFib_nWin (i : Instr) (x : Iss) : (mmaFib i x).nWin = x.f.nWin := by unfold mmaFib; split <;> rfl
@[simp] theorem mmaFib_regs (i : Instr) (x : Iss) : (mmaFib i x).regs = x.f.regs := by unfold mmaFib; split <;> rfl

theorem begunMma_fibre? {i : Instr} {s : State} {x : Iss} (hx : issue? i s = some x) :
    (begunMma i x).fibre? x.f.uid = some (mmaFib i x) := by
  have hf : x.s.dev.fibre? (mmaFib i x).uid = some x.f := by rw [mmaFib_uid, issue?_s hx]; exact issue?_fibre hx
  obtain ⟨rs, h⟩ := begunMma_eq i x
  rw [h, fibre?_emitTrace, ← mmaFib_uid i x]
  exact fibre?_setFibre_self hf

theorem fib_begunMma {i : Instr} {s : State} {x : Iss} (hx : issue? i s = some x) : x.fib (begunMma i x) = mmaFib i x := by
  simp [Iss.fib, begunMma_fibre? hx]

theorem team_begunMma {i : Instr} {s : State} {x : Iss} (hx : issue? i s = some x) : x.team (begunMma i x) = x.t := by
  obtain ⟨rs, h⟩ := begunMma_eq i x
  have ht := issue?_team hx
  rw [← issue?_s hx] at ht
  simp [Iss.team, h, ht]

/-- Its threads differ from those before in PC and stall count alone. -/
theorem thread_mmaFib {α : Type} (i : Instr) (x : Iss) (L : Nat) (p : Thread → α)
    (h : ∀ t pc st sp', p { t with pc := pc, stallTo := st, stallPc := sp' } = p t) :
    p ((mmaFib i x).thread L) = p (x.f.thread L) := by
  have hadv : p ((mmaFib i x).thread L) = p ((if x.h.ru then x.f else releaseLatch x.c x.f).thread L) := by
    unfold mmaFib advance Fibre.onLanes
    refine thread_mapThreads _ _ _ _ fun n t => ?_
    split
    · exact h _ _ _ _
    · rfl
  rw [hadv]
  split <;> rfl

theorem logicalOf_mmaFib (i : Instr) (x : Iss) : logicalOf (mmaFib i x) = logicalOf x.f := by
  funext L
  simp only [logicalOf, thread_mmaFib i x _ Thread.task (fun _ _ _ _ => rfl), thread_mmaFib i x _ Thread.logical (fun _ _ _ _ => rfl)]

theorem regOf_begunMma (i : Instr) (x : Iss) (r : Nat) : regOf (begunMma i x) (mmaFib i x) r = regOf x.s.dev x.f r := by
  obtain ⟨rs, h⟩ := begunMma_eq i x
  simp [regOf, h, Fibre.isWindow]

theorem riVal_begunMma (i : Instr) (x : Iss) (L : Nat) (b : RegImm) :
    riVal (begunMma i x) (mmaFib i x) L b = riVal x.s.dev x.f L b := by
  cases b with
  | imm v => rfl
  | reg r =>
    simp only [riVal, regLane, regOf_begunMma]
    cases regOf x.s.dev x.f r.toNat <;> simp [laneVal, thread_mmaFib i x L Thread.life (fun _ _ _ _ => rfl)]

theorem riU_begunMma (i : Instr) (x : Iss) (b : RegImm) : riU (begunMma i x) (mmaFib i x) b = riU x.s.dev x.f b := by
  cases b <;> simp [riU, plainShape, regOf_begunMma]

/-! ### The A group (R209, R212) -/

theorem logicalOf_setLatch (x : Iss) (f : Fibre) (l : Latch) : logicalOf (setLatch x f l) = logicalOf f := rfl

/-- Taking the A group changes latches alone. -/
theorem aGroup_fibre {x : Iss} {d : Dev} {o : MmaOp} {rows : Nat → List Word} {f' : Fibre} (h : aGroup x d o = some (rows, f')) :
    f' = x.fib d ∨ ∃ l, f' = setLatch x (x.fib d) l := by
  simp only [aGroup] at h
  split at h
  · cases h; exact .inl rfl
  · split at h
    · cases h; exact .inr ⟨_, rfl⟩
    · split at h
      · cases h; exact .inr ⟨_, rfl⟩
      · cases h

/-- The issuing fibre with its A group taken: its identity, quadrant and logical threads. -/
theorem aGroup_begunMma {i : Instr} {s : State} {x : Iss} (hx : issue? i s = some x) {o : MmaOp} {rows : Nat → List Word} {f' : Fibre}
    (h : aGroup x (begunMma i x) o = some (rows, f')) : f'.uid = x.f.uid ∧ f'.quad = x.f.quad ∧ logicalOf f' = logicalOf x.f := by
  obtain rfl | ⟨l, rfl⟩ := aGroup_fibre h
  · rw [fib_begunMma hx]
    exact ⟨mmaFib_uid i x, mmaFib_quad i x, logicalOf_mmaFib i x⟩
  · rw [fib_begunMma hx]
    exact ⟨mmaFib_uid i x, mmaFib_quad i x, (logicalOf_setLatch ..).trans (logicalOf_mmaFib i x)⟩

/-! ### `mma` and `mma.shape` issue -/

/-- The header of an issue is the instruction's. -/
theorem issue?_h {i : Instr} {h : Hdr} {s : State} {x : Iss} (hh : hdrOf i = some h) (hx : issue? i s = some x) : x.h = h := by
  obtain ⟨h', hh', hy, -⟩ := issue?_eq hx
  rw [(issOf_eq hy).2.1]
  exact Option.some.inj (hh'.symm.trans hh)

/-- The answer of an instruction that begins as an `mma` does. -/
theorem issueWith_mma {i : Instr} {h : Hdr} {s : State} {x : Iss} {b : Body} {r : Res} (hh : hdrOf i = some h)
    (hx : issue? i s = some x) (he : exec i s = issueWith i h h.ru s b) (hb : b x (begunMma i x) = some r) :
    exec i s = .next (finish x r) := by
  rw [he]
  refine issueWith_answer hh hx ?_
  rw [begunMma, issue?_h hh hx] at hb
  exact hb

/-- The same when it finishes. -/
theorem answers_mma {i : Instr} {h : Hdr} {s : State} {x : Iss} {b : Body} {d : Dev} (hh : hdrOf i = some h)
    (hx : issue? i s = some x) (he : exec i s = issueWith i h h.ru s b) (hb : b x (begunMma i x) = some (.done d)) : Answers i s d :=
  (issueWith_mma hh hx he hb).trans (by rw [finish, issue?_s hx])

theorem illegal_active {x : Iss} (ha : x.act ≠ 0) : x.illegal = .trap x.s.dev ⟨2, 0, 0, x.act, 0⟩ := by
  rw [Iss.illegal, if_neg ha]; rfl

/-- An instruction with the common prologue answers what its body answers on the begun device. -/
theorem issueOn_outcome {i : Instr} {h : Hdr} {s : State} {x : Iss} {b : Body} {r : Res} (hh : hdrOf i = some h)
    (hx : issue? i s = some x) (hb : b x (begun i x) = some r) : issueOn i h s b = .next (finish x r) :=
  issueWith_answer hh hx hb

theorem exec_mma (h : Hdr) (o : MmaOp) (s : State) : exec (.mma h o) s = issueWith (.mma h o) h h.ru s (mmaNow o) := rfl

theorem exec_mmaCv (h : Hdr) (cv : BitVec 4) (o : MmaOp) (s : State) :
    exec (.mmaCv h cv o) s = issueWith (.mmaCv h cv o) h h.ru s (mmaSign cv.toNat o) := rfl

theorem exec_mmaShape (h : Hdr) (pl : BitVec 3) (pb : ParamBlock) (s : State) :
    exec (.mmaShape h pl pb) s = execMmaShape h pl pb s := rfl

/-- `mma` with an operand that does not count as U is illegal. -/
theorem mmaNow_notU {i : Instr} {s : State} {x : Iss} (hx : issue? i s = some x) {o : MmaOp} (ha : x.act ≠ 0)
    (hu : riU x.s.dev x.f o.b = false) : mmaNow o x (begunMma i x) = some x.illegal := by
  rw [mmaNow, if_neg ha]
  simp [fib_begunMma hx, riU_begunMma, hu]

/-- `mma` whose B value fails a check takes that fault (R210). -/
theorem mmaNow_badB {i : Instr} {s : State} {x : Iss} (hx : issue? i s = some x) {o : MmaOp} (ha : x.act ≠ 0)
    (hu : riU x.s.dev x.f o.b = true) {g : (Nat → List Word) × Fibre} (hg : aGroup x (begunMma i x) o = some g) {e : Res}
    (hb : bCheck x x.t o.t (riVal x.s.dev x.f 0 o.b) = some e) : mmaNow o x (begunMma i x) = some e := by
  rw [mmaNow, if_neg ha]
  simp [fib_begunMma hx, riU_begunMma, riVal_begunMma, team_begunMma hx, hu, hg, hb]

/-- `mma` that passes its checks issues with the active lanes' rows in logical order (R209, R211). -/
theorem mmaNow_issues {i : Instr} {s : State} {x : Iss} (hx : issue? i s = some x) {o : MmaOp} (ha : x.act ≠ 0)
    (hu : riU x.s.dev x.f o.b = true) {rows : Nat → List Word} {f' : Fibre} (hg : aGroup x (begunMma i x) o = some (rows, f'))
    (hb : bCheck x x.t o.t (riVal x.s.dev x.f 0 o.b) = none) :
    mmaNow o x (begunMma i x) = some (.done (issueMma ((begunMma i x).setFibre f') x.t.uid x.f.quad x.s.clk.cycle
      ⟨o.ta.toNat, o.t, o.z, riVal x.s.dev x.f 0 o.b, x.c.pc, x.f.quad⟩
      ((logicalOrder x.f x.act.lanes).map fun L => (logicalOf x.f L, rows L)))) := by
  obtain ⟨-, hq, hl⟩ := aGroup_begunMma hx hg
  rw [mmaNow, if_neg ha]
  simp [fib_begunMma hx, riU_begunMma, riVal_begunMma, team_begunMma hx, hu, hg, hb, hq, hl, Iss.order, Iss.lanes,
    logicalOrder, logicalOf_mmaFib]

/-- The signing body on a device whose issuing fibre has taken its A group (R208). -/
theorem signBody_signs {i : Instr} {s : State} {x : Iss} (hx : issue? i s = some x) {o : MmaOp} {rows : Nat → List Word} {f' : Fibre}
    (hg : aGroup x (begunMma i x) o = some (rows, f')) (k : Nat) (r : MmaRec) :
    let a := (logicalOrder x.f x.act.lanes).foldl (signLane x k (some r) rows) ((begunMma i x).setFibre f', [])
    let stay := x.act &&& ~~~(LaneMask.ofLanes a.2)
    let held := if stay ≠ 0 ∧ x.h.ru = true then (latchOf x x.f).toList else []
    a.2 ≠ [] → signBody x ((begunMma i x).setFibre f') k (some r) rows =
      some (.done (a.1.setFibre { keepPc x stay (x.fib a.1) with latches := held ++ (x.fib a.1).latches })) := by
  intro a stay held hne
  obtain ⟨huid, -, hl⟩ := aGroup_begunMma hx hg
  have hfib : x.fib ((begunMma i x).setFibre f') = f' := by
    have := fibre?_setFibre_self (g := f') (huid ▸ begunMma_fibre? hx)
    rw [huid] at this
    simp [Iss.fib, this]
  have horder : x.order ((begunMma i x).setFibre f') = logicalOrder x.f x.act.lanes := by
    simp only [Iss.order, hfib, logicalOrder, hl, Iss.lanes]
  have hempty : a.2.isEmpty = false := by simpa using hne
  simp only [signBody, horder]
  simp only [a] at hempty
  rw [hempty]
  simp [a, stay, held]

/-- `mma` that signs an armed register on which some active lane can sign, with the record it finds or as the first of its set (R208). -/
theorem mmaSign_signs {i : Instr} {s : State} {x : Iss} (hx : issue? i s = some x) {o : MmaOp} (ha : x.act ≠ 0)
    (hu : riU x.s.dev x.f o.b = true) {rows : Nat → List Word} {f' : Fibre} (hg : aGroup x (begunMma i x) o = some (rows, f'))
    {k : Nat} {n : Option Nat} {set signed : List Nat} {q : Option MmaRec} {old : List (Nat × List Word)}
    (hcv : x.t.cv k = .armed n set signed q old)
    (hcan : ∃ L, x.act.has L = true ∧ canSign (x.t.cv k) (logicalOf x.f L) = true) {r : MmaRec}
    (hr : r = ⟨o.ta.toNat, o.t, o.z, riVal x.s.dev x.f 0 o.b, x.c.pc, x.f.quad⟩)
    (hq : (q = none ∧ bCheck x x.t o.t (riVal x.s.dev x.f 0 o.b) = none) ∨
      (∃ q', q = some q' ∧ { q' with pc := x.c.pc, quad := x.f.quad } = r)) :
    mmaSign k o x (begunMma i x) = signBody x ((begunMma i x).setFibre f') k (some r) rows := by
  have hany : (x.lanes.any fun L => canSign (.armed n set signed q old) (logicalOf x.f L)) = true := by
    obtain ⟨L, hL, hc⟩ := hcan
    exact List.any_eq_true.2 ⟨L, mem_lanes.2 hL, hcv ▸ hc⟩
  subst hr
  obtain ⟨rfl, hb⟩ | ⟨q', rfl, hq'⟩ := hq
  · rw [mmaSign, if_neg ha]
    simp [fib_begunMma hx, riU_begunMma, riVal_begunMma, team_begunMma hx, hu, hg, hb, hcv, logicalOf_mmaFib, hany]
  · rw [mmaSign, if_neg ha]
    simp [fib_begunMma hx, riU_begunMma, riVal_begunMma, team_begunMma hx, hu, hg, hcv, logicalOf_mmaFib, hany, hq']

/-! ### An operation in its team's list (R211) -/

/-- A team stands under the identity it is found by. -/
theorem uid_of_team? {d : Dev} {u : Nat} {t : Team} (h : d.team? u = some t) : t.uid = u := by
  simpa using List.find?_some h

/-- A replaced team is found where there was one. -/
theorem team?_setTeam_self {d : Dev} {g t : Team} {u : Nat} (hg : g.uid = u) (h : d.team? u = some t) : (d.setTeam g).team? u = some g := by
  have hsame : ((fun k : Team => k.uid == u) ∘ fun k => if k.uid == g.uid then g else k) = fun k => k.uid == u := by
    funext k
    subst hg
    by_cases hk : k.uid = g.uid <;> simp [hk]
  have ht := uid_of_team? h
  simp only [Dev.team?, Dev.setTeam] at h ⊢
  rw [List.find?_map, hsame, h, Option.map_some, if_pos (by simp [ht, hg])]

/-- The operation that `issueMma` gives its team. -/
def issuedMma (d : Dev) (t : Team) (g : Handle) (quad cycle : Nat) (r : MmaRec) (rows : List (Nat × List Word)) : MmaOpn :=
  { id := d.nextId, quad := quad, ta := r.ta, t := r.t, z := r.z, handle := r.b.toNat % 8, rows := rows, b := bTile t g (field r.b 3 61),
    ready := max (unitFree d t.core quad cycle) (tileFree t r.ta cycle) + mmaCycles r.t, pc := r.pc, held := false }

/-- An operation that issues stands at the end of its team's list. -/
theorem team?_issueMma {d : Dev} {team : Nat} {t : Team} {g : Handle} (quad cycle : Nat) (r : MmaRec) (rows : List (Nat × List Word))
    (ht : d.team? team = some t) (hg : handleOf t (r.b.toNat % 8) = some g) :
    (issueMma d team quad cycle r rows).team? team = some { t with mmas := t.mmas ++ [issuedMma d t g quad cycle r rows] } := by
  simp only [issueMma, ht, hg]
  exact team?_setTeam_self (d := { d with nextId := d.nextId + 1 }) (uid_of_team? ht :) ht

/-! ### The image of a tile (R206) -/

theorem length_natLE (n x : Nat) : (natLE n x).length = n := by
  induction n generalizing x with
  | zero => rfl
  | succ n ih => rw [natLE, List.length_cons, ih]

/-- The number in the low bytes of a number. -/
theorem leNat_natLE (n x : Nat) : leNat (natLE n x) = x % 256 ^ n := by
  induction n generalizing x with
  | zero => simp [natLE, leNat, Nat.mod_one]
  | succ n ih => rw [natLE, leNat, ih, BitVec.toNat_ofNat, pow_succ' 256 n, Nat.mod_mul]

/-- A run of bytes read out of a longer run that has been written. -/
theorem memBytes_memPut_mid (m : List Host.Cell) (a : Nat) (bs : List Byte) (k n : Nat) (h : k + n ≤ bs.length) :
    memBytes (memPut m a bs) (a + k) n = (bs.drop k).take n := by
  refine List.ext_getElem (by rw [length_memBytes, List.length_take, List.length_drop]; omega) fun j h1 h2 => ?_
  rw [length_memBytes] at h1
  have hread := getD_memBytes (memPut m a bs) (a + k) n j h1
  rw [memRead_memPut, if_pos (by omega), show a + k + j - a = k + j by omega] at hread
  rw [List.getD_eq_getElem _ _ (by rw [length_memBytes]; exact h1), List.getD_eq_getElem _ _ (by omega)] at hread
  simpa using hread

/-- The length of pieces of one length laid end to end. -/
theorem length_flatMap_range {α : Type} (f : Nat → List α) {len : Nat} (hf : ∀ i, (f i).length = len) (n : Nat) :
    ((List.range n).flatMap f).length = len * n := by
  simp [List.length_flatMap, hf, Nat.mul_comm]

/-- Piece `k` of pieces of one length laid end to end. -/
theorem take_drop_flatMap_range {α : Type} (f : Nat → List α) {len : Nat} (hf : ∀ i, (f i).length = len) {n k : Nat} (hk : k < n) :
    (((List.range n).flatMap f).drop (len * k)).take len = f k := by
  obtain ⟨r, rfl⟩ : ∃ r, n = k + (r + 1) := ⟨n - k - 1, by omega⟩
  rw [List.range_add, List.flatMap_append, ← length_flatMap_range f hf k, List.drop_left, List.range_succ_eq_map]
  simp [← hf k]

/-- What a matrix operation gives element (`r`, `c`) of its tile (R38, R39, R211). -/
def mmaElem (t : Team) (m : MmaOpn) (r c : Nat) : Nat :=
  mmaStep ((List.range 16).map fun k => (rowElemVal m.t (rowOf m.rows r) k, bElemVal m.t ((m.b.getD k []).getD c 0)))
    (if m.z then 0 else leNat (memBytes t.tile (4096 * m.ta + 128 * r + 4 * c) 4))

theorem mmaImage_eq (t : Team) (m : MmaOpn) :
    mmaImage t m = (List.range 32).flatMap fun r => (List.range 32).flatMap fun c => natLE 4 (mmaElem t m r c) := by
  unfold mmaImage mmaElem
  refine List.flatMap_congr fun r _ => List.flatMap_congr fun c _ => ?_
  rw [tileAt, Nat.mul_comm]
  congr 2

/-- A row of the image has 128 bytes. -/
theorem length_imageRow (f : Nat → Nat) : ((List.range 32).flatMap fun c => natLE 4 (f c)).length = 128 :=
  length_flatMap_range _ (fun _ => length_natLE 4 _) 32

theorem length_mmaImage (t : Team) (m : MmaOpn) : (mmaImage t m).length = 4096 := by
  rw [mmaImage_eq]
  exact length_flatMap_range _ (fun _ => length_imageRow _) 32

/-- The bytes of an element in the image. -/
theorem mmaImage_elem (t : Team) (m : MmaOpn) {r c : Nat} (hr : r < 32) (hc : c < 32) :
    ((mmaImage t m).drop (128 * r + 4 * c)).take 4 = natLE 4 (mmaElem t m r c) := by
  have hrow := take_drop_flatMap_range (fun r => (List.range 32).flatMap fun c => natLE 4 (mmaElem t m r c))
    (fun r => length_imageRow (mmaElem t m r)) hr
  have helem := take_drop_flatMap_range (fun c => natLE 4 (mmaElem t m r c)) (fun c => length_natLE 4 _) hc
  rw [← hrow, List.drop_take, List.take_take, List.drop_drop, Nat.min_eq_left (by omega)] at helem
  rw [mmaImage_eq, helem]

/-! ### A completing operation (R211) -/

/-- The team once an operation has completed. -/
def afterMma (t : Team) (m : MmaOpn) : Team :=
  touchTile { t with tile := memPut t.tile (tileAt m.ta) (mmaImage t m), mmas := t.mmas.filter fun k => k.id != m.id } m.ta

theorem touchTile_uid (t : Team) (ta : Nat) : (touchTile t ta).uid = t.uid := by unfold touchTile; split <;> rfl
theorem touchTile_tile (t : Team) (ta : Nat) : (touchTile t ta).tile = t.tile := by unfold touchTile; split <;> rfl
theorem touchTile_mmas (t : Team) (ta : Nat) : (touchTile t ta).mmas = t.mmas := by unfold touchTile; split <;> rfl

theorem afterMma_uid (t : Team) (m : MmaOpn) : (afterMma t m).uid = t.uid := by rw [afterMma, touchTile_uid]
theorem afterMma_tile (t : Team) (m : MmaOpn) : (afterMma t m).tile = memPut t.tile (tileAt m.ta) (mmaImage t m) := by
  rw [afterMma, touchTile_tile]
theorem afterMma_mmas (t : Team) (m : MmaOpn) : (afterMma t m).mmas = t.mmas.filter fun k => k.id != m.id := by
  rw [afterMma, touchTile_mmas]

theorem tileAt_eq (ta : Nat) : tileAt ta = 4096 * ta := Nat.mul_comm ta 4096

/-- An element of its tile. -/
theorem afterMma_elem (t : Team) (m : MmaOpn) {r c : Nat} (hr : r < 32) (hc : c < 32) :
    leNat (memBytes (afterMma t m).tile (4096 * m.ta + 128 * r + 4 * c) 4) = mmaElem t m r c % 2 ^ 32 := by
  rw [afterMma_tile, tileAt_eq, Nat.add_assoc, memBytes_memPut_mid _ _ _ _ _ (by rw [length_mmaImage]; omega), mmaImage_elem t m hr hc,
    leNat_natLE, show 256 ^ 4 = 2 ^ 32 by norm_num]

/-- Every other tile. -/
theorem afterMma_other (t : Team) (m : MmaOpn) {a : Nat} (ha : a < 4096 * m.ta ∨ 4096 * (m.ta + 1) ≤ a) :
    memRead (afterMma t m).tile a = memRead t.tile a := by
  rw [afterMma_tile, tileAt_eq, memRead_memPut, length_mmaImage, if_neg (by omega)]

/-- An operation whose time is over and which no earlier one on its tile precedes is over. -/
theorem over_of_first {t : Team} {m : MmaOpn} {cycle : Nat} (hready : m.ready ≤ cycle) (hheld : m.held = false)
    (hfirst : ∀ k, k ∈ t.mmas → k.ta = m.ta → m.id ≤ k.id) : m.over t cycle = true := by
  simpa [MmaOpn.over, hheld, hready] using hfirst

/-- MMA_COMPLETE of such an operation replaces its team by `afterMma`. -/
theorem exec_mmaComplete {s : State} {id : Nat} {t : Team} {m : MmaOpn}
    (ht : s.dev.teams.find? (fun t => t.mmas.any fun m => m.id == id) = some t) (hm : t.mmas.find? (fun m => m.id == id) = some m)
    (hover : m.over t s.clk.cycle = true) : exec (.mmaComplete id) s = .next (s.withDev (s.dev.setTeam (afterMma t m))) := by
  have hexec : exec (.mmaComplete id) s = execMmaComplete id s := rfl
  rw [hexec, execMmaComplete, onDev, ht]
  simp only [hm, hover, if_true]
  rfl

/-- `mma.shape` with an active lane on a live handle whose record resolves (R210). -/
theorem mmaShape_resolves {h : Hdr} {pl : BitVec 3} {pb : ParamBlock} {s : State} {x : Iss} (hx : issue? (.mmaShape h pl pb) s = some x)
    (hlit : mmaShapeLit pb = true) (ha : x.act ≠ 0) {g : Handle} {sh : Shape} (hg : handleOf x.t pl.toNat = some g)
    (hsh : resolveShape (begun (.mmaShape h pl pb) x) (begunFib (.mmaShape h pl pb) x) pb = some sh) :
    if mmaShapeOk sh pb g.record then
      Answers (.mmaShape h pl pb) s ((begun (.mmaShape h pl pb) x).setTeam { x.t with
        handles := setAt x.t.handles pl.toNat (some { g with sk := sh.str.getD 0 0, sc := sh.str.getD 1 0 }) })
    else exec (.mmaShape h pl pb) s = .next (finish x (.trap s.dev ⟨2, 0, 0, x.act, 0⟩)) := by
  split
  · rename_i hok
    refine (exec_mmaShape h pl pb s).trans (issueOn_answers rfl hx ?_)
    simp only [hlit, ifActive, if_neg ha, team_begun hx, fib_begun hx, hg, hsh, hok, if_true, Bool.not_true, Bool.false_eq_true, if_false]
  · rename_i hok
    refine (exec_mmaShape h pl pb s).trans (issueOn_outcome rfl hx ?_)
    rw [← issue?_s hx, ← illegal_active ha]
    simp only [hlit, ifActive, if_neg ha, team_begun hx, fib_begun hx, hg, hsh, hok, Bool.not_true, Bool.false_eq_true, if_false]

/-- Settles O30: each clause by the lemma on its case; the elements of a completed tile by those of the image. -/
theorem matrixOperations : Obligations.MatrixOperations := by
  refine ⟨⟨fun h o s x hx => ?_, fun h cv o s x hx => ?_, fun h pl pb s x hx => ?_⟩, fun d team quad cycle r rows t g ht hg => ?_,
    fun s id t m ht hm hteam hready hheld hfirst => ?_⟩
  case refine_1 =>
    obtain rfl := issue?_s hx
    refine ⟨fun ha => ?_, fun ha hu => ?_, fun rows f' ha hu hg => ⟨fun e he => ?_, fun hb => ?_⟩⟩
    · exact answers_mma rfl hx (exec_mma h o _) (if_pos ha)
    · exact issueWith_mma rfl hx (exec_mma h o _) ((mmaNow_notU hx ha hu).trans (by rw [illegal_active ha]))
    · exact issueWith_mma rfl hx (exec_mma h o _) (mmaNow_badB hx ha hu hg he)
    · exact answers_mma rfl hx (exec_mma h o _) (mmaNow_issues hx ha hu hg hb)
  case refine_2 =>
    obtain rfl := issue?_s hx
    refine ⟨fun ha => ?_, fun rows f' n set signed q old ha hu hg hcv hcan hq => ?_⟩
    · exact answers_mma rfl hx (exec_mmaCv h cv o _) (if_pos ha)
    · intro a stay held hne
      exact answers_mma rfl hx (exec_mmaCv h cv o _) ((mmaSign_signs hx ha hu hg hcv hcan rfl hq).trans (signBody_signs hx hg _ _ hne))
  case refine_3 =>
    refine ⟨fun hlit => ?_, fun hlit ha => ?_, fun hlit ha hnone => ?_, fun g sh hlit ha hg hsh => mmaShape_resolves hx hlit ha hg hsh⟩
    · exact (exec_mmaShape h pl pb s).trans (issueOn_outcome rfl hx (by simp [hlit]))
    · exact (exec_mmaShape h pl pb s).trans (issueOn_answers rfl hx (by simp [hlit, ifActive, ha]))
    · refine (exec_mmaShape h pl pb s).trans (issueOn_outcome rfl hx ?_)
      rw [← issue?_s hx]
      simp only [hlit, ifActive, if_neg ha, team_begun hx, hnone, Bool.not_true, Bool.false_eq_true, if_false, Iss.pre]
  case refine_4 => exact ⟨_, team?_issueMma quad cycle r rows ht hg, rfl, rfl, rfl, rfl, rfl, rfl⟩
  case refine_5 =>
    obtain rfl : m.id = id := by simpa using List.find?_some hm
    exact ⟨_, afterMma t m, exec_mmaComplete ht hm (over_of_first hready hheld hfirst), team?_setTeam_self (afterMma_uid t m) hteam,
      afterMma_mmas t m, rfl, rfl, fun r c hr hc => afterMma_elem t m hr hc, fun a ha => afterMma_other t m ha⟩

end Sys2Proof.Machine
end

section
/-!
SUPPORT for statements about floats: the fields of an encoding (R26). With `p` fraction bits and bias `b`, an encoding is a sign, an exponent
field `E` below `2b + 2` and a fraction `M` below `2^p`; the exponent field `2b + 1` holds the infinities and the NaNs.
-/

namespace Sys2Proof.Machine

/-! ### The numbers of a format -/

theorem two_pow_width (t : FTy) : 2 ^ (t.width - 1) = (2 * FTy.bias t + 2) * 2 ^ FTy.frac t := by cases t <;> decide
theorem two_pow_width' (t : FTy) : 2 ^ t.width = 2 * 2 ^ (t.width - 1) := by cases t <;> decide
theorem two_pow_expBits (t : FTy) : 2 ^ (t.width - FTy.prec t) = 2 * FTy.bias t + 2 := by cases t <;> decide
theorem inf_eq (t : FTy) : FTy.inf t = (2 * FTy.bias t + 1) * 2 ^ FTy.frac t := by cases t <;> decide
theorem prec_eq (t : FTy) : FTy.prec t = FTy.frac t + 1 := by cases t <;> rfl
theorem seven_le_frac (t : FTy) : 7 ≤ FTy.frac t := by cases t <;> decide
theorem frac_le (t : FTy) : FTy.frac t ≤ 52 := by cases t <;> decide
theorem fifteen_le_bias (t : FTy) : 15 ≤ FTy.bias t := by cases t <;> decide
theorem bias_le (t : FTy) : FTy.bias t ≤ 1023 := by cases t <;> decide

theorem signBit_eq (t : FTy) (neg : Bool) : signBit t neg = neg.toNat * 2 ^ (t.width - 1) := by cases neg <;> simp [signBit]

theorem inf_lt (t : FTy) : FTy.inf t < 2 ^ (t.width - 1) := by
  rw [inf_eq, two_pow_width]
  exact Nat.mul_lt_mul_of_pos_right (by omega) (by positivity)

/-- An encoding of either sign whose magnitude is at most that of ∞ is a word of the format. -/
theorem signBit_add_lt (t : FTy) (neg : Bool) {c : Nat} (hc : c < 2 ^ (t.width - 1)) : signBit t neg + c < 2 ^ t.width := by
  rw [signBit_eq, two_pow_width']
  cases neg <;> simp <;> omega

/-! ### The value of the fields -/

/-- The value of a sign, an exponent field and a fraction (R26, R28). -/
def fieldsVal (t : FTy) (ftz neg : Bool) (E M : Nat) : FVal :=
  if E = 2 * FTy.bias t + 1 then (if M = 0 then .inf neg else .nan (decide (M < 2 ^ (FTy.frac t - 1))))
  else if E = 0 then .fin neg (if ftz then 0 else M) (1 - (FTy.bias t : Int) - FTy.frac t)
  else .fin neg (M + 2 ^ FTy.frac t) ((E : Int) - FTy.bias t - FTy.frac t)

theorem fval_eq_fieldsVal (t : FTy) (ftz : Bool) (x : Nat) :
    fval t ftz x = fieldsVal t ftz (x / 2 ^ (t.width - 1) % 2 == 1) (x / 2 ^ FTy.frac t % (2 * FTy.bias t + 2)) (x % 2 ^ FTy.frac t) := by
  simp only [fval, fieldsVal, two_pow_expBits, show ∀ n, 2 * n + 2 - 1 = 2 * n + 1 from fun n => rfl]

/-- The value of an encoding written as its fields. -/
theorem fval_fields (t : FTy) (ftz neg : Bool) {E M : Nat} (hE : E < 2 * FTy.bias t + 2) (hM : M < 2 ^ FTy.frac t) :
    fval t ftz (signBit t neg + (E * 2 ^ FTy.frac t + M)) = fieldsVal t ftz neg E M := by
  have hP : 0 < 2 ^ FTy.frac t := by positivity
  have hlow : E * 2 ^ FTy.frac t + M < 2 ^ (t.width - 1) := by
    rw [two_pow_width]
    calc E * 2 ^ FTy.frac t + M < (E + 1) * 2 ^ FTy.frac t := by rw [Nat.succ_mul]; omega
      _ ≤ _ := Nat.mul_le_mul_right _ hE
  have hsign : (signBit t neg + (E * 2 ^ FTy.frac t + M)) / 2 ^ (t.width - 1) = neg.toNat := by
    rw [signBit_eq, Nat.add_comm, Nat.add_mul_div_right _ _ (by positivity), Nat.div_eq_of_lt hlow, Nat.zero_add]
  have hsplit : signBit t neg + (E * 2 ^ FTy.frac t + M) = (neg.toNat * (2 * FTy.bias t + 2) + E) * 2 ^ FTy.frac t + M := by
    rw [signBit_eq, two_pow_width]; ring
  rw [fval_eq_fieldsVal, hsign, hsplit, Nat.add_comm _ M, Nat.add_mul_div_right _ _ hP, Nat.div_eq_of_lt hM, Nat.zero_add,
    Nat.add_comm _ E, Nat.add_mul_mod_self_right, Nat.mod_eq_of_lt hE, Nat.add_mul_mod_self_right, Nat.mod_eq_of_lt hM]
  cases neg <;> rfl

/-- A word of the format is its fields put together. -/
theorem fields_of_lt (t : FTy) {x : Nat} (hx : x < 2 ^ t.width) :
    signBit t (x / 2 ^ (t.width - 1) % 2 == 1) + (x / 2 ^ FTy.frac t % (2 * FTy.bias t + 2) * 2 ^ FTy.frac t + x % 2 ^ FTy.frac t) = x := by
  have hs : x / 2 ^ (t.width - 1) < 2 := by
    rw [Nat.div_lt_iff_lt_mul (by positivity), ← two_pow_width']; exact hx
  have hexp : x / 2 ^ FTy.frac t / (2 * FTy.bias t + 2) = x / 2 ^ (t.width - 1) := by
    rw [Nat.div_div_eq_div_mul, Nat.mul_comm, ← two_pow_width]
  have h1 := Nat.div_add_mod x (2 ^ FTy.frac t)
  have h2 := Nat.div_add_mod (x / 2 ^ FTy.frac t) (2 * FTy.bias t + 2)
  rw [hexp] at h2
  rw [signBit_eq]
  generalize x / 2 ^ (t.width - 1) = S at hs h2 ⊢
  have hsign : (S % 2 == 1).toNat = S := by interval_cases S <;> rfl
  rw [hsign, two_pow_width]
  calc S * ((2 * FTy.bias t + 2) * 2 ^ FTy.frac t) +
        (x / 2 ^ FTy.frac t % (2 * FTy.bias t + 2) * 2 ^ FTy.frac t + x % 2 ^ FTy.frac t)
      = 2 ^ FTy.frac t * ((2 * FTy.bias t + 2) * S + x / 2 ^ FTy.frac t % (2 * FTy.bias t + 2)) + x % 2 ^ FTy.frac t := by ring
    _ = x := by rw [h2, h1]

/-- What the fields of a finite value are. -/
theorem fieldsVal_fin {t : FTy} {ftz neg s : Bool} {E M m : Nat} {e : Int} (h : fieldsVal t ftz neg E M = .fin s m e) :
    neg = s ∧ E ≠ 2 * FTy.bias t + 1 ∧
      ((E = 0 ∧ m = (if ftz then 0 else M) ∧ e = 1 - (FTy.bias t : Int) - FTy.frac t) ∨
        (E ≠ 0 ∧ m = M + 2 ^ FTy.frac t ∧ e = (E : Int) - FTy.bias t - FTy.frac t)) := by
  unfold fieldsVal at h
  split at h
  · split at h <;> cases h
  · rename_i hE
    split at h <;> cases h
    · rename_i h0; exact ⟨rfl, hE, .inl ⟨h0, rfl, rfl⟩⟩
    · rename_i h0; exact ⟨rfl, hE, .inr ⟨h0, rfl, rfl⟩⟩

/-- The significand and exponent of a finite value: subnormal or zero, or normal. -/
theorem fval_fin_range {t : FTy} {ftz s : Bool} {x m : Nat} {e : Int} (h : fval t ftz x = .fin s m e) :
    (m < 2 ^ FTy.frac t ∧ e = 1 - (FTy.bias t : Int) - FTy.frac t) ∨
      (2 ^ FTy.frac t ≤ m ∧ m < 2 ^ (FTy.frac t + 1) ∧ 1 - (FTy.bias t : Int) - FTy.frac t ≤ e ∧ e ≤ (FTy.bias t : Int) - FTy.frac t) := by
  have hM : x % 2 ^ FTy.frac t < 2 ^ FTy.frac t := Nat.mod_lt _ (by positivity)
  have hE : x / 2 ^ FTy.frac t % (2 * FTy.bias t + 2) < 2 * FTy.bias t + 2 := Nat.mod_lt _ (by omega)
  rw [fval_eq_fieldsVal] at h
  obtain ⟨-, hne, ⟨-, rfl, rfl⟩ | ⟨h0, rfl, rfl⟩⟩ := fieldsVal_fin h
  · left
    refine ⟨?_, rfl⟩
    split
    · positivity
    · exact hM
  · right
    rw [pow_succ]
    omega

end Sys2Proof.Machine
end

section
/-!
SUPPORT for statements about floats: rounding to an integer (R27). A number `z` cut at a step `P` is rounded by comparing `z` with multiples
of `P`, or of half of it to nearest (`CutAt`); so only its place among them counts. That is why a quotient and a root may be rounded from a
truncation with a sticky lowest bit.
-/

namespace Sys2Proof.Machine

/-! ### The roundings as comparisons -/

/-- `n` is `z / P` rounded to an integer by mode, written without the division. -/
def CutAt (r : Rnd) (neg : Bool) (z P : ℝ) (n : ℕ) : Prop :=
  let below := n * P ≤ z ∧ z < n * P + P
  let above := z ≤ n * P ∧ n * P < z + P
  match r with
  | .rn => 2 * (n * P) ≤ 2 * z + P ∧ 2 * z ≤ 2 * (n * P) + P ∧ (2 * (n * P) = 2 * z + P ∨ 2 * z = 2 * (n * P) + P → n % 2 = 0)
  | .rz => below
  | .rp => if neg then below else above
  | .rm => if neg then above else below

theorem below_div_iff {z P : ℝ} (hP : 0 < P) (n : ℕ) : ((n : ℝ) ≤ z / P ∧ z / P < n + 1) ↔ (n * P ≤ z ∧ z < n * P + P) := by
  rw [le_div_iff₀ hP, div_lt_iff₀ hP, add_mul, one_mul]

theorem above_div_iff {z P : ℝ} (hP : 0 < P) (n : ℕ) : (z / P ≤ n ∧ (n : ℝ) < z / P + 1) ↔ (z ≤ n * P ∧ n * P < z + P) := by
  rw [div_le_iff₀ hP, div_add_one hP.ne', lt_div_iff₀ hP]

theorem nearest_div_iff {z P : ℝ} (hP : 0 < P) (n : ℕ) :
    (|z / P - n| ≤ 1 / 2 ∧ (|z / P - n| = 1 / 2 → n % 2 = 0)) ↔
      (2 * (n * P) ≤ 2 * z + P ∧ 2 * z ≤ 2 * (n * P) + P ∧ (2 * (n * P) = 2 * z + P ∨ 2 * z = 2 * (n * P) + P → n % 2 = 0)) := by
  have hz : z = z / P * P := (div_mul_cancel₀ z hP.ne').symm
  generalize z / P = w at hz ⊢
  subst hz
  have hle : |w - n| ≤ 1 / 2 ↔ 2 * (n * P) ≤ 2 * (w * P) + P ∧ 2 * (w * P) ≤ 2 * (n * P) + P := by
    rw [abs_le]
    constructor
    · rintro ⟨h1, h2⟩; constructor <;> nlinarith
    · rintro ⟨h1, h2⟩; constructor <;> by_contra hc <;> nlinarith
  have heq : |w - n| = 1 / 2 ↔ 2 * (n * P) = 2 * (w * P) + P ∨ 2 * (w * P) = 2 * (n * P) + P := by
    rw [abs_eq (by norm_num), or_comm]
    refine or_congr ⟨fun h => ?_, fun h => ?_⟩ ⟨fun h => ?_, fun h => ?_⟩
    · linear_combination (-2 * P) * h
    · refine mul_right_cancel₀ hP.ne' ?_; linear_combination (-1 / 2) * h
    · linear_combination (2 * P) * h
    · refine mul_right_cancel₀ hP.ne' ?_; linear_combination (1 / 2) * h
  rw [hle, heq, and_assoc]

/-- A rounding of a quotient by a positive step. -/
theorem roundsTo_div_iff {r : Rnd} {neg : Bool} {z P : ℝ} {n : ℕ} (hP : 0 < P) : RoundsTo r neg (z / P) n ↔ CutAt r neg z P n := by
  cases r with
  | rn => exact nearest_div_iff hP n
  | rz => exact below_div_iff hP n
  | rp => cases neg <;> simp [RoundsTo, CutAt, below_div_iff hP, above_div_iff hP]
  | rm => cases neg <;> simp [RoundsTo, CutAt, below_div_iff hP, above_div_iff hP]

/-! ### Integers divided by a power of two -/

/-- What `rndShift` adds to the quotient: it rounds up by mode from a remainder that is not 0. -/
theorem rndShift_fst (r : Rnd) (neg : Bool) (m k : Nat) :
    (rndShift r neg m k).1 = m / 2 ^ k ∨ (m % 2 ^ k ≠ 0 ∧ (rndShift r neg m k).1 = m / 2 ^ k + 1) := by
  simp only [rndShift]
  split_ifs with h
  · exact .inr ⟨h.1, rfl⟩
  · exact .inl rfl

/-- To nearest, ties to even. -/
theorem rndShift_rn (neg : Bool) (m k : Nat) :
    2 * ((rndShift .rn neg m k).1 * 2 ^ k) ≤ 2 * m + 2 ^ k ∧ 2 * m ≤ 2 * ((rndShift .rn neg m k).1 * 2 ^ k) + 2 ^ k ∧
      (2 * ((rndShift .rn neg m k).1 * 2 ^ k) = 2 * m + 2 ^ k ∨ 2 * m = 2 * ((rndShift .rn neg m k).1 * 2 ^ k) + 2 ^ k →
        (rndShift .rn neg m k).1 % 2 = 0) := by
  have hP : 0 < 2 ^ k := by positivity
  have hm := Nat.div_add_mod' m (2 ^ k)
  have hrem := Nat.mod_lt m hP
  simp only [rndShift]
  split
  · rename_i h
    simp only [Bool.or_eq_true, decide_eq_true_eq, Bool.and_eq_true, beq_iff_eq] at h
    simp only [Nat.succ_mul]
    omega
  · rename_i h
    simp only [Bool.or_eq_true, decide_eq_true_eq, Bool.and_eq_true, beq_iff_eq] at h
    omega

/-- Toward zero, where the mode never rounds up. -/
theorem rndShift_below {r : Rnd} {neg : Bool} (hr : r = .rz ∨ (r = .rp ∧ neg = true) ∨ (r = .rm ∧ neg = false)) (m k : Nat) :
    (rndShift r neg m k).1 * 2 ^ k ≤ m ∧ m < (rndShift r neg m k).1 * 2 ^ k + 2 ^ k := by
  have hm := Nat.div_add_mod' m (2 ^ k)
  have hrem := Nat.mod_lt m (show 0 < 2 ^ k by positivity)
  have hq : (rndShift r neg m k).1 = m / 2 ^ k := by
    obtain rfl | ⟨rfl, rfl⟩ | ⟨rfl, rfl⟩ := hr <;> simp [rndShift]
  rw [hq]
  omega

/-- Away from zero, where the mode always rounds up. -/
theorem rndShift_above {r : Rnd} {neg : Bool} (hr : (r = .rp ∧ neg = false) ∨ (r = .rm ∧ neg = true)) (m k : Nat) :
    m ≤ (rndShift r neg m k).1 * 2 ^ k ∧ (rndShift r neg m k).1 * 2 ^ k < m + 2 ^ k := by
  have hm := Nat.div_add_mod' m (2 ^ k)
  have hrem := Nat.mod_lt m (show 0 < 2 ^ k by positivity)
  have hq : (rndShift r neg m k).1 = if m % 2 ^ k ≠ 0 then m / 2 ^ k + 1 else m / 2 ^ k := by
    obtain ⟨rfl, rfl⟩ | ⟨rfl, rfl⟩ := hr <;> simp [rndShift]
  rw [hq]
  split
  · rw [Nat.succ_mul]; omega
  · omega

/-- Inexact exactly when the value changes. -/
theorem rndShift_inexact (r : Rnd) (neg : Bool) (m k : Nat) :
    (rndShift r neg m k).2 = true ↔ (rndShift r neg m k).1 * 2 ^ k ≠ m := by
  have hm := Nat.div_add_mod' m (2 ^ k)
  have hrem := Nat.mod_lt m (show 0 < 2 ^ k by positivity)
  have h2 : (rndShift r neg m k).2 = true ↔ m % 2 ^ k ≠ 0 := by simp [rndShift]
  rw [h2]
  obtain hq | ⟨hne, hq⟩ := rndShift_fst r neg m k
  · rw [hq]; omega
  · rw [hq, Nat.succ_mul]; omega

/-- `rndShift` cuts its significand at the power of two. -/
theorem cutAt_rndShift (r : Rnd) (neg : Bool) (m k : Nat) : CutAt r neg m (2 ^ k) (rndShift r neg m k).1 := by
  have below : ∀ {q : Nat}, q * 2 ^ k ≤ m ∧ m < q * 2 ^ k + 2 ^ k → (q : ℝ) * 2 ^ k ≤ m ∧ (m : ℝ) < q * 2 ^ k + 2 ^ k := by
    intro q h; exact_mod_cast h
  have above : ∀ {q : Nat}, m ≤ q * 2 ^ k ∧ q * 2 ^ k < m + 2 ^ k → (m : ℝ) ≤ q * 2 ^ k ∧ (q : ℝ) * 2 ^ k < m + 2 ^ k := by
    intro q h; exact_mod_cast h
  cases r with
  | rn =>
    have h := rndShift_rn neg m k
    unfold CutAt
    exact_mod_cast h
  | rz => exact below (rndShift_below (.inl rfl) m k)
  | rp =>
    cases neg with
    | true => exact below (rndShift_below (.inr (.inl ⟨rfl, rfl⟩)) m k)
    | false => exact above (rndShift_above (.inl ⟨rfl, rfl⟩) m k)
  | rm =>
    cases neg with
    | true => exact above (rndShift_above (.inr ⟨rfl, rfl⟩) m k)
    | false => exact below (rndShift_below (.inr (.inr ⟨rfl, rfl⟩)) m k)

/-- An integer is its own rounding. -/
theorem cutAt_self (r : Rnd) (neg : Bool) (n : ℕ) : CutAt r neg n 1 n := by
  cases r <;> cases neg <;> simp [CutAt]

/-! ### Numbers `m × 2^e` -/

/-- The step `2^q` as a real number, split at the exponent of the number that is cut. -/
theorem zpow_split (e q : ℤ) : (2 : ℝ) ^ e = 2 ^ (e - q) * 2 ^ q := by rw [← zpow_add₀ two_ne_zero, sub_add_cancel]

theorem zpow_toNat {k : ℤ} (hk : 0 ≤ k) : (2 : ℝ) ^ k = 2 ^ k.toNat := by
  conv_lhs => rw [← Int.toNat_of_nonneg hk]
  exact zpow_natCast 2 _

/-- `rndTo` rounds `m × 2^e` to a multiple of `2^q`. -/
theorem roundsTo_rndTo (r : Rnd) (neg : Bool) (m : Nat) (e q : ℤ) : RoundsTo r neg (m * 2 ^ e / 2 ^ q) (rndTo r neg m e q).1 := by
  unfold rndTo
  split
  · rename_i h
    have hz : (m : ℝ) * 2 ^ e / 2 ^ q = ((m * 2 ^ (e - q).toNat : ℕ) : ℝ) / 1 := by
      rw [zpow_split e q, zpow_toNat (by omega : 0 ≤ e - q), div_one, ← mul_assoc, mul_div_cancel_right₀ _ (by positivity)]
      push_cast; ring
    rw [hz, roundsTo_div_iff one_pos]
    exact cutAt_self r neg _
  · rename_i h
    have hz : (m : ℝ) * 2 ^ e / 2 ^ q = m / 2 ^ (q - e).toNat := by
      rw [zpow_split q e, zpow_toNat (by omega : 0 ≤ q - e), mul_div_mul_right _ _ (by positivity)]
    rw [hz, roundsTo_div_iff (by positivity)]
    exact cutAt_rndShift r neg m _

/-- It is inexact exactly when the value changes. -/
theorem rndTo_inexact (r : Rnd) (neg : Bool) (m : Nat) (e q : ℤ) :
    (rndTo r neg m e q).2 = true ↔ ((rndTo r neg m e q).1 : ℝ) * 2 ^ q ≠ m * 2 ^ e := by
  unfold rndTo
  split
  · rename_i h
    rw [zpow_split e q, zpow_toNat (by omega : 0 ≤ e - q)]
    push_cast
    simp [mul_assoc]
  · rename_i h
    rw [zpow_split q e, zpow_toNat (by omega : 0 ≤ q - e), ← mul_assoc, ne_eq, mul_left_inj' (by positivity), rndShift_inexact]
    exact_mod_cast Iff.rfl

/-! ### Bounds -/

/-- A rounding does not pass an integer that the number does not pass, from below. -/
theorem RoundsTo.le_of_le {r : Rnd} {neg : Bool} {y : ℝ} {n N : ℕ} (h : RoundsTo r neg y n) (hy : y ≤ N) : n ≤ N := by
  have key : (n : ℝ) < N + 1 → n ≤ N := fun h => by exact_mod_cast Nat.lt_succ_iff.1 (by exact_mod_cast h)
  apply key
  cases r with
  | rn => have := abs_le.1 h.1; linarith
  | rz => linarith [h.1]
  | rp => cases neg <;> linarith [h.1, h.2]
  | rm => cases neg <;> linarith [h.1, h.2]

/-- Nor from above. -/
theorem RoundsTo.le_of_ge {r : Rnd} {neg : Bool} {y : ℝ} {n N : ℕ} (h : RoundsTo r neg y n) (hy : N ≤ y) : N ≤ n := by
  have key : (N : ℝ) < n + 1 → N ≤ n := fun h => by exact_mod_cast Nat.lt_succ_iff.1 (by exact_mod_cast h)
  apply key
  cases r with
  | rn => have := abs_le.1 h.1; linarith
  | rz => linarith [h.2]
  | rp => cases neg <;> linarith [h.1, h.2]
  | rm => cases neg <;> linarith [h.1, h.2]

/-! ### A truncation with a sticky lowest bit -/

/-- A number strictly between two neighbouring even integers is cut, at a step that is a multiple of 4, as the odd integer between them. -/
theorem CutAt.of_sticky {r : Rnd} {neg : Bool} {q D n : ℕ} {z : ℝ} (h : CutAt r neg ((2 * q + 1 : ℕ) : ℝ) ((4 * D : ℕ) : ℝ) n)
    (h1 : ((2 * q : ℕ) : ℝ) < z) (h2 : z < ((2 * q + 2 : ℕ) : ℝ)) : CutAt r neg z ((4 * D : ℕ) : ℝ) n := by
  have hnD : (n : ℝ) * ((4 * D : ℕ) : ℝ) = ((4 * (n * D) : ℕ) : ℝ) := by push_cast; ring
  have below : (n : ℝ) * ((4 * D : ℕ) : ℝ) ≤ ((2 * q + 1 : ℕ) : ℝ) ∧ ((2 * q + 1 : ℕ) : ℝ) < n * ((4 * D : ℕ) : ℝ) + ((4 * D : ℕ) : ℝ) →
      n * ((4 * D : ℕ) : ℝ) ≤ z ∧ z < n * ((4 * D : ℕ) : ℝ) + ((4 * D : ℕ) : ℝ) := by
    rw [hnD]
    rintro ⟨ha, hb⟩
    norm_cast at ha hb
    have ha' : ((4 * (n * D) : ℕ) : ℝ) ≤ ((2 * q : ℕ) : ℝ) := by exact_mod_cast (by omega : 4 * (n * D) ≤ 2 * q)
    have hb' : ((2 * q + 2 : ℕ) : ℝ) ≤ ((4 * (n * D) : ℕ) : ℝ) + ((4 * D : ℕ) : ℝ) := by
      exact_mod_cast (by omega : 2 * q + 2 ≤ 4 * (n * D) + 4 * D)
    constructor <;> linarith
  have above : ((2 * q + 1 : ℕ) : ℝ) ≤ n * ((4 * D : ℕ) : ℝ) ∧ n * ((4 * D : ℕ) : ℝ) < ((2 * q + 1 : ℕ) : ℝ) + ((4 * D : ℕ) : ℝ) →
      z ≤ n * ((4 * D : ℕ) : ℝ) ∧ n * ((4 * D : ℕ) : ℝ) < z + ((4 * D : ℕ) : ℝ) := by
    rw [hnD]
    rintro ⟨ha, hb⟩
    norm_cast at ha hb
    have ha' : ((2 * q + 2 : ℕ) : ℝ) ≤ ((4 * (n * D) : ℕ) : ℝ) := by exact_mod_cast (by omega : 2 * q + 2 ≤ 4 * (n * D))
    have hb' : ((4 * (n * D) : ℕ) : ℝ) ≤ ((2 * q : ℕ) : ℝ) + ((4 * D : ℕ) : ℝ) := by
      exact_mod_cast (by omega : 4 * (n * D) ≤ 2 * q + 4 * D)
    constructor <;> linarith
  cases r with
  | rz => exact below h
  | rp =>
    cases neg with
    | true => exact below h
    | false => exact above h
  | rm =>
    cases neg with
    | true => exact above h
    | false => exact below h
  | rn =>
    unfold CutAt at h ⊢
    simp only [hnD] at h ⊢
    obtain ⟨ha, hb, -⟩ := h
    norm_cast at ha hb
    have ha' : 2 * ((4 * (n * D) : ℕ) : ℝ) ≤ 2 * ((2 * q : ℕ) : ℝ) + ((4 * D : ℕ) : ℝ) := by
      exact_mod_cast (by omega : 2 * (4 * (n * D)) ≤ 2 * (2 * q) + 4 * D)
    have hb' : 2 * ((2 * q + 2 : ℕ) : ℝ) ≤ 2 * ((4 * (n * D) : ℕ) : ℝ) + ((4 * D : ℕ) : ℝ) := by
      exact_mod_cast (by omega : 2 * (2 * q + 2) ≤ 2 * (4 * (n * D)) + 4 * D)
    refine ⟨by linarith, by linarith, fun h => absurd h ?_⟩
    rintro (h | h) <;> linarith

end Sys2Proof.Machine
end

section
/-!
SUPPORT for statements about floats: `roundTo` gives a number rounded once (R27, R28). The significand `n` that the format keeps is put
under the exponent field `E` of its binade, as `E × 2^p + n`, whose carry into the next binade is right by itself; so one lemma gives the
value of the encoding and one says when it reaches ∞.
-/

namespace Sys2Proof.Machine

/-! ### Encodings of a significand under an exponent -/

/-- A code that is finite: a subnormal significand under exponent 0, any other under its own, has the value it says. -/
theorem fval_code (t : FTy) (neg : Bool) {E n : Nat} (hn : n ≤ 2 ^ (FTy.frac t + 1)) (h0 : n < 2 ^ FTy.frac t → E = 0)
    (hfin : E * 2 ^ FTy.frac t + n < FTy.inf t) :
    ∃ m e, fval t false (signBit t neg + (E * 2 ^ FTy.frac t + n)) = .fin neg m e ∧
      (m : ℝ) * 2 ^ e = n * 2 ^ ((E : ℤ) + 1 - FTy.bias t - FTy.frac t) := by
  rw [inf_eq] at hfin
  rw [pow_succ] at hn
  have hP : 0 < 2 ^ FTy.frac t := by positivity
  by_cases hsub : n < 2 ^ FTy.frac t
  · obtain rfl := h0 hsub
    refine ⟨n, 1 - (FTy.bias t : ℤ) - FTy.frac t, (fval_fields t false neg (by omega) hsub).trans (by simp [fieldsVal]), ?_⟩
    norm_num
  · by_cases hcarry : n = 2 ^ FTy.frac t * 2
    · have hE : E + 2 < 2 * FTy.bias t + 1 := by
        refine Nat.lt_of_mul_lt_mul_right (a := 2 ^ FTy.frac t) ?_
        calc (E + 2) * 2 ^ FTy.frac t = E * 2 ^ FTy.frac t + n := by rw [hcarry]; ring
          _ < _ := hfin
      have hcode : E * 2 ^ FTy.frac t + n = (E + 2) * 2 ^ FTy.frac t + 0 := by rw [hcarry]; ring
      refine ⟨2 ^ FTy.frac t, (E + 2 : ℕ) - (FTy.bias t : ℤ) - FTy.frac t, ?_, ?_⟩
      · rw [hcode, fval_fields t false neg (by omega) hP, fieldsVal, if_neg (by omega), if_neg (by omega), Nat.zero_add]
      · rw [hcarry]
        push_cast
        rw [show (E : ℤ) + 2 - FTy.bias t - FTy.frac t = 1 + (E + 1 - FTy.bias t - FTy.frac t) by ring, zpow_add₀ two_ne_zero]
        ring
    · have hE : E + 1 < 2 * FTy.bias t + 1 := by
        refine Nat.lt_of_mul_lt_mul_right (a := 2 ^ FTy.frac t) ?_
        calc (E + 1) * 2 ^ FTy.frac t = E * 2 ^ FTy.frac t + 2 ^ FTy.frac t := by ring
          _ ≤ E * 2 ^ FTy.frac t + n := by omega
          _ < _ := hfin
      have hcode : E * 2 ^ FTy.frac t + n = (E + 1) * 2 ^ FTy.frac t + (n - 2 ^ FTy.frac t) := by
        rw [Nat.succ_mul]; omega
      refine ⟨n, (E + 1 : ℕ) - (FTy.bias t : ℤ) - FTy.frac t, ?_, ?_⟩
      · rw [hcode, fval_fields t false neg (by omega) (by omega), fieldsVal, if_neg (by omega), if_neg (by omega),
          Nat.sub_add_cancel (by omega)]
      · push_cast; ring_nf

/-- A significand in the binade of its exponent reaches ∞ exactly when its value reaches `2^(bias + 1)`. -/
theorem inf_le_code_iff (t : FTy) {E n : Nat} (hn : n ≤ 2 ^ (FTy.frac t + 1)) (h0 : n < 2 ^ FTy.frac t → E = 0) :
    FTy.inf t ≤ E * 2 ^ FTy.frac t + n ↔
      (2 : ℝ) ^ ((FTy.bias t : ℤ) + 1) ≤ n * 2 ^ ((E : ℤ) + 1 - FTy.bias t - FTy.frac t) := by
  have hP : 0 < 2 ^ FTy.frac t := by positivity
  -- the value as `n / 2^p` in the binade
  have hval : (n : ℝ) * 2 ^ ((E : ℤ) + 1 - FTy.bias t - FTy.frac t) = (n / 2 ^ FTy.frac t) * 2 ^ ((E : ℤ) + 1 - FTy.bias t) := by
    rw [zpow_sub₀ two_ne_zero, zpow_natCast]; ring
  rw [hval, inf_eq]
  rw [pow_succ] at hn
  have hb := fifteen_le_bias t
  have hPr : (0 : ℝ) < 2 ^ FTy.frac t := by positivity
  have hn2 : (n : ℝ) / 2 ^ FTy.frac t ≤ 2 := by rw [div_le_iff₀ hPr]; exact_mod_cast (by omega : n ≤ 2 * 2 ^ FTy.frac t)
  by_cases hsub : n < 2 ^ FTy.frac t
  · obtain rfl := h0 hsub
    have h1 : (n : ℝ) / 2 ^ FTy.frac t < 1 := by rw [div_lt_one hPr]; exact_mod_cast hsub
    refine iff_of_false (by nlinarith) (not_le.2 ?_)
    calc (n : ℝ) / 2 ^ FTy.frac t * 2 ^ (((0 : ℕ) : ℤ) + 1 - FTy.bias t)
        < 1 * 2 ^ (((0 : ℕ) : ℤ) + 1 - FTy.bias t) := mul_lt_mul_of_pos_right h1 (by positivity)
      _ ≤ 2 ^ ((FTy.bias t : ℤ) + 1) := by rw [one_mul]; exact zpow_le_zpow_right₀ one_le_two (by push_cast; omega)
  have hn1 : 1 ≤ (n : ℝ) / 2 ^ FTy.frac t := by rw [one_le_div hPr]; exact_mod_cast Nat.le_of_not_lt hsub
  by_cases hE : 2 * FTy.bias t ≤ E
  · refine iff_of_true ?_ ?_
    · calc (2 * FTy.bias t + 1) * 2 ^ FTy.frac t = 2 * FTy.bias t * 2 ^ FTy.frac t + 2 ^ FTy.frac t := by ring
        _ ≤ E * 2 ^ FTy.frac t + n := Nat.add_le_add (Nat.mul_le_mul_right _ hE) (by omega)
    · calc (2 : ℝ) ^ ((FTy.bias t : ℤ) + 1) ≤ 1 * 2 ^ ((E : ℤ) + 1 - FTy.bias t) := by
            rw [one_mul]; exact zpow_le_zpow_right₀ one_le_two (by omega)
        _ ≤ _ := mul_le_mul_of_nonneg_right hn1 (by positivity)
  by_cases hcarry : n = 2 ^ FTy.frac t * 2
  · have hn2 : (n : ℝ) / 2 ^ FTy.frac t = 2 := by rw [hcarry]; push_cast; field_simp
    have hcode : E * 2 ^ FTy.frac t + n = (E + 2) * 2 ^ FTy.frac t := by rw [hcarry]; ring
    rw [hcode, hn2, ← zpow_one_add₀ two_ne_zero, zpow_le_zpow_iff_right₀ one_lt_two, Nat.mul_le_mul_right_iff hP]
    omega
  · refine iff_of_false (not_le.2 ?_) (not_le.2 ?_)
    · calc E * 2 ^ FTy.frac t + n < E * 2 ^ FTy.frac t + 2 * 2 ^ FTy.frac t := by omega
        _ = (E + 2) * 2 ^ FTy.frac t := by ring
        _ ≤ _ := Nat.mul_le_mul_right _ (by omega)
    · have hn2 : (n : ℝ) / 2 ^ FTy.frac t < 2 := by
        rw [div_lt_iff₀ hPr]; exact_mod_cast (by omega : n < 2 * 2 ^ FTy.frac t)
      calc (n : ℝ) / 2 ^ FTy.frac t * 2 ^ ((E : ℤ) + 1 - FTy.bias t) < 2 * 2 ^ ((E : ℤ) + 1 - FTy.bias t) :=
            mul_lt_mul_of_pos_right hn2 (by positivity)
        _ ≤ 2 ^ ((FTy.bias t : ℤ) + 1) := by
            rw [← zpow_one_add₀ two_ne_zero]; exact zpow_le_zpow_right₀ one_le_two (by omega)

/-! ### The parts of `roundTo` -/

/-- The exponent of the binade of `m × 2^e`. -/
def binade (m : Nat) (e : ℤ) : ℤ := (m.log2 : ℤ) + e

/-- The exponent field that the kept significand is put under. -/
def expField (t : FTy) (m : Nat) (e : ℤ) : Nat := (max (binade m e) (1 - (FTy.bias t : ℤ)) + FTy.bias t - 1).toNat

/-- The exponent of one unit in the last place of the format at `m × 2^e`. -/
def ulpExp (t : FTy) (m : Nat) (e : ℤ) : ℤ := max (binade m e) (1 - (FTy.bias t : ℤ)) - FTy.frac t

theorem ulpExp_eq (t : FTy) (m : Nat) (e : ℤ) : ulpExp t m e = (expField t m e : ℤ) + 1 - FTy.bias t - FTy.frac t := by
  unfold ulpExp expField
  omega

/-- The significand rounded at the last place of the format, and whether that was inexact. -/
def kept (t : FTy) (r : Rnd) (neg : Bool) (m : Nat) (e : ℤ) : Nat × Bool := rndTo r neg m e (ulpExp t m e)

/-- The significand rounded as if there were no lowest exponent. -/
def free (t : FTy) (r : Rnd) (neg : Bool) (m : Nat) (e : ℤ) : Nat := (rndTo r neg m e (binade m e - FTy.frac t)).1

theorem two_zpow_binade_le {m : Nat} (e : ℤ) (hm : m ≠ 0) : (2 : ℝ) ^ binade m e ≤ m * 2 ^ e := by
  rw [binade, zpow_add₀ two_ne_zero, zpow_natCast]
  exact mul_le_mul_of_nonneg_right (by exact_mod_cast Nat.log2_self_le hm) (by positivity)

theorem lt_two_zpow_binade (m : Nat) (e : ℤ) : (m : ℝ) * 2 ^ e < 2 ^ (binade m e + 1) := by
  rw [binade, add_right_comm, zpow_add₀ two_ne_zero]
  exact mul_lt_mul_of_pos_right (by exact_mod_cast Nat.lt_log2_self) (by positivity)

/-- The number over a step `2^(k - p)` at or above its own binade lies below `2^(p + 1)`. -/
theorem scaled_lt (t : FTy) {m : Nat} {e k : ℤ} (h : binade m e ≤ k) : (m : ℝ) * 2 ^ e / 2 ^ (k - FTy.frac t) ≤ ((2 ^ (FTy.frac t + 1) : ℕ) : ℝ) := by
  rw [div_le_iff₀ (by positivity)]
  calc (m : ℝ) * 2 ^ e ≤ 2 ^ (binade m e + 1) := (lt_two_zpow_binade m e).le
    _ ≤ 2 ^ (k + 1) := zpow_le_zpow_right₀ one_le_two (by omega)
    _ = _ := by
      push_cast
      rw [← zpow_natCast, ← zpow_add₀ two_ne_zero]
      congr 1; push_cast; ring

/-- Over the step of its own binade it is at least `2^p`. -/
theorem le_scaled (t : FTy) {m : Nat} {e k : ℤ} (hm : m ≠ 0) (h : k ≤ binade m e) :
    ((2 ^ FTy.frac t : ℕ) : ℝ) ≤ m * 2 ^ e / 2 ^ (k - FTy.frac t) := by
  rw [le_div_iff₀ (by positivity)]
  calc ((2 ^ FTy.frac t : ℕ) : ℝ) * 2 ^ (k - FTy.frac t) = 2 ^ k := by
        push_cast
        rw [← zpow_natCast, ← zpow_add₀ two_ne_zero]
        congr 1; ring
    _ ≤ 2 ^ binade m e := zpow_le_zpow_right₀ one_le_two h
    _ ≤ _ := two_zpow_binade_le e hm

section
variable (t : FTy) (r : Rnd) (neg : Bool) {m : Nat} (e : ℤ)

theorem roundsTo_kept : RoundsTo r neg (m * 2 ^ e / 2 ^ ulpExp t m e) (kept t r neg m e).1 := roundsTo_rndTo ..

theorem roundsTo_free : RoundsTo r neg (m * 2 ^ e / 2 ^ (binade m e - FTy.frac t)) (free t r neg m e) := roundsTo_rndTo ..

theorem kept_inexact : (kept t r neg m e).2 = true ↔ ((kept t r neg m e).1 : ℝ) * 2 ^ ulpExp t m e ≠ m * 2 ^ e := rndTo_inexact ..

theorem kept_le : (kept t r neg m e).1 ≤ 2 ^ (FTy.frac t + 1) :=
  (roundsTo_kept t r neg e).le_of_le (scaled_lt t (le_max_left _ _))

theorem free_le : free t r neg m e ≤ 2 ^ (FTy.frac t + 1) := (roundsTo_free t r neg e).le_of_le (scaled_lt t le_rfl)

/-- A significand that keeps fewer bits than the precision stands under the lowest exponent. -/
theorem expField_of_kept_lt (hm : m ≠ 0) (h : (kept t r neg m e).1 < 2 ^ FTy.frac t) : expField t m e = 0 := by
  by_contra hE
  refine absurd ((roundsTo_kept t r neg e).le_of_ge (le_scaled t hm ?_)) (not_le.2 h)
  unfold expField at hE
  omega

end

/-- A value rounded without a lowest exponent is below the smallest normal exactly when its binade is, unless it carries into it. -/
theorem tiny_iff (t : FTy) (r : Rnd) (neg : Bool) {m : Nat} (e : ℤ) (hm : m ≠ 0) :
    (free t r neg m e : ℝ) * 2 ^ (binade m e - FTy.frac t) < 2 ^ (1 - (FTy.bias t : ℤ)) ↔
      binade m e < 1 - (FTy.bias t : ℤ) ∧ ¬(binade m e = 1 - (FTy.bias t : ℤ) - 1 ∧ 2 ^ (FTy.frac t + 1) ≤ free t r neg m e) := by
  have hle := free_le t r neg (m := m) e
  have hge : 2 ^ FTy.frac t ≤ free t r neg m e := (roundsTo_free t r neg e).le_of_ge (le_scaled t hm le_rfl)
  have hpow : ∀ n : ℕ, ((2 ^ n : ℕ) : ℝ) * 2 ^ (binade m e - FTy.frac t) = 2 ^ (n + binade m e - FTy.frac t) := fun n => by
    push_cast
    rw [← zpow_natCast, ← zpow_add₀ two_ne_zero, add_sub_assoc]
  have hmono : ∀ {a b : ℕ}, a ≤ b → (a : ℝ) * 2 ^ (binade m e - FTy.frac t) ≤ b * 2 ^ (binade m e - FTy.frac t) := fun h =>
    mul_le_mul_of_nonneg_right (by exact_mod_cast h) (by positivity)
  by_cases htop : 1 - (FTy.bias t : ℤ) ≤ binade m e
  · refine iff_of_false (not_lt.2 ?_) fun h => by omega
    calc (2 : ℝ) ^ (1 - (FTy.bias t : ℤ)) ≤ 2 ^ ((FTy.frac t : ℕ) + binade m e - FTy.frac t) :=
          zpow_le_zpow_right₀ one_le_two (by omega)
      _ = _ := (hpow _).symm
      _ ≤ _ := hmono hge
  by_cases hnext : binade m e = 1 - (FTy.bias t : ℤ) - 1
  · by_cases hcarry : 2 ^ (FTy.frac t + 1) ≤ free t r neg m e
    · refine iff_of_false (not_lt.2 ?_) fun h => h.2 ⟨hnext, hcarry⟩
      calc (2 : ℝ) ^ (1 - (FTy.bias t : ℤ)) ≤ 2 ^ ((FTy.frac t + 1 : ℕ) + binade m e - FTy.frac t) :=
            zpow_le_zpow_right₀ one_le_two (by push_cast; omega)
        _ = _ := (hpow _).symm
        _ ≤ _ := hmono hcarry
    · refine iff_of_true ?_ ⟨by omega, fun h => hcarry h.2⟩
      calc (free t r neg m e : ℝ) * 2 ^ (binade m e - FTy.frac t)
          < ((2 ^ (FTy.frac t + 1) : ℕ) : ℝ) * 2 ^ (binade m e - FTy.frac t) :=
            mul_lt_mul_of_pos_right (by exact_mod_cast not_le.1 hcarry) (by positivity)
        _ = 2 ^ ((FTy.frac t + 1 : ℕ) + binade m e - FTy.frac t) := hpow _
        _ ≤ _ := zpow_le_zpow_right₀ one_le_two (by push_cast; omega)
  · refine iff_of_true ?_ ⟨by omega, fun h => hnext h.1⟩
    calc (free t r neg m e : ℝ) * 2 ^ (binade m e - FTy.frac t)
        ≤ ((2 ^ (FTy.frac t + 1) : ℕ) : ℝ) * 2 ^ (binade m e - FTy.frac t) := hmono hle
      _ = 2 ^ ((FTy.frac t + 1 : ℕ) + binade m e - FTy.frac t) := hpow _
      _ < _ := zpow_lt_zpow_right₀ one_lt_two (by push_cast; omega)

/-! ### `roundTo` by its parts -/

/-- `roundTo` of 0 is the zero of its sign. -/
theorem roundTo_zero (t : FTy) (r : Rnd) (ftz neg : Bool) (e : ℤ) : roundTo t r ftz neg 0 e = (signBit t neg, 0) := by simp [roundTo]

/-- `roundTo` of any other number: overflow, flush, or the kept significand under its exponent field. -/
theorem roundTo_eq (t : FTy) (r : Rnd) (ftz neg : Bool) {m : Nat} (e : ℤ) (hm : m ≠ 0) :
    roundTo t r ftz neg m e =
      if FTy.inf t ≤ expField t m e * 2 ^ FTy.frac t + (kept t r neg m e).1 then (overflowRes t r neg, fOF ||| fNX)
      else if ftz = true ∧ (kept t r neg m e).1 < 2 ^ FTy.frac t ∧ (kept t r neg m e).1 ≠ 0 then (signBit t neg, fUF ||| fNX)
      else (signBit t neg + (expField t m e * 2 ^ FTy.frac t + (kept t r neg m e).1),
        if (kept t r neg m e).2 = false then 0
        else if binade m e < 1 - (FTy.bias t : ℤ) ∧
            ¬(binade m e = 1 - (FTy.bias t : ℤ) - 1 ∧ 2 ^ (FTy.frac t + 1) ≤ free t r neg m e) then fUF ||| fNX
        else fNX) := by
  have hcode : (if (kept t r neg m e).1 < 2 ^ FTy.frac t then (kept t r neg m e).1
      else (ulpExp t m e + FTy.frac t + FTy.bias t - 1).toNat * 2 ^ FTy.frac t + (kept t r neg m e).1) =
      expField t m e * 2 ^ FTy.frac t + (kept t r neg m e).1 := by
    split
    · rename_i h; rw [expField_of_kept_lt t r neg e hm h]; simp
    · rw [ulpExp, expField, sub_add_cancel]
  have hflags : ∀ (P : Prop) [Decidable P] (inexact : Bool), ((if inexact = true then fNX else 0) |||
      (if P ∧ inexact = true then fUF else 0)) = if inexact = false then 0 else if P then fUF ||| fNX else fNX := by
    intro P _ inexact
    by_cases hP : P <;> cases inexact <;> simp [hP, BitVec.or_comm]
  rw [← hcode]
  unfold roundTo
  rw [if_neg hm]
  simp only [← binade.eq_def, ← ulpExp.eq_def, ← kept.eq_def, ← free.eq_def, Bool.and_eq_true, Bool.not_eq_true',
    Bool.and_eq_false_iff, decide_eq_true_eq, decide_eq_false_iff_not, not_and_or, hflags]

/-- ROUNDED ONCE. `roundTo` of a number that is not 0. -/
theorem isRounded_roundTo (t : FTy) (r : Rnd) (ftz neg : Bool) {m : Nat} (e : ℤ) (hm : m ≠ 0) :
    IsRounded t r ftz neg (m * 2 ^ e) (roundTo t r ftz neg m e) := by
  have hle := kept_le t r neg (m := m) e
  have h0 := expField_of_kept_lt t r neg e hm
  have hinf := inf_le_code_iff t hle h0
  rw [← ulpExp_eq] at hinf
  refine ⟨binade m e, (kept t r neg m e).1, free t r neg m e, two_zpow_binade_le e hm, lt_two_zpow_binade m e, roundsTo_kept t r neg e,
    roundsTo_free t r neg e, fun hover => ?_, fun hfin => ⟨fun hflush => ?_, fun hkeep => ?_⟩⟩
  · rw [roundTo_eq t r ftz neg e hm, if_pos (hinf.2 hover)]
    cases r <;> cases neg <;> rfl
  · have hn := mt hinf.1 (not_le.2 hfin)
    rw [roundTo_eq t r ftz neg e hm, if_neg hn, if_pos ⟨hflush.1, hflush.2.2, hflush.2.1⟩]
  · have hn := mt hinf.1 (not_le.2 hfin)
    rw [roundTo_eq t r ftz neg e hm, if_neg hn, if_neg (fun h => hkeep ⟨h.1, h.2.2, h.2.1⟩)]
    refine ⟨signBit_add_lt t neg (lt_trans (not_le.1 hn) (inf_lt t)), ?_, ?_⟩
    · have := fval_code t neg hle h0 (not_le.1 hn)
      rwa [← ulpExp_eq] at this
    · have hex : (kept t r neg m e).2 = false ↔ ((kept t r neg m e).1 : ℝ) * 2 ^ ulpExp t m e = m * 2 ^ e := by
        rw [← Bool.not_eq_true, kept_inexact, not_not]
      simp only [hex, ← tiny_iff t r neg e hm]
      rfl

end Sys2Proof.Machine
end

section
/-!
SUPPORT for statements about floats: what `roundTo` gives a number that its format holds, a huge one and a tiny one; that it never gives a
NaN; and that a number between two neighbouring even multiples of a power of two is rounded as the odd multiple between them.
-/

namespace Sys2Proof.Machine

/-! ### Exact results -/

/-- `m × 2^e` is a number of the format, with `.ftz` a normal one: it is a multiple of its last place and does not overflow. -/
structure Fits (t : FTy) (ftz : Bool) (m : Nat) (e : ℤ) : Prop where
  ne_zero : m ≠ 0
  ulp_le : ulpExp t m e ≤ e
  le_bias : binade m e ≤ FTy.bias t
  normal : ftz = true → 1 - (FTy.bias t : ℤ) ≤ binade m e

section
variable {t : FTy} {ftz : Bool} {m : Nat} {e : ℤ} (h : Fits t ftz m e) (r : Rnd) (neg : Bool)
include h

theorem Fits.kept_eq : kept t r neg m e = (m * 2 ^ (e - ulpExp t m e).toNat, false) := by rw [kept, rndTo, if_pos h.ulp_le]

theorem Fits.kept_value : ((kept t r neg m e).1 : ℝ) * 2 ^ ulpExp t m e = m * 2 ^ e := by
  by_contra hc
  have hn := (kept_inexact t r neg (m := m) e).2 hc
  rw [h.kept_eq] at hn
  cases hn

theorem Fits.code_lt_inf : expField t m e * 2 ^ FTy.frac t + (kept t r neg m e).1 < FTy.inf t := by
  rw [← not_le, inf_le_code_iff t (kept_le t r neg e) (expField_of_kept_lt t r neg e h.ne_zero), ← ulpExp_eq, not_le, h.kept_value]
  exact (lt_two_zpow_binade m e).trans_le (zpow_le_zpow_right₀ one_le_two (by linarith [h.le_bias]))

/-- Such a number is its own rounding, without a flag. -/
theorem Fits.roundTo_eq : roundTo t r ftz neg m e =
    (signBit t neg + (expField t m e * 2 ^ FTy.frac t + m * 2 ^ (e - ulpExp t m e).toNat), 0) := by
  have hflush : ¬(ftz = true ∧ (kept t r neg m e).1 < 2 ^ FTy.frac t ∧ (kept t r neg m e).1 ≠ 0) := fun hc =>
    absurd ((roundsTo_kept t r neg e).le_of_ge (le_scaled t h.ne_zero (max_le le_rfl (h.normal hc.1)))) (not_le.2 hc.2.1)
  rw [Machine.roundTo_eq t r ftz neg e h.ne_zero, if_neg (not_le.2 (h.code_lt_inf r neg)), if_neg hflush, h.kept_eq]
  rfl

/-- Its encoding has its value. -/
theorem Fits.fval_roundTo : ∃ m' e', fval t false (roundTo t r ftz neg m e).1 = .fin neg m' e' ∧ (m' : ℝ) * 2 ^ e' = m * 2 ^ e := by
  have hcode := fval_code t neg (kept_le t r neg e) (expField_of_kept_lt t r neg e h.ne_zero) (h.code_lt_inf r neg)
  rw [← ulpExp_eq, h.kept_value, h.kept_eq] at hcode
  rw [h.roundTo_eq]
  exact hcode

end

/-- The binade of a significand with its leading bit at `p`. -/
theorem log2_eq_of_range {m p : Nat} (h1 : 2 ^ p ≤ m) (h2 : m < 2 ^ (p + 1)) : m.log2 = p :=
  (Nat.log2_eq_iff (by have := Nat.two_pow_pos p; omega)).2 ⟨h1, h2⟩

/-- A word whose value is finite is the rounding of that value, in every mode and without a flag (R27). -/
theorem roundTo_fval {t : FTy} (r : Rnd) {x m : Nat} {neg : Bool} {e : ℤ} (hx : x < 2 ^ t.width) (h : fval t false x = .fin neg m e) :
    roundTo t r false neg m e = (x, 0) := by
  have hxe := fields_of_lt t hx
  have hM : x % 2 ^ FTy.frac t < 2 ^ FTy.frac t := Nat.mod_lt _ (by positivity)
  have hE : x / 2 ^ FTy.frac t % (2 * FTy.bias t + 2) < 2 * FTy.bias t + 2 := Nat.mod_lt _ (by omega)
  rw [fval_eq_fieldsVal] at h
  generalize x % 2 ^ FTy.frac t = M at h hxe hM
  generalize x / 2 ^ FTy.frac t % (2 * FTy.bias t + 2) = E at h hxe hE
  generalize (x / 2 ^ (t.width - 1) % 2 == 1) = s at h hxe
  obtain ⟨rfl, hne, ⟨rfl, rfl, rfl⟩ | ⟨h0, rfl, rfl⟩⟩ := fieldsVal_fin h
  · -- zero or subnormal
    by_cases hm : m = 0
    · subst hm
      rw [roundTo_zero, ← hxe]
      simp
    · have hlog : m.log2 < FTy.frac t := (Nat.log2_lt hm).2 hM
      have hulp : ulpExp t m (1 - (FTy.bias t : ℤ) - FTy.frac t) = 1 - (FTy.bias t : ℤ) - FTy.frac t := by
        unfold ulpExp binade; omega
      have hfield : expField t m (1 - (FTy.bias t : ℤ) - FTy.frac t) = 0 := by unfold expField binade; omega
      have hfits : Fits t false m (1 - (FTy.bias t : ℤ) - FTy.frac t) :=
        ⟨hm, hulp.le, by unfold binade; omega, fun hc => by cases hc⟩
      rw [hfits.roundTo_eq, hulp, hfield, ← hxe]
      simp
  · -- normal
    have hlog : (M + 2 ^ FTy.frac t).log2 = FTy.frac t := log2_eq_of_range (by omega) (by rw [pow_succ]; omega)
    have hulp : ulpExp t (M + 2 ^ FTy.frac t) ((E : ℤ) - FTy.bias t - FTy.frac t) = (E : ℤ) - FTy.bias t - FTy.frac t := by
      unfold ulpExp binade; rw [hlog]; omega
    have hfield : expField t (M + 2 ^ FTy.frac t) ((E : ℤ) - FTy.bias t - FTy.frac t) = E - 1 := by
      unfold expField binade; rw [hlog]; omega
    have hfits : Fits t false (M + 2 ^ FTy.frac t) ((E : ℤ) - FTy.bias t - FTy.frac t) :=
      ⟨by have := Nat.two_pow_pos (FTy.frac t); omega, hulp.le, by unfold binade; rw [hlog]; omega, fun hc => by cases hc⟩
    obtain ⟨E, rfl⟩ := Nat.exists_eq_succ_of_ne_zero h0
    rw [hfits.roundTo_eq, hulp, hfield, sub_self]
    rw [← hxe]
    congr 2
    simp only [Nat.succ_eq_add_one, Nat.add_sub_cancel, Int.toNat_zero, pow_zero, mul_one]
    ring

/-! ### Never a NaN -/

/-- An encoding of either sign whose magnitude is at most that of ∞ is no NaN. -/
theorem isNaN_fval (t : FTy) (ftz neg : Bool) {c : Nat} (hc : c ≤ FTy.inf t) : (fval t ftz (signBit t neg + c)).isNaN = false := by
  have hM : c % 2 ^ FTy.frac t < 2 ^ FTy.frac t := Nat.mod_lt _ (by positivity)
  have hsplit := Nat.div_add_mod' c (2 ^ FTy.frac t)
  have hE : c / 2 ^ FTy.frac t ≤ 2 * FTy.bias t + 1 := by
    rw [inf_eq] at hc
    exact Nat.div_le_of_le_mul (by rwa [Nat.mul_comm])
  rw [← hsplit, fval_fields t ftz neg (by omega) hM]
  unfold fieldsVal
  split
  · rename_i hinf
    rw [hinf, ] at hsplit
    rw [inf_eq] at hc
    rw [if_pos (by omega)]
    rfl
  · split <;> rfl

/-- Nor is a rounding of a finite number. -/
theorem isNaN_roundTo (t : FTy) (f : Bool) (r : Rnd) (ftz neg : Bool) (m : Nat) (e : ℤ) :
    (fval t f (roundTo t r ftz neg m e).1).isNaN = false := by
  by_cases hm : m = 0
  · subst hm
    rw [roundTo_zero]
    exact isNaN_fval t f neg (Nat.zero_le _)
  rw [roundTo_eq t r ftz neg e hm]
  split
  · unfold overflowRes
    refine isNaN_fval t f neg ?_
    cases r <;> cases neg <;> simp
  · rename_i hinf
    split
    · exact isNaN_fval t f neg (Nat.zero_le _)
    · exact isNaN_fval t f neg (not_le.1 hinf).le

/-! ### Huge and tiny numbers -/

/-- A number of a binade above the greatest overflows. -/
theorem roundTo_of_huge (t : FTy) (r : Rnd) (ftz neg : Bool) {m : Nat} {e : ℤ} (hm : m ≠ 0) (h : (FTy.bias t : ℤ) < binade m e) :
    roundTo t r ftz neg m e = (overflowRes t r neg, fOF ||| fNX) := by
  have hkept : 2 ^ FTy.frac t ≤ (kept t r neg m e).1 :=
    (roundsTo_kept t r neg e).le_of_ge (le_scaled t hm (max_le le_rfl (by have := fifteen_le_bias t; omega)))
  have hE : 2 * FTy.bias t ≤ expField t m e := by unfold expField; omega
  rw [roundTo_eq t r ftz neg e hm, if_pos]
  rw [inf_eq, Nat.succ_mul]
  exact Nat.add_le_add (Nat.mul_le_mul_right _ hE) hkept

/-- A number that is not 0 and below half of 1 is rounded to 1 when its mode goes away from zero, else to 0. -/
theorem RoundsTo.of_lt_half {r : Rnd} {neg : Bool} {y : ℝ} {n : ℕ} (h : RoundsTo r neg y n) (h0 : 0 < y) (h1 : y < 1 / 2) :
    n = if (r = .rp ∧ neg = false) ∨ (r = .rm ∧ neg = true) then 1 else 0 := by
  have below : (n : ℝ) ≤ y → n = 0 := fun h => by
    have : (n : ℝ) < 1 := by linarith
    exact_mod_cast Nat.lt_one_iff.1 (by exact_mod_cast this)
  have above : y ≤ n ∧ (n : ℝ) < y + 1 → n = 1 := fun h => by
    have h2 : (0 : ℝ) < n := by linarith [h.1]
    have h3 : (n : ℝ) < 2 := by linarith [h.2]
    norm_cast at h2 h3
    omega
  cases r with
  | rn =>
    have hn := abs_le.1 h.1
    have : (n : ℝ) < 1 := by linarith [hn.1]
    norm_cast at this
    simpa using Nat.lt_one_iff.1 this
  | rz => simpa using below h.1
  | rp =>
    cases neg with
    | true => simpa using below h.1
    | false => simpa using above h
  | rm =>
    cases neg with
    | true => simpa using above h
    | false => simpa using below h.1

/-- What a number below half of the least subnormal gives. -/
def tinyRes (t : FTy) (r : Rnd) (ftz neg : Bool) : Nat × Word :=
  (signBit t neg + if ftz = false ∧ ((r = .rp ∧ neg = false) ∨ (r = .rm ∧ neg = true)) then 1 else 0, fUF ||| fNX)

theorem roundTo_of_tiny (t : FTy) (r : Rnd) (ftz neg : Bool) {m : Nat} {e : ℤ} (hm : m ≠ 0)
    (h : binade m e < -(FTy.bias t : ℤ) - FTy.frac t) : roundTo t r ftz neg m e = tinyRes t r ftz neg := by
  have hP := Nat.two_pow_pos (FTy.frac t)
  have hfield : expField t m e = 0 := by unfold expField; omega
  have hpos : (0 : ℝ) < m * 2 ^ e := (by positivity : (0 : ℝ) < 2 ^ binade m e).trans_le (two_zpow_binade_le e hm)
  have hhalf : (m : ℝ) * 2 ^ e / 2 ^ ulpExp t m e < 1 / 2 := by
    rw [div_lt_iff₀ (by positivity), one_div, ← zpow_neg_one, ← zpow_add₀ two_ne_zero]
    exact (lt_two_zpow_binade m e).trans_le (zpow_le_zpow_right₀ one_le_two (by unfold ulpExp; omega))
  have hkept := (roundsTo_kept t r neg (m := m) e).of_lt_half (by positivity) hhalf
  have hinexact : (kept t r neg m e).2 = true := by
    rw [kept_inexact]
    intro hc
    rw [← hc] at hpos
    rw [← hc, mul_div_cancel_right₀ _ (by positivity)] at hhalf
    have hlt : (kept t r neg m e).1 < 1 := by exact_mod_cast hhalf.trans (by norm_num : (1 / 2 : ℝ) < 1)
    rw [Nat.lt_one_iff.1 hlt] at hpos
    norm_num at hpos
  have hone : (kept t r neg m e).1 ≤ 1 := by rw [hkept]; split <;> omega
  have hfrac : 1 < 2 ^ FTy.frac t := Nat.one_lt_two_pow (by have := seven_le_frac t; omega)
  have hinf : ¬FTy.inf t ≤ expField t m e * 2 ^ FTy.frac t + (kept t r neg m e).1 := by
    rw [inf_eq, hfield, not_le, Nat.succ_mul]
    omega
  rw [roundTo_eq t r ftz neg e hm, if_neg hinf, hinexact, hfield, hkept, tinyRes]
  have hbelow : binade m e < 1 - (FTy.bias t : ℤ) ∧
      ¬(binade m e = 1 - (FTy.bias t : ℤ) - 1 ∧ 2 ^ (FTy.frac t + 1) ≤ free t r neg m e) := by
    have := seven_le_frac t
    exact ⟨by omega, fun hc => by omega⟩
  rw [if_pos hbelow]
  by_cases hup : (r = .rp ∧ neg = false) ∨ (r = .rm ∧ neg = true)
  · cases ftz <;> simp [hup, hfrac]
  · cases ftz <;> simp [hup]

/-! ### A truncation with a sticky lowest bit -/

/-- A number strictly between `2q × 2^E` and `(2q + 2) × 2^E` is cut at `2^u`, with `E + 2 ≤ u`, as `(2q + 1) × 2^E` is, and is no multiple of
that step; nor is that one. -/
theorem RoundsTo.of_sticky {r : Rnd} {neg : Bool} {q n : ℕ} {E u : ℤ} {y : ℝ}
    (h : RoundsTo r neg (((2 * q + 1 : ℕ) : ℝ) * 2 ^ E / 2 ^ u) n) (hu : E + 2 ≤ u) (h1 : ((2 * q : ℕ) : ℝ) * 2 ^ E < y)
    (h2 : y < ((2 * q + 2 : ℕ) : ℝ) * 2 ^ E) :
    RoundsTo r neg (y / 2 ^ u) n ∧ (n : ℝ) * 2 ^ u ≠ y ∧ (n : ℝ) * 2 ^ u ≠ ((2 * q + 1 : ℕ) : ℝ) * 2 ^ E := by
  have hE : (0 : ℝ) < 2 ^ E := by positivity
  obtain ⟨d, hd⟩ := Int.eq_ofNat_of_zero_le (sub_nonneg.2 hu)
  have hstep : (2 : ℝ) ^ u = ((4 * 2 ^ d : ℕ) : ℝ) * 2 ^ E := by
    rw [show u = (d : ℤ) + 2 + E by omega, zpow_add₀ two_ne_zero, zpow_add₀ two_ne_zero, zpow_natCast]
    push_cast; ring
  have hz : ∀ z : ℝ, z / 2 ^ u = z / 2 ^ E / ((4 * 2 ^ d : ℕ) : ℝ) := fun z => by rw [hstep, mul_comm, div_mul_eq_div_div]
  have hmul : (n : ℝ) * 2 ^ u = ((4 * (n * 2 ^ d) : ℕ) : ℝ) * 2 ^ E := by rw [hstep]; push_cast; ring
  rw [hz, mul_div_cancel_right₀ _ hE.ne', roundsTo_div_iff (by positivity)] at h
  rw [hz, roundsTo_div_iff (by positivity), hmul]
  refine ⟨h.of_sticky ((lt_div_iff₀ hE).2 h1) ((div_lt_iff₀ hE).2 h2), fun hc => ?_, fun hc => ?_⟩
  · rw [← hc] at h1 h2
    have hl := lt_of_mul_lt_mul_right h1 hE.le
    have hr := lt_of_mul_lt_mul_right h2 hE.le
    norm_cast at hl hr
    omega
  · have heq := mul_right_cancel₀ hE.ne' hc
    norm_cast at heq
    omega

/-- ROUNDED ONCE FROM A TRUNCATION. With more bits than the format keeps, a number strictly between two neighbouring even multiples of a power
of two is rounded as the odd multiple between them. -/
theorem IsRounded.of_sticky {t : FTy} {r : Rnd} {ftz neg : Bool} {q : ℕ} {E : ℤ} {y : ℝ} {res : Nat × Word}
    (h : IsRounded t r ftz neg (((2 * q + 1 : ℕ) : ℝ) * 2 ^ E) res) (hq : 2 ^ (FTy.frac t + 2) ≤ 2 * q + 1)
    (h1 : ((2 * q : ℕ) : ℝ) * 2 ^ E < y) (h2 : y < ((2 * q + 2 : ℕ) : ℝ) * 2 ^ E) : IsRounded t r ftz neg y res := by
  obtain ⟨k, n, fr, hk1, hk2, hn, hfr, hover, hfin⟩ := h
  have hE : (0 : ℝ) < 2 ^ E := by positivity
  -- the binade lies at least `p + 2` above the exponent of the truncation
  have hk : E + FTy.frac t + 2 ≤ k := by
    have hlt : (2 : ℝ) ^ (E + FTy.frac t + 2) < 2 ^ (k + 1) := by
      calc (2 : ℝ) ^ (E + FTy.frac t + 2) = ((2 ^ (FTy.frac t + 2) : ℕ) : ℝ) * 2 ^ E := by
            push_cast
            rw [← zpow_natCast, ← zpow_add₀ two_ne_zero]
            congr 1; push_cast; ring
        _ ≤ ((2 * q + 1 : ℕ) : ℝ) * 2 ^ E := mul_le_mul_of_nonneg_right (by exact_mod_cast hq) hE.le
        _ < _ := hk2
    have := (zpow_lt_zpow_iff_right₀ one_lt_two).1 hlt
    omega
  obtain ⟨d, hd⟩ := Int.eq_ofNat_of_zero_le (show 0 ≤ k - E - 1 by omega)
  have hpow : ∀ j : ℕ, (2 : ℝ) ^ (k + j) = ((2 * (2 ^ d * 2 ^ j) : ℕ) : ℝ) * 2 ^ E := fun j => by
    rw [show k + (j : ℤ) = 1 + (d : ℤ) + j + E by omega, zpow_add₀ two_ne_zero, zpow_add₀ two_ne_zero, zpow_add₀ two_ne_zero,
      zpow_natCast, zpow_natCast]
    push_cast; ring
  have hk0 := hpow 0
  have hk1' := hpow 1
  rw [Nat.cast_zero, add_zero] at hk0
  rw [Nat.cast_one] at hk1'
  rw [hk0] at hk1
  rw [hk1'] at hk2
  have hlow := le_of_mul_le_mul_right hk1 hE
  have hhigh := lt_of_mul_lt_mul_right hk2 hE.le
  norm_cast at hlow hhigh
  obtain ⟨hn', hny, hno⟩ := hn.of_sticky (by omega) h1 h2
  obtain ⟨hfr', -, -⟩ := hfr.of_sticky (by omega) h1 h2
  refine ⟨k, n, fr, ?_, ?_, hn', hfr', hover, fun hlt => ⟨(hfin hlt).1, fun hc => ?_⟩⟩
  · rw [hk0]
    exact (mul_le_mul_of_nonneg_right (by exact_mod_cast (by omega)) hE.le).trans h1.le
  · rw [hk1']
    exact h2.trans_le (mul_le_mul_of_nonneg_right (by exact_mod_cast (by omega)) hE.le)
  · obtain ⟨hw, hval, hflags⟩ := (hfin hlt).2 hc
    refine ⟨hw, hval, ?_⟩
    rw [if_neg hno] at hflags
    rw [if_neg hny, hflags]

end Sys2Proof.Machine
end

section
/-!
PROOF of `RoundingAndNaNs`. The exact sum of finite terms is one integer times the least power of two among them; a quotient and a root are
truncations with a sticky bit; a shift beyond ±8,192 over- or underflows whatever it is. Every operation then rounds one exact number, by
the lemma on `roundTo`.
-/

namespace Sys2Proof.Machine

/-! ### The exact sum -/

/-- A number at an exponent not above its own, put back. -/
theorem atExp_mul (g : ℤ) (neg : Bool) (m : Nat) {e : ℤ} (h : g ≤ e) : (atExp g neg m e : ℚ) * 2 ^ g = ratOf (.fin neg m e) := by
  have hpow : (2 : ℚ) ^ e = 2 ^ (e - g).toNat * 2 ^ g := by
    rw [← zpow_natCast, ← zpow_add₀ two_ne_zero, Int.toNat_of_nonneg (by omega), sub_add_cancel]
  rw [ratOf, hpow, atExp]
  cases neg <;> simp <;> ring

/-- A fold of minima lies below its start and below every member. -/
theorem foldl_min_le {α : Type} (f : α → ℤ) (xs : List α) (a : ℤ) :
    xs.foldl (fun a x => min a (f x)) a ≤ a ∧ ∀ x, x ∈ xs → xs.foldl (fun a x => min a (f x)) a ≤ f x := by
  induction xs generalizing a with
  | nil => simp
  | cons x xs ih =>
    obtain ⟨h1, h2⟩ := ih (min a (f x))
    refine ⟨h1.trans (min_le_left _ _), fun y hy => ?_⟩
    obtain rfl | hy := List.mem_cons.1 hy
    · exact h1.trans (min_le_right _ _)
    · exact h2 y hy

/-- The sum that `sumRound` folds, put back at its exponent. -/
theorem foldl_atExp_mul (g : ℤ) (ts : List (Bool × Nat × ℤ)) (a : ℤ) (h : ∀ x, x ∈ ts → g ≤ x.2.2) :
    ((ts.foldl (fun a x => a + atExp g x.1 x.2.1 x.2.2) a : ℤ) : ℚ) * 2 ^ g =
      a * 2 ^ g + (ts.map fun x => ratOf (.fin x.1 x.2.1 x.2.2)).sum := by
  induction ts generalizing a with
  | nil => simp
  | cons x xs ih =>
    rw [List.foldl_cons, ih _ fun y hy => h y (List.mem_cons_of_mem _ hy), List.map_cons, List.sum_cons,
      ← atExp_mul g x.1 x.2.1 (h x List.mem_cons_self)]
    push_cast
    ring

/-- Zero terms do not change a sum. -/
theorem sum_filter_ne_zero (ts : List (Bool × Nat × ℤ)) :
    ((ts.filter fun x => x.2.1 != 0).map fun x => ratOf (.fin x.1 x.2.1 x.2.2)).sum = (ts.map fun x => ratOf (.fin x.1 x.2.1 x.2.2)).sum := by
  induction ts with
  | nil => rfl
  | cons x xs ih =>
    by_cases hx : x.2.1 = 0
    · rw [List.filter_cons_of_neg (by simp [hx]), ih, List.map_cons, List.sum_cons, ratOf, hx]
      simp
    · simp [hx, ih]

/-- The sign of an exact zero sum (R28). -/
theorem zeroSign_eq (r : Rnd) (ts : List (Bool × Nat × ℤ)) :
    zeroSign r (ts.map Prod.fst) (ts.map fun x => x.2.1 == 0) =
      if r = .rm then !(ts.map fun x => FVal.fin x.1 x.2.1 x.2.2).all (isZeroOf false)
      else (ts.map fun x => FVal.fin x.1 x.2.1 x.2.2).all (isZeroOf true) := by
  have hneg : ((ts.map Prod.fst).all id && (ts.map fun x => x.2.1 == 0).all id) =
      (ts.map fun x => FVal.fin x.1 x.2.1 x.2.2).all (isZeroOf true) := by
    rw [Bool.eq_iff_iff]
    simp [isZeroOf, List.all_eq_true, forall_and]
  have hpos : ((ts.map Prod.fst).all (!·) && (ts.map fun x => x.2.1 == 0).all id) =
      (ts.map fun x => FVal.fin x.1 x.2.1 x.2.2).all (isZeroOf false) := by
    rw [Bool.eq_iff_iff]
    simp [isZeroOf, List.all_eq_true, forall_and]
  simp only [zeroSign, hneg, hpos]

/-- `sumRound` rounds the exact sum of its terms once. -/
theorem isSum_sumRound (t : FTy) (r : Rnd) (ftz : Bool) (ts : List (Bool × Nat × ℤ)) :
    IsSum t r ftz (ts.map fun x => .fin x.1 x.2.1 x.2.2) (sumRound t r ftz ts) := by
  unfold IsSum sumRound
  simp only
  rw [List.map_map]
  set nz := ts.filter fun x => x.2.1 != 0
  set g := nz.foldl (fun a x => min a x.2.2) ((nz.head?.map fun x => x.2.2).getD 0)
  set s := nz.foldl (fun a x => a + atExp g x.1 x.2.1 x.2.2) 0
  have hsum : (s : ℚ) * 2 ^ g = (ts.map (ratOf ∘ fun x => .fin x.1 x.2.1 x.2.2)).sum := by
    have h := foldl_atExp_mul g nz 0 fun x hx => (foldl_min_le (fun x => x.2.2) nz _).2 x hx
    rw [Int.cast_zero, zero_mul, zero_add, sum_filter_ne_zero] at h
    exact h
  rw [← hsum]
  have hpos : (0 : ℚ) < 2 ^ g := by positivity
  by_cases hs : s = 0
  · rw [if_pos hs, if_pos (by rw [hs, Int.cast_zero, zero_mul]), zeroSign_eq]
  · have hne : (s : ℚ) * 2 ^ g ≠ 0 := mul_ne_zero (by exact_mod_cast hs) hpos.ne'
    rw [if_neg hs, if_neg hne]
    have hsign : decide ((s : ℚ) * 2 ^ g < 0) = decide (s < 0) := by
      rw [decide_eq_decide, ← zero_mul ((2 : ℚ) ^ g), mul_lt_mul_iff_left₀ hpos]
      exact Int.cast_lt_zero
    have habs : |(((s : ℚ) * 2 ^ g : ℚ) : ℝ)| = (s.natAbs : ℝ) * 2 ^ g := by
      push_cast
      rw [abs_mul, abs_of_pos (show (0 : ℝ) < 2 ^ g by positivity), Nat.cast_natAbs, Int.cast_abs]
    rw [hsign, habs]
    exact isRounded_roundTo t r ftz _ g (by simpa using hs)

/-- `fsum` of finite values is `sumRound` of their parts. -/
theorem fsum_fin (t : FTy) (r : Rnd) (ftz : Bool) (ts : List (Bool × Nat × ℤ)) :
    fsum t r ftz (ts.map fun x => .fin x.1 x.2.1 x.2.2) = sumRound t r ftz ts := by
  have hinf : ∀ s, ((ts.map fun x => FVal.fin x.1 x.2.1 x.2.2).any (· == .inf s)) = false := fun s => by simp
  unfold fsum
  simp only [hinf, Bool.false_and, Bool.or_self, Bool.false_eq_true, if_false]
  rw [List.filterMap_map]
  exact congrArg _ ((List.filterMap_congr fun x _ => rfl).trans List.filterMap_some)

/-- It rounds their exact sum once. -/
theorem isSum_fsum (t : FTy) (r : Rnd) (ftz : Bool) (ts : List (Bool × Nat × ℤ)) :
    IsSum t r ftz (ts.map fun x => .fin x.1 x.2.1 x.2.2) (fsum t r ftz (ts.map fun x => .fin x.1 x.2.1 x.2.2)) := by
  rw [fsum_fin]
  exact isSum_sumRound t r ftz ts

/-- A finite value by its parts. -/
theorem finite_iff {v : FVal} : finite v = true ↔ ∃ s m e, v = .fin s m e := by
  cases v <;> simp [finite]

theorem isSum_faddR {t : FTy} (r : Rnd) {ftz : Bool} {x y : Nat} (hx : finite (fval t ftz x) = true) (hy : finite (fval t ftz y) = true) :
    IsSum t r ftz [fval t ftz x, fval t ftz y] (faddR t r ftz x y) := by
  obtain ⟨s, m, e, hx⟩ := finite_iff.1 hx
  obtain ⟨u, n, f, hy⟩ := finite_iff.1 hy
  simp only [faddR, hx, hy]
  exact isSum_fsum t r ftz [(s, m, e), (u, n, f)]

theorem isSum_fsubR {t : FTy} (r : Rnd) {ftz : Bool} {x y : Nat} (hx : finite (fval t ftz x) = true) (hy : finite (fval t ftz y) = true) :
    IsSum t r ftz [fval t ftz x, (fval t ftz y).negate] (fsubR t r ftz x y) := by
  obtain ⟨s, m, e, hx⟩ := finite_iff.1 hx
  obtain ⟨u, n, f, hy⟩ := finite_iff.1 hy
  simp only [fsubR, hx, hy]
  exact isSum_fsum t r ftz [(s, m, e), (!u, n, f)]

/-- `ffma` on finite values (R131). -/
theorem isSum_fma1 {s t : FTy} (r : Rnd) {ftz : Bool} {x y z : Nat} (hx : finite (fval s ftz x) = true) (hy : finite (fval s ftz y) = true)
    (hz : finite (fval t ftz z) = true) :
    IsSum t r ftz [prodOf (fval s ftz x) (fval s ftz y), fval t ftz z] (fmaR s t r ftz [(x, y)] z) := by
  obtain ⟨sx, mx, ex, hx⟩ := finite_iff.1 hx
  obtain ⟨sy, my, ey, hy⟩ := finite_iff.1 hy
  obtain ⟨sz, mz, ez, hz⟩ := finite_iff.1 hz
  simp only [fmaR, hx, hy, hz, List.map_cons, List.map_nil]
  exact isSum_fsum t r ftz [(sx != sy, mx * my, ex + ey), (sz, mz, ez)]

/-- `fdot2` on finite values (R139). -/
theorem isSum_fma2 {s t : FTy} (r : Rnd) {ftz : Bool} {x y u v z : Nat} (hx : finite (fval s ftz x) = true)
    (hy : finite (fval s ftz y) = true) (hu : finite (fval s ftz u) = true) (hv : finite (fval s ftz v) = true)
    (hz : finite (fval t ftz z) = true) :
    IsSum t r ftz [prodOf (fval s ftz x) (fval s ftz y), prodOf (fval s ftz u) (fval s ftz v), fval t ftz z]
      (fmaR s t r ftz [(x, y), (u, v)] z) := by
  obtain ⟨sx, mx, ex, hx⟩ := finite_iff.1 hx
  obtain ⟨sy, my, ey, hy⟩ := finite_iff.1 hy
  obtain ⟨su, mu, eu, hu⟩ := finite_iff.1 hu
  obtain ⟨sv, mv, ev, hv⟩ := finite_iff.1 hv
  obtain ⟨sz, mz, ez, hz⟩ := finite_iff.1 hz
  simp only [fmaR, hx, hy, hu, hv, hz, List.map_cons, List.map_nil]
  exact isSum_fsum t r ftz [(sx != sy, mx * my, ex + ey), (su != sv, mu * mv, eu + ev), (sz, mz, ez)]

/-! ### Products, conversions, scaling -/

theorem mul_two_zpow_mul (m n : ℕ) (e f : ℤ) : ((m * n : ℕ) : ℝ) * 2 ^ (e + f) = m * 2 ^ e * (n * 2 ^ f) := by
  rw [zpow_add₀ two_ne_zero]; push_cast; ring

theorem fmulR_fin {t : FTy} (r : Rnd) {ftz : Bool} {x y : Nat} {s u : Bool} {m n : Nat} {e f : ℤ} (hx : fval t ftz x = .fin s m e)
    (hy : fval t ftz y = .fin u n f) : fmulR t r ftz x y = roundTo t r ftz (s != u) (m * n) (e + f) := by
  simp only [fmulR, hx, hy, fprod, roundVal]

/-- A shift beyond ±8,192 acts as that shift (R138): the result over- or underflows either way. -/
theorem roundTo_clamp {t : FTy} (r : Rnd) {ftz : Bool} {x : Nat} {s : Bool} {m : Nat} {e : ℤ} (hx : fval t ftz x = .fin s m e) (hm : m ≠ 0)
    (k : ℤ) : roundTo t r ftz s m (e + max (-8192) (min 8192 k)) = roundTo t r ftz s m (e + k) := by
  have hb := bias_le t
  have hf := frac_le t
  have hrange : 1 - (FTy.bias t : ℤ) - FTy.frac t ≤ e ∧ binade m e ≤ FTy.bias t := by
    unfold binade
    obtain ⟨hlt, rfl⟩ | ⟨h1, h2, h3, h4⟩ := fval_fin_range hx
    · have := (Nat.log2_lt hm).2 hlt
      omega
    · have := log2_eq_of_range h1 h2
      omega
  obtain ⟨he, htop⟩ := hrange
  unfold binade at htop
  by_cases h1 : 8192 < k
  · rw [roundTo_of_huge t r ftz s hm (by unfold binade; omega), roundTo_of_huge t r ftz s hm (by unfold binade; omega)]
  by_cases h2 : k < -8192
  · rw [roundTo_of_tiny t r ftz s hm (by unfold binade; omega), roundTo_of_tiny t r ftz s hm (by unfold binade; omega)]
  · rw [show max (-8192) (min 8192 k) = k by omega]

/-! ### The quotient -/

/-- The truncated quotient of `divSticky`, and that it has more than 69 bits. -/
theorem divSticky_quotient {m n : Nat} (hm : m ≠ 0) (hn : n ≠ 0) : 2 ^ 69 ≤ m * 2 ^ (70 + n.log2) / n := by
  rw [Nat.le_div_iff_mul_le (Nat.pos_of_ne_zero hn)]
  calc 2 ^ 69 * n ≤ 2 ^ 69 * 2 ^ (n.log2 + 1) := Nat.mul_le_mul_left _ Nat.lt_log2_self.le
    _ = 1 * 2 ^ (70 + n.log2) := by rw [← pow_add, one_mul]; congr 1; omega
    _ ≤ _ := Nat.mul_le_mul_right _ (Nat.pos_of_ne_zero hm)

/-- `roundTo` of a truncation with a sticky bit rounds the number itself once: `q` and `q + 1` times `2^(E + 1)` enclose it, `q` exactly
when the sticky bit is 0. -/
theorem isRounded_sticky {t : FTy} (r : Rnd) (ftz neg : Bool) {q : Nat} {sticky : Bool} {E : ℤ} {y : ℝ} (hq : 2 ^ 54 ≤ q)
    (hexact : sticky = false → y = q * 2 ^ (E + 1)) (hin : sticky = true → (q : ℝ) * 2 ^ (E + 1) < y ∧ y < (q + 1) * 2 ^ (E + 1)) :
    IsRounded t r ftz neg y (roundTo t r ftz neg (2 * q + if sticky then 1 else 0) E) := by
  have hstep : (2 : ℝ) ^ (E + 1) = 2 * 2 ^ E := by rw [zpow_add₀ two_ne_zero, zpow_one, mul_comm]
  rw [hstep] at hexact hin
  cases sticky with
  | false =>
    rw [if_neg Bool.false_ne_true, Nat.add_zero, hexact rfl]
    have h := isRounded_roundTo t r ftz neg E (m := 2 * q) (by omega)
    have hval : ((2 * q : ℕ) : ℝ) * 2 ^ E = q * (2 * 2 ^ E) := by push_cast; ring
    rwa [hval] at h
  | true =>
    obtain ⟨h1, h2⟩ := hin rfl
    have hbits : 2 ^ (FTy.frac t + 2) ≤ 2 ^ 54 := Nat.pow_le_pow_right (by decide) (by have := frac_le t; omega)
    refine (isRounded_roundTo t r ftz neg E (by simp)).of_sticky (by omega) (lt_of_eq_of_lt ?_ h1) (lt_of_lt_of_eq h2 ?_) <;>
      push_cast <;> ring

theorem isRounded_fdivR {t : FTy} (r : Rnd) {ftz : Bool} {x y : Nat} {s u : Bool} {m n : Nat} {e f : ℤ} (hx : fval t ftz x = .fin s m e)
    (hy : fval t ftz y = .fin u n f) (hm : m ≠ 0) (hn : n ≠ 0) :
    IsRounded t r ftz (s != u) ((m * 2 ^ e) / (n * 2 ^ f)) (fdivR t r ftz x y) := by
  have hres : fdivR t r ftz x y = roundTo t r ftz (s != u)
      (2 * (m * 2 ^ (70 + n.log2) / n) + if decide (m * 2 ^ (70 + n.log2) % n ≠ 0) then 1 else 0) (-((70 + n.log2 : ℕ) + 1) + e - f) := by
    simp only [fdivR, hx, hy, if_neg hn, divSticky]
    congr 2
    by_cases h : m * 2 ^ (70 + n.log2) % n = 0 <;> simp [h]
  have hnr : (0 : ℝ) < n := by exact_mod_cast Nat.pos_of_ne_zero hn
  -- the quotient in steps of `2^(E + 1)`
  have hy' : (m : ℝ) * 2 ^ e / (n * 2 ^ f) = ((m * 2 ^ (70 + n.log2) : ℕ) : ℝ) / n * 2 ^ (-((70 + n.log2 : ℕ) + 1) + e - f + 1) := by
    rw [show -(((70 + n.log2 : ℕ) : ℤ) + 1) + e - f + 1 = -((70 + n.log2 : ℕ) : ℤ) + (e - f) by ring, zpow_add₀ two_ne_zero,
      zpow_neg, zpow_natCast, zpow_sub₀ two_ne_zero]
    push_cast
    field_simp
  rw [hres]
  have hdiv := Nat.div_add_mod (m * 2 ^ (70 + n.log2)) n
  have hmod := Nat.mod_lt (m * 2 ^ (70 + n.log2)) (Nat.pos_of_ne_zero hn)
  have hbits := divSticky_quotient hm hn
  generalize m * 2 ^ (70 + n.log2) = N at hy' hdiv hmod hbits ⊢
  rw [hy']
  refine isRounded_sticky r ftz _ (le_trans (by norm_num) hbits) (fun h => ?_) fun h => ?_
  · have h0 : N % n = 0 := by simpa using h
    rw [← Nat.cast_div (Nat.dvd_of_mod_eq_zero h0) hnr.ne']
  · have h0 : N % n ≠ 0 := by simpa using h
    constructor
    · refine mul_lt_mul_of_pos_right ?_ (by positivity)
      rw [lt_div_iff₀ hnr]
      exact_mod_cast (by rw [Nat.mul_comm]; omega : N / n * n < N)
    · refine mul_lt_mul_of_pos_right ?_ (by positivity)
      rw [div_lt_iff₀ hnr]
      exact_mod_cast (by rw [Nat.succ_mul, Nat.mul_comm]; omega : N < (N / n + 1) * n)

/-! ### The root -/

/-- The digits found so far stay a lower bound and their successor at the last place an upper one. -/
theorem isqrtGo_spec (k n q : Nat) (h1 : q * q ≤ n) (h2 : n < (q + 2 ^ k) * (q + 2 ^ k)) :
    isqrtGo k n q * isqrtGo k n q ≤ n ∧ n < (isqrtGo k n q + 1) * (isqrtGo k n q + 1) := by
  induction k generalizing q with
  | zero => exact ⟨h1, by simpa [isqrtGo] using h2⟩
  | succ k ih =>
    rw [isqrtGo]
    split
    · rename_i h
      refine ih _ h ?_
      rwa [Nat.add_assoc, ← Nat.two_mul, ← Nat.pow_succ']
    · rename_i h
      exact ih _ h1 (Nat.lt_of_not_le h)

theorem isqrt_eq_sqrt (n : Nat) : isqrt n = Nat.sqrt n := by
  have hn : n < (0 + 2 ^ (n.log2 / 2 + 1)) * (0 + 2 ^ (n.log2 / 2 + 1)) := by
    rw [Nat.zero_add, ← pow_add]
    exact Nat.lt_log2_self.trans_le (Nat.pow_le_pow_right (by decide) (by omega))
  obtain ⟨h1, h2⟩ := isqrtGo_spec _ n 0 (Nat.zero_le _) hn
  exact Nat.eq_sqrt.2 ⟨h1, h2⟩

/-- The root of a number of even exponent. -/
theorem sqrt_mul_two_zpow (N : ℕ) (h : ℤ) : Real.sqrt (N * 2 ^ (2 * h)) = Real.sqrt N * 2 ^ h := by
  rw [Real.sqrt_mul (Nat.cast_nonneg _), mul_comm 2 h, zpow_mul, zpow_ofNat, Real.sqrt_sq (by positivity)]

theorem isRounded_fsqrtR {t : FTy} (r : Rnd) {ftz : Bool} {x : Nat} {m : Nat} {e : ℤ} (hx : fval t ftz x = .fin false m e) (hm : m ≠ 0) :
    IsRounded t r ftz false (Real.sqrt (m * 2 ^ e)) (fsqrtR t r ftz x) := by
  obtain ⟨odd, h, hodd, he⟩ : ∃ (odd : ℕ) (h : ℤ), (e % 2).toNat = odd ∧ e = odd + 2 * h :=
    ⟨(e % 2).toNat, e / 2, rfl, by rw [Int.toNat_of_nonneg (Int.emod_nonneg e two_ne_zero), add_comm, Int.mul_ediv_add_emod]⟩
  have hres : fsqrtR t r ftz x = roundTo t r ftz false (2 * Nat.sqrt (m * 2 ^ (140 + odd)) +
      if decide (Nat.sqrt (m * 2 ^ (140 + odd)) * Nat.sqrt (m * 2 ^ (140 + odd)) ≠ m * 2 ^ (140 + odd)) then 1 else 0) (h - 70 - 1) := by
    simp only [fsqrtR, hx, if_neg hm, Bool.false_eq_true, if_false, isqrt_eq_sqrt, hodd]
    rw [show (e - odd - 140) / 2 - 1 = h - 70 - 1 by omega]
    congr 2
    by_cases hsq : Nat.sqrt (m * 2 ^ (140 + odd)) * Nat.sqrt (m * 2 ^ (140 + odd)) = m * 2 ^ (140 + odd) <;> simp [hsq]
  have hy : Real.sqrt (m * 2 ^ e) = Real.sqrt ((m * 2 ^ (140 + odd) : ℕ) : ℝ) * 2 ^ (h - 70 - 1 + 1) := by
    rw [← sqrt_mul_two_zpow]
    congr 1
    rw [he, show 2 * (h - 70 - 1 + 1) = 2 * h - 140 by ring, zpow_sub₀ two_ne_zero, zpow_add₀ two_ne_zero, zpow_natCast, pow_add]
    push_cast
    rw [zpow_ofNat]
    field_simp
    norm_num
  have hbits : 2 ^ 70 ≤ Nat.sqrt (m * 2 ^ (140 + odd)) := by
    rw [Nat.le_sqrt, ← pow_add]
    calc 2 ^ (70 + 70) ≤ 1 * 2 ^ (140 + odd) := by rw [one_mul]; exact Nat.pow_le_pow_right (by decide) (by omega)
      _ ≤ _ := Nat.mul_le_mul_right _ (Nat.pos_of_ne_zero hm)
  rw [hres, hy]
  generalize m * 2 ^ (140 + odd) = N at hbits ⊢
  refine isRounded_sticky r ftz _ (le_trans (by norm_num) hbits) (fun hs => ?_) fun hs => ?_
  · have hsq : Nat.sqrt N * Nat.sqrt N = N := by simpa using hs
    have : Real.sqrt N = Nat.sqrt N := by
      rw [Real.sqrt_eq_iff_mul_self_eq (Nat.cast_nonneg _) (Nat.cast_nonneg _)]
      exact_mod_cast hsq.symm
    rw [this]
  · have hsq : Nat.sqrt N * Nat.sqrt N ≠ N := by simpa using hs
    constructor
    · refine mul_lt_mul_of_pos_right (Real.lt_sqrt_of_sq_lt ?_) (by positivity)
      rw [sq]
      exact_mod_cast lt_of_le_of_ne (Nat.sqrt_le N) hsq
    · refine mul_lt_mul_of_pos_right ((Real.sqrt_lt' (by positivity)).2 ?_) (by positivity)
      rw [sq]
      exact_mod_cast Nat.lt_succ_sqrt N

/-! ### Conversion to an integer -/

/-- A float rounds to the nearest integer of its mode (R30), saturated with NV, or with NX where that changes it. -/
theorem f2iR_fin {s : FTy} (t : ITy) (r : Rnd) {ftz : Bool} {x : Nat} {neg : Bool} {m : Nat} {e : ℤ} (hx : fval s ftz x = .fin neg m e) :
    ∃ n : Nat, RoundsTo r neg (m * 2 ^ e) n ∧
      (let v : Int := if neg then -(n : Int) else n
       f2iR s t r ftz x = if ITy.max t < v then (truncW t.width (ITy.max t), fNV)
         else if v < ITy.min t then (truncW t.width (ITy.min t), fNV)
         else (truncW t.width v, if (n : ℝ) = m * 2 ^ e then 0 else fNX)) := by
  have hrounds := roundsTo_rndTo r neg m e 0
  have hinexact := rndTo_inexact r neg m e 0
  rw [zpow_zero, div_one] at hrounds
  rw [zpow_zero, mul_one] at hinexact
  refine ⟨(rndTo r neg m e 0).1, hrounds, ?_⟩
  simp only [f2iR, hx]
  congr 3
  by_cases hv : ((rndTo r neg m e 0).1 : ℝ) = m * 2 ^ e
  · rw [if_pos hv, if_neg (by rw [hinexact, not_not]; exact hv)]
  · rw [if_neg hv, if_pos (hinexact.2 hv)]

/-! ### NaN results (R29) -/

/-- A result that is a NaN is the canonical one. -/
def CanonicalNaN (t : FTy) (v : Nat) : Prop := (fval t false v).isNaN = true → v = FTy.nan t

theorem CanonicalNaN.of_not {t : FTy} {v : Nat} (h : (fval t false v).isNaN = false) : CanonicalNaN t v := fun hv => by
  rw [h] at hv; cases hv

theorem canonical_nanRes (t : FTy) (nv : Bool) : CanonicalNaN t (nanRes t nv).1 := fun _ => rfl

theorem canonical_roundTo (t : FTy) (r : Rnd) (ftz neg : Bool) (m : Nat) (e : ℤ) : CanonicalNaN t (roundTo t r ftz neg m e).1 :=
  .of_not (isNaN_roundTo ..)

theorem canonical_inf (t : FTy) (neg : Bool) : CanonicalNaN t (signBit t neg + FTy.inf t) := .of_not (isNaN_fval t false neg le_rfl)

theorem canonical_posInf (t : FTy) : CanonicalNaN t (FTy.inf t) := by
  have := canonical_inf t false
  rwa [signBit, if_neg Bool.false_ne_true, Nat.zero_add] at this

theorem canonical_signBit (t : FTy) (neg : Bool) : CanonicalNaN t (signBit t neg) := .of_not (isNaN_fval t false neg (Nat.zero_le _))

theorem canonical_sumRound (t : FTy) (r : Rnd) (ftz : Bool) (ts : List (Bool × Nat × ℤ)) : CanonicalNaN t (sumRound t r ftz ts).1 := by
  simp only [sumRound]
  split
  · exact canonical_signBit _ _
  · exact canonical_roundTo _ _ _ _ _ _

theorem canonical_fsum (t : FTy) (r : Rnd) (ftz : Bool) (vs : List FVal) : CanonicalNaN t (fsum t r ftz vs).1 := by
  simp only [fsum]
  split
  · exact canonical_nanRes _ _
  · split
    · exact canonical_inf _ _
    · exact canonical_sumRound _ _ _ _

theorem canonical_roundVal (t : FTy) (r : Rnd) (ftz : Bool) (v : FVal) : CanonicalNaN t (roundVal t r ftz v).1 := by
  cases v with
  | nan s => exact canonical_nanRes _ _
  | inf s => exact canonical_inf _ _
  | fin s m e => exact canonical_roundTo _ _ _ _ _ _

theorem canonical_faddR (t : FTy) (r : Rnd) (ftz : Bool) (x y : Nat) : CanonicalNaN t (faddR t r ftz x y).1 := by
  simp only [faddR]
  split
  · exact canonical_nanRes _ _
  · exact canonical_fsum _ _ _ _

theorem canonical_fsubR (t : FTy) (r : Rnd) (ftz : Bool) (x y : Nat) : CanonicalNaN t (fsubR t r ftz x y).1 := by
  simp only [fsubR]
  split
  · exact canonical_nanRes _ _
  · exact canonical_fsum _ _ _ _

theorem canonical_fmulR (t : FTy) (r : Rnd) (ftz : Bool) (x y : Nat) : CanonicalNaN t (fmulR t r ftz x y).1 := by
  simp only [fmulR]
  split
  · exact canonical_roundVal _ _ _ _
  · exact canonical_nanRes _ _

theorem canonical_fdivR (t : FTy) (r : Rnd) (ftz : Bool) (x y : Nat) : CanonicalNaN t (fdivR t r ftz x y).1 := by
  simp only [fdivR]
  split
  · exact canonical_nanRes _ _
  · exact canonical_inf _ _
  · exact canonical_signBit _ _
  · split
    · split
      · exact canonical_nanRes _ _
      · exact canonical_inf _ _
    · exact canonical_roundTo _ _ _ _ _ _
  · exact canonical_nanRes _ _

theorem canonical_fsqrtR (t : FTy) (r : Rnd) (ftz : Bool) (x : Nat) : CanonicalNaN t (fsqrtR t r ftz x).1 := by
  simp only [fsqrtR]
  split
  · exact canonical_nanRes _ _
  · exact canonical_posInf t
  · exact canonical_nanRes _ _
  · split
    · exact canonical_signBit _ _
    · split
      · exact canonical_nanRes _ _
      · exact canonical_roundTo _ _ _ _ _ _

theorem canonical_frndR (t : FTy) (r : Rnd) (ftz f : Bool) (x : Nat) : CanonicalNaN t (frndR t r ftz f x).1 := by
  simp only [frndR]
  split
  · exact canonical_nanRes _ _
  · exact canonical_inf _ _
  · exact canonical_roundTo _ _ _ _ _ _

theorem canonical_fmaR (s t : FTy) (r : Rnd) (ftz : Bool) (ps : List (Nat × Nat)) (d : Nat) : CanonicalNaN t (fmaR s t r ftz ps d).1 := by
  simp only [fmaR]
  split
  · exact canonical_nanRes _ _
  · exact canonical_fsum _ _ _ _

/-- Flushing an input does not touch a NaN, and makes none. -/
theorem isNaN_fval_ftz (t : FTy) (ftz : Bool) (x : Nat) : (fval t ftz x).isNaN = (fval t false x).isNaN := by
  simp only [fval_eq_fieldsVal, fieldsVal]
  split
  · rfl
  · split <;> rfl

theorem canonical_ftzEnc {t : FTy} {ftz : Bool} {x : Nat} (h : (fval t ftz x).isNaN = false) : CanonicalNaN t (ftzEnc t ftz x) := by
  unfold ftzEnc
  split
  · exact canonical_signBit _ _
  · exact .of_not (isNaN_fval_ftz t ftz x ▸ h)

theorem canonical_fminmaxR (t : FTy) (isMax ftz : Bool) (x y : Nat) : CanonicalNaN t (fminmaxR t isMax ftz x y).1 := by
  simp only [fminmaxR]
  split
  · exact fun _ => rfl
  · rename_i hy; exact canonical_ftzEnc hy
  · rename_i hx _; exact canonical_ftzEnc hx
  · rename_i hx hy
    split
    · exact canonical_ftzEnc hy
    · exact canonical_ftzEnc hx

/-! ### NaN inputs (R29) -/

@[simp] theorem isNaN_negate (v : FVal) : v.negate.isNaN = v.isNaN := by cases v <;> rfl
@[simp] theorem isS_negate (v : FVal) : v.negate.isS = v.isS := by cases v <;> rfl

/-- A product with a NaN has no value. -/
theorem fprod_of_nan {a b : FVal} (h : a.isNaN = true ∨ b.isNaN = true) : fprod a b = (none, false) := by
  obtain ha | hb := h
  · cases a with
    | nan s => rfl
    | inf | fin => cases ha
  · cases b with
    | nan s => cases a <;> rfl
    | inf | fin => cases hb

theorem fdivR_of_nan {t : FTy} (r : Rnd) {ftz : Bool} {x y : Nat} (h : (fval t ftz x).isNaN = true ∨ (fval t ftz y).isNaN = true) :
    fdivR t r ftz x y = nanRes t ((fval t ftz x).isS || (fval t ftz y).isS) := by
  simp only [fdivR]
  generalize fval t ftz x = a at h ⊢
  generalize fval t ftz y = b at h ⊢
  obtain ha | hb := h
  · cases a with
    | nan s => rfl
    | inf | fin => cases ha
  · cases b with
    | nan s => cases a <;> rfl
    | inf | fin => cases hb

/-- An operation that computes gives the canonical NaN for a NaN input, with NV for a signalling one. -/
theorem nanRes_of_nan {t : FTy} (r : Rnd) {ftz : Bool} {x y : Nat} (h : (fval t ftz x).isNaN = true ∨ (fval t ftz y).isNaN = true)
    {v : Nat × Word} (hv : v = faddR t r ftz x y ∨ v = fsubR t r ftz x y ∨ v = fmulR t r ftz x y ∨ v = fdivR t r ftz x y) :
    v = nanRes t ((fval t ftz x).isS || (fval t ftz y).isS) := by
  have hor : ((fval t ftz x).isNaN || (fval t ftz y).isNaN) = true := by simpa using h
  obtain rfl | rfl | rfl | rfl := hv
  · simp only [faddR, hor, if_true]
  · simp only [fsubR, isNaN_negate, isS_negate, hor, if_true]
  · simp only [fmulR, fprod_of_nan h, Bool.false_or]
  · exact fdivR_of_nan r h

/-! ### The statement -/

/-- The clause on `rndShift` (R27). -/
theorem rndShift_clause (neg : Bool) (m k : Nat) :
    (let q := (rndShift .rn neg m k).1
     2 * (q * 2 ^ k) ≤ 2 * m + 2 ^ k ∧ 2 * m ≤ 2 * (q * 2 ^ k) + 2 ^ k ∧
       (2 * (q * 2 ^ k) = 2 * m + 2 ^ k ∨ 2 * m = 2 * (q * 2 ^ k) + 2 ^ k → q % 2 = 0)) ∧
    (let q := (rndShift .rz neg m k).1; q * 2 ^ k ≤ m ∧ m < (q + 1) * 2 ^ k) ∧
    (let q := (rndShift .rp neg m k).1
     if neg then q * 2 ^ k ≤ m ∧ m < (q + 1) * 2 ^ k else m ≤ q * 2 ^ k ∧ q * 2 ^ k < m + 2 ^ k) ∧
    (let q := (rndShift .rm neg m k).1
     if neg then m ≤ q * 2 ^ k ∧ q * 2 ^ k < m + 2 ^ k else q * 2 ^ k ≤ m ∧ m < (q + 1) * 2 ^ k) ∧
    ∀ r, ((rndShift r neg m k).2 = true ↔ (rndShift r neg m k).1 * 2 ^ k ≠ m) := by
  have hstep : ∀ q, (q + 1) * 2 ^ k = q * 2 ^ k + 2 ^ k := fun q => Nat.succ_mul q _
  simp only [hstep]
  refine ⟨rndShift_rn neg m k, rndShift_below (.inl rfl) m k, ?_, ?_, fun r => rndShift_inexact r neg m k⟩
  · cases neg with
    | true => exact rndShift_below (.inr (.inl ⟨rfl, rfl⟩)) m k
    | false => exact rndShift_above (.inl ⟨rfl, rfl⟩) m k
  · cases neg with
    | true => exact rndShift_above (.inr ⟨rfl, rfl⟩) m k
    | false => exact rndShift_below (.inr (.inr ⟨rfl, rfl⟩)) m k

/-- Settles O13: every operation on finite inputs is `roundTo` of the exact result, or of its truncation with a sticky bit. -/
theorem roundingAndNaNs : Obligations.RoundingAndNaNs := by
  refine ⟨rndShift_clause, fun t r x neg m e hx h => roundTo_fval r hx h,
    ⟨fun t r ftz neg m e => ⟨?_, fun hm => isRounded_roundTo t r ftz neg e hm⟩,
      fun t r ftz x y hx hy => ⟨isSum_faddR r hx hy, isSum_fsubR r hx hy⟩, fun t r ftz x y s m e u n f hx hy => ?product,
      fun t r ftz x s m e hx => ?root, fun s t r ftz x y z hx hy hz => ⟨isSum_fma1 r hx hy hz, fun u v hu hv => isSum_fma2 r hx hy hu hv hz⟩,
      fun s t r ftz x neg m e hx => ?convert, fun t r ftz v => ?fromInt, fun s t r ftz x neg m e hx => f2iR_fin t r hx⟩, ?nan⟩
  · rintro rfl; exact roundTo_zero ..
  case product =>
    rw [fmulR_fin r hx hy]
    refine ⟨fun h => by rw [h, roundTo_zero], fun h => ?_, fun hm hn => ?_, fun hm hn => isRounded_fdivR r hx hy hm hn, fun hm hn => ?_⟩
    · rw [← mul_two_zpow_mul]
      exact isRounded_roundTo t r ftz _ _ h
    · subst hm
      simp only [fdivR, hx, hy, if_neg hn, divSticky, Nat.zero_mul, Nat.zero_div, Nat.zero_mod, if_true, Nat.mul_zero]
      exact roundTo_zero ..
    · simp only [fdivR, hx, hy, hn, if_neg hm, if_true]
  case root =>
    refine ⟨fun h => by simp only [fsqrtR, hx, h, if_true], fun h hs => by subst hs; exact isRounded_fsqrtR r hx h, fun k => ?_⟩
    simp only [fscaleR, hx]
    refine ⟨fun h => by rw [h, roundTo_zero], fun h => ?_⟩
    rw [roundTo_clamp r hx h, mul_assoc, ← zpow_add₀ two_ne_zero]
    exact isRounded_roundTo t r ftz s _ h
  case convert =>
    simp only [fcvtR, hx, roundVal]
    exact ⟨fun h => by rw [h, roundTo_zero], fun h => isRounded_roundTo t r ftz neg e h⟩
  case fromInt =>
    refine ⟨fun h => by subst h; exact roundTo_zero .., fun h => ?_⟩
    have hr := isRounded_roundTo t r ftz (decide (v < 0)) 0 (m := v.natAbs) (by simpa using h)
    rw [zpow_zero, mul_one, Nat.cast_natAbs, Int.cast_abs] at hr
    exact hr
  case nan =>
    refine ⟨fun t r ftz x y v hv => ?_, fun t r ftz x y z => canonical_fmaR t t r ftz _ z,
      fun s t r ftz x => canonical_roundVal t r ftz _, fun t r ftz x y h v hv => ?_⟩
    · obtain rfl | rfl | rfl | rfl | rfl | rfl | rfl | rfl := hv
      · exact canonical_faddR t r ftz x y
      · exact canonical_fsubR t r ftz x y
      · exact canonical_fmulR t r ftz x y
      · exact canonical_fdivR t r ftz x y
      · exact canonical_fsqrtR t r ftz x
      · exact canonical_frndR t r ftz false x
      · exact canonical_fminmaxR t false ftz x y
      · exact canonical_fminmaxR t true ftz x y
    · rw [nanRes_of_nan r h hv]
      refine ⟨rfl, ?_, fun hs => if_pos (by simpa using hs)⟩
      cases ((fval t ftz x).isS || (fval t ftz y).isS)
      · exact .inr rfl
      · exact .inl rfl

end Sys2Proof.Machine
end

section
/-!
PROOF of `ApproximateSpecialResults`. The special inputs are the branches of `approxR`. An exact case is a number that the format holds, so
that `roundTo` gives it without a flag. Every other result is a value that `aWithin` has accepted, or the exact result rounded to nearest,
which lies within half an ulp.
-/

namespace Sys2Proof.Machine

theorem frac_le_bias (t : FTy) : FTy.frac t ≤ FTy.bias t := by cases t <;> decide
theorem bias_add_frac_lt (t : FTy) : FTy.bias t + FTy.frac t < 2 ^ (FTy.frac t + 1) := by cases t <;> decide

/-! ### The branches of `approxR` -/

/-- The encoding of a zero and of an infinity. -/
theorem fval_signBit (t : FTy) (neg : Bool) : fval t false (signBit t neg) = .fin neg 0 (1 - (FTy.bias t : ℤ) - FTy.frac t) := by
  have h := fval_fields t false neg (E := 0) (M := 0) (by omega) (by positivity)
  rw [Nat.zero_mul, Nat.add_zero] at h
  rw [h]
  simp [fieldsVal]

theorem fval_inf (t : FTy) (neg : Bool) : fval t false (signBit t neg + FTy.inf t) = .inf neg := by
  have h := fval_fields t false neg (E := 2 * FTy.bias t + 1) (M := 0) (by omega) (by positivity)
  rw [Nat.add_zero, ← inf_eq] at h
  rw [h]
  simp [fieldsVal]

theorem signBit_true (t : FTy) : signBit t true = 2 ^ (t.width - 1) := rfl
theorem signBit_false (t : FTy) : signBit t false = 0 := rfl

section
variable {t : FTy} {ftz : Bool} {x : Nat}

/-- A NaN, an infinity and a zero (R41). -/
theorem approxR_nan {sig : Bool} (h : fval t ftz x = .nan sig) (fn : AFn) : approxR fn t ftz x = nanRes t sig := by
  simp only [approxR, h]

theorem approxR_inf {s : Bool} (h : fval t ftz x = .inf s) (fn : AFn) : approxR fn t ftz x =
    match fn with
    | .rcp => (signBit t s, 0)
    | .rsq => if s then nanRes t true else (0, 0)
    | .exp2 => (if s then 0 else FTy.inf t, 0)
    | .log2 => if s then nanRes t true else (FTy.inf t, 0)
    | .sin | .cos => nanRes t true := by
  cases fn <;> simp only [approxR, h]

theorem approxR_zero {s : Bool} {e : ℤ} (h : fval t ftz x = .fin s 0 e) (fn : AFn) : approxR fn t ftz x =
    match fn with
    | .rcp | .rsq => (signBit t s + FTy.inf t, fDZ)
    | .exp2 | .cos => (FTy.bias t * 2 ^ FTy.frac t, 0)
    | .log2 => (signBit t true + FTy.inf t, fDZ)
    | .sin => (signBit t s, 0) := by
  cases fn <;> simp only [approxR, h, if_true]

/-- A negative number outside the domain (R41). -/
theorem approxR_negative {m : Nat} {e : ℤ} (h : fval t ftz x = .fin true m e) (hm : m ≠ 0) {fn : AFn} (hfn : fn = .rsq ∨ fn = .log2) :
    approxR fn t ftz x = nanRes t true := by
  simp only [approxR, h, if_neg hm, true_and, if_pos hfn]

/-- Any other number. -/
theorem approxR_fin {s : Bool} {m : Nat} {e : ℤ} (h : fval t ftz x = .fin s m e) (hm : m ≠ 0) {fn : AFn}
    (hdom : s = true → fn ≠ .rsq ∧ fn ≠ .log2) : approxR fn t ftz x = aFinite fn t ftz x s m e := by
  have hno : ¬(s = true ∧ (fn = .rsq ∨ fn = .log2)) := fun hc => hc.2.elim (hdom hc.1).1 (hdom hc.1).2
  simp only [approxR, h, if_neg hm, if_neg hno]

end

/-! ### The parts of `aFinite` -/

theorem two_zpow_binade_le_rat {m : Nat} (e : ℤ) (hm : m ≠ 0) : (2 : ℚ) ^ binade m e ≤ m * 2 ^ e := by
  rw [← Rat.cast_le (K := ℝ)]
  push_cast
  exact two_zpow_binade_le e hm

theorem lt_two_zpow_binade_rat (m : Nat) (e : ℤ) : (m : ℚ) * 2 ^ e < 2 ^ (binade m e + 1) := by
  rw [← Rat.cast_lt (K := ℝ)]
  push_cast
  exact lt_two_zpow_binade m e

/-- A sine or cosine beyond 2^20 (R40). -/
def Beyond (fn : AFn) (m : Nat) (e : ℤ) : Prop := (fn = .sin ∨ fn = .cos) ∧ (2 : ℚ) ^ 20 < m * 2 ^ e

/-- `aFinite` tells such a number by its binade. -/
theorem beyond_iff {m : Nat} {e : ℤ} (hm : m ≠ 0) :
    (2 : ℚ) ^ 20 < m * 2 ^ e ↔ 20 < (m.log2 : ℤ) + e ∨ ((m.log2 : ℤ) + e = 20 ∧ m ≠ 2 ^ m.log2) := by
  have hlow : (2 : ℚ) ^ ((m.log2 : ℤ) + e) ≤ m * 2 ^ e := two_zpow_binade_le_rat e hm
  have hhigh : (m : ℚ) * 2 ^ e < 2 ^ ((m.log2 : ℤ) + e + 1) := lt_two_zpow_binade_rat m e
  have h20 : (2 : ℚ) ^ 20 = 2 ^ (20 : ℤ) := by norm_num
  rw [h20]
  obtain h | h | h := lt_trichotomy (20 : ℤ) ((m.log2 : ℤ) + e)
  · exact iff_of_true ((zpow_lt_zpow_right₀ one_lt_two h).trans_le hlow) (.inl h)
  · rw [h, zpow_add₀ two_ne_zero, zpow_natCast, mul_lt_mul_iff_left₀ (by positivity)]
    have hle := Nat.log2_self_le hm
    constructor
    · intro hlt
      have hlt : 2 ^ m.log2 < m := by exact_mod_cast hlt
      exact .inr ⟨rfl, hlt.ne'⟩
    · rintro (hc | hc)
      · exact absurd hc (lt_irrefl _)
      · exact_mod_cast lt_of_le_of_ne hle hc.2.symm
  · exact iff_of_false (not_lt.2 (hhigh.le.trans (zpow_le_zpow_right₀ one_le_two (by omega)))) (by omega)

/-- The exact result that bounds a result of `aFinite`. -/
def aTarget (fn : AFn) (s : Bool) (m : Nat) (e : ℤ) : Bool × Nat × ℤ := (aPower fn s m e).getD (aExact fn s m e)

/-- An exact result rounded to nearest, with subnormals. -/
def nearest (t : FTy) (y : Bool × Nat × ℤ) : Nat × Word := roundTo t .rn false y.1 y.2.1 y.2.2

/-- What is given of an inexact result that does not overflow: the free value where it lies within the bound, else the nearest. -/
def aChosen (fn : AFn) (t : FTy) (ftz : Bool) (x : Nat) (y : Bool × Nat × ℤ) : Nat :=
  if aWithin fn t y (Config.approx fn.num (FTy.num t) ftz x % 2 ^ t.width) then Config.approx fn.num (FTy.num t) ftz x % 2 ^ t.width
  else (nearest t y).1

section
variable {fn : AFn} {t : FTy} {ftz : Bool} {x : Nat} {s : Bool} {m : Nat} {e : ℤ}

/-- An exact case that the format holds is given exactly. -/
theorem aFinite_exact (hm : m ≠ 0) (hb : ¬Beyond fn m e) {y : Bool × Nat × ℤ} (hy : aPower fn s m e = some y)
    (hr : (nearest t y).2 = 0) : aFinite fn t ftz x s m e = roundTo t .rn ftz y.1 y.2.1 y.2.2 := by
  rw [Beyond, beyond_iff hm] at hb
  rw [nearest] at hr
  simp only [aFinite, if_neg hb, hy, hr, if_true]

/-- Any other number overflows or gets the chosen value. -/
theorem aFinite_inexact (hm : m ≠ 0) (hb : ¬Beyond fn m e)
    (hr : aPower fn s m e = none ∨ (nearest t (aTarget fn s m e)).2 ≠ 0) : aFinite fn t ftz x s m e =
      if (FTy.bias t : ℤ) < binade (aTarget fn s m e).2.1 (aTarget fn s m e).2.2 then
        (signBit t (aTarget fn s m e).1 + FTy.inf t, fOF ||| fNX)
      else aFlags t ftz (aChosen fn t ftz x (aTarget fn s m e)) := by
  rw [Beyond, beyond_iff hm] at hb
  obtain hy | ⟨y, hy⟩ := (aPower fn s m e).eq_none_or_eq_some
  · have htarget : aTarget fn s m e = aExact fn s m e := by rw [aTarget, hy]; rfl
    simp only [htarget, aFinite, if_neg hb, hy, aChosen, binade, nearest]
  · have htarget : aTarget fn s m e = y := by rw [aTarget, hy]; rfl
    rw [htarget, hy] at hr
    have hne := hr.resolve_left (by simp)
    rw [nearest] at hne
    simp only [htarget, aFinite, if_neg hb, hy, if_neg hne, aChosen, binade, nearest]

/-- A sine or cosine beyond 2^20 gets the free value where that lies in [−1, 1], else 0. -/
theorem aFinite_beyond (hm : m ≠ 0) (hb : Beyond fn m e) : ∃ c u n f, fval t false c = .fin u n f ∧ (n : ℚ) * 2 ^ f ≤ 1 ∧
    aFinite fn t ftz x s m e = aFlags t ftz c := by
  have hzero := signBit_false t ▸ fval_signBit t false
  rw [Beyond, beyond_iff hm] at hb
  simp only [aFinite, if_pos hb]
  generalize Config.approx fn.num (FTy.num t) ftz x % 2 ^ t.width = c
  cases hc : fval t false c with
  | nan sig => exact ⟨0, _, _, _, hzero, by simp, rfl⟩
  | inf u => exact ⟨0, _, _, _, hzero, by simp, rfl⟩
  | fin u n f =>
    by_cases hle : atExp (min f 0) false n f ≤ atExp (min f 0) false 1 0
    · refine ⟨c, u, n, f, hc, ?_, by simp only [if_pos hle]⟩
      have hleq : (atExp (min f 0) false n f : ℚ) * 2 ^ min f 0 ≤ atExp (min f 0) false 1 0 * 2 ^ min f 0 :=
        mul_le_mul_of_nonneg_right (by exact_mod_cast hle) (by positivity)
      rw [atExp_mul _ _ _ (min_le_left _ _), atExp_mul _ _ _ (min_le_right _ _)] at hleq
      simpa [ratOf] using hleq
    · exact ⟨0, _, _, _, hzero, by simp, by simp only [if_neg hle]⟩

end

/-! ### Values within the bound (R40) -/

/-- The flags of an inexact result. -/
theorem inexactIs_aFlags (t : FTy) (ftz : Bool) (c : Nat) : InexactIs t ftz c (aFlags t ftz c) := by
  have hinf : 2 ^ FTy.frac t ≤ FTy.inf t := by
    rw [inf_eq]
    exact Nat.le_mul_of_pos_left _ (by omega)
  unfold InexactIs aFlags
  refine ⟨fun h => if_pos h, fun h => ?_, fun h1 h2 => ?_⟩
  · rw [if_neg (by omega), if_pos h]
  · rw [if_neg h1, if_neg (by omega)]

/-- The bound for a finite value. -/
theorem withinUlps_fin_iff {t : FTy} {n c : Nat} {s : Bool} {m : Nat} {e : ℤ} (hc : fval t false c = .fin s m e) (y : Bool × Nat × ℤ) :
    WithinUlps t n y c ↔ |ratOf (.fin s m e) - ratOf (.fin y.1 y.2.1 y.2.2)| ≤ n * 2 ^ ulpExp t y.2.1 y.2.2 := by
  have hsigned : ∀ (s : Bool) (m : ℕ) (e : ℤ), (if s = true then -((m : ℚ) * 2 ^ e) else (m : ℚ) * 2 ^ e) = ratOf (.fin s m e) := by
    intro s m e; cases s <;> simp [ratOf]
  unfold WithinUlps
  simp only [hc, hsigned, ulpExp, binade]

/-- The bound for an infinity. -/
theorem withinUlps_inf_iff {t : FTy} {n c : Nat} {s : Bool} (hc : fval t false c = .inf s) (y : Bool × Nat × ℤ) :
    WithinUlps t n y c ↔ s = y.1 ∧
      (2 : ℚ) ^ ((FTy.bias t : ℤ) + 1) - 2 ^ ((FTy.bias t : ℤ) - FTy.prec t) ≤ y.2.1 * 2 ^ y.2.2 + n * 2 ^ ulpExp t y.2.1 y.2.2 := by
  unfold WithinUlps
  simp only [hc, ulpExp, binade]

theorem ratOf_pos (m : ℕ) (e : ℤ) : ratOf (.fin false m e) = m * 2 ^ e := by simp [ratOf]

/-- What `aWithin` accepts lies within the bound. -/
theorem withinUlps_of_aWithin {fn : AFn} {t : FTy} {y : Bool × Nat × ℤ} {c : Nat} (h : aWithin fn t y c = true) :
    WithinUlps t fn.bound y c := by
  have hu : max ((y.2.1.log2 : ℤ) + y.2.2) (1 - (FTy.bias t : ℤ)) - FTy.frac t = ulpExp t y.2.1 y.2.2 := rfl
  simp only [aWithin, hu] at h
  generalize hv : fval t false c = v at h
  cases v with
  | nan sig => cases h
  | inf s =>
    rw [withinUlps_inf_iff hv]
    simp only [Bool.and_eq_true, beq_iff_eq, decide_eq_true_eq] at h
    obtain ⟨hs, hle⟩ := h
    have hb := bias_le t
    have hp := frac_le t
    have hprec := prec_eq t
    set g : ℤ := min (min y.2.2 (ulpExp t y.2.1 y.2.2)) (-2000)
    have hle : ((atExp g false 1 ((FTy.bias t : ℤ) + 1) - atExp g false 1 ((FTy.bias t : ℤ) - FTy.prec t) : ℤ) : ℚ) * 2 ^ g ≤
        ((atExp g false y.2.1 y.2.2 + atExp g false fn.bound (ulpExp t y.2.1 y.2.2) : ℤ) : ℚ) * 2 ^ g :=
      mul_le_mul_of_nonneg_right (by exact_mod_cast hle) (by positivity)
    rw [Int.cast_sub, Int.cast_add, sub_mul, add_mul, atExp_mul g _ _ (by omega), atExp_mul g _ _ (by omega),
      atExp_mul g _ _ (by omega), atExp_mul g _ _ (by omega)] at hle
    simp only [ratOf_pos, Nat.cast_one, one_mul] at hle
    exact ⟨hs, hle⟩
  | fin s m e =>
    rw [withinUlps_fin_iff hv]
    simp only [decide_eq_true_eq] at h
    set g : ℤ := min (min y.2.2 (ulpExp t y.2.1 y.2.2)) e
    have hdiff : ((atExp g s m e - atExp g y.1 y.2.1 y.2.2 : ℤ) : ℚ) * 2 ^ g = ratOf (.fin s m e) - ratOf (.fin y.1 y.2.1 y.2.2) := by
      rw [Int.cast_sub, sub_mul, atExp_mul g _ _ (by omega), atExp_mul g _ _ (by omega)]
    have hulp : (2 : ℚ) ^ ulpExp t y.2.1 y.2.2 = 2 ^ (ulpExp t y.2.1 y.2.2 - g).toNat * 2 ^ g := by
      rw [← zpow_natCast, ← zpow_add₀ two_ne_zero, Int.toNat_of_nonneg (by omega), sub_add_cancel]
    rw [← hdiff, abs_mul, abs_of_pos (show (0 : ℚ) < 2 ^ g by positivity), hulp, ← mul_assoc]
    refine mul_le_mul_of_nonneg_right ?_ (by positivity)
    rw [← Int.cast_abs, Int.abs_eq_natAbs]
    exact_mod_cast h

/-- Rounding to nearest moves a number by at most half of its last place. -/
theorem kept_nearest_error (t : FTy) (neg : Bool) (m : Nat) (e : ℤ) :
    |((kept t .rn neg m e).1 : ℚ) * 2 ^ ulpExp t m e - m * 2 ^ e| ≤ 1 / 2 * 2 ^ ulpExp t m e := by
  have h : |(m : ℝ) * 2 ^ e / 2 ^ ulpExp t m e - (kept t .rn neg m e).1| ≤ 1 / 2 := (roundsTo_kept t .rn neg e).1
  have hpos : (0 : ℝ) < 2 ^ ulpExp t m e := by positivity
  rw [← Rat.cast_le (K := ℝ)]
  push_cast
  calc |((kept t .rn neg m e).1 : ℝ) * 2 ^ ulpExp t m e - m * 2 ^ e|
      = |(m : ℝ) * 2 ^ e / 2 ^ ulpExp t m e - (kept t .rn neg m e).1| * 2 ^ ulpExp t m e := by
        rw [← abs_of_pos hpos, ← abs_mul, abs_of_pos hpos, sub_mul, div_mul_cancel₀ _ hpos.ne', abs_sub_comm]
    _ ≤ _ := mul_le_mul_of_nonneg_right h hpos.le

/-- The nearest encoding lies within any bound of an ulp or more. -/
theorem withinUlps_nearest (t : FTy) {n : Nat} (hn : 1 ≤ n) (y : Bool × Nat × ℤ) : WithinUlps t n y (nearest t y).1 := by
  obtain ⟨neg, m, e⟩ := y
  have hbound : (1 / 2 : ℚ) * 2 ^ ulpExp t m e ≤ n * 2 ^ ulpExp t m e := by
    have hn : (1 : ℚ) ≤ n := by exact_mod_cast hn
    exact mul_le_mul_of_nonneg_right (by linarith) (by positivity)
  have herr := (kept_nearest_error t neg m e).trans hbound
  unfold nearest
  by_cases hm : m = 0
  · subst hm
    rw [roundTo_zero, withinUlps_fin_iff (fval_signBit t neg)]
    simp only [ratOf, Nat.cast_zero, mul_zero, zero_mul, sub_zero, abs_zero]
    positivity
  rw [roundTo_eq t .rn false neg e hm]
  split
  · -- overflow to ∞
    rename_i hinf
    rw [inf_le_code_iff t (kept_le t .rn neg e) (expField_of_kept_lt t .rn neg e hm), ← ulpExp_eq] at hinf
    have hcode : (2 : ℚ) ^ ((FTy.bias t : ℤ) + 1) ≤ (kept t .rn neg m e).1 * 2 ^ ulpExp t m e := by
      rw [← Rat.cast_le (K := ℝ)]
      push_cast
      exact hinf
    rw [overflowRes, if_pos rfl, withinUlps_inf_iff (fval_inf t neg)]
    have hpos : (0 : ℚ) < 2 ^ ((FTy.bias t : ℤ) - FTy.prec t) := by positivity
    exact ⟨rfl, by linarith [(abs_le.1 herr).2]⟩
  · -- the kept significand
    rename_i hinf
    rw [if_neg (by simp)]
    obtain ⟨m', e', hval, hvalue⟩ := fval_code t neg (kept_le t .rn neg e) (expField_of_kept_lt t .rn neg e hm) (not_le.1 hinf)
    rw [← ulpExp_eq] at hvalue
    have hvalue : (m' : ℚ) * 2 ^ e' = (kept t .rn neg m e).1 * 2 ^ ulpExp t m e := by
      apply Rat.cast_injective (α := ℝ)
      push_cast
      exact hvalue
    rw [withinUlps_fin_iff hval]
    simp only [ratOf, mul_assoc, hvalue, ← mul_sub]
    cases neg with
    | false => simpa using herr
    | true => simpa [abs_sub_comm] using herr

/-- The chosen value lies within the bound of R40. -/
theorem withinUlps_aChosen (fn : AFn) (t : FTy) (ftz : Bool) (x : Nat) (y : Bool × Nat × ℤ) :
    WithinUlps t fn.bound y (aChosen fn t ftz x y) := by
  unfold aChosen
  split
  · rename_i h; exact withinUlps_of_aWithin h
  · exact withinUlps_nearest t (by cases fn <;> decide) y

/-! ### Exact cases (R40) -/

/-- A number that the format holds is encoded without a flag. -/
theorem Fits.encodes {t : FTy} {ftz : Bool} {m : Nat} {e : ℤ} (h : Fits t ftz m e) (neg : Bool) :
    Encodes t (roundTo t .rn ftz neg m e).1 neg (m * 2 ^ e) ∧ (roundTo t .rn ftz neg m e).2 = 0 := by
  obtain ⟨m', e', hval, hvalue⟩ := h.fval_roundTo .rn neg
  refine ⟨⟨m', e', hval, ?_⟩, by rw [h.roundTo_eq]⟩
  apply Rat.cast_injective (α := ℝ)
  push_cast
  exact hvalue

theorem Fits.subnormal {t : FTy} {ftz : Bool} {m : Nat} {e : ℤ} (h : Fits t ftz m e) : Fits t false m e :=
  ⟨h.ne_zero, h.ulp_le, h.le_bias, fun hc => by cases hc⟩

/-- Without `.ftz` it raises nothing either. -/
theorem Fits.nearest_flags {t : FTy} {ftz : Bool} {m : Nat} {e : ℤ} (h : Fits t ftz m e) (neg : Bool) : (nearest t (neg, m, e)).2 = 0 :=
  (h.subnormal.encodes neg).2

/-- A power of two that the format holds. -/
theorem fits_of_holds {t : FTy} {ftz : Bool} {k : ℤ} (h : Holds t ftz k) : Fits t ftz 1 k := by
  have hlog : (Nat.log2 1 : ℤ) = 0 := by decide
  obtain ⟨hlow, hhigh⟩ := h
  refine ⟨one_ne_zero, ?_, ?_, fun hf => ?_⟩
  · unfold ulpExp binade
    rw [hlog]
    split at hlow <;> omega
  · unfold binade
    omega
  · rw [if_pos hf] at hlow
    unfold binade
    omega

/-- A whole number below `2^(p + 1)`. -/
theorem fits_nat (t : FTy) (ftz : Bool) {n : Nat} (h0 : n ≠ 0) (hn : n < 2 ^ (FTy.frac t + 1)) : Fits t ftz n 0 := by
  have hlog : n.log2 < FTy.frac t + 1 := (Nat.log2_lt h0).2 hn
  have hfb := frac_le_bias t
  have hb := fifteen_le_bias t
  refine ⟨h0, ?_, ?_, fun _ => ?_⟩
  · unfold ulpExp binade; omega
  · unfold binade; omega
  · unfold binade; omega

/-- An exact case whose result the format holds is encoded without a flag. -/
theorem encodes_of_exact {fn : AFn} {t : FTy} {ftz : Bool} {x : Nat} {s : Bool} {m : Nat} {e : ℤ} (h : fval t ftz x = .fin s m e)
    (hm : m ≠ 0) (hdom : s = true → fn ≠ .rsq ∧ fn ≠ .log2) (hb : ¬Beyond fn m e) {neg : Bool} {m' : Nat} {e' : ℤ}
    (hy : aPower fn s m e = some (neg, m', e')) (hf : Fits t ftz m' e') :
    approxR fn t ftz x = roundTo t .rn ftz neg m' e' ∧ Encodes t (approxR fn t ftz x).1 neg (m' * 2 ^ e') ∧ (approxR fn t ftz x).2 = 0 := by
  have hres : approxR fn t ftz x = roundTo t .rn ftz neg m' e' :=
    (approxR_fin h hm hdom).trans (aFinite_exact hm hb hy (hf.nearest_flags neg))
  rw [hres]
  exact ⟨rfl, hf.encodes neg⟩

/-- A number equal to a power of two. -/
theorem eq_two_pow {m : Nat} {e n : ℤ} (h : (m : ℚ) * 2 ^ e = 2 ^ n) : m = 2 ^ m.log2 ∧ n = (m.log2 : ℤ) + e := by
  have hm : m ≠ 0 := by
    rintro rfl
    rw [Nat.cast_zero, zero_mul] at h
    exact (zpow_ne_zero n two_ne_zero) h.symm
  have hlow := two_zpow_binade_le_rat e hm
  have hhigh := lt_two_zpow_binade_rat m e
  rw [h] at hlow hhigh
  have h1 := (zpow_le_zpow_iff_right₀ one_lt_two).1 hlow
  have h2 := (zpow_lt_zpow_iff_right₀ one_lt_two).1 hhigh
  have hn : n = (m.log2 : ℤ) + e := by unfold binade at h1 h2; omega
  refine ⟨?_, hn⟩
  rw [hn, zpow_add₀ two_ne_zero, zpow_natCast] at h
  exact_mod_cast mul_right_cancel₀ (zpow_ne_zero e two_ne_zero) h

/-- The exact cases of `exp2`: whole numbers of less than 14 bits. -/
theorem aPower_exp2 {s : Bool} {m : Nat} {e n : ℤ} (hm : m ≠ 0) (h : ((if s then -1 else 1) * m : ℚ) * 2 ^ e = n) (hn : n.natAbs < 2 ^ 14) :
    aPower .exp2 s m e = some (false, 1, n) := by
  have habs : (m : ℚ) * 2 ^ e = n.natAbs := by
    have hpos : (0 : ℚ) ≤ m * 2 ^ e := by positivity
    rw [Nat.cast_natAbs, Int.cast_abs]
    cases s with
    | false => rw [← h, if_neg (by simp), one_mul, abs_of_nonneg hpos]
    | true => rw [← h, if_pos rfl, neg_one_mul, neg_mul, abs_neg, abs_of_nonneg hpos]
  have hsign : n = if s then -(n.natAbs : ℤ) else n.natAbs := by
    rw [← Int.cast_inj (α := ℚ)]
    cases s with
    | false => rw [if_neg (by simp), Int.cast_natCast, ← habs, ← h, if_neg (by simp), one_mul]
    | true => rw [if_pos rfl, Int.cast_neg, Int.cast_natCast, ← habs, ← h, if_pos rfl, neg_one_mul, neg_mul]
  have hbig : ¬14 ≤ (m.log2 : ℤ) + e := fun hc => by
    have hlow := (zpow_le_zpow_right₀ (one_le_two (α := ℚ)) hc).trans (two_zpow_binade_le_rat e hm)
    rw [habs] at hlow
    have : (2 : ℚ) ^ (14 : ℤ) = ((2 ^ 14 : ℕ) : ℚ) := by norm_num
    rw [this] at hlow
    exact absurd (by exact_mod_cast hlow) (not_le.2 hn)
  simp only [aPower, if_neg hbig]
  by_cases he : 0 ≤ e
  · have hval : m * 2 ^ e.toNat = n.natAbs := by
      rw [← Nat.cast_inj (R := ℚ), ← habs]
      push_cast
      rw [← zpow_natCast, Int.toNat_of_nonneg he]
    rw [if_pos he, hval, ← hsign]
  · have hval : m = n.natAbs * 2 ^ (-e).toNat := by
      rw [← Nat.cast_inj (R := ℚ)]
      push_cast
      rw [← habs, ← zpow_natCast, Int.toNat_of_nonneg (by omega), mul_assoc, ← zpow_add₀ two_ne_zero, add_neg_cancel, zpow_zero, mul_one]
    rw [if_neg he, hval, if_pos (Nat.mul_mod_left _ _), Nat.mul_div_cancel _ (by positivity), ← hsign]

/-! ### The exact results of `frcp` and `frsq` -/

/-- `frcp`: the reciprocal cut off after 299 bits or more. -/
theorem aExact_rcp (s : Bool) {m : Nat} (e : ℤ) (hm : m ≠ 0) : let y := aExact .rcp s m e
    y.1 = s ∧ 2 ^ 299 ≤ y.2.1 ∧ (y.2.1 : ℝ) * 2 ^ y.2.2 ≤ 1 / (m * 2 ^ e) ∧ 1 / ((m : ℝ) * 2 ^ e) < (y.2.1 + 1) * 2 ^ y.2.2 := by
  have hmr : (0 : ℝ) < m := by exact_mod_cast Nat.pos_of_ne_zero hm
  have hbits : 2 ^ 299 ≤ 2 ^ (300 + m.log2) / m := by
    rw [Nat.le_div_iff_mul_le (Nat.pos_of_ne_zero hm)]
    calc 2 ^ 299 * m ≤ 2 ^ 299 * 2 ^ (m.log2 + 1) := Nat.mul_le_mul_left _ Nat.lt_log2_self.le
      _ = 2 ^ (300 + m.log2) := by rw [← pow_add]; congr 1; omega
  have hval : 1 / ((m : ℝ) * 2 ^ e) = ((2 ^ (300 + m.log2) : ℕ) : ℝ) / m * 2 ^ (-((300 + m.log2 : ℕ) : ℤ) - e) := by
    rw [zpow_sub₀ two_ne_zero, zpow_neg, zpow_natCast]
    push_cast
    field_simp
  refine ⟨rfl, hbits, ?_, ?_⟩
  · rw [hval]
    exact mul_le_mul_of_nonneg_right Nat.cast_div_le (by positivity)
  · rw [hval]
    refine mul_lt_mul_of_pos_right ?_ (by positivity)
    rw [div_lt_iff₀ hmr]
    exact_mod_cast (by rw [Nat.mul_comm]; exact Nat.lt_mul_div_succ _ (Nat.pos_of_ne_zero hm))

/-- `frsq`: the reciprocal of the root cut off after 299 bits or more. -/
theorem aExact_rsq {m : Nat} (e : ℤ) (hm : m ≠ 0) : let y := aExact .rsq false m e
    y.1 = false ∧ 2 ^ 299 ≤ y.2.1 ∧ (y.2.1 : ℝ) * 2 ^ y.2.2 ≤ 1 / Real.sqrt (m * 2 ^ e) ∧
      1 / Real.sqrt ((m : ℝ) * 2 ^ e) < (y.2.1 + 1) * 2 ^ y.2.2 := by
  obtain ⟨odd, h, hodd, hle, he⟩ : ∃ (odd : ℕ) (h : ℤ), (e % 2).toNat = odd ∧ odd ≤ 1 ∧ e = odd + 2 * h :=
    ⟨(e % 2).toNat, e / 2, rfl, by omega, by omega⟩
  have hexp : (e - odd) / 2 = h := by omega
  simp only [aExact, hodd, hexp, isqrt_eq_sqrt]
  have hM : m * 2 ^ odd ≠ 0 := mul_ne_zero hm (by positivity)
  have hMlt : m * 2 ^ odd < 2 ^ (m.log2 + 2) := by
    calc m * 2 ^ odd < 2 ^ (m.log2 + 1) * 2 ^ odd := Nat.mul_lt_mul_of_pos_right Nat.lt_log2_self (by positivity)
      _ ≤ 2 ^ (m.log2 + 1) * 2 ^ 1 := Nat.mul_le_mul_left _ (Nat.pow_le_pow_right (by decide) hle)
      _ = _ := by rw [← pow_add]
  have hroot : Real.sqrt ((m : ℝ) * 2 ^ e) = Real.sqrt ((m * 2 ^ odd : ℕ) : ℝ) * 2 ^ h := by
    rw [← sqrt_mul_two_zpow, he, zpow_add₀ two_ne_zero, zpow_natCast]
    push_cast
    rw [mul_assoc]
  generalize m * 2 ^ odd = M at hM hMlt hroot ⊢
  have hMr : (0 : ℝ) < M := by exact_mod_cast Nat.pos_of_ne_zero hM
  have hsqrt : (0 : ℝ) < Real.sqrt M := Real.sqrt_pos.2 hMr
  set S := 300 + m.log2 with hS
  have hbits : 2 ^ 299 ≤ Nat.sqrt (2 ^ (2 * S) / M) := by
    rw [Nat.le_sqrt, Nat.le_div_iff_mul_le (Nat.pos_of_ne_zero hM)]
    calc 2 ^ 299 * 2 ^ 299 * M ≤ 2 ^ 299 * 2 ^ 299 * 2 ^ (m.log2 + 2) := Nat.mul_le_mul_left _ hMlt.le
      _ = 2 ^ (600 + m.log2) := by rw [← pow_add, ← pow_add]; congr 1; omega
      _ ≤ 2 ^ (2 * S) := Nat.pow_le_pow_right (by decide) (by omega)
  have hval : 1 / Real.sqrt ((m : ℝ) * 2 ^ e) = Real.sqrt (((2 ^ (2 * S) : ℕ) : ℝ) / M) * 2 ^ (-(S : ℤ) - h) := by
    have hpow : Real.sqrt ((2 ^ (2 * S) : ℕ) : ℝ) = 2 ^ S := by
      push_cast
      rw [mul_comm 2 S, pow_mul, Real.sqrt_sq (by positivity)]
    rw [hroot, Real.sqrt_div (Nat.cast_nonneg _), hpow, zpow_sub₀ two_ne_zero, zpow_neg, zpow_natCast]
    field_simp
  rw [hval]
  refine ⟨trivial, hbits, mul_le_mul_of_nonneg_right ?_ (by positivity), mul_lt_mul_of_pos_right ?_ (by positivity)⟩
  · refine Real.le_sqrt_of_sq_le ?_
    rw [le_div_iff₀ hMr, sq]
    exact_mod_cast (Nat.mul_le_mul_right _ (Nat.sqrt_le _)).trans (Nat.div_mul_le_self _ _)
  · refine (Real.sqrt_lt' (by positivity)).2 ?_
    rw [div_lt_iff₀ hMr, sq]
    have hlt : 2 ^ (2 * S) < M * (2 ^ (2 * S) / M + 1) := Nat.lt_mul_div_succ _ (Nat.pos_of_ne_zero hM)
    exact_mod_cast hlt.trans_le (by rw [Nat.mul_comm]; exact Nat.mul_le_mul_right _ (Nat.lt_succ_sqrt _))

/-! ### The exact cases of powers of two -/

/-- The encoding of a power of two that is a normal number. -/
theorem roundTo_two_pow {t : FTy} (ftz : Bool) {k : ℤ} (hlow : 1 - (FTy.bias t : ℤ) ≤ k) (hhigh : k ≤ FTy.bias t) :
    roundTo t .rn ftz false 1 k = ((k + FTy.bias t).toNat * 2 ^ FTy.frac t, 0) := by
  have hfits : Fits t ftz 1 k := fits_of_holds ⟨by split <;> omega, hhigh⟩
  have hbinade : binade 1 k = k := by simp [binade, show Nat.log2 1 = 0 by decide]
  have hfield : expField t 1 k = (k + FTy.bias t - 1).toNat := by rw [expField, hbinade, max_eq_left hlow]
  have hulp : (k - ulpExp t 1 k).toNat = FTy.frac t := by rw [ulpExp, hbinade]; omega
  have hsucc : (k + FTy.bias t).toNat = (k + FTy.bias t - 1).toNat + 1 := by omega
  rw [hfits.roundTo_eq, signBit_false, Nat.zero_add, hfield, hulp, hsucc, Nat.one_mul, Nat.add_mul, Nat.one_mul]

section
variable {t : FTy} {ftz : Bool} {x : Nat} {s : Bool} {m : Nat} {e : ℤ}

theorem aPower_rcp (s : Bool) (e : ℤ) (hm : m = 2 ^ m.log2) : aPower .rcp s m e = some (s, 1, -binade m e) :=
  if_pos (decide_eq_true hm)

theorem aPower_rsq (e : ℤ) (hm : m = 2 ^ m.log2) {j : ℤ} (hj : binade m e = 2 * j) : aPower .rsq s m e = some (false, 1, -j) := by
  unfold binade at hj
  simp only [aPower, decide_eq_true hm, hj, Int.mul_emod_right, and_self, if_true, Int.mul_ediv_cancel_left j two_ne_zero]

theorem aPower_log2 (s : Bool) (e : ℤ) (hm : m = 2 ^ m.log2) :
    aPower .log2 s m e = some (decide (binade m e < 0), (binade m e).natAbs, 0) :=
  if_pos (decide_eq_true hm)

theorem ne_zero_of_two_pow (hm : m = 2 ^ m.log2) : m ≠ 0 := by rw [hm]; positivity

/-- The binade of an encoded number. -/
theorem binade_range (h : fval t ftz x = .fin s m e) (hm : m ≠ 0) :
    1 - (FTy.bias t : ℤ) - FTy.frac t ≤ binade m e ∧ binade m e ≤ FTy.bias t := by
  have hrange := fval_fin_range h
  unfold binade
  obtain ⟨hlt, rfl⟩ | ⟨-, hlt, hlow, hhigh⟩ := hrange
  · have := (Nat.log2_lt hm).2 hlt
    have := frac_le_bias t
    have := fifteen_le_bias t
    omega
  · have := (Nat.log2_lt hm).2 hlt
    omega

/-- `frcp` of a power of two. -/
theorem approxR_rcp_two_pow (h : fval t ftz x = .fin s m e) (hm : m = 2 ^ m.log2) (hh : Holds t ftz (-binade m e)) :
    Encodes t (approxR .rcp t ftz x).1 s (2 ^ (-binade m e)) ∧ (approxR .rcp t ftz x).2 = 0 := by
  have hb : ¬Beyond .rcp m e := by simp [Beyond]
  have hres := (encodes_of_exact h (ne_zero_of_two_pow hm) (by simp) hb (aPower_rcp s e hm) (fits_of_holds hh)).2
  simpa only [Nat.cast_one, one_mul] using hres

/-- `frsq` of a power of four. -/
theorem approxR_rsq_two_pow (h : fval t ftz x = .fin false m e) (hm : m = 2 ^ m.log2) {j : ℤ} (hj : binade m e = 2 * j) :
    Encodes t (approxR .rsq t ftz x).1 false (2 ^ (-j)) ∧ (approxR .rsq t ftz x).2 = 0 := by
  have hb : ¬Beyond .rsq m e := by simp [Beyond]
  have hrange := binade_range h (ne_zero_of_two_pow hm)
  have hh : Holds t ftz (-j) := by
    have := frac_le_bias t
    have := fifteen_le_bias t
    refine ⟨?_, by omega⟩
    split <;> omega
  have hres := (encodes_of_exact h (ne_zero_of_two_pow hm) (by simp) hb (aPower_rsq e hm hj) (fits_of_holds hh)).2
  simpa only [Nat.cast_one, one_mul] using hres

/-- `flog2` of 1. -/
theorem approxR_log2_one (h : fval t ftz x = .fin false m e) (hm : m = 2 ^ m.log2) (hn : binade m e = 0) :
    approxR .log2 t ftz x = (0, 0) := by
  have hm0 := ne_zero_of_two_pow hm
  have hb : ¬Beyond .log2 m e := by simp [Beyond]
  have hy : aPower .log2 false m e = some (false, 0, 0) := by rw [aPower_log2 false e hm, hn]; rfl
  rw [approxR_fin h hm0 (by simp), aFinite_exact hm0 hb hy (by rw [nearest, roundTo_zero]), roundTo_zero, signBit_false]

/-- `flog2` of a power of two. -/
theorem approxR_log2_two_pow (h : fval t ftz x = .fin false m e) (hm : m = 2 ^ m.log2) :
    Encodes t (approxR .log2 t ftz x).1 (decide (binade m e < 0)) |(binade m e : ℚ)| ∧ (approxR .log2 t ftz x).2 = 0 := by
  by_cases hn : binade m e = 0
  · rw [approxR_log2_one h hm hn, hn]
    exact ⟨⟨0, _, signBit_false t ▸ fval_signBit t false, by simp⟩, rfl⟩
  · have hb : ¬Beyond .log2 m e := by simp [Beyond]
    have hrange := binade_range h (ne_zero_of_two_pow hm)
    have hlt : (binade m e).natAbs < 2 ^ (FTy.frac t + 1) := lt_of_le_of_lt (by omega) (bias_add_frac_lt t)
    have hfits := fits_nat t ftz (Int.natAbs_ne_zero.2 hn) hlt
    have hres := (encodes_of_exact h (ne_zero_of_two_pow hm) (by simp) hb (aPower_log2 false e hm) hfits).2
    simpa only [zpow_zero, mul_one, Nat.cast_natAbs, Int.cast_abs] using hres

/-- `fexp2` of a whole number. -/
theorem approxR_exp2_int (h : fval t ftz x = .fin s m e) {n : ℤ} (hn : ((if s then -1 else 1) * m : ℚ) * 2 ^ e = n) (hm : m ≠ 0)
    (hh : Holds t ftz n) : approxR .exp2 t ftz x = roundTo t .rn ftz false 1 n ∧
      Encodes t (approxR .exp2 t ftz x).1 false (2 ^ n) ∧ (approxR .exp2 t ftz x).2 = 0 := by
  have hb : ¬Beyond .exp2 m e := by simp [Beyond]
  have habs : n.natAbs < 2 ^ 14 := by
    have := bias_le t
    have := frac_le t
    obtain ⟨hlow, hhigh⟩ := hh
    split at hlow <;> omega
  have hres := encodes_of_exact h hm (by simp) hb (aPower_exp2 hm hn habs) (fits_of_holds hh)
  simpa only [Nat.cast_one, one_mul] using hres

end

/-! ### The number 1 -/

theorem fval_one (t : FTy) (ftz : Bool) : fval t ftz (FTy.bias t * 2 ^ FTy.frac t) = .fin false (2 ^ FTy.frac t) (-FTy.frac t) := by
  have hb := fifteen_le_bias t
  have h := fval_fields t ftz false (E := FTy.bias t) (M := 0) (by omega) (by positivity)
  rw [signBit_false, Nat.zero_add, Nat.add_zero] at h
  rw [h, fieldsVal, if_neg (by omega), if_neg (by omega), Nat.zero_add]
  congr 1
  omega

/-- The results at 1 (R41). -/
theorem approxR_one (t : FTy) (ftz : Bool) : let one := FTy.bias t * 2 ^ FTy.frac t
    approxR .rcp t ftz one = (one, 0) ∧ approxR .rsq t ftz one = (one, 0) ∧ approxR .exp2 t ftz one = (one + 2 ^ FTy.frac t, 0) ∧
      approxR .log2 t ftz one = (0, 0) := by
  have h := fval_one t ftz
  have hb := fifteen_le_bias t
  have hlog : (2 ^ FTy.frac t).log2 = FTy.frac t := Nat.log2_two_pow
  have hm : 2 ^ FTy.frac t = 2 ^ (2 ^ FTy.frac t).log2 := by rw [hlog]
  have hm0 := ne_zero_of_two_pow hm
  have hbinade : binade (2 ^ FTy.frac t) (-FTy.frac t) = 0 := by rw [binade, hlog, add_neg_cancel]
  have hholds : ∀ k : ℤ, k = 0 ∨ k = 1 → Holds t ftz k := fun k hk => ⟨by split <;> omega, by omega⟩
  have hcode : roundTo t .rn ftz false 1 0 = (FTy.bias t * 2 ^ FTy.frac t, 0) := by
    rw [roundTo_two_pow ftz (by omega) (by omega), zero_add, Int.toNat_natCast]
  have hrcp : aPower .rcp false (2 ^ FTy.frac t) (-FTy.frac t) = some (false, 1, 0) := by rw [aPower_rcp _ _ hm, hbinade, neg_zero]
  have hrsq : aPower .rsq false (2 ^ FTy.frac t) (-FTy.frac t) = some (false, 1, 0) := by
    rw [aPower_rsq _ hm (j := 0) (by rw [hbinade, mul_zero]), neg_zero]
  refine ⟨?_, ?_, ?_, approxR_log2_one h hm hbinade⟩
  · exact (encodes_of_exact h hm0 (by simp) (by simp [Beyond]) hrcp (fits_of_holds (hholds 0 (.inl rfl)))).1.trans hcode
  · exact (encodes_of_exact h hm0 (by simp) (by simp [Beyond]) hrsq (fits_of_holds (hholds 0 (.inl rfl)))).1.trans hcode
  · rw [(approxR_exp2_int h (n := 1) (by simp) hm0 (hholds 1 (.inr rfl))).1, roundTo_two_pow ftz (by omega) (by omega),
      show (1 + (FTy.bias t : ℤ)).toNat = FTy.bias t + 1 by omega, Nat.succ_mul]

/-! ### The statement -/

/-- The results that are not special (R40): an exact case the format holds, an overflow, and a value within the bound. -/
theorem approxR_finite {fn : AFn} {t : FTy} {ftz : Bool} {x : Nat} {s : Bool} {m : Nat} {e : ℤ} (h : fval t ftz x = .fin s m e) (hm : m ≠ 0)
    (hdom : s = true → fn ≠ .rsq ∧ fn ≠ .log2) (hb : ¬Beyond fn m e) : let y := aTarget fn s m e
    ((aPower fn s m e).isSome = true ∧ (nearest t y).2 = 0 → approxR fn t ftz x = roundTo t .rn ftz y.1 y.2.1 y.2.2) ∧
    (aPower fn s m e = none ∨ (nearest t y).2 ≠ 0 →
      ((FTy.bias t : ℤ) < binade y.2.1 y.2.2 → approxR fn t ftz x = (signBit t y.1 + FTy.inf t, fOF ||| fNX)) ∧
      (binade y.2.1 y.2.2 ≤ FTy.bias t → ∃ c, WithinUlps t fn.bound y c ∧ InexactIs t ftz c (approxR fn t ftz x))) := by
  intro y
  rw [approxR_fin h hm hdom]
  refine ⟨fun ⟨hsome, hflags⟩ => ?_, fun hr => ?_⟩
  · obtain ⟨z, hz⟩ := Option.isSome_iff_exists.1 hsome
    have hy : y = z := by simp only [y, aTarget, hz, Option.getD_some]
    rw [hy] at hflags ⊢
    exact aFinite_exact hm hb hz hflags
  · rw [aFinite_inexact hm hb hr]
    refine ⟨fun hov => if_pos hov, fun hno => ⟨aChosen fn t ftz x y, withinUlps_aChosen fn t ftz x y, ?_⟩⟩
    rw [if_neg (not_lt.2 hno)]
    exact inexactIs_aFlags t ftz _

/-- Settles O14: the table of special inputs, the exact cases, the general results, and the two exact results that are cut off. -/
theorem approximateSpecialResults : Obligations.ApproximateSpecialResults := by
  unfold Obligations.ApproximateSpecialResults
  refine ⟨fun t ftz x => ?_, fun t ftz x s m e n h hpow => ?_, fun t ftz x s m e n h hn hh => ?_, fun fn t ftz x s m e h hm hdom hsmall => ?_,
    fun fn t ftz x s m e hfn h hbig => ?_, fun s m e hm => aExact_rcp s e hm, fun m e hm => aExact_rsq e hm⟩
  · -- special inputs
    refine ⟨fun e h => ?_, fun e h => ?_, fun h => ?_, fun h => ?_, fun m e hm h => ?_, ?_, fun sig fn h => approxR_nan h fn⟩
    · simp only [approxR_zero h, signBit_false, Nat.zero_add, signBit_true, and_self]
    · simp only [approxR_zero h, signBit_true, and_self]
    · simp only [approxR_inf h, nanRes, signBit_false, if_true, and_self, Bool.false_eq_true, if_false]
    · simp only [approxR_inf h, nanRes, signBit_true, if_true, and_self]
    · exact ⟨approxR_negative h hm (.inl rfl), approxR_negative h hm (.inr rfl)⟩
    · rintro rfl
      exact approxR_one t ftz
  · -- powers of two
    obtain ⟨hm, rfl⟩ := eq_two_pow hpow
    refine ⟨fun hh => approxR_rcp_two_pow h hm hh, ?_, ?_⟩
    · rintro rfl j hj
      exact approxR_rsq_two_pow h hm hj
    · rintro rfl
      exact approxR_log2_two_pow h hm
  · -- `fexp2` of whole numbers
    by_cases hm : m = 0
    · subst hm
      have hn0 : n = 0 := by
        rw [Nat.cast_zero, mul_zero, zero_mul] at hn
        exact_mod_cast hn.symm
      have hone : ((2 ^ FTy.frac t : ℕ) : ℚ) * 2 ^ (-FTy.frac t : ℤ) = 1 := by
        rw [Nat.cast_pow, Nat.cast_ofNat, ← zpow_natCast, ← zpow_add₀ two_ne_zero, add_neg_cancel, zpow_zero]
      rw [approxR_zero h, hn0, zpow_zero]
      exact ⟨⟨_, _, fval_one t false, hone⟩, rfl⟩
    · exact (approxR_exp2_int h hn hm hh).2
  · -- other results
    have hb : ¬Beyond fn m e := fun ⟨hsc, hbig⟩ => absurd (hsmall hsc) (not_le.2 hbig)
    have hbound : (if fn = .rcp ∨ fn = .rsq then 1 else 2) = fn.bound := by cases fn <;> decide
    rw [hbound]
    exact approxR_finite h hm hdom hb
  · -- a sine or cosine beyond 2^20
    have hm : m ≠ 0 := by
      rintro rfl
      norm_num at hbig
    have hdom : s = true → fn ≠ .rsq ∧ fn ≠ .log2 := fun _ => by obtain rfl | rfl := hfn <;> exact ⟨by decide, by decide⟩
    obtain ⟨c, u, n, f, hc, hle, hres⟩ := aFinite_beyond (t := t) (ftz := ftz) (x := x) (s := s) hm ⟨hfn, hbig⟩
    refine ⟨c, u, n, f, hc, hle, ?_⟩
    rw [approxR_fin h hm hdom, hres]
    exact inexactIs_aFlags t ftz c

end Sys2Proof.Machine
end

section
/-!
SUPPORT for the statements about the encoding: the two directions of R42, R48 and R49. The fields of a packed word are the fields it was
packed from, and a packed field is the bits it was unpacked from.
-/

namespace Sys2Proof

/-! ### Fields of packed bits -/

@[simp] theorem unpackD_packD (d : RawD) : unpackD (packD d) = d := by
  simp (disch := decide) only [unpackD, packD, bitAt, BitVec.getLsbD_append, BitVec.extractLsb'_append_eq_of_le,
    BitVec.extractLsb'_append_eq_of_add_le]
  simp

@[simp] theorem unpackS_packS (f : RawS) : unpackS (packS f) = f := by
  cases f <;>
  simp (disch := decide) only [unpackS, packS, bitAt, BitVec.getLsbD_append, BitVec.extractLsb'_append_eq_of_le,
    BitVec.extractLsb'_append_eq_of_add_le] <;>
  simp

/-- Bits of a field are bits of its word. -/
theorem extract_extract {n s m t k : Nat} (w : BitVec n) (h : t + k ≤ m) :
    (w.extractLsb' s m).extractLsb' t k = w.extractLsb' (s + t) k := by
  ext j hj
  simp [show t + j < m by omega, Nat.add_assoc]

theorem bitAt_extract {n s m t : Nat} (w : BitVec n) (h : t < m) : bitAt (w.extractLsb' s m) t = bitAt w (s + t) := by
  simp [bitAt, h]

/-- The header of a word is the one its bits 83 to 68 hold (R42). -/
theorem unpackHdr_of_bits {w : IWord} {h : Hdr} (hw : w.extractLsb' 68 16 = packHdr h) : unpackHdr w = h := by
  have hbit : ∀ t, t < 16 → bitAt w (68 + t) = bitAt (packHdr h) t := fun t ht => by rw [← hw, bitAt_extract w ht]
  have hfld : ∀ t k, t + k ≤ 16 → w.extractLsb' (68 + t) k = (packHdr h).extractLsb' t k := fun t k ht => by rw [← hw, extract_extract w ht]
  rw [unpackHdr, hbit 15 (by decide), hfld 10 5 (by decide), hfld 6 4 (by decide), hbit 5 (by decide), hbit 4 (by decide),
    hbit 3 (by decide), hbit 2 (by decide)]
  simp (disch := decide) only [packHdr, bitAt, BitVec.getLsbD_append, BitVec.extractLsb'_append_eq_of_le,
    BitVec.extractLsb'_append_eq_of_add_le]
  simp

/-- The two bits below a packed header are zero (R42). -/
theorem reservedZero_of_bits {w : IWord} {h : Hdr} (hw : w.extractLsb' 68 16 = packHdr h) : reservedZero w = true := by
  have hlow : w.extractLsb' 68 2 = (packHdr h).extractLsb' 0 2 := by rw [← hw, extract_extract w (by decide)]
  simp (disch := decide) only [packHdr, BitVec.extractLsb'_append_eq_right] at hlow
  simp [reservedZero, hlow]

theorem packWord_hdr (r : RawWord) : (packWord r).extractLsb' 68 16 = packHdr r.h := by
  simp (disch := decide) only [packWord, BitVec.extractLsb'_append_eq_of_le]
  exact BitVec.extractLsb'_append_eq_right

theorem packPair_hdr (h : Hdr) (o : PairOp) : (packPair h o).extractLsb' 68 16 = packHdr h := by
  simp (disch := decide) only [packPair, BitVec.extractLsb'_append_eq_of_le]
  exact BitVec.extractLsb'_append_eq_right

/-- A packed standard word unpacks to its fields (R42). -/
@[simp] theorem unpackWord_packWord (r : RawWord) : unpackWord (packWord r) = r := by
  rw [unpackWord, unpackHdr_of_bits (packWord_hdr r)]
  simp (disch := decide) only [packWord, BitVec.extractLsb'_append_eq_of_le, BitVec.extractLsb'_append_eq_of_add_le]
  simp

/-! ### Bits put together again -/

theorem ofBool_bitAt {n : Nat} (w : BitVec n) (i : Nat) : BitVec.ofBool (bitAt w i) = w.extractLsb' i 1 := by
  ext j hj
  simp [bitAt, show i + j = i by omega]

theorem packD_unpackD (w : BitVec 20) : packD (unpackD w) = w := by
  simp (disch := decide) only [unpackD, packD, ofBool_bitAt, BitVec.extractLsb'_append_extractLsb'_eq_extractLsb']
  exact BitVec.extractLsb'_eq_self

theorem packS_unpackS (w : BitVec 24) : packS (unpackS w) = w := by
  have kind : ∀ k : BitVec 2, (w.extractLsb' 22 2).toNat = k.toNat → k = w.extractLsb' 22 2 := fun k h => BitVec.eq_of_toNat_eq h.symm
  have whole : w.extractLsb' 0 24 = w := BitVec.extractLsb'_eq_self
  unfold unpackS
  split
  case h_1 h =>
    simp (disch := decide) only [packS, kind 0 h, ofBool_bitAt, BitVec.extractLsb'_append_extractLsb'_eq_extractLsb']
    exact whole
  case h_2 h =>
    simp (disch := decide) only [packS, kind 1 h, BitVec.extractLsb'_append_extractLsb'_eq_extractLsb']
    exact whole
  case h_3 h =>
    simp (disch := decide) only [packS, kind 2 h, BitVec.extractLsb'_append_extractLsb'_eq_extractLsb']
    exact whole
  case h_4 h0 h1 h2 =>
    have h3 : (w.extractLsb' 22 2).toNat = 3 := by
      have hlt := (w.extractLsb' 22 2).isLt
      have h0' : (w.extractLsb' 22 2).toNat ≠ 0 := h0
      have h1' : (w.extractLsb' 22 2).toNat ≠ 1 := h1
      have h2' : (w.extractLsb' 22 2).toNat ≠ 2 := h2
      omega
    simp (disch := decide) only [packS, kind 3 h3, BitVec.extractLsb'_append_extractLsb'_eq_extractLsb']
    exact whole

end Sys2Proof
end

section
/-!
SUPPORT for `DecodeInvertsEncode`: every operand and destination field reads back as what it was written from (R22, R48 to R53).
-/

namespace Sys2Proof

/-! ### Codes -/

@[simp] theorem ityOf_code (t : ITy) : ityOf t.code = some t := by cases t <;> rfl
@[simp] theorem ftyOf_code (t : FTy) : ftyOf t.code = some t := by cases t <;> rfl
@[simp] theorem ntyOf_code (t : NTy) : ntyOf t.code = some t := by
  cases t with
  | int t => cases t <;> rfl
  | flt t => cases t <;> rfl
@[simp] theorem btyOf_code (t : BTy) : btyOf t.code = some t := by cases t <;> rfl
@[simp] theorem mmatyOf_code (t : MmaTy) : mmatyOf t.code = some t := by cases t <;> rfl
@[simp] theorem atyOf_code (t : ATy) : atyOf t.code = some t := by cases t <;> rfl
@[simp] theorem ctyOf_code (t : CTy) : ctyOf t.code = some t := by cases t <;> rfl
@[simp] theorem rndOf_code (r : Rnd) : rndOf r.code = r := by cases r <;> rfl
@[simp] theorem scopeOf_code (s : Scope) : scopeOf s.code = s := by cases s <;> rfl
@[simp] theorem ordOf_code (o : MOrd) : ordOf o.code = some o := by cases o <;> rfl
@[simp] theorem spaceOf_code (s : Space) : spaceOf s.code = some s := by cases s <;> rfl
@[simp] theorem sregOf_code (n : SReg) : sregOf n.code = some n := by cases n <;> rfl
@[simp] theorem halfopOf_code (o : HalfOp) : halfopOf o.code = some o := by cases o <;> rfl
@[simp] theorem patOf_code (p : Pat) : patOf p.code.1 p.code.2 = some p := by cases p <;> rfl

/-! ### Operand fields -/

@[simp] theorem req_true : req true = some () := rfl
@[simp] theorem rS_eS (a : Src) : rS (eS a) = some a := by cases a <;> simp [rS, eS]
@[simp] theorem rF_eF (a : FSrc) : rF (eF a) = some a := by cases a <;> simp [rF, eF]
@[simp] theorem rV_eV (r : Reg) : rV (eV r) = some r := by simp [rV, eV]
@[simp] theorem rVP_eVP (r : RegPat) : rVP (eVP r) = some r := by simp [rVP, eVP]
@[simp] theorem rI_imm (v : BitVec 22) : rI (.imm v) = some v := rfl
@[simp] theorem rZ_rawZero : rZ rawZero = some () := rfl

@[simp] theorem rIw_eIw {n : Nat} (h : n ≤ 22) (v : BitVec n) : rIw n (eIw v) = some v := by
  have hv : v.toNat < 2 ^ n := v.isLt
  have hle : 2 ^ n ≤ 2 ^ 22 := Nat.pow_le_pow_right (by decide) h
  simp only [rIw, eIw, BitVec.toNat_setWidth]
  rw [Nat.mod_eq_of_lt (by omega), if_pos hv, BitVec.setWidth_setWidth_of_le _ h, BitVec.setWidth_eq]

@[simp] theorem rVI_eVI (b : RegImm) : rVI (eVI b) = some b := by cases b <;> simp [rVI, eVI, eV, rV]

/-- A predicate's index in eight bits. -/
@[simp] theorem setWidth_pred (p : PredIdx) : (p.setWidth 8).setWidth 5 = p := by
  rw [BitVec.setWidth_setWidth_of_le _ (by decide), BitVec.setWidth_eq]

@[simp] theorem setWidth_pred_lt (p : PredIdx) : (p.setWidth 8).toNat < 32 := by
  have := p.isLt
  rw [BitVec.toNat_setWidth]
  omega

@[simp] theorem rP_eP (p : POp) : rP (eP p) = some p := by
  obtain ⟨i, n⟩ := p
  cases n <;> simp [rP, eP, -BitVec.toNat_setWidth]

/-- A name of the special index space (R50). -/
theorem ofNat_name {base n : Nat} (hb : base + 2 ^ n ≤ 256) (v : BitVec n) :
    (BitVec.ofNat 8 (base + v.toNat)).toNat = base + v.toNat ∧ v.toNat < 2 ^ n := by
  have hv := v.isLt
  rw [BitVec.toNat_ofNat, Nat.mod_eq_of_lt (by omega)]
  exact ⟨rfl, hv⟩

@[simp] theorem rN_eN {base n : Nat} (hb : base + 2 ^ n ≤ 256) (v : BitVec n) : rN base n (eN base v) = some v := by
  obtain ⟨hname, hv⟩ := ofNat_name hb v
  simp [rN, eN, hname, hv]

@[simp] theorem rM_eM (r : Reg) (o : MOrd) : rM (eM r o) = some (r, o) := by simp [rM, eM]

/-! ### Destination fields -/

@[simp] theorem dInt_eDInt (r : Reg) (t : ITy) (sat : Bool) : dInt (eDInt r t sat) = some (r, t, sat) := by simp [dInt, eDInt]
@[simp] theorem dFlt_eDFlt (r : Reg) (t : FTy) (m : Rnd) (z : Bool) : dFlt (eDFlt r t m z) = some (r, t, m, z) := by simp [dFlt, eDFlt]
@[simp] theorem dV_eDV (t : BitVec 4) (r : Reg) : dV t (eDV t r) = some r := by simp [dV, eDV]
@[simp] theorem dP_eDP (t : BitVec 4) (p : PredIdx) : dP t (eDP t p) = some p := by simp [dP, eDP, -BitVec.toNat_setWidth]
@[simp] theorem dPs_eDPs (p : PredIdx) (sc : Scope) : dPs (eDPs p sc) = some (p, sc) := by simp [dPs, eDPs, -BitVec.toNat_setWidth]
@[simp] theorem dNone_rawNone : dNone rawNone = some () := rfl
@[simp] theorem dNoneS_eDNoneS (sc : Scope) : dNoneS (eDNoneS sc) = some sc := by simp [dNoneS, eDNoneS]

@[simp] theorem dN_eDN {base n : Nat} (hb : base + 2 ^ n ≤ 256) (t : BitVec 4) (v : BitVec n) : dN base n t (eDN base t v) = some v := by
  obtain ⟨hname, hv⟩ := ofNat_name hb v
  simp [dN, eDN, hname, hv]

end Sys2Proof
end

section
/-!
SUPPORT for `DecodeInvertsEncode`: the rows that share an operand form. The fields that the encoder of a form writes are read back by its
decoder, whatever instruction the form belongs to.
-/

namespace Sys2Proof

variable (m : BitVec 8) (h : Hdr)

/-! ### Integer forms (R114) -/

theorem decI3s_enc (o : I3s) (mk : Hdr → I3s → Instr) :
    decI3s ⟨m, 0, h, eDInt o.d o.t o.sat, eS o.a, eS o.b⟩ mk = some (mk h o) := by simp [decI3s]

theorem decI3_enc (o : I3) (mk : Hdr → I3 → Instr) :
    decI3 ⟨m, 0, h, eDInt o.d o.t false, eS o.a, eS o.b⟩ mk = some (mk h o) := by simp [decI3]

theorem decI2s_enc (o : I2s) (mk : Hdr → I2s → Instr) :
    decI2s ⟨m, 0, h, eDInt o.d o.t o.sat, eS o.a, rawZero⟩ mk = some (mk h o) := by simp [decI2s]

theorem decI2_enc (k : BitVec 4) (o : I2) (mk : Hdr → I2 → Instr) :
    decI2 ⟨m, k, h, eDInt o.d o.t false, eS o.a, rawZero⟩ mk = some (mk h o) := by simp [decI2]

theorem decI64_enc (o : I64) (mk : Hdr → I64 → Instr) :
    decI64 ⟨m, BitVec.ofNat 4 o.k.toNat, h, eDInt o.d (uns64 o.uns) false, eS o.a, eS o.b⟩ mk = some (mk h o) := by
  have hw : (uns64 o.uns).width = 64 := by cases o.uns <;> rfl
  have hu : (uns64 o.uns == .n64) = o.uns := by cases o.uns <;> rfl
  simp [decI64, hw, hu]

/-- The sub-operation of a compare: its condition and the `.any` bit. -/
theorem anyBit_sub (c : BitVec 3) (d : CmpDst) :
    (BitVec.ofNat 4 (c.toNat + d.anyBit)).setWidth 3 = c ∧ (BitVec.ofNat 4 (c.toNat + d.anyBit)).getLsbD 3 = (d.anyBit == 8) := by
  have hd : d.anyBit = 0 ∨ d.anyBit = 8 := by
    cases d with
    | pred p any => cases any <;> simp [CmpDst.anyBit]
    | vec r => exact .inl rfl
  obtain hd | hd := hd <;> rw [hd] <;> revert c <;> decide

/-- The destination of a compare reads back, its `.any` bit taken from the sub-operation. -/
theorem decCmpD_enc (d : CmpDst) (t : BitVec 4) (z : Bool) :
    decCmpD (encCmpD d t z).kind (encCmpD d t z).idx (d.anyBit == 8) = some d := by
  cases d with
  | pred p any => cases any <;> simp [decCmpD, encCmpD, CmpDst.anyBit, -BitVec.toNat_setWidth]
  | vec r => simp [decCmpD, encCmpD, CmpDst.anyBit]

/-- Its other fields. -/
theorem encCmpD_rest (d : CmpDst) (t : BitVec 4) (z : Bool) : (encCmpD d t z).ty = t ∧ (encCmpD d t z).rnd = 0 ∧
    (encCmpD d t z).sat = false ∧ (encCmpD d t z).ftz = z ∧ (encCmpD d t z).sc = 0 := by
  cases d <;> simp [encCmpD]

@[simp] theorem icondOf_code (c : ICond) : icondOf c.code = some c := by cases c <;> rfl
@[simp] theorem fcondOf_code (c : FCond) : fcondOf c.code = c := by cases c <;> rfl
@[simp] theorem redopOf_code (o : RedOp) : redopOf o.code = some o := by cases o <;> rfl

theorem decIcmp_enc (t : ITy) (c : ICond) (d : CmpDst) (a b : Src) :
    decIcmp ⟨m, BitVec.ofNat 4 (c.code.toNat + d.anyBit), h, encCmpD d t.code false, eS a, eS b⟩ = some (.icmp h t c d a b) := by
  obtain ⟨hc, hany⟩ := anyBit_sub c.code d
  obtain ⟨hty, hrnd, hsat, hftz, hsc⟩ := encCmpD_rest d t.code false
  simp only [decIcmp, hc, hany, hty, hrnd, hsat, hftz, hsc, decCmpD_enc]
  simp

theorem decFcmp_enc (t : FTy) (z : Bool) (c : FCond) (d : CmpDst) (a b : FSrc) :
    decFcmp ⟨m, BitVec.ofNat 4 (c.code.toNat + d.anyBit), h, encCmpD d t.code z, eF a, eF b⟩ = some (.fcmp h t z c d a b) := by
  obtain ⟨hc, hany⟩ := anyBit_sub c.code d
  obtain ⟨hty, hrnd, hsat, hftz, hsc⟩ := encCmpD_rest d t.code z
  simp only [decFcmp, hc, hany, hty, hrnd, hsat, hftz, hsc, decCmpD_enc]
  simp

/-- A byte cut in four fields, as `bmix` carries its truth table (R114). -/
theorem truthTable_fields (x : BitVec 8) : x.extractLsb' 6 2 ++ BitVec.ofBool x[5] ++ BitVec.ofBool x[4] ++
    BitVec.ofNat 4 (x.toNat % 16) = x := by
  revert x; decide

theorem decBmix_enc (tt : BitVec 8) (o : I3) :
    decBmix ⟨m, BitVec.ofNat 4 (tt.toNat % 16), h,
      ⟨0, o.d, o.t.code, tt.extractLsb' 6 2, tt.getLsbD 5, tt.getLsbD 4, 0⟩, eS o.a, eS o.b⟩ = some (.bmix h tt o) := by
  simp [decBmix, truthTable_fields]

/-! ### Float forms (R130) -/

theorem decF3_enc (o : F3) (mk : Hdr → F3 → Instr) :
    decF3 ⟨m, 0, h, eDFlt o.d o.t o.rnd o.ftz, eF o.a, eF o.b⟩ mk = some (mk h o) := by simp [decF3]

theorem decF3x_enc (o : F3x) (mk : Hdr → F3x → Instr) :
    decF3x ⟨m, 0, h, eDFlt o.d o.t .rn o.ftz, eF o.a, eF o.b⟩ mk = some (mk h o) := by simp [decF3x]

theorem decF2_enc (k : BitVec 4) (o : F2) (mk : Hdr → F2 → Instr) :
    decF2 ⟨m, k, h, eDFlt o.d o.t o.rnd o.ftz, eF o.a, rawZero⟩ mk = some (mk h o) := by simp [decF2]

/-- A source of a float type is no special register (R52). -/
theorem rFS_eS {t : NTy} {a : Src} (ha : a.okFor t = true) : rFS t (eS a) = some a := by
  cases t with
  | int t => simp [rFS]
  | flt t => cases a with
    | reg r => simp [rFS]
    | imm v => simp [rFS]
    | sr n => exact absurd ha (by simp [Src.okFor])

@[simp] theorem dNum_enc (r : Reg) (t : NTy) : dNum ⟨0, r, t.code, 0, false, false, 0⟩ = some (r, t) := by simp [dNum]

/-! ### Memory forms (R56, R164) -/

@[simp] theorem rAddr_enc (k : BitVec 4) (d : RawD) (r : Reg) (o : MOrd) (b : RegImm) :
    rAddr ⟨m, k, h, d, eM r o, eVI b⟩ = some (⟨r, b⟩, o) := by simp [rAddr]

@[simp] theorem decPlainAddr_enc (k : BitVec 4) (d : RawD) (r : Reg) (b : RegImm) :
    decPlainAddr ⟨m, k, h, d, eM r .rlx, eVI b⟩ = some ⟨r, b⟩ := by simp [decPlainAddr]

/-- A space in bits 85:84 under two more bits. -/
theorem spaceOf_sub (s : Space) {k : Nat} (hk : k < 4) :
    spaceOf ((BitVec.ofNat 4 (k * 4 + s.code.toNat)).setWidth 2) = some s ∧
      (BitVec.ofNat 4 (k * 4 + s.code.toNat)).extractLsb' 2 2 = BitVec.ofNat 2 k := by
  cases s <;> interval_cases k <;> decide

theorem spaceOf_sub0 (s : Space) : spaceOf ((BitVec.ofNat 4 s.code.toNat).setWidth 2) = some s ∧
    (BitVec.ofNat 4 s.code.toNat).extractLsb' 2 2 = 0#2 := by
  cases s <;> decide

theorem sizeOf_code (s : Size) : sizeOf' (BitVec.ofNat 2 s.code.toNat) = s := by cases s <;> rfl

/-- The instruction of a row of `ld` and `st`: none has `.mc` on a load (R164). -/
def memRow : Bool → Bool → Hdr → MemOp → Option Instr
  | true, false, h, o => some (.st h o)
  | true, true, h, o => some (.stMc h o)
  | false, false, h, o => some (.ld h o)
  | false, true, _, _ => none

theorem decMem_enc (store mc : Bool) (o : MemOp) :
    decMem ⟨m, BitVec.ofNat 4 (o.size.code.toNat * 4 + o.sp.code.toNat), h, ⟨0, o.d, o.t.code, 0, mc, false, o.sc.code⟩,
      eM o.addr.base o.ord, eVI o.addr.off⟩ store = memRow store mc h o := by
  obtain ⟨hsp, hsz⟩ := spaceOf_sub o.sp o.size.code.isLt
  simp only [decMem, hsp, hsz, sizeOf_code, rAddr_enc]
  cases store <;> cases mc <;> simp [memRow]

/-- The instruction of an operation code of `atom` or `red` (R170). -/
def atomRow : Bool → Nat → Hdr → AtomOp → Option Instr
  | false, 0, h, o => some (.atomAdd h o)
  | false, 1, h, o => some (.atomMin h o)
  | false, 2, h, o => some (.atomMax h o)
  | false, 3, h, o => some (.atomExch h o)
  | false, 4, h, o => some (.atomAnd h o)
  | false, 5, h, o => some (.atomOr h o)
  | false, 6, h, o => some (.atomXor h o)
  | true, 0, h, o => some (.redAdd h o)
  | true, 1, h, o => some (.redMin h o)
  | true, 2, h, o => some (.redMax h o)
  | true, 4, h, o => some (.redAnd h o)
  | true, 5, h, o => some (.redOr h o)
  | true, 6, h, o => some (.redXor h o)
  | _, _, _, _ => none

theorem decAtom_enc (red : Bool) {op : Nat} (hop : op < 8) (o : AtomOp) :
    decAtom ⟨m, BitVec.ofNat 4 (op % 4 * 4 + o.sp.code.toNat), h, ⟨0, o.d, o.t.code, BitVec.ofNat 2 (op / 4), false, o.ftz, o.sc.code⟩,
      eM o.addr.base o.ord, eVI o.addr.off⟩ red = atomRow red op h o := by
  obtain ⟨hsp, hlow⟩ := spaceOf_sub o.sp (Nat.mod_lt op (by decide : 4 > 0))
  have hcode : (BitVec.ofNat 2 (op / 4) ++ BitVec.ofNat 2 (op % 4)).toNat = op := by interval_cases op <;> rfl
  simp only [decAtom, hsp, hlow, hcode, rAddr_enc]
  simp only [beq_self_eq_true, Bool.not_false, Bool.and_self, req_true, atyOf_code, scopeOf_code, Option.bind_eq_bind, Option.bind_some]
  cases red <;> interval_cases op <;> rfl

theorem decCas_enc (spc : Space) (o : MOrd) (sc : Scope) (t : CTy) (d : Reg) (addr : MAddr) :
    decCas ⟨m, BitVec.ofNat 4 spc.code.toNat, h, ⟨0, d, t.code, 0, false, false, sc.code⟩, eM addr.base o, eVI addr.off⟩ =
      some (.cas h spc o sc t d addr) := by
  obtain ⟨hsp, hlow⟩ := spaceOf_sub0 spc
  simp only [decCas, hsp, hlow, rAddr_enc]
  simp

theorem decWait_enc (o : WaitOp) (mk : Hdr → WaitOp → Instr) :
    decWait ⟨m, BitVec.ofNat 4 o.sp.code.toNat, h, ⟨0, o.d, 7, 0, false, false, o.sc.code⟩, eM o.addr.base o.ord, eVI o.addr.off⟩ mk =
      some (mk h o) := by
  obtain ⟨hsp, hlow⟩ := spaceOf_sub0 o.sp
  simp only [decWait, hsp, hlow, rAddr_enc]
  simp [dVs]

/-! ### Tile forms (R207, R213) -/

/-- An accumulator tile in an eight-bit index. -/
theorem tile_idx (ta : BitVec 4) : (ta.setWidth 8).toNat < 16 ∧ (ta.setWidth 8).setWidth 4 = ta := by
  revert ta; decide

theorem decAcc_enc (o : TileMem) (mk : Hdr → TileMem → Instr) :
    decAcc ⟨m, BitVec.ofNat 4 o.sp.code.toNat, h, ⟨2, o.ta.setWidth 8, 10, 0, false, false, o.sc.code⟩, eM o.addr.base o.ord,
      eVI o.addr.off⟩ mk = some (mk h o) := by
  obtain ⟨hsp, hlow⟩ := spaceOf_sub0 o.sp
  obtain ⟨hlt, hta⟩ := tile_idx o.ta
  simp only [decAcc, hsp, hlow, rAddr_enc, hta, hlt]
  simp

/-- The four bits that hold K of `mma.cv`, or nothing (R207). -/
theorem cvField (k : BitVec 4) :
    k.extractLsb' 2 2 ++ BitVec.ofBool k[1] ++ BitVec.ofBool k[0] = k := by revert k; decide

theorem decMma_enc (cv : Option (BitVec 4)) (o : MmaOp) :
    decMma ⟨m, BitVec.ofNat 4 ((if o.z then 2 else 0) + (if cv.isSome then 1 else 0)), h,
      ⟨2, o.ta.setWidth 8, o.t.code, (cv.getD 0).extractLsb' 2 2, (cv.getD 0).getLsbD 1, (cv.getD 0).getLsbD 0, 0⟩, eV o.a, eVI o.b⟩ =
      some (match cv with
        | none => .mma h o
        | some k => .mmaCv h k o) := by
  obtain ⟨t, z, ta, a, b⟩ := o
  obtain ⟨hlt, hta⟩ := tile_idx ta
  cases cv with
  | none => cases z <;> simp [decMma, hta, hlt, -BitVec.toNat_setWidth]
  | some k => cases z <;> simp [decMma, hta, hlt, cvField, -BitVec.toNat_setWidth]

/-- The two spaces of a Trowel command (R213). -/
theorem tspace_sub (d s : TSpace) :
    tspaceOf ((BitVec.ofNat 4 (d.code.toNat * 4 + s.code.toNat)).extractLsb' 2 2) = d ∧
      tspaceOf ((BitVec.ofNat 4 (d.code.toNat * 4 + s.code.toNat)).setWidth 2) = s := by
  cases d <;> cases s <;> decide

theorem decTrowel_enc (o : TrowelOp) (mk : Hdr → TrowelOp → Instr) :
    decTrowel ⟨m, BitVec.ofNat 4 (o.dst.code.toNat * 4 + o.src.code.toNat), h,
      match o.bar with
      | none => rawNone
      | some b => eDN 0x10 0 b, eV o.a, rawZero⟩ o.pb mk = some (mk h o) := by
  obtain ⟨dst, src, bar, a, pb⟩ := o
  obtain ⟨hd, hs⟩ := tspace_sub dst src
  simp only [decTrowel, hd, hs]
  cases bar with
  | none => simp
  | some b =>
    have hne : eDN 0x10 0#4 b ≠ rawNone := fun e => absurd (congrArg RawD.kind e) (by simp [eDN, rawNone])
    simp [hne]

/-! ### Plain forms -/

theorem decPsVV_enc (k : BitVec 4) (sc : Scope) (p : PredIdx) (a b : Reg) (mk : Hdr → Scope → PredIdx → Reg → Reg → Instr) :
    decPsVV ⟨m, k, h, eDPs p sc, eV a, eV b⟩ mk = some (mk h sc p a b) := by simp [decPsVV]

theorem decPS_enc (k : BitVec 4) (p : PredIdx) (a : Src) (mk : Hdr → PredIdx → Src → Instr) :
    decPS ⟨m, k, h, eDP 0 p, eS a, rawZero⟩ mk = some (mk h p a) := by simp [decPS]

theorem decVS_enc (k : BitVec 4) (r : Reg) (a : Src) (mk : Hdr → Reg → Src → Instr) :
    decVS ⟨m, k, h, eDV 7 r, eS a, rawZero⟩ mk = some (mk h r a) := by simp [decVS]

theorem decVV_enc (k : BitVec 4) (r a : Reg) (mk : Hdr → Reg → Reg → Instr) :
    decVV ⟨m, k, h, eDV 7 r, eV a, rawZero⟩ mk = some (mk h r a) := by simp [decVV]

theorem decPV_enc (k : BitVec 4) (p : PredIdx) (a : Reg) (mk : Hdr → PredIdx → Reg → Instr) :
    decPV ⟨m, k, h, eDP 0 p, eV a, rawZero⟩ mk = some (mk h p a) := by simp [decPV]

theorem decNone_enc (k : BitVec 4) (i : Instr) : decNone ⟨m, k, h, rawNone, rawZero, rawZero⟩ i = some i := by simp [decNone]

end Sys2Proof
end

section
/-!
SUPPORT for `DecodeInvertsEncode`: the word of every well-formed instruction that has one standard word reads back as that instruction
(R64 and the encoding rule of each family).
-/

namespace Sys2Proof

/-- `i` has one standard word, of the fields `r`, and they decode to it. -/
structure ReadsBack (i : Instr) (r : RawWord) : Prop where
  word : encodeWords i = [packWord r]
  assigned : majorAssigned r.major.toNat = true
  single : ownsParams r = false
  decoded : decStd r = some i

@[simp] theorem sub0_zero (m : BitVec 8) (h : Hdr) (d : RawD) (a b : RawS) (i : Option Instr) : sub0 ⟨m, 0#4, h, d, a, b⟩ i = i := rfl

/-! ### Rows whose fields are their own -/

section
variable (h : Hdr)

/-- The source format of a conversion and its half (R130). -/
theorem cvtSub_fields (s : FTy) (hi : Bool) :
    ftyOf (8 + ((BitVec.ofNat 4 (cvtSub s hi)).extractLsb' 0 2).setWidth 4) = some s ∧
      (BitVec.ofNat 4 (cvtSub s hi)).getLsbD 3 = false ∧ (BitVec.ofNat 4 (cvtSub s hi)).getLsbD 2 = hi := by
  cases s <;> cases hi <;> decide

theorem decFloat_fcvt (s : FTy) (hi : Bool) (o : F2) :
    decFloat ⟨0x50, BitVec.ofNat 4 (cvtSub s hi), h, eDFlt o.d o.t o.rnd o.ftz, eF o.a, rawZero⟩ = some (.fcvt h s hi o) := by
  obtain ⟨hs, htop, hhi⟩ := cvtSub_fields s hi
  simp only [decFloat, BitVec.reduceToNat, hs, htop, hhi, decF2_enc]
  rfl

theorem decFloat_f2i (t : ITy) (s : FTy) (hi : Bool) (m : Rnd) (z : Bool) (d : Reg) (a : FSrc) :
    decFloat ⟨0x51, BitVec.ofNat 4 (cvtSub s hi), h, ⟨0, d, t.code, m.code, false, z, 0⟩, eF a, rawZero⟩ =
      some (.f2i h t s hi m z d a) := by
  obtain ⟨hs, htop, hhi⟩ := cvtSub_fields s hi
  simp only [decFloat, BitVec.reduceToNat, hs, htop, hhi]
  simp

theorem i2fSub_fields (s : ITy) (hi : Bool) :
    ityOf (((BitVec.ofNat 4 (s.code.toNat + if hi then 8 else 0)).extractLsb' 0 3).setWidth 4) = some s ∧
      (BitVec.ofNat 4 (s.code.toNat + if hi then 8 else 0)).getLsbD 3 = hi := by
  cases s <;> cases hi <;> decide

theorem decFloat_i2f (t : FTy) (s : ITy) (hi : Bool) (m : Rnd) (z : Bool) (d : Reg) (a : Src) :
    decFloat ⟨0x52, BitVec.ofNat 4 (s.code.toNat + if hi then 8 else 0), h, eDFlt d t m z, eS a, rawZero⟩ =
      some (.i2f h t s hi m z d a) := by
  obtain ⟨hs, hhi⟩ := i2fSub_fields s hi
  simp only [decFloat, BitVec.reduceToNat, hs, hhi]
  simp

theorem decFloat_fdot2 (bf : Bool) (m : Rnd) (z : Bool) (d : Reg) (a b : FSrc) :
    decFloat ⟨0x55, BitVec.ofNat 4 (if bf then 1 else 0), h, eDFlt d .f32 m z, eF a, eF b⟩ = some (.fdot2 h bf m z d a b) := by
  cases bf <;> simp [decFloat]

/-- The operation of `lred` and `lscan` and the bit above it (R144). -/
theorem redSub_fields (op : RedOp) (ex : Bool) :
    redopOf ((BitVec.ofNat 4 (op.code.toNat + if ex then 8 else 0)).setWidth 3) = some op ∧
      (BitVec.ofNat 4 (op.code.toNat + if ex then 8 else 0)).getLsbD 3 = ex := by
  cases op <;> cases ex <;> decide

theorem decFloat_lpull (t : NTy) (d : Reg) (a b : Src) (hw : wellFormed (.lpull h t d a b) = true) :
    decFloat ⟨0x60, 0, h, ⟨0, d, t.code, 0, false, false, 0⟩, eS a, eS b⟩ = some (.lpull h t d a b) := by
  have ha : a.okFor t = true := (Bool.and_eq_true_iff.1 hw).2
  simp only [decFloat, BitVec.reduceToNat, dNum_enc, Option.bind_eq_bind, Option.bind_some, rFS_eS ha]
  simp

theorem decFloat_lpush (t : NTy) (d : Reg) (a b : Src) (hw : wellFormed (.lpush h t d a b) = true) :
    decFloat ⟨0x61, 0, h, ⟨0, d, t.code, 0, false, false, 0⟩, eS a, eS b⟩ = some (.lpush h t d a b) := by
  have ha : a.okFor t = true := (Bool.and_eq_true_iff.1 hw).2
  simp only [decFloat, BitVec.reduceToNat, dNum_enc, Option.bind_eq_bind, Option.bind_some, rFS_eS ha]
  simp

theorem decFloat_lred (op : RedOp) (t : NTy) (m : Rnd) (z sat : Bool) (d : Reg) (a : Src)
    (hw : wellFormed (.lred h op t m z sat d a) = true) :
    decFloat ⟨0x62, BitVec.ofNat 4 op.code.toNat, h, ⟨0, d, t.code, m.code, sat, z, 0⟩, eS a, rawZero⟩ =
      some (.lred h op t m z sat d a) := by
  have ha : a.okFor t = true := (Bool.and_eq_true_iff.1 (Bool.and_eq_true_iff.1 hw).1).2
  obtain ⟨hop, htop⟩ := redSub_fields op false
  simp only [Bool.false_eq_true, if_false, Nat.add_zero] at hop htop
  simp only [decFloat, BitVec.reduceToNat, hop, htop, ntyOf_code, Option.bind_eq_bind, Option.bind_some, rFS_eS ha]
  simp

theorem decFloat_lscan (op : RedOp) (ex : Bool) (t : NTy) (m : Rnd) (z sat : Bool) (d : Reg) (a : Src)
    (hw : wellFormed (.lscan h op ex t m z sat d a) = true) :
    decFloat ⟨0x63, BitVec.ofNat 4 (op.code.toNat + if ex then 8 else 0), h, ⟨0, d, t.code, m.code, sat, z, 0⟩, eS a, rawZero⟩ =
      some (.lscan h op ex t m z sat d a) := by
  have ha : a.okFor t = true := (Bool.and_eq_true_iff.1 (Bool.and_eq_true_iff.1 hw).1).2
  obtain ⟨hop, htop⟩ := redSub_fields op ex
  simp only [decFloat, BitVec.reduceToNat, hop, htop, ntyOf_code, Option.bind_eq_bind, Option.bind_some, rFS_eS ha]
  simp

/-- The block type of `dqnt` (R146). -/
theorem dqntSub_fields (s : BTy) :
    btyOf (12 + BitVec.ofNat 4 (s.code.toNat - 12)) = some s ∧ (BitVec.ofNat 4 (s.code.toNat - 12)).toNat < 3 := by
  cases s <;> decide

theorem decFloat_dqnt (s : BTy) (m : Rnd) (z : Bool) (d a : Reg) :
    decFloat ⟨0x66, BitVec.ofNat 4 (s.code.toNat - 12), h, ⟨0, d, 10, m.code, false, z, 0⟩, eV a, rawZero⟩ = some (.dqnt h s m z d a) := by
  obtain ⟨hs, hlt⟩ := dqntSub_fields s
  simp only [decFloat, BitVec.reduceToNat, hs, hlt]
  simp

/-- `tlbi` has the scopes `.die` and `.dev` (R161). -/
theorem decTlbi_pg (m : BitVec 8) (dev : Bool) (p : PredIdx) (a : Reg) (b : Src) :
    decTlbi ⟨m, 0, h, eDPs p (if dev then .dev else .die), eV a, eS b⟩ = some (.tlbiPg h dev p a b) := by
  cases dev <;> simp [decTlbi]

theorem decTlbi_ctx (m : BitVec 8) (dev : Bool) (p : PredIdx) (b : Src) :
    decTlbi ⟨m, 1, h, eDPs p (if dev then .dev else .die), rawZero, eS b⟩ = some (.tlbiCtx h dev p b) := by
  cases dev <;> simp [decTlbi]

theorem decTlbi_all (m : BitVec 8) (dev : Bool) (p : PredIdx) :
    decTlbi ⟨m, 2, h, eDPs p (if dev then .dev else .die), rawZero, rawZero⟩ = some (.tlbiAll h dev p) := by
  cases dev <;> simp [decTlbi]

/-- `mma` and `mma.cv` own no parameter block; `mma.shape` does (R207). -/
theorem mma_single (z cv : Bool) (d : RawD) (a b : RawS) :
    ownsParams ⟨0x84, BitVec.ofNat 4 ((if z then 2 else 0) + if cv then 1 else 0), h, d, a, b⟩ = false := by
  cases z <;> cases cv <;> rfl

/-- `.dot` and the depth of `qnset` in one literal (R290). -/
theorem qnset_fields (dot : Bool) (depth : BitVec 8) :
    (BitVec.ofBool dot ++ depth)[8] = dot ∧ (BitVec.ofBool dot ++ depth).setWidth 8 = depth := by
  revert depth; cases dot <;> decide

theorem decQuoin_qnset (a : Reg) (dot : Bool) (depth : BitVec 8) :
    decQuoin ⟨0xB2, 0, h, rawNone, eV a, eIw (BitVec.ofBool dot ++ depth)⟩ = some (.qnset h a dot depth) := by
  obtain ⟨hdot, hdepth⟩ := qnset_fields dot depth
  simp [decQuoin, rIw_eIw (n := 9) (by decide), hdot, hdepth]

end

section
variable {m : BitVec 8} {k : BitVec 4} {h : Hdr} {d : RawD} {a b : RawS}

/-! ### The family of a major opcode (R64) -/

theorem decStd_control (hm : m.toNat / 16 = 0) : decStd ⟨m, k, h, d, a, b⟩ = decControl ⟨m, k, h, d, a, b⟩ := by
  simp only [decStd, hm]

theorem decStd_integer (hm : m.toNat / 16 = 1 ∨ m.toNat / 16 = 2 ∨ m.toNat / 16 = 3) :
    decStd ⟨m, k, h, d, a, b⟩ = decInteger ⟨m, k, h, d, a, b⟩ := by
  obtain hm | hm | hm := hm <;> simp only [decStd, hm]

theorem decStd_float (hm : m.toNat / 16 = 4 ∨ m.toNat / 16 = 5 ∨ m.toNat / 16 = 6) :
    decStd ⟨m, k, h, d, a, b⟩ = decFloat ⟨m, k, h, d, a, b⟩ := by
  obtain hm | hm | hm := hm <;> simp only [decStd, hm]

theorem decStd_memory (hm : m.toNat / 16 = 7) : decStd ⟨m, k, h, d, a, b⟩ = decMemory ⟨m, k, h, d, a, b⟩ := by
  simp only [decStd, hm]

theorem decStd_tile (hm : m.toNat / 16 = 8) : decStd ⟨m, k, h, d, a, b⟩ = decTile ⟨m, k, h, d, a, b⟩ := by
  simp only [decStd, hm]

theorem decStd_queue (hm : m.toNat / 16 = 9) : decStd ⟨m, k, h, d, a, b⟩ = decQueue ⟨m, k, h, d, a, b⟩ := by
  simp only [decStd, hm]

theorem decStd_mortar (hm : m.toNat / 16 = 10) : decStd ⟨m, k, h, d, a, b⟩ = decMortar ⟨m, k, h, d, a, b⟩ := by
  simp only [decStd, hm]

theorem decStd_quoin (hm : m.toNat / 16 = 11) : decStd ⟨m, k, h, d, a, b⟩ = decQuoin ⟨m, k, h, d, a, b⟩ := by
  simp only [decStd, hm]

theorem decStd_shape (hm : m.toNat / 16 = 12) : decStd ⟨m, k, h, d, a, b⟩ = decShape ⟨m, k, h, d, a, b⟩ := by
  simp only [decStd, hm]

theorem decStd_system (hm : m.toNat / 16 = 13) : decStd ⟨m, k, h, d, a, b⟩ = decSystem ⟨m, k, h, d, a, b⟩ := by
  simp only [decStd, hm]

end

/-! ### Every row -/

/-- Each row by the form it shares, or by its own fields. -/
theorem exists_readsBack {i : Instr} (hw : wellFormed i = true) (h1 : instrWords i = 1) (hp : ∀ h o, i ≠ .pair h o) :
    ∃ r, ReadsBack i r := by
  cases i with
  | nop | ret | exit | yield | bra | call | brx | callx => exact ⟨_, rfl, rfl, rfl, (decStd_control rfl).trans rfl⟩
  | voteAny | voteAll | voteMask | matchAny | matchAll => exact ⟨_, rfl, rfl, rfl, (decStd_control rfl).trans (by simp [decControl])⟩
  | iadd | isub | imul | imad | idiv | pack => exact ⟨_, rfl, rfl, rfl, (decStd_integer (by decide)).trans (decI3s_enc ..)⟩
  | imulh | irem | imin | imax | and | or | xor | shl | shr | sar | rot | bfe | bfi =>
    exact ⟨_, rfl, rfl, rfl, (decStd_integer (by decide)).trans (decI3_enc ..)⟩
  | iaddc | lea => exact ⟨_, rfl, rfl, rfl, (decStd_integer (by decide)).trans (decI64_enc ..)⟩
  | ineg | iabs => exact ⟨_, rfl, rfl, rfl, (decStd_integer (by decide)).trans (decI2s_enc ..)⟩
  | not | popc | clz | ctz | brev | mov | unpkLo | unpkHi => exact ⟨_, rfl, rfl, rfl, (decStd_integer (by decide)).trans (decI2_enc ..)⟩
  | icmp => exact ⟨_, rfl, rfl, rfl, (decStd_integer (by decide)).trans (decIcmp_enc ..)⟩
  | isel => exact ⟨_, rfl, rfl, rfl, (decStd_integer (by decide)).trans (by simpa [decInteger] using decI3_enc ..)⟩
  | bmix => exact ⟨_, rfl, rfl, rfl, (decStd_integer (by decide)).trans (decBmix_enc ..)⟩
  | movi | movhM | movhH | plop | p2v | p2vAll | v2pAll =>
    exact ⟨_, rfl, rfl, rfl, (decStd_integer (by decide)).trans (by simp [decInteger])⟩
  | v2p => exact ⟨_, rfl, rfl, rfl, (decStd_integer (by decide)).trans (decPS_enc ..)⟩
  | fadd | fsub | fmul | ffma | fdiv => exact ⟨_, rfl, rfl, rfl, (decStd_float (by decide)).trans (decF3_enc ..)⟩
  | fmin | fmax => exact ⟨_, rfl, rfl, rfl, (decStd_float (by decide)).trans (decF3x_enc ..)⟩
  | fcmp => exact ⟨_, rfl, rfl, rfl, (decStd_float (by decide)).trans (decFcmp_enc ..)⟩
  | fsqrt | frcp | frsq | fexp2 | flog2 | fsin | fcos | frnd | frndX =>
    exact ⟨_, rfl, rfl, rfl, (decStd_float (by decide)).trans (decF2_enc ..)⟩
  | fclass | fscale | fflag | rnd | rndF32 | rndF64 | qnt =>
    exact ⟨_, rfl, rfl, rfl, (decStd_float (by decide)).trans (by simp [decFloat])⟩
  | fcvt => exact ⟨_, rfl, rfl, rfl, (decStd_float (by decide)).trans (decFloat_fcvt ..)⟩
  | f2i => exact ⟨_, rfl, rfl, rfl, (decStd_float (by decide)).trans (decFloat_f2i ..)⟩
  | i2f => exact ⟨_, rfl, rfl, rfl, (decStd_float (by decide)).trans (decFloat_i2f ..)⟩
  | fdot2 => exact ⟨_, rfl, rfl, rfl, (decStd_float (by decide)).trans (decFloat_fdot2 ..)⟩
  | lpull => exact ⟨_, rfl, rfl, rfl, (decStd_float (by decide)).trans (decFloat_lpull (hw := hw) ..)⟩
  | lpush => exact ⟨_, rfl, rfl, rfl, (decStd_float (by decide)).trans (decFloat_lpush (hw := hw) ..)⟩
  | lred => exact ⟨_, rfl, rfl, rfl, (decStd_float (by decide)).trans (decFloat_lred (hw := hw) ..)⟩
  | lscan => exact ⟨_, rfl, rfl, rfl, (decStd_float (by decide)).trans (decFloat_lscan (hw := hw) ..)⟩
  | dqnt => exact ⟨_, rfl, rfl, rfl, (decStd_float (by decide)).trans (decFloat_dqnt ..)⟩
  | ld h o => exact ⟨_, rfl, rfl, rfl, (decStd_memory rfl).trans (decMem_enc _ _ false false o)⟩
  | st h o => exact ⟨_, rfl, rfl, rfl, (decStd_memory rfl).trans (decMem_enc _ _ true false o)⟩
  | stMc h o => exact ⟨_, rfl, rfl, rfl, (decStd_memory rfl).trans (decMem_enc _ _ true true o)⟩
  | atomAdd h o | atomMin h o | atomMax h o | atomExch h o | atomAnd h o | atomOr h o | atomXor h o =>
    exact ⟨_, rfl, rfl, rfl, (decStd_memory rfl).trans (decAtom_enc _ _ _ (by decide) o)⟩
  | redAdd h o | redMin h o | redMax h o | redAnd h o | redOr h o | redXor h o =>
    exact ⟨_, rfl, rfl, rfl, (decStd_memory rfl).trans (decAtom_enc _ _ _ (by decide) o)⟩
  | cas => exact ⟨_, rfl, rfl, rfl, (decStd_memory rfl).trans (decCas_enc ..)⟩
  | fenceAcq | fenceRel | fenceSc | fenceUo => exact ⟨_, rfl, rfl, rfl, (decStd_memory rfl).trans (by simp [decMemory, decFence])⟩
  | waitaddr | wake => exact ⟨_, rfl, rfl, rfl, (decStd_memory rfl).trans (decWait_enc ..)⟩
  | pfL1 | pfL2 | sopenR | sopenW | sput | snext | stest | sclose | pginfo =>
    exact ⟨_, rfl, rfl, rfl, (decStd_memory rfl).trans (by simp [decMemory])⟩
  | tlbiPg => exact ⟨_, rfl, rfl, rfl, (decStd_memory rfl).trans (decTlbi_pg ..)⟩
  | tlbiCtx => exact ⟨_, rfl, rfl, rfl, (decStd_memory rfl).trans (decTlbi_ctx ..)⟩
  | tlbiAll => exact ⟨_, rfl, rfl, rfl, (decStd_memory rfl).trans (decTlbi_all ..)⟩
  | plres | plrel | cvsetN | cvsetF | cvsign | acczero | tlive | pub | pubReg | pubUnreg =>
    exact ⟨_, rfl, rfl, rfl, (decStd_tile rfl).trans (by simp [decTile])⟩
  | mma | mmaCv => exact ⟨_, rfl, rfl, mma_single .., (decStd_tile rfl).trans (decMma_enc ..)⟩
  | accld | accst => exact ⟨_, rfl, rfl, rfl, (decStd_tile rfl).trans (decAcc_enc ..)⟩
  | fspawn | fstat | barv | bars | barw | barq | barqSt | qputM | qputV | task | qstatArg =>
    exact ⟨_, rfl, rfl, rfl, (decStd_queue rfl).trans (by simp [decQueue])⟩
  | fexit | fbarArrive | fbarWait | fbarSync | tend => exact ⟨_, rfl, rfl, rfl, (decStd_queue rfl).trans rfl⟩
  | launch => exact ⟨_, rfl, rfl, rfl, (decStd_queue rfl).trans (decVV_enc ..)⟩
  | join | joinPoll | qstat => exact ⟨_, rfl, rfl, rfl, (decStd_queue rfl).trans (decVS_enc ..)⟩
  | qfireEx | qfireGn => exact ⟨_, rfl, rfl, rfl, (decStd_queue rfl).trans (decPS_enc ..)⟩
  | vappEye | vappLight | vseal | vrew | vframe => exact ⟨_, rfl, rfl, rfl, (decStd_mortar rfl).trans (by simp [decMortar])⟩
  | vld | vcon | vconAll | vmrg => exact ⟨_, rfl, rfl, rfl, (decStd_mortar rfl).trans (decPsVV_enc ..)⟩
  | vpin | vunpin => exact ⟨_, rfl, rfl, rfl, (decStd_mortar rfl).trans (decPV_enc ..)⟩
  | qnins => exact ⟨_, rfl, rfl, rfl, (decStd_quoin rfl).trans (by simp [decQuoin, dVs])⟩
  | qnset => exact ⟨_, rfl, rfl, rfl, (decStd_quoin rfl).trans (decQuoin_qnset ..)⟩
  | qnwalk => exact ⟨_, rfl, rfl, rfl, (decStd_quoin rfl).trans (decPsVV_enc ..)⟩
  | qnnext | qnend | qnsum => exact ⟨_, rfl, rfl, rfl, (decStd_quoin rfl).trans (by simp [decQuoin])⟩
  | rxld | rxst => exact ⟨_, rfl, rfl, rfl, (decStd_shape rfl).trans (by simp [decShape])⟩
  | shpget | shpsetU | shpsetA | shpsetG => exact ⟨_, rfl, rfl, rfl, (decStd_shape rfl).trans (decVV_enc ..)⟩
  | trap | brk | sysw | haltCore | rfe | clk | sleepAbs | sleepRel | mark | markAll =>
    exact ⟨_, rfl, rfl, rfl, (decStd_system rfl).trans (by simp [decSystem])⟩
  | sysr => exact ⟨_, rfl, rfl, rfl, (decStd_system rfl).trans (decVS_enc ..)⟩
  | haltCtx => exact ⟨_, rfl, rfl, rfl, (decStd_system rfl).trans (decPS_enc ..)⟩
  | pair h o => exact absurd rfl (hp h o)
  | mmaShape | cpy | gth | sct | qnbld => nomatch h1
  | _ => nomatch hw
end Sys2Proof
end

section
/-!
PROOF of `DecodeInvertsEncode`. A word of 12 bytes is the number they hold (R43), so that the words of an instruction come back from its
bytes; the fields of a word come back from the word, the operands from the fields, and a pair word (R57) and a parameter block (R61) in the
same way.
-/

namespace Sys2Proof

/-! ### Words and bytes (R43) -/

theorem length_wordBytes (w : IWord) : (wordBytes w).length = 12 := Machine.length_natLE 12 _

theorem ofNat_leNat_wordBytes (w : IWord) : BitVec.ofNat 96 (leNat (wordBytes w)) = w := by
  rw [wordBytes, Machine.leNat_natLE, Nat.mod_eq_of_lt (show w.toNat < 256 ^ 12 from w.isLt), BitVec.ofNat_toNat, BitVec.setWidth_eq]

theorem length_flatMap_wordBytes (ws : List IWord) : (ws.flatMap wordBytes).length = 12 * ws.length := by
  simp [List.length_flatMap, length_wordBytes, Nat.mul_comm]

/-- The words of a list come back from their bytes. -/
theorem bytesWords_flatMap (ws : List IWord) {n : Nat} (hn : ws.length ≤ n) : bytesWords n (ws.flatMap wordBytes) = ws := by
  induction ws generalizing n with
  | nil => cases n <;> rfl
  | cons w ws ih =>
    obtain ⟨n, rfl⟩ := Nat.exists_eq_succ_of_ne_zero (show n ≠ 0 by simp only [List.length_cons] at hn; omega)
    have hw := length_wordBytes w
    rw [List.flatMap_cons, bytesWords, if_neg (by rw [List.length_append, hw]; omega), List.take_left' hw, List.drop_left' hw,
      ofNat_leNat_wordBytes, ih (by simpa using hn)]

/-! ### Parameter blocks (R61, R62) -/

@[simp] theorem unpackSub_packSub (x : Sub) : unpackSub (packSub x) = some x := by
  cases x <;>
  simp (disch := decide) only [unpackSub, packSub, BitVec.extractLsb'_append_eq_of_le, BitVec.extractLsb'_append_eq_of_add_le] <;>
  simp

@[simp] theorem unpackParam_packParam (x y z : Sub) : unpackParam (packParam x y z) = some (x, y, z) := by
  simp (disch := decide) only [unpackParam, packParam, BitVec.extractLsb'_append_eq_of_le, BitVec.extractLsb'_append_eq_of_add_le]
  simp

@[simp] theorem unpackBlock_packBlock (b : ParamBlock) : unpackBlock (packBlock b) = some b := by simp [unpackBlock, packBlock]

/-! ### Pair words (R57) -/

@[simp] theorem unpackHalf_packHalf (x : Half) : unpackHalf (packHalf x) = some x := by
  simp (disch := decide) only [unpackHalf, packHalf, BitVec.extractLsb'_append_eq_of_le, BitVec.extractLsb'_append_eq_of_add_le]
  simp

theorem decPair_packPair (h : Hdr) (o : PairOp) : decPair (packPair h o) = some (.pair h o) := by
  rw [decPair, unpackHdr_of_bits (packPair_hdr h o)]
  simp (disch := decide) only [packPair, bitAt, BitVec.getLsbD_append, BitVec.extractLsb'_append_eq_of_le,
    BitVec.extractLsb'_append_eq_of_add_le]
  simp

theorem packPair_major (h : Hdr) (o : PairOp) : ((packPair h o).extractLsb' 88 8).toNat / 16 = 14 := by
  have hnib : (packPair h o).extractLsb' 92 4 = 0xE#4 := by
    simp (disch := decide) only [packPair, BitVec.extractLsb'_append_eq_of_le]
    exact BitVec.extractLsb'_eq_self
  have hdiv : ((packPair h o).extractLsb' 88 8).toNat / 16 = ((packPair h o).extractLsb' 92 4).toNat := by
    simp only [BitVec.extractLsb'_toNat, Nat.shiftRight_eq_div_pow]
    have := (packPair h o).isLt
    omega
  rw [hdiv, hnib]
  rfl

/-! ### One instruction from its words (R63) -/

/-- Assigned major opcodes are neither pair words nor the parameter marker. -/
theorem not_pair_of_assigned {m : Nat} (hm : majorAssigned m = true) : m ≠ 0xF0 ∧ m / 16 ≠ 0xE := by
  simp only [majorAssigned, Bool.or_eq_true, Bool.and_eq_true, decide_eq_true_eq] at hm
  omega

/-- Nor are those of the owners of a block. -/
theorem not_pair_of_owner {r : RawWord} (hr : ownsParams r = true) : r.major.toNat ≠ 0xF0 ∧ r.major.toNat / 16 ≠ 0xE := by
  unfold ownsParams at hr
  split at hr
  case h_6 => cases hr
  all_goals omega

/-- An instruction of one standard word. -/
theorem decodeWord_of_readsBack {i : Instr} {r : RawWord} (hw : wellFormed i = true) (hr : ReadsBack i r) (rest : List IWord) :
    decodeWord (packWord r) rest = .ok i := by
  obtain ⟨hmark, hpair⟩ := not_pair_of_assigned hr.assigned
  simp [decodeWord, reservedZero_of_bits (packWord_hdr r), hmark, hpair, hr.single, hr.assigned, hr.decoded, accepts, hw]

/-- A pair word. -/
theorem decodeWord_packPair {h : Hdr} {o : PairOp} (hw : wellFormed (.pair h o) = true) (rest : List IWord) :
    decodeWord (packPair h o) rest = .ok (.pair h o) := by
  have hmaj := packPair_major h o
  have hmark : ((packPair h o).extractLsb' 88 8).toNat ≠ 0xF0 := by omega
  have hfld : (unpackWord (packPair h o)).major = (packPair h o).extractLsb' 88 8 := rfl
  simp only [decodeWord, reservedZero_of_bits (packPair_hdr h o), hfld, hmaj, hmark, decPair_packPair, accepts, hw]
  rfl

/-- A word that owns the block behind it. -/
theorem decodeWord_owner {i : Instr} {r : RawWord} {pb : ParamBlock} (hw : wellFormed i = true) (hown : ownsParams r = true)
    (hdec : decOwner r pb = some i) : decodeWord (packWord r) (packBlock pb) = .ok i := by
  obtain ⟨hmark, hpair⟩ := not_pair_of_owner hown
  simp [decodeWord, reservedZero_of_bits (packWord_hdr r), hmark, hpair, hown, hdec, accepts, hw]

/-- No instruction has more than five words (R61). -/
theorem instrWords_le (i : Instr) : instrWords i ≤ 5 := by
  unfold instrWords
  split <;> decide

/-- The words of an instruction, the first with those behind it, decode to it. -/
theorem exists_words {i : Instr} (hw : wellFormed i = true) :
    ∃ w rest, encodeWords i = w :: rest ∧ rest.length + 1 = instrWords i ∧ decodeWord w rest = .ok i := by
  by_cases h1 : instrWords i = 1
  · by_cases hp : ∃ h o, i = .pair h o
    · obtain ⟨h, o, rfl⟩ := hp
      exact ⟨_, [], rfl, rfl, decodeWord_packPair hw []⟩
    · obtain ⟨r, hr⟩ := exists_readsBack hw h1 fun h o e => hp ⟨h, o, e⟩
      exact ⟨_, [], hr.word, h1.symm, decodeWord_of_readsBack hw hr []⟩
  · cases i with
    | mmaShape h pl pb =>
      exact ⟨_, _, rfl, rfl, decodeWord_owner hw rfl (by simp [decOwner])⟩
    | cpy h o => exact ⟨_, _, rfl, rfl, decodeWord_owner hw rfl (decTrowel_enc ..)⟩
    | gth h o => exact ⟨_, _, rfl, rfl, decodeWord_owner hw rfl (decTrowel_enc ..)⟩
    | sct h o => exact ⟨_, _, rfl, rfl, decodeWord_owner hw rfl (decTrowel_enc ..)⟩
    | qnbld h pad d a pb =>
      exact ⟨_, _, rfl, rfl, decodeWord_owner hw rfl (by cases pad <;> simp [decOwner])⟩
    | _ => exact absurd rfl h1

/-- Settles O50: the words come back from the bytes and decode to the instruction. -/
theorem decodeInvertsEncode : Obligations.DecodeInvertsEncode := by
  intro i hw
  obtain ⟨w, rest, hws, hlen, hdec⟩ := exists_words hw
  have hbytes : (encode i).length = 12 * instrWords i := by rw [encode, length_flatMap_wordBytes, hws, List.length_cons, hlen]
  have hwords : bytesWords 5 (encode i) = w :: rest := by
    rw [encode, hws]
    refine bytesWords_flatMap _ ?_
    rw [List.length_cons, hlen]
    exact instrWords_le i
  exact ⟨by simp only [decode, hwords, hdec, ← hbytes, List.drop_length], hbytes⟩

end Sys2Proof
end

section
/-!
SUPPORT for the statements about the encoding: what it says of a word that it decodes to an instruction (R42, R61 to R66). The instruction is
well formed and has the header of the word.
-/

namespace Sys2Proof
open Machine

/-! ### The header of a decoded instruction (R42) -/

/-- Every instruction that an answer may be has the header `h`. -/
def Carries (h : Hdr) (o : Option Instr) : Prop := ∀ i, o = some i → hdrOf i = some h

section
variable {h : Hdr} {w : RawWord}

theorem Carries.none : Carries h none := fun _ e => nomatch e

theorem Carries.some {i : Instr} (hi : hdrOf i = some h) : Carries h (some i) := fun j e => by cases e; exact hi

theorem Carries.bind {α : Type} {o : Option α} {f : α → Option Instr} (hf : ∀ a, Carries h (f a)) : Carries h (o >>= f) := by
  cases o with
  | none => exact Carries.none
  | some a => exact hf a

theorem Carries.sub0 {o : Option Instr} (ho : Carries h o) : Carries h (sub0 w o) := by
  unfold Sys2Proof.sub0
  split
  · exact ho
  · exact .none

/-- A row of a decoder binds its fields and answers with the word's header; a family is a table of such rows, some below a sub-operation. So
the shape of the decoder decides each step. -/
theorem carries_decStd : Carries w.h (decStd w) := by
  unfold decStd decControl decInteger decFloat decMemory decTile decQueue decMortar decQuoin decShape decSystem
  repeat' first | refine .bind fun _ => ?_ | refine .sub0 ?_ | exact .some rfl | exact .none | split

theorem carries_decOwner (pb : ParamBlock) : Carries w.h (decOwner w pb) := by
  unfold decOwner
  repeat' first | refine .bind fun _ => ?_ | exact .some rfl | exact .none | split

theorem carries_decPair (w : IWord) : Carries (unpackHdr w) (decPair w) := .bind fun _ => .bind fun _ => .bind fun _ => .some rfl

end

/-! ### Decoding inverted (R63) -/

/-- How a word decodes to an instruction: as a pair word, as an owner of the block behind it, or as one standard word. -/
theorem decodeWord_ok {w : IWord} {rest : List IWord} {i : Instr} (hok : decodeWord w rest = .ok i) :
    (unpackWord w).major.toNat ≠ 0xF0 ∧ reservedZero w = true ∧ wellFormed i = true ∧
      (((unpackWord w).major.toNat / 16 = 0xE ∧ decPair w = some i) ∨
        (ownsParams (unpackWord w) = true ∧ ∃ pb, unpackBlock rest = some pb ∧ decOwner (unpackWord w) pb = some i) ∨
        (ownsParams (unpackWord w) = false ∧ majorAssigned (unpackWord w).major.toNat = true ∧ decStd (unpackWord w) = some i)) := by
  have accepted : ∀ {o : Option Instr} {e : DecodeErr},
      (match o with
        | some i => if accepts i then Except.ok i else Except.error DecodeErr.illFormed
        | none => .error e) = .ok i → wellFormed i = true ∧ o = some i := by
    intro o e h
    cases o with
    | none => cases h
    | some j =>
      dsimp only at h
      split at h
      · cases h
        exact ⟨‹_›, rfl⟩
      · cases h
  unfold decodeWord at hok
  dsimp only at hok
  split at hok
  · cases hok
  · rename_i hmark
    split at hok
    · cases hok
    · rename_i hres
      have hres : reservedZero w = true := by simpa using hres
      split at hok
      · obtain ⟨hwf, hdec⟩ := accepted hok
        exact ⟨hmark, hres, hwf, .inl ⟨‹_›, hdec⟩⟩
      · split at hok
        · split at hok
          · cases hok
          · obtain ⟨hwf, hdec⟩ := accepted hok
            exact ⟨hmark, hres, hwf, .inr (.inl ⟨‹_›, _, ‹_›, hdec⟩)⟩
        · split at hok
          · cases hok
          · rename_i hown hasg
            obtain ⟨hwf, hdec⟩ := accepted hok
            exact ⟨hmark, hres, hwf, .inr (.inr ⟨by simpa using hown, by simpa using hasg, hdec⟩)⟩

end Sys2Proof
end

section
/-!
PROOF of `ReservedWordsAreRefused` and of `WordsDecodeAsTheSpecWritesThem`: each reserved value contradicts one of the things that decoding
to an instruction says of a word.
-/

namespace Sys2Proof
open Machine

/-! ### Guards (R42) -/

/-- A check that holds only with a guard that exists. -/
def Guarded (h : Hdr) (b : Bool) : Prop := b = true → predOk h.guard = true

section
variable {h : Hdr}

theorem Guarded.ok : Guarded h h.ok := id
theorem Guarded.okNoRu : Guarded h h.okNoRu := fun e => (Bool.and_eq_true_iff.1 e).1
theorem Guarded.okA {r : Bool} : Guarded h (h.okA r) := fun e => (Bool.and_eq_true_iff.1 e).1
theorem Guarded.and {a b : Bool} (ha : Guarded h a) : Guarded h (a && b) := fun e => ha (Bool.and_eq_true_iff.1 e).1

end

/-- A well-formed instruction has a guard that exists: its first check is that of its header. -/
theorem guard_ok_of_wellFormed {i : Instr} {h : Hdr} (hh : hdrOf i = some h) : Guarded h (wellFormed i) := by
  cases i
  all_goals cases hh
  all_goals repeat' first | exact .ok | exact .okNoRu | exact .okA | refine .and ?_

/-- A word that is an instruction has a guard that exists. -/
theorem guard_ok_of_decodeWord {w : IWord} {rest : List IWord} {i : Instr} (hok : decodeWord w rest = .ok i) :
    predOk (w.extractLsb' 78 5) = true := by
  obtain ⟨-, -, hwf, ⟨-, hdec⟩ | ⟨-, pb, -, hdec⟩ | ⟨-, -, hdec⟩⟩ := decodeWord_ok hok
  · exact guard_ok_of_wellFormed (carries_decPair w i hdec) hwf
  · exact guard_ok_of_wellFormed (carries_decOwner pb i hdec) hwf
  · exact guard_ok_of_wellFormed (carries_decStd i hdec) hwf

/-! ### Major opcodes (R64) -/

theorem unpackWord_major (w : IWord) : (unpackWord w).major = w.extractLsb' 88 8 := rfl

theorem ownsParams_iff {r : RawWord} : ownsParams r = true ↔
    r.major ∈ [0x89#8, 0x8A, 0x8B, 0xB1] ∨ (r.major = 0x84#8 ∧ r.sub = 8#4) := by
  obtain ⟨m, k, -⟩ := r
  simp only [ownsParams]
  revert m k
  decide

/-- The major opcode of an instruction is assigned, or that of a pair word. -/
theorem major_of_decodeWord {w : IWord} {rest : List IWord} {i : Instr} (hok : decodeWord w rest = .ok i) :
    majorAssigned (w.extractLsb' 88 8).toNat = true ∨ (w.extractLsb' 88 8).toNat / 16 = 0xE := by
  obtain ⟨-, -, -, ⟨hpair, -⟩ | ⟨hown, -⟩ | ⟨-, hasg, -⟩⟩ := decodeWord_ok hok
  · exact .inr hpair
  · left
    rw [ownsParams_iff, unpackWord_major] at hown
    simp only [List.mem_cons, List.not_mem_nil, or_false] at hown
    obtain (h | h | h | h) | ⟨h, -⟩ := hown <;> rw [h] <;> rfl
  · exact .inl hasg

/-- An owner that is an instruction has a block behind it (R61). -/
theorem block_of_decodeWord {w : IWord} {rest : List IWord} {i : Instr} (hown : ownsParams (unpackWord w) = true)
    (hok : decodeWord w rest = .ok i) : ∃ pb, unpackBlock rest = some pb := by
  obtain ⟨-, -, -, ⟨hpair, -⟩ | ⟨-, pb, hpb, -⟩ | ⟨hown', -⟩⟩ := decodeWord_ok hok
  · exact absurd hpair (not_pair_of_owner hown).2
  · exact ⟨pb, hpb⟩
  · rw [hown'] at hown
    cases hown

/-! ### `nop` (R65) -/

theorem decControl_nop {r : RawWord} {i : Instr} (hm : r.major = 0) (hdec : decStd r = some i) :
    r.sub = 0 ∧ r.d = ⟨0, 0, 0, 0, false, false, 0⟩ ∧ r.a = rawZero ∧ r.b = rawZero ∧ i = .nop r.h := by
  obtain ⟨m, k, h, d, a, b⟩ := r
  obtain rfl : m = 0#8 := hm
  rw [decStd_control rfl] at hdec
  simp only [decControl, BitVec.reduceToNat, sub0] at hdec
  split at hdec
  · split at hdec
    · rename_i hk hf
      cases hdec
      exact ⟨hk, hf.1, hf.2.1, hf.2.2, rfl⟩
    · cases hdec
  · cases hdec

/-- Bits 67 to 0 of a word are zero when its operand fields are. -/
theorem operands_zero {w : IWord} (hd : unpackD (w.extractLsb' 48 20) = ⟨0, 0, 0, 0, false, false, 0⟩)
    (ha : unpackS (w.extractLsb' 24 24) = rawZero) (hb : unpackS (w.extractLsb' 0 24) = rawZero) : w.extractLsb' 0 68 = 0#68 := by
  have hd' : w.extractLsb' 48 20 = 0#20 := by rw [← packD_unpackD (w.extractLsb' 48 20), hd]; rfl
  have ha' : w.extractLsb' 24 24 = 0#24 := by rw [← packS_unpackS (w.extractLsb' 24 24), ha]; rfl
  have hb' : w.extractLsb' 0 24 = 0#24 := by rw [← packS_unpackS (w.extractLsb' 0 24), hb]; rfl
  have hsplit : w.extractLsb' 0 68 = w.extractLsb' 48 20 ++ (w.extractLsb' 24 24 ++ w.extractLsb' 0 24) := by
    simp (disch := decide) only [BitVec.extractLsb'_append_extractLsb'_eq_extractLsb']
  rw [hsplit, hd', ha', hb']
  rfl

/-- A word of major opcode 0 that is an instruction is a `nop`, zero below its header but for it. -/
theorem nop_of_decodeWord {w : IWord} {rest : List IWord} {i : Instr} (hm : w.extractLsb' 88 8 = 0#8) (hok : decodeWord w rest = .ok i) :
    w.extractLsb' 84 4 = 0#4 ∧ w.extractLsb' 0 68 = 0#68 := by
  have hmaj : (unpackWord w).major.toNat = 0 := by rw [unpackWord_major, hm]; rfl
  obtain ⟨-, -, -, ⟨hpair, -⟩ | ⟨hown, -⟩ | ⟨-, -, hdec⟩⟩ := decodeWord_ok hok
  · rw [hmaj] at hpair
    cases hpair
  · rw [ownsParams, hmaj] at hown
    cases hown
  · obtain ⟨hk, hd, ha, hb, -⟩ := decControl_nop hm hdec
    exact ⟨hk, operands_zero hd ha hb⟩

theorem nop_refused (w : IWord) (rest : List IWord) (i : Instr) (hm : w.extractLsb' 88 8 = 0#8)
    (hbit : w.extractLsb' 84 4 ≠ 0#4 ∨ w.extractLsb' 0 68 ≠ 0#68) : decodeWord w rest ≠ .ok i := by
  intro hok
  obtain ⟨hk, hz⟩ := nop_of_decodeWord hm hok
  exact hbit.elim (fun h => h hk) fun h => h hz

/-! ### Parameter blocks (R61) -/

theorem unpackParam_some {w : IWord} {p : Sub × Sub × Sub} (h : unpackParam w = some p) :
    w.extractLsb' 88 8 = 0xF0#8 ∧ w.extractLsb' 72 16 = 0#16 ∧ unpackSub (w.extractLsb' 48 24) = some p.2.2 := by
  unfold unpackParam req at h
  split at h
  · rename_i hmark
    simp only [Bool.and_eq_true, beq_iff_eq] at hmark
    simp only [Option.bind_eq_bind, Option.bind_some, Option.bind_eq_some_iff] at h
    obtain ⟨x, -, y, -, z, hz, hp⟩ := h
    cases hp
    exact ⟨hmark.1, hmark.2, hz⟩
  · cases h

/-- A subfield that is the literal 0 has no bit. -/
theorem unpackSub_lit_zero {x : BitVec 24} (h : unpackSub x = some (.lit 0)) : x = 0 := by
  unfold unpackSub at h
  split at h
  · rename_i hk
    have hk' : x.extractLsb' 22 2 = 0#2 := BitVec.eq_of_toNat_eq hk
    have hv : x.extractLsb' 0 22 = 0#22 := by simpa using h
    have hsplit : x = x.extractLsb' 22 2 ++ x.extractLsb' 0 22 := by
      simp (disch := decide) only [BitVec.extractLsb'_append_extractLsb'_eq_extractLsb']
      exact BitVec.extractLsb'_eq_self.symm
    rw [hsplit, hk', hv]
    rfl
  · split at h <;> cases h
  · cases h

/-- A block is four words with the marker and zeros below it, the last subfield zero. -/
theorem unpackBlock_some {ws : List IWord} {pb : ParamBlock} (h : unpackBlock ws = some pb) :
    (4 ≤ ws.length ∧ ∀ k v, k < 4 → ws[k]? = some v → v.extractLsb' 88 8 = 0xF0#8 ∧ v.extractLsb' 72 16 = 0#16) ∧
      ∀ v, ws[3]? = some v → v.extractLsb' 48 24 = 0#24 := by
  match ws with
  | [] | [_] | [_, _] | [_, _, _] => cases h
  | w0 :: w1 :: w2 :: w3 :: ws =>
    simp only [unpackBlock, Option.bind_eq_bind, Option.bind_eq_some_iff] at h
    obtain ⟨p0, h0, p1, h1, p2, h2, p3, h3, h⟩ := h
    obtain ⟨m0, z0, -⟩ := unpackParam_some h0
    obtain ⟨m1, z1, -⟩ := unpackParam_some h1
    obtain ⟨m2, z2, -⟩ := unpackParam_some h2
    obtain ⟨m3, z3, hlast⟩ := unpackParam_some h3
    refine ⟨⟨by simp, fun k v hk hv => ?_⟩, fun v hv => ?_⟩
    · interval_cases k <;> cases hv
      exacts [⟨m0, z0⟩, ⟨m1, z1⟩, ⟨m2, z2⟩, ⟨m3, z3⟩]
    · cases hv
      split at h
      · split at h
        · rename_i hlit hz
          exact unpackSub_lit_zero (by rw [hlast, hlit, hz])
        · cases h
      · cases h

/-- Settles O52: by what decoding says of a word. -/
theorem reservedWordsAreRefused : Obligations.ReservedWordsAreRefused := by
  refine ⟨fun w rest i hm hok => ?_, fun w rest i => ?_, fun w rest i h24 h30 hok => ?_, fun w rest i hres hok => ?_, nop_refused,
    fun w rest i hown hbad hok => ?_⟩
  · exact (decodeWord_ok hok).1 (by rw [unpackWord_major, hm]; rfl)
  · intro m hm hok
    have hmaj : majorAssigned m = true ∨ m / 16 = 0xE := major_of_decodeWord hok
    simp only [majorAssigned, Bool.or_eq_true, Bool.and_eq_true, decide_eq_true_eq] at hmaj
    omega
  · have hg := guard_ok_of_decodeWord hok
    simp only [predOk, Bool.or_eq_true, decide_eq_true_eq, beq_iff_eq] at hg
    omega
  · have hz := (decodeWord_ok hok).2.1
    exact hres (by simpa [reservedZero] using hz)
  · obtain ⟨pb, hpb⟩ := block_of_decodeWord (ownsParams_iff.2 hown) hok
    obtain ⟨⟨hlen, hmark⟩, hlast⟩ := unpackBlock_some hpb
    obtain hshort | ⟨k, v, hk, hv, hne⟩ | ⟨v, hv, hne⟩ := hbad
    · omega
    · obtain ⟨hm, hz⟩ := hmark k v hk hv
      exact hne.elim (fun h => h hm) fun h => h hz
    · exact hne (hlast v hv)

/-- Settles O51: by running the decoder on each word. -/
theorem wordsDecodeAsTheSpecWritesThem : Obligations.WordsDecodeAsTheSpecWritesThem := by
  unfold Obligations.WordsDecodeAsTheSpecWritesThem
  decide +kernel

end Sys2Proof
end

section
/-!
PROOF of `NopOnlyObeysItsHeader`. A `nop` is the beginning of its issue and nothing else (R65).
-/

namespace Sys2Proof.Machine

/-- The begun device with its mark written out (R45). -/
theorem begun_eq_emit (i : Instr) (x : Iss) :
    begun i x = emitTrace (x.s.dev.setFibre (begunFib i x)) (if x.h.tm then markRecs x 1 x.c.lanes 0 0 else []) := by
  unfold begun prologue
  cases x.h.tm
  · simp only [emitTrace, Bool.false_eq_true, if_false, List.append_nil]
    rfl
  · rfl

/-- The threads of the begun fibre: those of the issuing path stand at the next instruction under the stall count (R8). -/
theorem thread_begunFib_eq (i : Instr) (x : Iss) {L : Nat} (hL : L < x.f.threads.length) :
    (begunFib i x).thread L = if x.c.lanes.has L then { x.f.thread L with
        pc := (x.f.thread L).pc + BitVec.ofNat 64 (12 * instrWords i)
        stallTo := x.s.clk.cycle + max x.h.stall.toNat 1
        stallPc := x.c.pc }
      else x.f.thread L := by
  simp only [begunFib, advance, Fibre.onLanes, Fibre.mapThreads, Fibre.thread, releaseLatch, List.getD_eq_getElem?_getD,
    List.getElem?_mapIdx, List.getElem?_eq_getElem hL, Option.map_some, Option.getD_some]

theorem exec_nop (h : Hdr) (s : State) : exec (.nop h) s = issueOn (.nop h) h s fun _ d => some (.done d) := rfl

/-- Settles O53: the word by decoding it, and an issue that does nothing but begin. -/
theorem nopOnlyObeysItsHeader : Obligations.NopOnlyObeysItsHeader := by
  refine ⟨rfl, nop_refused, fun h s x hx => ⟨?_, fun L hL _ => ?_⟩⟩
  · rw [exec_nop, issueOn_answers rfl hx rfl, begun_eq_emit, issue?_h rfl hx, issue?_s hx]
  · rw [thread_begunFib_eq _ _ hL, issue?_h rfl hx, issue?_s hx]
    rfl

end Sys2Proof.Machine
end

section
/-!
PROOF of `StepRunsTheDecodedInstruction`. A step prepares the next selected part of a path (R63, R66, R71, R89); what a part may still issue
is read off its fibre, team and overlay. The order of the two ports (R90) touches one fibre.
-/

namespace Sys2Proof.Machine

/-! ### Fetching (R63, R70) -/

theorem residentAt_base {d : Dev} {core ctx : Nat} {base : Word} {r : Resident} (h : residentAt d core ctx base = some r) :
    r.base = base := by
  have := List.find?_some h
  simp only [Bool.and_eq_true, beq_iff_eq] at this
  exact this.2

/-- A resident word that decodes is fetched as its instruction. -/
theorem fetchAt_instr {d : Dev} {f : Fibre} {t : Team} {pc base : Word} {len : Nat} {r : Resident} {ws : List IWord} {w : IWord} {i : Instr}
    (hov : overlayOf t pc = some (base, len)) (hal : (pc.toNat - base.toNat) % 12 = 0) (hres : residentAt d f.core f.ctx base = some r)
    (hws : r.words.drop ((pc.toNat - base.toNat) / 12) = w :: ws) (hdec : decodeWord w (ws.take 4) = .ok i) : fetchAt d f t pc = .instr i := by
  have hword : r.word pc = some w := by
    rw [Resident.word, residentAt_base hres, ← List.head?_drop, hws, List.head?_cons]
  have hmark : w.extractLsb' 88 8 ≠ 0xF0#8 := fun h => (decodeWord_ok hdec).1 (by rw [unpackWord_major, h]; rfl)
  have hvalid : classify d f.core f.ctx t false pc = .valid := by
    simp [classify, hov, hal, hres, hword, hmark]
  simp only [fetchAt, hvalid, hov, hres, hws, hdec]

/-! ### Preparing a part (R66, R71, R89) -/

section
variable {c c' : Item} {s : State} {f : Fibre} {t : Team} (hitem : itemOf s.dev s.clk.cycle c = some (f, t, c')) (hnew : unstarted f c' = 0)
include hitem hnew

theorem prepare_instr {i : Instr} (hf : fetchAt s.dev f t c'.pc = .instr i) : prepare c s = .run i { s with cur := some c' } := by
  simp only [prepare, hitem, hnew, hf, if_true, markStarted]
  rfl

theorem prepare_illegal (hf : fetchAt s.dev f t c'.pc = .illegal) : prepare c s = .ended (fetchFault s c' ⟨2, 0, 0, c'.lanes, 0⟩) := by
  simp only [prepare, hitem, hnew, hf, if_true]

theorem prepare_violation {r : Nat} (hf : fetchAt s.dev f t c'.pc = .violation r) :
    prepare c s = .ended (fetchFault s c' (landingFault (c'.lanes.lanes.map fun L => (L, r)))) := by
  simp only [prepare, hitem, hnew, hf, if_true]

theorem prepare_miss {b : Word} {n : Nat} (hf : fetchAt s.dev f t c'.pc = .miss b n) :
    prepare c s = .ended (s.withDev (overlayMiss s.dev f c'.lanes b n)) := by
  simp only [prepare, hitem, hnew, hf, if_true]

end

/-- A step that runs an instruction. -/
theorem step_run {s : State} {c : Item} {rest : List Item} {i : Instr} {t : State} (hq : s.issueQ = c :: rest)
    (hp : prepare c { s with issueQ := rest } = .run i t) : step s = settled (ported c t (exec i t)) := by
  simp only [step, hq, hp]

/-- A step whose part comes to no instruction. -/
theorem step_ended {s : State} {c : Item} {rest : List Item} {t : State} (hq : s.issueQ = c :: rest)
    (hp : prepare c { s with issueQ := rest } = .ended t) : step s = settled (.next t) := by
  simp only [step, hq, hp]

/-! ### The two ports (R90) -/

/-- The order of the ports is a matter of port 1. -/
theorem portOrder_port0 {c : Item} (hc : c.port ≠ 1) (cycle : Nat) (d e : Dev) : portOrder cycle c d e = e := by
  unfold portOrder
  split
  · rw [if_pos (by simp [hc])]
  · rfl

theorem ported_port0 {c : Item} (hc : c.port ≠ 1) (s : State) (o : Host.Outcome State Fault Refusal) : ported c s o = o := by
  cases o with
  | next t => rw [ported, portOrder_port0 hc]; rfl
  | fault r => rfl
  | refused r => rfl

/-- It leaves everything but the fibres, and every fibre but the issuing one. -/
theorem portOrder_frame (cycle : Nat) (c : Item) (d e : Dev) :
    portOrder cycle c d e = { e with fibres := (portOrder cycle c d e).fibres } ∧
      ∀ u, u ≠ c.fib → (portOrder cycle c d e).fibre? u = e.fibre? u := by
  unfold portOrder
  split
  · rename_i f g hf hg
    split
    · exact ⟨rfl, fun _ _ => rfl⟩
    · refine ⟨rfl, fun u hu => fibre?_setFibre_other ?_⟩
      have := List.find?_some hg
      simp only [beq_iff_eq] at this
      simpa [this] using hu
  · exact ⟨rfl, fun _ _ => rfl⟩

/-! ### A placed word -/

/-- Five whole words of 60 bytes. -/
theorem bytesWords_eq_leIWords (n : Nat) {bs : List Byte} (h : 12 * n ≤ bs.length) : bytesWords n bs = leIWords n bs := by
  induction n generalizing bs with
  | zero => rfl
  | succ n ih =>
    rw [bytesWords, leIWords, if_neg (by omega), ih (by rw [List.length_drop]; omega)]

/-- A word of the opcode table decodes from the words that a placed kernel holds. -/
theorem placedWords_decode {nbits w : Nat} {i : Instr} (h : decodeTableWord nbits w = some i) :
    ∃ v ws, placedWords nbits w = v :: ws ∧ decodeWord v (ws.take 4) = .ok i := by
  have hwords : placedWords nbits w = bytesWords 5 (natLE 60 (w % 2 ^ nbits)) :=
    (bytesWords_eq_leIWords 5 (by rw [length_natLE])).symm
  unfold decodeTableWord decode at h
  rw [← hwords] at h
  have hlen : (placedWords nbits w).length = 5 := rfl
  match hws : placedWords nbits w with
  | [] => rw [hws] at hlen; cases hlen
  | v :: ws =>
    rw [hws] at h hlen
    have htake : ws.take 4 = ws := List.take_of_length_le (by simp only [List.length_cons] at hlen; omega)
    refine ⟨v, ws, rfl, ?_⟩
    rw [htake]
    dsimp only at h
    cases hd : decodeWord v ws with
    | ok j => rw [hd] at h; cases h; rfl
    | error e => rw [hd] at h; cases h

/-- The team of a placed word, on its core. -/
def placedTeam (core : Nat) : Team := newTeam 0 0 0x10000000000 0 8 placedHdr 0 none ⟨core, [(0, 0, 0)], 0⟩

/-- Its fibre. -/
def placedFibre (core : Nat) : Fibre :=
  newFibre 2 1 { State.reset.dev.ctx 0 with state := .running } (placedTeam core) 0 (0, 0, 0, 0) false 0
    ((List.range 8).map fun L => newThread .live placedBase L none)

/-- The part that is selected to issue it. -/
def placedItem : Item := ⟨2, 0xFF, placedBase, 0, 0⟩

section
variable (nbits w : Nat)

theorem placeWord_issueQ : (placeWord State.reset nbits w).issueQ = [placedItem] := rfl

theorem placedFibre_live (core : Nat) : (placedFibre core).live = 0xFF := rfl

theorem placeWord_itemOf : itemOf (placeWord State.reset nbits w).dev (placeWord State.reset nbits w).clk.cycle placedItem =
    some (placedFibre (placedCore (decodeTableWord nbits w)), placedTeam (placedCore (decodeTableWord nbits w)), placedItem) := by
  have hf : (placeWord State.reset nbits w).dev.fibre? 2 = some (placedFibre (placedCore (decodeTableWord nbits w))) := rfl
  have ht : (placeWord State.reset nbits w).dev.team? 0 = some (placedTeam (placedCore (decodeTableWord nbits w))) := rfl
  have hc : ctxIssues (placeWord State.reset nbits w).dev 0 = true := rfl
  have hn : (placedFibre (placedCore (decodeTableWord nbits w))).team = 0 ∧ (placedFibre (placedCore (decodeTableWord nbits w))).ctx = 0 ∧
    (placedFibre (placedCore (decodeTableWord nbits w))).frozen = none := ⟨rfl, rfl, rfl⟩
  obtain ⟨hteam, hctx, hfrozen⟩ := hn
  simp only [itemOf, placedItem, hf, hteam, hctx, hfrozen, ht, hc, placedFibre_live, BitVec.and_self]
  exact if_neg (by decide)

/-- No lane of it serves a task. -/
theorem placedFibre_unstarted (core : Nat) : unstarted (placedFibre core) placedItem = 0 := by
  rfl

theorem placeWord_residentAt (core : Nat) (h : core = placedCore (decodeTableWord nbits w)) :
    residentAt (placeWord State.reset nbits w).dev core 0 placedBase = some ⟨core, 0, placedBase, placedWords nbits w⟩ := by
  subst h
  simp [residentAt, placeWord]

/-- What a placed word stands for is what its part fetches. -/
theorem placeWord_fetchAt {i : Instr} (h : decodeTableWord nbits w = some i) :
    fetchAt (placeWord State.reset nbits w).dev (placedFibre (placedCore (decodeTableWord nbits w)))
      (placedTeam (placedCore (decodeTableWord nbits w))) placedBase = .instr i := by
  obtain ⟨v, ws, hws, hdec⟩ := placedWords_decode h
  exact fetchAt_instr (len := 5) rfl rfl (placeWord_residentAt nbits w _ rfl) hws hdec

theorem step_placeWord {i : Instr} (h : decodeTableWord nbits w = some i) : ∃ t, step (placeWord State.reset nbits w) = settled (exec i t) ∧
    t.dev = (placeWord State.reset nbits w).dev ∧ t.issueQ = [] := by
  refine ⟨{ placeWord State.reset nbits w with issueQ := [], cur := some placedItem }, ?_, rfl, rfl⟩
  have hp := prepare_instr (s := { placeWord State.reset nbits w with issueQ := [] }) (placeWord_itemOf nbits w)
    (placedFibre_unstarted _) (placeWord_fetchAt nbits w h)
  rw [step_run (placeWord_issueQ nbits w) hp, ported_port0 (by decide)]

end

/-- Settles O54: a step prepares the part at the head of the queue, and each outcome of its fetch has its own equation; `ported` touches the
issuing fibre alone; a placed word is resident at the PC of its part. -/
theorem stepRunsTheDecodedInstruction : Obligations.StepRunsTheDecodedInstruction := by
  unfold Obligations.StepRunsTheDecodedInstruction
  refine ⟨fun s c rest f t c' hq hitem hnew => ⟨fun i hf => ?_, fun hf => ?_, fun r hf => ?_, fun b n hf => ?_⟩, ?_,
    fun c s o hc => ported_port0 hc s o, ?_, ?_, ?_, ?_⟩
  · exact step_run hq (prepare_instr (s := { s with issueQ := rest }) hitem hnew hf)
  · exact step_ended hq (prepare_illegal (s := { s with issueQ := rest }) hitem hnew hf)
  · exact step_ended hq (prepare_violation (s := { s with issueQ := rest }) hitem hnew hf)
  · exact step_ended hq (prepare_miss (s := { s with issueQ := rest }) hitem hnew hf)
  · intro d f t pc base len r ws w i hov hal hres hws hdec
    exact fetchAt_instr hov hal hres hws hdec
  · intro c s t
    obtain ⟨hdev, hother⟩ := portOrder_frame s.clk.cycle c s.dev t.dev
    exact ⟨_, rfl, hdev, hother⟩
  · intro s e rest hq ha
    simp only [step, hq, ha]
  · intro s rest hq ha
    simp only [step, hq, ha]
  · intro nbits w i h _
    exact step_placeWord nbits w h

end Sys2Proof.Machine
end

section
/-!
PROOF of `PairWritesBothHalves`. Each half is a sub-element operation whose shape fits its values (R55, R76), so the register that its write
leaves holds those values in every active lane; both are read on the begun device, which reads as the one before the issue.
-/

namespace Sys2Proof.Machine

/-! ### Shapes that fit the values they are given (R55, R76) -/

/-- A shape fits a result's lanes: U where they are all equal, A where they rise by its stride. -/
def Sh.Fits (sh : Sh) (val : Nat → Word) : Prop :=
  (sh = .u → ∀ L M, val L = val M) ∧ ∀ b st, sh = .a b st → ∀ L, val L = b + BitVec.ofNat 64 L * st

theorem laneVal_outReg_of_fits {i : Instr} {s : State} {x : Iss} (hx : issue? i s = some x) {sh : Sh} {val : Nat → Word}
    (hfit : sh.Fits val) {L : Nat} (hL : x.act.has L = true) : laneVal x.f (outReg x sh val) L = val L :=
  laneVal_outReg hx (fun hu L M _ _ => hfit.1 hu L M) (fun b st h L _ => hfit.2 b st h L) hL

theorem allU_fits {us : List Bool} {val : Nat → Word} (hu : (∀ u, u ∈ us → u = true) → ∀ L M, val L = val M) : (allU us).Fits val :=
  ⟨fun h => hu (allU_eq_u h), fun b st h => absurd h (allU_ne_a us b st)⟩

/-- Base and stride of a 64-bit source that counts as U or A give its value in every lane. -/
theorem srcVal_of_affOf {d : Dev} {f : Fibre} {tm : Team} {t : ITy} {a : Src} {M : Nat} {p : Word × Word} (ht : t.width = 64)
    (h : affOf (srcShape d f (.int t) a) (srcVal d f tm (.int t) M a) = some p) (L : Nat) :
    srcVal d f tm (.int t) L a = p.1 + BitVec.ofNat 64 L * p.2 := by
  cases hs : srcShape d f (.int t) a with
  | u =>
    rw [hs] at h
    obtain rfl := Option.some.inj h
    rw [srcVal_of_u (by rw [hs]; rfl) L M]
    simp
  | a b st =>
    rw [hs] at h
    obtain rfl := Option.some.inj h
    exact srcVal_of_a ht hs L
  | g => rw [hs] at h; cases h

/-- A U source has stride 0. -/
theorem affOf_of_isU {sh : Sh} {u : Word} {p : Word × Word} (hu : sh.isU = true) (h : affOf sh u = some p) : p.2 = 0 := by
  cases sh with
  | u => obtain rfl := Option.some.inj h; rfl
  | a b st => cases hu
  | g => cases hu

/-- THE AFFINE ROWS OF R76: the shape fits a 64-bit operation that is `g` on bases and strides, and any operation on two U sources. -/
theorem affShape_fits {t : ITy} {sat : Bool} {d : Reg} {a b : Src} {ok : Sh → Sh → Bool} {g : Word × Word → Word × Word → Word × Word}
    {x : Iss} {dv : Dev} {op : Word → Word → Word}
    (hop : t.width = 64 → ∀ sa sb va vb p q, ok sa sb = true → affOf sa va = some p → affOf sb vb = some q → ∀ L : Word,
      op (p.1 + L * p.2) (q.1 + L * q.2) = (g p q).1 + L * (g p q).2) :
    (affShape t sat d a b ok g x dv).Fits fun L =>
      op (srcVal dv (x.fib dv) x.t (.int t) L a) (srcVal dv (x.fib dv) x.t (.int t) L b) := by
  unfold affShape
  dsimp only
  split
  · rename_i hc
    obtain ⟨hw, -, hok⟩ := hc
    split
    · rename_i p q hp hq
      refine ⟨fun h => (nomatch h), fun b' st' h L => ?_⟩
      cases h
      dsimp only
      rw [srcVal_of_affOf hw hp L, srcVal_of_affOf hw hq L]
      exact hop hw _ _ _ _ p q hok hp hq _
    · exact ⟨fun h => (nomatch h), fun _ _ h => (nomatch h)⟩
  · refine allU_fits fun hu L M => ?_
    rw [srcVal_of_u (hu _ (by simp)) L M, srcVal_of_u (a := b) (hu _ (by simp)) L M]

/-! ### The two kinds of half (R58) -/

/-- A source of a half is read the same under every type of one width: it has no negate and no absolute value (R57). -/
theorem srcReg_halfSrc {t t' : NTy} (hw : t.width = t'.width) (d : Dev) (f : Fibre) (r : Reg) (p : BitVec 2) (L : Nat) :
    srcReg d f (halfSrc r p) t L = srcReg d f (halfSrc r p) t' L := by
  simp only [srcReg, halfSrc, modSub, hw, Bool.false_eq_true, if_false]

/-- An operation that does not read its third operand. -/
theorem subs3_third {w : Nat} {g : Nat → Nat → Nat → Nat × Word} (hg : ∀ a b d d', g a b d = g a b d') (a b d d' : Word) :
    subs3 w g a b d = subs3 w g a b d' := by
  have hj : ∀ j, g (sub a w j) (sub b w j) (sub d w j) = g (sub a w j) (sub b w j) (sub d' w j) := fun j => hg _ _ _ _
  simp only [subs3, hj]

section
variable {i : Instr} {s : State} {x : Iss} (hx : issue? i s = some x)
include hx

/-- A half whose lanes are sub-element operations that agree with `halfOut`, under a shape that fits them. -/
theorem halfSays_of_subs3 {h : Half} {t : BitVec 2} {rnd : Rnd} {ftz : Bool} {sh : Sh} {val : Nat → Word × Word}
    {g : Nat → Nat → Nat → Nat × Word}
    (hval : ∀ L, val L = subs3 (halfTy h t).width g (srcReg x.s.dev x.f (halfSrc h.s1 h.p1) (halfTy h t) L)
      (srcReg x.s.dev x.f (halfSrc h.s2 h.p2) (halfTy h t) L) (inReg x h.d L))
    (hfit : sh.Fits fun L => (val L).1)
    (hg : ∀ a b d, a < 2 ^ (halfTy h t).width → b < 2 ^ (halfTy h t).width →
      (g a b d).1 % 2 ^ (halfTy h t).width = (halfOut h.op t rnd ftz a b d).1 % 2 ^ (halfTy h t).width ∧
        (g a b d).2 = (halfOut h.op t rnd ftz a b d).2) :
    HalfSays x h t rnd ftz (outReg x sh fun L => (val L).1) (laneFlags x fun L => (val L).2) := by
  have hsub : ∀ (y : Word) j, sub y (halfTy h t).width j < 2 ^ (halfTy h t).width := fun y j => Nat.mod_lt _ (by positivity)
  refine ⟨fun L hL j hj => ?_, fun n => ?_⟩
  · rw [laneVal_outReg_of_fits hx hfit hL, hval, sub_subs3 _ _ _ _ hj]
    exact (hg _ _ _ (hsub _ _) (hsub _ _)).1
  · simp only [getLsbD_laneFlags, hval, getLsbD_subs3, (hg _ _ _ (hsub _ _) (hsub _ _)).2]
    exact ⟨fun ⟨L, hL, j, hj, hb⟩ => ⟨L, j, hL, hj, hb⟩, fun ⟨L, j, hL, hj, hb⟩ => ⟨L, hL, j, hj, hb⟩⟩

/-- An integer half, under its own type or the signed one of its width. -/
theorem intHalf_says {h : Half} {t : BitVec 2} {rnd : Rnd} {ftz : Bool} {T : ITy} {sh : Iss → Dev → Sh} {g : Nat → Nat → Nat × Word}
    (hint : h.op.isFma = false) (hT : T.width = (halfInt t).width)
    (hfit : (sh x (begun i x)).Fits fun L => ((intHalf x (begun i x) h T sh g).2 L).1)
    (hg : ∀ a b d, a < 2 ^ (halfInt t).width → b < 2 ^ (halfInt t).width →
      (g a b).1 % 2 ^ (halfInt t).width = (halfOut h.op t rnd ftz a b d).1 % 2 ^ (halfInt t).width ∧
        (g a b).2 = (halfOut h.op t rnd ftz a b d).2) :
    HalfSays x h t rnd ftz (outReg x (intHalf x (begun i x) h T sh g).1 fun L => ((intHalf x (begun i x) h T sh g).2 L).1)
      (laneFlags x fun L => ((intHalf x (begun i x) h T sh g).2 L).2) := by
  have hty : halfTy h t = .int (halfInt t) := by simp [halfTy, hint]
  refine halfSays_of_subs3 hx (g := fun a b _ => g a b) (fun L => ?_) hfit (by rw [hty]; exact hg)
  simp only [intHalf, fib_begun hx, srcReg_begun, hty]
  rw [srcReg_halfSrc (t := .int T) (t' := .int (halfInt t)) hT, srcReg_halfSrc (t := .int T) (t' := .int (halfInt t)) hT, hT]
  rfl

/-- A float half. -/
theorem fltHalf_says {h : Half} {t : BitVec 2} {rnd : Rnd} {ftz : Bool} {rd : Bool} {g : Nat → Nat → Nat → Nat × Word}
    (hflt : h.op.isFma = true) (hrd : rd = false → ∀ a b d d', g a b d = g a b d')
    (hg : ∀ a b d, g a b d = halfOut h.op t rnd ftz a b d) :
    HalfSays x h t rnd ftz (outReg x (fltHalf x (begun i x) h (halfFlt t) rd g).1 fun L => ((fltHalf x (begun i x) h (halfFlt t) rd g).2 L).1)
      (laneFlags x fun L => ((fltHalf x (begun i x) h (halfFlt t) rd g).2 L).2) := by
  have hty : halfTy h t = .flt (halfFlt t) := by simp [halfTy, hflt]
  refine halfSays_of_subs3 hx (g := g) (fun L => ?_) (allU_fits fun hu L M => ?_) (fun a b d _ _ => by rw [hg]; exact ⟨rfl, rfl⟩)
  · simp only [fltHalf, fib_begun hx, srcReg_begun, regLane_begun, hty]
    rfl
  · have h1 := fsrcVal_of_u (hu _ (List.mem_cons_self)) L M
    have h2 := fsrcVal_of_u (hu _ (List.mem_cons_of_mem _ List.mem_cons_self)) L M
    simp only [fsrcVal] at h1 h2
    simp only [fltHalf]
    rw [h1, h2]
    cases rd with
    | false => rw [subs3_third (hrd rfl)]
    | true => rw [regLane_of_plainU (hu _ (by simp)) L M]

end

/-! ### Values of integer halves (R24, R58) -/

theorem intVal_halfInt (t : BitVec 2) {a : Nat} (ha : a < 2 ^ (halfInt t).width) : intVal (halfInt t) a = a := by
  have hu : (halfInt t).signed = false := by unfold halfInt; split <;> rfl
  simp only [intVal, hu, Bool.false_eq_true, if_false, Nat.mod_eq_of_lt ha]

theorem truncW_natCast (w n : Nat) : truncW w n = n % 2 ^ w := by
  rw [truncW, ← Int.natCast_emod, Int.toNat_natCast]

theorem width_sintOf (t : ITy) : (sintOf t.width).width = t.width := by cases t <;> rfl

theorem ofNat_truncW_sub (y z : Word) : BitVec.ofNat 64 (truncW 64 ((y.toNat : Int) - z.toNat)) = y - z := by
  apply BitVec.eq_of_toNat_eq
  have hy := y.isLt
  have hz := z.isLt
  simp only [truncW, BitVec.toNat_ofNat, BitVec.toNat_sub]
  omega

/-! ### The affine rows on whole words (R76) -/

/-- A word is its own only sub-element of 64 bits. -/
theorem subs3_whole (g : Nat → Nat → Nat → Nat × Word) (a b d : Word) :
    (subs3 64 g a b d).1 = BitVec.ofNat 64 (g a.toNat b.toNat d.toNat).1 := by
  apply BitVec.eq_of_toNat_eq
  have hword : ∀ y : Word, y.toNat % 18446744073709551616 = y.toNat := fun y => Nat.mod_eq_of_lt y.isLt
  simp [subs3, nsub, ofSubs, sub, hword]

theorem affPlus_row (p q : Word × Word) (L : Word) :
    (p.1 + L * p.2) + (q.1 + L * q.2) = (affPlus p q).1 + L * (affPlus p q).2 := by
  simp only [affPlus]; ring

theorem affMinus_row (p q : Word × Word) (L : Word) :
    (p.1 + L * p.2) - (q.1 + L * q.2) = (affMinus p q).1 + L * (affMinus p q).2 := by
  simp only [affMinus]; ring

theorem affTimes_row {p q : Word × Word} (h : p.2 = 0 ∨ q.2 = 0) (L : Word) :
    (p.1 + L * p.2) * (q.1 + L * q.2) = (affTimes p q).1 + L * (affTimes p q).2 := by
  rcases h with h | h <;> simp only [affTimes, h] <;> ring

theorem affShift_row {p q : Word × Word} (h : q.2 = 0) (L : Word) :
    (p.1 + L * p.2) <<< ((q.1 + L * q.2).toNat % 64) = (affShift p q).1 + L * (affShift p q).2 := by
  have hq : q.1 + L * q.2 = q.1 := by rw [h]; ring
  simp only [affShift, hq, BitVec.shiftLeft_eq_mul_twoPow]
  ring

/-- An affine integer half: on whole words its operation is `op`, which is `comb` on bases and strides. -/
theorem affHalf_fits {x : Iss} {dv : Dev} {h : Half} {t : ITy} {ok : Sh → Sh → Bool} {comb : Word × Word → Word × Word → Word × Word}
    {g : Nat → Nat → Nat × Word} {op : Word → Word → Word}
    (hg : t.width = 64 → ∀ u v : Word, BitVec.ofNat 64 (g u.toNat v.toNat).1 = op u v)
    (hop : ∀ sa sb va vb p q, ok sa sb = true → affOf sa va = some p → affOf sb vb = some q → ∀ L : Word,
      op (p.1 + L * p.2) (q.1 + L * q.2) = (comb p q).1 + L * (comb p q).2) :
    (affShape t false h.d (.reg (halfSrc h.s1 h.p1)) (.reg (halfSrc h.s2 h.p2)) ok comb x dv).Fits fun L =>
      ((intHalf x dv h t (affShape t false h.d (.reg (halfSrc h.s1 h.p1)) (.reg (halfSrc h.s2 h.p2)) ok comb) g).2 L).1 := by
  refine affShape_fits (op := fun u v => (subs3 t.width (fun a b _ => g a b) u v 0).1) fun hw sa sb va vb p q hok hp hq L => ?_
  rw [hw, subs3_whole, hg hw, hop sa sb va vb p q hok hp hq]

/-! ### Moves -/

/-- A number is the sum of its digits. -/
theorem ofSubs_digits (w n y : Nat) : ofSubs w ((List.range n).map fun j => y / 2 ^ (w * j) % 2 ^ w) = y % 2 ^ (w * n) := by
  induction n generalizing y with
  | zero => simp [ofSubs, Nat.mod_one]
  | succ n ih =>
    have hdiv : ∀ j, y / 2 ^ (w * (j + 1)) = y / 2 ^ w / 2 ^ (w * j) := fun j => by
      rw [Nat.div_div_eq_div_mul, ← pow_add, Nat.mul_succ, Nat.add_comm]
    rw [List.range_succ_eq_map, List.map_cons, List.map_map, ofSubs, Nat.mul_succ, Nat.add_comm (w * n), pow_add, Nat.mod_mul, ← ih]
    simp [Function.comp_def, hdiv]

/-- The sub-elements of a word make up the word. -/
theorem subs3_self (t : ITy) (a b d : Word) : (subs3 t.width (fun u _ _ => (u, 0)) a b d).1 = a := by
  have hw : t.width * (64 / t.width) = 64 := by cases t <;> rfl
  apply BitVec.eq_of_toNat_eq
  simp only [subs3, List.map_map, Function.comp_def, sub, nsub, ofSubs_digits, hw, BitVec.toNat_ofNat, Nat.mod_mod]
  exact Nat.mod_eq_of_lt a.isLt

/-- A source without modifiers that counts as A is a register read as it stands (R55). -/
theorem srcReg_of_a {d : Dev} {f : Fibre} {r : RegOp} {t : NTy} {b st : Word} (hn : r.neg = false) (ha : r.abs = false)
    (h : regShape (regOf d f r.idx.toNat) r t = .a b st) (L : Nat) : srcReg d f r t L = b + BitVec.ofNat 64 L * st := by
  cases hv : regOf d f r.idx.toNat with
  | u y => rw [hv] at h; cases hp : r.pat <;> simp [regShape, hp] at h
  | g vs => rw [hv] at h; cases hp : r.pat <;> simp [regShape, hp] at h
  | a b' st' =>
    rw [hv] at h
    cases hp : r.pat <;> simp [regShape, hp, hn, ha] at h
    obtain ⟨rfl, rfl⟩ := h
    simp [srcReg, hp, hn, ha, patLane, regLane, hv, laneVal]

section
variable {i : Instr} {s : State} {x : Iss} (hx : issue? i s = some x)
include hx

/-- An integer half of two sources whose shape is U or G. -/
theorem plainHalf_says {h : Half} {t : BitVec 2} {rnd : Rnd} {ftz : Bool} {T : ITy} {g : Nat → Nat → Nat × Word}
    (hint : h.op.isFma = false) (hT : T.width = (halfInt t).width)
    (hg : ∀ a b d, a < 2 ^ (halfInt t).width → b < 2 ^ (halfInt t).width →
      (g a b).1 % 2 ^ (halfInt t).width = (halfOut h.op t rnd ftz a b d).1 % 2 ^ (halfInt t).width ∧
        (g a b).2 = (halfOut h.op t rnd ftz a b d).2) :
    let r := intHalf x (begun i x) h T (intShape (halfInt t) false h.d (.reg (halfSrc h.s1 h.p1)) (.reg (halfSrc h.s2 h.p2))) g
    HalfSays x h t rnd ftz (outReg x r.1 fun L => (r.2 L).1) (laneFlags x fun L => (r.2 L).2) := by
  refine intHalf_says hx hint hT (allU_fits fun hu L M => ?_) hg
  have h1 := srcVal_of_u (tm := x.t) (hu _ (List.mem_cons_self)) L M
  have h2 := srcVal_of_u (tm := x.t) (hu _ (List.mem_cons_of_mem _ List.mem_cons_self)) L M
  simp only [srcVal, ← srcReg_halfSrc (t := .int T) (t' := .int (halfInt t)) hT] at h1 h2
  simp only [intHalf, h1, h2]

/-- THE RESULT OF A HALF is right in every sub-element of every active lane (R58). -/
theorem halfRes_says {h : Half} (t : BitVec 2) (rnd : Rnd) (ftz : Bool) (hop : h.op ≠ .hnop) :
    ∃ r, halfRes x (begun i x) h t rnd ftz = some r ∧
      HalfSays x h t rnd ftz (outReg x r.1 fun L => (r.2 L).1) (laneFlags x fun L => (r.2 L).2) := by
  obtain ⟨op, d, s1, p1, s2, p2⟩ := h
  have hsig := width_sintOf (halfInt t)
  cases op with
  | hnop => exact absurd rfl hop
  | iadd =>
    refine ⟨_, rfl, intHalf_says hx rfl rfl (affHalf_fits (op := (· + ·)) (fun hw y z => ?_)
      fun _ _ _ _ p q _ _ _ L => affPlus_row p q L) fun a b _ ha hb => ⟨?_, rfl⟩⟩
    · exact BitVec.eq_of_toNat_eq (by simp [hw])
    · simp only [halfOut, intVal_halfInt t ha, intVal_halfInt t hb, ← Nat.cast_add, truncW_natCast]
  | isub =>
    refine ⟨_, rfl, intHalf_says hx rfl rfl (affHalf_fits (op := (· - ·)) (fun hw y z => ?_)
      fun _ _ _ _ p q _ _ _ L => affMinus_row p q L) fun a b _ ha hb => ⟨?_, rfl⟩⟩
    · simp only [hw, ofNat_truncW_sub]
    · simp only [halfOut, intVal_halfInt t ha, intVal_halfInt t hb]
  | imul =>
    refine ⟨_, rfl, intHalf_says hx rfl rfl (affHalf_fits (op := (· * ·)) (fun hw y z => ?_)
      fun _ _ _ _ p q hok hp hq L => affTimes_row ?_ L) fun a b _ ha hb => ⟨?_, rfl⟩⟩
    · exact BitVec.eq_of_toNat_eq (by simp [hw])
    · simp only [affMul, Bool.or_eq_true, Bool.and_eq_true] at hok
      exact hok.elim (fun h => .inr (affOf_of_isU h.2 hq)) fun h => .inl (affOf_of_isU h.1 hp)
    · simp only [halfOut, intVal_halfInt t ha, intVal_halfInt t hb, ← Nat.cast_mul, truncW_natCast]
  | shl =>
    refine ⟨_, rfl, intHalf_says hx rfl rfl (affHalf_fits (op := fun u v => u <<< (v.toNat % 64)) (fun hw y z => ?_)
      fun _ _ _ _ p q hok hp hq L => affShift_row ?_ L) fun a b _ ha hb => ⟨?_, rfl⟩⟩
    · exact BitVec.eq_of_toNat_eq (by simp [hw, shlSub, Nat.shiftLeft_eq])
    · simp only [affShl, Bool.and_eq_true] at hok
      exact affOf_of_isU hok.2 hq
    · simp only [halfOut, shlSub, Nat.mod_mod]
  | imins => exact ⟨_, rfl, plainHalf_says hx rfl hsig fun a b _ _ _ => ⟨by simp only [halfOut, hsig], rfl⟩⟩
  | imaxs => exact ⟨_, rfl, plainHalf_says hx rfl hsig fun a b _ _ _ => ⟨by simp only [halfOut, hsig], rfl⟩⟩
  | iminu =>
    refine ⟨_, rfl, plainHalf_says hx rfl rfl fun a b _ ha hb => ⟨?_, rfl⟩⟩
    simp only [halfOut, intVal_halfInt t ha, intVal_halfInt t hb, ← Nat.cast_min, truncW_natCast, Nat.mod_mod]
  | imaxu =>
    refine ⟨_, rfl, plainHalf_says hx rfl rfl fun a b _ ha hb => ⟨?_, rfl⟩⟩
    simp only [halfOut, intVal_halfInt t ha, intVal_halfInt t hb, ← Nat.cast_max, truncW_natCast, Nat.mod_mod]
  | and => exact ⟨_, rfl, plainHalf_says hx rfl rfl fun _ _ _ _ _ => ⟨rfl, rfl⟩⟩
  | or => exact ⟨_, rfl, plainHalf_says hx rfl rfl fun _ _ _ _ _ => ⟨rfl, rfl⟩⟩
  | xor => exact ⟨_, rfl, plainHalf_says hx rfl rfl fun _ _ _ _ _ => ⟨rfl, rfl⟩⟩
  | shr => exact ⟨_, rfl, plainHalf_says hx rfl rfl fun _ _ _ _ _ => ⟨rfl, rfl⟩⟩
  | sar => exact ⟨_, rfl, plainHalf_says hx rfl rfl fun _ _ _ _ _ => ⟨rfl, rfl⟩⟩
  | mov =>
    refine ⟨_, rfl, intHalf_says hx rfl rfl ?_ fun _ _ _ _ _ => ⟨rfl, rfl⟩⟩
    simp only [intHalf, subs3_self]
    exact ⟨fun h L M => srcReg_of_u h L M, fun b st h L => srcReg_of_a rfl rfl h L⟩
  | not =>
    refine ⟨_, rfl, intHalf_says hx rfl rfl (allU_fits fun hu L M => ?_) fun _ _ _ _ _ => ⟨rfl, rfl⟩⟩
    have h1 := srcVal_of_u (tm := x.t) (hu _ (List.mem_cons_self)) L M
    simp only [srcVal] at h1
    simp only [intHalf, h1]
    rfl
  | fadd => exact ⟨_, rfl, fltHalf_says hx rfl (fun _ _ _ _ _ => rfl) fun _ _ _ => rfl⟩
  | fsub => exact ⟨_, rfl, fltHalf_says hx rfl (fun _ _ _ _ _ => rfl) fun _ _ _ => rfl⟩
  | fmul => exact ⟨_, rfl, fltHalf_says hx rfl (fun _ _ _ _ _ => rfl) fun _ _ _ => rfl⟩
  | ffma => exact ⟨_, rfl, fltHalf_says hx rfl (fun h => nomatch h) fun _ _ _ => rfl⟩
  | fmin => exact ⟨_, rfl, fltHalf_says hx rfl (fun _ _ _ _ _ => rfl) fun _ _ _ => rfl⟩
  | fmax => exact ⟨_, rfl, fltHalf_says hx rfl (fun _ _ _ _ _ => rfl) fun _ _ _ => rfl⟩

/-- What a half puts on a fibre is what the statement writes; `hnop` puts nothing. -/
theorem putHalf_says (h : Half) (t : BitVec 2) (rnd : Rnd) (ftz : Bool) :
    ∃ v fl, (∀ f, putHalf x f h (halfRes x (begun i x) h t rnd ftz) = putHalfOut x h v fl f) ∧
      (h.op ≠ .hnop → HalfSays x h t rnd ftz v fl) := by
  by_cases hop : h.op = .hnop
  · refine ⟨.u 0, 0, fun f => ?_, fun hne => absurd hop hne⟩
    simp only [halfRes, hop, putHalf, putHalfOut, if_true]
  · obtain ⟨r, hr, hsays⟩ := halfRes_says hx t rnd ftz hop
    refine ⟨_, _, fun f => ?_, fun _ => hsays⟩
    rw [hr, putHalfOut, if_neg hop]
    rfl

end

theorem exec_pair (h : Hdr) (o : PairOp) (s : State) : exec (.pair h o) s = execPair h o s := rfl

/-- Settles O15: both results are computed on the begun device, and each is right by the lemma on halves. -/
theorem pairWritesBothHalves : Obligations.PairWritesBothHalves := by
  intro h o s x hx
  obtain ⟨v0, fl0, hput0, hsays0⟩ := putHalf_says hx o.h0 o.t0 o.rnd o.ftz
  obtain ⟨v1, fl1, hput1, hsays1⟩ := putHalf_says hx o.h1 o.t1 o.rnd o.ftz
  refine ⟨v0, fl0, v1, fl1, ?_, hsays0, hsays1⟩
  refine (exec_pair h o s).trans (issueOn_answers rfl hx ?_)
  simp only [fib_begun hx, hput0, hput1]

end Sys2Proof.Machine
end

section
/-!
PROOF of `FramesOfInstructions`. What the bodies of the register instructions do to the begun device is a chain of pushes of their own
destinations on the issuing fibre, or one flight that carries a result (R46); and whatever an instruction does, its outcome is a device put
into the state it issued in.
-/

namespace Sys2Proof.Machine

/-! ### The package (R314, R319, R329) -/

/-- The outcome of a body is a device put into the state. -/
theorem finish_withDev (x : Iss) (r : Res) : ∃ d, finish x r = x.s.withDev d := by
  cases r with
  | done d => exact ⟨d, rfl⟩
  | trap d e =>
    dsimp only [finish]
    split
    · exact ⟨x.s.dev, rfl⟩
    · exact ⟨_, rfl⟩
  | each d fs hits =>
    dsimp only [finish]
    split
    · exact ⟨x.s.dev, rfl⟩
    · exact ⟨_, rfl⟩

/-- Every issue answers a next state that differs in the device alone. -/
theorem issueWith_next (i : Instr) (h : Hdr) (k : Bool) (s : State) (b : Body) : ∃ d, issueWith i h k s b = .next (s.withDev d) := by
  unfold issueWith
  split
  · exact ⟨s.dev, rfl⟩
  · rename_i x hx
    have hfin : ∀ r, ∃ d, finish x r = s.withDev d := fun r => (issOf_eq hx).1 ▸ finish_withDev x r
    split
    · exact ⟨s.dev, rfl⟩
    · split
      · exact (hfin _).imp fun _ h => congrArg _ h
      · split
        · exact ⟨s.dev, rfl⟩
        · exact (hfin _).imp fun _ h => congrArg _ h

theorem issueOn_next (i : Instr) (h : Hdr) (s : State) (b : Body) : ∃ d, issueOn i h s b = .next (s.withDev d) :=
  issueWith_next i h false s b

/-- EVERY INSTRUCTION WITH A HEADER answers a next state that differs in the device alone: it is issued as `issueWith` says. -/
theorem exec_next {i : Instr} {h : Hdr} (hh : hdrOf i = some h) (s : State) : ∃ d, exec i s = .next (s.withDev d) := by
  cases i with
  | mma h' o => exact issueWith_next _ h' h'.ru s (mmaNow o)
  | mmaCv h' cv o => exact issueWith_next _ h' h'.ru s (mmaSign cv.toNat o)
  | _ => cases hh <;> (dsimp only [exec]; exact issueOn_next _ _ s _)

/-! ### The begun fibre (R8) -/

/-- A lane beyond the fibre's threads has none. -/
theorem thread_of_le {f : Fibre} {L : Nat} (hL : f.threads.length ≤ L) : f.thread L = default := by
  rw [Fibre.thread, List.getD_eq_default _ _ hL]

/-- Every thread of the begun fibre is the one before, but for its PC and its stall. -/
theorem thread_begunFib_frame (i : Instr) (x : Iss) (L : Nat) :
    ∃ pc n spc, (begunFib i x).thread L = { x.f.thread L with pc := pc, stallTo := n, stallPc := spc } := by
  by_cases hL : L < x.f.threads.length
  · rw [thread_begunFib_eq i x hL]
    split
    · exact ⟨_, _, _, rfl⟩
    · exact ⟨_, _, _, rfl⟩
  · have hlen : (begunFib i x).threads.length = x.f.threads.length := by
      simp [begunFib, advance, releaseLatch, Fibre.onLanes, Fibre.mapThreads]
    rw [thread_of_le (f := begunFib i x) (by omega), thread_of_le (f := x.f) (by omega)]
    exact ⟨_, _, _, rfl⟩

/-! ### Pushes of an instruction's own destinations (R46, R48) -/

/-- A fibre that is the begun one with writes of the instruction's destinations owed in its active lanes, and flags raised where it may. -/
def Pushed (i : Instr) (x : Iss) (g : Fibre) : Prop :=
  ∃ ws ps fl,
    g = { begunFib i x with pendW := x.f.pendW ++ ws, pendP := x.f.pendP ++ ps, fflags := x.f.fflags ||| fl } ∧
    (mayRaise i = false → fl = 0) ∧
    (∀ w, w ∈ ws → w.reg ∈ destRegs i ∧ w.lanes = x.act ∧ x.s.clk.cycle < w.land) ∧
    ∀ p, p ∈ ps → p.idx ∈ destPreds i ∧ p.lanes = x.act ∧ x.s.clk.cycle < p.land

section
variable {i : Instr} {x : Iss} {g : Fibre}

/-- The begun fibre owes nothing new. -/
theorem begunFib_eq_owing_nothing (i : Instr) (x : Iss) :
    begunFib i x = { begunFib i x with pendW := x.f.pendW ++ [], pendP := x.f.pendP ++ [], fflags := x.f.fflags ||| 0 } := by
  have hfl : x.f.fflags ||| 0 = x.f.fflags := BitVec.or_zero
  rw [List.append_nil, List.append_nil, hfl]
  rfl

theorem pushed_begunFib (i : Instr) (x : Iss) : Pushed i x (begunFib i x) :=
  ⟨[], [], 0, begunFib_eq_owing_nothing i x, fun _ => rfl, by simp, by simp⟩

/-- One more register write. -/
theorem Pushed.write (hg : Pushed i x g) (w : PendW) (hreg : w.reg ∈ destRegs i) (hlanes : w.lanes = x.act)
    (hland : x.s.clk.cycle < w.land) : Pushed i x { g with pendW := g.pendW ++ [w] } := by
  obtain ⟨ws, ps, fl, rfl, hfl, hws, hps⟩ := hg
  refine ⟨ws ++ [w], ps, fl, by rw [← List.append_assoc], hfl, fun v hv => ?_, hps⟩
  rcases List.mem_append.1 hv with h | h
  · exact hws v h
  · obtain rfl := List.mem_singleton.1 h
    exact ⟨hreg, hlanes, hland⟩

/-- One more predicate write. -/
theorem Pushed.writeP (hg : Pushed i x g) (p : PendP) (hidx : p.idx ∈ destPreds i) (hlanes : p.lanes = x.act)
    (hland : x.s.clk.cycle < p.land) : Pushed i x { g with pendP := g.pendP ++ [p] } := by
  obtain ⟨ws, ps, fl, rfl, hfl, hws, hps⟩ := hg
  refine ⟨ws, ps ++ [p], fl, by rw [← List.append_assoc], hfl, hws, fun v hv => ?_⟩
  rcases List.mem_append.1 hv with h | h
  · exact hps v h
  · obtain rfl := List.mem_singleton.1 h
    exact ⟨hidx, hlanes, hland⟩

theorem Pushed.pushW (hg : Pushed i x g) {reg lat : Nat} (v : VReg) (hreg : reg ≠ 255 → reg ∈ destRegs i) (hlat : 0 < lat) :
    Pushed i x (pushW x g reg lat v) := by
  unfold Machine.pushW
  split
  · exact hg
  · rename_i hwrites
    exact hg.write _ (hreg fun h255 => hwrites (.inl h255)) rfl (Nat.lt_add_of_pos_right hlat)

theorem Pushed.pushP (hg : Pushed i x g) {idx lat : Nat} (v : Nat → Bool) (hidx : idx ∈ destPreds i) (hlat : 0 < lat) :
    Pushed i x (pushP x g idx lat v) := by
  unfold Machine.pushP
  split
  · exact hg
  · exact hg.writeP _ hidx rfl (Nat.lt_add_of_pos_right hlat)

theorem Pushed.raise (hg : Pushed i x g) {fl : Word} (hfl : mayRaise i = false → fl = 0) : Pushed i x (raise g fl) := by
  obtain ⟨ws, ps, fl', rfl, hfl', hws, hps⟩ := hg
  refine ⟨ws, ps, fl' ||| (fl &&& 0x7F), ?_, fun h => ?_, hws, hps⟩
  · simp only [Machine.raise, BitVec.or_assoc]
  · rw [hfl' h, hfl h]
    rfl

theorem Pushed.pushGroup (hg : Pushed i x g) {r n lat : Nat} (val : Nat → Nat)
    (hreg : ∀ k, k < n → r + k ≠ 255 → r + k ∈ destRegs i) (hlat : 0 < lat) : Pushed i x (pushGroup x g r n lat val) := by
  have hfold : ∀ ks : List Nat, (∀ k, k ∈ ks → k < n) → ∀ g, Pushed i x g →
      Pushed i x (ks.foldl (fun f k => Machine.pushW x f (r + k) lat (outReg x .g fun L => BitVec.ofNat 64 (val L / 2 ^ (64 * k)))) g) := by
    intro ks
    induction ks with
    | nil => exact fun _ _ hg => hg
    | cons k ks ih =>
      intro hks g hg
      exact ih (fun k hk => hks k (List.mem_cons_of_mem _ hk)) _ (hg.pushW _ (hreg k (hks k List.mem_cons_self)) hlat)
  exact hfold _ (fun k hk => List.mem_range.1 hk) g hg

end

/-! ### Destinations (R46) -/

/-- A register of a use that is written is a destination. -/
theorem mem_destRegs {i : Instr} {u : RUse} {l k : Nat} (hu : u ∈ (usesOf i).regs) (hw : u.wr = some l) (hk : k < u.n)
    (h255 : u.first + k ≠ 255) : u.first + k ∈ destRegs i := by
  simp only [destRegs, Uses.writes, List.mem_map, List.mem_flatMap]
  refine ⟨(u.first + k, l), ⟨u, hu, ?_⟩, rfl⟩
  simp only [hw, RUse.list, List.mem_map, List.mem_filter, List.mem_range, bne_iff_ne]
  exact ⟨_, ⟨⟨k, hk, rfl⟩, h255⟩, rfl⟩

/-- A single register written first in the list of uses. -/
theorem head_mem_destRegs {i : Instr} {r l : Nat} {rd grp : Bool} {us : List RUse}
    (hu : (usesOf i).regs = ⟨r, 1, rd, some l, grp⟩ :: us) : r ≠ 255 → r ∈ destRegs i :=
  mem_destRegs (k := 0) (hu ▸ List.mem_cons_self) rfl Nat.one_pos

theorem usCvt_regs (d : Reg) (narrow : Bool) (src : List RUse) :
    (usCvt d narrow src).regs = ⟨d.toNat, 1, narrow, some 6, false⟩ :: src := by cases narrow <;> rfl

/-! ### Operations that raise no flag (R32) -/

theorem foldl_flags_zero {α : Type} {rs : List (α × Word)} (h : ∀ r, r ∈ rs → r.2 = 0) : rs.foldl (fun m r => m ||| r.2) 0 = 0 := by
  induction rs with
  | nil => rfl
  | cons r rs ih =>
    rw [List.foldl_cons, h r List.mem_cons_self]
    exact ih fun q hq => h q (List.mem_cons_of_mem _ hq)

theorem foldl_map_flags_zero {α β : Type} {g : β → α × Word} (hg : ∀ j, (g j).2 = 0) (js : List β) :
    (js.map g).foldl (fun m r => m ||| r.2) 0 = 0 := by
  refine foldl_flags_zero fun r hr => ?_
  obtain ⟨j, -, rfl⟩ := List.mem_map.1 hr
  exact hg j

theorem subs3_flags_zero {w : Nat} {g : Nat → Nat → Nat → Nat × Word} (hg : ∀ a b d, (g a b d).2 = 0) (a b d : Word) :
    (subs3 w g a b d).2 = 0 := foldl_map_flags_zero (fun _ => hg _ _ _) _

/-- Only a saturating result raises a flag. -/
theorem intRes_flags_zero {sat : Bool} (hs : sat = false) (t : ITy) (v : Int) : (intRes t sat v).2 = 0 := by
  subst hs
  rfl

theorem packVal_flags_zero {sat : Bool} (hs : sat = false) (t : ITy) (a b : Word) : (packVal t sat a b).2 = 0 := by
  refine foldl_flags_zero fun r hr => ?_
  rcases List.mem_append.1 hr with hr | hr
  all_goals
    obtain ⟨k, -, rfl⟩ := List.mem_map.1 hr
    exact intRes_flags_zero hs _ _

/-! ### Pair halves (R58) -/

/-- A half that writes names its destination among its uses. -/
theorem usHalf_writes {h : Half} (hop : h.op ≠ .hnop) : ∃ u l, u ∈ usHalf h ∧ u.first = h.d.toNat ∧ u.n = 1 ∧ u.wr = some l := by
  unfold usHalf
  split
  · exact absurd ‹_› hop
  all_goals exact ⟨_, _, List.mem_cons_self, rfl, rfl, rfl⟩

theorem halfRes_hnop {x : Iss} {dv : Dev} {h : Half} {t : BitVec 2} {rnd : Rnd} {ftz : Bool} (hop : h.op = .hnop) :
    halfRes x dv h t rnd ftz = none := by
  simp only [halfRes, hop]

theorem halfLat_pos (h : Half) : 0 < halfLat h := by
  unfold halfLat
  split <;> decide

theorem Pushed.putHalf {i : Instr} {x : Iss} {g : Fibre} (hg : Pushed i x g) {h : Half} (dv : Dev) (t : BitVec 2) (rnd : Rnd) (ftz : Bool)
    (hu : ∀ u, u ∈ usHalf h → u ∈ (usesOf i).regs) (hr : mayRaise i = true) :
    Pushed i x (putHalf x g h (halfRes x dv h t rnd ftz)) := by
  by_cases hop : h.op = .hnop
  · rw [halfRes_hnop hop]
    exact hg
  · obtain ⟨u, l, hmem, hfirst, hn, hw⟩ := usHalf_writes hop
    have hd : h.d.toNat ≠ 255 → h.d.toNat ∈ destRegs i := fun h255 => by
      have := mem_destRegs (k := 0) (hu u hmem) hw (by omega) (by omega)
      rwa [Nat.add_zero, hfirst] at this
    cases halfRes x dv h t rnd ftz with
    | none => exact hg
    | some r => exact (hg.pushW _ hd (halfLat_pos h)).raise fun hno => absurd (hr.symm.trans hno) (by decide)

/-! ### From a body's device to the frame -/

/-- An outcome of the instruction completes it within its frame. -/
def HasFrame (o : Host.Outcome State Fault Refusal) (i : Instr) (s : State) (x : Iss) : Prop := ∃ t, o = .next t ∧ OnlyDests i s x t

theorem setFibre_setFibre {d : Dev} {f g : Fibre} (h : f.uid = g.uid) : (d.setFibre f).setFibre g = d.setFibre g := by
  simp only [Dev.setFibre, List.map_map, Dev.mk.injEq, and_true, true_and]
  refine List.map_congr_left fun a _ => ?_
  by_cases ha : a.uid = g.uid
  · simp [h, ha]
  · simp [h, ha]

/-- Another fibre in the place of the begun one. -/
theorem begun_setFibre (i : Instr) (x : Iss) {g : Fibre} (hg : g.uid = x.f.uid) :
    (begun i x).setFibre g = emitTrace (x.s.dev.setFibre g) (if x.h.tm then markRecs x 1 x.c.lanes 0 0 else []) := by
  rw [begun_eq_emit, ← setFibre_setFibre (d := x.s.dev) (f := begunFib i x) (g := g) hg.symm]
  rfl

theorem begun_setFibre_self (i : Instr) (x : Iss) : (begun i x).setFibre (begunFib i x) = begun i x := by
  rw [begun_setFibre i x (begunFib_uid i x), begun_eq_emit]

/-- The flight of a result that is fixed at issue. -/
def resultFlight (x : Iss) (id : Nat) (uni keep : Bool) (dst : List Nat) (flags : Word) (val : Nat → List Word) : Flight :=
  { mkFlight x (.result uni keep) (x.lanes.map fun L => laneOps L (val L)) dst none with flags := flags, id := id }

/-- It touches no memory, so that it orders nothing. -/
theorem sendResult_eq {x : Iss} {d : Dev} {uni keep : Bool} {dst : List Nat} {flags : Word} {val : Nat → List Word} (ha : x.act ≠ 0) :
    sendResult x d uni keep dst flags val =
      { d with nextId := d.nextId + 1, flights := d.flights ++ [resultFlight x d.nextId uni keep dst flags val] } := by
  have hmem : (resultFlight x 0 uni keep dst flags val).isMem = false := by simp [Flight.isMem, resultFlight, mkFlight, laneOps]
  rw [sendResult, if_neg ha]
  change addFlight d (resultFlight x 0 uni keep dst flags val) = _
  simp only [addFlight, hmem, Bool.false_and, Bool.false_eq_true, if_false, List.append_nil]
  rfl

section
variable {i : Instr} {h : Hdr} {s : State} {x : Iss} (hh : hdrOf i = some h) (hx : issue? i s = some x)
include hh hx

/-- A body that ends in pushes on the issuing fibre. -/
theorem hasFrame_of_pushed {b : Body} {g : Fibre} (hb : b x (begun i x) = some (.done ((begun i x).setFibre g))) (hg : Pushed i x g) :
    HasFrame (issueOn i h s b) i s x := by
  refine ⟨_, issueOn_answers hh hx hb, ?_⟩
  obtain ⟨ws, ps, fl, hg, hfl, hws, hps⟩ := hg
  have huid : g.uid = x.f.uid := by rw [hg]; rfl
  rw [issue?_s hx] at hws hps
  refine ⟨ws, ps, fl, [], if x.h.tm then markRecs x 1 x.c.lanes 0 0 else [], s.dev.nextId, ?_, hfl, hws, hps, by simp⟩
  rw [begun_setFibre i x huid, issue?_s hx, List.append_nil, hg]
  rfl

/-- A body that sends a result of the active lanes on its way. -/
theorem hasFrame_of_result {b : Body} {uni keep : Bool} {dst : List Nat} {flags : Word} {val : Nat → List Word}
    (hb : b x (begun i x) = some (.done (sendResult x (begun i x) uni keep dst flags val)))
    (hdst : ∀ r, r ∈ dst → r ≠ 255 → r ∈ destRegs i) (hfl : mayRaise i = false → flags = 0) :
    HasFrame (issueOn i h s b) i s x := by
  refine ⟨_, issueOn_answers hh hx hb, ?_⟩
  by_cases ha : x.act = 0
  · refine ⟨[], [], 0, [], if x.h.tm then markRecs x 1 x.c.lanes 0 0 else [], s.dev.nextId, ?_, fun _ => rfl, by simp, by simp,
      by simp⟩
    rw [sendResult, if_pos ha, ← begunFib_eq_owing_nothing, begun_eq_emit, issue?_s hx, List.append_nil]
    rfl
  · refine ⟨[], [], 0, [resultFlight x s.dev.nextId uni keep dst flags val], if x.h.tm then markRecs x 1 x.c.lanes 0 0 else [],
      s.dev.nextId + 1, ?_, fun _ => rfl, by simp, by simp, fun g hg => ?_⟩
    · rw [sendResult_eq ha, ← begunFib_eq_owing_nothing, begun_eq_emit, issue?_s hx]
      rfl
    · obtain rfl := List.mem_singleton.1 hg
      refine ⟨rfl, fun r hr => ?_, by simp [resultFlight, mkFlight], fun a ha => ?_, rfl, hfl⟩
      · obtain ⟨hr, hne⟩ := List.mem_filter.1 hr
        exact hdst r hr (by simpa using hne)
      · obtain ⟨L, hL, rfl⟩ := List.mem_map.1 ha
        exact mem_lanes.1 hL

/-- A body with one register result, its destination first among the instruction's uses. -/
theorem hasFrame_vecBody {d : Reg} {lat l : Nat} {rd grp : Bool} {us : List RUse} {sh : Iss → Dev → Sh}
    {val : Iss → Dev → Nat → Word × Word} (hu : (usesOf i).regs = ⟨d.toNat, 1, rd, some l, grp⟩ :: us) (hlat : 0 < lat)
    (hfl : mayRaise i = false → ∀ L, (val x (begun i x) L).2 = 0) :
    HasFrame (issueOn i h s (vecBody d lat sh val)) i s x := by
  refine hasFrame_of_pushed hh hx rfl ?_
  rw [fib_begun hx]
  refine ((pushed_begunFib i x).pushW _ (head_mem_destRegs hu) hlat).raise fun hr => ?_
  simp only [hfl hr, laneFlags_zero]

/-- A body with one predicate result. -/
theorem hasFrame_predBody {p : PredIdx} {lat : Nat} {val : Iss → Dev → Nat → Bool × Word} (hp : p.toNat ∈ destPreds i) (hlat : 0 < lat)
    (hfl : mayRaise i = false → ∀ L, (val x (begun i x) L).2 = 0) : HasFrame (issueOn i h s (predBody p lat val)) i s x := by
  refine hasFrame_of_pushed hh hx rfl ?_
  rw [fib_begun hx]
  refine ((pushed_begunFib i x).pushP _ hp hlat).raise fun hr => ?_
  simp only [hfl hr, laneFlags_zero]

/-- A compare into either kind of destination. -/
theorem hasFrame_cmpBody {d : CmpDst} {w lat : Nat} {us : Iss → Dev → Bool} {val : Iss → Dev → Nat → Word × Word}
    {c : Nat → Nat → Bool × Word} {rs : List RUse} (hu : usesOf i = usCmp d lat rs) (hlat : 0 < lat)
    (hfl : mayRaise i = false → ∀ a b, (c a b).2 = 0) : HasFrame (issueOn i h s (cmpBody d w lat us val c)) i s x := by
  cases d with
  | pred p any =>
    refine hasFrame_predBody hh hx ?_ hlat fun hr _ => foldl_map_flags_zero (fun _ => hfl hr _ _) _
    rw [destPreds, hu]
    exact List.mem_cons_self
  | vec d =>
    have hd : (usesOf i).regs = wr1 d lat :: rs := by rw [hu]; rfl
    exact hasFrame_vecBody hh hx hd hlat fun hr _ => foldl_map_flags_zero (fun _ => hfl hr _ _) _

/-- A float result that returns later, with its flags (R46). -/
theorem hasFrame_fltLate {t : FTy} {d : Reg} {l : Nat} {rd grp : Bool} {us : List RUse} {a b : FSrc} {g : Nat → Nat → Nat × Word}
    (hu : (usesOf i).regs = ⟨d.toNat, 1, rd, some l, grp⟩ :: us) (hr : mayRaise i = true) :
    HasFrame (issueOn i h s (fltLate t d a b g)) i s x := by
  refine hasFrame_of_result hh hx rfl (fun r hmem hne => ?_) fun hno => absurd (hr.symm.trans hno) (by decide)
  obtain rfl := List.mem_singleton.1 hmem
  exact head_mem_destRegs hu hne

end

/-- A body with one result in flight, which raises no flag. -/
theorem hasFrame_ifActive_result {i : Instr} {h : Hdr} {s : State} {x : Iss} (hh : hdrOf i = some h) (hx : issue? i s = some x) {d : Reg}
    {l : Nat} {rd grp : Bool} {us : List RUse} {val : Iss → Dev → Nat → List Word}
    (hu : (usesOf i).regs = ⟨d.toNat, 1, rd, some l, grp⟩ :: us) :
    HasFrame (issueOn i h s (ifActive fun x dv => some (.done (sendResult x dv true true [d.toNat] 0 (val x dv))))) i s x := by
  have hb : ifActive (fun x dv => some (.done (sendResult x dv true true [d.toNat] 0 (val x dv)))) x (begun i x) =
      some (.done (sendResult x (begun i x) true true [d.toNat] 0 (val x (begun i x)))) := by
    unfold ifActive
    split
    · rename_i ha
      rw [sendResult, if_pos ha]
    · rfl
  refine hasFrame_of_result hh hx hb (fun r hmem hne => ?_) fun _ => rfl
  obtain rfl := List.mem_singleton.1 hmem
  exact head_mem_destRegs hu hne

/-! ### The register instructions -/

/-- EVERY REGISTER INSTRUCTION HAS ITS FRAME. The arms differ in how many results they have and in why they raise no flag. -/
theorem registerOnly_hasFrame {i : Instr} {s : State} {x : Iss} (hreg : registerOnly i = true) (hx : issue? i s = some x) :
    HasFrame (exec i s) i s x := by
  cases i with
  | nop =>
    dsimp only [exec]
    exact hasFrame_of_pushed rfl hx (by rw [begun_setFibre_self]) (pushed_begunFib _ x)
  | iadd | isub | imul | imad | ineg | iabs =>
    dsimp only [exec]
    exact hasFrame_vecBody rfl hx rfl (by decide) fun hr _ => subs3_flags_zero (fun _ _ _ => intRes_flags_zero hr _ _) _ _ _
  | pack =>
    dsimp only [exec]
    exact hasFrame_vecBody rfl hx rfl (by decide) fun hr _ => packVal_flags_zero hr _ _ _
  | imulh | imin | imax | shl | shr | sar | rot | bfe | bfi | popc | clz | ctz | brev | fclass =>
    dsimp only [exec]
    exact hasFrame_vecBody rfl hx rfl (by decide) fun _ _ => subs3_flags_zero (fun _ _ _ => rfl) _ _ _
  | and | or | xor | not | lea | mov | movi | unpkLo | unpkHi | isel | bmix | p2v | p2vAll | voteMask | matchAny | shpget | lpull | rnd
  | rndF32 | rndF64 =>
    dsimp only [exec]
    exact hasFrame_vecBody rfl hx rfl (by decide) fun _ _ => rfl
  | idiv | irem | fadd | fsub | fmul | ffma | fmin | fmax | frnd | frndX | fdot2 | fscale | lred | lscan =>
    dsimp only [exec]
    exact hasFrame_vecBody rfl hx rfl (by decide) fun hr => nomatch hr
  | fcvt | f2i | i2f =>
    dsimp only [exec]
    exact hasFrame_vecBody rfl hx (usCvt_regs _ _ _) (by decide) fun hr => nomatch hr
  | voteAny | voteAll | matchAll | v2p | plop =>
    dsimp only [exec]
    exact hasFrame_predBody rfl hx List.mem_cons_self (by decide) fun _ _ => rfl
  | icmp =>
    dsimp only [exec]
    exact hasFrame_cmpBody rfl hx rfl (by decide) fun _ _ _ => rfl
  | fcmp =>
    dsimp only [exec]
    exact hasFrame_cmpBody rfl hx rfl (by decide) fun hr => nomatch hr
  | fdiv | fsqrt | frcp | frsq | fexp2 | flog2 | fsin | fcos =>
    dsimp only [exec]
    exact hasFrame_fltLate rfl hx rfl rfl
  | fstat | barqSt =>
    dsimp only [exec]
    exact hasFrame_ifActive_result rfl hx rfl
  | iaddc =>
    dsimp only [exec]
    refine hasFrame_of_pushed rfl hx rfl ?_
    rw [fib_begun hx]
    exact ((pushed_begunFib _ x).pushW _ (head_mem_destRegs rfl) (by decide)).pushP _ List.mem_cons_self (by decide)
  | pair h o =>
    dsimp only [exec]
    refine hasFrame_of_pushed rfl hx rfl ?_
    rw [fib_begun hx]
    have hfirst := (pushed_begunFib (.pair h o) x).putHalf (begun (.pair h o) x) o.t0 o.rnd o.ftz (fun _ => List.mem_append_left _) rfl
    exact hfirst.putHalf _ _ _ _ (fun _ => List.mem_append_right _) rfl
  | qnt h t rnd ftz d a =>
    dsimp only [exec]
    refine hasFrame_of_pushed rfl hx rfl ?_
    rw [fib_begun hx]
    have hgroup := fun k => mem_destRegs (k := k) (i := .qnt h t rnd ftz d a) (u := (wrG d t.regs 8).group) List.mem_cons_self rfl
    exact ((pushed_begunFib _ x).pushGroup _ hgroup (by decide)).raise fun hr => nomatch hr
  | dqnt h t rnd ftz d a =>
    dsimp only [exec]
    refine hasFrame_of_pushed rfl hx rfl ?_
    rw [fib_begun hx]
    exact (pushed_begunFib _ x).pushGroup _ (fun _ => mem_destRegs (u := wrG d 8 8) List.mem_cons_self rfl) (by decide)
  | _ => exact absurd hreg Bool.false_ne_true

/-- Settles O57: a register instruction's body is a chain of pushes of its destinations or one result in flight; every instruction with a
header is issued by `issueWith`, whose outcome is a device put into the state. -/
theorem framesOfInstructions : Obligations.FramesOfInstructions :=
  ⟨⟨fun _ _ _ hreg hx => registerOnly_hasFrame hreg hx, fun i x => ⟨rfl, thread_begunFib_frame i x⟩⟩,
    fun _ _ s hh => exec_next hh s⟩

end Sys2Proof.Machine
end

section
/-!
PROOF of `StreamsComputedRegistersAndShapes`. The body of each stream instruction is taken branch by branch on the begun device, which holds
the streams of the one before it. A computed access names the registers of its active lanes' indices; where the index counts as U they are one
register, so that a result of that register's shape gives every lane its own value (R55, R80). `narrowU` and `narrowA` give a new shape only
where it fits the live lanes' values, and the affine run through two lanes is unique (R82).
-/

namespace Sys2Proof.Machine

/-! ### The begun device -/

theorem begun_flights (i : Instr) (x : Iss) : (begun i x).flights = x.s.dev.flights := by
  obtain ⟨rs, h⟩ := begun_eq i x; rw [h]; rfl

theorem begun_builds (i : Instr) (x : Iss) : (begun i x).builds = x.s.dev.builds := by
  obtain ⟨rs, h⟩ := begun_eq i x; rw [h]; rfl

theorem begun_waiters (i : Instr) (x : Iss) : (begun i x).waiters = x.s.dev.waiters := by
  obtain ⟨rs, h⟩ := begun_eq i x; rw [h]; rfl

theorem begun_mark (i : Instr) (x : Iss) : (begun i x).mark = x.s.dev.mark := by
  obtain ⟨rs, h⟩ := begun_eq i x; rw [h]; rfl

theorem regPending_begun (i : Instr) (x : Iss) (r : Nat) :
    regPending (begun i x) (begunFib i x) r = regPending x.s.dev x.f r := by
  simp only [regPending, begun_flights, begun_builds, begun_waiters, begun_mark, begunFib_uid]

theorem regOwed_begun (i : Instr) (x : Iss) (m : LaneMask) (r : Nat) :
    regOwed (begun i x) (begunFib i x) m r = regOwed x.s.dev x.f m r := by
  simp only [regOwed, begun_flights, begun_builds, begun_waiters, begunFib_uid]

theorem wawReg_begun (i : Instr) (x : Iss) (m : LaneMask) (cycle r lat : Nat) :
    wawReg (begunFib i x) m cycle r lat = wawReg x.f m cycle r lat := rfl

theorem riVal_begun (i : Instr) (x : Iss) (L : Nat) (b : RegImm) :
    riVal (begun i x) (begunFib i x) L b = riVal x.s.dev x.f L b := by
  cases b <;> simp [riVal, regLane_begun]

theorem openStream_begun (i : Instr) (x : Iss) (n : Nat) : (begunFib i x).openStream n = x.f.openStream n := rfl

/-- The mask of a mask's own lanes. -/
theorem ofLanes_lanes (m : LaneMask) : LaneMask.ofLanes m.lanes = m := by
  refine BitVec.eq_of_getLsbD_eq fun L hL => ?_
  have h := has_ofLanes m.lanes L
  simpa [LaneMask.has, mem_lanes, hL] using h

/-- A mask that holds a lane has some. -/
theorem lanes_ne_nil {m : LaneMask} (h : m ≠ 0) : m.lanes ≠ [] := by
  intro hnil
  exact h ((ofLanes_lanes m).symm.trans (by rw [hnil]; rfl))

theorem ne_zero_of_has {m : LaneMask} {L : Nat} (h : m.has L = true) : m ≠ 0 := by
  rintro rfl
  simp [LaneMask.has] at h

/-- A mask that holds no lane. -/
theorem eq_zero_of_has {m : LaneMask} (h : ∀ L, m.has L = false) : m = 0 :=
  BitVec.eq_of_getLsbD_eq fun L _ => by simpa [LaneMask.has] using h L

/-! ### Streams (R183 to R185) -/

section
variable {i : Instr} {h : Hdr} {s : State} {x : Iss} (hh : hdrOf i = some h) (hx : issue? i s = some x)
include hh hx

/-- `sopen` of a description that R183 forbids. -/
theorem sopen_illegal {write : Bool} {n : Nat} {a : Reg} (he : exec i s = issueOn i h s (sopenBody write n a)) (ha : x.act ≠ 0)
    (hdesc : streamDesc (begun i x) (begunFib i x) write a.toNat x.act = none) :
    exec i s = .next (finish x (.trap x.s.dev ⟨2, 0, 0, x.act, 0⟩)) := by
  refine active_traps hh hx he ha ?_
  simp only [fib_begun hx, hdesc, illegal_active ha]

/-- `sopen` of a legal one, over no stream, a read stream or a write stream that has nothing more to write. -/
theorem sopen_opens {write : Bool} {n : Nat} {a : Reg} (he : exec i s = issueOn i h s (sopenBody write n a)) (ha : x.act ≠ 0) {st : Stream}
    (hdesc : streamDesc (begun i x) (begunFib i x) write a.toNat x.act = some st)
    (hold : x.f.stream n = none ∨ (∃ old, x.f.stream n = some old ∧ (old.write = false ∨
      (old.stop = none ∧ old.closing = false ∧ old.fifo = [])))) :
    Answers i s (openStream (begun i x) x.f.uid n st) := by
  have hstream : (begunFib i x).stream n = x.f.stream n := rfl
  refine active_answers hh hx he ha ?_
  simp only [fib_begun hx, hdesc, hstream, begunFib_uid]
  obtain hnone | ⟨old, hsome, hread | ⟨hstop, hopen, hempty⟩⟩ := hold
  · simp only [hnone]
  · simp only [hsome, writeStop, hread, Bool.false_and, Bool.false_eq_true, if_false]
  · simp only [hsome, writeStop, hstop, hopen, hempty]
    cases old.write <;> rfl


/-- `snext` on no open read stream is illegal (assumption 53). -/
theorem snext_illegal {r : Reg} {n : BitVec 3} (hi : i = .snext h r n) (ha : x.act ≠ 0)
    (hno : ∀ st, x.f.openStream n.toNat = some st → st.write = true) :
    exec i s = .next (finish x (.trap x.s.dev ⟨2, 0, 0, x.act, 0⟩)) := by
  subst hi
  refine active_traps hh hx rfl ha ?_
  simp only [fib_begun hx, openStream_begun, illegal_active ha]
  cases hst : x.f.openStream n.toNat with
  | none => rfl
  | some st => simp only [hno st hst, if_true]

/-- `snext` with its elements there hands one to each active lane below the count, by rank (R184). -/
theorem snext_hands {r : Reg} {n : BitVec 3} (hi : i = .snext h r n) (ha : x.act ≠ 0) {st : Stream}
    (hst : x.f.openStream n.toNat = some st) (hread : st.write = false)
    (hneed : min x.act.lanes.length (st.count - st.pos) ≤ st.fifo.length) :
    Answers i s (addFlight
      (setStream (begun i x) x.f.uid n.toNat (some { st with
        fifo := st.fifo.drop (min x.act.lanes.length (st.count - st.pos))
        pos := st.pos + min x.act.lanes.length (st.count - st.pos) }))
      { mkFlight x (.result false false) (x.act.lanes.map fun L => laneOps L [st.fifo.getD (rankIn x.act.lanes L) 0]) [r.toNat] none with
        full := x.act == x.f.live }) := by
  subst hi
  refine active_answers hh hx rfl ha ?_
  have hne : x.act.lanes.isEmpty = false := by simpa using lanes_ne_nil ha
  simp only [fib_begun hx, openStream_begun, hst, hread, Bool.false_eq_true, if_false, Iss.lanes, Nat.min_eq_left hneed, if_true, hne,
    ofLanes_lanes]

/-- `stest` tells the active lanes that lie past the count. -/
theorem stest_tells {p : PredIdx} {n : BitVec 3} (hi : i = .stest h p n) :
    Answers i s (if x.act = 0 then begun i x else sendPred x (begun i x) p fun L => match x.f.openStream n.toNat with
      | none => true
      | some st => decide (st.count ≤ st.pos + rankIn x.act.lanes L)) := by
  subst hi
  refine guarded_answers hh hx rfl ?_
  simp only [fib_begun hx, openStream_begun, Iss.lanes]
  rfl

/-- `sput` on no open write stream is illegal. -/
theorem sput_illegal {n : BitVec 3} {a : Reg} (hi : i = .sput h n a) (ha : x.act ≠ 0)
    (hno : ∀ st, x.f.openStream n.toNat = some st → st.write = false) :
    exec i s = .next (finish x (.trap x.s.dev ⟨2, 0, 0, x.act, 0⟩)) := by
  subst hi
  refine active_traps hh hx rfl ha ?_
  simp only [fib_begun hx, openStream_begun, illegal_active ha]
  cases hst : x.f.openStream n.toNat with
  | none => rfl
  | some st => simp only [hno st hst, Bool.not_false, if_true]

/-- `sput` with room takes the low bytes of the values of the first active lanes (R184). -/
theorem sput_takes {n : BitVec 3} {a : Reg} (hi : i = .sput h n a) (ha : x.act ≠ 0) {st : Stream}
    (hst : x.f.openStream n.toNat = some st) (hwrite : st.write = true) (hstop : st.stop = none)
    (hroom : st.fifo.length + min x.act.lanes.length (st.count - st.pos) ≤ 64) :
    Answers i s (setStream (begun i x) x.f.uid n.toNat (some (st.put (begun i x) x.f.uid x.act
      ((x.act.lanes.take (min x.act.lanes.length (st.count - st.pos))).map fun L =>
        BitVec.ofNat 64 ((inReg x a L).toNat % 2 ^ (8 * st.bytes))) (min x.act.lanes.length (st.count - st.pos))))) := by
  subst hi
  refine active_answers hh hx rfl ha ?_
  simp only [fib_begun hx, openStream_begun, hst, hwrite, Bool.not_true, Bool.false_eq_true, if_false, writeStop, hstop, Iss.lanes,
    Nat.not_lt.2 hroom, begunFib_uid, regLane_begun, inReg]

/-- `sclose` with no open stream has nothing to close. -/
theorem sclose_nothing {p : PredIdx} {n : BitVec 3} (hi : i = .sclose h p n) (ha : x.act ≠ 0) (hst : x.f.openStream n.toNat = none) :
    Answers i s (sendPred x (begun i x) p fun _ => true) := by
  subst hi
  refine active_answers hh hx rfl ha ?_
  simp only [fib_begun hx, openStream_begun, hst]

/-- `sclose` of a read stream closes it at once. -/
theorem sclose_read {p : PredIdx} {n : BitVec 3} (hi : i = .sclose h p n) (ha : x.act ≠ 0) {st : Stream}
    (hst : x.f.openStream n.toNat = some st) (hread : st.write = false) :
    Answers i s (sendPred x (setStream (begun i x) x.f.uid n.toNat none) p fun _ => true) := by
  subst hi
  refine active_answers hh hx rfl ha ?_
  simp only [fib_begun hx, openStream_begun, hst, hread, Bool.not_false, if_true]

/-- `sclose` of a write stream completes with its drain. -/
theorem sclose_drains {p : PredIdx} {n : BitVec 3} (hi : i = .sclose h p n) (ha : x.act ≠ 0) {st : Stream}
    (hst : x.f.openStream n.toNat = some st) (hwrite : st.write = true) (hstop : st.stop = none) :
    Answers i s (addFlight (setStream (begun i x) x.f.uid n.toNat (some { st with closing := true }))
      (mkFlight x (.drain n.toNat) (x.act.lanes.map fun L => laneOps L []) [] (if p.toNat < 24 then some p.toNat else none))) := by
  subst hi
  refine active_answers hh hx rfl ha ?_
  simp only [fib_begun hx, openStream_begun, hst, hwrite, Bool.not_true, Bool.false_eq_true, if_false, writeStop, hstop, Iss.lanes]

end

/-! ### Computed registers (R78 to R80) -/

theorem mem_dedupNat {xs : List Nat} {n : Nat} : n ∈ dedupNat xs ↔ n ∈ xs := by
  have key : ∀ (xs acc : List Nat), n ∈ xs.foldl (fun acc x => if acc.contains x then acc else acc ++ [x]) acc ↔ n ∈ acc ∨ n ∈ xs := by
    intro xs
    induction xs with
    | nil => simp
    | cons y ys ih =>
      intro acc
      rw [List.foldl_cons, ih]
      by_cases hy : y ∈ acc
      · simp only [List.contains_iff_mem.2 hy, if_true, List.mem_cons]
        grind
      · simp only [List.contains_eq_mem, hy, decide_false, Bool.false_eq_true, if_false, List.mem_append, List.mem_cons]
        grind
  exact (key xs []).trans (by simp)

theorem raise_zero (f : Fibre) : raise f 0 = f := by
  have hor : f.fflags ||| (0 &&& 0x7F : Word) = f.fflags := by simp
  simp only [raise, hor]

/-- Registers are read from the fibre and its slot group alone. -/
theorem regOf_congr {d e : Dev} (h : d.groups = e.groups) (f : Fibre) (r : Nat) : regOf d f r = regOf e f r := by
  simp only [regOf, Dev.group, h]

theorem riVal_congr {d e : Dev} (h : d.groups = e.groups) (f : Fibre) (L : Nat) (b : RegImm) : riVal d f L b = riVal e f L b := by
  cases b <;> simp only [riVal, regLane, regOf_congr h]

/-- An index that counts as U is one in all lanes. -/
theorem riVal_of_riU {d : Dev} {f : Fibre} {b : RegImm} (h : riU d f b = true) (L M : Nat) : riVal d f L b = riVal d f M b := by
  cases b with
  | imm v => rfl
  | reg r =>
    simp only [riU, beq_iff_eq] at h
    exact regLane_of_plainU (by rw [h]; rfl) L M

/-- The lanes whose index lies outside the allocation (R79). -/
def badIndex (x : Iss) (ix : RegImm) : LaneMask :=
  lanesWhere fun L => x.act.has L && decide (min x.f.nAlloc 255 ≤ (riVal x.s.dev x.f L ix).toNat)

/-- The registers that the active lanes name. -/
def namedRegs (x : Iss) (ix : RegImm) : List Nat := dedupNat (x.act.lanes.map fun L => (riVal x.s.dev x.f L ix).toNat)

theorem mem_namedRegs {x : Iss} {ix : RegImm} {r : Nat} :
    r ∈ namedRegs x ix ↔ ∃ L, x.act.has L = true ∧ (riVal x.s.dev x.f L ix).toNat = r := by
  simp [namedRegs, mem_dedupNat, mem_lanes]

theorem act_of_badIndex {x : Iss} {ix : RegImm} (hbad : badIndex x ix ≠ 0) : x.act ≠ 0 := fun ha =>
  hbad (eq_zero_of_has fun L => by rw [badIndex, has_lanesWhere, ha]; simp [LaneMask.has])

/-- The first register named is one that every lane names where the index counts as U. -/
theorem headD_namedRegs {x : Iss} {ix : RegImm} (ha : x.act ≠ 0) (hu : riU x.s.dev x.f ix = true) (L : Nat) :
    (namedRegs x ix).headD 255 = (riVal x.s.dev x.f L ix).toNat := by
  cases hn : namedRegs x ix with
  | nil =>
    obtain ⟨M, Ms, hl⟩ := List.exists_cons_of_ne_nil (lanes_ne_nil ha)
    have hM : M ∈ x.act.lanes := by rw [hl]; exact List.mem_cons_self
    have hr := (mem_namedRegs (ix := ix)).2 ⟨M, mem_lanes.1 hM, rfl⟩
    rw [hn] at hr
    cases hr
  | cons r rs =>
    obtain ⟨M, -, hM⟩ := mem_namedRegs.1 (show r ∈ namedRegs x ix by rw [hn]; exact List.mem_cons_self)
    rw [List.headD_cons, ← hM, riVal_of_riU hu M L]

theorem rxIdx_begun (i : Instr) (x : Iss) (ix : RegImm) (L : Nat) :
    rxIdx (begun i x) (begunFib i x) ix L = (riVal x.s.dev x.f L ix).toNat := by
  rw [rxIdx, riVal_begun]

theorem rxNamed_begun (i : Instr) (x : Iss) (ix : RegImm) : rxNamed (begun i x) (begunFib i x) ix x.act = namedRegs x ix := by
  have hidx : rxIdx (begun i x) (begunFib i x) ix = fun L => (riVal x.s.dev x.f L ix).toNat := funext fun L => rxIdx_begun i x ix L
  rw [rxNamed, hidx, namedRegs]

theorem riU_begun (i : Instr) (x : Iss) (b : RegImm) : riU (begun i x) (begunFib i x) b = riU x.s.dev x.f b := by
  cases b <;> simp [riU, plainShape_begun]

section
variable {i : Instr} {s : State} {x : Iss} (hx : issue? i s = some x)
include hx

theorem rxBad_begun (ix : RegImm) : rxBad x (begun i x) ix = badIndex x ix := by
  simp only [rxBad, fib_begun hx, rxIdx_begun, badIndex]

/-- The register that a computed read takes, when its index counts as U, gives every active lane its own. -/
theorem laneVal_rxld {ix : RegImm} (ha : x.act ≠ 0) {L : Nat} (hL : x.act.has L = true) :
    laneVal x.f (outReg x (if riU x.s.dev x.f ix && x.full then Sh.ofReg (regOf x.s.dev x.f ((namedRegs x ix).headD 255)) else .g)
      fun L => regLane x.s.dev x.f (riVal x.s.dev x.f L ix).toNat L) L = regLane x.s.dev x.f (riVal x.s.dev x.f L ix).toNat L := by
  split
  · rename_i hu
    have hhead := headD_namedRegs ha (Bool.and_eq_true_iff.1 hu).1
    refine laneVal_outReg hx (fun hsh M N _ _ => ?_) (fun b st hsh M _ => ?_) hL
    · rw [← hhead M, ← hhead N]
      cases hr : regOf x.s.dev x.f ((namedRegs x ix).headD 255) with
      | u y => rw [regLane_of_u hr, regLane_of_u hr]
      | a b st => rw [hr] at hsh; cases hsh
      | g vs => rw [hr] at hsh; cases hsh
    · rw [← hhead M]
      cases hr : regOf x.s.dev x.f ((namedRegs x ix).headD 255) with
      | u y => rw [hr] at hsh; cases hsh
      | a b st => rw [hr] at hsh; cases hsh; simp only [regLane, hr, laneVal]
      | g vs => rw [hr] at hsh; cases hsh
  · exact laneVal_outReg_g hx _ hL

/-- `rxld` of registers in range, none of them pending. -/
theorem rxld_lands {h : Hdr} {r : Reg} {ix : RegImm} (hi : i = .rxld h r ix) (ha : x.act ≠ 0) (hbad : badIndex x ix = 0)
    (hchk : x.f.chk = false)
    (hready : ∀ L, x.act.has L = true → regPending x.s.dev x.f (riVal x.s.dev x.f L ix).toNat = false) :
    Lands i s x r.toNat 6 (outReg x
      (if riU x.s.dev x.f ix && x.full then Sh.ofReg (regOf x.s.dev x.f ((namedRegs x ix).headD 255)) else .g)
      fun L => regLane x.s.dev x.f (riVal x.s.dev x.f L ix).toNat L) 0 := by
  subst hi
  have hany : (namedRegs x ix).any (regPending (begun (.rxld h r ix) x) (begunFib (.rxld h r ix) x)) = false := by
    rw [List.any_eq_false]
    intro q hq
    obtain ⟨L, hL, rfl⟩ := mem_namedRegs.1 hq
    rw [regPending_begun, hready L hL]
    exact Bool.false_ne_true
  refine active_answers rfl hx rfl ha ?_
  simp only [rxBad_begun hx, hbad, ne_eq, not_true, if_false, fib_begun hx, rxNamed_begun, hany, Bool.false_eq_true, begunFib_chk, hchk,
    raise_zero, riU_begun, regOf_begun, regLane_begun, rxIdx_begun]

/-- `rxld` of an index out of range in an active lane is a register-bound fault of those lanes (R79). -/
theorem rxld_outOfRange {h : Hdr} {r : Reg} {ix : RegImm} (hi : i = .rxld h r ix) (hbad : badIndex x ix ≠ 0) :
    exec i s = .next (finish x (.trap x.s.dev ⟨3, 0, 0, badIndex x ix, 0⟩)) := by
  subst hi
  refine active_traps rfl hx rfl (act_of_badIndex hbad) ?_
  simp only [rxBad_begun hx, ne_eq, hbad, not_false_eq_true, if_true, Iss.pre]

/-- The same for `rxst`. -/
theorem rxst_outOfRange {h : Hdr} {b : Reg} {ix : RegImm} (hi : i = .rxst h ix b) (hbad : badIndex x ix ≠ 0) :
    exec i s = .next (finish x (.trap x.s.dev ⟨3, 0, 0, badIndex x ix, 0⟩)) := by
  subst hi
  refine active_traps rfl hx rfl (act_of_badIndex hbad) ?_
  simp only [rxBad_begun hx, ne_eq, hbad, not_false_eq_true, if_true, Iss.pre]

end

/-- The value that `rxst` sends, with the shape it had where every lane writes one register. -/
def rxstVal (x : Iss) (ix : RegImm) (b : Reg) : VReg :=
  if riU x.s.dev x.f ix && x.full then regOf x.s.dev x.f b.toNat else .g ((List.range x.f.width).map fun L => inReg x b L)

/-- It gives every active lane the source as the instruction finds it. -/
theorem laneVal_rxstVal {i : Instr} {s : State} {x : Iss} (hx : issue? i s = some x) (ix : RegImm) (b : Reg) {L : Nat}
    (hL : x.act.has L = true) : laneVal x.f (rxstVal x ix b) L = inReg x b L := by
  unfold rxstVal
  split
  · rfl
  · obtain ⟨hw, hl⟩ := active_live hx hL
    simp [laneVal, hl, hw]

/-- Flights sent one after the other, each made from the slot groups alone. -/
theorem foldl_addFlight_congr {F : Dev → Nat → Flight} {G : Nat → Flight} {gs : List Group}
    (hF : ∀ d r, d.groups = gs → F d r = G r) (rs : List Nat) {d : Dev} (hd : d.groups = gs) :
    rs.foldl (fun d r => addFlight d (F d r)) d = rs.foldl (fun d r => addFlight d (G r)) d := by
  induction rs generalizing d with
  | nil => rfl
  | cons r rs ih =>
    rw [List.foldl_cons, List.foldl_cons, hF d r hd]
    exact ih hd

/-- `rxst` into registers in range, none of them owed, sends a write of every register that some lane names (R80). -/
theorem rxst_sends {i : Instr} {s : State} {x : Iss} (hx : issue? i s = some x) {h : Hdr} {ix : RegImm} {b : Reg}
    (hi : i = .rxst h ix b) (ha : x.act ≠ 0) (hbad : badIndex x ix = 0)
    (hfree : ∀ L, x.act.has L = true → regOwed x.s.dev x.f x.c.lanes (riVal x.s.dev x.f L ix).toNat = false ∧
      wawReg x.f x.c.lanes x.s.clk.cycle (riVal x.s.dev x.f L ix).toNat 0 = false) :
    Answers i s ((namedRegs x ix).foldl (fun d r => addFlight d { mkFlight x (.regw (rxstVal x ix b))
      ((x.act.lanes.filter fun L => (riVal x.s.dev x.f L ix).toNat == r).map fun L => laneOps L []) [r] none with
        full := riU x.s.dev x.f ix && x.full }) (begun i x)) := by
  subst hi
  have hany : ((namedRegs x ix).any fun r => regOwed (begun (.rxst h ix b) x) (begunFib (.rxst h ix b) x) x.c.lanes r ||
      wawReg (begunFib (.rxst h ix b) x) x.c.lanes x.s.clk.cycle r 0) = false := by
    rw [List.any_eq_false]
    intro q hq
    obtain ⟨L, hL, rfl⟩ := mem_namedRegs.1 hq
    rw [regOwed_begun, wawReg_begun, (hfree L hL).1, (hfree L hL).2]
    exact Bool.false_ne_true
  refine active_answers rfl hx rfl ha ?_
  simp only [rxBad_begun hx, hbad, ne_eq, not_true, if_false, fib_begun hx, rxNamed_begun, hany, Bool.false_eq_true, riU_begun]
  refine congrArg (some ∘ Res.done) (foldl_addFlight_congr (fun d r hd => ?_) _ rfl)
  have hreg : ∀ q, regOf d (begunFib (.rxst h ix b) x) q = regOf x.s.dev x.f q := fun q => by rw [regOf_congr hd, regOf_begun]
  have hlane : ∀ q L, regLane d (begunFib (.rxst h ix b) x) q L = regLane x.s.dev x.f q L := fun q L => by
    rw [regLane, hreg, laneVal_begun, regLane]
  have hidx : ∀ L, rxIdx d (begunFib (.rxst h ix b) x) ix L = (riVal x.s.dev x.f L ix).toNat := fun L => by
    rw [rxIdx, riVal_congr hd, riVal_begun]
  simp only [hreg, hlane, hidx, rxstVal, begunFib_width, inReg, Iss.lanes]

/-! ### Shapes (R81, R82) -/

theorem live_begun (i : Instr) (x : Iss) : (begunFib i x).live = x.f.live := by
  simp only [Fibre.live, Fibre.liveLane, begunFib_width, thread_begunFib i x _ Thread.life (fun _ _ _ _ => rfl)]
  rfl

theorem liveVals_begun (i : Instr) (x : Iss) (r : Nat) : liveVals (begun i x) (begunFib i x) r = liveVals x.s.dev x.f r := by
  simp only [liveVals, live_begun, regLane_begun]

theorem narrowU_begun (i : Instr) (x : Iss) (r : Nat) : narrowU (begun i x) (begunFib i x) r = narrowU x.s.dev x.f r := by
  simp only [narrowU, liveVals_begun, regOf_begun]

theorem narrowA_begun (i : Instr) (x : Iss) (r : Nat) : narrowA (begun i x) (begunFib i x) r = narrowA x.s.dev x.f r := by
  simp only [narrowA, liveVals_begun, regOf_begun]

/-- A test of every live lane's value. -/
theorem all_liveVals {d : Dev} {f : Fibre} {r : Nat} {p : Nat × Word → Bool} :
    (liveVals d f r).all p = true ↔ ∀ L, f.live.has L = true → p (L, regLane d f r L) = true := by
  simp [liveVals, mem_lanes]

/-- The live lanes rise. -/
theorem lanes_rise {m : LaneMask} {L0 L1 : Nat} {Ls : List Nat} (h : m.lanes = L0 :: L1 :: Ls) : L0 < L1 := by
  have hp : m.lanes.Pairwise (· < ·) := List.pairwise_lt_range.filter _
  rw [h] at hp
  exact List.rel_of_pairwise_cons hp List.mem_cons_self

/-- `shpset.u` where the live lanes agree. -/
theorem narrowU_of_eq {d : Dev} {f : Fibre} {r : Nat} {v : Word} (hne : f.live ≠ 0)
    (h : ∀ L, f.live.has L = true → regLane d f r L = v) : narrowU d f r = .u v := by
  obtain ⟨L0, Ls, hl⟩ := List.exists_cons_of_ne_nil (lanes_ne_nil hne)
  have hmem : ∀ L, L ∈ L0 :: Ls → regLane d f r L = v := fun L hL => h L (mem_lanes.1 (hl ▸ hL))
  have hall : (Ls.all fun L => regLane d f r L == v) = true := by
    simpa using fun L hL => hmem L (List.mem_cons_of_mem _ hL)
  simp only [narrowU, liveVals, hl, List.map_cons, List.all_map, Function.comp_def, hmem L0 List.mem_cons_self, hall, if_true]

/-- What `shpset.u` gives: the register as it stands, or U of the value that the live lanes agree on. -/
theorem narrowU_cases (d : Dev) (f : Fibre) (r : Nat) :
    narrowU d f r = regOf d f r ∨ ∃ v, narrowU d f r = .u v ∧ ∀ L, f.live.has L = true → regLane d f r L = v := by
  unfold narrowU
  split
  · exact .inl rfl
  · rename_i L0 v vs hv
    split
    · rename_i hall
      refine .inr ⟨v, rfl, fun L hL => ?_⟩
      have hboth : ((L0, v) :: vs).all (fun q => q.2 == v) = true := by simpa using hall
      rw [← hv, all_liveVals] at hboth
      simpa using hboth L hL
    · exact .inl rfl

/-- `shpset.u` where two live lanes differ. -/
theorem narrowU_of_ne {d : Dev} {f : Fibre} {r L M : Nat} (hL : f.live.has L = true) (hM : f.live.has M = true)
    (hne : regLane d f r L ≠ regLane d f r M) : narrowU d f r = regOf d f r := by
  obtain h | ⟨v, -, hv⟩ := narrowU_cases d f r
  · exact h
  · exact absurd ((hv L hL).trans (hv M hM).symm) hne

/-- The stride of `shpset.a`: the quotient of the difference of the two lowest live lanes. -/
def affStride (d : Dev) (f : Fibre) (r L0 L1 : Nat) : Word :=
  BitVec.ofInt 64 ((regLane d f r L1 - regLane d f r L0).toInt / ((L1 : Int) - (L0 : Int)))

/-- The base that goes with it. -/
def affBase (d : Dev) (f : Fibre) (r L0 L1 : Nat) : Word := regLane d f r L0 - BitVec.ofNat 64 L0 * affStride d f r L0 L1

/-- `shpset.a` with two live lanes or more. -/
theorem narrowA_eq {d : Dev} {f : Fibre} {r L0 L1 : Nat} {Ls : List Nat} (hl : f.live.lanes = L0 :: L1 :: Ls) :
    narrowA d f r =
      if (regLane d f r L1 - regLane d f r L0).toInt % ((L1 : Int) - (L0 : Int)) = 0 ∧
        (liveVals d f r).all (fun v => v.2 == affBase d f r L0 L1 + BitVec.ofNat 64 v.1 * affStride d f r L0 L1) = true
      then .a (affBase d f r L0 L1) (affStride d f r L0 L1) else regOf d f r := by
  have hv : liveVals d f r = (L0, regLane d f r L0) :: (L1, regLane d f r L1) :: Ls.map fun L => (L, regLane d f r L) := by
    rw [liveVals, hl]; rfl
  rw [hv, narrowA, hv]
  simp only [affBase, affStride]
  by_cases hmod : (regLane d f r L1 - regLane d f r L0).toInt % ((L1 : Int) - (L0 : Int)) = 0
  · simp only [hmod, ne_eq, not_true, if_false, true_and]
  · simp only [hmod, ne_eq, not_false_eq_true, if_true, false_and, if_false]

/-- What `shpset.a` gives: the register as it stands, or an affine run through the live lanes' values. -/
theorem narrowA_cases (d : Dev) (f : Fibre) (r : Nat) :
    narrowA d f r = regOf d f r ∨
      ∃ b st, narrowA d f r = .a b st ∧ ∀ L, f.live.has L = true → regLane d f r L = b + BitVec.ofNat 64 L * st := by
  cases hl : f.live.lanes with
  | nil => exact .inl (by simp [narrowA, liveVals, hl])
  | cons L0 Ls =>
    cases Ls with
    | nil =>
      refine .inr ⟨regLane d f r L0, 0, by simp [narrowA, liveVals, hl], fun L hL => ?_⟩
      obtain rfl : L = L0 := by simpa [hl] using mem_lanes.2 hL
      simp
    | cons L1 Ls =>
      rw [narrowA_eq hl]
      split
      · rename_i hfit
        exact .inr ⟨_, _, rfl, by simpa using all_liveVals.1 hfit.2⟩
      · exact .inl rfl

/-- Narrowing keeps the live lanes' values. -/
theorem laneVal_narrow {d : Dev} {f : Fibre} {r L : Nat} (hL : f.live.has L = true) :
    laneVal f (narrowU d f r) L = regLane d f r L ∧ laneVal f (narrowA d f r) L = regLane d f r L := by
  constructor
  · obtain h | ⟨v, h, hv⟩ := narrowU_cases d f r
    · rw [h]; rfl
    · rw [h, hv L hL]; rfl
  · obtain h | ⟨b, st, h, hv⟩ := narrowA_cases d f r
    · rw [h]; rfl
    · rw [h, hv L hL]; rfl

/-- The values of the live lanes fit a base and an exact stride only where `shpset.a` finds them. -/
theorem affine_unique {d : Dev} {f : Fibre} {r L0 L1 : Nat} {Ls : List Nat} (hl : f.live.lanes = L0 :: L1 :: Ls) {b : Word} {st : Int}
    (hdiff : (regLane d f r L1 - regLane d f r L0).toInt = st * ((L1 : Int) - (L0 : Int)))
    (hfit : ∀ L, f.live.has L = true → regLane d f r L = b + BitVec.ofNat 64 L * BitVec.ofInt 64 st) :
    affStride d f r L0 L1 = BitVec.ofInt 64 st ∧ affBase d f r L0 L1 = b := by
  have hrise := lanes_rise hl
  have hs : affStride d f r L0 L1 = BitVec.ofInt 64 st := by
    rw [affStride, hdiff, Int.mul_ediv_cancel _ (by omega)]
  have h0 := hfit L0 (mem_lanes.1 (hl ▸ List.mem_cons_self))
  exact ⟨hs, by rw [affBase, hs, h0, BitVec.add_sub_cancel]⟩

/-- `shpset.a` of an affine run with an exact stride. -/
theorem narrowA_of_fits {d : Dev} {f : Fibre} {r L0 L1 : Nat} {Ls : List Nat} (hl : f.live.lanes = L0 :: L1 :: Ls) {b : Word} {st : Int}
    (hdiff : (regLane d f r L1 - regLane d f r L0).toInt = st * ((L1 : Int) - (L0 : Int)))
    (hfit : ∀ L, f.live.has L = true → regLane d f r L = b + BitVec.ofNat 64 L * BitVec.ofInt 64 st) :
    narrowA d f r = .a b (BitVec.ofInt 64 st) := by
  obtain ⟨hs, hb⟩ := affine_unique hl hdiff hfit
  rw [narrowA_eq hl, hs, hb, if_pos ⟨by rw [hdiff, Int.mul_emod_left], all_liveVals.2 (by simpa using hfit)⟩]

/-- `shpset.a` of anything else. -/
theorem narrowA_of_not_fits {d : Dev} {f : Fibre} {r L0 L1 : Nat} {Ls : List Nat} (hl : f.live.lanes = L0 :: L1 :: Ls)
    (hno : ¬∃ (b : Word) (st : Int), (regLane d f r L1 - regLane d f r L0).toInt = st * ((L1 : Int) - (L0 : Int)) ∧
      ∀ L, f.live.has L = true → regLane d f r L = b + BitVec.ofNat 64 L * BitVec.ofInt 64 st) :
    narrowA d f r = regOf d f r := by
  rw [narrowA_eq hl, if_neg]
  rintro ⟨hmod, hfit⟩
  exact hno ⟨_, _, (Int.ediv_mul_cancel (Int.dvd_of_emod_eq_zero hmod)).symm, fun L hL => beq_iff_eq.1 (all_liveVals.1 hfit L hL)⟩

/-- `shpset.a` where the live lanes agree: a run of stride 0. -/
theorem narrowA_of_eq {d : Dev} {f : Fibre} {r : Nat} {v : Word} (hne : f.live ≠ 0)
    (h : ∀ L, f.live.has L = true → regLane d f r L = v) : narrowA d f r = .a v 0 := by
  cases hl : f.live.lanes with
  | nil => exact absurd hl (lanes_ne_nil hne)
  | cons L0 Ls =>
    have h0 := h L0 (mem_lanes.1 (hl ▸ List.mem_cons_self))
    cases Ls with
    | nil => simp [narrowA, liveVals, hl, h0]
    | cons L1 Ls =>
      have h1 := h L1 (mem_lanes.1 (hl ▸ List.mem_cons_of_mem _ List.mem_cons_self))
      refine narrowA_of_fits (st := 0) hl (by simp [h0, h1]) fun L hL => ?_
      rw [h L hL]
      simp

theorem exec_shpget (h : Hdr) (d a : Reg) (s : State) : exec (.shpget h d a) s = issueOn (.shpget h d a) h s
    (vecBody d 4 (fun _ _ => .u) fun x dv _ => (BitVec.ofNat 64 (tagCode (regOf dv (x.fib dv) a.toNat)), 0)) := rfl

theorem exec_shpsetU (h : Hdr) (d a : Reg) (s : State) : exec (.shpsetU h d a) s = issueOn (.shpsetU h d a) h s
    (shpBody d fun x dv => narrowU dv (x.fib dv) a.toNat) := rfl

theorem exec_shpsetA (h : Hdr) (d a : Reg) (s : State) : exec (.shpsetA h d a) s = issueOn (.shpsetA h d a) h s
    (shpBody d fun x dv => narrowA dv (x.fib dv) a.toNat) := rfl

theorem exec_shpsetG (h : Hdr) (d a : Reg) (s : State) : exec (.shpsetG h d a) s = issueOn (.shpsetG h d a) h s
    (shpBody d fun x dv => .g ((List.range x.f.width).map fun L => regLane dv (x.fib dv) a.toNat L)) := rfl

/-- `shpget` gives the tag code of its register. -/
theorem shpget_tag (h : Hdr) (d a : Reg) : LaneResult (.shpget h d a) d 4 fun x _ => BitVec.ofNat 64 (tagCode (regOf x.s.dev x.f a.toNat)) := by
  intro s x hx
  have hl := vecBody_lands (i := .shpget h d a) rfl hx (exec_shpget h d a s)
  rw [laneFlags_zero] at hl
  refine ⟨_, hl, fun L hL => ?_⟩
  rw [laneVal_outReg_u _ (fun _ _ _ _ => rfl) hL]
  simp only [fib_begun hx, regOf_begun]

/-- `shpset` schedules the register that its form gives. -/
theorem shpBody_answers {i : Instr} {h : Hdr} {s : State} {x : Iss} (hh : hdrOf i = some h) (hx : issue? i s = some x) {d : Reg}
    {v : Iss → Dev → VReg} (he : exec i s = issueOn i h s (shpBody d v)) :
    Answers i s ((begun i x).setFibre (pushShape x (begunFib i x) d.toNat 4 (v x (begun i x)))) := by
  refine he.trans (issueOn_answers hh hx ?_)
  rw [shpBody, fib_begun hx]

/-- Settles O28: each instruction by the lemma on its case, in the order of its body's branches. -/
theorem streamsComputedRegistersAndShapes : Obligations.StreamsComputedRegistersAndShapes := by
  refine ⟨⟨fun i h n a write s x hi hx => ?_, fun h r n s x hx => ?_, fun h p n s x hx => ?_, fun h n a s x hx => ?_,
      fun h p n s x hx => ?_⟩, ⟨fun h r ix s x hx => ?_, fun h ix b s x hx => ?_⟩,
    ⟨fun h d a => ?_, fun h d a s x hx => ?_, fun h d a s x hx => ?_, fun h d a s x hx => ?_, fun d f r L hL => laneVal_narrow hL,
      fun d f r v hne hv => ⟨narrowU_of_eq hne hv, v, narrowA_of_eq hne hv⟩,
      fun d f r L0 L1 Ls hl => ⟨fun b st hd hf => narrowA_of_fits hl hd hf, fun hno => narrowA_of_not_fits hl hno,
        fun ⟨L, M, hL, hM, hne⟩ => narrowU_of_ne hL hM hne⟩⟩⟩
  case refine_1 =>
    obtain rfl := issue?_s hx
    have hh : hdrOf i = some h := by rw [hi]; cases write <;> rfl
    have he : exec i x.s = issueOn i h x.s (sopenBody write n.toNat a) := by rw [hi]; cases write <;> rfl
    exact ⟨idle_answers hh hx he, sopen_illegal hh hx he, fun st ha hst hold => sopen_opens hh hx he ha hst hold⟩
  case refine_2 =>
    obtain rfl := issue?_s hx
    exact ⟨idle_answers rfl hx rfl, snext_illegal rfl hx rfl, fun st ha hst hread hneed => snext_hands rfl hx rfl ha hst hread hneed⟩
  case refine_3 =>
    obtain rfl := issue?_s hx
    exact stest_tells rfl hx rfl
  case refine_4 =>
    obtain rfl := issue?_s hx
    exact ⟨idle_answers rfl hx rfl, sput_illegal rfl hx rfl,
      fun st ha hst hwrite hstop hroom => sput_takes rfl hx rfl ha hst hwrite hstop hroom⟩
  case refine_5 =>
    obtain rfl := issue?_s hx
    exact ⟨idle_answers rfl hx rfl, sclose_nothing rfl hx rfl, fun st ha hst hread => sclose_read rfl hx rfl ha hst hread,
      fun st ha hst hwrite hstop => sclose_drains rfl hx rfl ha hst hwrite hstop⟩
  case refine_6 =>
    obtain rfl := issue?_s hx
    exact ⟨idle_answers rfl hx rfl, rxld_outOfRange hx rfl, fun ha hbad hchk hready =>
      ⟨_, rxld_lands hx rfl ha hbad hchk hready, fun L hL => laneVal_rxld hx ha hL⟩⟩
  case refine_7 =>
    obtain rfl := issue?_s hx
    exact ⟨idle_answers rfl hx rfl, rxst_outOfRange hx rfl, fun ha hbad hfree =>
      ⟨_, _, rxst_sends hx rfl ha hbad hfree, fun L hL => laneVal_rxstVal hx ix b hL⟩⟩
  case refine_8 =>
    intro s x hx
    obtain ⟨v, hland, hv⟩ := shpget_tag h d a s x hx
    refine ⟨v, hland, fun L hL => (hv L hL).trans ?_⟩
    dsimp only
    generalize regOf x.s.dev x.f a.toNat = r
    cases r <;> rfl
  case refine_9 =>
    obtain rfl := issue?_s hx
    have := shpBody_answers (i := .shpsetU h d a) rfl hx (exec_shpsetU h d a _)
    rwa [fib_begun hx, narrowU_begun] at this
  case refine_10 =>
    obtain rfl := issue?_s hx
    have := shpBody_answers (i := .shpsetA h d a) rfl hx (exec_shpsetA h d a _)
    rwa [fib_begun hx, narrowA_begun] at this
  case refine_11 =>
    obtain rfl := issue?_s hx
    have := shpBody_answers (i := .shpsetG h d a) rfl hx (exec_shpsetG h d a _)
    simp only [fib_begun hx, regLane_begun] at this
    exact this

end Sys2Proof.Machine
end

section
/-!
WRITES AT HOME AND READS: what a run of bytes put in memory, a write at home, a lane's read and a lane's result leave, said once for the events
of fibres and of contexts.
-/

namespace Sys2Proof.Machine

/-! ### Bytes and words -/

/-- Runs that read alike byte by byte are equal. -/
theorem memBytes_congr {m k : List Host.Cell} {a b n : Nat} (h : ∀ i, i < n → memRead m (a + i) = memRead k (b + i)) :
    memBytes m a n = memBytes k b n := by
  induction n generalizing a b with
  | zero => rfl
  | succ n ih =>
    have hrest := ih (a := a + 1) (b := b + 1) fun i hi => by
      rw [Nat.add_assoc, Nat.add_assoc, Nat.add_comm 1 i]; exact h (i + 1) (by omega)
    rw [memBytes, memBytes, hrest, show memRead m a = memRead k b from h 0 (by omega)]

theorem memBytes_eq_map (m : List Host.Cell) (a n : Nat) : memBytes m a n = (List.range n).map fun i => memRead m (a + i) := by
  refine List.ext_getElem (by rw [length_memBytes, List.length_map, List.length_range]) fun i h1 h2 => ?_
  rw [length_memBytes] at h1
  rw [← List.getD_eq_getElem _ 0, getD_memBytes m a n i h1, List.getElem_map, List.getElem_range]

theorem length_wordLE (w : Word) : (wordLE w).length = 8 := length_natLE 8 _

/-- A word read from its bytes. -/
theorem leWord_wordLE (w : Word) : leWord (wordLE w) = w := by
  rw [leWord, wordLE, leNat_natLE]
  exact BitVec.eq_of_toNat_eq (by rw [BitVec.toNat_ofNat]; have := w.isLt; omega)

/-- A word read back after it has been written. -/
theorem memWord_memPut (m : List Host.Cell) (a : Nat) (w : Word) : memWord (memPut m a (wordLE w)) a = w := by
  have h := memBytes_memPut m a (wordLE w)
  rw [length_wordLE] at h
  rw [memWord, h, leWord_wordLE]

theorem memRead_memZero (m : List Host.Cell) (a n b : Nat) :
    memRead (memZero m a n) b = if a ≤ b ∧ b < a + n then 0 else memRead m b := by
  induction m with
  | nil => simp [memZero, memRead]
  | cons c m ih =>
    obtain ⟨k, v⟩ := c
    have hcons : memZero ((k, v) :: m) a n = if a ≤ k ∧ k < a + n then memZero m a n else (k, v) :: memZero m a n := by
      by_cases hk : a ≤ k ∧ k < a + n
      · simp [memZero, hk]
      · have hkeep : (!(decide (a ≤ k) && decide (k < a + n))) = true := by simp; omega
        rw [if_neg hk]
        exact List.filter_cons_of_pos (p := fun c : Host.Cell => !(decide (a ≤ c.1) && decide (c.1 < a + n))) hkeep
    rw [hcons]
    by_cases hk : a ≤ k ∧ k < a + n
    · rw [if_pos hk, ih, memRead]
      by_cases hb : a ≤ b ∧ b < a + n
      · rw [if_pos hb, if_pos hb]
      · rw [if_neg hb, if_neg hb, if_neg (by rintro rfl; exact hb hk)]
    · rw [if_neg hk, memRead, ih, memRead]
      by_cases hkb : k = b
      · subst hkb; simp [hk]
      · rw [if_neg hkb, if_neg hkb]

/-! ### Bytes written at their homes (R187, R188) -/

/-- Bytes put at their homes change memory and the teams' scratchpads alone. -/
theorem foldl_putHome_eq (team : Nat) (ps : List (Place × Byte)) (d : Dev) :
    ∃ m ts, ps.foldl (putHome team) d = { d with mem := m, teams := ts } := by
  induction ps generalizing d with
  | nil => exact ⟨_, _, rfl⟩
  | cons p ps ih =>
    have hone : ∃ m ts, putHome team d p = { d with mem := m, teams := ts } := by
      unfold putHome
      split
      · exact ⟨_, _, rfl⟩
      · split
        · exact ⟨_, _, rfl⟩
        · exact ⟨_, _, rfl⟩
      · exact ⟨_, _, rfl⟩
    obtain ⟨m, ts, h⟩ := hone
    obtain ⟨m', ts', h'⟩ := ih { d with mem := m, teams := ts }
    exact ⟨m', ts', by rw [List.foldl_cons, h, h']⟩

/-- A byte of memory after bytes have been put at their homes: the last of them at its address. -/
theorem memRead_foldl_putHome (team : Nat) (ps : List (Place × Byte)) (d : Dev) (a : Nat) :
    memRead (ps.foldl (putHome team) d).mem a =
      (((ps.filter fun p => p.1 == .phys a).getLast?).map Prod.snd).getD (memRead d.mem a) := by
  induction ps using List.reverseRecOn with
  | nil => rfl
  | append_singleton ps p ih =>
    rw [List.foldl_append, List.foldl_cons, List.foldl_nil, List.filter_append]
    obtain ⟨pl, v⟩ := p
    cases pl with
    | phys b =>
      rw [putHome, memRead_memWrite]
      by_cases hb : a = b
      · subst hb; simp
      · have hne : (Place.phys b == Place.phys a) = false := by simpa using fun h => hb h.symm
        simp [hb, hne, ih]
    | spad b =>
      have hmem : (putHome team (ps.foldl (putHome team) d) (.spad b, v)).mem = (ps.foldl (putHome team) d).mem := by
        simp only [putHome]; split <;> rfl
      simp [hmem, ih]
    | lit b => simp [putHome, ih]

/-- What a write at home leaves. -/
theorem homeWrite_eq (d : Dev) (w : Author) (rmw : Bool) (ps : List (Place × Byte)) :
    ∃ ts ns p, homeWrite d w rmw ps =
      { d with mem := (ps.foldl (putHome w.team) d).mem, teams := ts, notes := ns, clock := d.clock + 1, past := p } := by
  obtain ⟨m, ts, h⟩ := foldl_putHome_eq w.team ps d
  unfold homeWrite
  dsimp only
  rw [h]
  exact ⟨_, _, _, rfl⟩

/-- Bytes of memory put one after the other. -/
theorem foldl_putHome_phys (team : Nat) (qs : List (Nat × Byte)) (d : Dev) :
    (qs.map fun q => (Place.phys q.1, q.2)).foldl (putHome team) d =
      { d with mem := qs.foldl (fun m q => memWrite m q.1 q.2) d.mem } := by
  induction qs generalizing d with
  | nil => rfl
  | cons q qs ih => rw [List.map_cons, List.foldl_cons, ih]; rfl

/-- A write of memory leaves the teams. -/
theorem homeWrite_phys (d : Dev) (w : Author) (rmw : Bool) (qs : List (Nat × Byte)) :
    ∃ ns p, homeWrite d w rmw (qs.map fun q => (.phys q.1, q.2)) =
      { d with mem := qs.foldl (fun m q => memWrite m q.1 q.2) d.mem, notes := ns, clock := d.clock + 1, past := p } := by
  unfold homeWrite
  dsimp only
  rw [foldl_putHome_phys]
  exact ⟨_, _, rfl⟩

/-- A run of bytes written one by one. -/
theorem foldl_memWrite_zipIdx (bs : List Byte) (m : List Host.Cell) (a k : Nat) :
    (bs.zipIdx k).foldl (fun m q => memWrite m (a + q.2) q.1) m = memPut m (a + k) bs := by
  induction bs generalizing m k with
  | nil => rfl
  | cons b bs ih => rw [List.zipIdx_cons, List.foldl_cons, ih, memPut]; rfl

/-- THE DEVICE'S OWN WRITE OF MEMORY: the bytes, a fresh identity, and the model's records of the write. -/
theorem memSet_eq (d : Dev) (a : Nat) (bs : List Byte) : ∃ ns p, d.memSet a bs =
    { d with mem := memPut d.mem a bs, nextId := d.nextId + 1, notes := ns, clock := d.clock + 1, past := p } := by
  have hps : physBytes a bs = (bs.zipIdx.map fun b => (a + b.2, b.1)).map fun q => (Place.phys q.1, q.2) := by
    rw [physBytes, List.map_map]; rfl
  have hput : (bs.zipIdx.map fun b => (a + b.2, b.1)).foldl (fun m q => memWrite m q.1 q.2) d.mem = memPut d.mem a bs := by
    rw [List.foldl_map]
    exact foldl_memWrite_zipIdx bs d.mem a 0
  have hjoin : d.join [] = (soleEv d.nextId, { d with nextId := d.nextId + 1 }) := rfl
  unfold Dev.memSet Dev.writeFrom
  rw [hps, hjoin]
  dsimp only
  obtain ⟨ns, p, h⟩ := homeWrite_phys { d with nextId := d.nextId + 1 }
    (Author.outside (soleEv d.nextId) (((bs.zipIdx.map fun b => (a + b.2, b.1)).map fun q => (Place.phys q.1, q.2)).any fun p =>
      match p.1 with
      | .phys a => decide (2 ^ 51 ≤ a)
      | _ => false) []) false (bs.zipIdx.map fun b => (a + b.2, b.1))
  refine ⟨ns, p, ?_⟩
  rw [hput] at h
  exact h

@[simp] theorem memSet_mem (d : Dev) (a : Nat) (bs : List Byte) : (d.memSet a bs).mem = memPut d.mem a bs := by
  obtain ⟨ns, p, h⟩ := memSet_eq d a bs
  rw [h]

/-! ### UO copies written back (R154) -/

theorem writeBack_eq (d : Dev) (us : List UoByte) :
    ∃ m ns c p, writeBack d us = { d with mem := m, notes := ns, clock := c, past := p } := by
  unfold writeBack
  generalize dedupNat _ = es
  induction es generalizing d with
  | nil => exact ⟨_, _, _, _, rfl⟩
  | cons e es ih =>
    rw [List.foldl_cons]
    dsimp only
    split
    · rename_i w _
      obtain ⟨ns, p, h⟩ := homeWrite_phys d w false
        ((us.filter fun u => (u.writer.map Author.event) == some e).map fun u => (u.addr, u.byte))
      rw [List.map_map] at h
      obtain ⟨m', ns', c', p', h'⟩ := ih (homeWrite d w false
        ((us.filter fun u => (u.writer.map Author.event) == some e).map fun u => (.phys u.addr, u.byte)))
      refine ⟨m', ns', c', p', h'.trans ?_⟩
      rw [show (fun u : UoByte => (Place.phys u.addr, u.byte)) = (fun q : Nat × Byte => (Place.phys q.1, q.2)) ∘ fun u => (u.addr, u.byte)
        from rfl, h]
    · exact ih d

/-- What a core's UO copies leave when they go home. -/
theorem uoFlush_eq (d : Dev) (core : Nat) :
    ∃ m u ns c p, uoFlush d core = { d with mem := m, uo := u, notes := ns, clock := c, past := p } := by
  obtain ⟨m, ns, c, p, h⟩ := writeBack_eq d (d.uo.filter fun u => u.core == core && u.dirty)
  exact ⟨m, _, ns, c, p, by rw [uoFlush, h]⟩

end Sys2Proof.Machine
end

section
/-!
PROOF of `EventsOfFibresMemoryAndEngines`. An event reads one record of the device and answers with one changed device, so each clause is the
equation of its event followed by what a look-up finds in it. A read leaves only records of what has been read (`OnlyRecords`), and the end of a
flight only the flight's own holds (`finishFlight_eq`), so what the registers, memory and the predicates hold comes from the one write between.
-/

namespace Sys2Proof.Machine

/-! ### The hold limit (R71, R92) -/

/-- The largest of a start and a list stays within a bound of all of them. -/
theorem foldl_max_le {xs : List Nat} {a n : Nat} (ha : a ≤ n) (hxs : ∀ x, x ∈ xs → x ≤ n) : xs.foldl max a ≤ n := by
  induction xs generalizing a with
  | nil => exact ha
  | cons x xs ih => exact ih (Nat.max_le.2 ⟨ha, hxs x List.mem_cons_self⟩) fun y hy => hxs y (List.mem_cons_of_mem _ hy)

theorem turnOf_setTurn (d : Dev) (u : Turn) : turnOf (setTurn d u) u.core u.quad u.slot = some u := by
  simp [turnOf, setTurn]

/-- A turn is handed to the first context after it, in cyclic order, that is ready. -/
theorem turnOf_passTurn {d : Dev} {cycle since core quad slot pos k : Nat} (h1 : 1 ≤ k) (h3 : k ≤ 3)
    (hready : contextReady d cycle core quad slot ((pos + k) % 4) = true)
    (hfirst : ∀ j, 1 ≤ j → j < k → contextReady d cycle core quad slot ((pos + j) % 4) = false) :
    turnOf (passTurn d cycle since core quad slot pos) core quad slot = some ⟨core, quad, slot, (pos + k) % 4, since, false⟩ := by
  have hfind : [(pos + 1) % 4, (pos + 2) % 4, (pos + 3) % 4].find? (fun p => contextReady d cycle core quad slot p) =
      some ((pos + k) % 4) := by
    obtain rfl | rfl | rfl : k = 1 ∨ k = 2 ∨ k = 3 := by omega
    · simp [hready]
    · simp [hready, hfirst 1]
    · simp [hready, hfirst 1, hfirst 2]
  rw [passTurn, hfind]
  exact turnOf_setTurn d ⟨core, quad, slot, (pos + k) % 4, since, false⟩

theorem holdLimit_passes (s : State) (core quad slot : Nat) (u : Turn) (hu : turnOf s.dev core quad slot = some u)
    (hi : u.issued = true)
    (hage : ∀ f, f ∈ contextFibres s.dev core quad slot u.pos → u.since + f.agelimit ≤ s.clk.cycle + 1)
    (h4 : u.since + 4 ≤ s.clk.cycle + 1) :
    ∃ d, exec (.holdLimit core quad slot) s = .next (s.withDev d) ∧
      ∀ k, 1 ≤ k → k ≤ 3 → contextReady s.dev s.clk.cycle core quad slot ((u.pos + k) % 4) = true →
        (∀ j, 1 ≤ j → j < k → contextReady s.dev s.clk.cycle core quad slot ((u.pos + j) % 4) = false) →
        turnOf d core quad slot = some ⟨core, quad, slot, (u.pos + k) % 4, s.clk.cycle + 1, false⟩ := by
  have hlim : u.since + ((contextFibres s.dev core quad slot u.pos).map Fibre.agelimit).foldl max 4 ≤ s.clk.cycle + 1 := by
    have := foldl_max_le (xs := (contextFibres s.dev core quad slot u.pos).map Fibre.agelimit) (a := 4)
      (n := s.clk.cycle + 1 - u.since) (by omega) fun x hx => by
        obtain ⟨f, hf, rfl⟩ := List.mem_map.1 hx
        have := hage f hf
        omega
    omega
  refine ⟨passTurn s.dev s.clk.cycle (s.clk.cycle + 1) core quad slot u.pos, ?_,
    fun k h1 h3 hready hfirst => turnOf_passTurn h1 h3 hready hfirst⟩
  simp [exec, execHoldLimit, onDev, hu, hi, hlim]

/-! ### Helpers, overlays and frames -/

theorem helperReady_ends (s : State) (fib : Nat) (f : Fibre) (hf : s.dev.fibre? fib = some f) (h : f.readyAt ≤ s.clk.cycle) :
    exec (.helperReady fib) s = .next (s.withDev (s.dev.setFibre { f with readyAt := 0 })) := by
  simp [exec, execHelperReady, onDev, hf, h]

theorem residentAt_addResident (d : Dev) (core c : Nat) (base : Word) (ws : List IWord) :
    residentAt (addResident d core c base ws) core c base = some ⟨core, c, base, ws⟩ := by
  have hnone : (d.residents.filter fun r => !(r.core == core && r.ctx == c && r.base == base)).find?
      (fun r => r.core == core && r.ctx == c && r.base == base) = none :=
    List.find?_eq_none.2 fun r hr h => by
      have hk := (List.mem_filter.1 hr).2
      rw [h] at hk
      cases hk
  rw [residentAt, addResident, List.find?_append, hnone]
  simp

/-- The end of a miss wakes every lane that waits for its overlay. -/
theorem endMiss_wakes {d : Dev} {core c : Nat} {base : Word} {f : Fibre} {t : Thread} (hf : f ∈ (endMiss d core c base).fibres)
    (ht : t ∈ f.threads) (hcore : f.core = core) (hctx : f.ctx = c) : t.wait ≠ .overlay base := by
  obtain ⟨g, -, rfl⟩ := List.mem_map.1 hf
  by_cases hg : g.core == core && g.ctx == c
  · rw [if_pos hg, Fibre.mapThreads] at ht
    obtain ⟨i, hi, rfl⟩ := List.mem_mapIdx.1 ht
    split
    · simp
    · next h => simpa using h
  · rw [if_neg hg] at hcore hctx
    exact absurd (by simp [hcore, hctx]) hg

theorem overlayLoadComplete_effect (s : State) (core c : Nat) (base : Word) (evict : List Word) (l : OvlLoad) (ps : List Part) (d : Dev)
    (ws : List IWord) (hl : s.dev.loads.find? (fun l => l.core == core && l.ctx == c && l.base == base) = some l)
    (hfit : residentBytes (evictOverlays s.dev core evict).residents core + ovlBytes l.len ≤ 262144)
    (hheld : loadHeld (evictOverlays s.dev core evict) core c base = false)
    (hread : readOverlay (evictOverlays s.dev core evict) core c base l.len = (.parts ps, d, ws)) :
    ∃ d', exec (.overlayLoadComplete core c base evict) s = .next (s.withDev d') ∧ residentAt d' core c base = some ⟨core, c, base, ws⟩ ∧
      (∀ l, l ∈ d'.loads → ¬(l.core = core ∧ l.ctx = c ∧ l.base = base)) ∧
      ∀ f t, f ∈ d'.fibres → t ∈ f.threads → f.core = core → f.ctx = c → t.wait ≠ .overlay base := by
  refine ⟨endMiss (addResident d core c base ws) core c base, ?_, residentAt_addResident d core c base ws, fun l hl => ?_,
    fun f t hf ht => endMiss_wakes hf ht⟩
  · simp [exec, execOverlayLoadComplete, onDev, hl, Nat.not_lt.2 hfit, hheld, hread]
  · have hk := (List.mem_filter.1 hl).2
    rintro ⟨rfl, rfl, rfl⟩
    simp at hk

theorem frameFillComplete_holds (s : State) (fib L : Nat) (f : Fibre) (hf : s.dev.fibre? fib = some f)
    (hlive : (f.thread L).life = .live) (hheld : (f.thread L).held < min 4 (f.thread L).depth) :
    exec (.frameFillComplete fib L) s = .next (s.withDev (s.dev.setFibre (f.onLanes (LaneMask.ofLanes [L]) fun _ t =>
      { t with held := t.held + 1, wait := if t.wait == .frame then .none else t.wait }))) := by
  have h : (f.thread L).life = .live ∧ (f.thread L).held < min 4 (f.thread L).depth := ⟨hlive, hheld⟩
  simp only [exec, execFrameFillComplete, onDev, hf]
  rw [if_pos h]

/-! ### Zeroing (R153) -/

theorem wakeZero_wakes {d : Dev} {e : Nat} {f : Fibre} {t : Thread} (hf : f ∈ (wakeZero d e).fibres) (ht : t ∈ f.threads) :
    t.wait ≠ .zero e := by
  obtain ⟨g, -, rfl⟩ := List.mem_map.1 hf
  obtain ⟨u, -, rfl⟩ := List.mem_map.1 ht
  split
  · simp
  · assumption

/-- The zeroing of a page without copies leaves zeros in it and the rest of memory as it was. -/
theorem memRead_zeroPage {d : Dev} {z : Zeroing} (hz : z.repl = false) (a : Nat) :
    memRead (zeroPage d z).mem a = if z.base ≤ a ∧ a < z.base + z.len then 0 else memRead d.mem a := by
  simp [zeroPage, hz, memRead_memZero]

theorem memWord_congr {m k : List Host.Cell} {a : Nat} (h : ∀ b, a ≤ b → b < a + 8 → memRead m b = memRead k b) :
    memWord m a = memWord k a := by
  rw [memWord, memWord, memBytes_congr (m := m) (k := k) (b := a) fun i hi => h (a + i) (by omega) (by omega)]

/-- The record of a zeroing that has ended is the first of its entry's; the others stay. -/
theorem filter_erase_head {z : Zeroing} {zs ys : List Zeroing} {e : Nat} (h : zs.filter (fun z => z.entryAt == e) = z :: ys) :
    zs.find? (fun z => z.entryAt == e) = some z ∧ (zs.erase z).filter (fun z => z.entryAt == e) = ys := by
  constructor
  · rw [← List.head?_filter, h]; rfl
  · rw [← List.erase_filter, h, List.erase_cons_head]

/-- The entry after its zeroing: ZS ready, where the entry still names the page. -/
def readyEntry (z : Zeroing) (e : Nat) (d : Dev) : Dev :=
  if z.named (memWord d.mem e) then d.memSet e (wordLE (memWord d.mem e &&& ~~~(0x1800#64))) else d

theorem memWord_readyEntry (z : Zeroing) (e : Nat) (d : Dev) : memWord (readyEntry z e d).mem e =
    if z.named (memWord d.mem e) then memWord d.mem e &&& ~~~(0x1800#64) else memWord d.mem e := by
  rw [readyEntry]
  split
  · rw [memSet_mem, memWord_memPut]
  · rfl

theorem memRead_readyEntry (z : Zeroing) (e : Nat) (d : Dev) {a : Nat} (ha : a < e ∨ e + 8 ≤ a) :
    memRead (readyEntry z e d).mem a = memRead d.mem a := by
  rw [readyEntry]
  split
  · rw [memSet_mem, memRead_memPut, length_wordLE, if_neg (by omega)]
  · rfl

/-- A zeroing's record taken off. -/
def zeroedPage (d : Dev) (z : Zeroing) : Dev := { zeroPage d z with zeroings := d.zeroings.erase z }

theorem completeZero_eq {d : Dev} {e : Nat} {z : Zeroing} (h : d.zeroings.find? (fun z => z.entryAt == e) = some z) :
    completeZero d e = if (zeroedPage d z).zeroing e then zeroedPage d z else wakeZero (readyEntry z e (zeroedPage d z)) e := by
  rw [completeZero, h]
  rfl

theorem memRead_zeroedPage {d : Dev} {z : Zeroing} (hz : z.repl = false) (a : Nat) :
    memRead (zeroedPage d z).mem a = if z.base ≤ a ∧ a < z.base + z.len then 0 else memRead d.mem a := memRead_zeroPage hz a

theorem zeroing_iff (d : Dev) (e : Nat) : d.zeroing e = true ↔ d.zeroings.filter (fun z => z.entryAt == e) ≠ [] := by
  rw [Dev.zeroing, List.any_eq_true, ne_eq, List.filter_eq_nil_iff]
  push Not
  rfl

theorem zeroingComplete_last (s : State) (e : Nat) (z : Zeroing) (hz : s.dev.zeroings.filter (fun z => z.entryAt == e) = [z])
    (hrepl : z.repl = false) (hout : e + 8 ≤ z.base ∨ z.base + z.len ≤ e) :
    ∃ d, exec (.zeroingComplete e) s = .next (s.withDev d) ∧
      (∀ a, z.base ≤ a → a < z.base + z.len → memRead d.mem a = 0) ∧
      (z.named (memWord s.dev.mem e) = true → memWord d.mem e = memWord s.dev.mem e &&& ~~~(0x1800#64)) ∧
      (z.named (memWord s.dev.mem e) = false → memWord d.mem e = memWord s.dev.mem e) ∧
      (∀ a, a < z.base ∨ z.base + z.len ≤ a → a < e ∨ e + 8 ≤ a → memRead d.mem a = memRead s.dev.mem a) ∧
      ∀ f t, f ∈ d.fibres → t ∈ f.threads → t.wait ≠ .zero e := by
  obtain ⟨hfind, hrest⟩ := filter_erase_head hz
  have hnone : (zeroedPage s.dev z).zeroing e = false := by
    rw [← Bool.not_eq_true, zeroing_iff]
    exact fun h => h hrest
  have hword : memWord (zeroedPage s.dev z).mem e = memWord s.dev.mem e := memWord_congr fun b h1 h2 => by
    rw [memRead_zeroedPage hrepl, if_neg (by omega)]
  have hentry := memWord_readyEntry z e (zeroedPage s.dev z)
  rw [hword] at hentry
  refine ⟨wakeZero (readyEntry z e (zeroedPage s.dev z)) e, ?_, fun a h1 h2 => ?_, fun hn => ?_, fun hn => ?_, fun a h1 h2 => ?_,
    fun f t hf ht => wakeZero_wakes hf ht⟩
  · rw [exec, execZeroingComplete, onDev, completeZero_eq hfind, hnone]
    rfl
  · exact (memRead_readyEntry z e _ (by omega)).trans (by rw [memRead_zeroedPage hrepl, if_pos ⟨h1, h2⟩])
  · exact hentry.trans (if_pos hn)
  · exact hentry.trans (if_neg (by rw [hn]; exact Bool.false_ne_true))
  · exact (memRead_readyEntry z e _ h2).trans (by rw [memRead_zeroedPage hrepl, if_neg (by omega)])

theorem zeroingComplete_more (s : State) (e : Nat) (z y : Zeroing) (ys : List Zeroing)
    (hz : s.dev.zeroings.filter (fun z => z.entryAt == e) = z :: y :: ys) (hrepl : z.repl = false) :
    ∃ d, exec (.zeroingComplete e) s = .next (s.withDev d) ∧ d.zeroings.filter (fun z => z.entryAt == e) = y :: ys ∧
      (∀ a, memRead d.mem a = if z.base ≤ a ∧ a < z.base + z.len then 0 else memRead s.dev.mem a) ∧ d.fibres = s.dev.fibres := by
  obtain ⟨hfind, hrest⟩ := filter_erase_head hz
  have hsome : (zeroedPage s.dev z).zeroing e = true := (zeroing_iff _ _).2 (by
    rw [show (zeroedPage s.dev z).zeroings = s.dev.zeroings.erase z from rfl, hrest]; exact List.cons_ne_nil _ _)
  refine ⟨zeroedPage s.dev z, ?_, hrest, memRead_zeroedPage hrepl, rfl⟩
  rw [exec, execZeroingComplete, onDev, completeZero_eq hfind, hsome]
  rfl

/-! ### A read's effect on the device -/

theorem setAt_eq_set {α : Type} (xs : List α) (i : Nat) (y : α) : setAt xs i y = xs.set i y := by
  induction xs generalizing i with
  | nil => rfl
  | cons x xs ih => cases i with
    | zero => rfl
    | succ i => rw [setAt, ih, List.set_cons_succ]

/-- A fibre whose threads keep their lives and their waits, and of which all else is as it was. -/
def SameButRecords (f f' : Fibre) : Prop :=
  ∃ ths, f' = { f with threads := ths } ∧ ∀ L, (f'.thread L).life = (f.thread L).life ∧ (f'.thread L).wait = (f.thread L).wait

theorem SameButRecords.refl (f : Fibre) : SameButRecords f f := ⟨f.threads, rfl, fun _ => ⟨rfl, rfl⟩⟩

theorem SameButRecords.trans {f g h : Fibre} : SameButRecords f g → SameButRecords g h → SameButRecords f h
  | ⟨_, hg, h1⟩, ⟨hs, hh, h2⟩ => ⟨hs, by rw [hh, hg], fun L => ⟨(h2 L).1.trans (h1 L).1, (h2 L).2.trans (h1 L).2⟩⟩

theorem SameButRecords.onLanes (f : Fibre) (m : LaneMask) {g : Nat → Thread → Thread}
    (hlife : ∀ L t, (g L t).life = t.life) (hwait : ∀ L t, (g L t).wait = t.wait) : SameButRecords f (f.onLanes m g) := by
  refine ⟨_, rfl, fun L => ⟨?_, ?_⟩⟩
  · exact thread_mapThreads f _ L Thread.life fun n t => by split <;> simp [hlife]
  · exact thread_mapThreads f _ L Thread.wait fun n t => by split <;> simp [hwait]

/-- WHAT A READ CHANGES: the records of what has been read and nothing that a later read or a register returns. -/
structure OnlyRecords (d e : Dev) : Prop where
  mem : e.mem = d.mem
  teams : e.teams = d.teams
  groups : e.groups = d.groups
  uo : e.uo = d.uo
  past : e.past = d.past
  clock : e.clock = d.clock
  waiters : e.waiters = d.waiters
  fibre : ∀ u f, d.fibre? u = some f → ∃ f', e.fibre? u = some f' ∧ SameButRecords f f'

theorem OnlyRecords.refl (d : Dev) : OnlyRecords d d :=
  ⟨rfl, rfl, rfl, rfl, rfl, rfl, rfl, fun _ f h => ⟨f, h, .refl f⟩⟩

theorem OnlyRecords.trans {c d e : Dev} (h : OnlyRecords c d) (k : OnlyRecords d e) : OnlyRecords c e where
  mem := k.mem.trans h.mem
  teams := k.teams.trans h.teams
  groups := k.groups.trans h.groups
  uo := k.uo.trans h.uo
  past := k.past.trans h.past
  clock := k.clock.trans h.clock
  waiters := k.waiters.trans h.waiters
  fibre u f hf := by
    obtain ⟨f1, hf1, h1⟩ := h.fibre u f hf
    obtain ⟨f2, hf2, h2⟩ := k.fibre u f1 hf1
    exact ⟨f2, hf2, h1.trans h2⟩

theorem OnlyRecords.setFibre {d : Dev} {u : Nat} {f f' : Fibre} (hf : d.fibre? u = some f) (h : SameButRecords f f') :
    OnlyRecords d (d.setFibre f') := by
  refine ⟨rfl, rfl, rfl, rfl, rfl, rfl, rfl, fun v g hg => ?_⟩
  obtain ⟨ths, he, hl⟩ := h
  by_cases hv : v = f'.uid
  · have hg' : d.fibre? f.uid = some g := by rw [hv, he] at hg; exact hg
    obtain rfl : g = f := Option.some.inj (hg'.symm.trans (fibre?_uid hf))
    exact ⟨f', hv ▸ fibre?_setFibre_self (hv ▸ hg), ths, he, hl⟩
  · exact ⟨g, by rw [fibre?_setFibre_other hv, hg], .refl g⟩

/-- What only the order relation changes. -/
theorem OnlyRecords.of_before {d e : Dev} (h : ∃ b, e = { d with before := b }) : OnlyRecords d e := by
  obtain ⟨b, rfl⟩ := h
  exact ⟨rfl, rfl, rfl, rfl, rfl, rfl, rfl, fun _ f h => ⟨f, h, .refl f⟩⟩

theorem OnlyRecords.agreed (d : Dev) (x : List Agreed) : OnlyRecords d { d with agreed := x } :=
  ⟨rfl, rfl, rfl, rfl, rfl, rfl, rfl, fun _ f h => ⟨f, h, .refl f⟩⟩

theorem addBefore_eq (d : Dev) (e : Nat) (t : Bool) (ks : List Nat) : ∃ b, d.addBefore e t ks = { d with before := b } := by
  unfold Dev.addBefore
  split
  · exact ⟨_, rfl⟩
  · exact ⟨_, rfl⟩

theorem foldl_before_eq {α : Type} {step : Dev → α → Dev} (hstep : ∀ d a, ∃ b, step d a = { d with before := b }) (xs : List α) (d : Dev) :
    ∃ b, xs.foldl step d = { d with before := b } := by
  induction xs generalizing d with
  | nil => exact ⟨_, rfl⟩
  | cons x xs ih =>
    obtain ⟨b, hb⟩ := hstep d x
    obtain ⟨b', hb'⟩ := ih { d with before := b }
    exact ⟨b', by rw [List.foldl_cons, hb, hb']⟩

theorem acquireNotes_eq (d : Dev) (e : Nat) (ns : List RelNote) : ∃ b, acquireNotes d e ns = { d with before := b } :=
  foldl_before_eq (step := fun (d : Dev) (n : RelNote) => d.addBefore e false n.know) (fun d n => addBefore_eq d e false n.know) ns d

theorem OnlyRecords.meetNotes (d : Dev) (fib team core : Nat) (acqs : List (Nat × Scope)) (a : LaneAcc) (ns : List RelNote) :
    OnlyRecords d (meetNotes d fib team core acqs a ns) := by
  rw [Machine.meetNotes]
  split
  · exact .refl d
  · rename_i f hf
    obtain ⟨b, hb⟩ := foldl_before_eq (fun d q => acquireNotes_eq d q.1 (ns.filter fun n => n.syncs team core q.2)) acqs d
    dsimp only
    rw [hb]
    have hbefore := OnlyRecords.of_before (d := d) ⟨b, rfl⟩
    split
    · exact hbefore
    · exact hbefore.trans (.setFibre (u := fib) hf (.onLanes f _ (fun L t => by split <;> rfl) fun L t => by split <;> rfl))

theorem OnlyRecords.learn (d : Dev) (fib team core event : Nat) (acqs : List (Nat × Scope)) (back : Nat) (a : LaneAcc) :
    OnlyRecords d (learn d fib team core event acqs back a) := by
  have hmet : OnlyRecords d (Machine.meetNotes (d.addBefore event false (writesRead d core back team a)) fib team core acqs a
      (notesMet d core team back a)) := (OnlyRecords.of_before (addBefore_eq _ _ _ _)).trans (.meetNotes _ _ _ _ _ _ _)
  rw [Machine.learn]
  generalize Machine.meetNotes (d.addBefore event false (writesRead d core back team a)) fib team core acqs a
    (notesMet d core team back a) = met at hmet
  dsimp only
  split
  · exact hmet
  · rename_i f hf
    have hagreed : ∀ (c : Bool) x, OnlyRecords d (if c then met else { met with agreed := x }) ∧
        (if c then met else { met with agreed := x }).fibre? fib = some f := by
      intro c x
      cases c
      · exact ⟨hmet.trans (.agreed _ _), hf⟩
      · exact ⟨hmet, hf⟩
    split
    · exact (hagreed _ _).1
    · exact (hagreed _ _).1.trans (.setFibre (hagreed _ _).2 (.onLanes f _ (fun _ _ => rfl) fun _ _ => rfl))

theorem noted_life (t : Thread) (uo host reads : Bool) (evs : List Nat) :
    (t.noted uo host reads evs).life = t.life ∧ (t.noted uo host reads evs).wait = t.wait := by
  cases uo <;> cases host <;> exact ⟨rfl, rfl⟩

theorem note_life (a : LaneAcc) (ord : MOrd) (sc : Scope) (reads : Bool) (evs : List Nat) (t : Thread) :
    (a.note ord sc reads evs t).life = t.life ∧ (a.note ord sc reads evs t).wait = t.wait := by
  have hfold : ∀ (t : Thread), (evs.foldl (Thread.after · false sc ·) t).life = t.life ∧
      (evs.foldl (Thread.after · false sc ·) t).wait = t.wait := by
    induction evs with
    | nil => exact fun t => ⟨rfl, rfl⟩
    | cons e es ih => exact fun t => ih (t.after false sc e)
  have hn := noted_life t (!a.plain) a.host reads evs
  rw [LaneAcc.note]
  split
  · exact ⟨(hfold _).1.trans hn.1, (hfold _).2.trans hn.2⟩
  · exact hn

/-- What bytes an access reads depends on the memories and on the writes that may still be missed. -/
theorem bytesBack_congr {d e : Dev} (h : OnlyRecords d e) (core team back : Nat) (a : LaneAcc) :
    bytesBack e core team back a = bytesBack d core team back a := by
  have hread : ∀ p, readPlace e core team p = readPlace d core team p := fun p => by
    simp only [readPlace, uoRead, uoCopy, homeByte, Dev.team?, h.mem, h.teams, h.uo]
  have hcopy : ∀ p, copyRead e core p = copyRead d core p := fun p => by
    simp only [copyRead, uoCopy, h.uo]
  have hpast : ∀ b p, pastByte e b team p = pastByte d b team p := fun b p => by
    simp only [pastByte, h.past, h.clock]
  simp only [bytesBack, accBytes, funext hread, hcopy, hpast]

/-- A lane's read returns what its places hold, some writes ago where writes may still be missed, and leaves records alone. -/
theorem readNow_spec {d : Dev} {g : Flight} {f : Fibre} (hf : d.fibre? g.fib = some f) (a : LaneAcc) (ns : List RelNote) :
    (∃ b, (d.past = [] → b = 0) ∧ (readNow d g a ns).1 = bytesBack d g.core g.team b a) ∧ OnlyRecords d (readNow d g a ns).2 := by
  obtain ⟨b, hb⟩ := addBefore_eq { d with nextId := d.nextId + 1 } (soleEv d.nextId) false ((f.thread a.lane).viewOf (!a.plain) a.host)
  have hjoin : OnlyRecords d (d.join ((f.thread a.lane).viewOf (!a.plain) a.host)).2 := by
    rw [Dev.join, hb]
    exact ⟨rfl, rfl, rfl, rfl, rfl, rfl, rfl, fun _ f h => ⟨f, h, .refl f⟩⟩
  have hjf : (d.join ((f.thread a.lane).viewOf (!a.plain) a.host)).2.fibre? g.fib = some f := by
    rw [Dev.join, hb]
    exact hf
  have hnote := hjoin.trans (.setFibre hjf (.onLanes f (LaneMask.ofLanes [a.lane]) (g := fun _ t => a.note g.ord g.sc true
    [(d.join ((f.thread a.lane).viewOf (!a.plain) a.host)).1] t) (fun _ t => (note_life a _ _ _ _ t).1) fun _ t => (note_life a _ _ _ _ t).2))
  have hmet := fun acqs => hnote.trans (.meetNotes _ g.fib g.team g.core acqs a ns)
  rw [readNow, hf]
  refine ⟨⟨_, fun hp => ?_, bytesBack_congr (hmet _) _ _ _ _⟩, (hmet _).trans (.learn _ _ _ _ _ _ _ _)⟩
  rw [backOf, if_pos]
  rw [(hmet _).past, hp]
  rfl

/-! ### A register written -/

theorem find_map_setGroup (gs : List Group) (g : Group) (u : Nat) :
    (gs.map fun k => if k.uid == g.uid then g else k).find? (fun k => k.uid == u) =
      if u = g.uid then (gs.find? fun k => k.uid == u).map fun _ => g else gs.find? fun k => k.uid == u := by
  induction gs with
  | nil => simp
  | cons k gs ih =>
    rw [List.map_cons, List.find?_cons, List.find?_cons, ih]
    by_cases hk : k.uid = g.uid
    · by_cases hu : u = g.uid
      · simp [hk, hu]
      · have hgu : (g.uid == u) = false := beq_false_of_ne (Ne.symm hu)
        simp [hk, hu, hgu]
    · by_cases hu : u = g.uid
      · have hkb : (k.uid == g.uid) = false := beq_false_of_ne hk
        simp [hkb, hu]
      · simp [hk, hu]

theorem group_setGroup_self {d : Dev} {u : Nat} {g g' : Group} (h : d.groups.find? (fun g => g.uid == u) = some g) (hu : g'.uid = u) :
    (d.setGroup g').group u = g' := by
  rw [Dev.group, Dev.setGroup, find_map_setGroup, if_pos hu.symm, h]
  rfl

/-- Where a write leaves a fibre: its threads, its window and its group are as they were. -/
def SameButRegs (f f' : Fibre) : Prop := ∃ rs, f' = { f with regs := rs }

/-- WRITING A REGISTER THAT THERE IS: it holds the value, the others hold what they held, memory and the waiters stand. -/
theorem putReg_spec {d : Dev} {u r : Nat} {f : Fibre} (hf : d.fibre? u = some f) (hr : HasReg d f r) (v : VReg) :
    ∃ f', (putReg d f r v).fibre? u = some f' ∧ SameButRegs f f' ∧ (r ≠ 255 → regOf (putReg d f r v) f' r = v) ∧
      (∀ q, q ≠ r → regOf (putReg d f r v) f' q = regOf d f q) ∧ (putReg d f r v).mem = d.mem ∧
      (putReg d f r v).waiters = d.waiters := by
  have hu : f.uid = u := by simpa using List.find?_some hf
  by_cases h255 : r = 255
  · rw [putReg, if_pos h255]
    exact ⟨f, hf, ⟨f.regs, rfl⟩, fun h => absurd h255 h, fun _ _ => rfl, rfl, rfl⟩
  rw [putReg, if_neg h255]
  have hr := hr.resolve_left h255
  by_cases hw : f.isWindow r = true
  · rw [if_pos hw] at hr ⊢
    obtain ⟨g, hg, hlen⟩ := hr
    have hgroup : d.group f.grp = g := by rw [Dev.group, hg]; rfl
    have hgu : g.uid = f.grp := by simpa using List.find?_some hg
    have hself := group_setGroup_self (g' := { g with regs := setAt g.regs (r - f.nPriv) v }) hg hgu
    dsimp only
    rw [hgroup]
    refine ⟨f, hf, ⟨f.regs, rfl⟩, fun _ => ?_, fun q hq => ?_, rfl, rfl⟩
    · rw [regOf, if_neg h255, if_pos hw, hself, setAt_eq_set]
      simp [hlen]
    · rw [regOf, regOf]
      by_cases hqw : f.isWindow q = true
      · rw [if_pos hqw, if_pos hqw, hself, hgroup, setAt_eq_set]
        have hne : r - f.nPriv ≠ q - f.nPriv := by
          simp only [Fibre.isWindow, Bool.and_eq_true, decide_eq_true_eq] at hw hqw
          omega
        simp [List.getElem?_set_ne hne]
      · rw [if_neg hqw, if_neg hqw]
  · rw [if_neg hw] at hr ⊢
    refine ⟨{ f with regs := setAt f.regs r v }, ?_, ⟨_, rfl⟩, fun _ => ?_, fun q hq => ?_, rfl, rfl⟩
    · have := fibre?_setFibre_self (d := d) (g := { f with regs := setAt f.regs r v }) (f := f) (fibre?_uid hf)
      rw [← hu]; exact this
    · rw [regOf, if_neg h255, show Fibre.isWindow { f with regs := setAt f.regs r v } r = f.isWindow r from rfl, if_neg hw, setAt_eq_set]
      simp [hr]
    · rw [regOf, regOf, show Fibre.isWindow { f with regs := setAt f.regs r v } q = f.isWindow q from rfl, setAt_eq_set]
      simp only [group_setFibre]
      simp [List.getElem?_set_ne (Ne.symm hq)]

/-- ONE LANE'S RESULT WRITTEN AT ONCE. -/
theorem writeNow_lane_spec {d : Dev} {u r L : Nat} {f : Fibre} (hf : d.fibre? u = some f) (hr : HasReg d f r) (hL : L < 64)
    (hw : L < f.width) (hlive : (f.thread L).life = .live) (v : VReg) :
    let e := writeNow d u r (LaneMask.ofLanes [L]) false v
    ∃ f', e.fibre? u = some f' ∧ SameButRegs f f' ∧ (r ≠ 255 → regLane e f' r L = v.lane L) ∧
      (∀ q, q ≠ r → regOf e f' q = regOf d f q) ∧ e.mem = d.mem ∧ e.waiters = d.waiters := by
  have hhas : (LaneMask.ofLanes [L]).has L = true := by simp [hL]
  have he : writeNow d u r (LaneMask.ofLanes [L]) false v =
      putReg d f r (mergeReg f (regOf d f r) (LaneMask.ofLanes [L]) false v) := by
    rw [writeNow, if_neg (ne_zero_of_has hhas), hf]
  dsimp only
  rw [he]
  obtain ⟨f', hf', ⟨rs, rfl⟩, hval, hother, hmem, hwait⟩ := putReg_spec hf hr (mergeReg f (regOf d f r) (LaneMask.ofLanes [L]) false v)
  refine ⟨_, hf', ⟨rs, rfl⟩, fun h => ?_, hother, hmem, hwait⟩
  have hl : (Fibre.thread { f with regs := rs } L).life = .live := hlive
  rw [regLane, hval h]
  simp [mergeReg, laneVal, hl, hw, hL]

/-- A fibre found again after its replacement. -/
theorem fibre?_setFibre_of {d : Dev} {u : Nat} {f g : Fibre} (hf : d.fibre? u = some f) (hg : g.uid = f.uid) :
    (d.setFibre g).fibre? u = some g := by
  have hu : f.uid = u := by simpa using List.find?_some hf
  rw [← hu, ← hg]
  exact fibre?_setFibre_self (f := f) (by rw [hg]; exact fibre?_uid hf)

/-! ### A parked thread whose deadline has passed (R177) -/

/-- An access that reads no UO page brings no copy home. -/
theorem uoHome_eq_self {d : Dev} {core : Nat} {a : LaneAcc} (h : ∀ k, k ∈ a.kinds → k % 4 ≠ 2) : uoHome d core a = d := by
  have hz : ∀ pk, pk ∈ a.places.zip a.kinds → pk.2 % 4 ≠ 2 := fun pk hpk => h _ (List.of_mem_zip hpk).2
  rw [uoHome]
  revert hz
  generalize a.places.zip a.kinds = ps
  intro hz
  induction ps with
  | nil => rfl
  | cons p ps ih =>
    rw [List.foldl_cons]
    have hp : p.2 % 4 ≠ 2 := hz p List.mem_cons_self
    have hrest := ih fun pk hpk => hz pk (List.mem_cons_of_mem _ hpk)
    obtain ⟨pl, k⟩ := p
    cases pl with
    | phys b => simpa only [if_neg hp] using hrest
    | spad b => exact hrest
    | lit b => exact hrest

theorem readMc_eq (d : Dev) (fib lane : Nat) (a : LaneAcc) : ∃ h, readMc d fib lane a = { d with holds := h } := by
  unfold readMc
  split
  · exact ⟨_, rfl⟩
  · exact ⟨_, rfl⟩

theorem thread_onLanes_of_live {f : Fibre} {L : Nat} (h : (f.thread L).life = .live) (m : LaneMask) (g : Nat → Thread → Thread) :
    (f.onLanes m g).thread L = if m.has L then g L (f.thread L) else f.thread L := by
  have hL : L < f.threads.length := by
    by_contra hn
    rw [thread_of_le (Nat.not_lt.1 hn)] at h
    cases h
  simp [Fibre.thread, Fibre.onLanes, Fibre.mapThreads, hL]

/-- A fibre with one lane gone on. -/
def wokenLane (f : Fibre) (L : Nat) : Fibre := f.onLanes (LaneMask.ofLanes [L]) fun _ t => { t with wait := .none }

theorem wokenLane_thread {f : Fibre} {L : Nat} (hlive : (f.thread L).life = .live) (hL : L < 64) :
    (wokenLane f L).thread L = { f.thread L with wait := .none } := by
  rw [wokenLane, thread_onLanes_of_live hlive, if_pos (by simp [hL])]

/-- What a lane that returns reads, as a register's value. -/
def laneResult (f : Fibre) (L : Nat) (bs : List Byte) : VReg := .g ((List.range f.width).map fun K => if K = L then leWord bs else 0)

theorem laneResult_lane {f : Fibre} {L : Nat} (h : L < f.width) (bs : List Byte) : (laneResult f L bs).lane L = leWord bs := by
  simp [laneResult, VReg.lane, h]

/-- A parked thread returns: its waiter is gone, its lane goes on, and it reads its word and writes its register at once. -/
theorem returnWaiter_eq {d : Dev} {w : Waiter} {f : Fibre} (hf : d.fibre? w.fib = some f) (hlive : (f.thread w.lane).life = .live)
    (huo : ∀ k, k ∈ w.acc.kinds → k % 4 ≠ 2) : ∃ hs d1,
    d1 = Dev.setFibre { d with waiters := d.waiters.filter (· != w), holds := hs } (wokenLane f w.lane) ∧
    returnWaiter [] d w = writeNow (readNow d1 w.flight w.acc []).2 w.fib w.dst (LaneMask.ofLanes [w.lane]) false
      (laneResult f w.lane (readNow d1 w.flight w.acc []).1) := by
  obtain ⟨hs, hmc⟩ := readMc_eq { d with waiters := d.waiters.filter (· != w) } w.fib w.lane w.acc
  have hgone : Dev.fibre? { d with waiters := d.waiters.filter (· != w) } w.fib = some f := hf
  refine ⟨hs, _, rfl, ?_⟩
  rw [returnWaiter]
  dsimp only
  rw [hgone]
  dsimp only
  rw [hlive, uoHome_eq_self huo, hmc]
  rfl

theorem waitaddrDeadline_returns (s : State) (fib L : Nat) (w : Waiter) (f : Fibre)
    (hw : s.dev.waiters.find? (fun w => w.fib == fib && w.lane == L && !w.marked && w.deadline != BitVec.allOnes 64 &&
      decide (w.deadline.toNat ≤ s.clk.now.toNat)) = some w) (hf : s.dev.fibre? fib = some f) (hlive : (f.thread L).life = .live)
    (hL : L < 64) (hwd : L < f.width) (hreg : HasReg s.dev f w.dst) (huo : ∀ k, k ∈ w.acc.kinds → k % 4 ≠ 2) :
    ∃ d f', exec (.waitaddrDeadline fib L) s = .next (s.withDev d) ∧ w ∉ d.waiters ∧ d.fibre? fib = some f' ∧
      (f'.thread L).wait = .none ∧ d.mem = s.dev.mem ∧
      (w.dst ≠ 255 → ∃ b, (s.dev.past = [] → b = 0) ∧ regLane d f' w.dst L = leWord (bytesBack s.dev w.core w.team b w.acc)) ∧
      ∀ r, r ≠ w.dst → regOf d f' r = regOf s.dev f r := by
  obtain ⟨rfl, rfl⟩ : w.fib = fib ∧ w.lane = L := by
    have := List.find?_some hw
    simp only [Bool.and_eq_true, beq_iff_eq] at this
    exact ⟨this.1.1.1.1, this.1.1.1.2⟩
  have hexec : exec (.waitaddrDeadline w.fib w.lane) s = .next (s.withDev (returnWaiter [] s.dev w)) := by
    rw [exec, execWaitaddrDeadline, onDev, hw]
  obtain ⟨hs, d1, hd1, hret⟩ := returnWaiter_eq hf hlive huo
  have hwoken := wokenLane_thread hlive hL
  have hf1 : d1.fibre? w.fib = some (wokenLane f w.lane) := by
    rw [hd1]
    exact fibre?_setFibre_of (f := f) hf rfl
  -- the read leaves records alone, so the fibre it finds again is the woken one but for them
  obtain ⟨⟨b, hb0, hb⟩, hrec⟩ := readNow_spec (g := w.flight) hf1 w.acc []
  obtain ⟨f2, hf2, ths, rfl, hth⟩ := hrec.fibre w.fib _ hf1
  obtain ⟨hlife, hwait⟩ := hth w.lane
  rw [hwoken] at hlife hwait
  have hgroups : (readNow d1 w.flight w.acc []).2.groups = s.dev.groups := hrec.groups.trans (by rw [hd1]; rfl)
  have hreg2 : HasReg (readNow d1 w.flight w.acc []).2 { wokenLane f w.lane with threads := ths } w.dst := by
    rw [HasReg, hgroups]
    exact hreg
  obtain ⟨f', hf', ⟨rs, rfl⟩, hval, hother, hmem, hwaiters⟩ := writeNow_lane_spec hf2 hreg2 hL hwd (hlife.trans hlive)
    (laneResult f w.lane (readNow d1 w.flight w.acc []).1)
  refine ⟨_, { { wokenLane f w.lane with threads := ths } with regs := rs }, hexec, ?_, ?_, hwait, ?_, fun h => ⟨b, ?_, ?_⟩, fun r hr => ?_⟩
  · rw [hret, hwaiters, hrec.waiters, hd1]
    simp
  · rw [hret]
    exact hf'
  · rw [hret, hmem, hrec.mem, hd1]
    rfl
  · rw [hd1] at hb0
    exact hb0
  · have hbytes : bytesBack d1 w.flight.core w.flight.team b w.acc = bytesBack s.dev w.core w.team b w.acc := by rw [hd1]; rfl
    rw [hret, hval h, laneResult_lane hwd, hb, hbytes]
  · rw [hret, hother r hr, regOf_congr hgroups]
    rfl

/-! ### A stream's next element of the scratchpad (R183, R185) -/

theorem zip_map_fst_snd {α β : Type} (ps : List (α × β)) : (ps.map Prod.fst).zip (ps.map Prod.snd) = ps := by
  induction ps with
  | nil => rfl
  | cons p ps ih => rw [List.map_cons, List.map_cons, List.zip_cons_cons, ih]

/-- An engine's read of the scratchpad as it stands. -/
theorem bytesBack_spPlaces {d : Dev} {t : Team} {u : Nat} (ht : d.team? u = some t) (e : Engine) (core : Nat) (va : Word) (a n L : Nat) :
    bytesBack d core u 0 (e.acc va (spPlaces a n) L) = memBytes t.sp a n := by
  have hread : ∀ i, readPlace d core u (.spad (a + i), 0) = memRead t.sp (a + i) := fun i => by
    simp only [readPlace, homeByte, ht]
  have hps : (e.acc va (spPlaces a n) L).places.zip (e.acc va (spPlaces a n) L).kinds = spPlaces a n := zip_map_fst_snd _
  rw [bytesBack, if_pos rfl, accBytes, hps, spPlaces, List.map_map, memBytes_eq_map]
  exact List.map_congr_left fun i _ => hread i

/-- Where a command or a stream finds bytes of the scratchpad that nothing holds. -/
theorem engineFind_sp {d : Dev} {e : Engine} {t : Team} {va base : Word} {off : Int} {n : Nat} (hva : tAddr .sp base off = va)
    (hheld : engineHeld d e t (spPlaces va.toNat n) = false) (hbuf : e.buf = []) (hin : va.toNat + n ≤ spBytes t) :
    engineFind d e t .sp base off n = .ok (va, spPlaces va.toNat n) d := by
  have hplace : (spPlaces va.toNat n).map (fun p => (bufPlace e.buf (quarterOf e.core) p.1, p.2)) = spPlaces va.toNat n := by
    rw [hbuf, spPlaces, List.map_map]; rfl
  rw [engineFind, hva, if_pos hin, enginePlaces, hheld, hplace]
  rfl

theorem engineFind_sp_out {d : Dev} {e : Engine} {t : Team} {va base : Word} {off : Int} {n : Nat} (hva : tAddr .sp base off = va)
    (hout : spBytes t < va.toNat + n) : engineFind d e t .sp base off n = .bad 5 2 va := by
  rw [engineFind, hva]
  exact if_neg (Nat.not_le.2 hout)

/-- What an engine reads as of no writes ago where none may be missed. -/
theorem engineAsOf_zero {d : Dev} (h : d.past = []) (e : Engine) (t : Team) (q : Word × List (Place × Nat))
    (qs : List (Word × List (Place × Nat))) : engineAsOf d e t (q :: qs) = 0 := by
  have hb : engineBack d e t q.1 q.2 = 0 := by rw [engineBack, h]; rfl
  rw [engineAsOf]
  split
  · next hall =>
    have := List.all_eq_true.1 hall q List.mem_cons_self
    rw [hb] at this
    exact (beq_iff_eq.1 this).symm
  · rfl

theorem tAddr_zero (va : Word) : tAddr .sp va 0 = va := by simp [tAddr]

theorem engineHeld_none {d : Dev} {e : Engine} {t : Team} {ps : List (Place × Nat)} (hf : ∀ g, g ∈ d.flights → g.fib ≠ e.fib)
    (hc : ∀ c, c ∈ d.cmds → c.team = t.uid → e.direct ≤ c.id) : engineHeld d e t ps = false := by
  have h1 : (d.flights.any fun g => g.fib == e.fib && decide (g.id < e.since) && g.acc.any fun a =>
      e.ownLane a.lane && (a.cover.any fun p => ps.any fun q => q.1 == p) ||
      e.lanes.has a.lane && a.isSO && ps.any fun q => q.2 % 4 == 1) = false :=
    List.any_eq_false.2 fun g hg => by simp [hf g hg]
  rw [engineHeld, h1, Bool.false_or]
  exact List.any_eq_false.2 fun c hcm => by
    by_cases ht : c.team = t.uid
    · simp [Nat.not_lt.2 (hc c hcm ht)]
    · simp [ht]

/-- The engine of a stream asks for its element as of an instant of its own choice. -/
def Stream.asked (d : Dev) (st : Stream) (core c fib n : Nat) : Engine :=
  { st.engine d core c fib n with back := Config.older st.since (2 * st.prog + 1) }

theorem execStreamRunAhead_eq {s : State} {fib n : Nat} {f : Fibre} {t : Team} {st : Stream} (hf : s.dev.fibre? fib = some f)
    (ht : s.dev.team? f.team = some t) (hst : f.stream n = some st) (hen : streamEnabled s.dev st = true) :
    exec (.streamRunAhead fib n) s = .next (s.withDev
      (drainFault s.clk (setStream (streamStep s.dev (st.engine s.dev f.core f.ctx fib n) t st).2 fib n
        (some (streamStep s.dev (st.engine s.dev f.core f.ctx fib n) t st).1)) f n
        (streamStep s.dev (st.engine s.dev f.core f.ctx fib n) t st).1)) := by
  have hu : f.uid = fib := by simpa using List.find?_some hf
  simp only [exec, execStreamRunAhead, onDev, hf, hst, ht, hen, hu]
  rfl

theorem streamRunAhead_spec (s : State) (fib n : Nat) (f : Fibre) (t : Team) (st : Stream) (hf : s.dev.fibre? fib = some f)
    (ht : s.dev.team? f.team = some t) (hst : f.stream n = some st) (hstop : st.stop = none) (hafter : liveIds s.dev st.after = [])
    (hw : st.write = false) (hform : st.form = 2) (hsp : st.scratch = true) (hprog : st.prog < st.count) (hfifo : st.fifo.length < 64) :
    let va := st.base + BitVec.ofNat 64 (st.prog * st.bytes)
    let a := (st.engine s.dev f.core f.ctx fib n).acc va (spPlaces va.toNat st.bytes) 0
    bytesBack s.dev f.core t.uid 0 a = memBytes t.sp va.toNat st.bytes ∧
    (va.toNat + st.bytes ≤ spBytes t → st.buf = [] → (∀ g, g ∈ s.dev.flights → g.fib ≠ fib) → (∀ c, c ∈ s.dev.cmds → c.team ≠ t.uid) →
      ∃ b, (s.dev.past = [] → b = 0) ∧ exec (.streamRunAhead fib n) s = .next (s.withDev (setStream s.dev fib n
        (some { st with fifo := st.fifo ++ [leWord (bytesBack s.dev f.core t.uid b a)], prog := st.prog + 1 })))) ∧
    (spBytes t < va.toNat + st.bytes → st.closing = false →
      exec (.streamRunAhead fib n) s = .next (s.withDev (setStream s.dev fib n (some { st with stop := some (5, 2, va) })))) := by
  intro va a
  have hen : streamEnabled s.dev st = true := by simp [streamEnabled, hstop, hafter, hw, hprog, hfifo]
  have hexec := execStreamRunAhead_eq hf ht hst hen
  have hstep : streamStep s.dev (st.engine s.dev f.core f.ctx fib n) t st =
      match engineRead s.dev (st.asked s.dev f.core f.ctx fib n) t .sp va 0 st.bytes with
      | .bad k r a => ({ st with stop := some (k, r, a) }, s.dev)
      | .wait d => (st, d)
      | .ok bs d => ({ st with fifo := st.fifo ++ [leWord bs], prog := st.prog + 1 }, d) := by
    rw [streamStep, streamIdx, if_pos hform]
    simp only [hw, Stream.space, hsp]
    rfl
  refine ⟨bytesBack_spPlaces (team?_uid ht) _ _ _ _ _ _, fun hin hbuf hfl hcm => ?_, fun hout hclosing => ?_⟩
  · have hfind := engineFind_sp (d := s.dev) (e := st.asked s.dev f.core f.ctx fib n) (t := t) (tAddr_zero va)
      (engineHeld_none hfl fun c hc h => absurd h (hcm c hc)) hbuf hin
    rw [engineRead, hfind] at hstep
    refine ⟨engineAsOf s.dev (st.asked s.dev f.core f.ctx fib n) t [(va, spPlaces va.toNat st.bytes)],
      fun hp => engineAsOf_zero hp _ _ _ _, hexec.trans ?_⟩
    rw [hstep]
    dsimp only
    rw [drainFault]
    simp only [hstop]
    rfl
  · rw [engineRead, engineFind_sp_out (tAddr_zero va) hout] at hstep
    rw [hexec, hstep]
    simp only [drainFault, hclosing]
    rfl

/-! ### A flight that has performed -/

/-- A hold that sends no UO copies home ends. -/
theorem endHold_eq {h : Hold} (hfl : h.flush = false) (d : Dev) : ∃ sc b, endHold d h = { d with scs := sc, before := b } := by
  rw [endHold, hfl, if_neg Bool.false_ne_true]
  split
  · rw [takePlace]
    obtain ⟨b, hb⟩ := foldl_before_eq (step := fun (d : Dev) (n : RelNote) => d.addBefore h.event true n.know)
      (fun d n => addBefore_eq d h.event true n.know) (d.scs.filter fun n => n.syncs h.team h.core h.sc) d
    rw [hb]
    exact ⟨_, _, rfl⟩
  · exact ⟨_, _, rfl⟩

theorem foldl_endHold_eq {hs : List Hold} (hfl : ∀ h, h ∈ hs → h.flush = false) (d : Dev) :
    ∃ sc b, hs.foldl endHold d = { d with scs := sc, before := b } := by
  induction hs generalizing d with
  | nil => exact ⟨_, _, rfl⟩
  | cons h hs ih =>
    obtain ⟨sc, b, he⟩ := endHold_eq (hfl h List.mem_cons_self) d
    obtain ⟨sc', b', hr⟩ := ih (fun k hk => hfl k (List.mem_cons_of_mem _ hk)) { d with scs := sc, before := b }
    exact ⟨sc', b', by rw [List.foldl_cons, he, hr]⟩

/-- THE END OF A FLIGHT that no UO fence waits for: it is gone, with its holds. -/
theorem finishFlight_eq {d : Dev} {id : Nat} (h : NoUoFence d id) : ∃ sc bs hs b, finishFlight d id =
    { d with flights := d.flights.filter fun g => g.id != id, scs := sc, builds := bs, holds := hs, before := b } := by
  rw [finishFlight]
  obtain ⟨sc, b, he⟩ := foldl_endHold_eq (hs := d.holds.filter fun h => h.ids.contains id && (h.ids.filter (· != id)).isEmpty)
    (fun k hk => by
      obtain ⟨hmem, hc⟩ := List.mem_filter.1 hk
      by_contra hf
      exact h k hmem (by simpa using hf) (by simpa using (Bool.and_eq_true_iff.1 hc).1))
    { d with
      scs := (d.flights.filter fun g => g.id == id).flatMap Flight.marks ++ d.scs
      flights := d.flights.filter fun g => g.id != id
      builds := d.builds.filter fun b => b.id != id
      holds := (d.holds.map fun h => { h with ids := h.ids.filter (· != id) }).filter fun h => !h.ids.isEmpty }
  exact ⟨sc, _, _, b, he⟩

theorem finishFlight_flights {d : Dev} {id : Nat} (h : NoUoFence d id) : ∀ g, g ∈ (finishFlight d id).flights → g.id ≠ id := by
  obtain ⟨sc, bs, hs, b, he⟩ := finishFlight_eq h
  rw [he]
  exact fun g hg => by simpa using (List.mem_filter.1 hg).2

theorem finishFlight_mem {d : Dev} {id : Nat} (h : NoUoFence d id) : (finishFlight d id).mem = d.mem := by
  obtain ⟨sc, bs, hs, b, he⟩ := finishFlight_eq h
  rw [he]

theorem finishFlight_fibre? {d : Dev} {id : Nat} (h : NoUoFence d id) (u : Nat) : (finishFlight d id).fibre? u = d.fibre? u := by
  obtain ⟨sc, bs, hs, b, he⟩ := finishFlight_eq h
  rw [he]
  rfl

/-! ### A write stream drained (R185) -/

theorem predLane_setPred_true {t : Thread} {p : Nat} (hp : p < 24) : (t.setPred p true).preds.getLsbD p = true := by
  rw [Thread.setPred, if_neg (by omega), if_pos rfl, BitVec.getLsbD_or]
  simp [hp]

theorem setStream_eq {d : Dev} {u : Nat} {f : Fibre} (hf : d.fibre? u = some f) (n : Nat) (o : Option Stream) :
    setStream d u n o = d.setFibre { f with streams := setAt f.streams n o } := by rw [setStream, hf]

/-- The flight of a drain performs: its predicate is true in every lane it names, and the flight is over. -/
theorem perform_drain {d : Dev} {f : Fibre} {g : Flight} {n : Nat} (hkind : g.kind = .drain n) (hf : (d.setFibre f).fibre? g.fib = some f)
    (now : Word) : ∃ f', f'.uid = f.uid ∧ f'.streams = f.streams ∧
      (∀ p a, g.pdst = some p → p < 24 → a ∈ g.acc → a.lane < 64 → a.lane < f.threads.length → predLane f' p a.lane = true) ∧
      perform now [] (d.setFibre f) g = finishFlight (d.setFibre f') g.id := by
  cases hp : g.pdst with
  | none => exact ⟨f, rfl, rfl, fun p a h => absurd h (by simp), by rw [perform, hkind, hp]⟩
  | some p =>
    refine ⟨f.onLanes (landLanes f g true) fun _ t => t.setPred p true, rfl, rfl, fun q a hq h24 ha hL hlen => ?_, ?_⟩
    · obtain rfl : p = q := Option.some.inj hq
      have hhas : (landLanes f g true).has a.lane = true := by simpa [landLanes, hL] using ⟨a, ha, rfl⟩
      have hth : (f.onLanes (landLanes f g true) fun _ t => t.setPred p true).thread a.lane = (f.thread a.lane).setPred p true := by
        simp [Fibre.thread, Fibre.onLanes, Fibre.mapThreads, hlen, hhas]
      rw [predLane, hth, predLane_setPred_true h24, Bool.or_true]
    · rw [perform, hkind, hp, hf]
      dsimp only
      rw [writePredNow, hf]
      exact congrArg (finishFlight · g.id) (setFibre_setFibre rfl)

/-- A fibre whose stream is closed, its lanes knowing what the stream wrote. -/
def streamClosed (f : Fibre) (n : Nat) (g : Flight) (st : Stream) : Fibre :=
  Fibre.onLanes { f with streams := setAt f.streams n none } (LaneMask.ofLanes (g.acc.map LaneAcc.lane)) fun _ t => t.after false .sys st.event

theorem knowAfter_setStream {d : Dev} {fib : Nat} {f : Fibre} (hf : d.fibre? fib = some f) (n : Nat) (g : Flight) (st : Stream) :
    knowAfter (setStream d fib n none) fib (LaneMask.ofLanes (g.acc.map LaneAcc.lane)) .sys st.event = d.setFibre (streamClosed f n g st) := by
  rw [setStream_eq hf, knowAfter, fibre?_setFibre_of hf (g := { f with streams := setAt f.streams n none }) rfl, streamClosed]
  exact setFibre_setFibre rfl

theorem streamDrainComplete_closes (s : State) (fib n : Nat) (f : Fibre) (st : Stream) (g : Flight) (hf : s.dev.fibre? fib = some f)
    (hst : f.stream n = some st) (hclosing : st.closing = true) (hfifo : st.fifo = [])
    (hg : s.dev.flights.find? (fun g => g.fib == fib && g.kind == .drain n) = some g) (hno : NoUoFence s.dev g.id)
    (hn : n < f.streams.length) :
    ∃ d f', exec (.streamDrainComplete fib n) s = .next (s.withDev d) ∧ d.fibre? fib = some f' ∧ f'.stream n = none ∧
      (∀ h, h ∈ d.flights → h.id ≠ g.id) ∧ d.mem = s.dev.mem ∧
      ∀ p a, g.pdst = some p → p < 24 → a ∈ g.acc → a.lane < 64 → a.lane < f.threads.length → predLane f' p a.lane = true := by
  obtain ⟨hfib, hkind⟩ : g.fib = fib ∧ g.kind = .drain n := by simpa using List.find?_some hg
  have hexec : exec (.streamDrainComplete fib n) s =
      .next (s.withDev (perform s.clk.now [] (s.dev.setFibre (streamClosed f n g st)) g)) := by
    simp only [exec, execStreamDrainComplete, onDev, hf, hst, hg, hclosing, hfifo, knowAfter_setStream hf]
    rfl
  have hfind : (s.dev.setFibre (streamClosed f n g st)).fibre? g.fib = some (streamClosed f n g st) := by
    rw [hfib]
    exact fibre?_setFibre_of hf rfl
  have hclosed : (streamClosed f n g st).stream n = none := by simp [streamClosed, Fibre.stream, setAt_eq_set, hn]
  have hlen : (streamClosed f n g st).threads.length = f.threads.length := by simp [streamClosed, Fibre.onLanes, Fibre.mapThreads]
  obtain ⟨f', hu, hstreams, hpred, hperf⟩ := perform_drain hkind hfind s.clk.now
  have hno' : NoUoFence (s.dev.setFibre f') g.id := hno
  refine ⟨finishFlight (s.dev.setFibre f') g.id, f', by rw [hexec, hperf], ?_, ?_, finishFlight_flights hno', finishFlight_mem hno',
    hlen ▸ hpred⟩
  · rw [finishFlight_fibre? hno']
    exact fibre?_setFibre_of hf hu
  · rw [Fibre.stream, hstreams]
    exact hclosed

/-! ### A flip performs at a home Quarter (R197) -/

/-- A fold over a store's bytes that changes the UO copies alone. -/
theorem foldl_uo_ind {α : Type} {step : Dev → α → Dev} {P : Dev → Prop} {d : Dev} {ps : List α}
    (hstep : ∀ e p, ∃ u, step e p = { e with uo := u }) (h : ∀ u, P { d with uo := u }) : P (ps.foldl step d) := by
  induction ps generalizing d with
  | nil => exact h d.uo
  | cons p ps ih =>
    obtain ⟨u, hu⟩ := hstep d p
    rw [List.foldl_cons, hu]
    exact ih h

/-- A store that goes through to its home leaves there its bytes, one after the other. -/
theorem storeBytes_through (d : Dev) (w : Author) (rmw : Bool) (ps : List ((Place × Nat) × Byte)) :
    (∀ a, memRead (storeBytes d w true rmw ps).mem a =
      (((ps.filter fun p => p.1.1 == .phys a).getLast?).map Prod.snd).getD (memRead d.mem a)) ∧
      (storeBytes d w true rmw ps).holds = d.holds := by
  have hfar : (ps.filter fun p => p.1.2 % 4 != 2 || true) = ps := List.filter_eq_self.2 fun p _ => Bool.or_true _
  rw [storeBytes, hfar]
  refine foldl_uo_ind (P := fun e => (∀ a, memRead (if ps.isEmpty then e else homeWrite e w rmw (ps.map fun p => (p.1.1, p.2))).mem a =
      (((ps.filter fun p => p.1.1 == .phys a).getLast?).map Prod.snd).getD (memRead d.mem a)) ∧
      (if ps.isEmpty then e else homeWrite e w rmw (ps.map fun p => (p.1.1, p.2))).holds = d.holds) (fun e p => ?_) fun u => ?_
  · split
    · split
      · exact ⟨e.uo, rfl⟩
      · exact ⟨_, rfl⟩
    · exact ⟨e.uo, rfl⟩
  · cases ps with
    | nil => exact ⟨fun a => rfl, rfl⟩
    | cons p ps =>
      obtain ⟨ts, ns, q, hh⟩ := homeWrite_eq { d with uo := u } w rmw ((p :: ps).map fun p => (p.1.1, p.2))
      rw [List.isEmpty_cons, if_neg Bool.false_ne_true, hh]
      refine ⟨fun a => (memRead_foldl_putHome _ _ _ a).trans ?_, rfl⟩
      rw [List.filter_map, List.getLast?_map, Option.map_map]
      rfl

theorem stepPlace_none {p : Place × Nat} (hk : mcKind p.2 = false) (a : LaneAcc) (i : Nat) : stepPlace a none true i p = some p := by
  obtain ⟨pl, k⟩ := p
  have hk : mcKind k = false := hk
  cases pl <;> simp [stepPlace, hk]

theorem flipPerform_stores (s : State) (id q : Nat) (g : Flight) (a : LaneAcc)
    (hg : s.dev.flights.find? (fun g => g.id == id && g.kind == .flip q) = some g) (hmay : mayPerform s.dev g = true)
    (hno : NoUoFence s.dev g.id) (hacc : g.acc = [a]) (hmc : ∀ k, k ∈ a.kinds → mcKind k = false) :
    ∃ d, exec (.flipPerform id q) s = .next (s.withDev d) ∧
      (∀ b, memRead d.mem b = (lastStored g b).getD (memRead s.dev.mem b)) ∧ ∀ h, h ∈ d.flights → h.id ≠ g.id := by
  obtain ⟨-, hkind⟩ : g.id = id ∧ g.kind = .flip q := by simpa using List.find?_some hg
  have hexec : exec (.flipPerform id q) s = .next (s.withDev (perform s.clk.now [] s.dev g)) := by
    simp only [exec, execFlipPerform, onDev, hg, hmay, if_pos]
  have hps : ((((a.places.zip a.kinds).zip a.data).zipIdx).filterMap fun pb =>
      (stepPlace a none true pb.2 pb.1.1).map fun p => (p, pb.1.2)) = (a.places.zip a.kinds).zip a.data := by
    rw [List.filterMap_congr (g := some ∘ Prod.fst) fun pb hpb => ?_, List.filterMap_eq_map, List.zipIdx_map_fst]
    have hk : mcKind pb.1.1.2 = false := hmc _ (List.of_mem_zip (List.of_mem_zip (List.fst_mem_of_mem_zipIdx hpb)).1).2
    rw [stepPlace_none hk]
    rfl
  have hperf : perform s.clk.now [] s.dev g =
      finishFlight (storeBytes s.dev ({ g with through := true }.author a) true false ((a.places.zip a.kinds).zip a.data)) g.id := by
    rw [perform, hkind]
    dsimp only
    rw [hacc, List.foldl_cons, List.foldl_nil, storeLane, recordWrite, hps]
  obtain ⟨hread, hholds⟩ := storeBytes_through s.dev ({ g with through := true }.author a) false ((a.places.zip a.kinds).zip a.data)
  have hno' : NoUoFence (storeBytes s.dev ({ g with through := true }.author a) true false ((a.places.zip a.kinds).zip a.data)) g.id := by
    rw [NoUoFence, hholds]; exact hno
  refine ⟨_, hexec, fun b => ?_, ?_⟩
  · rw [hperf, finishFlight_mem hno', hread, lastStored, hacc]
    simp
  · rw [hperf]
    exact finishFlight_flights hno'

/-! ### A command's step (R196, R213 to R215) -/

theorem trowelCommandStart_moves (s : State) (core : Nat) (c : Cmd) (hc : nextCmd s.dev core = some c) (hm : cmdMayStart s.dev c = true) :
    let r := moveStep s.dev c c.next fun k => Config.older c.id (4 * c.next + k)
    exec (.trowelCommandStart core) s = .next (s.withDev (r.1.setCmd r.2)) := by
  simp only [exec, execTrowelCommandStart, onDev, hc, hm, if_pos]

theorem completionArrival_lands (s : State) (id : Nat) (c : Cmd)
    (hc : s.dev.cmds.find? (fun c => c.id == id && c.state == .moved) = some c) :
    exec (.completionArrival id) s = .next (s.withDev (landCmd { s.dev with cmds := s.dev.cmds.filter fun b => b.id != id } c)) := by
  simp only [exec, execCompletionArrival, onDev, hc]

theorem Cmd.next_spec (c : Cmd) (h : c.prog < c.total) :
    c.prog ≤ c.next ∧ c.next < c.total ∧ (c.next ≠ c.prog → ∀ q, q ∈ c.done → q.1 ≠ c.next) := by
  have hmod : Config.ahead c.id (c.prog + c.done.length) % (c.total - c.prog) < c.total - c.prog := Nat.mod_lt _ (by omega)
  rw [Cmd.next]
  split
  · exact ⟨Nat.le_refl _, h, fun hn => absurd rfl hn⟩
  · dsimp only
    split
    · exact ⟨Nat.le_refl _, h, fun hn => absurd rfl hn⟩
    · next hdone =>
      refine ⟨by omega, by omega, fun _ q hq hqp => hdone ?_⟩
      exact List.any_eq_true.2 ⟨q, hq, beq_iff_eq.2 hqp⟩

theorem Cmd.stepped_spec (c : Cmd) (p : Nat) (put : List (Int × Nat)) :
    (p ≠ c.prog → c.stepped p put =
      { c with done := (p, put) :: c.done, pos := p, state := if c.total ≤ c.prog then .moved else .moving }) ∧
    (c.done = [] → c.stepped c.prog put =
      { c with prog := c.prog + 1, pos := c.prog, state := if c.total ≤ c.prog + 1 then .moved else .moving }) := by
  constructor
  · intro hp
    rw [Cmd.stepped, if_neg hp]
    rfl
  · intro hd
    have hcount : ∀ step : Nat → Nat → Nat, (List.range c.done.length).foldl step (c.prog + 1) = c.prog + 1 := by simp [hd]
    have hfilter : ∀ keep : Nat × List (Int × Nat) → Bool, c.done.filter keep = c.done := by simp [hd]
    rw [Cmd.stepped, if_pos rfl]
    simp only [hcount, hfilter]
    rfl

/-- A run of bytes put one by one at their offsets. -/
theorem foldl_memWrite_range (m : List Host.Cell) (a n : Nat) (bs : List Byte) (hn : bs.length = n) :
    (bs.zip (List.range n)).foldl (fun m q => memWrite m (a + q.2) q.1) m = memPut m a bs := by
  have hz : bs.zip (List.range n) = bs.zipIdx := by
    rw [List.zipIdx_eq_zip_range', List.range_eq_range', hn]
  rw [hz]
  exact foldl_memWrite_zipIdx bs m a 0

/-- The one part of a plain element, read from a scratchpad that nothing holds back. -/
theorem readParts_sp {d : Dev} {c : Cmd} {t : Team} {off : Int} {n : Nat} {src : Word} (ht : d.team? c.team = some t) (hsrc : c.src = .sp)
    (hbuf : c.buf = []) (hpast : d.past = []) (hva : tAddr .sp c.srcA off = src)
    (hheld : engineHeld d (c.engine 0) t (spPlaces src.toNat n) = false) (hin : src.toNat + n ≤ spBytes t) (back : Nat) :
    readParts c t back [(off, n)] d = .ok [memBytes t.sp src.toNat n] d := by
  rw [readParts, findParts, hsrc, engineFind_sp hva hheld hbuf hin]
  dsimp only
  rw [findParts]
  dsimp only
  rw [engineTake, List.map_singleton, engineAsOf_zero hpast, show (c.engine back).core = c.core from rfl, bytesBack_spPlaces (team?_uid ht)]

theorem engineWriteHeld_none {d : Dev} {e : Engine} {t : Team} {va : Word} {ps : List (Place × Nat)} (hheld : engineHeld d e t ps = false)
    (hafter : e.afterW = []) (hb : ∀ b, b ∈ d.builds → b.fib ≠ e.fib) : engineWriteHeld d e t va ps = false := by
  have hbuilds : (d.builds.any fun b => b.fib == e.fib && decide (b.id < e.since) && b.reads (e.acc va ps 0)) = false :=
    List.any_eq_false.2 fun b hbm => by simp [hb b hbm]
  rw [engineWriteHeld, hheld, hbuilds, hafter]
  rfl

/-- Bytes of an element written to a scratchpad that nothing holds back, no higher position having written any. -/
theorem engineWrite_sp {d : Dev} {c : Cmd} {t : Team} {off : Int} {bs : List Byte} {dst : Word} (hdst : c.dst = .sp) (hdone : c.done = [])
    (hva : tAddr .sp c.dstA off = dst) (hheld : engineWriteHeld d (c.engine 0) t dst (spPlaces dst.toNat bs.length) = false)
    (hin : dst.toNat + bs.length ≤ spBytes t) (p : Nat) :
    engineWrite d c t p off bs = .ok () (endNotes (d.setTeam { t with sp := memPut t.sp dst.toNat bs }) t.uid
      ((List.range bs.length).map fun i => .spad (dst.toNat + i))) := by
  have hwon : (bs.zip (List.range bs.length)).filter (fun q => !c.won p (off + q.2)) = bs.zip (List.range bs.length) :=
    List.filter_eq_self.2 fun q _ => by simp [Cmd.won, hdone]
  have hdests : (bs.zip (List.range bs.length)).map (fun q => Place.spad (dst.toNat + q.2)) =
      (List.range bs.length).map fun i => .spad (dst.toNat + i) := by
    rw [← Function.comp_def (fun i => Place.spad (dst.toNat + i)) Prod.snd, ← List.map_map, List.map_snd_zip (by simp)]
  rw [engineWrite, hdst]
  dsimp only
  rw [hwon, hva, if_pos hin, hheld, foldl_memWrite_range _ _ _ _ rfl, hdests]
  rfl

theorem moveStep_sp_sp (d : Dev) (c : Cmd) (p : Nat) (back : Nat → Nat) (t : Team) (ht : d.team? c.team = some t) (hop : c.op = .cpy)
    (hsrc : c.src = .sp) (hdst : c.dst = .sp) (hblk : c.blk = false) (hbuf : c.buf = []) :
    let n := elemBytes c.fmt false
    let src := c.srcA + BitVec.ofInt 64 (c.strided p * n)
    let dst := c.dstA + BitVec.ofInt 64 ((p : Int) * n)
    (d.past = [] → c.done = [] → c.afterW = [] → (∀ g, g ∈ d.flights → g.fib ≠ c.fib) → (∀ b, b ∈ d.builds → b.fib ≠ c.fib) →
      (∀ k, k ∈ d.cmds → k.team = c.team → c.id ≤ k.id) → src.toNat + n ≤ spBytes t → dst.toNat + n ≤ spBytes t → moveStep d c p back =
      (endNotes (d.setTeam { t with sp := memPut t.sp dst.toNat (memBytes t.sp src.toNat n) }) t.uid
        ((List.range n).map fun i => .spad (dst.toNat + i)), c.stepped p [((p : Int) * n, n)])) ∧
    (spBytes t < src.toNat + n → moveStep d c p back = (d, { c with state := .faulted 5 2 src, pos := p })) := by
  intro n src dst
  have hidx : readIdx d c t p (back 0) = .ok 0 d := by rw [readIdx, hop]
  have helem : c.elements p 0 = (c.strided p, (p : Int)) := by rw [Cmd.elements, hop]
  have hfrom : elemParts c.fmt c.blk c.sOff (c.strided p) = [(c.strided p * n, n)] := by rw [hblk]; rfl
  have hto : elemParts c.fmt c.blk c.dOff p = [((p : Int) * n, n)] := by rw [hblk]; rfl
  refine ⟨fun hpast hdone hafter hfl hbu hcm hsin hdin => ?_, fun hout => ?_⟩
  · have hbs : (memBytes t.sp src.toNat n).length = n := length_memBytes _ _ _
    have hheld : ∀ ps, engineHeld d (c.engine 0) t ps = false := fun ps =>
      engineHeld_none hfl fun k hk h => hcm k hk (h.trans (uid_of_team? ht))
    have hread : readParts c t (back 1) [(c.strided p * n, n)] d = .ok [memBytes t.sp src.toNat n] d :=
      readParts_sp ht hsrc hbuf hpast rfl (hheld _) hsin (back 1)
    have hwrite := engineWrite_sp (off := (p : Int) * n) (bs := memBytes t.sp src.toNat n) hdst hdone rfl
      (engineWriteHeld_none (hheld _) hafter hbu) (by rw [hbs]; exact hdin) p
    rw [hbs] at hwrite
    rw [moveStep, moveElem, ht]
    dsimp only
    rw [hidx]
    dsimp only
    rw [helem, hfrom, hread]
    dsimp only
    rw [hto, List.zip_cons_cons, List.zip_nil_left, writeParts, ht]
    dsimp only
    rw [hwrite]
    rfl
  · have hread : readParts c t (back 1) (elemParts c.fmt c.blk c.sOff (c.strided p)) d = .bad 5 2 src := by
      rw [readParts, hfrom, findParts, hsrc, engineFind_sp_out (va := src) rfl hout]
    rw [moveStep, moveElem, ht]
    dsimp only
    rw [hidx]
    dsimp only
    rw [helem, hread]

/-! ### The strided element (R214) -/

theorem strided_eq (c : Cmd) (p : Nat) (hext : c.ext.length = 4) :
    c.strided p = (p % c.ext.getD 0 1 : Nat) * (c.str.getD 0 0).toInt + (p / c.ext.getD 0 1 % c.ext.getD 1 1 : Nat) * (c.str.getD 1 0).toInt +
      (p / (c.ext.getD 0 1 * c.ext.getD 1 1) % c.ext.getD 2 1 : Nat) * (c.str.getD 2 0).toInt +
      (p / (c.ext.getD 0 1 * c.ext.getD 1 1 * c.ext.getD 2 1) % c.ext.getD 3 1 : Nat) * (c.str.getD 3 0).toInt := by
  obtain ⟨e0, e1, e2, e3, he⟩ : ∃ e0 e1 e2 e3, c.ext = [e0, e1, e2, e3] := by
    match c.ext, hext with
    | [e0, e1, e2, e3], _ => exact ⟨e0, e1, e2, e3, rfl⟩
  have hsum : ∀ f : Nat → Int, ((List.range 4).map f).foldl (· + ·) 0 = f 0 + f 1 + f 2 + f 3 := fun f => by
    simp [List.range_succ]
  have hpos : posIdx c.ext p 0 = p % e0 ∧ posIdx c.ext p 1 = p / e0 % e1 ∧ posIdx c.ext p 2 = p / (e0 * e1) % e2 ∧
      posIdx c.ext p 3 = p / (e0 * e1 * e2) % e3 := by simp [posIdx, he]
  obtain ⟨h0, h1, h2, h3⟩ := hpos
  rw [Cmd.strided, hsum, h0, h1, h2, h3, he]
  rfl

/-! ### A command's fault (R220, R303) -/

theorem ctx_setCtx_self {d : Dev} {c : Nat} (h : c < d.ctxs.length) (x : Ctx) : (d.setCtx c x).ctx c = x := by
  rw [Dev.ctx, Dev.setCtx, setAt_eq_set]
  simp [h]

/-- The kind and the source of a fault record's first word. -/
theorem field_recWord0_kind {src : Nat} (hs : src < 16) (kind reason width ctx : Nat) :
    field (recWord0 kind src reason width ctx) 0 8 = kind % 16 + 16 * src := by
  rw [field, recWord0, BitVec.toNat_ofNat]
  omega

theorem commandFault_record (s : State) (id : Nat) (c : Cmd) (k r : Nat) (va : Word) (hc : s.dev.cmds.find? (fun c => c.id == id) = some c)
    (hst : c.state = .faulted k r va) (hx : c.ctx < s.dev.ctxs.length) :
    ∃ d rec', exec (.commandFault id) s = .next (s.withDev d) ∧ (d.ctx c.ctx).owed = (s.dev.ctx c.ctx).owed ++ [rec'] ∧
      d.cmds = s.dev.cmds.map (fun b => if b.id == c.id then { c with state := .suspended } else b) ∧ rec'.ws.getD 2 0 = c.pc ∧
      rec'.ws.getD 3 0 = va ∧ rec'.ws.getD 5 0 = BitVec.ofNat 64 c.pos ∧ rec'.ws.getD 6 0 = c.lid ∧
      field (rec'.ws.getD 0 0) 0 8 = k % 16 + 16 ∧ field (rec'.ws.getD 7 0) 44 20 = engineToken c.core c.entry false % 2 ^ 20 := by
  obtain ⟨e, he⟩ : ∃ e, e = engineRecord s.clk.now 1 k r c.ctx c.pc va (BitVec.ofNat 64 c.pos) c.lid c.teamIdx c.first
    (engineToken c.core c.entry false) := ⟨_, rfl⟩
  refine ⟨(s.dev.setCmd { c with state := .suspended }).setCtx c.ctx { s.dev.ctx c.ctx with owed := (s.dev.ctx c.ctx).owed ++ [e] }, e,
    ?_, ?_, rfl, by rw [he]; rfl, by rw [he]; rfl, by rw [he]; rfl, by rw [he]; rfl, ?_, ?_⟩
  · simp only [exec, execCommandFault, onDev, hc, hst, ← he]
    rfl
  · exact congrArg Ctx.owed (ctx_setCtx_self hx _)
  · rw [he]
    exact field_recWord0_kind (by omega) _ _ _ _
  · have hw : field (e.ws.getD 7 0) 44 20 = field (BitVec.ofNat 64 (c.teamIdx % 2 ^ 32 + 2 ^ 32 * (c.first % 4096) +
        2 ^ 44 * engineToken c.core c.entry false)) 44 20 := by rw [he]; rfl
    rw [hw, field, BitVec.toNat_ofNat]
    omega

/-- Settles O42: each event takes its one effect, the engines' reads and writes coming down to bytes of the scratchpad or of memory. -/
theorem eventsOfFibresMemoryAndEngines : Obligations.EventsOfFibresMemoryAndEngines := by
  unfold Obligations.EventsOfFibresMemoryAndEngines
  refine ⟨⟨holdLimit_passes, helperReady_ends, overlayLoadComplete_effect, frameFillComplete_holds, zeroingComplete_last,
    zeroingComplete_more, waitaddrDeadline_returns⟩, streamRunAhead_spec, streamDrainComplete_closes, trowelCommandStart_moves,
    Cmd.next_spec, Cmd.stepped_spec, moveStep_sp_sp, fun c p hext _ _ => strided_eq c p hext, completionArrival_lands,
    commandFault_record, flipPerform_stores⟩

end Sys2Proof.Machine
end

section
/-!
PROOF of `ContextEvents`. The layout of the save area is stated once, as lists of bytes put end to end with their lengths, and both what a
save writes (`saveContext_writes`) and what a restore reads back (`readBlock_self`) are read off it. Loading a restored team's code may walk,
zero pages and make room; `CodeLoaded` says once what it leaves.
-/

namespace Sys2Proof.Machine

/-! ### Stops, slices and requests (R298, R302, R307) -/

theorem onCtx_of_lt {c : Nat} (hc : c < 64) (s : State) (g : State → Dev) : onCtx c s g = .next (s.withDev (g s)) := by
  simp only [onCtx, onDev, hc, if_true]

theorem debugThreadStop_freezes (s : State) (c : Nat) (f : Fibre) (L : Nat) (hc : c < 64) (ha : (s.dev.ctx c).dstopArmed = true)
    (ht : stopTarget s.dev c = some (f, L)) (hf : f.frozen = none) :
    exec (.debugThreadStop c) s = .next (s.withDev (takeFault s.clk
      (s.dev.setCtx c { s.dev.ctx c with dstopArmed := false }) f.uid (f.thread L).pc ⟨12, 1, 0, LaneMask.ofLanes [L], 0⟩)) := by
  rw [exec, execDebugThreadStop, onCtx_of_lt hc]
  simp [ha, ht, hf]

/-- What a thread stop names. -/
theorem stopTarget_spec (d : Dev) (c : Nat) (f : Fibre) (L : Nat) (h : stopTarget d c = some (f, L)) :
    f ∈ d.fibres ∧ f.ctx = c ∧ L < f.width ∧ f.liveLane L = true ∧
      ∃ t, d.team? f.team = some t ∧ t.lid = (d.ctx c).dstopl ∧ laneTeam f t L % 2 ^ 32 = field (d.ctx c).dstopt 0 32 := by
  rw [stopTarget] at h
  obtain ⟨g, hg, hsome⟩ := List.exists_of_findSome?_eq_some h
  obtain ⟨hmem, hctx⟩ := List.mem_filter.1 hg
  split at hsome
  · cases hsome
  · rename_i t ht
    obtain ⟨K, hK, heq⟩ := Option.map_eq_some_iff.1 hsome
    obtain ⟨rfl, rfl⟩ : g = f ∧ K = L := by simpa using heq
    have hnamed := List.find?_some hK
    simp only [stopNamed, Bool.and_eq_true, beq_iff_eq] at hnamed
    obtain ⟨⟨⟨hlive, hlaunch⟩, hteam⟩, -⟩ := hnamed
    exact ⟨hmem, by simpa using hctx, List.mem_range.1 (List.mem_of_find?_eq_some hK), hlive, t, ht, hlaunch, hteam⟩

theorem haltRequest_halts (s : State) (c : Nat) (hc : c < 64) (hr : (s.dev.ctx c).state = .running) :
    exec (.haltRequest c) s = .next (s.withDev (s.dev.setCtx c
      { s.dev.ctx c with state := .preempted, goal := some .switched, haltAt := s.clk.now })) := by
  rw [exec, execHaltRequest, onCtx_of_lt hc, if_pos hr, requestHalt]

theorem timeSliceExpiry_halts (s : State) (c k : Nat) (hc : c < 64) (hk : k < 64) (hkc : k ≠ c) :
    let x := s.dev.ctx c
    x.state = .running → x.runSince.toNat + (if x.slice = 0 then 2000000 else x.slice) ≤ s.clk.now.toNat →
    (s.dev.ctx k).prio = x.prio → stuck (afterHalts s.dev) k = true →
    exec (.timeSliceExpiry c) s = .next (s.withDev (s.dev.setCtx c
      { x with state := .preempted, goal := some .switched, haltAt := s.clk.now })) := by
  intro x hr hslice hprio hstuck
  have hpeer : ((List.range 64).any fun k => k != c && (s.dev.ctx k).prio == (s.dev.ctx c).prio && stuck (afterHalts s.dev) k) = true :=
    List.any_eq_true.2 ⟨k, List.mem_range.2 hk, by simp [hkc, hstuck, show (s.dev.ctx k).prio = (s.dev.ctx c).prio from hprio]⟩
  rw [exec, execTimeSliceExpiry, onCtx_of_lt hc]
  dsimp only
  rw [if_pos ⟨hr, hslice, hpeer⟩, requestHalt]

/-! ### Who is halted for a context that waits (R298) -/

/-- The better victim of the best so far and a context of a higher number. -/
def lowerOf (d : Dev) (best : Option Nat) (c : Nat) : Option Nat :=
  match best with
  | none => some c
  | some b => if (d.ctx c).prio ≤ (d.ctx b).prio then some c else some b

theorem victimBelow_eq (d : Dev) (p : Nat) : victimBelow d p =
    ((List.range 64).filter fun c => (d.ctx c).state == .running && decide ((d.ctx c).prio < p)).foldl (lowerOf d) none := rfl

/-- Of contexts in ascending order the fold leaves the lowest priority, and of equals the highest number. -/
theorem foldl_lowerOf (d : Dev) (cs : List Nat) (hcs : cs.Pairwise (· < ·)) :
    (cs.foldl (lowerOf d) none = none → cs = []) ∧ ∀ v, cs.foldl (lowerOf d) none = some v →
      v ∈ cs ∧ ∀ c, c ∈ cs → (d.ctx v).prio < (d.ctx c).prio ∨ ((d.ctx v).prio = (d.ctx c).prio ∧ c ≤ v) := by
  induction cs using List.reverseRecOn with
  | nil => exact ⟨fun _ => rfl, fun v h => by cases h⟩
  | append_singleton cs c ih =>
    obtain ⟨hpw, -, hlt⟩ := List.pairwise_append.1 hcs
    have hlt : ∀ b, b ∈ cs → b < c := fun b hb => hlt b hb c List.mem_cons_self
    obtain ⟨hnone, hsome⟩ := ih hpw
    rw [List.foldl_append, List.foldl_cons, List.foldl_nil]
    cases hbest : cs.foldl (lowerOf d) none with
    | none =>
      obtain rfl := hnone hbest
      refine ⟨fun h => (by cases h), fun v h => ?_⟩
      obtain rfl : c = v := Option.some.inj h
      exact ⟨by simp, fun b hb => .inr (by simp_all)⟩
    | some b =>
      obtain ⟨hb, hbc⟩ := hsome b hbest
      rw [lowerOf]
      split
      · next hle =>
        refine ⟨fun h => (by cases h), fun v h => ?_⟩
        obtain rfl : c = v := Option.some.inj h
        refine ⟨by simp, fun a ha => ?_⟩
        obtain ha | rfl : a ∈ cs ∨ a = c := by simpa using ha
        · have := hlt a ha
          have := hbc a ha
          omega
        · exact .inr ⟨rfl, Nat.le_refl _⟩
      · next hgt =>
        refine ⟨fun h => (by cases h), fun v h => ?_⟩
        obtain rfl : b = v := Option.some.inj h
        refine ⟨by simp [hb], fun a ha => ?_⟩
        obtain ha | rfl : a ∈ cs ∨ a = c := by simpa using ha
        · exact hbc a ha
        · exact .inl (Nat.not_le.1 hgt)

theorem victimBelow_spec (d : Dev) (p v : Nat) (h : victimBelow d p = some v) : v < 64 ∧ (d.ctx v).state = .running ∧ (d.ctx v).prio < p ∧
    ∀ c, c < 64 → (d.ctx c).state = .running → (d.ctx c).prio < p →
      (d.ctx v).prio < (d.ctx c).prio ∨ ((d.ctx v).prio = (d.ctx c).prio ∧ c ≤ v) := by
  rw [victimBelow_eq] at h
  obtain ⟨hv, hbest⟩ := (foldl_lowerOf d _ (List.pairwise_lt_range.filter _)).2 v h
  simp only [List.mem_filter, List.mem_range, Bool.and_eq_true, beq_iff_eq, decide_eq_true_eq] at hv hbest
  exact ⟨hv.1, hv.2.1, hv.2.2, fun c hc hr hp => hbest c ⟨hc, hr, hp⟩⟩

theorem ctx_setCtx_other {d : Dev} {c k : Nat} (h : k ≠ c) (x : Ctx) : (d.setCtx c x).ctx k = d.ctx k := by
  rw [Dev.ctx, Dev.ctx, Dev.setCtx, setAt_eq_set, List.getD_eq_getElem?_getD, List.getElem?_set_ne (Ne.symm h), List.getD_eq_getElem?_getD]

/-- A context on its way out. -/
def OnItsWayOut (d : Dev) (v : Nat) : Prop := (d.ctx v).state = .preempted ∧ (d.ctx v).goal = some .switched

/-- Halting further contexts lets one on its way out be. -/
theorem preempt_keeps {now : Word} {d : Dev} {v : Nat} (h : OnItsWayOut d v) (k : Nat) : OnItsWayOut (preempt now k d) v := by
  induction k generalizing d with
  | zero => exact h
  | succ k ih =>
    rw [preempt]
    split
    · rename_i w hw
      obtain ⟨c, -, hc⟩ := List.exists_of_findSome?_eq_some hw
      split at hc
      · have hrun := (victimBelow_spec d _ w hc).2.1
        have hne : v ≠ w := by
          rintro rfl
          rw [h.1] at hrun
          cases hrun
        refine ih ?_
        rw [OnItsWayOut, requestHalt, ctx_setCtx_other hne]
        exact h
      · cases hc
    · exact h

theorem preemptionDecision_halts (s : State) (v : Nat)
    (hv : (byPriority s.dev).findSome? (fun c => if stuck (afterHalts s.dev) c then victimBelow s.dev (s.dev.ctx c).prio else none) = some v)
    (hlen : v < s.dev.ctxs.length) :
    ∃ d, exec .preemptionDecision s = .next (s.withDev d) ∧ (d.ctx v).state = .preempted ∧ (d.ctx v).goal = some .switched := by
  refine ⟨preempt s.clk.now 64 s.dev, rfl, ?_⟩
  have hfirst : preempt s.clk.now 64 s.dev = preempt s.clk.now 63 (requestHalt s.clk.now s.dev v .switched) := by
    rw [preempt, hv]
  rw [hfirst]
  refine preempt_keeps ?_ 63
  rw [OnItsWayOut, requestHalt, ctx_setCtx_self hlen]
  exact ⟨rfl, rfl⟩

/-! ### Direct events (R298, R300, R302, R327) -/

theorem saveComplete_ends (s : State) (c : Nat) (hc : c < 64) (hr : saveReady s.dev c = true) :
    let d := saveContext s.dev s.clk c
    ((d.ctx c).goal = some .halted → exec (.saveComplete c) s = .next (s.withDev (d.setCtx c { d.ctx c with state := .halted, goal := none }))) ∧
    ((d.ctx c).goal = some .switched → exec (.saveComplete c) s = .next (s.withDev (d.setCtx c
      { d.ctx c with state := if (d.ctx c).saved.isEmpty then .resident else .switched, goal := none }))) ∧
    ((d.ctx c).goal = some .destroyed → exec (.saveComplete c) s = .next (s.withDev (discard d c))) := by
  intro d
  refine ⟨fun hg => ?_, fun hg => ?_, fun hg => ?_⟩ <;>
  · rw [exec, execSaveComplete, onCtx_of_lt hc, if_pos hr]
    dsimp only
    rw [hg]

theorem teamRestore_restores (s : State) (c : Nat) (t : SavedTeam) (ts : List SavedTeam) (r : Room) (hs : (s.dev.ctx c).saved = t :: ts)
    (hn : nextContext s.dev (quarterOf t.team.core) = some (c, .saved)) (hr : savedRoom s.dev t = some r) :
    exec (.teamRestore c) s = .next (s.withDev (restoreTeam s.clk s.dev c t r)) := by
  simp only [exec, execTeamRestore, onDev, hs, hn, hr, if_true]

theorem destroyComplete_frees (s : State) (c : Nat) (hc : c < 64) (hs : (s.dev.ctx c).state = .destroyed)
    (hf : ∀ g, g ∈ s.dev.flights → g.ctx ≠ c) :
    exec (.destroyComplete c) s = .next (s.withDev
      { s.dev.setCtx c { Ctx.initial with treeGens := (s.dev.ctx c).treeGens } with tlb := s.dev.tlb.filter fun t => t.ctx != c }) := by
  have hnone : (s.dev.flights.any fun g => g.ctx == c) = false := List.any_eq_false.2 fun g hg => by simpa using hf g hg
  rw [exec, execDestroyComplete, onCtx_of_lt hc]
  simp only [hs, hnone]
  rfl

theorem stallSample_taken (s : State) (ht : s.dev.traceCtl.getLsbD 1 = true) (hp : s.env.smpper ≠ 0)
    (hn : s.env.smpNext.toNat ≤ s.clk.now.toNat) :
    exec .stallSample s = .next { s with
      dev := { s.dev with trace := s.dev.trace ++ s.dev.ports.flatMap (sampleRecs s.clk.now s.dev s.clk.cycle) }
      env := { s.env with smpNext := s.env.smpNext + BitVec.ofNat 64 s.env.smpper } } := by
  rw [exec, execStallSample, if_pos ⟨ht, hp, hn⟩, emitTrace]

theorem backFibre_spec (x : Ctx) (core : Nat) (f : Fibre) : let b := backFibre x core f
    b.regs = f.regs ∧ b.threads = f.threads ∧ b.core = core ∧ b.chk = x.chk ∧ b.agelimit = x.agelimit ∧
      b.frozen = f.frozen.bind fun z => if z.resume then none else some z := by
  dsimp only
  rw [backFibre]
  dsimp only
  split
  · rename_i z hz
    rw [hz]
    split
    · next h => simp [h]
    · next h => simp [h]
  · next hz => simp [hz]

/-! ### The save area's bytes (R77, R301) -/

theorem take_drop_append_left {α : Type} {xs ys : List α} {k n : Nat} (h : k + n ≤ xs.length) :
    ((xs ++ ys).drop k).take n = (xs.drop k).take n := by
  rw [List.drop_append_of_le_length (by omega), List.take_append_of_le_length (by rw [List.length_drop]; omega)]

/-- A piece between two others. -/
theorem take_drop_mid {α : Type} (xs ys zs : List α) {k n : Nat} (hk : xs.length = k) (hn : ys.length = n) :
    ((xs ++ (ys ++ zs)).drop k).take n = ys := by
  rw [List.drop_left' hk, List.take_left' hn]

theorem le_alignUp {k : Nat} (hk : 0 < k) (n : Nat) : n ≤ alignUp n k := by
  have h1 := Nat.div_add_mod (n + k - 1) k
  have h2 := Nat.mod_lt (n + k - 1) hk
  rw [Nat.mul_comm] at h1
  rw [alignUp]
  omega

theorem length_padTo {k : Nat} (hk : 0 < k) (bs : List Byte) : (padTo k bs).length = alignUp bs.length k := by
  have := le_alignUp hk bs.length
  rw [padTo, List.length_append, List.length_replicate]
  omega

theorem length_flatMap_foldl {α β : Type} (f : α → List β) (len : α → Nat) (h : ∀ a, (f a).length = len a) (xs : List α) :
    (xs.flatMap f).length = (xs.map len).foldl (· + ·) 0 := by
  rw [List.length_flatMap, List.sum_eq_foldl, List.map_congr_left fun a _ => h a]

theorem length_payload (w : Nat) (v : VReg) : (payload w v).length = payloadLen w v := by
  cases v with
  | u x => exact length_wordLE x
  | a b s => rw [payload, List.length_append, length_wordLE, length_wordLE]; rfl
  | g vs => exact length_flatMap_range _ (fun _ => length_wordLE _) w

theorem length_regBlock (w : Nat) (rs : List VReg) : (regBlock w rs).length = regBlockLen w rs := by
  rw [regBlock, length_padTo (by omega), List.length_append, length_padTo (by omega), List.length_map,
    length_flatMap_foldl (payload w) (payloadLen w) (length_payload w)]
  rfl

theorem length_ownBytes (seq n : Nat) : (ownBytes seq n).length = n := by rw [ownBytes, List.length_map, List.length_range]

theorem saveHeader_eq (n len : Nat) (a : Word) : saveHeader n len a = natLE 8 n ++ natLE 8 len ++ wordLE a ++ List.replicate 232 0 := by
  have h : (natLE 8 n ++ natLE 8 len ++ wordLE a).length = 24 := by simp [length_natLE, length_wordLE]
  rw [saveHeader, padTo, h]
  rfl

theorem length_saveHeader (n len : Nat) (a : Word) : (saveHeader n len a).length = 256 := by
  simp only [saveHeader_eq, List.length_append, length_natLE, length_wordLE, List.length_replicate]

/-! ### A fibre's block -/

theorem length_laneEntry (d : Dev) (cycle : Nat) (f : Fibre) (L : Nat) : (laneEntry d cycle f L).length = 16 := by
  simp [laneEntry, length_natLE, length_wordLE]

theorem length_fibreHeader (d : Dev) (cycle : Nat) (f : Fibre) : (fibreHeader d cycle f).length = 64 := by
  simp only [fibreHeader, List.length_append, length_natLE, length_wordLE]

/-- The lanes' part of a fibre block. -/
def laneBytes (d : Dev) (cycle : Nat) (f : Fibre) : List Byte := (List.range f.width).flatMap (laneEntry d cycle f)

theorem length_laneBytes (d : Dev) (cycle : Nat) (f : Fibre) : (laneBytes d cycle f).length = 16 * f.width :=
  length_flatMap_range _ (length_laneEntry d cycle f) f.width

theorem length_paddedLanes (d : Dev) (cycle : Nat) (f : Fibre) :
    (padTo 64 (laneBytes d cycle f)).length = alignUp (16 * f.width) 64 := by rw [length_padTo (by omega), length_laneBytes]

theorem fibreBlock_eq (d : Dev) (cycle : Nat) (t : Team) (f : Fibre) : fibreBlock d cycle t f =
    fibreHeader d cycle f ++ (padTo 64 (laneBytes d cycle f) ++ (regBlock f.width (privRegs f) ++
      (padTo 64 (frameBytes f t) ++ ownBytes d.freeSeq (ownLen f)))) := by
  simp only [fibreBlock, laneBytes, List.append_assoc]

/-- A lane's entry in its fibre's block. -/
theorem fibreBlock_lane (d : Dev) (cycle : Nat) (t : Team) (f : Fibre) {L : Nat} (hL : L < f.width) :
    ((fibreBlock d cycle t f).drop (64 + 16 * L)).take 16 = laneEntry d cycle f L := by
  rw [fibreBlock_eq, ← List.drop_drop, List.drop_left' (length_fibreHeader d cycle f), padTo, List.append_assoc,
    take_drop_append_left (by rw [length_laneBytes]; omega)]
  exact take_drop_flatMap_range _ (length_laneEntry d cycle f) hL

/-- The registers' part of a fibre block. -/
theorem fibreBlock_regs (d : Dev) (cycle : Nat) (t : Team) (f : Fibre) :
    ((fibreBlock d cycle t f).drop (64 + alignUp (16 * f.width) 64)).take (regBlockLen f.width (privRegs f)) =
      regBlock f.width (privRegs f) := by
  rw [fibreBlock_eq, ← List.drop_drop, List.drop_left' (length_fibreHeader d cycle f)]
  exact take_drop_mid _ _ _ (length_paddedLanes d cycle f) (length_regBlock _ _)

/-- What a lane's entry says: its PC, its depth and its predicates. -/
theorem laneEntry_reads (d : Dev) (cycle : Nat) (f : Fibre) (L : Nat) : let u := f.thread L
    let e := laneEntry d cycle f L
    leWord (e.take 8) = u.pc ∧ BitVec.ofNat 24 (leNat ((e.drop 12).take 3)) = u.preds ∧ leNat ((e.drop 8).take 3) = u.depth % 2 ^ 24 := by
  intro u e
  obtain ⟨code, he⟩ : ∃ code, e = wordLE u.pc ++ (natLE 3 u.depth ++ (natLE 1 code ++ (natLE 3 u.preds.toNat ++ [0]))) :=
    ⟨_, by simp only [e, laneEntry, List.append_assoc]; rfl⟩
  rw [he]
  refine ⟨?_, ?_, ?_⟩
  · rw [List.take_left' (length_wordLE _), leWord_wordLE]
  · rw [← List.append_assoc, ← List.append_assoc, take_drop_mid _ _ _ (by simp [length_wordLE, length_natLE]) (length_natLE 3 _), leNat_natLE]
    exact BitVec.eq_of_toNat_eq (by rw [BitVec.toNat_ofNat]; have := u.preds.isLt; omega)
  · rw [take_drop_mid _ _ _ (length_wordLE _) (length_natLE 3 _), leNat_natLE]
    rfl

theorem fibreBlock_spec (d : Dev) (cycle : Nat) (t : Team) (f : Fibre) :
    (fibreBlock d cycle t f).take 8 = natLE 8 (fibreToken f) ∧
    (∀ L, L < f.width → let u := f.thread L
      let e := ((fibreBlock d cycle t f).drop (64 + 16 * L)).take 16
      leWord (e.take 8) = u.pc ∧ BitVec.ofNat 24 (leNat ((e.drop 12).take 3)) = u.preds ∧ leNat ((e.drop 8).take 3) = u.depth % 2 ^ 24) ∧
    ((fibreBlock d cycle t f).drop (64 + alignUp (16 * f.width) 64)).take (regBlockLen f.width (privRegs f)) = regBlock f.width (privRegs f) := by
  refine ⟨?_, fun L hL => ?_, fibreBlock_regs d cycle t f⟩
  · simp only [fibreBlock, fibreHeader, List.append_assoc]
    exact List.take_left' (length_natLE 8 _)
  · dsimp only
    rw [fibreBlock_lane d cycle t f hL]
    exact laneEntry_reads d cycle f L

/-! ### What a restore reads back (R77, R300, R301) -/

theorem leWords_flatMap (vs : List Word) (rest : List Byte) : leWords vs.length (vs.flatMap wordLE ++ rest) = vs := by
  induction vs with
  | nil => rfl
  | cons v vs ih =>
    rw [List.length_cons, leWords, List.flatMap_cons, List.append_assoc, List.take_left' (length_wordLE v),
      List.drop_left' (length_wordLE v), leWord_wordLE, ih]

/-- A G register's payload is its words one after the other. -/
theorem payload_g {w : Nat} {vs : List Word} (h : vs.length = w) : payload w (.g vs) = vs.flatMap wordLE := by
  have hvs : (List.range w).map (fun L => vs.getD L 0) = vs := by
    refine List.ext_getElem (by simp [h]) fun i h1 h2 => ?_
    simp [List.getElem?_eq_getElem h2]
  rw [payload, ← List.flatMap_map (fun L => vs.getD L 0) wordLE, hvs]

/-- The payloads of a register block read back with their tags. -/
theorem readPayloads_payloads {w : Nat} {rs : List VReg} (hrs : ∀ vs, VReg.g vs ∈ rs → vs.length = w) (rest : List Byte) :
    readPayloads w (rs.map tagByte) (rs.flatMap (payload w) ++ rest) = some (true, rs) := by
  induction rs with
  | nil => rfl
  | cons r rs ih =>
    have ih := ih fun vs h => hrs vs (List.mem_cons_of_mem _ h)
    have hlen := length_payload w r
    rw [List.map_cons, List.flatMap_cons, List.append_assoc, readPayloads]
    cases r with
    | u x =>
      have hlen : (payload w (.u x)).length = 8 := hlen
      have htag : (tagByte (.u x)).toNat = 0 := rfl
      simp only [htag]
      rw [if_neg (by rw [List.length_append]; omega), List.drop_left' hlen, ih, List.take_left' hlen, payload, leWord_wordLE]
      rfl
    | a b s =>
      have hlen : (payload w (.a b s)).length = 16 := hlen
      have h8 : (payload w (.a b s) ++ (rs.flatMap (payload w) ++ rest)) =
          wordLE b ++ (wordLE s ++ (rs.flatMap (payload w) ++ rest)) := by rw [payload, List.append_assoc]
      have htag : (tagByte (.a b s)).toNat = 1 := rfl
      simp only [htag]
      rw [if_neg (by rw [List.length_append]; omega), List.drop_left' hlen, ih, h8, List.take_left' (length_wordLE b),
        List.drop_left' (length_wordLE b), List.take_left' (length_wordLE s), leWord_wordLE, leWord_wordLE]
      rfl
    | g vs =>
      have hw := hrs vs List.mem_cons_self
      have hlen : (payload w (.g vs)).length = 8 * w := hlen
      have htag : (tagByte (.g vs)).toNat = 2 := rfl
      simp only [htag]
      rw [if_neg (by rw [List.length_append]; omega), List.drop_left' hlen, ih, payload_g hw, ← hw, leWords_flatMap]
      rfl

/-- The tags of a register block, then its payloads. -/
theorem regBlock_tags (w : Nat) (rs : List VReg) : (regBlock w rs).take rs.length = rs.map tagByte := by
  rw [regBlock, padTo, padTo, List.append_assoc, List.append_assoc, List.append_assoc, List.take_left' (List.length_map _)]

theorem regBlock_payloads (w : Nat) (rs : List VReg) :
    ∃ rest, (regBlock w rs).drop (alignUp rs.length 8) = rs.flatMap (payload w) ++ rest := by
  have h : (padTo 8 (rs.map tagByte)).length = alignUp rs.length 8 := by rw [length_padTo (by omega), List.length_map]
  exact ⟨_, by rw [regBlock, padTo, List.append_assoc, List.drop_left' h]⟩

/-- Registers put back where they stand. -/
theorem foldl_setAt_self (rs : List VReg) (is : List Nat) :
    (is.zip (is.map fun i => rs.getD i (.u 0))).foldl (fun rs p => setAt rs p.1 p.2) rs = rs := by
  induction is with
  | nil => rfl
  | cons i is ih =>
    rw [List.map_cons, List.zip_cons_cons, List.foldl_cons]
    have hset : setAt rs i (rs.getD i (.u 0)) = rs := by
      rw [setAt_eq_set]
      by_cases h : i < rs.length
      · simp [h]
      · exact List.set_eq_of_length_le (by omega)
    dsimp only
    rw [hset, ih]

theorem length_frameBytes {f : Fibre} (h : f.threads.length = f.width) (t : Team) :
    (frameBytes f t).length = 16 * (f.threads.map Thread.held).foldl (· + ·) 0 := by
  have hlane : ∀ u : Thread, ((List.range u.held).flatMap fun k => memBytes u.stack (frameAddr t (u.depth - k)).toNat 16).length =
      16 * u.held := fun u => length_flatMap_range _ (fun _ => length_memBytes _ _ _) _
  rw [frameBytes, ← h, List.take_length, length_flatMap_foldl _ _ hlane, ← List.sum_eq_foldl, ← List.sum_eq_foldl,
    ← List.sum_map_mul_left]

theorem length_fibreBlock {f : Fibre} (h : WholeFibre f) (d : Dev) (cycle : Nat) (t : Team) :
    (fibreBlock d cycle t f).length = fibreLen f := by
  simp only [fibreBlock_eq, List.length_append, length_fibreHeader, length_laneBytes, length_regBlock, length_ownBytes,
    length_padTo (show 0 < 64 by omega), length_frameBytes h.1, fibreLen]
  omega

theorem mapThreads_eq_self {f : Fibre} {g : Nat → Thread → Thread} (h : ∀ L, L < f.threads.length → g L (f.thread L) = f.thread L) :
    f.mapThreads g = f := by
  have hths : f.threads.mapIdx g = f.threads := by
    refine List.ext_getElem (List.length_mapIdx) fun L h1 h2 => ?_
    have := h L h2
    rw [Fibre.thread, List.getD_eq_getElem _ _ h2] at this
    rw [List.getElem_mapIdx, this]
  rw [Fibre.mapThreads, hths]

/-- A whole fibre's block gives the fibre back. -/
theorem readFibre_self {f : Fibre} (h : WholeFibre f) (d : Dev) (cycle : Nat) (t : Team) :
    readFibre f (fibreBlock d cycle t f) (fibreBlock d cycle t f) = some (f, false) := by
  obtain ⟨hlen, hregs⟩ := h
  obtain ⟨rest, hrest⟩ := regBlock_payloads f.width (privRegs f)
  have hread := readPayloads_payloads hregs rest
  have hidx : ((List.range f.nAlloc).filter fun i => !f.isWindow i).zip (privRegs f) =
      ((List.range f.nAlloc).filter fun i => !f.isWindow i).zip
        (((List.range f.nAlloc).filter fun i => !f.isWindow i).map fun i => f.regs.getD i (.u 0)) := rfl
  have hlanes : f.mapThreads (fun L t' =>
      { t' with
        pc := leWord (((fibreBlock d cycle t f).drop (64 + 16 * L)).take 8)
        preds := BitVec.ofNat 24 (leNat ((((fibreBlock d cycle t f).drop (64 + 16 * L)).drop 12).take 3)) }) = f := by
    refine mapThreads_eq_self fun L hL => ?_
    have hentry := fibreBlock_lane d cycle t f (hlen ▸ hL)
    obtain ⟨hpc, hpreds, -⟩ := laneEntry_reads d cycle f L
    have h8 : ((fibreBlock d cycle t f).drop (64 + 16 * L)).take 8 = (laneEntry d cycle f L).take 8 := by
      rw [← hentry, List.take_take, Nat.min_eq_left (by omega)]
    have h12 : (((fibreBlock d cycle t f).drop (64 + 16 * L)).drop 12).take 3 = ((laneEntry d cycle f L).drop 12).take 3 := by
      rw [← hentry, List.drop_take, List.take_take, Nat.min_eq_left (by omega)]
    rw [h8, h12, hpc, hpreds]
  rw [readFibre]
  simp only [bne_self_eq_false, fibreBlock_regs, regBlock_tags, hrest, hread, hidx, foldl_setAt_self]
  rw [hlanes]
  rfl

/-- Whole fibres' blocks, one after the other, give the fibres back and leave what follows. -/
theorem readFibres_self (d : Dev) (cycle : Nat) (t : Team) (rest : List Byte) (fs : List Fibre) (h : ∀ f, f ∈ fs → WholeFibre f) :
    readFibres fs (fs.flatMap (fibreBlock d cycle t) ++ rest) (fs.flatMap (fibreBlock d cycle t) ++ rest) =
      (some (fs.map fun f => (f, false)), rest, rest) := by
  induction fs with
  | nil => rfl
  | cons f fs ih =>
    have hf := h f List.mem_cons_self
    have hlen := length_fibreBlock hf d cycle t
    rw [List.flatMap_cons, List.append_assoc, readFibres,
      List.take_left' hlen, List.drop_left' hlen, readFibre_self hf, ih fun g hg => h g (List.mem_cons_of_mem _ hg)]
    rfl

/-- What a team block holds after its fibre blocks. -/
def teamRest (d : Dev) (t : Team) : List Byte :=
  (if t.hdr.w = 0 then [] else (teamGroups d t).flatMap fun g => regBlock t.hdr.width g.regs) ++ ownBytes (d.freeSeq + 2) (128 * engineCount d t)

theorem teamBlock_eq (d : Dev) (cycle : Nat) (t : Team) : teamBlock d cycle t =
    teamFront d t ++ ((teamFibres d t).flatMap (fibreBlock d cycle t) ++ teamRest d t) := by
  simp only [teamBlock, teamRest, List.append_assoc]

theorem length_teamRest (d : Dev) (t : Team) : (teamRest d t).length =
    (if t.hdr.w = 0 then 0 else ((teamGroups d t).map fun g => regBlockLen t.hdr.width g.regs).foldl (· + ·) 0) + 128 * engineCount d t := by
  rw [teamRest, List.length_append, length_ownBytes]
  split
  · rfl
  · rw [length_flatMap_foldl _ (fun g : Group => regBlockLen t.hdr.width g.regs) fun g => length_regBlock _ _]

theorem savedOf_hdr (d : Dev) (cycle : Nat) (t : Team) : (savedOf d cycle t).team.hdr = t.hdr := by
  rw [savedOf]
  dsimp only
  split <;> rfl

/-- A TEAM'S BLOCK GIVES ITS FIBRES BACK. -/
theorem readBlock_self (d : Dev) (cycle : Nat) (t : Team) (h : ∀ f, f ∈ teamFibres d t → WholeFibre f) : let s := savedOf d cycle t
    readBlock s s.image = some ((teamFibres d t).map fun f => (f, false)) := by
  intro s
  have himage : s.image = teamFront d t ++ ((teamFibres d t).flatMap (fibreBlock d cycle t) ++ teamRest d t) := teamBlock_eq d cycle t
  have hfibres : ((teamFibres d t).flatMap (fibreBlock d cycle t)).length = ((teamFibres d t).map fibreLen).foldl (· + ·) 0 := by
    rw [List.length_flatMap, List.sum_eq_foldl, List.map_congr_left fun f hf => length_fibreBlock (h f hf) d cycle t]
  have hcount : s.cmds.length + s.builds.length = engineCount d t := by simp [s, savedOf, engineCount]
  have hfront : s.image.length - ((s.fibres.map fibreLen).foldl (· + ·) 0 +
      (if s.team.hdr.w = 0 then 0 else (s.groups.map fun g => regBlockLen s.team.hdr.width g.regs).foldl (· + ·) 0) +
      128 * (s.cmds.length + s.builds.length)) = (teamFront d t).length := by
    have hrest := length_teamRest d t
    have hlen := congrArg List.length himage
    rw [List.length_append, List.length_append, hfibres, hrest] at hlen
    rw [hcount, savedOf_hdr, show s.fibres = teamFibres d t from rfl, show s.groups = teamGroups d t from rfl]
    omega
  rw [readBlock, hfront, himage, List.drop_left' rfl, bne_self_eq_false, if_neg Bool.false_ne_true, show s.fibres = teamFibres d t from rfl,
    readFibres_self d cycle t _ _ h]
  simp

/-! ### A team's block (R301) -/

theorem length_flatMap_const {α β : Type} {f : α → List β} {n : Nat} (h : ∀ a, (f a).length = n) (xs : List α) :
    (xs.flatMap f).length = n * xs.length := by
  simp [List.length_flatMap, h, Nat.mul_comm]

theorem length_teamHeader {t : Team} (h : t.bufs.length = 8) (d : Dev) : (teamHeader d t).length = 256 := by
  rw [teamHeader, length_padTo (by omega)]
  simp only [List.length_append, length_natLE, length_wordLE]
  rw [length_flatMap_const (n := 16) (fun b => ?_), h]
  · rfl
  · split
    · rw [List.length_append, length_wordLE, length_natLE]
    · rw [List.length_replicate]

/-- An element's piece among pieces laid end to end. -/
theorem exists_append_of_mem {α β : Type} {xs : List α} {a : α} (h : a ∈ xs) (f : α → List β) :
    ∃ pre post, xs.flatMap f = pre ++ f a ++ post := by
  obtain ⟨ys, zs, rfl⟩ := List.append_of_mem h
  exact ⟨ys.flatMap f, zs.flatMap f, by rw [List.flatMap_append, List.flatMap_cons, List.append_assoc]⟩

theorem palletSection_eq (t : Team) : ∃ rest, palletSection t = memBytes t.pallet 0 (t.hdr.pallet * 1024) ++ rest := by
  rw [palletSection]
  split
  · exact ⟨_, rfl⟩
  · exact ⟨[], (List.append_nil _).symm⟩

theorem teamFront_eq (d : Dev) (t : Team) : ∃ pads rest, teamFront d t = teamHeader d t ++ (memBytes t.sp 0 (spBytes t) ++
    (palletSection t ++ (pads ++ ((savedTiles t).flatMap (fun k => memBytes t.tile (tileAt k) 4096) ++ rest)))) := by
  simp only [teamFront, List.append_assoc]
  exact ⟨_, _, rfl⟩

theorem teamBlock_sections (d : Dev) (cycle : Nat) (t : Team) : let b := (savedOf d cycle t).image
    (t.bufs.length = 8 → b.take 256 = teamHeader d t ∧ (b.drop 256).take (spBytes t) = memBytes t.sp 0 (spBytes t) ∧
      (b.drop (256 + spBytes t)).take (t.hdr.pallet * 1024) = memBytes t.pallet 0 (t.hdr.pallet * 1024)) ∧
    (∀ k, k < 4 * t.hdr.tiles → t.tliveOk = false ∨ t.tlive.getLsbD k = true → ∃ pre post, b = pre ++ memBytes t.tile (tileAt k) 4096 ++ post) ∧
    (∀ f, f ∈ teamFibres d t → ∃ pre post, b = pre ++ fibreBlock d cycle t f ++ post) := by
  intro b
  obtain ⟨pads, rest, hfront⟩ := teamFront_eq d t
  obtain ⟨shadow, hpallet⟩ := palletSection_eq t
  have hb : b = teamHeader d t ++ (memBytes t.sp 0 (spBytes t) ++ (memBytes t.pallet 0 (t.hdr.pallet * 1024) ++ (shadow ++ (pads ++
      ((savedTiles t).flatMap (fun k => memBytes t.tile (tileAt k) 4096) ++ (rest ++
        ((teamFibres d t).flatMap (fibreBlock d cycle t) ++ teamRest d t))))))) := by
    rw [show b = teamBlock d cycle t from rfl, teamBlock_eq, hfront, hpallet]
    simp only [List.append_assoc]
  refine ⟨fun hbufs => ?_, fun k hk hlive => ?_, fun f hf => ?_⟩
  · have hlen := length_teamHeader hbufs d
    rw [hb]
    refine ⟨List.take_left' hlen, take_drop_mid _ _ _ hlen (length_memBytes _ _ _), ?_⟩
    rw [← List.drop_drop, List.drop_left' hlen]
    exact take_drop_mid _ _ _ (length_memBytes _ _ _) (length_memBytes _ _ _)
  · have hmem : k ∈ savedTiles t := List.mem_filter.2 ⟨List.mem_range.2 hk, by simpa using hlive⟩
    obtain ⟨pre, post, he⟩ := exists_append_of_mem hmem fun k => memBytes t.tile (tileAt k) 4096
    exact ⟨teamHeader d t ++ (memBytes t.sp 0 (spBytes t) ++ (memBytes t.pallet 0 (t.hdr.pallet * 1024) ++ (shadow ++ (pads ++ pre)))),
      post ++ (rest ++ ((teamFibres d t).flatMap (fibreBlock d cycle t) ++ teamRest d t)), by rw [hb, he]; simp only [List.append_assoc]⟩
  · obtain ⟨pre, post, he⟩ := exists_append_of_mem hf (fibreBlock d cycle t)
    exact ⟨teamFront d t ++ pre, post ++ teamRest d t, by
      rw [show b = teamBlock d cycle t from rfl, teamBlock_eq, he]; simp only [List.append_assoc]⟩

/-! ### A save (R298, R299, R301) -/

theorem putReg_eq (d : Dev) (f : Fibre) (i : Nat) (v : VReg) : ∃ fs gs, putReg d f i v = { d with fibres := fs, groups := gs } := by
  unfold putReg
  split
  · exact ⟨_, _, rfl⟩
  · split
    · exact ⟨_, _, rfl⟩
    · exact ⟨_, _, rfl⟩

/-- The landing of a fibre's results changes fibres and groups alone. -/
theorem landFibre_eq (cycle : Nat) (d : Dev) (u : Nat) : ∃ fs gs, landFibre cycle d u = { d with fibres := fs, groups := gs } := by
  unfold landFibre
  split
  · exact ⟨_, _, rfl⟩
  · split
    · exact ⟨_, _, rfl⟩
    · refine List.foldlRecOn (motive := fun e : Dev => ∃ fs gs, e = ({ d with fibres := fs, groups := gs } : Dev)) _ _ ⟨_, _, rfl⟩ ?_
      rintro _ ⟨fs, gs, rfl⟩ p -
      unfold landOne
      split
      · exact ⟨fs, gs, rfl⟩
      · obtain ⟨fs', gs', h⟩ := putReg_eq { d with fibres := fs, groups := gs } _ p.reg _
        exact ⟨fs', gs', h⟩

theorem settleFibres_eq (cycle : Nat) (d : Dev) (t : Team) : ∃ fs gs, settleFibres cycle d t = { d with fibres := fs, groups := gs } := by
  have h : ∃ fs gs, ((teamFibres d t).map Fibre.uid).foldl (fun d u => landFibre (cycle + 1000) d u) d =
      { d with fibres := fs, groups := gs } := by
    refine List.foldlRecOn (motive := fun e : Dev => ∃ fs gs, e = ({ d with fibres := fs, groups := gs } : Dev)) _ _ ⟨_, _, rfl⟩ ?_
    rintro _ ⟨fs, gs, rfl⟩ u -
    obtain ⟨fs', gs', h⟩ := landFibre_eq (cycle + 1000) { d with fibres := fs, groups := gs } u
    exact ⟨fs', gs', h⟩
  obtain ⟨fs, gs, h⟩ := h
  rw [settleFibres, h]
  exact ⟨_, _, rfl⟩

/-- A save finds the contexts as they are. -/
theorem atSave_ctxs (d : Dev) (cycle c : Nat) : (atSave d cycle c).ctxs = d.ctxs := by
  rw [atSave]
  refine List.foldlRecOn (motive := fun e : Dev => e.ctxs = d.ctxs) _ _ rfl fun e he t _ => ?_
  obtain ⟨m, u, ns, k, p, hflush⟩ := uoFlush_eq e t.core
  obtain ⟨fs, gs, hsettle⟩ := settleFibres_eq cycle (uoFlush e t.core) t
  rw [hsettle]
  dsimp only
  rw [hflush]
  exact he

theorem memSet_ctxs (d : Dev) (a : Nat) (bs : List Byte) : (d.memSet a bs).ctxs = d.ctxs := by
  obtain ⟨ns, p, h⟩ := memSet_eq d a bs
  rw [h]

/-- The teams that a save takes. -/
def freshTeams (d : Dev) (cycle c : Nat) : List SavedTeam := (d.teams.filter fun t => t.ctx == c).map (savedOf (atSave d cycle c) cycle)

/-- The bytes that a save writes. -/
def saveArea (d : Dev) (cycle c : Nat) : List Byte :=
  saveHeader ((d.ctx c).saved.length + (d.teams.filter fun t => t.ctx == c).length)
    (256 + (((d.ctx c).saved ++ freshTeams d cycle c).map fun s => s.image.length).foldl (· + ·) 0) (d.ctx c).haltAt ++
  (d.ctx c).saved.flatMap (blockNow (atSave d cycle c) c) ++ (freshTeams d cycle c).flatMap SavedTeam.image

/-- The blocks of a save with their teams: those of teams still saved, as they stand in memory, then the placed teams' own. -/
def saveBlocks (d : Dev) (cycle c : Nat) : List (SavedTeam × List Byte) :=
  ((d.ctx c).saved.map fun s => (s, blockNow (atSave d cycle c) c s)) ++
  (d.teams.filter fun t => t.ctx == c).map fun t =>
    let s := savedOf (atSave d cycle c) cycle t
    (s, s.image)

theorem saveBlocks_fst (d : Dev) (cycle c : Nat) : (saveBlocks d cycle c).map Prod.fst = (d.ctx c).saved ++ freshTeams d cycle c := by
  rw [saveBlocks, List.map_append, List.map_map, List.map_map, Function.comp_def]
  simp only [List.map_id']
  rfl

theorem saveBlocks_bytes (d : Dev) (cycle c : Nat) : (saveBlocks d cycle c).flatMap Prod.snd =
    (d.ctx c).saved.flatMap (blockNow (atSave d cycle c) c) ++ (freshTeams d cycle c).flatMap SavedTeam.image := by
  rw [saveBlocks, List.flatMap_append, List.flatMap_map, List.flatMap_map, freshTeams, List.flatMap_map]

theorem saveBlocks_lengths (d : Dev) (cycle c : Nat) : (saveBlocks d cycle c).map (fun p => p.2.length) =
    ((d.ctx c).saved ++ freshTeams d cycle c).map fun s => s.image.length := by
  rw [saveBlocks, List.map_append, List.map_map, List.map_map, List.map_append, freshTeams, List.map_map]
  congr 1
  exact List.map_congr_left fun s _ => length_memBytes _ _ _

theorem saveArea_eq (d : Dev) (cycle c : Nat) : saveHeader (saveBlocks d cycle c).length
    (256 + ((saveBlocks d cycle c).map fun p => p.2.length).foldl (· + ·) 0) (d.ctx c).haltAt ++ (saveBlocks d cycle c).flatMap Prod.snd =
      saveArea d cycle c := by
  rw [saveBlocks_lengths, saveBlocks_bytes, saveArea, List.append_assoc]
  simp only [saveBlocks, List.length_append, List.length_map]

/-- The device once a save's teams have left their cores. -/
def unplace (d : Dev) (ts : List Team) (c : Nat) (x : Ctx) : Dev :=
  let gone := fun (uid : Nat) => ts.any fun t => t.uid == uid
  let grps := (d.fibres.filter fun f => gone f.team).map Fibre.grp
  { d.setCtx c x with
    freeSeq := d.freeSeq + 3
    teams := d.teams.filter fun t => !gone t.uid
    groups := d.groups.filter fun g => !grps.contains g.uid
    fibres := d.fibres.filter fun f => !gone f.team
    cmds := d.cmds.filter fun k => !gone k.team
    builds := d.builds.filter fun b => !gone b.team
    drains := d.drains.filter fun w => !gone w.team
    flights := d.flights.map fun g => if gone g.team then { g with through := true } else g
    loads := d.loads.filter fun l => l.ctx != c }

theorem saveContext_eq (d : Dev) (clk : Clk) (c : Nat) : saveContext d clk c =
    unplace ((atSave d clk.cycle c).memSet (d.ctx c).save (saveArea d clk.cycle c)) (d.teams.filter fun t => t.ctx == c) c
      { d.ctx c with saved := placeBlocks 256 ((d.ctx c).saved ++ freshTeams d clk.cycle c) } := by
  rw [← saveArea_eq, ← saveBlocks_fst]
  rfl

theorem unplace_mem (d : Dev) (ts : List Team) (c : Nat) (x : Ctx) : (unplace d ts c x).mem = d.mem := rfl

theorem unplace_ctx (d : Dev) (ts : List Team) (c : Nat) (x : Ctx) : (unplace d ts c x).ctx c = (d.setCtx c x).ctx c := rfl

theorem saveContext_mem (d : Dev) (clk : Clk) (c : Nat) :
    (saveContext d clk c).mem = memPut (atSave d clk.cycle c).mem (d.ctx c).save (saveArea d clk.cycle c) := by
  rw [saveContext_eq, unplace_mem, memSet_mem]

theorem saveContext_ctx {d : Dev} {c : Nat} (hc : c < d.ctxs.length) (clk : Clk) :
    (saveContext d clk c).ctx c = { d.ctx c with saved := placeBlocks 256 ((d.ctx c).saved ++ freshTeams d clk.cycle c) } := by
  rw [saveContext_eq, unplace_ctx, ctx_setCtx_self]
  rw [memSet_ctxs, atSave_ctxs]
  exact hc

theorem saveContext_teams {d : Dev} {clk : Clk} {c : Nat} {t u : Team} (ht : t ∈ (saveContext d clk c).teams)
    (hu : u ∈ d.teams.filter fun t => t.ctx == c) : t.uid ≠ u.uid := by
  have hk := (List.mem_filter.1 ht).2
  intro h
  rw [Bool.not_eq_true', List.any_eq_false] at hk
  exact hk u hu (beq_iff_eq.2 h.symm)

/-- Where a placed block stands among the bytes of all. -/
theorem placeBlocks_bytes {ss : List SavedTeam} {hdr : List Byte} {s : SavedTeam} (hs : s ∈ placeBlocks hdr.length ss) :
    ∃ pre post, hdr ++ ss.flatMap SavedTeam.image = pre ++ (s.image ++ post) ∧ pre.length = s.off := by
  induction ss generalizing hdr with
  | nil => cases hs
  | cons a ss ih =>
    rw [placeBlocks] at hs
    rw [List.flatMap_cons]
    obtain rfl | hs := List.mem_cons.1 hs
    · exact ⟨hdr, ss.flatMap SavedTeam.image, rfl, rfl⟩
    · obtain ⟨pre, post, he, hl⟩ := ih (hdr := hdr ++ a.image) (by rw [List.length_append]; exact hs)
      exact ⟨pre, post, by rw [← he, List.append_assoc], hl⟩

/-- A SAVE: the area's bytes at the context's save address, the teams gone from the device, each block where its team says. -/
theorem saveContext_writes (d : Dev) (clk : Clk) (c : Nat) (hc : c < d.ctxs.length) : let x := d.ctx c
    let e := atSave d clk.cycle c
    let ts := d.teams.filter fun t => t.ctx == c
    let fresh := ts.map (savedOf e clk.cycle)
    let area := saveHeader (x.saved.length + ts.length) (256 + ((x.saved ++ fresh).map fun s => s.image.length).foldl (· + ·) 0) x.haltAt ++
      x.saved.flatMap (blockNow e c) ++ fresh.flatMap SavedTeam.image
    let d' := saveContext d clk c
    (d'.ctx c).saved = placeBlocks 256 (x.saved ++ fresh) ∧
    (∀ k, k < area.length → memRead d'.mem (x.save + k) = area.getD k 0) ∧
    (∀ a, a < x.save ∨ x.save + area.length ≤ a → memRead d'.mem a = memRead e.mem a) ∧
    (∀ t u, t ∈ d'.teams → u ∈ ts → t.uid ≠ u.uid) ∧
    (x.saved = [] → ∀ s, s ∈ (d'.ctx c).saved → blockNow d' c s = s.image) := by
  intro x e ts fresh area d'
  have hmem : d'.mem = memPut e.mem x.save area := saveContext_mem d clk c
  have hctx : d'.ctx c = { x with saved := placeBlocks 256 (x.saved ++ fresh) } := saveContext_ctx hc clk
  refine ⟨congrArg Ctx.saved hctx, fun k hk => ?_, fun a ha => ?_, fun t u ht hu => saveContext_teams ht hu, fun hx s hs => ?_⟩
  · rw [hmem, memRead_memPut, if_pos (by omega), Nat.add_sub_cancel_left]
  · rw [hmem, memRead_memPut, if_neg (by omega)]
  · rw [hctx] at hs
    have hs : s ∈ placeBlocks 256 (x.saved ++ fresh) := hs
    rw [hx, List.nil_append, ← length_saveHeader (x.saved.length + ts.length)
      (256 + ((x.saved ++ fresh).map fun s => s.image.length).foldl (· + ·) 0) x.haltAt] at hs
    obtain ⟨pre, post, he, hoff⟩ := placeBlocks_bytes hs
    have harea : area = pre ++ (s.image ++ post) := by
      rw [← he]
      simp only [area, hx, List.flatMap_nil, List.append_nil]
    rw [blockNow, hmem, hctx]
    dsimp only
    rw [memBytes_memPut_mid _ _ _ _ _ (by rw [harea, ← hoff]; simp only [List.length_append]; omega), harea, ← hoff]
    exact take_drop_mid _ _ _ rfl rfl

/-! ### Stall samples (R327) -/

/-- A lane mask as a number is the numbers of its lanes put together. -/
theorem toNat_ofLanes (ls : List Nat) :
    (LaneMask.ofLanes ls).toNat = (ls.map fun L => (LaneMask.ofLanes [L]).toNat).foldl (· ||| ·) 0 := by
  have hone : ∀ L, LaneMask.ofLanes [L] = 1#64 <<< L := fun L => by simp [LaneMask.ofLanes]
  have hfold : ∀ m : LaneMask, (ls.foldl (fun m l => m ||| (1#64 <<< l)) m).toNat =
      (ls.map fun L => (LaneMask.ofLanes [L]).toNat).foldl (· ||| ·) m.toNat := by
    induction ls with
    | nil => exact fun _ => rfl
    | cons l ls ih => exact fun m => by rw [List.foldl_cons, ih, List.map_cons, List.foldl_cons, BitVec.toNat_or, hone]
  exact hfold 0

/-- The records of a path name its lanes, each once. -/
theorem traceNames_masks (t : Team) (m : LaneMask) : ((traceNames t m).map fun p => p.2.toNat).foldl (· ||| ·) 0 = m.toNat := by
  rw [traceNames]
  split
  · exact Nat.zero_or _
  · rw [List.map_map]
    exact (toNat_ofLanes m.lanes).symm.trans (by rw [ofLanes_lanes])

/-- The fields of a sample's record. -/
theorem traceRec_fields (now : Word) (f : Fibre) (t : Team) {reason : Nat} (pc value : Word) (L : Nat) (m : LaneMask) (unit : Nat)
    (_ : reason ≤ 10) (_ : f.ctx < 256) (_ : f.width < 256) (_ : f.quad < 4) :
    let r := traceRec now f t 3 reason pc value L m 0 unit
    r.quarter = quarterOf f.core ∧ field (r.ws.getD 0 0) 0 8 = 3 ∧ field (r.ws.getD 0 0) 8 8 = reason ∧ r.ws.getD 1 0 = now ∧
      r.ws.getD 4 0 = pc ∧ r.ws.getD 5 0 = value ∧ r.ws.getD 6 0 = m ∧ field (r.ws.getD 7 0) 32 32 = unit % 2 ^ 32 := by
  intro r
  have h0 : (r.ws.getD 0 0).toNat = (3 + 256 * reason + 65536 * f.width + 16777216 * f.ctx) % 2 ^ 64 := BitVec.toNat_ofNat _ _
  have h7 : (r.ws.getD 7 0).toNat = (0 % 65536 + 65536 * (f.core % 512) + 2 ^ 25 * f.quad + 2 ^ 32 * unit) % 2 ^ 64 := BitVec.toNat_ofNat _ _
  refine ⟨rfl, ?_, ?_, rfl, rfl, rfl, rfl, ?_⟩
  · rw [field, h0]; omega
  · rw [field, h0]; omega
  · rw [field, h7]; omega

theorem instrStall_reason (d : Dev) (f : Fibre) (t : Team) (cycle : Nat) (k : Word × Nat) (m : LaneMask) (i : Instr) :
    (instrStall d f t cycle k m i).reason ≤ 9 := by
  unfold instrStall
  dsimp only
  split
  · simp
  split
  · simp
  split
  · simp
  · simp
  · simp
  split
  · simp
  split
  · simp
  · simp

/-- No reason of R327 is above 10. -/
theorem stallOf_reason (d : Dev) (f : Fibre) (t : Team) (cycle : Nat) (issued : List Word) (m : LaneMask) (pc : Word) :
    (stallOf d f t cycle issued m pc).reason ≤ 10 := by
  unfold stallOf
  dsimp only
  split
  · simp
  split
  · simp
  split
  · simp
  split
  case h_9 =>
    split
    · simp
    · split
      · exact Nat.le_succ_of_le (instrStall_reason d f t cycle _ m _)
      · simp
  all_goals simp

theorem sampleRecs_none (now : Word) (d : Dev) (cycle : Nat) (p : Port) (h : contextFibres d p.core p.quad (sampledSlot d p)
    (((turnOf d p.core p.quad (sampledSlot d p)).map Turn.pos).getD 0) = []) : sampleRecs now d cycle p = [] := by
  rw [sampleRecs]
  dsimp only
  rw [h]

theorem sampleRecs_spec (now : Word) (d : Dev) (cycle : Nat) (p : Port) (f : Fibre) (fs : List Fibre) (t : Team) (k : Word × Nat)
    (ks : List (Word × Nat)) (hf : contextFibres d p.core p.quad (sampledSlot d p)
      (((turnOf d p.core p.quad (sampledSlot d p)).map Turn.pos).getD 0) = f :: fs) (ht : d.team? f.team = some t)
    (hk : fibreKeys f = k :: ks) (hc : f.ctx < 256) (hw : f.width < 256) (hq : f.quad < 4) :
    let m := lanesWhere fun L => decide (L < f.width) && f.liveLane L && (f.thread L).pc == k.1 && (f.thread L).depth == k.2
    let st := stallOf d f t cycle (if cycle ≤ p.busy then p.paths else []) m k.1
    st.reason ≤ 10 ∧ ((sampleRecs now d cycle p).map fun r => (r.ws.getD 6 0).toNat).foldl (· ||| ·) 0 = m.toNat ∧
      ∀ r, r ∈ sampleRecs now d cycle p → r.quarter = quarterOf f.core ∧ field (r.ws.getD 0 0) 0 8 = 3 ∧
        field (r.ws.getD 0 0) 8 8 = st.reason ∧ r.ws.getD 1 0 = now ∧ r.ws.getD 5 0 = st.blamed ∧ field (r.ws.getD 7 0) 32 32 = st.unit % 2 ^ 32 ∧
        (st.last = false → r.ws.getD 4 0 = k.1) := by
  intro m st
  have hreason := stallOf_reason d f t cycle (if cycle ≤ p.busy then p.paths else []) m k.1
  obtain ⟨pc, hpc, hrecs⟩ : ∃ pc, (st.last = false → pc = k.1) ∧ sampleRecs now d cycle p =
      (traceNames t m).map fun q => traceRec now f t 3 st.reason pc st.blamed q.1 q.2 0 st.unit := by
    refine ⟨if st.last then (f.thread ((lowestLane m).getD 0)).stallPc else k.1, fun h => by rw [h]; rfl, ?_⟩
    rw [sampleRecs]
    dsimp only
    rw [hf]
    dsimp only
    rw [ht, hk]
  rw [hrecs]
  refine ⟨hreason, ?_, fun r hr => ?_⟩
  · rw [List.map_map]
    exact traceNames_masks t m
  · obtain ⟨q, -, rfl⟩ := List.mem_map.1 hr
    obtain ⟨hquarter, htype, hres, hnow, hat, hblamed, -, hunit⟩ :=
      traceRec_fields now f t pc st.blamed q.1 q.2 st.unit hreason hc hw hq
    exact ⟨hquarter, htype, hres, hnow, hblamed, hunit, fun h => hat.trans (hpc h)⟩

/-- What a path's next instruction gives a sample, the freeze of its fibre last. -/
def nextStall (d : Dev) (f : Fibre) (t : Team) (cycle : Nat) (m : LaneMask) (pc : Word) (depth : Nat) : Stall :=
  let next : Stall := match fetchAt d f t pc with
    | .instr i => instrStall d f t cycle (pc, depth) m i
    | _ => ⟨0, 0, 0, false⟩
  match next.reason, f.frozen with
  | 0, some z => ⟨10, z.pc, 0, false⟩
  | _, _ => next

/-- What a thread's own wait gives a sample, its next instruction last. -/
def waitStall (u : Thread) (pc : Word) (next : Stall) : Stall :=
  match u.wait with
  | .bar _ | .fbar _ | .fbarHeld _ => ⟨3, u.stallPc, 0, true⟩
  | .addr | .sleep _ => ⟨4, u.stallPc, 0, true⟩
  | .zero _ => ⟨2, pc, 0, false⟩
  | .overlay _ => ⟨6, pc, 0, false⟩
  | .frame => ⟨7, pc, 0, false⟩
  | .none => next

/-- A path past its last instruction's stall gives its wait, or its next instruction's. -/
theorem stallOf_waiting {d : Dev} {f : Fibre} {t : Team} {cycle : Nat} {issued : List Word} {m : LaneMask} {pc : Word} {u : Thread}
    (hu : u = f.thread ((lowestLane m).getD 0)) (h : u.stallPc ∉ issued) (hto : u.stallTo ≤ cycle) (hready : f.readyAt ≤ cycle) :
    stallOf d f t cycle issued m pc = waitStall u pc (nextStall d f t cycle m pc u.depth) := by
  subst hu
  exact (if_neg fun k => h (List.contains_iff_mem.1 k)).trans ((if_neg (Nat.not_lt.2 hto)).trans (if_neg (Nat.not_lt.2 hready)))

theorem stallOf_spec (d : Dev) (f : Fibre) (t : Team) (cycle : Nat) (issued : List Word) (m : LaneMask) (pc : Word) :
    let u := f.thread ((lowestLane m).getD 0)
    let st := stallOf d f t cycle issued m pc
    (u.stallPc ∈ issued → st.reason = 0 ∧ st.blamed = 0) ∧
    (u.stallPc ∉ issued → cycle < u.stallTo → st.reason = 1 ∧ st.blamed = u.stallPc) ∧
    (u.stallPc ∉ issued → u.stallTo ≤ cycle → f.readyAt ≤ cycle →
      ((∃ b, u.wait = .bar b ∨ u.wait = .fbar b ∨ u.wait = .fbarHeld b) → st.reason = 3 ∧ st.blamed = u.stallPc) ∧
      (u.wait = .addr ∨ (∃ til, u.wait = .sleep til) → st.reason = 4 ∧ st.blamed = u.stallPc) ∧
      (∀ b, u.wait = .overlay b → st.reason = 6 ∧ st.blamed = pc) ∧ (u.wait = .frame → st.reason = 7 ∧ st.blamed = pc) ∧
      (∀ i, u.wait = .none → fetchAt d f t pc = .instr i →
        (pendingWait d f m cycle (((hdrOf i).map (guardOf i)).getD 31) (usesOf i) = true → st.reason = 2) ∧
        (∀ z, f.frozen = some z → (instrStall d f t cycle (pc, u.depth) m i).reason = 0 → st.reason = 10 ∧ st.blamed = z.pc))) := by
  intro u st
  refine ⟨fun h => ?_, fun h hto => ?_, fun h hto hready => ?_⟩
  · have hst : st = ⟨0, 0, 0, false⟩ := if_pos (List.contains_iff_mem.2 h)
    rw [hst]
    exact ⟨rfl, rfl⟩
  · have hst : st = ⟨1, u.stallPc, 0, false⟩ := (if_neg fun k => h (List.contains_iff_mem.1 k)).trans (if_pos hto)
    rw [hst]
    exact ⟨rfl, rfl⟩
  have hst : st = waitStall u pc (nextStall d f t cycle m pc u.depth) := stallOf_waiting rfl h hto hready
  rw [hst, waitStall]
  refine ⟨?_, ?_, fun b hw => ?_, fun hw => ?_, fun i hw hi => ?_⟩
  · rintro ⟨b, hw | hw | hw⟩ <;>
    · rw [hw]
      exact ⟨rfl, rfl⟩
  · rintro (hw | ⟨til, hw⟩) <;>
    · rw [hw]
      exact ⟨rfl, rfl⟩
  · rw [hw]
    exact ⟨rfl, rfl⟩
  · rw [hw]
    exact ⟨rfl, rfl⟩
  · rw [hw, nextStall, hi]
    refine ⟨fun hp => ?_, fun z hz h0 => ?_⟩
    · have h2 : (instrStall d f t cycle (pc, u.depth) m i).reason = 2 := by
        rw [instrStall]
        dsimp only
        rw [if_pos hp]
      dsimp only
      split
      · next h0 _ => rw [h2] at h0; cases h0
      · exact h2
    · dsimp only
      rw [h0, hz]
      exact ⟨rfl, rfl⟩

/-! ### Loading code leaves teams and their fibres (R70, R153) -/

/-- No thread of the fibre waits for a page that is being zeroed. -/
def AwaitsNoZeroing (f : Fibre) : Prop := ∀ u z, u ∈ f.threads → u.wait ≠ .zero z

/-- WHAT LOADING CODE LEAVES: teams, slot groups, commands, contexts, parked threads, and every fibre that waits for no zeroing. -/
structure CodeLoaded (d e : Dev) : Prop where
  teams : e.teams = d.teams
  groups : e.groups = d.groups
  cmds : e.cmds = d.cmds
  ctxs : e.ctxs = d.ctxs
  waiters : e.waiters = d.waiters
  fibre : ∀ f, AwaitsNoZeroing f → f ∈ d.fibres → f ∈ e.fibres

theorem CodeLoaded.refl (d : Dev) : CodeLoaded d d := ⟨rfl, rfl, rfl, rfl, rfl, fun _ _ h => h⟩

theorem CodeLoaded.trans {c d e : Dev} (h : CodeLoaded c d) (k : CodeLoaded d e) : CodeLoaded c e :=
  ⟨k.teams.trans h.teams, k.groups.trans h.groups, k.cmds.trans h.cmds, k.ctxs.trans h.ctxs, k.waiters.trans h.waiters,
    fun f hf hm => k.fibre f hf (h.fibre f hf hm)⟩

/-- What changes none of these. -/
theorem CodeLoaded.of_eq {d e : Dev} (hteams : e.teams = d.teams) (hgroups : e.groups = d.groups) (hcmds : e.cmds = d.cmds)
    (hctxs : e.ctxs = d.ctxs) (hwaiters : e.waiters = d.waiters) (hfibres : e.fibres = d.fibres) : CodeLoaded d e :=
  ⟨hteams, hgroups, hcmds, hctxs, hwaiters, fun _ _ hm => hfibres ▸ hm⟩

theorem CodeLoaded.ite {p : Prop} [Decidable p] {d a b : Dev} (ha : CodeLoaded d a) (hb : CodeLoaded d b) :
    CodeLoaded d (if p then a else b) := by
  split
  · exact ha
  · exact hb

theorem CodeLoaded.memSet (d : Dev) (a : Nat) (bs : List Byte) : CodeLoaded d (d.memSet a bs) := by
  obtain ⟨ns, p, h⟩ := memSet_eq d a bs
  rw [h]
  exact .of_eq rfl rfl rfl rfl rfl rfl

theorem CodeLoaded.startZero (d : Dev) (l : Leaf) : CodeLoaded d (startZero d l) :=
  (CodeLoaded.memSet d _ _).trans (.of_eq rfl rfl rfl rfl rfl rfl)

theorem CodeLoaded.tlbInstall (d : Dev) (core c : Nat) (va : Word) (l : Leaf) : CodeLoaded d (tlbInstall d core c va l) :=
  .of_eq rfl rfl rfl rfl rfl rfl

theorem CodeLoaded.walkAccess (d : Dev) (core c : Nat) (va : Word) (n : Need) : CodeLoaded d (walkAccess d core c va n).2 := by
  unfold Machine.walkAccess
  split
  · exact .refl d
  split
  · exact .startZero d _
  split
  · exact .refl d
  split
  · exact .refl d
  exact CodeLoaded.trans (.ite (.refl d) (.memSet d _ _)) (.tlbInstall _ core c va _)

theorem CodeLoaded.translate (d : Dev) (core c : Nat) (va : Word) (n : Need) : CodeLoaded d (translate d core c va n).2 := by
  unfold Machine.translate
  split
  · exact .refl d
  dsimp only
  split
  · split
    · exact .refl d
    · exact .walkAccess d core c va n
  split
  · split
    · exact .of_eq rfl rfl rfl rfl rfl rfl
    · exact .walkAccess d core c va n
  · exact .walkAccess d core c va n

theorem CodeLoaded.translateAll (core c : Nat) (need : Need) (k : Nat) (d : Dev) (va : Word) (n : Nat) :
    CodeLoaded d (translateAll core c need k d va n).2 := by
  induction k generalizing d va n with
  | zero => exact .refl d
  | succ k ih =>
    have hone := CodeLoaded.translate d core c va need
    rw [Machine.translateAll]
    split
    · exact .refl d
    split
    · next h => rw [h] at hone; exact hone
    · next h => rw [h] at hone; exact hone
    · next e large d1 h =>
      rw [h] at hone
      have hrest := hone.trans (ih d1 (va + BitVec.ofNat 64 (firstPart va n)) (n - firstPart va n))
      dsimp only
      split
      · next h' => rw [h'] at hrest; exact hrest
      · exact hrest

theorem CodeLoaded.readOverlay (d : Dev) (core c : Nat) (base : Word) (len : Nat) : CodeLoaded d (readOverlay d core c base len).2.1 := by
  have h := CodeLoaded.translateAll core c ⟨false, true⟩ (12 * len / 65536 + 2) d base (12 * len)
  unfold Machine.readOverlay
  split
  · next h' => rw [h'] at h; exact h
  · next h' => rw [h'] at h; exact h

theorem CodeLoaded.wakeZero (d : Dev) (e : Nat) : CodeLoaded d (wakeZero d e) := by
  refine ⟨rfl, rfl, rfl, rfl, rfl, fun f hf hm => List.mem_map.2 ⟨f, hm, ?_⟩⟩
  have hsame : f.threads.map (fun t => if t.wait = .zero e then { t with wait := .none } else t) = f.threads :=
    (List.map_congr_left fun t ht => if_neg (hf t e ht)).trans (List.map_id' _)
  exact congrArg (fun ths => { f with threads := ths }) hsame

theorem CodeLoaded.completeZero (d : Dev) (e : Nat) : CodeLoaded d (completeZero d e) := by
  unfold Machine.completeZero
  split
  · exact .refl d
  · rename_i z hz
    have hpage : CodeLoaded d { zeroPage d z with zeroings := d.zeroings.erase z } := .of_eq rfl rfl rfl rfl rfl rfl
    dsimp only
    split
    · exact hpage
    · refine hpage.trans (CodeLoaded.trans ?_ (.wakeZero _ e))
      split
      · exact .memSet _ _ _
      · exact .refl _

theorem CodeLoaded.readZeroed (core c : Nat) (base : Word) (len k : Nat) (d : Dev) :
    CodeLoaded d (readZeroed core c base len k d).2.1 := by
  induction k generalizing d with
  | zero => exact .readOverlay d core c base len
  | succ k ih =>
    have hone := CodeLoaded.readOverlay d core c base len
    rw [Machine.readZeroed]
    split
    · next e d1 ws h =>
      rw [h] at hone
      exact hone.trans ((CodeLoaded.completeZero d1 e).trans (ih _))
    · exact hone

theorem CodeLoaded.evictFor (d : Dev) (core c need : Nat) (keep : List (Word × Nat)) (k : Nat) :
    CodeLoaded d (evictFor d core c need keep k) := by
  induction k with
  | zero => exact .refl d
  | succ k ih =>
    rw [Machine.evictFor]
    dsimp only
    split
    · exact ih
    split
    · exact ih.trans (.of_eq rfl rfl rfl rfl rfl rfl)
    · exact ih

theorem CodeLoaded.loadOverlay (core c : Nat) (keep : List (Word × Nat)) (d : Dev) (o : Word × Nat × Bool) :
    CodeLoaded d (loadOverlay core c keep d o) := by
  have hread := CodeLoaded.readZeroed core c o.1 o.2.1 8 d
  unfold Machine.loadOverlay
  refine CodeLoaded.ite (.refl d) ?_
  split
  · next h =>
    rw [h] at hread
    exact hread.trans ((CodeLoaded.evictFor _ core c _ keep _).trans (.of_eq rfl rfl rfl rfl rfl rfl))
  · next h =>
    rw [h] at hread
    exact hread

theorem CodeLoaded.loadKernel (d : Dev) (core c : Nat) (h : KernelHdr) : CodeLoaded d (loadKernel d core c h) := by
  unfold Machine.loadKernel
  dsimp only
  refine List.foldlRecOn (motive := fun e => CodeLoaded d e) _ _ (.refl d) fun e he o _ => he.trans (.loadOverlay core c _ e o)

/-! ### A restore (R298, R300, R301) -/

/-- A restored team on its core: its threads, groups and drains stand again, and its block is used up. -/
def putBack (d : Dev) (c : Nat) (s : SavedTeam) (r : Room) (fs : List Fibre) : Dev :=
  { d.setCtx c { d.ctx c with saved := (d.ctx c).saved.drop 1 } with
    teams := d.teams ++ [{ s.team with core := r.core, grBase := r.gr }]
    groups := d.groups ++ s.groups
    drains := d.drains ++ s.drains.map fun w => { w with core := r.core }
    fibres := d.fibres ++ fs.map (backFibre (d.ctx c) r.core)
    gated := d.gated.filter (· != r.core)
    served := setAt d.served (quarterOf r.core) c }

/-- The device when a restored team's engines, code and accesses are its core's. -/
def onItsCore (cycle : Nat) (d : Dev) (c : Nat) (s : SavedTeam) (r : Room) (fs : List Fibre) : Dev :=
  backAccesses (resumeMmas cycle (loadKernel (backEngines (putBack d c s r fs) r.core s) r.core c s.team.hdr) s.team.uid) s.team.uid r.core

/-- A saved command on its new core. -/
def putCmd (core : Nat) (d : Dev) (k : Cmd) : Dev :=
  { d with cmds := d.cmds ++ [{ k with core := core, entry := newEntry ((d.cmds.filter fun b => b.core == core).map Cmd.entry) k.entry }] }

theorem foldl_putCmd (core : Nat) (ks : List Cmd) (d : Dev) : ∃ cs, ks.foldl (putCmd core) d = { d with cmds := cs } ∧
    (∀ k, k ∈ d.cmds → k ∈ cs) ∧ ∀ k, k ∈ ks → ∃ n, { k with core := core, entry := n } ∈ cs := by
  induction ks generalizing d with
  | nil => exact ⟨d.cmds, rfl, fun _ h => h, fun k h => by cases h⟩
  | cons k ks ih =>
    obtain ⟨cs, he, hold, hnew⟩ := ih (putCmd core d k)
    have hk : { k with core := core, entry := newEntry ((d.cmds.filter fun b => b.core == core).map Cmd.entry) k.entry } ∈ cs :=
      hold _ (List.mem_append_right _ (List.mem_singleton.2 rfl))
    refine ⟨cs, by rw [List.foldl_cons, he]; rfl, fun j hj => hold j (List.mem_append_left _ hj), fun j hj => ?_⟩
    obtain rfl | hj := List.mem_cons.1 hj
    · exact ⟨_, hk⟩
    · exact hnew j hj

/-- The engines of a restored team: its commands are the core's, each with an entry of its own. -/
theorem backEngines_eq (d : Dev) (core : Nat) (s : SavedTeam) : ∃ cs bs, backEngines d core s = { d with cmds := cs, builds := bs } ∧
    ∀ k, k ∈ s.cmds → ∃ n, { k with core := core, entry := n } ∈ cs := by
  obtain ⟨cs, hcmds, -, hnew⟩ := foldl_putCmd core s.cmds d
  have hbuilds : ∃ bs, backEngines d core s = { s.cmds.foldl (putCmd core) d with builds := bs } := by
    rw [backEngines]
    refine List.foldlRecOn (motive := fun e : Dev => ∃ bs, e = ({ s.cmds.foldl (putCmd core) d with builds := bs } : Dev)) _ _ ⟨_, rfl⟩ ?_
    rintro _ ⟨bs, rfl⟩ b -
    exact ⟨_, rfl⟩
  obtain ⟨bs, hbuilds⟩ := hbuilds
  exact ⟨cs, bs, by rw [hbuilds, hcmds], hnew⟩

/-- A restored team's held operations go on; of the device only the team's own operations change. -/
theorem resumeMmas_eq {d : Dev} {u : Nat} {t : Team} (ht : d.team? u = some t) (cycle : Nat) :
    ∃ ts ms, resumeMmas cycle d u = { d with teams := ts } ∧ { t with mmas := ms } ∈ ts := by
  have hfold : ∃ ts ms, resumeMmas cycle d u = { d with teams := ts } ∧
      Dev.team? { d with teams := ts } u = some { t with mmas := ms } := by
    have hu : t.uid = u := uid_of_team? ht
    rw [resumeMmas, ht]
    dsimp only
    refine List.foldlRecOn (motive := fun e : Dev => ∃ ts ms, e = ({ d with teams := ts } : Dev) ∧
      Dev.team? { d with teams := ts } u = some { t with mmas := ms }) _ _ ⟨d.teams, t.mmas, rfl, ht⟩ ?_
    rintro _ ⟨ts, ms, rfl, he⟩ m -
    rw [he]
    dsimp only
    split
    · exact ⟨_, _, rfl, team?_setTeam_self (by exact hu) he⟩
    · exact ⟨ts, ms, rfl, he⟩
  obtain ⟨ts, ms, he, hteam⟩ := hfold
  exact ⟨ts, ms, he, List.mem_of_find?_eq_some hteam⟩

theorem enterRunning_ctx {d : Dev} {c : Nat} (hc : c < d.ctxs.length) (now : Word) :
    ((enterRunning now d c).ctx c).saved = (d.ctx c).saved ∧ ((enterRunning now d c).ctx c).state = .running := by
  rw [enterRunning]
  split
  · next h => exact ⟨rfl, h⟩
  · rw [ctx_setCtx_self hc]
    exact ⟨rfl, rfl⟩

theorem enterRunning_eq (now : Word) (d : Dev) (c : Nat) : ∃ xs, enterRunning now d c = { d with ctxs := xs } := by
  rw [enterRunning]
  split
  · exact ⟨_, rfl⟩
  · exact ⟨_, rfl⟩

theorem foldl_id {α : Type} {step : Dev → α → Dev} {xs : List α} (h : ∀ d x, x ∈ xs → step d x = d) (d : Dev) : xs.foldl step d = d := by
  induction xs with
  | nil => rfl
  | cons x xs ih =>
    rw [List.foldl_cons, h d x List.mem_cons_self]
    exact ih fun d y hy => h d y (List.mem_cons_of_mem _ hy)

/-- The end of a restore: the parked threads of the fibres that return, and the context Running. -/
def unpark (clk : Clk) (d : Dev) (c : Nat) (fs : List (Fibre × Bool)) : Dev :=
  let back := d.waiters.filter fun w => (w.marked || Config.spurious d.freeSeq (64 * w.fib + w.lane)) && fs.any fun p => p.1.uid == w.fib
  enterRunning clk.now (back.foldl (fun d w => returnWaiter w.notes d w) { d with freeSeq := d.freeSeq + 1 }) c

/-- Fibres without parked threads have none that return. -/
theorem unpark_none {clk : Clk} {d : Dev} {c : Nat} {fs : List (Fibre × Bool)} (h : ∀ w p, w ∈ d.waiters → p ∈ fs → w.fib ≠ p.1.uid) :
    unpark clk d c fs = enterRunning clk.now { d with freeSeq := d.freeSeq + 1 } c := by
  have hback : (d.waiters.filter fun w => (w.marked || Config.spurious d.freeSeq (64 * w.fib + w.lane)) &&
      fs.any fun p => p.1.uid == w.fib) = [] := by
    refine List.filter_eq_nil_iff.2 fun w hw hk => ?_
    obtain ⟨p, hp, hpw⟩ := List.any_eq_true.1 (Bool.and_eq_true_iff.1 hk).2
    exact h w p hw hp (beq_iff_eq.1 hpw).symm
  rw [unpark, hback]
  rfl

/-- A restore whose block reads back, of a team none of whose threads is parked. -/
theorem restoreTeam_eq {clk : Clk} {d : Dev} {c : Nat} {s : SavedTeam} {r : Room} {fs : List Fibre}
    (hread : readBlock s (blockNow (uoFlush d r.core) c s) = some (fs.map fun f => (f, false)))
    (hwaiters : ∀ w f, w ∈ (onItsCore clk.cycle (uoFlush d r.core) c s r fs).waiters → f ∈ fs → w.fib ≠ f.uid) :
    restoreTeam clk d c s r = enterRunning clk.now { onItsCore clk.cycle (uoFlush d r.core) c s r fs with
      freeSeq := (onItsCore clk.cycle (uoFlush d r.core) c s r fs).freeSeq + 1 } c := by
  have hfibres : (fs.map fun f => (f, false)).map (fun p : Fibre × Bool => backFibre ((uoFlush d r.core).ctx c) r.core p.1) =
      fs.map (backFibre ((uoFlush d r.core).ctx c) r.core) := by rw [List.map_map]; rfl
  unfold restoreTeam
  simp only [hread, Option.getD_some, hfibres]
  have hflag : ∀ p : Fibre × Bool, p ∈ fs.map (fun f => (f, false)) → p.2 = false := fun p hp => by
    obtain ⟨f, -, rfl⟩ := List.mem_map.1 hp
    rfl
  rw [foldl_id fun e p hp => if_neg (by rw [hflag p hp]; exact Bool.false_ne_true)]
  exact unpark_none fun w p hw hp => by
    obtain ⟨f, hf, rfl⟩ := List.mem_map.1 hp
    exact hwaiters w f hw hf

theorem memRead_filter {keep : Nat → Bool} {k : Nat} (hk : keep k = true) (m : List Host.Cell) :
    memRead (m.filter fun c => keep c.1) k = memRead m k := by
  induction m with
  | nil => rfl
  | cons c m ih =>
    obtain ⟨a, v⟩ := c
    by_cases ha : keep a = true
    · rw [List.filter_cons_of_pos (by exact ha), memRead, memRead, ih]
    · have hne : a ≠ k := fun h => ha (h ▸ hk)
      rw [List.filter_cons_of_neg (by exact ha), ih, memRead, if_neg hne]

/-- What a restored team's core has of it once its code is loaded and its operations go on. -/
theorem onItsCore_spec {d : Dev} {c : Nat} {s : SavedTeam} {r : Room} {fs : List Fibre} (hc : c < d.ctxs.length)
    (huid : ∀ v, v ∈ d.teams → v.uid ≠ s.team.uid) (cycle : Nat) :
    let e := onItsCore cycle d c s r fs
    (∀ f, f ∈ fs → AwaitsNoZeroing f → backFibre (d.ctx c) r.core f ∈ e.fibres) ∧
    (∃ ms, { s.team with core := r.core, grBase := r.gr, mmas := ms } ∈ e.teams) ∧
    (∀ g, g ∈ s.groups → g ∈ e.groups) ∧
    (∀ k, k ∈ s.cmds → ∃ n, { k with core := r.core, entry := n } ∈ e.cmds) ∧
    (e.ctx c).saved = (d.ctx c).saved.drop 1 ∧ c < e.ctxs.length ∧
    ∀ w, w ∈ e.waiters → ∃ v, v ∈ d.waiters ∧ v.fib = w.fib := by
  intro e
  obtain ⟨cs, bs, hengines, hnew⟩ := backEngines_eq (putBack d c s r fs) r.core s
  have hload := CodeLoaded.loadKernel (backEngines (putBack d c s r fs) r.core s) r.core c s.team.hdr
  obtain ⟨l, hl⟩ : ∃ l, l = loadKernel (backEngines (putBack d c s r fs) r.core s) r.core c s.team.hdr := ⟨_, rfl⟩
  rw [← hl, hengines] at hload
  have hteam : l.team? s.team.uid = some { s.team with core := r.core, grBase := r.gr } := by
    have hnone : d.teams.find? (fun v => v.uid == s.team.uid) = none := List.find?_eq_none.2 fun v hv => by simpa using huid v hv
    rw [Dev.team?, hload.teams]
    exact (List.find?_append ..).trans (by rw [hnone]; simp)
  obtain ⟨ts, ms, hresume, hmem⟩ := resumeMmas_eq hteam cycle
  have he : e = backAccesses { l with teams := ts } s.team.uid r.core := by rw [← hresume, hl]; rfl
  have hctxs : e.ctxs = (d.setCtx c { d.ctx c with saved := (d.ctx c).saved.drop 1 }).ctxs := by rw [he]; exact hload.ctxs
  have hctx : e.ctx c = { d.ctx c with saved := (d.ctx c).saved.drop 1 } := by
    rw [Dev.ctx, hctxs]
    exact ctx_setCtx_self hc _
  have hlen : c < e.ctxs.length := by
    rw [hctxs, Dev.setCtx, setAt_eq_set, List.length_set]
    exact hc
  refine ⟨fun f hf hz => ?_, ⟨ms, by rw [he]; exact hmem⟩, fun g hg => ?_, fun k hk => ?_, by rw [hctx], hlen, fun w hw => ?_⟩
  · have hthreads := (backFibre_spec (d.ctx c) r.core f).2.1
    have hback : AwaitsNoZeroing (backFibre (d.ctx c) r.core f) := by rw [AwaitsNoZeroing, hthreads]; exact hz
    rw [he]
    exact hload.fibre _ hback (List.mem_append_right _ (List.mem_map.2 ⟨f, hf, rfl⟩))
  · rw [he]
    show g ∈ l.groups
    rw [hload.groups]
    exact List.mem_append_right _ hg
  · rw [he]
    show ∃ n, _ ∈ l.cmds
    rw [hload.cmds]
    exact hnew k hk
  · rw [he] at hw
    obtain ⟨v, hv, rfl⟩ := List.mem_map.1 hw
    rw [show Dev.waiters { l with teams := ts } = l.waiters from rfl, hload.waiters] at hv
    exact ⟨v, hv, by split <;> rfl⟩

theorem savedOf_uid (d : Dev) (cycle : Nat) (t : Team) : (savedOf d cycle t).team.uid = t.uid := by
  rw [savedOf]
  dsimp only
  split <;> rfl

/-- The team that a save keeps: as it is, but for the tiles that are not live. -/
theorem savedOf_team (d : Dev) (cycle : Nat) (t : Team) (core gr : Nat) (ms : List MmaOpn) :
    ({ (savedOf d cycle t).team with core := core, grBase := gr, mmas := ms } : Team) =
      { t with core := core, grBase := gr, tile := (savedOf d cycle t).team.tile, mmas := ms } := by
  simp only [savedOf]
  split <;> rfl

theorem savedOf_tile {t : Team} {k : Nat} (h : t.tliveOk = false ∨ t.tlive.getLsbD (k / 4096) = true) (d : Dev) (cycle : Nat) :
    memRead (savedOf d cycle t).team.tile k = memRead t.tile k := by
  rw [savedOf]
  dsimp only
  split
  · next hok =>
    have hlive : t.tlive.getLsbD (k / 4096) = true := h.resolve_left (by rw [hok]; simp)
    exact memRead_filter (keep := fun a => t.tlive.getLsbD (a / 4096)) hlive t.tile
  · rfl

/-- A RESTORE GIVES BACK WHAT WAS SAVED, where the block stands unedited. -/
theorem restoreTeam_givesBack (clk : Clk) (d d0 : Dev) (c : Nat) (r : Room) (cycle : Nat) (t : Team) (o : Nat) (ss : List SavedTeam) :
    let s := { savedOf d0 cycle t with off := o }
    c < d.ctxs.length → (d.ctx c).saved = s :: ss → (∀ f, f ∈ s.fibres → WholeFibre f) → blockNow (uoFlush d r.core) c s = s.image →
    (∀ v, v ∈ d.teams → v.uid ≠ t.uid) → (∀ w f, w ∈ d.waiters → f ∈ s.fibres → w.fib ≠ f.uid) →
    (∀ f u z, f ∈ s.fibres → u ∈ f.threads → u.wait ≠ .zero z) →
    let d' := restoreTeam clk d c s r
    (∀ f, f ∈ teamFibres d0 t → backFibre (d.ctx c) r.core f ∈ d'.fibres) ∧
    (∃ v, v ∈ d'.teams ∧ v = { t with core := r.core, grBase := r.gr, tile := v.tile, mmas := v.mmas } ∧
      ∀ k, t.tliveOk = false ∨ t.tlive.getLsbD (k / 4096) = true → memRead v.tile k = memRead t.tile k) ∧
    (∀ g, g ∈ teamGroups d0 t → g ∈ d'.groups) ∧
    (∀ k, k ∈ s.cmds → ∃ n, { k with core := r.core, entry := n } ∈ d'.cmds) ∧
    (d'.ctx c).saved = ss ∧ (d'.ctx c).state = .running := by
  intro s hc hsaved hwhole hblock huid hparked hzero d'
  obtain ⟨m, u, ns, k, p, hflush⟩ := uoFlush_eq d r.core
  have hctxs : (uoFlush d r.core).ctxs = d.ctxs := by rw [hflush]
  have hctx : (uoFlush d r.core).ctx c = d.ctx c := by rw [Dev.ctx, hctxs, Dev.ctx]
  have hteams : (uoFlush d r.core).teams = d.teams := by rw [hflush]
  have hwaiters : (uoFlush d r.core).waiters = d.waiters := by rw [hflush]
  have huid' : s.team.uid = t.uid := savedOf_uid d0 cycle t
  have hread : readBlock s (blockNow (uoFlush d r.core) c s) = some (s.fibres.map fun f => (f, false)) := by
    rw [hblock]
    exact readBlock_self d0 cycle t hwhole
  obtain ⟨hfibres, ⟨ms, hteam⟩, hgroups, hcmds, hsv, hlen, hwait⟩ := onItsCore_spec (d := uoFlush d r.core) (c := c) (s := s) (r := r)
    (fs := s.fibres) (by rw [hctxs]; exact hc) (by rw [hteams, huid']; exact huid) clk.cycle
  rw [hctx] at hfibres hsv
  have hd' : d' = enterRunning clk.now { onItsCore clk.cycle (uoFlush d r.core) c s r s.fibres with
      freeSeq := (onItsCore clk.cycle (uoFlush d r.core) c s r s.fibres).freeSeq + 1 } c :=
    restoreTeam_eq hread fun w f hw hf => by
      obtain ⟨v, hv, hfib⟩ := hwait w hw
      rw [← hfib]
      exact hparked v f (hwaiters ▸ hv) hf
  obtain ⟨xs, hxs⟩ := enterRunning_eq clk.now { onItsCore clk.cycle (uoFlush d r.core) c s r s.fibres with
    freeSeq := (onItsCore clk.cycle (uoFlush d r.core) c s r s.fibres).freeSeq + 1 } c
  have hrun := enterRunning_ctx (d := { onItsCore clk.cycle (uoFlush d r.core) c s r s.fibres with
    freeSeq := (onItsCore clk.cycle (uoFlush d r.core) c s r s.fibres).freeSeq + 1 }) hlen clk.now
  rw [← hd'] at hrun
  rw [hxs] at hd'
  refine ⟨fun f hf => ?_, ⟨{ s.team with core := r.core, grBase := r.gr, mmas := ms }, ?_, savedOf_team d0 cycle t r.core r.gr ms,
    fun k hk => savedOf_tile hk d0 cycle⟩, fun g hg => ?_, fun k hk => ?_, hrun.1.trans ?_, hrun.2⟩
  · rw [hd']
    exact hfibres f hf fun u z hu => hzero f u z hf hu
  · rw [hd']
    exact hteam
  · rw [hd']
    exact hgroups g hg
  · rw [hd']
    exact hcmds k hk
  · exact hsv.trans (by rw [hsaved]; rfl)

/-- Settles O47: each event of a context is its equation; what a save writes is laid out section by section, and what a restore reads back
is shown to be what that layout was made from. -/
theorem contextEvents : Obligations.ContextEvents := by
  unfold Obligations.ContextEvents
  refine ⟨debugThreadStop_freezes, stopTarget_spec, haltRequest_halts, timeSliceExpiry_halts, preemptionDecision_halts, victimBelow_spec,
    saveComplete_ends, saveContext_writes, saveHeader_eq, teamBlock_sections, fibreBlock_spec, readBlock_self, restoreTeam_givesBack,
    backFibre_spec, teamRestore_restores, destroyComplete_frees, stallSample_taken, sampleRecs_none, sampleRecs_spec, stallOf_spec⟩

end Sys2Proof.Machine
end

section
/-!
PROOF of `TargetsAndStackBound`. A target is classified by the first row of R96 that applies, and a transfer with a stack bound checks it before
anything else.
-/

namespace Sys2Proof.Machine

/-! ### Classification (R96) -/

/-- A known overlay holds the addresses that lie in it. -/
theorem overlayOf_bounds {t : Team} {a base : Word} {len : Nat} (h : overlayOf t a = some (base, len)) :
    base.toNat ≤ a.toNat ∧ a.toNat < base.toNat + 12 * len := by
  obtain ⟨o, ho, he⟩ := Option.map_eq_some_iff.1 h
  have hin := List.find?_some ho
  cases he
  simpa using hin

section
variable {d : Dev} {core ctx : Nat} {t : Team} {lp : Bool} {a base : Word} {len : Nat}

theorem classify_outside (h : overlayOf t a = none) : classify d core ctx t lp a = .violation 1 := by
  rw [classify, h]

theorem classify_unaligned (h : overlayOf t a = some (base, len)) (hal : (a.toNat - base.toNat) % 12 ≠ 0) :
    classify d core ctx t lp a = .violation 2 := by
  rw [classify, h]
  exact if_pos hal

theorem classify_absent (h : overlayOf t a = some (base, len)) (hal : (a.toNat - base.toNat) % 12 = 0)
    (hres : residentAt d core ctx base = none) : classify d core ctx t lp a = .miss base len := by
  rw [classify, h]
  simp only [hal, ne_eq, not_true, if_false, hres]

theorem classify_resident (h : overlayOf t a = some (base, len)) (hal : (a.toNat - base.toNat) % 12 = 0) {r : Resident} {w : IWord}
    (hres : residentAt d core ctx base = some r) (hw : r.words[(a.toNat - base.toNat) / 12]? = some w) :
    classify d core ctx t lp a =
      if w.extractLsb' 88 8 = 0xF0#8 then .violation 3 else if lp = true ∧ w.getLsbD 71 = false then .violation 4 else .valid := by
  have hword : r.word a = some w := by rw [Resident.word, residentAt_base hres, hw]
  rw [classify, h]
  simp only [hal, ne_eq, not_true, if_false, hres, hword, Bool.and_eq_true, Bool.not_eq_true']

end

/-! ### The bodies of transfers -/

theorem exec_bra (h : Hdr) (off : BitVec 22) (s : State) : exec (.bra h off) s = issueOn (.bra h off) h s
    (ifActive fun x d => some (transfer x d .jump false fun _ => directTarget x.c.pc off)) := rfl

theorem exec_brx (h : Hdr) (r : Reg) (s : State) : exec (.brx h r) s = issueOn (.brx h r) h s
    (ifActive fun x d => some (transfer x d .jump true fun L => regLane d (x.fib d) r.toNat L)) := rfl

/-- What a call does once a lane is active. -/
def callNow (lp : Bool) (tgt : Iss → Dev → Nat → Word) : Body := fun x d =>
  if callTooDeep x then some (stackFault x (BitVec.ofInt 64 (frameAddr x.t (x.c.depth + 1))))
  else some (transfer x d .call lp (tgt x d))

theorem exec_call (h : Hdr) (off : BitVec 22) (s : State) : exec (.call h off) s = issueOn (.call h off) h s
    (ifActive (callNow false fun x _ _ => directTarget x.c.pc off)) := rfl

theorem exec_callx (h : Hdr) (r : Reg) (s : State) : exec (.callx h r) s = issueOn (.callx h r) h s
    (ifActive (callNow true fun x d L => regLane d (x.fib d) r.toNat L)) := rfl

theorem exec_ret (h : Hdr) (s : State) : exec (.ret h) s = issueOn (.ret h) h s (ifActive fun x d =>
    if x.c.depth = 0 then some (stackFault x 0)
    else some (transfer x d .ret false fun L => memWord ((x.fib d).thread L).stack (frameAddr x.t x.c.depth).toNat)) := rfl

/-! ### The stack bound (R94) -/

theorem callTooDeep_iff (x : Iss) : callTooDeep x = true ↔ x.t.hdr.stack < x.f.stklim.toNat + 16 * (x.c.depth + 1) := by
  rw [callTooDeep, frameAddr, decide_eq_true_iff]
  omega

/-- A call whose frame would lie below the limit. -/
theorem call_stackFault {i : Instr} {h : Hdr} {s : State} {x : Iss} {lp : Bool} {tgt : Iss → Dev → Nat → Word} (hh : hdrOf i = some h)
    (hx : issue? i s = some x) (he : exec i s = issueOn i h s (ifActive (callNow lp tgt))) (ha : x.act ≠ 0)
    (hdeep : x.t.hdr.stack < x.f.stklim.toNat + 16 * (x.c.depth + 1)) :
    exec i s = .next (finish x (.trap s.dev ⟨4, 0, BitVec.ofInt 64 ((x.t.hdr.stack : Int) - 16 * ((x.c.depth : Int) + 1)), x.act, 0⟩)) := by
  refine active_traps hh hx he ha ?_
  rw [callNow, if_pos ((callTooDeep_iff x).2 hdeep), ← issue?_s hx]
  rfl

/-- A return from the outermost depth. -/
theorem ret_stackFault {h : Hdr} {s : State} {x : Iss} (hx : issue? (.ret h) s = some x) (ha : x.act ≠ 0) (hdepth : x.c.depth = 0) :
    exec (.ret h) s = .next (finish x (.trap s.dev ⟨4, 0, 0, x.act, 0⟩)) := by
  refine active_traps rfl hx (exec_ret h s) ha ?_
  rw [if_pos hdepth, ← issue?_s hx]
  rfl

/-- Settles O17: a row of the classification each, the bound checked first, and bodies that do nothing without an active lane. -/
theorem targetsAndStackBound : Obligations.TargetsAndStackBound := by
  refine ⟨fun d core ctx t lp a => ⟨classify_outside, fun base len h => ?_⟩, fun i h s x hi hx ha hdeep => ?_,
    fun h s x hx => ret_stackFault hx, fun i h s x hi hx ha => ?_⟩
  · obtain ⟨hlo, hhi⟩ := overlayOf_bounds h
    exact ⟨hlo, hhi, classify_unaligned h, fun hal => ⟨classify_absent h hal, fun r w => classify_resident h hal⟩⟩
  · obtain ⟨off, rfl⟩ | ⟨r, rfl⟩ := hi
    · exact call_stackFault rfl hx (exec_call h off s) ha hdeep
    · exact call_stackFault rfl hx (exec_callx h r s) ha hdeep
  · obtain ⟨off, rfl⟩ | ⟨r, rfl⟩ | ⟨off, rfl⟩ | ⟨r, rfl⟩ | rfl := hi
    · exact idle_answers rfl hx (exec_bra h off s) ha
    · exact idle_answers rfl hx (exec_brx h r s) ha
    · exact idle_answers rfl hx (exec_call h off s) ha
    · exact idle_answers rfl hx (exec_callx h r s) ha
    · exact idle_answers rfl hx (exec_ret h s) ha

end Sys2Proof.Machine
end

section
/-!
PROOF of `TransfersEndsAndYield`. A transfer sorts its active lanes by the classification of their targets (`transfer_eq`): the valid ones
commit, the others stand again at the instruction, and each of those whose target is not resident waits for its overlay's load
(`foldl_awaitOverlay`). The ends of threads that serve no task change the fibre's threads and the parked ones alone.
-/

namespace Sys2Proof.Machine

/-! ### Lanes of a fibre -/

/-- The thread of a lane after a change of some lanes. -/
theorem thread_onLanes {f : Fibre} {L : Nat} (hL : L < f.threads.length) (m : LaneMask) (g : Nat → Thread → Thread) :
    (f.onLanes m g).thread L = if m.has L then g L (f.thread L) else f.thread L := by
  simp [Fibre.thread, Fibre.onLanes, Fibre.mapThreads, hL]

theorem length_onLanes (f : Fibre) (m : LaneMask) (g : Nat → Thread → Thread) : (f.onLanes m g).threads.length = f.threads.length :=
  List.length_mapIdx

/-- A change of the lanes of a fibre that touches no thread of them. -/
theorem onLanes_eq_self {f : Fibre} {m : LaneMask} {g : Nat → Thread → Thread} (h : ∀ L, m.has L = false) : f.onLanes m g = f :=
  mapThreads_eq_self fun L _ => by simp [h L]

theorem onLanes_nil (f : Fibre) (g : Nat → Thread → Thread) : f.onLanes (LaneMask.ofLanes []) g = f := onLanes_eq_self fun L => by simp

/-- Changes that agree on the threads of the lanes. -/
theorem onLanes_congr {f : Fibre} {m : LaneMask} {g k : Nat → Thread → Thread} (h : ∀ L t, m.has L = true → g L t = k L t) :
    f.onLanes m g = f.onLanes m k := by
  have hfun : (fun L t => if m.has L then g L t else t) = fun L t => if m.has L then k L t else t := by
    funext L t
    split
    · exact h L t ‹_›
    · rfl
  rw [Fibre.onLanes, hfun]
  rfl

theorem length_begunFib (i : Instr) (x : Iss) : (begunFib i x).threads.length = x.f.threads.length := by
  rw [begunFib, advance, length_onLanes]
  rfl

/-! ### Targets -/

theorem directTarget_eq (pc : Word) (off : BitVec 22) : directTarget pc off = pc + 12 * BitVec.ofInt 64 off.toInt := by
  have hsigned : toSigned 22 off.toNat = off.toInt := by
    have := off.isLt
    rw [BitVec.toInt_eq_toNat_cond, toSigned]
    split <;> split <;> omega
  rw [directTarget, sextTo64, hsigned]

theorem begun_mem (i : Instr) (x : Iss) : (begun i x).mem = x.s.dev.mem := by
  obtain ⟨rs, h⟩ := begun_eq i x; rw [h]; rfl

theorem classify_begun (i : Instr) (x : Iss) (core ctx : Nat) (t : Team) (lp : Bool) (a : Word) :
    classify (begun i x) core ctx t lp a = classify x.s.dev core ctx t lp a := by
  obtain ⟨rs, h⟩ := begun_eq i x
  rw [h]
  rfl

/-! ### The lanes of a transfer, sorted (R97) -/

/-- Where the target of a lane leads. -/
def xferDest (x : Iss) (lp : Bool) (tgt : Nat → Word) (L : Nat) : Dest := classify x.s.dev x.f.core x.f.ctx x.t lp (tgt L)

/-- The active lanes that commit. -/
def goodLanes (x : Iss) (dest : Nat → Dest) : List Nat := x.act.lanes.filterMap fun L => if dest L = .valid then some L else none

/-- The active lanes that violate, with their reasons. -/
def badLanes (x : Iss) (dest : Nat → Dest) : List (Nat × Nat) := x.act.lanes.filterMap fun L => match dest L with
  | .violation r => some (L, r)
  | _ => none

/-- The active lanes whose target is not resident, with the overlay they wait for. -/
def absentLanes (x : Iss) (dest : Nat → Dest) : List (Nat × Word × Nat) := x.act.lanes.filterMap fun L => match dest L with
  | .miss b n => some (L, b, n)
  | _ => none

theorem mem_goodLanes {x : Iss} {dest : Nat → Dest} {L : Nat} : L ∈ goodLanes x dest ↔ x.act.has L = true ∧ dest L = .valid := by
  simp [goodLanes, mem_lanes, and_comm]

theorem mem_badLanes {x : Iss} {dest : Nat → Dest} {L r : Nat} :
    (L, r) ∈ badLanes x dest ↔ x.act.has L = true ∧ dest L = .violation r := by
  simp only [badLanes, List.mem_filterMap, mem_lanes]
  constructor
  · rintro ⟨M, hM, he⟩
    split at he
    · cases he; exact ⟨hM, ‹_›⟩
    · cases he
  · rintro ⟨hL, hd⟩
    exact ⟨L, hL, by rw [hd]⟩

theorem mem_absentLanes {x : Iss} {dest : Nat → Dest} {L : Nat} {b : Word} {n : Nat} :
    (L, b, n) ∈ absentLanes x dest ↔ x.act.has L = true ∧ dest L = .miss b n := by
  simp only [absentLanes, List.mem_filterMap, mem_lanes]
  constructor
  · rintro ⟨M, hM, he⟩
    split at he
    · cases he; exact ⟨hM, ‹_›⟩
    · cases he
  · rintro ⟨hL, hd⟩
    exact ⟨L, hL, by rw [hd]⟩

/-- The lanes that stay at the instruction. -/
def stayMask (x : Iss) (dest : Nat → Dest) : LaneMask :=
  LaneMask.ofLanes ((badLanes x dest).map Prod.fst ++ (absentLanes x dest).map Prod.fst)

theorem has_stayMask {x : Iss} {dest : Nat → Dest} {L : Nat} : (stayMask x dest).has L = true ↔ x.act.has L = true ∧ dest L ≠ .valid := by
  simp only [stayMask, has_ofLanes, decide_eq_true_eq, List.mem_append, List.mem_map, Prod.exists, exists_and_right, exists_eq_right,
    mem_badLanes, mem_absentLanes]
  constructor
  · rintro ⟨⟨r, hL, hd⟩ | ⟨b, n, hL, hd⟩, -⟩ <;> exact ⟨hL, by rw [hd]; exact Dest.noConfusion⟩
  · rintro ⟨hL, hd⟩
    refine ⟨?_, lt_of_has hL⟩
    cases hdest : dest L with
    | valid => exact absurd hdest hd
    | miss b n => exact .inr ⟨b, n, hL, rfl⟩
    | violation r => exact .inl ⟨r, hL, rfl⟩

theorem has_goodMask {x : Iss} {dest : Nat → Dest} {L : Nat} :
    (LaneMask.ofLanes (goodLanes x dest)).has L = true ↔ x.act.has L = true ∧ dest L = .valid := by
  simp only [has_ofLanes, decide_eq_true_eq, mem_goodLanes]
  exact ⟨fun h => h.1, fun h => ⟨h, lt_of_has h.1⟩⟩

/-- The issuing fibre once its lanes are sorted: the good ones committed, the others at the instruction again. -/
def sortedFib (x : Iss) (k : XferKind) (dest : Nat → Dest) (tgt : Nat → Word) (f : Fibre) : Fibre :=
  keepPc x (stayMask x dest) (f.onLanes (LaneMask.ofLanes (goodLanes x dest)) fun L t => commitXfer x k (tgt L) t)

/-- The overlay that a target which is not resident lies in. -/
def Dest.base : Dest → Word
  | .miss b _ => b
  | _ => 0

/-- The thread of a lane once the lanes are sorted. -/
theorem thread_sortedFib {i : Instr} {x : Iss} {k : XferKind} {dest : Nat → Dest} {tgt : Nat → Word} {L : Nat}
    (hL : L < x.f.threads.length) : (sortedFib x k dest tgt (begunFib i x)).thread L =
      if x.act.has L = true then
        if dest L = .valid then commitXfer x k (tgt L) ((begunFib i x).thread L)
        else { (begunFib i x).thread L with pc := x.c.pc, depth := x.c.depth }
      else (begunFib i x).thread L := by
  have hlen : L < (begunFib i x).threads.length := by rw [length_begunFib]; exact hL
  rw [sortedFib, keepPc, thread_onLanes (by rw [length_onLanes]; exact hlen), thread_onLanes hlen]
  simp only [has_stayMask, has_goodMask]
  by_cases hact : x.act.has L = true <;> by_cases hd : dest L = .valid <;> simp [hact, hd]

/-- A lane that waits for its overlay. -/
def awaitOverlay (x : Iss) (d : Dev) (m : Nat × Word × Nat) : Dev := overlayMiss d (x.fib d) (LaneMask.ofLanes [m.1]) m.2.1 m.2.2

/-- A TRANSFER none of whose lanes waits for a spilled frame. -/
theorem transfer_eq {i : Instr} {s : State} {x : Iss} (hx : issue? i s = some x) (k : XferKind) (lp : Bool) (tgt : Nat → Word)
    (hheld : k = .ret → ∀ L, x.act.has L = true → (x.f.thread L).held ≠ 0) :
    let dest := xferDest x lp tgt
    let d := (absentLanes x dest).foldl (awaitOverlay x) (emitTrace ((begun i x).setFibre (sortedFib x k dest tgt (begunFib i x)))
      (branchRecs x ((goodLanes x dest).map fun L => (L, tgt L))))
    transfer x (begun i x) k lp tgt = if badLanes x dest = [] then .done d else .trap d (landingFault (badLanes x dest)) := by
  intro dest d
  have hspilled : (x.lanes.filter fun L => k = .ret ∧ ((begunFib i x).thread L).held = 0) = [] := by
    refine List.filter_eq_nil_iff.2 fun L hL => ?_
    rw [thread_begunFib i x L Thread.held fun _ _ _ _ => rfl]
    simpa using fun hk => hheld hk L (mem_lanes.1 hL)
  have hlanes : (x.lanes.filter fun L => !([] : List Nat).contains L) = x.act.lanes := List.filter_eq_self.2 fun _ _ => rfl
  simp only [transfer, fib_begun hx, hspilled, hlanes, classify_begun, List.filterMap_map, List.isEmpty_iff, onLanes_nil, List.nil_append]
  rfl

/-! ### Lanes that wait for an overlay (R71, R97) -/

/-- The load of an overlay is under way. -/
def Loading (d : Dev) (core ctx : Nat) (b : Word) : Prop := ∃ l, l ∈ d.loads ∧ l.core = core ∧ l.ctx = ctx ∧ l.base = b

theorem startLoad_eq (d : Dev) (core ctx : Nat) (b : Word) (n : Nat) :
    ∃ ls, startLoad d core ctx b n = { d with loads := d.loads ++ ls } ∧ Loading (startLoad d core ctx b n) core ctx b := by
  rw [startLoad]
  split
  · rename_i h
    obtain ⟨l, hl, heq⟩ := List.any_eq_true.1 h
    simp only [Bool.and_eq_true, beq_iff_eq] at heq
    exact ⟨[], by rw [List.append_nil], l, hl, heq.1.1, heq.1.2, heq.2⟩
  · exact ⟨_, rfl, ⟨core, ctx, b, n⟩, by simp, rfl, rfl, rfl⟩

/-- A load under way stays so while further loads start. -/
theorem Loading.mono {d e : Dev} {ls : List OvlLoad} (he : e.loads = d.loads ++ ls) {core ctx : Nat} {b : Word} :
    Loading d core ctx b → Loading e core ctx b
  | ⟨l, hl, h⟩ => ⟨l, he ▸ List.mem_append_left _ hl, h⟩

/-- A thread that waits for an overlay. -/
def awaiting (b : Word) (t : Thread) : Thread := { t with wait := .overlay b }

/-- One lane that waits: of the device its fibre and the loads change. -/
theorem awaitOverlay_eq {x : Iss} {d : Dev} {f : Fibre} (hf : d.fibre? x.f.uid = some f) (m : Nat × Word × Nat) :
    ∃ ls, awaitOverlay x d m =
      { d.setFibre (f.onLanes (LaneMask.ofLanes [m.1]) fun _ t => awaiting m.2.1 t) with loads := d.loads ++ ls } ∧
      Loading (awaitOverlay x d m) f.core f.ctx m.2.1 := by
  have hfib : x.fib d = f := by rw [Iss.fib, hf]; rfl
  rw [awaitOverlay, overlayMiss, hfib]
  exact startLoad_eq _ _ _ _ _

/-- THE LANES THAT WAIT: each waits for the overlay of its own target, whose load is under way; all else stands. -/
theorem foldl_awaitOverlay {x : Iss} {base : Nat → Word} (ms : List (Nat × Word × Nat)) (hms : ∀ m, m ∈ ms → m.2.1 = base m.1) {d : Dev}
    {f : Fibre} (hf : d.fibre? x.f.uid = some f) :
    let e := ms.foldl (awaitOverlay x) d
    ∃ f', e.fibre? x.f.uid = some f' ∧ e.mem = d.mem ∧ e.flights = d.flights ∧ (∃ ls, e.loads = d.loads ++ ls) ∧
      (∀ L, L < f.threads.length → L < 64 →
        f'.thread L = if L ∈ ms.map Prod.fst then awaiting (base L) (f.thread L) else f.thread L) ∧
      ∀ m, m ∈ ms → Loading e f.core f.ctx m.2.1 := by
  induction ms generalizing d f with
  | nil => exact ⟨f, hf, rfl, rfl, ⟨[], by simp⟩, fun L _ _ => by simp, fun m hm => by cases hm⟩
  | cons m ms ih =>
    obtain ⟨ls, hone, hload⟩ := awaitOverlay_eq hf m
    have hf1 : (awaitOverlay x d m).fibre? x.f.uid = some (f.onLanes (LaneMask.ofLanes [m.1]) fun _ t => awaiting m.2.1 t) := by
      rw [hone]
      exact fibre?_setFibre_of hf rfl
    obtain ⟨f', hf', hmem, hfl, ⟨ls', hls⟩, hth, hld⟩ := ih (fun k hk => hms k (List.mem_cons_of_mem _ hk)) hf1
    refine ⟨f', hf', hmem.trans (by rw [hone]; rfl), hfl.trans (by rw [hone]; rfl), ⟨ls ++ ls', ?_⟩, fun L hL h64 => ?_, fun k hk => ?_⟩
    · rw [List.foldl_cons, hls, hone, List.append_assoc]
    · have hone := thread_onLanes hL (LaneMask.ofLanes [m.1]) fun _ t => awaiting m.2.1 t
      rw [hth L (by rw [length_onLanes]; exact hL) h64, List.map_cons]
      by_cases hLm : L = m.1
      · subst hLm
        rw [if_pos (by simp [h64]), hms m List.mem_cons_self] at hone
        rw [hms m List.mem_cons_self, hone, if_pos List.mem_cons_self]
        exact ite_self _
      · rw [if_neg (by simp [hLm])] at hone
        rw [hone]
        exact if_congr (by rw [List.mem_cons, or_iff_right hLm]) rfl rfl
    · obtain rfl | hk := List.mem_cons.1 hk
      · exact hload.mono hls
      · exact hld k hk

/-! ### The effect of a transfer -/

/-- The instruction comes to the transfer of its active lanes. -/
def Transfers (i : Instr) (s : State) (x : Iss) (k : XferKind) (lp : Bool) (tgt : Nat → Word) : Prop :=
  exec i s = .next (finish x (transfer x (begun i x) k lp tgt)) ∧ (k = .ret → ∀ L, x.act.has L = true → (x.f.thread L).held ≠ 0)

section
variable {i : Instr} {s : State} {x : Iss} {k : XferKind} {lp : Bool} {tgt : Nat → Word} {g : Nat → Thread → Thread}
  (hx : issue? i s = some x) (ht : Transfers i s x k lp tgt) (hg : ∀ L t, commitXfer x k (tgt L) t = g L t)
include hx ht hg

/-- A transfer all of whose targets are valid commits every active lane. -/
theorem transferTo_of_allValid (hall : AllValid s x lp tgt) : TransferTo i s x tgt g := by
  have hdest : ∀ L, x.act.has L = true → xferDest x lp tgt L = .valid := fun L hL => by
    rw [xferDest, issue?_s hx]; exact hall L hL
  have hgood : goodLanes x (xferDest x lp tgt) = x.act.lanes := by
    rw [goodLanes, List.filterMap_congr (g := some) fun L hL => if_pos (hdest L (mem_lanes.1 hL)), List.filterMap_some]
  have hbad : badLanes x (xferDest x lp tgt) = [] := List.filterMap_eq_nil_iff.2 fun L hL => by rw [hdest L (mem_lanes.1 hL)]
  have habsent : absentLanes x (xferDest x lp tgt) = [] := List.filterMap_eq_nil_iff.2 fun L hL => by rw [hdest L (mem_lanes.1 hL)]
  have hsorted : sortedFib x k (xferDest x lp tgt) tgt (begunFib i x) = (begunFib i x).onLanes x.act g := by
    have hstay : ∀ L, (stayMask x (xferDest x lp tgt)).has L = false := fun L => by
      rw [← Bool.not_eq_true, has_stayMask]
      exact fun h => h.2 (hdest L h.1)
    rw [sortedFib, keepPc, onLanes_eq_self hstay, hgood, ofLanes_lanes]
    exact onLanes_congr fun L t _ => hg L t
  rw [TransferTo, Answers, ht.1, transfer_eq hx k lp tgt ht.2, if_pos hbad, habsent, hsorted, hgood, finish, issue?_s hx]
  rfl

/-- A transfer lane by lane. -/
theorem transferEach_of_transfers : TransferEach i s x lp tgt g := by
  obtain rfl := issue?_s hx
  obtain ⟨dest, hdest⟩ : ∃ dest, dest = xferDest x lp tgt := ⟨_, rfl⟩
  have hexec := ht.1
  rw [transfer_eq hx k lp tgt ht.2, ← hdest] at hexec
  obtain ⟨d, hd⟩ : ∃ d, d = emitTrace ((begun i x).setFibre (sortedFib x k dest tgt (begunFib i x)))
    (branchRecs x ((goodLanes x dest).map fun L => (L, tgt L))) := ⟨_, rfl⟩
  have hf : d.fibre? x.f.uid = some (sortedFib x k dest tgt (begunFib i x)) := by
    rw [hd]
    exact fibre?_setFibre_of (begun_fibre? hx) rfl
  have hmem : d.mem = x.s.dev.mem := by rw [hd]; exact begun_mem i x
  have hflights : d.flights = x.s.dev.flights := by rw [hd]; exact begun_flights i x
  rw [← hd] at hexec
  have hlen : (sortedFib x k dest tgt (begunFib i x)).threads.length = x.f.threads.length := by
    rw [sortedFib, keepPc, length_onLanes, length_onLanes, length_begunFib]
  have hplace : (sortedFib x k dest tgt (begunFib i x)).core = x.f.core ∧ (sortedFib x k dest tgt (begunFib i x)).ctx = x.f.ctx := by
    simp [sortedFib, keepPc]
  have habs : ∀ L, L ∈ (absentLanes x dest).map Prod.fst ↔ x.act.has L = true ∧ ∃ b n, dest L = .miss b n := fun L => by
    simp [mem_absentLanes]
  obtain ⟨f', hf', hmem', hflights', -, hth, hld⟩ := foldl_awaitOverlay (base := fun L => (dest L).base) (absentLanes x dest)
    (fun m hm => by rw [(mem_absentLanes.1 hm).2]; rfl) hf
  rw [hplace.1, hplace.2] at hld
  generalize (absentLanes x dest).foldl (awaitOverlay x) d = e at hexec hf' hmem' hflights' hld
  refine ⟨e, f', hexec.trans (by rw [hdest]; rfl), hf', hmem'.trans hmem, hflights'.trans hflights, fun L hL h64 => ?_,
    fun L b n hL hd => hld (L, b, n) (mem_absentLanes.2 ⟨hL, by rw [hdest]; exact hd⟩)⟩
  have hd : classify x.s.dev x.f.core x.f.ctx x.t lp (tgt L) = dest L := by rw [hdest]; rfl
  have hlane := hth L (hL.trans_eq hlen.symm) h64
  rw [thread_sortedFib hL] at hlane
  dsimp only
  rw [hd]
  cases hact : x.act.has L with
  | false =>
    rw [if_neg (mt (habs L).1 (by simp [hact])), if_neg (by simp [hact])] at hlane
    exact hlane
  | true =>
    cases hdL : dest L with
    | valid =>
      rw [if_neg (mt (habs L).1 (by simp [hdL])), if_pos hact, if_pos hdL, hg] at hlane
      exact hlane
    | violation r =>
      rw [if_neg (mt (habs L).1 (by simp [hdL])), if_pos hact, if_neg (by simp [hdL])] at hlane
      exact hlane
    | miss b n =>
      rw [if_pos ((habs L).2 ⟨hact, b, n, hdL⟩), if_pos hact, if_neg (by simp [hdL]), hdL] at hlane
      exact hlane

end

/-! ### Each transfer (R94, R97) -/

theorem commitXfer_jump (x : Iss) (tgt : Nat → Word) (L : Nat) (t : Thread) : commitXfer x .jump (tgt L) t = jumpTo tgt L t := rfl

theorem commitXfer_call (x : Iss) (tgt : Nat → Word) (L : Nat) (t : Thread) : commitXfer x .call (tgt L) t = callTo x tgt L t := by
  have hframe : (frameAddr x.t (x.c.depth + 1)).toNat = x.t.hdr.stack - 16 * (x.c.depth + 1) := by rw [frameAddr]; omega
  rw [commitXfer, hframe]
  rfl

theorem commitXfer_ret (x : Iss) (tgt : Nat → Word) (L : Nat) (t : Thread) : commitXfer x .ret (tgt L) t = retTo x tgt L t := rfl

section
variable {i : Instr} {h : Hdr} {s : State} {x : Iss} (hx : issue? i s = some x) (ha : x.act ≠ 0)
include hx ha

/-- A body that comes to a transfer. -/
theorem transfers_of_body {b : Body} {k : XferKind} {lp : Bool} {tgt : Nat → Word} (hh : hdrOf i = some h)
    (he : exec i s = issueOn i h s (ifActive b)) (hheld : k = .ret → ∀ L, x.act.has L = true → (x.f.thread L).held ≠ 0)
    (hb : b x (begun i x) = some (transfer x (begun i x) k lp tgt)) : Transfers i s x k lp tgt :=
  ⟨he.trans (issueOn_outcome hh hx ((if_neg ha).trans hb)), hheld⟩

theorem bra_transfers {off : BitVec 22} (hi : i = .bra h off) :
    Transfers i s x .jump false fun _ => x.c.pc + 12 * BitVec.ofInt 64 off.toInt := by
  subst hi
  refine transfers_of_body hx ha rfl (exec_bra h off s) (fun hk => nomatch hk) ?_
  simp only [directTarget_eq]

theorem brx_transfers {r : Reg} (hi : i = .brx h r) : Transfers i s x .jump true (inReg x r) := by
  subst hi
  refine transfers_of_body hx ha rfl (exec_brx h r s) (fun hk => nomatch hk) ?_
  simp only [fib_begun hx, regLane_begun]
  rfl

theorem call_transfers {off : BitVec 22} (hi : i = .call h off) (hroom : x.f.stklim.toNat + 16 * (x.c.depth + 1) ≤ x.t.hdr.stack) :
    Transfers i s x .call false fun _ => x.c.pc + 12 * BitVec.ofInt 64 off.toInt := by
  subst hi
  refine transfers_of_body hx ha rfl (exec_call h off s) (fun hk => nomatch hk) ?_
  rw [callNow, if_neg (mt (callTooDeep_iff x).1 (Nat.not_lt.2 hroom))]
  simp only [directTarget_eq]

theorem callx_transfers {r : Reg} (hi : i = .callx h r) (hroom : x.f.stklim.toNat + 16 * (x.c.depth + 1) ≤ x.t.hdr.stack) :
    Transfers i s x .call true (inReg x r) := by
  subst hi
  refine transfers_of_body hx ha rfl (exec_callx h r s) (fun hk => nomatch hk) ?_
  rw [callNow, if_neg (mt (callTooDeep_iff x).1 (Nat.not_lt.2 hroom))]
  simp only [fib_begun hx, regLane_begun]
  rfl

theorem ret_transfers (hi : i = .ret h) (hdepth : x.c.depth ≠ 0) (hheld : ∀ L, x.act.has L = true → (x.f.thread L).held ≠ 0) :
    Transfers i s x .ret false (framePc x) := by
  subst hi
  have hframe : (frameAddr x.t x.c.depth).toNat = x.t.hdr.stack - 16 * x.c.depth := by rw [frameAddr]; omega
  refine transfers_of_body hx ha rfl (exec_ret h s) (fun _ => hheld) ?_
  rw [if_neg hdepth]
  simp only [fib_begun hx, thread_begunFib _ x _ Thread.stack (fun _ _ _ _ => rfl), hframe]
  rfl

end

/-! ### Ends and turns (R98, R99, R107) -/

theorem exec_exit (h : Hdr) (s : State) : exec (.exit h) s =
    issueOn (.exit h) h s (ifActive fun x d => some (.done (endThreads d x.f.uid x.act))) := rfl

theorem exec_fexit (h : Hdr) (s : State) : exec (.fexit h) s =
    issueOn (.fexit h) h s (ifActive fun x d => some (.done (endThreads d x.f.uid (x.fib d).live))) := rfl

theorem exec_yield (h : Hdr) (s : State) : exec (.yield h) s = issueOn (.yield h) h s (ifActive fun x d =>
    some (.done (passTurn d x.s.clk.cycle (x.s.clk.cycle + 1) x.f.core x.f.quad x.f.slot x.f.pos))) := rfl

/-- A fold whose steps all leave its start as it is. -/
theorem foldl_fixed_of {α β : Type} {step : β → α → β} {b : β} {xs : List α} (h : ∀ x ∈ xs, step b x = b) : xs.foldl step b = b :=
  List.foldlRecOn (motive := (· = b)) xs step rfl fun _ he x hx => he ▸ h x hx

theorem commitBuf_of_noTask {d : Dev} {f : Fibre} {L : Nat} {b : Bool} (h : (f.thread L).task = none) : commitBuf d f L b = d := by
  rw [commitBuf, h]

/-- The end of threads that serve no task: no buffer commits. -/
theorem endThreads_eq {d : Dev} {u : Nat} {f : Fibre} {m : LaneMask} (hf : d.fibre? u = some f)
    (htask : ∀ L, m.has L = true → (f.thread L).task = none) : endThreads d u m =
      { d.setFibre (f.onLanes m fun _ t => if t.life = .live then { t with life := .exited, wait := .none, walk := none } else t) with
        waiters := d.waiters.filter fun w => !(w.fib == u && m.has w.lane) } := by
  rw [endThreads, foldl_fixed_of (b := d) (xs := m.lanes)]
  · simp only [hf]
  · intro L hL
    simp only [hf, commitBuf_of_noTask (htask L (mem_lanes.1 hL)), ite_self]

theorem endThreads_lives {d : Dev} {u : Nat} {f : Fibre} {m : LaneMask} (hf : d.fibre? u = some f)
    (htask : ∀ L, m.has L = true → (f.thread L).task = none) : ∃ f', (endThreads d u m).fibre? u = some f' ∧
      (∀ L, L < f.threads.length →
        (f'.thread L).life = if m.has L = true ∧ (f.thread L).life = .live then .exited else (f.thread L).life) ∧
      (endThreads d u m).mem = d.mem ∧ (endThreads d u m).flights = d.flights ∧ f'.regs = f.regs := by
  rw [endThreads_eq hf htask]
  refine ⟨_, fibre?_setFibre_of hf rfl, fun L hL => ?_, rfl, rfl, rfl⟩
  rw [thread_onLanes hL]
  by_cases hm : m.has L = true <;> by_cases hl : (f.thread L).life = .live <;> simp [hm, hl]

/-- Settles O16: each transfer comes to the one way lanes are sorted and commit; each end and turn is its body. -/
theorem transfersEndsAndYield : Obligations.TransfersEndsAndYield := by
  refine ⟨⟨fun h off s x hx ha => ?_, fun h r s x hx ha => ?_, fun h off s x hx ha hroom => ?_, fun h r s x hx ha hroom => ?_,
      fun h s x hx ha hd hheld => ?_, fun h off s x hx ha => ?_, fun h r s x hx ha => ?_, fun h off s x hx ha hroom => ?_,
      fun h r s x hx ha hroom => ?_, fun h s x hx ha hd hheld => ?_⟩,
    fun h s x hx => ?_, fun h s x hx => ?_, fun h s x hx => ?_, fun h s x hx => ?_, fun d u f m hf htask => endThreads_lives hf htask⟩
  · exact transferTo_of_allValid hx (bra_transfers hx ha rfl) (commitXfer_jump x _)
  · exact transferTo_of_allValid hx (brx_transfers hx ha rfl) (commitXfer_jump x _)
  · exact transferTo_of_allValid hx (call_transfers hx ha rfl hroom) (commitXfer_call x _)
  · exact transferTo_of_allValid hx (callx_transfers hx ha rfl hroom) (commitXfer_call x _)
  · exact transferTo_of_allValid hx (ret_transfers hx ha rfl hd hheld) (commitXfer_ret x _)
  · exact transferEach_of_transfers hx (bra_transfers hx ha rfl) (commitXfer_jump x _)
  · exact transferEach_of_transfers hx (brx_transfers hx ha rfl) (commitXfer_jump x _)
  · exact transferEach_of_transfers hx (call_transfers hx ha rfl hroom) (commitXfer_call x _)
  · exact transferEach_of_transfers hx (callx_transfers hx ha rfl hroom) (commitXfer_call x _)
  · exact transferEach_of_transfers hx (ret_transfers hx ha rfl hd hheld) (commitXfer_ret x _)
  · exact (exec_nop h s).trans (issueOn_answers rfl hx rfl)
  · exact guarded_answers rfl hx (exec_exit h s) rfl
  · refine guarded_answers rfl hx (exec_fexit h s) ?_
    rw [fib_begun hx, live_begun]
  · obtain rfl := issue?_s hx
    exact guarded_answers rfl hx (exec_yield h _) rfl

end Sys2Proof.Machine
end

section
/-!
PROOF of `FaultsFreezeAndRecordsAreWritten`. A fault taken is a freeze (`takeFault_freezes`), a retry (`takeFault_retries`) or a freeze with
kind 8 (`takeFault_exhausted`), and a record's first and last words are numbers in mixed radix. The writer's two writes are the device's own
writes of runs of bytes (`writeFrom_physBytes`), whose words are read back one by one (`memWord_memPut_words`).
-/

namespace Sys2Proof.Machine

/-! ### The fields of a record (R304) -/

theorem fields_recWord0 {width ctx : Nat} (hw : width < 256) (hc : ctx < 64) (kind reason : Nat) :
    field (recWord0 kind 0 reason width ctx) 0 4 = kind % 16 ∧ field (recWord0 kind 0 reason width ctx) 4 4 = 0 ∧
      field (recWord0 kind 0 reason width ctx) 8 8 = reason % 256 ∧ field (recWord0 kind 0 reason width ctx) 16 8 = width ∧
      field (recWord0 kind 0 reason width ctx) 24 8 = ctx ∧ field (recWord0 kind 0 reason width ctx) 32 32 = 0 := by
  simp only [field, recWord0, BitVec.toNat_ofNat]
  refine ⟨?_, ?_, ?_, ?_, ?_, ?_⟩ <;> omega

/-- The fields of a record's last word: the team's number, the fibre's number and its token. -/
theorem fields_recWord7 (team fib token : Nat) :
    let w := BitVec.ofNat 64 (team % 2 ^ 32 + 2 ^ 32 * (fib % 4096) + 2 ^ 44 * token)
    field w 0 32 = team % 2 ^ 32 ∧ field w 32 12 = fib % 4096 ∧ field w 44 20 = token % 2 ^ 20 := by
  simp only [field, BitVec.toNat_ofNat]
  refine ⟨?_, ?_, ?_⟩ <;> omega

/-- The upper half of a word replaced. -/
theorem field_setField_upper {w : Word} {x : Nat} (hx : x < 2 ^ 32) :
    field (setField w 32 32 x) 32 32 = x ∧ field (setField w 32 32 x) 0 32 = field w 0 32 := by
  have hw : w.toNat < 2 ^ 64 := w.isLt
  simp only [field, setField, BitVec.toNat_ofNat]
  constructor <;> omega

/-! ### A record owed (R104, R303, R305) -/

theorem oweRecord_false (d : Dev) (c : Nat) (r : FRecord) :
    oweRecord d c r false = d.setCtx c { d.ctx c with owed := (d.ctx c).owed ++ [r] } := rfl

/-- A refusal report that finds the ring full is counted, one that finds room is owed. -/
theorem oweRecord_true (d : Dev) (c : Nat) (r : FRecord) :
    oweRecord d c r true = if ringRoom (d.ctx c) = true then oweRecord d c r false else d.setCtx c (d.ctx c).lose := by
  cases h : ringRoom (d.ctx c) <;> simp [oweRecord, h]

/-- What a freeze leaves: the fibre as it stands but frozen, its record owed, all else as it was. -/
theorem freezeWith_spec (clk : Clk) {d : Dev} {u : Nat} {f : Fibre} (t : Team) (pc : Word) (i : FaultInfo) (hf : d.fibre? u = some f)
    (hc : f.ctx < d.ctxs.length) :
    let d' := freezeWith clk d f t pc i
    d'.fibre? u = some { f with frozen := some ⟨i.kind, i.lanes, false, clk.cycle, pc⟩ } ∧ (∀ v, v ≠ u → d'.fibre? v = d.fibre? v) ∧
      (d'.ctx f.ctx).owed = (d.ctx f.ctx).owed ++ [fibreRecord clk.now d f t pc i] ∧
      d' = { d with fibres := d'.fibres, ctxs := d'.ctxs } ∧ ∀ c, c ≠ f.ctx → d'.ctx c = d.ctx c := by
  dsimp only
  rw [freezeWith, oweRecord_false]
  refine ⟨?_, fun v hv => ?_, ?_, rfl, fun c hne => ctx_setCtx_other hne _⟩
  · exact fibre?_setFibre_of hf rfl
  · have hu : f.uid = u := by simpa using List.find?_some hf
    exact fibre?_setFibre_other (show v ≠ f.uid from hu ▸ hv)
  · rw [ctx_setCtx_self (show f.ctx < (d.setFibre _).ctxs.length from hc)]
    rfl

/-! ### What taking a fault comes to (R90, R104, R247) -/

theorem takeFault_frozen {clk : Clk} {d : Dev} {u : Nat} {f : Fibre} (pc : Word) (i : FaultInfo) (hf : d.fibre? u = some f)
    (hz : f.frozen ≠ none) : takeFault clk d u pc i = d := by
  simp only [takeFault, hf, Option.isSome_iff_ne_none.2 hz]
  split <;> rfl

theorem takeFault_freezes {clk : Clk} {d : Dev} {u : Nat} {f : Fibre} {t : Team} {i : FaultInfo} (pc : Word) (hf : d.fibre? u = some f)
    (ht : d.team? f.team = some t) (hz : f.frozen = none) (hi : i.kind = 1 ∨ 9 ≤ i.kind ∨ t.wave = none) :
    takeFault clk d u pc i = freezeWith clk d f t pc i := by
  simp only [takeFault, hf, ht, hz, Option.isSome_none, Bool.false_eq_true, if_false, if_pos hi]

theorem has_retryLanes (f : Fibre) (m : LaneMask) (L : Nat) : (retryLanes f m).has L = true ↔
    m.has L = true ∧ ∃ k, (f.thread L).task = some k ∧ k.retryable = true ∧ 0 < k.retries := by
  rw [retryLanes, has_lanesWhere]
  cases h : (f.thread L).task with
  | none => simp
  | some k =>
    simp only [Bool.and_eq_true, decide_eq_true_eq, Option.some.injEq, exists_eq_left']
    exact ⟨And.right, fun hm => ⟨lt_of_has hm.1, hm⟩⟩

theorem retryLanes_eq_self {f : Fibre} {m : LaneMask}
    (h : ∀ L, m.has L = true → ∃ k, (f.thread L).task = some k ∧ k.retryable = true ∧ 0 < k.retries) : retryLanes f m = m :=
  BitVec.eq_of_getLsbD_eq fun L _ => Bool.eq_iff_iff.2
    ⟨fun hL => ((has_retryLanes f m L).1 hL).1, fun hL => (has_retryLanes f m L).2 ⟨hL, h L hL⟩⟩

theorem retryLanes_eq_zero {f : Fibre} {m : LaneMask}
    (h : ∀ L, m.has L = true → ∃ k, (f.thread L).task = some k ∧ k.retryable = true ∧ k.retries = 0) : retryLanes f m = 0 :=
  eq_zero_of_has fun L => Bool.eq_false_iff.2 fun hL => by
    obtain ⟨hm, k, hk, -, hpos⟩ := (has_retryLanes f m L).1 hL
    obtain ⟨k', hk', -, hzero⟩ := h L hm
    obtain rfl := Option.some.inj (hk.symm.trans hk')
    omega

/-- Every faulting lane may retry: the threads end and their tasks go back. -/
theorem takeFault_retries {clk : Clk} {d : Dev} {u : Nat} {f : Fibre} {t : Team} {i : FaultInfo} (pc : Word) (hf : d.fibre? u = some f)
    (ht : d.team? f.team = some t) (hz : f.frozen = none) (hi : ¬(i.kind = 1 ∨ 9 ≤ i.kind ∨ t.wave = none)) (hl : i.lanes ≠ 0)
    (h : ∀ L, i.lanes.has L = true → ∃ k, (f.thread L).task = some k ∧ k.retryable = true ∧ 0 < k.retries) :
    takeFault clk d u pc i = retryTasks clk.now d f i.lanes := by
  have hrest : i.lanes &&& ~~~i.lanes = 0 := BitVec.and_not_self _
  simp only [takeFault, hf, ht, hz, Option.isSome_none, Bool.false_eq_true, if_false, if_neg hi, retryLanes_eq_self h, hrest, hl, ne_eq,
    not_false_eq_true, and_self, if_true]

/-- No faulting lane has a retry left: the fibre freezes with kind 8 and the fault's own kind as the reason. -/
theorem takeFault_exhausted {clk : Clk} {d : Dev} {u : Nat} {f : Fibre} {t : Team} {i : FaultInfo} (pc : Word) (hf : d.fibre? u = some f)
    (ht : d.team? f.team = some t) (hz : f.frozen = none) (hi : ¬(i.kind = 1 ∨ 9 ≤ i.kind ∨ t.wave = none)) (hl : i.lanes ≠ 0)
    (h : ∀ L, i.lanes.has L = true → ∃ k, (f.thread L).task = some k ∧ k.retryable = true ∧ k.retries = 0) :
    takeFault clk d u pc i = freezeWith clk d f t pc { i with kind := 8, reason := i.kind } := by
  have hrest : i.lanes &&& ~~~(0 : LaneMask) = i.lanes := by rw [BitVec.ofNat_eq_ofNat, BitVec.not_zero, BitVec.and_allOnes]
  obtain ⟨L, hL, hlow⟩ : ∃ L, i.lanes.has L = true ∧ (lowestLane i.lanes).getD 0 = L := by
    obtain ⟨L, ls, hls⟩ := List.exists_cons_of_ne_nil (lanes_ne_nil hl)
    exact ⟨L, mem_lanes.1 (hls ▸ List.mem_cons_self), by rw [lowestLane, hls]; rfl⟩
  obtain ⟨k, hk, hretry, -⟩ := h L hL
  simp only [takeFault, hf, ht, hz, Option.isSome_none, Bool.false_eq_true, if_false, if_neg hi, retryLanes_eq_zero h, hrest, hl, ne_eq,
    not_true_eq_false, and_false, if_true, FaultInfo.cut, hlow, hk, hretry]

/-! ### The device's own writes (R188, R305) -/

theorem physBytes_eq (a : Nat) (bs : List Byte) :
    physBytes a bs = (bs.zipIdx.map fun b => (a + b.2, b.1)).map fun q => (Place.phys q.1, q.2) := by
  rw [physBytes, List.map_map]
  rfl

theorem foldl_memWrite_run (m : List Host.Cell) (a : Nat) (bs : List Byte) :
    (bs.zipIdx.map fun b => (a + b.2, b.1)).foldl (fun m q => memWrite m q.1 q.2) m = memPut m a bs := by
  rw [List.foldl_map]
  exact foldl_memWrite_zipIdx bs m a 0

/-- What a write of a run of bytes of memory leaves: memory with the bytes, a fresh identity and the records of the write. -/
theorem writeFrom_physBytes (d : Dev) (ks : List Nat) (hands : Nat → List Hand) (a : Nat) (bs : List Byte) : ∃ b ns p,
    (d.writeFrom ks hands (physBytes a bs)).2 = { d with
      mem := memPut d.mem a bs, nextId := d.nextId + 1, before := b, notes := ns, clock := d.clock + 1, past := p } := by
  obtain ⟨b, hb⟩ := addBefore_eq { d with nextId := d.nextId + 1 } (soleEv d.nextId) false ks
  rw [Dev.writeFrom, Dev.join, hb, physBytes_eq]
  dsimp only
  obtain ⟨ns, p, h⟩ := homeWrite_phys { d with nextId := d.nextId + 1, before := b } _ false (bs.zipIdx.map fun b => (a + b.2, b.1))
  rw [h, foldl_memWrite_run]
  exact ⟨b, ns, p, rfl⟩

theorem writeFrom_mem (d : Dev) (ks : List Nat) (hands : Nat → List Hand) (a : Nat) (bs : List Byte) :
    (d.writeFrom ks hands (physBytes a bs)).2.mem = memPut d.mem a bs := by
  obtain ⟨b, ns, p, h⟩ := writeFrom_physBytes d ks hands a bs
  rw [h]

theorem writeFrom_ctxs (d : Dev) (ks : List Nat) (hands : Nat → List Hand) (a : Nat) (bs : List Byte) :
    (d.writeFrom ks hands (physBytes a bs)).2.ctxs = d.ctxs := by
  obtain ⟨b, ns, p, h⟩ := writeFrom_physBytes d ks hands a bs
  rw [h]

theorem map_getD_range {α : Type} (xs : List α) (x : α) : ((List.range xs.length).map fun k => xs.getD k x) = xs := by
  refine List.ext_getElem (by simp) fun k _ hk => ?_
  simp [List.getElem?_eq_getElem hk]

/-- A word read out of a run of words that has been written. -/
theorem memWord_memPut_words (m : List Host.Cell) (a : Nat) (ws : List Word) {k : Nat} (hk : k < ws.length) :
    memWord (memPut m a (ws.flatMap wordLE)) (a + 8 * k) = ws.getD k 0 := by
  have hws : ws.flatMap wordLE = (List.range ws.length).flatMap fun k => wordLE (ws.getD k 0) := by
    conv_lhs => rw [← map_getD_range ws 0]
    rw [List.flatMap_map]
  have hlen : (ws.flatMap wordLE).length = 8 * ws.length := by
    rw [hws]
    exact length_flatMap_range _ (fun _ => length_wordLE _) _
  rw [memWord, memBytes_memPut_mid _ _ _ _ _ (by omega), hws, take_drop_flatMap_range (fun k => wordLE (ws.getD k 0))
    (fun _ => length_wordLE _) hk, leWord_wordLE]

/-! ### The fault-queue writer (R305, R313) -/

theorem resumeNamed_mem (d : Dev) (c token : Nat) : (resumeNamed d c token).mem = d.mem := by
  rw [resumeNamed]
  split <;> rfl

theorem resumeNamed_ctxs (d : Dev) (c token : Nat) : (resumeNamed d c token).ctxs = d.ctxs := by
  rw [resumeNamed]
  split <;> rfl

/-- Where a context's next record goes in its ring. -/
def ringSlot (x : Ctx) : Nat := x.fqbase + 64 * (x.fqtail % x.fqcap)

/-- A context's tail once its next record is written. -/
def nextTail (x : Ctx) : Nat := (x.fqtail + 1) % 2 ^ 32

/-- A record's words in the ring: the first bears the tail as its sequence. -/
def ringWords (x : Ctx) (r : FRecord) : List Word := setAt r.ws 0 (setField (r.ws.getD 0 0) 32 32 x.fqtail)

/-- The context whose oldest record has been written. -/
def afterRecord (x : Ctx) : Ctx := { x with owed := x.owed.drop 1, fqtail := nextTail x }

theorem writeRecord_ctx {d : Dev} {c : Nat} (r : FRecord) (hc : c < d.ctxs.length) : (writeRecord d c r).ctx c = afterRecord (d.ctx c) := by
  have hring : ∀ ks bs, (((d.writeFrom ks (fun e => [⟨.sys, true, [e]⟩]) (physBytes (ringSlot (d.ctx c)) bs)).2.setCtx c
      (afterRecord (d.ctx c))).ctx c) = afterRecord (d.ctx c) := fun ks bs => ctx_setCtx_self (by rw [writeFrom_ctxs]; exact hc) _
  unfold writeRecord
  dsimp only
  split
  · exact hring _ _
  · rw [Dev.ctx, writeFrom_ctxs]
    exact hring _ _

theorem writeRecord_mem (d : Dev) (c : Nat) (r : FRecord) : (writeRecord d c r).mem =
    if (d.ctx c).fqnote = 0 then memPut d.mem (ringSlot (d.ctx c)) ((ringWords (d.ctx c) r).flatMap wordLE)
    else memPut (memPut d.mem (ringSlot (d.ctx c)) ((ringWords (d.ctx c) r).flatMap wordLE)) (d.ctx c).fqnote (natLE 8 (nextTail (d.ctx c))) := by
  have hring := writeFrom_mem d r.know (fun e => [⟨.sys, true, [e]⟩]) (ringSlot (d.ctx c)) ((ringWords (d.ctx c) r).flatMap wordLE)
  unfold writeRecord
  dsimp only
  split
  · exact hring
  · rw [writeFrom_mem]
    exact congrArg (memPut · _ _) hring

/-- The device once a record has been written and what waited for that has gone on. -/
def recordDone (d : Dev) (c : Nat) (r : FRecord) : Dev := (r.token.map (resumeNamed (writeRecord d c r) c)).getD (writeRecord d c r)

theorem recordDone_mem (d : Dev) (c : Nat) (r : FRecord) : (recordDone d c r).mem = (writeRecord d c r).mem := by
  rw [recordDone]
  cases r.token with
  | none => rfl
  | some k => exact resumeNamed_mem _ c k

theorem recordDone_ctx {d : Dev} {c : Nat} (r : FRecord) (hc : c < d.ctxs.length) : (recordDone d c r).ctx c = afterRecord (d.ctx c) := by
  rw [← writeRecord_ctx r hc, recordDone]
  cases r.token with
  | none => rfl
  | some k => exact congrArg (List.getD · c _) (resumeNamed_ctxs _ c k)

theorem exec_faultRecordWrite_written {s : State} {c : Nat} {r : FRecord} {rest : List FRecord} (ho : (s.dev.ctx c).owed = r :: rest)
    (hc : c < 64) (hroom : ringRoom (s.dev.ctx c) = true) (hlive : liveIds s.dev r.after = []) :
    exec (.faultRecordWrite c) s = .next { s with dev := recordDone s.dev c r, env := signalMsix s.env c } := by
  simp [exec, execFaultRecordWrite, ho, hc, hroom, hlive, recordDone]

/-- A record that has no room, or whose fibre has an access still to perform, waits. -/
theorem exec_faultRecordWrite_waits {s : State} {c : Nat} {r : FRecord} {rest : List FRecord} (ho : (s.dev.ctx c).owed = r :: rest)
    (hkind : r.isRefusal = false) (h : ringRoom (s.dev.ctx c) = false ∨ liveIds s.dev r.after ≠ []) :
    exec (.faultRecordWrite c) s = .next s := by
  obtain hroom | hlive := h
  · simp [exec, execFaultRecordWrite, ho, hroom, hkind]
  · simp [exec, execFaultRecordWrite, ho, hlive, hkind]

theorem exec_faultRecordWrite_discards {s : State} {c : Nat} {r : FRecord} {rest : List FRecord} (ho : (s.dev.ctx c).owed = r :: rest)
    (hc : c < 64) (hroom : ringRoom (s.dev.ctx c) = false) (hkind : r.isRefusal = true) :
    exec (.faultRecordWrite c) s = .next (s.withDev (s.dev.setCtx c ({ s.dev.ctx c with owed := rest } : Ctx).lose)) := by
  simp [exec, execFaultRecordWrite, ho, hc, hroom, hkind]

/-- What a written record of eight words leaves in memory. -/
theorem recordDone_writes (d : Dev) (c : Nat) (r : FRecord) (hlen : r.ws.length = 8) (htail : (d.ctx c).fqtail < 2 ^ 32) :
    let m := (recordDone d c r).mem
    let x := d.ctx c
    (x.fqnote = 0 → (∀ k, 1 ≤ k → k < 8 → memWord m (ringSlot x + 8 * k) = r.ws.getD k 0) ∧
      field (memWord m (ringSlot x)) 32 32 = x.fqtail ∧ field (memWord m (ringSlot x)) 0 32 = field (r.ws.getD 0 0) 0 32 ∧
      ∀ a, a < ringSlot x ∨ ringSlot x + 64 ≤ a → memRead m a = memRead d.mem a) ∧
    (x.fqnote ≠ 0 → memWord m x.fqnote = BitVec.ofNat 64 (nextTail x)) := by
  dsimp only
  rw [recordDone_mem, writeRecord_mem]
  refine ⟨fun hn => ?_, fun hn => ?_⟩
  · rw [if_pos hn]
    have hws : (ringWords (d.ctx c) r).length = 8 := by rw [ringWords, setAt_eq_set, List.length_set, hlen]
    have hword := fun k (hk : k < 8) => memWord_memPut_words d.mem (ringSlot (d.ctx c)) (ringWords (d.ctx c) r) (hws.symm ▸ hk)
    have hfirst : (ringWords (d.ctx c) r).getD 0 0 = setField (r.ws.getD 0 0) 32 32 (d.ctx c).fqtail := by
      simp [ringWords, setAt_eq_set, hlen]
    have hfields := field_setField_upper (w := r.ws.getD 0 0) htail
    rw [← hfirst, ← hword 0 (by omega)] at hfields
    refine ⟨fun k h1 h8 => (hword k h8).trans ?_, hfields.1, hfields.2, fun a ha => ?_⟩
    · simp [ringWords, setAt_eq_set, List.getElem?_set_ne (by omega : 0 ≠ k)]
    · have hbytes : ((ringWords (d.ctx c) r).flatMap wordLE).length = 64 := by
        rw [length_flatMap_const length_wordLE, hws]
      rw [memRead_memPut, if_neg (by omega)]
  · have htail64 : nextTail (d.ctx c) < 2 ^ 64 := (Nat.mod_lt _ (by decide)).trans (by decide)
    have hle : natLE 8 (nextTail (d.ctx c)) = wordLE (BitVec.ofNat 64 (nextTail (d.ctx c))) := by
      rw [wordLE, BitVec.toNat_ofNat, Nat.mod_eq_of_lt htail64]
    rw [if_neg hn, hle, memWord_memPut]

/-- Settles O39: a fault is taken in one of three ways; the writer writes, waits or discards. -/
theorem faultsFreezeAndRecordsAreWritten : Obligations.FaultsFreezeAndRecordsAreWritten := by
  refine ⟨⟨fun clk d uid f t pc i hf ht hz hc hi => ?_, fun clk d uid f pc i hf hz => takeFault_frozen pc i hf hz,
      fun clk d uid f t pc i hf ht hz h1 h9 hw hl => ?_, fun now d f t pc i hw hc => ?_⟩,
    fun s c r rest ho hc hlen hroom hlive hws htail => ?_, fun s c r rest ho hroom hkind => ?_, fun s c r rest hc ho hroom hkind => ?_,
    fun s c r rest ho hlive hkind => ?_, fun d c r hc => ⟨fun hfull => ?_, fun hroom => ?_, oweRecord_false d c r⟩⟩
  · rw [takeFault_freezes pc hf ht hz hi]
    exact freezeWith_spec clk t pc i hf hc
  · have hi : ¬(i.kind = 1 ∨ 9 ≤ i.kind ∨ t.wave = none) := by rintro (h | h | h) <;> [exact h1 h; omega; exact hw h]
    exact ⟨takeFault_retries pc hf ht hz hi hl, takeFault_exhausted pc hf ht hz hi hl⟩
  · obtain ⟨hk, hs, hr, hwd, hctx, hz⟩ := fields_recWord0 hw hc i.kind i.reason
    obtain ⟨hteam, hlog, htok⟩ := fields_recWord7 (laneTeam f t ((lowestLane i.lanes).getD 0)) (f.thread 0).logical (fibreToken f)
    exact ⟨hk, hs, hr, hwd, hctx, hz, rfl, rfl, rfl, rfl, rfl, rfl, hteam, hlog, htok⟩
  · obtain ⟨hring, hnote⟩ := recordDone_writes s.dev c r hws htail
    refine ⟨_, exec_faultRecordWrite_written ho hc hroom hlive, rfl, rfl, ?_, hring, hnote⟩
    refine (recordDone_ctx r hlen).trans ?_
    rw [afterRecord, ho]
    rfl
  · exact exec_faultRecordWrite_waits ho hkind (.inl hroom)
  · exact exec_faultRecordWrite_discards ho hc hroom hkind
  · exact exec_faultRecordWrite_waits ho hkind (.inr hlive)
  · rw [oweRecord_true, if_neg (by rw [ringRoom, decide_eq_true_eq]; omega)]
    rfl
  · rw [oweRecord_true, if_pos (by rw [ringRoom, decide_eq_true_eq]; omega)]
    rfl

end Sys2Proof.Machine
end

section
/-!
PROOF of `AccessesPerformAtTheirHomes`. The reads of a load leave records, copies and holds (`SameButReads`), and its registers are written one
after the other (`foldl_writeNow_spec`). A store is one write of its bytes in each lane: at their homes where it goes through or no page is UO,
otherwise in the core's own copies. One lane's atomic reads its element and writes it back with no other effect on memory (`rmwLane_mem`).
-/

namespace Sys2Proof.Machine

/-! ### What the reads of a flight leave (R169, R174) -/

/-- What a flight's reads change: records of them, the core's copies and what waits for flights; no `fence.uo` waits for more flights. -/
structure SameButReads (id : Nat) (d e : Dev) : Prop where
  mem : e.mem = d.mem
  groups : e.groups = d.groups
  fence : NoUoFence d id → NoUoFence e id
  fibre : ∀ u f, d.fibre? u = some f → ∃ f', e.fibre? u = some f' ∧ SameButRecords f f'

theorem SameButReads.refl (id : Nat) (d : Dev) : SameButReads id d d := ⟨rfl, rfl, fun h => h, fun _ f h => ⟨f, h, .refl f⟩⟩

theorem SameButReads.trans {id : Nat} {c d e : Dev} (h : SameButReads id c d) (k : SameButReads id d e) : SameButReads id c e where
  mem := k.mem.trans h.mem
  groups := k.groups.trans h.groups
  fence hn := k.fence (h.fence hn)
  fibre u f hf := by
    obtain ⟨f1, hf1, h1⟩ := h.fibre u f hf
    obtain ⟨f2, hf2, h2⟩ := k.fibre u f1 hf1
    exact ⟨f2, hf2, h1.trans h2⟩

theorem SameButReads.foldl {α : Type} {id : Nat} {step : Dev → α → Dev} (hstep : ∀ d x, SameButReads id d (step d x)) (xs : List α)
    (d : Dev) : SameButReads id d (xs.foldl step d) := by
  induction xs generalizing d with
  | nil => exact .refl id d
  | cons x xs ih => exact (hstep d x).trans (ih (step d x))

theorem meetNotes_holds (d : Dev) (fib team core : Nat) (acqs : List (Nat × Scope)) (a : LaneAcc) (ns : List RelNote) :
    (meetNotes d fib team core acqs a ns).holds = d.holds := by
  rw [meetNotes]
  split
  · rfl
  · obtain ⟨b, hb⟩ := foldl_before_eq (fun d q => acquireNotes_eq d q.1 (ns.filter fun n => n.syncs team core q.2)) acqs d
    dsimp only
    rw [hb]
    split <;> rfl

theorem learn_holds (d : Dev) (fib team core event : Nat) (acqs : List (Nat × Scope)) (back : Nat) (a : LaneAcc) :
    (learn d fib team core event acqs back a).holds = d.holds := by
  have hmet := (meetNotes_holds (d.addBefore event false (writesRead d core back team a)) fib team core acqs a
    (notesMet d core team back a)).trans (addBefore_holds _ _ _ _)
  rw [learn]
  generalize meetNotes (d.addBefore event false (writesRead d core back team a)) fib team core acqs a
    (notesMet d core team back a) = met at hmet
  dsimp only
  split
  · exact hmet
  · split <;> split <;> exact hmet

theorem sameButReads_learn (id : Nat) (d : Dev) (fib team core event : Nat) (acqs : List (Nat × Scope)) (back : Nat) (a : LaneAcc) :
    SameButReads id d (learn d fib team core event acqs back a) :=
  have h := OnlyRecords.learn d fib team core event acqs back a
  ⟨h.mem, h.groups, fun hn => by rw [NoUoFence, learn_holds]; exact hn, h.fibre⟩

theorem uoFill_eq (d : Dev) (core : Nat) (a : LaneAcc) : ∃ u, uoFill d core a = { d with uo := u } :=
  foldl_uo_ind (P := fun e => ∃ u, e = { d with uo := u }) (fun e p => by
    split
    · split
      · exact ⟨_, rfl⟩
      · exact ⟨_, rfl⟩
    · exact ⟨_, rfl⟩) fun u => ⟨u, rfl⟩

theorem sameButReads_uoFill (id : Nat) (d : Dev) (core : Nat) (a : LaneAcc) : SameButReads id d (uoFill d core a) := by
  obtain ⟨u, h⟩ := uoFill_eq d core a
  rw [h]
  exact ⟨rfl, rfl, fun hn => hn, fun _ f hf => ⟨f, hf, .refl f⟩⟩

/-- The holds that a read of an unfinished multicast store extends wait for the reading flight, so no `fence.uo` of others is among them. -/
theorem sameButReads_followMc (d : Dev) (g : Flight) (a : LaneAcc) : SameButReads g.id d (followMc d g a) := by
  rw [followMc]
  split
  · exact .refl g.id d
  · refine ⟨rfl, rfl, fun hn h hh hflush => ?_, fun _ f hf => ⟨f, hf, .refl f⟩⟩
    obtain hmap | hnew := List.mem_append.1 hh
    · obtain ⟨k, hk, rfl⟩ := List.mem_map.1 hmap
      by_cases hrel : k.releases g a.lane = true
      · rw [if_pos hrel] at hflush
        have hids : k.ids.contains g.id = true := (Bool.and_eq_true_iff.1 hrel).2
        exact absurd (List.contains_iff_mem.1 hids) (hn k hk hflush)
      · rw [if_neg hrel] at hflush ⊢
        exact hn k hk hflush
    · obtain rfl := List.mem_singleton.1 hnew
      cases hflush

theorem sameButReads_learnFlight (d : Dev) (g : Flight) (back : Nat) (a : LaneAcc) :
    SameButReads g.id d (learnFlight (followMc d g a) g back a) :=
  (sameButReads_followMc d g a).trans (sameButReads_learn _ _ _ _ _ _ _ _ _)

theorem sameButReads_learnAll (d : Dev) (g : Flight) (bs : List Nat) : SameButReads g.id d (learnAll d g bs) := by
  rw [learnAll]
  refine SameButReads.foldl (fun d p => ?_) _ _
  exact (sameButReads_uoFill g.id d g.core p.1).trans (sameButReads_learnFlight _ g p.2 p.1)

/-! ### Registers written one after the other (R9, R98) -/

theorem fibre?_setGroup (d : Dev) (g : Group) (u : Nat) : (d.setGroup g).fibre? u = d.fibre? u := rfl

/-- A window register stays one when its group gets other registers, as many as it had. -/
theorem hasReg_setGroup {d : Dev} {f : Fibre} {q : Nat} {g : Group} (hu : g.uid = (d.group f.grp).uid)
    (hlen : g.regs.length = (d.group f.grp).regs.length) (hq : HasReg d f q) : HasReg (d.setGroup g) f q := by
  by_cases hw : f.isWindow q = true
  · rw [HasReg, if_pos hw] at hq ⊢
    obtain h255 | ⟨k, hk, hin⟩ := hq
    · exact .inl h255
    · have hgroup : d.group f.grp = k := by rw [Dev.group, hk]; rfl
      have hku : k.uid = f.grp := by simpa using List.find?_some hk
      rw [hgroup] at hu hlen
      refine .inr ⟨g, ?_, hlen.symm ▸ hin⟩
      rw [Dev.setGroup, find_map_setGroup, if_pos (hu.trans hku).symm, hk]
      rfl
  · rw [HasReg, if_neg hw] at hq ⊢
    exact hq

theorem hasReg_setRegs {d : Dev} {f : Fibre} {q : Nat} {rs : List VReg} (hlen : rs.length = f.regs.length) (hq : HasReg d f q) :
    HasReg (d.setFibre { f with regs := rs }) { f with regs := rs } q := by
  rw [HasReg] at hq ⊢
  rw [hlen]
  exact hq

/-- A register that a fibre has, it has after a write of another too. -/
theorem hasReg_putReg {d : Dev} {u r q : Nat} {f f' : Fibre} (hf : d.fibre? u = some f) (v : VReg)
    (hf' : (putReg d f r v).fibre? u = some f') (hq : HasReg d f q) : HasReg (putReg d f r v) f' q := by
  by_cases h255 : r = 255
  · rw [putReg, if_pos h255] at hf' ⊢
    obtain rfl := Option.some.inj (hf.symm.trans hf')
    exact hq
  rw [putReg, if_neg h255] at hf' ⊢
  by_cases hw : f.isWindow r = true
  · rw [if_pos hw] at hf' ⊢
    rw [fibre?_setGroup] at hf'
    obtain rfl := Option.some.inj (hf.symm.trans hf')
    exact hasReg_setGroup rfl (by rw [setAt_eq_set, List.length_set]) hq
  · rw [if_neg hw] at hf' ⊢
    rw [fibre?_setFibre_of (g := { f with regs := setAt f.regs r v }) hf rfl] at hf'
    obtain rfl := Option.some.inj hf'
    exact hasReg_setRegs (by rw [setAt_eq_set, List.length_set]) hq

theorem putReg_holds (d : Dev) (f : Fibre) (r : Nat) (v : VReg) : (putReg d f r v).holds = d.holds := by
  rw [putReg]
  split
  · rfl
  · split <;> rfl

/-- Lane-wise words written: a written live lane holds its word. -/
theorem laneVal_mergeReg {f : Fibre} {old : VReg} {m : LaneMask} {full : Bool} {ws : List Word} {L : Nat} (hm : m.has L = true)
    (hw : L < f.width) (hlive : (f.thread L).life = .live) : laneVal f (mergeReg f old m full (.g ws)) L = ws.getD L 0 := by
  cases full <;> simp [mergeReg, laneVal, VReg.lane, hlive, hw, hm]

/-- A REGISTER WRITTEN LANE BY LANE in some lanes. -/
theorem writeNow_g_spec {d : Dev} {u r : Nat} {f : Fibre} (hf : d.fibre? u = some f) (hr : HasReg d f r) (m : LaneMask) (full : Bool)
    (ws : List Word) : let e := writeNow d u r m full (.g ws)
    ∃ f', e.fibre? u = some f' ∧ SameButRegs f f' ∧
      (r ≠ 255 → ∀ L, m.has L = true → L < f.width → (f.thread L).life = .live → regLane e f' r L = ws.getD L 0) ∧
      (∀ q, q ≠ r → regOf e f' q = regOf d f q) ∧ (∀ q, HasReg d f q → HasReg e f' q) ∧ e.mem = d.mem ∧ e.holds = d.holds := by
  dsimp only
  by_cases hm : m = 0
  · rw [writeNow, if_pos hm]
    refine ⟨f, hf, ⟨f.regs, rfl⟩, fun _ L hL => ?_, fun _ _ => rfl, fun _ h => h, rfl, rfl⟩
    exact absurd hm (ne_zero_of_has hL)
  · rw [writeNow, if_neg hm, hf]
    dsimp only
    obtain ⟨f', hf', ⟨rs, rfl⟩, hval, hother, hmem, -⟩ := putReg_spec hf hr (mergeReg f (regOf d f r) m full (.g ws))
    refine ⟨_, hf', ⟨rs, rfl⟩, fun h L hL hw hlive => ?_, hother, fun q => hasReg_putReg hf _ hf', hmem, putReg_holds _ _ _ _⟩
    rw [regLane, hval h]
    exact laneVal_mergeReg hL hw hlive

/-- Distinct registers written one after the other: each holds its words, the others hold what they held. -/
theorem foldl_writeNow_spec {u : Nat} (m : LaneMask) (full : Bool) {rvs : List (Nat × List Word)} (hnd : (rvs.map Prod.fst).Nodup)
    {d : Dev} {f : Fibre} (hf : d.fibre? u = some f) (hreg : ∀ rv, rv ∈ rvs → HasReg d f rv.1) :
    let e := rvs.foldl (fun d rv => writeNow d u rv.1 m full (.g rv.2)) d
    ∃ f', e.fibre? u = some f' ∧ SameButRegs f f' ∧ (∀ rv, rv ∈ rvs → rv.1 ≠ 255 → ∀ L, m.has L = true → L < f.width →
        (f.thread L).life = .live → regLane e f' rv.1 L = rv.2.getD L 0) ∧
      (∀ q, q ∉ rvs.map Prod.fst → regOf e f' q = regOf d f q) ∧ e.mem = d.mem ∧ e.holds = d.holds := by
  induction rvs generalizing d f with
  | nil => exact ⟨f, hf, ⟨f.regs, rfl⟩, fun _ h => absurd h List.not_mem_nil, fun _ _ => rfl, rfl, rfl⟩
  | cons rv rvs ih =>
    obtain ⟨hnotin, hnd⟩ := List.nodup_cons.1 (List.map_cons ▸ hnd)
    obtain ⟨f1, hf1, ⟨rs, rfl⟩, hval, hother, hkeep, hmem, hholds⟩ := writeNow_g_spec hf (hreg rv List.mem_cons_self) m full rv.2
    obtain ⟨f', hf', ⟨rs', rfl⟩, hvals, hothers, hmem', hholds'⟩ :=
      ih hnd hf1 fun p hp => hkeep _ (hreg p (List.mem_cons_of_mem _ hp))
    refine ⟨_, hf', ⟨rs', rfl⟩, fun p hp h255 L hL hw hlive => ?_, fun q hq => ?_, hmem'.trans hmem, hholds'.trans hholds⟩
    · obtain rfl | hp := List.mem_cons.1 hp
      · rw [← hval h255 L hL hw hlive]
        exact congrArg (laneVal _ · L) (hothers p.1 hnotin)
      · exact hvals p hp h255 L hL hw hlive
    · rw [List.map_cons, List.mem_cons, not_or] at hq
      exact (hothers q hq.2).trans (hother q hq.1)

/-! ### A load performs (R169, R187) -/

/-- The words that a result gives a lane: those of the first value for it, 0 without any. -/
def landedWord (vals : List (Nat × List Word)) (k L : Nat) : Word := match vals.find? fun v => v.1 == L with
  | some v => v.2.getD k 0
  | none => 0

/-- The writes of a result: each destination with its word of every lane. -/
def landedRegs (g : Flight) (width : Nat) (vals : List (Nat × List Word)) : List (Nat × List Word) :=
  (List.range g.dst.length).map fun k => (g.dst.getD k 255, (List.range width).map (landedWord vals k))

theorem landRegs_eq {d : Dev} {g : Flight} {f : Fibre} (hf : d.fibre? g.fib = some f) (keep : Bool) (vals : List (Nat × List Word)) :
    landRegs d g false keep vals =
      (landedRegs g f.width vals).foldl (fun d rv => writeNow d g.fib rv.1 (landLanes f g keep) g.full (.g rv.2)) d := by
  rw [landRegs, hf, landedRegs, List.foldl_map]
  rfl

theorem landedRegs_fst (g : Flight) (width : Nat) (vals : List (Nat × List Word)) : (landedRegs g width vals).map Prod.fst = g.dst := by
  rw [landedRegs, List.map_map]
  exact map_getD_range g.dst 255

/-- Among keys that differ, a key finds its own element. -/
theorem find?_of_nodup {α : Type} {key : α → Nat} {xs : List α} (h : (xs.map key).Nodup) {x : α} (hx : x ∈ xs) :
    xs.find? (fun y => key y == key x) = some x := by
  induction xs with
  | nil => exact absurd hx List.not_mem_nil
  | cons y ys ih =>
    obtain ⟨hnotin, hnd⟩ := List.nodup_cons.1 (List.map_cons ▸ h)
    obtain rfl | hx := List.mem_cons.1 hx
    · exact List.find?_cons_of_pos (beq_self_eq_true _)
    · have hne : key y ≠ key x := fun he => hnotin (he ▸ List.mem_map_of_mem hx)
      rw [List.find?_cons_of_neg (by simpa using hne)]
      exact ih hnd hx

theorem landedWord_of_nodup {acc : List LaneAcc} (h : (acc.map LaneAcc.lane).Nodup) (val : LaneAcc → List Word) {a : LaneAcc} (ha : a ∈ acc)
    (k : Nat) : landedWord (acc.map fun a => (a.lane, val a)) k a.lane = (val a).getD k 0 := by
  have hfind : (acc.map fun a => (a.lane, val a)).find? (fun v => v.1 == a.lane) = some (a.lane, val a) := by
    rw [List.find?_map, show (fun v : Nat × List Word => v.1 == a.lane) ∘ (fun a => (a.lane, val a)) = fun b => b.lane == a.lane from rfl,
      find?_of_nodup h ha]
    rfl
  rw [landedWord, hfind]

theorem has_landLanes {f : Fibre} {g : Flight} {a : LaneAcc} (ha : a ∈ g.acc) (hL : a.lane < 64) (hlive : (f.thread a.lane).life = .live)
    (keep : Bool) : (landLanes f g keep).has a.lane = true := by
  simp only [landLanes, has_ofLanes, List.mem_filter, List.mem_map, decide_eq_true_eq]
  exact ⟨⟨⟨a, ha, rfl⟩, by simp [hlive]⟩, hL⟩

theorem aged_map (g : Flight) (back : LaneAcc → Nat) : g.aged (g.acc.map back) = g.acc.map fun a => (a, back a) := by
  rw [Flight.aged]
  refine List.ext_getElem (by simp) fun i h1 h2 => ?_
  rw [List.length_map, List.length_zipIdx] at h1
  simp [h1]

/-- What a load's lane writes: its bytes as of the instant it reads. -/
def loadedWords (d : Dev) (g : Flight) (t : NTy) (size : Size) (a : LaneAcc) : List Word :=
  loadWords t size (bytesBack d g.core g.team (backOf d g a) a)

theorem perform_load_eq {g : Flight} {t : NTy} {size : Size} (hk : g.kind = .load t size) (now : Word) (d : Dev) :
    perform now (g.acc.map (backOf d g)) d g = finishFlight (landRegs (learnAll d g (g.acc.map (backOf d g))) g false false
      (g.acc.map fun a => (a.lane, loadedWords d g t size a))) g.id := by
  rw [perform, hk]
  dsimp only
  rw [aged_map, List.map_map]
  rfl

/-- A LOAD PERFORMS: its words land in the lanes that are live, nothing else of the registers or of memory changes. -/
theorem perform_load {d : Dev} {g : Flight} {f : Fibre} {t : NTy} {size : Size} (hk : g.kind = .load t size) (now : Word)
    (hf : d.fibre? g.fib = some f) (hlanes : (g.acc.map LaneAcc.lane).Nodup) (hdst : g.dst.Nodup)
    (hreg : ∀ r, r ∈ g.dst → r ≠ 255 ∧ HasReg d f r) (hno : NoUoFence d g.id) :
    let e := perform now (g.acc.map (backOf d g)) d g
    ∃ f', e.fibre? g.fib = some f' ∧ (∀ a k, a ∈ g.acc → a.lane < f.width → a.lane < 64 → (f.thread a.lane).life = .live →
        k < g.dst.length → regLane e f' (g.dst.getD k 255) a.lane = (loadedWords d g t size a).getD k 0) ∧
      (∀ r, r ∉ g.dst → regOf e f' r = regOf d f r) ∧ e.mem = d.mem := by
  dsimp only
  rw [perform_load_eq hk]
  have hreads := sameButReads_learnAll d g (g.acc.map (backOf d g))
  generalize learnAll d g (g.acc.map (backOf d g)) = c at hreads
  obtain ⟨f1, hf1, ths, rfl, hth⟩ := hreads.fibre g.fib f hf
  rw [landRegs_eq hf1]
  generalize hvals : (g.acc.map fun a => (a.lane, loadedWords d g t size a)) = vals
  generalize hlands : landLanes { f with threads := ths } g false = lands
  have hfst := landedRegs_fst g f.width vals
  have hreg1 : ∀ rv, rv ∈ landedRegs g f.width vals → HasReg c { f with threads := ths } rv.1 := fun rv hrv => by
    rw [HasReg, hreads.groups]
    exact (hreg rv.1 (hfst ▸ List.mem_map_of_mem hrv)).2
  obtain ⟨f2, hf2, ⟨rs, rfl⟩, hval, hother, hmem, hholds⟩ := foldl_writeNow_spec lands g.full (hfst.symm ▸ hdst) hf1 hreg1
  dsimp only at hf2 hval hother hmem hholds ⊢
  generalize (landedRegs g f.width vals).foldl (fun d rv => writeNow d g.fib rv.1 lands g.full (.g rv.2)) c = e at *
  have hno' : NoUoFence e g.id := by
    rw [NoUoFence, hholds]
    exact hreads.fence hno
  obtain ⟨sc, bs, hs, b, hfin⟩ := finishFlight_eq hno'
  rw [hfin]
  refine ⟨_, hf2, fun a k ha hw hL hlive hk => ?_, fun r hr => ?_, hmem.trans hreads.mem⟩
  · have hlands1 : lands.has a.lane = true := hlands ▸ has_landLanes ha hL ((hth a.lane).1.trans hlive) false
    have hrv : (g.dst.getD k 255, (List.range f.width).map (landedWord vals k)) ∈ landedRegs g f.width vals :=
      List.mem_map.2 ⟨k, List.mem_range.2 hk, rfl⟩
    have hin : g.dst.getD k 255 ∈ g.dst := by rw [List.getD_eq_getElem _ _ hk]; exact List.getElem_mem hk
    have hne := (hreg _ hin).1
    refine (hval _ hrv hne a.lane hlands1 hw ((hth a.lane).1.trans hlive)).trans ?_
    rw [← hvals]
    simpa [hw] using landedWord_of_nodup hlanes (loadedWords d g t size) ha k
  · exact (hother r (hfst.symm ▸ hr)).trans (regOf_congr hreads.groups _ r)

/-! ### How many writes ago a load may read as of (R168, R187 to R190) -/

theorem mayMiss_spec {d : Dev} {g : Flight} {t : Thread} {a : LaneAcc} {e : Past} (h : mayMiss d g t (fun e => e.of g.fib g.id) a e = true) :
    ¬(e.author.fib = some g.fib ∧ e.author.flight < g.id) ∧ e.author.event ∉ reach d.before true a.view := by
  simp only [mayMiss, Bool.and_eq_true, Bool.not_eq_true', Past.of] at h
  obtain ⟨⟨⟨⟨hown, hbefore⟩, -⟩, -⟩, -⟩ := h
  exact ⟨by simpa using hown, by simpa using hbefore⟩

theorem mayRead_spec {d : Dev} {g : Flight} {back : Nat} {a : LaneAcc} (h : mayRead d g back a = true) (hb : back ≠ 0) :
    a.isSO = false ∧ ∀ e p, e ∈ d.past → d.clock < e.moment + back → p ∈ a.cells → copyRead d g.core p = none →
      e.has g.team p.1 = true →
      ¬(e.author.fib = some g.fib ∧ e.author.flight < g.id) ∧ e.author.event ∉ reach d.before true a.view := by
  rw [mayRead, mayReadBy, beq_false_of_ne hb, Bool.false_or, Bool.and_eq_true, Bool.and_eq_true] at h
  obtain ⟨⟨-, hso⟩, hall⟩ := h
  refine ⟨by simpa using hso, fun e p he hlate hp hcopy hhas => ?_⟩
  cases hf : d.fibre? g.fib with
  | none => rw [hf] at hall; cases hall
  | some f =>
    rw [hf] at hall
    refine mayMiss_spec (List.all_eq_true.1 hall e (List.mem_filter.2 ⟨he, ?_⟩))
    exact Bool.and_eq_true_iff.2 ⟨decide_eq_true hlate, List.any_eq_true.2 ⟨p, hp, by simp [hcopy, hhas]⟩⟩

theorem backOf_spec {d : Dev} {g : Flight} {a : LaneAcc} (hb : backOf d g a ≠ 0) : mayRead d g (backOf d g a) a = true := by
  rw [backOf] at hb ⊢
  split at hb
  · exact absurd rfl hb
  · next hpast =>
    rw [if_neg hpast]
    split at hb
    · next hmay => rwa [if_pos hmay]
    · exact absurd rfl hb

/-! ### Bytes stored (R154, R169, R190) -/

/-- The last byte of some that goes to an address. -/
def lastByte (ps : List ((Place × Nat) × Byte)) (a : Nat) : Option Byte := ((ps.filter fun p => p.1.1 == .phys a).getLast?).map Prod.snd

theorem lastByte_append (ps qs : List ((Place × Nat) × Byte)) (a : Nat) : lastByte (ps ++ qs) a = (lastByte qs a).or (lastByte ps a) := by
  rw [lastByte, List.filter_append, List.getLast?_append, Option.map_or]
  rfl

/-- The bytes of a lane's store, each with its place and its page kind. -/
def LaneAcc.stored (a : LaneAcc) : List ((Place × Nat) × Byte) := (a.places.zip a.kinds).zip a.data

theorem LaneAcc.kind_of_stored {a : LaneAcc} {p : (Place × Nat) × Byte} (h : p ∈ a.stored) : p.1.2 ∈ a.kinds :=
  (List.of_mem_zip (List.of_mem_zip h).1).2

theorem lastStored_eq (g : Flight) (a : Nat) : lastStored g a = lastByte (g.acc.flatMap LaneAcc.stored) a := rfl

/-- A lane's store of no multicast byte is one write of its bytes. -/
theorem storeLane_whole {a : LaneAcc} (hmc : ∀ k, k ∈ a.kinds → mcKind k = false) (d : Dev) (g : Flight) :
    storeLane d g none true a = storeBytes d (g.author a) g.through false a.stored := by
  have hps : (a.stored.zipIdx.filterMap fun pb => (stepPlace a none true pb.2 pb.1.1).map fun p => (p, pb.1.2)) = a.stored := by
    rw [List.filterMap_congr (g := some ∘ Prod.fst) fun pb hpb => ?_, List.filterMap_eq_map, List.zipIdx_map_fst]
    rw [stepPlace_none (hmc _ (LaneAcc.kind_of_stored (List.fst_mem_of_mem_zipIdx hpb)))]
    rfl
  exact congrArg (recordWrite d g g.through false a) hps

/-- Where no page is UO, whether a store goes through makes no difference. -/
theorem storeBytes_plain {ps : List ((Place × Nat) × Byte)} (h : ∀ p, p ∈ ps → p.1.2 % 4 ≠ 2) (d : Dev) (w : Author) (rmw : Bool) :
    storeBytes d w false rmw ps = storeBytes d w true rmw ps := by
  have hfar : ∀ through, (ps.filter fun p => p.1.2 % 4 != 2 || through) = ps := fun through =>
    List.filter_eq_self.2 fun p hp => by simp [h p hp]
  rw [storeBytes, storeBytes, hfar, hfar]
  rw [List.foldl_ext _ _ d fun e p hp => ?_]
  simp [h p hp]

/-- Bytes that all go home leave memory with the last of them at each address. -/
theorem storeBytes_home {ps : List ((Place × Nat) × Byte)} {through : Bool} (h : ∀ p, p ∈ ps → p.1.2 % 4 ≠ 2 ∨ through = true) (d : Dev)
    (w : Author) (rmw : Bool) : (∀ a, memRead (storeBytes d w through rmw ps).mem a = (lastByte ps a).getD (memRead d.mem a)) ∧
      (storeBytes d w through rmw ps).holds = d.holds := by
  cases through with
  | true => exact storeBytes_through d w rmw ps
  | false =>
    rw [storeBytes_plain (fun p hp => (h p hp).resolve_right Bool.false_ne_true)]
    exact storeBytes_through d w rmw ps

theorem foldl_storeBytes_home {g : Flight} {acc : List LaneAcc}
    (h : ∀ a k, a ∈ acc → k ∈ a.kinds → k % 4 ≠ 2 ∨ g.through = true) (d : Dev) :
    let e := acc.foldl (fun d a => storeBytes d (g.author a) g.through false a.stored) d
    (∀ b, memRead e.mem b = (lastByte (acc.flatMap LaneAcc.stored) b).getD (memRead d.mem b)) ∧ e.holds = d.holds := by
  induction acc generalizing d with
  | nil => exact ⟨fun _ => rfl, rfl⟩
  | cons a acc ih =>
    obtain ⟨hone, hholds⟩ := storeBytes_home (fun p hp => h a _ List.mem_cons_self (LaneAcc.kind_of_stored hp)) d (g.author a) false
    obtain ⟨hrest, hholds'⟩ := ih (fun c k hc => h c k (List.mem_cons_of_mem _ hc)) (storeBytes d (g.author a) g.through false a.stored)
    refine ⟨fun b => (hrest b).trans ?_, hholds'.trans hholds⟩
    rw [List.flatMap_cons, lastByte_append, hone]
    cases lastByte (acc.flatMap LaneAcc.stored) b <;> rfl

/-! ### Bytes that stay in the core's L1 (R154) -/

theorem uoRead_uoPut (d : Dev) (core b : Nat) (v : Byte) (w : Option Author) (a : Nat) :
    uoRead (uoPut d core b v w) core a = if a = b then v else uoRead d core a := by
  by_cases hab : a = b
  · subst hab
    simp [uoRead, uoCopy, uoPut]
  · have hba : (b == a) = false := beq_false_of_ne (Ne.symm hab)
    have hfind : uoCopy (uoPut d core b v w) core a = uoCopy d core a := by
      rw [uoCopy, uoCopy, uoPut, uoDrop, List.find?_cons_of_neg (by simp [hba]), List.find?_filter]
      refine congrArg (List.find? · d.uo) (funext fun u => ?_)
      by_cases hu : u.core = core <;> by_cases ha : u.addr = a <;> simp [hu, ha, hab]
    rw [if_neg hab, uoRead, uoRead, hfind]
    rfl

/-- Bytes of UO pages that do not go through: the core sees the last of them at each address, memory and the holds stand. -/
theorem storeBytes_near {ps : List ((Place × Nat) × Byte)} (h : ∀ p, p ∈ ps → p.1.2 % 4 = 2) (d : Dev) (w : Author) (rmw : Bool) :
    let e := storeBytes d w false rmw ps
    (∀ a, uoRead e w.core a = (lastByte ps a).getD (uoRead d w.core a)) ∧ e.mem = d.mem ∧ e.holds = d.holds := by
  have hfar : (ps.filter fun p => p.1.2 % 4 != 2 || false) = [] := List.filter_eq_nil_iff.2 fun p hp => by simp [h p hp]
  dsimp only
  rw [storeBytes, hfar]
  dsimp only [List.isEmpty_nil]
  rw [if_pos rfl]
  clear hfar
  induction ps generalizing d with
  | nil => exact ⟨fun _ => rfl, rfl, rfl⟩
  | cons p ps ih =>
    obtain ⟨⟨pl, k⟩, v⟩ := p
    have hk : k % 4 = 2 := h _ List.mem_cons_self
    have hrest := ih fun q hq => h q (List.mem_cons_of_mem _ hq)
    rw [List.foldl_cons]
    cases pl with
    | phys b =>
      obtain ⟨hread, hmem, hholds⟩ := hrest (uoPut d w.core b v (some w))
      simp only [hk, bne_self_eq_false, Bool.false_eq_true, if_false] at hread hmem hholds ⊢
      refine ⟨fun a => (hread a).trans ?_, hmem, hholds⟩
      rw [← List.singleton_append, lastByte_append, uoRead_uoPut]
      by_cases hab : a = b
      · subst hab
        cases lastByte ps a <;> simp [lastByte]
      · have hba : (Place.phys b == Place.phys a) = false := by simpa using Ne.symm hab
        cases lastByte ps a <;> simp [lastByte, hba, hab]
    | spad b =>
      obtain ⟨hread, hmem, hholds⟩ := hrest d
      refine ⟨fun a => (hread a).trans ?_, hmem, hholds⟩
      rw [← List.singleton_append, lastByte_append]
      cases lastByte ps a <;> simp [lastByte]
    | lit b =>
      obtain ⟨hread, hmem, hholds⟩ := hrest d
      refine ⟨fun a => (hread a).trans ?_, hmem, hholds⟩
      rw [← List.singleton_append, lastByte_append]
      cases lastByte ps a <;> simp [lastByte]

theorem foldl_storeBytes_near {g : Flight} (hthrough : g.through = false) {acc : List LaneAcc}
    (h : ∀ a k, a ∈ acc → k ∈ a.kinds → k % 4 = 2) (d : Dev) :
    let e := acc.foldl (fun d a => storeBytes d (g.author a) g.through false a.stored) d
    (∀ b, uoRead e g.core b = (lastByte (acc.flatMap LaneAcc.stored) b).getD (uoRead d g.core b)) ∧ e.mem = d.mem ∧ e.holds = d.holds := by
  rw [hthrough]
  induction acc generalizing d with
  | nil => exact ⟨fun _ => rfl, rfl, rfl⟩
  | cons a acc ih =>
    obtain ⟨hone, hmem, hholds⟩ := storeBytes_near (fun p hp => h a _ List.mem_cons_self (LaneAcc.kind_of_stored hp)) d (g.author a) false
    obtain ⟨hrest, hmem', hholds'⟩ := ih (fun c k hc => h c k (List.mem_cons_of_mem _ hc)) (storeBytes d (g.author a) false false a.stored)
    refine ⟨fun b => (hrest b).trans ?_, hmem'.trans hmem, hholds'.trans hholds⟩
    rw [List.flatMap_cons, lastByte_append]
    refine (congrArg (Option.getD _) (hone b)).trans ?_
    cases lastByte (acc.flatMap LaneAcc.stored) b <;> rfl

/-! ### A store performs -/

theorem perform_store_eq {g : Flight} (hk : g.kind = .store []) (hmc : ∀ a k, a ∈ g.acc → k ∈ a.kinds → mcKind k = false) (now : Word)
    (d : Dev) : perform now [] d g =
      finishFlight (g.acc.foldl (fun d a => storeBytes d (g.author a) g.through false a.stored) d) g.id := by
  rw [perform, hk]
  dsimp only
  rw [List.foldl_ext _ _ d fun e a ha => storeLane_whole (hmc a · ha) e g]

theorem finishFlight_uoRead {d : Dev} {id : Nat} (h : NoUoFence d id) (core a : Nat) : uoRead (finishFlight d id) core a = uoRead d core a := by
  obtain ⟨sc, bs, hs, b, he⟩ := finishFlight_eq h
  rw [he]
  rfl

/-- A STORE PERFORMS at its homes. -/
theorem perform_store_home {d : Dev} {g : Flight} (hk : g.kind = .store []) (hmc : ∀ a k, a ∈ g.acc → k ∈ a.kinds → mcKind k = false)
    (hno : NoUoFence d g.id) (hfar : ∀ a k, a ∈ g.acc → k ∈ a.kinds → k % 4 ≠ 2 ∨ g.through = true) (now : Word) (a : Nat) :
    memRead (perform now [] d g).mem a = (lastStored g a).getD (memRead d.mem a) := by
  obtain ⟨hread, hholds⟩ := foldl_storeBytes_home hfar d
  rw [perform_store_eq hk hmc, finishFlight_mem (by rw [NoUoFence, hholds]; exact hno), lastStored_eq]
  exact hread a

/-- A STORE PERFORMS in its core's L1. -/
theorem perform_store_near {d : Dev} {g : Flight} (hk : g.kind = .store []) (hmc : ∀ a k, a ∈ g.acc → k ∈ a.kinds → mcKind k = false)
    (hno : NoUoFence d g.id) (hnear : ∀ a k, a ∈ g.acc → k ∈ a.kinds → k % 4 = 2) (hthrough : g.through = false) (now : Word) :
    (perform now [] d g).mem = d.mem ∧ ∀ a, uoRead (perform now [] d g) g.core a = (lastStored g a).getD (uoRead d g.core a) := by
  obtain ⟨hread, hmem, hholds⟩ := foldl_storeBytes_near hthrough hnear d
  have hno' : NoUoFence (g.acc.foldl (fun d a => storeBytes d (g.author a) g.through false a.stored) d) g.id := by
    rw [NoUoFence, hholds]; exact hno
  rw [perform_store_eq hk hmc]
  refine ⟨(finishFlight_mem hno').trans hmem, fun a => ?_⟩
  rw [finishFlight_uoRead hno', lastStored_eq]
  exact hread a

/-! ### One lane's atomic at memory (R170, R171) -/

/-- A run of memory that no core keeps copies of: its element's access in a lane. -/
structure MemRun (a : LaneAcc) (base n : Nat) : Prop where
  places : a.places = (List.range n).map fun k => .phys (base + k)
  kinds : a.kinds.length = n
  noUo : ∀ k, k ∈ a.kinds → k % 4 ≠ 2

/-- Bytes put at their homes from an address on. -/
theorem foldl_putHome_physBytes (team : Nat) (d : Dev) (a : Nat) (bs : List Byte) :
    ((physBytes a bs).foldl (putHome team) d).mem = memPut d.mem a bs := by
  rw [physBytes_eq, foldl_putHome_phys]
  exact foldl_memWrite_run d.mem a bs

theorem MemRun.accBytes_eq {a : LaneAcc} {base n : Nat} (h : MemRun a base n) (d : Dev) (core team : Nat) :
    accBytes d core team a = memBytes d.mem base n := by
  have hread : ∀ p, p ∈ a.places.zip a.kinds → readPlace d core team p = homeByte d team p.1 := fun p hp => by
    have hk := h.noUo p.2 (List.of_mem_zip hp).2
    obtain ⟨pl, k⟩ := p
    cases pl with
    | phys b => exact if_neg hk
    | spad b => rfl
    | lit b => rfl
  have hfst : (a.places.zip a.kinds).map Prod.fst = a.places := List.map_fst_zip (by rw [h.places, h.kinds]; simp)
  rw [accBytes, List.map_congr_left hread, show (fun p : Place × Nat => homeByte d team p.1) = homeByte d team ∘ Prod.fst from rfl,
    ← List.map_map, hfst, h.places, List.map_map, memBytes_eq_map]
  rfl

/-- The element's new bytes, stored at its places, are a write of a run of memory. -/
theorem MemRun.stored_places {a : LaneAcc} {base n : Nat} (h : MemRun a base n) {bs : List Byte} (hbs : bs.length = n) :
    ((a.places.zip a.kinds).zip bs).map (fun p => (p.1.1, p.2)) = physBytes base bs := by
  have hp := h.places
  have hlen : a.places.length = n := by rw [hp]; simp
  refine List.ext_getElem (by simp [physBytes, hlen, h.kinds, hbs]) fun i h1 h2 => ?_
  simp [physBytes, hp]

theorem MemRun.storeBytes_read {a : LaneAcc} {base n : Nat} (h : MemRun a base n) {bs : List Byte} (hbs : bs.length = n) (d : Dev)
    (w : Author) (rmw : Bool) (b : Nat) :
    memRead (storeBytes d w true rmw ((a.places.zip a.kinds).zip bs)).mem b = memRead (memPut d.mem base bs) b := by
  rw [(storeBytes_through d w rmw _).1, ← foldl_putHome_physBytes w.team d base bs, memRead_foldl_putHome, ← h.stored_places hbs,
    List.filter_map, List.getLast?_map, Option.map_map]
  rfl

/-- ONE LANE'S ATOMIC: its element becomes the result on the old one; no other byte of memory changes. -/
theorem rmwLane_mem {d : Dev} {g : Flight} {a : LaneAcc} {base n : Nat} {f : Nat → Nat × Word × Bool} (h : MemRun a base n)
    (hf : ∀ m, (f m).2.2 = true) : let e := (rmwLane d g a f).1
    (∀ b, memRead e.mem b = memRead (memPut d.mem base (natLE n (f (leNat (memBytes d.mem base n))).1)) b) ∧
      (NoUoFence d g.id → NoUoFence e g.id) := by
  have hreads := sameButReads_learnFlight d g 0 a
  have hone : (rmwLane d g a f).1 = storeBytes (learnFlight (followMc d g a) g 0 a) (g.author a) true true
      ((a.places.zip a.kinds).zip (natLE n (f (leNat (memBytes d.mem base n))).1)) := by
    rw [rmwLane, uoHome_eq_self h.noUo]
    rw [h.accBytes_eq, if_pos (hf _), length_memBytes]
    rfl
  dsimp only
  rw [hone]
  refine ⟨fun b => ?_, fun hno => ?_⟩
  · rw [h.storeBytes_read (length_natLE _ _), hreads.mem]
  · rw [NoUoFence, (storeBytes_through _ _ _ _).2]
    exact hreads.fence hno

theorem perform_red_mem {d : Dev} {g : Flight} {a : LaneAcc} {base n : Nat} {op : AOp} {t : ATy} {ftz : Bool} (hk : g.kind = .red op t ftz)
    (hacc : g.acc = [a]) (h : MemRun a base n) (hno : NoUoFence d g.id) (now : Word) (b : Nat) :
    memRead (perform now [] d g).mem b =
      memRead (memPut d.mem base (natLE n (aopRes op t ftz (leNat (memBytes d.mem base n)) (leNat a.data)).1)) b := by
  obtain ⟨hread, hfence⟩ := rmwLane_mem (d := d) (g := g) (f := fun m => let v := aopRes op t ftz m (leNat a.data); (v.1, 0, true)) h
    fun _ => rfl
  have hperf : perform now [] d g =
      finishFlight (rmwLane d g a fun m => let v := aopRes op t ftz m (leNat a.data); (v.1, 0, true)).1 g.id := by
    rw [perform, hk]
    dsimp only
    rw [hacc]
    rfl
  rw [hperf, finishFlight_mem (hfence hno)]
  exact hread b

/-! ### The events -/

theorem exec_resultReturn_of {s : State} {id : Nat} {g : Flight}
    (hg : s.dev.flights.find? (fun k => k.id == id && (k.kind.loads || !k.kind.writes)) = some g) (hmay : mayPerform s.dev g = true)
    (hdrain : ∀ n, g.kind ≠ .drain n) : exec (.resultReturn id) s =
      .next (s.withDev (perform s.clk.now (g.acc.map (backOf s.dev g)) s.dev g)) := by
  simp only [exec, execResultReturn, onDev, hg, hmay, if_true]

theorem exec_storePerform_of {s : State} {id : Nat} {g : Flight}
    (hg : s.dev.flights.find? (fun k => k.id == id && k.kind.writes && !k.kind.loads) = some g) (hmay : mayPerform s.dev g = true)
    (hflip : ∀ q, g.kind ≠ .flip q) : exec (.storePerform id) s = .next (s.withDev (perform s.clk.now [] s.dev g)) := by
  simp only [exec, execStorePerform, onDev, hg, hmay, if_true]

/-- Settles O27: each event performs its flight, and what it performs is what its lemma says. -/
theorem accessesPerformAtTheirHomes : Obligations.AccessesPerformAtTheirHomes := by
  refine ⟨fun s id g f t size hg hk hmay hf hlanes hdst hreg hno => ?_, fun d core team a => rfl,
    fun d g a => ⟨fun hp => ?_, fun hb => ?_⟩, fun s id g hg hk hmay hmc hno => ?_,
    fun s id g a base n op t ftz hg hk hmay hno hacc hplaces hkinds hnoUo => ?_⟩
  · obtain ⟨f', hf', hval, hother, hmem⟩ := perform_load hk s.clk.now hf hlanes hdst hreg hno
    exact ⟨_, f', exec_resultReturn_of hg hmay (by simp [hk]), hf', hval, hother, hmem⟩
  · rw [backOf, hp]
    rfl
  · have hmay := backOf_spec hb
    exact ⟨hmay, mayRead_spec hmay hb⟩
  · exact ⟨_, exec_storePerform_of hg hmay (by simp [hk]), fun hfar => perform_store_home hk hmc hno hfar s.clk.now,
      fun hnear hthrough => perform_store_near hk hmc hno hnear hthrough s.clk.now⟩
  · have hread := perform_red_mem hk hacc ⟨hplaces, hkinds, hnoUo⟩ hno s.clk.now
    refine ⟨_, exec_storePerform_of hg hmay (by simp [hk]), ?_, fun b hb => ?_⟩
    · have hput := memBytes_memPut s.dev.mem base (natLE n (aopRes op t ftz (leNat (memBytes s.dev.mem base n)) (leNat a.data)).1)
      rw [length_natLE] at hput
      exact (memBytes_congr fun i _ => hread (base + i)).trans hput
    · rw [hread, memRead_memPut, if_neg (by rw [length_natLE]; omega)]

end Sys2Proof.Machine
end

section
/-!
PROOF of `PlacementWavesAndExpertQueues`. The room found is the first of those with the most free units (`bestRoom_split`); code loading and
argument records leave the teams and the contexts (`CodeLoaded.loadKernel`, `giveArgs_keeps`), so a start adds its team alone. Every other
clause is the equation of its event in the case its premises name.
-/

namespace Sys2Proof.Machine

/-! ### The core of a team (R240) -/

/-- The room kept of one found so far and the next: the later one only where its core has more free units. -/
def betterRoom (d : Dev) (best : Option Room) (r : Room) : Option Room := match best with
  | none => some r
  | some b => if freeUnits d b.core < freeUnits d r.core then some r else some b

theorem bestRoom_eq (d : Dev) (room : Nat → Option Room) (cores : List Nat) :
    bestRoom d room cores = (cores.filterMap room).foldl (betterRoom d) none := rfl

theorem betterRoom_ne_none (d : Dev) (best : Option Room) (r : Room) : betterRoom d best r ≠ none := by
  cases best with
  | none => exact Option.some_ne_none r
  | some b =>
    rw [betterRoom]
    split <;> exact Option.some_ne_none _

/-- The room that is kept of some: those before it have fewer free units, those after it have no more. -/
theorem foldl_betterRoom {d : Dev} {rs : List Room} {b : Room} (h : rs.foldl (betterRoom d) none = some b) :
    ∃ pre post, rs = pre ++ b :: post ∧ (∀ r, r ∈ pre → freeUnits d r.core < freeUnits d b.core) ∧
      ∀ r, r ∈ post → freeUnits d r.core ≤ freeUnits d b.core := by
  induction rs using List.reverseRecOn generalizing b with
  | nil => cases h
  | append_singleton rs r ih =>
    rw [List.foldl_append, List.foldl_cons, List.foldl_nil] at h
    cases hbest : rs.foldl (betterRoom d) none with
    | none =>
      rw [hbest] at h
      obtain rfl := Option.some.inj h
      have hnil : rs = [] := by
        induction rs using List.reverseRecOn with
        | nil => rfl
        | append_singleton rs q _ =>
          rw [List.foldl_append, List.foldl_cons, List.foldl_nil] at hbest
          exact absurd hbest (betterRoom_ne_none d _ q)
      exact ⟨[], [], by rw [hnil], fun _ h => absurd h List.not_mem_nil, fun _ h => absurd h List.not_mem_nil⟩
    | some c =>
      obtain ⟨pre, post, rfl, hpre, hpost⟩ := ih hbest
      rw [hbest, betterRoom] at h
      split at h
      · next hlt =>
        obtain rfl := Option.some.inj h
        refine ⟨pre ++ c :: post, [], rfl, fun q hq => ?_, fun _ h => absurd h List.not_mem_nil⟩
        obtain hq | hq := List.mem_append.1 hq
        · exact (hpre q hq).trans hlt
        · obtain rfl | hq := List.mem_cons.1 hq
          · exact hlt
          · exact (hpost q hq).trans_lt hlt
      · next hge =>
        obtain rfl := Option.some.inj h
        refine ⟨pre, post ++ [r], by simp, hpre, fun q hq => ?_⟩
        obtain hq | hq := List.mem_append.1 hq
        · exact hpost q hq
        · obtain rfl := List.mem_singleton.1 hq
          exact Nat.not_lt.1 hge

/-- THE ROOM ON THE CORE WITH THE MOST FREE UNITS, the lowest of equals. -/
theorem bestRoom_spec {d : Dev} {room : Nat → Option Room} {cores : List Nat} {b : Room} (h : bestRoom d room cores = some b) :
    (∃ k, k ∈ cores ∧ room k = some b) ∧ (∀ k r, k ∈ cores → room k = some r → freeUnits d r.core ≤ freeUnits d b.core) ∧
      (cores.Pairwise (· < ·) → (∀ k r, room k = some r → r.core = k) →
        ∀ k r, k ∈ cores → room k = some r → freeUnits d r.core = freeUnits d b.core → b.core ≤ k) := by
  rw [bestRoom_eq] at h
  obtain ⟨pre, post, hsplit, hpre, hpost⟩ := foldl_betterRoom h
  have hmem : ∀ k r, k ∈ cores → room k = some r → r ∈ pre ∨ r = b ∨ r ∈ post := fun k r hk hr => by
    have hin : r ∈ cores.filterMap room := List.mem_filterMap.2 ⟨k, hk, hr⟩
    rw [hsplit, List.mem_append, List.mem_cons] at hin
    exact hin
  refine ⟨?_, fun k r hk hr => ?_, fun hsorted hcore k r hk hr heq => ?_⟩
  · have hin : b ∈ cores.filterMap room := hsplit ▸ List.mem_append_right pre List.mem_cons_self
    exact List.mem_filterMap.1 hin
  · obtain hr | rfl | hr := hmem k r hk hr
    · exact (hpre r hr).le
    · exact Nat.le_refl _
    · exact hpost r hr
  · have hpair : (cores.filterMap room).Pairwise fun r q => r.core < q.core :=
      List.pairwise_filterMap.2 (hsorted.imp fun hlt r hr q hq => by
        rwa [hcore _ r hr, hcore _ q hq])
    rw [hsplit] at hpair
    have hafter := (List.pairwise_cons.1 (List.pairwise_append.1 hpair).2.1).1
    have hk' := hcore k r hr
    obtain hr | rfl | hr := hmem k r hk hr
    · exact absurd heq (hpre r hr).ne
    · exact hk'.le
    · exact hk' ▸ (hafter r hr).le

/-! ### A team starts (R7, R83, R296) -/

theorem putReg_keeps (d : Dev) (f : Fibre) (r : Nat) (v : VReg) : (putReg d f r v).teams = d.teams ∧ (putReg d f r v).ctxs = d.ctxs := by
  rw [putReg]
  split
  · exact ⟨rfl, rfl⟩
  · split
    · exact ⟨rfl, rfl⟩
    · exact ⟨rfl, rfl⟩

theorem foldl_keeps {α β : Type} {step : Dev → α → Dev} (proj : Dev → β) (h : ∀ d x, proj (step d x) = proj d) (xs : List α) (d : Dev) :
    proj (xs.foldl step d) = proj d :=
  List.foldlRecOn (motive := fun e => proj e = proj d) xs step rfl fun e he x _ => (h e x).trans he

theorem giveArgs_keeps (d : Dev) (u : Nat) : (giveArgs d u).teams = d.teams ∧ (giveArgs d u).ctxs = d.ctxs := by
  rw [giveArgs]
  constructor
  · refine foldl_keeps Dev.teams (fun d k => ?_) _ d
    split
    · rfl
    · exact (putReg_keeps d _ k _).1
  · refine foldl_keeps Dev.ctxs (fun d k => ?_) _ d
    split
    · rfl
    · exact (putReg_keeps d _ k _).2

theorem foldl_giveArgs_keeps (fs : List Fibre) (d : Dev) : (fs.foldl (fun d f => giveArgs d f.uid) d).teams = d.teams ∧
    (fs.foldl (fun d f => giveArgs d f.uid) d).ctxs = d.ctxs := by
  constructor
  · refine foldl_keeps Dev.teams (fun d f => ?_) fs d
    exact (giveArgs_keeps d f.uid).1
  · refine foldl_keeps Dev.ctxs (fun d f => ?_) fs d
    exact (giveArgs_keeps d f.uid).2

/-- Code loaded, arguments given and the context entered: the teams are as they were, the context is Running. -/
theorem loadAndRun_spec (now : Word) (d : Dev) (core c : Nat) (h : KernelHdr) (args : Bool) (fs : List Fibre) (hc : c < d.ctxs.length) :
    let d' := enterRunning now (if args = true then fs.foldl (fun d f => giveArgs d f.uid) (loadKernel d core c h) else loadKernel d core c h) c
    d'.teams = d.teams ∧ (d'.ctx c).state = .running := by
  have hload := CodeLoaded.loadKernel d core c h
  have hargs : ∀ e : Dev, (if args = true then fs.foldl (fun d f => giveArgs d f.uid) e else e).teams = e.teams ∧
      (if args = true then fs.foldl (fun d f => giveArgs d f.uid) e else e).ctxs = e.ctxs := fun e => by
    split
    · exact foldl_giveArgs_keeps fs e
    · exact ⟨rfl, rfl⟩
  obtain ⟨ht, hx⟩ := hargs (loadKernel d core c h)
  dsimp only
  generalize (if args = true then fs.foldl (fun d f => giveArgs d f.uid) (loadKernel d core c h) else loadKernel d core c h) = e at ht hx
  obtain ⟨xs, hrun⟩ := enterRunning_eq now e c
  refine ⟨?_, (enterRunning_ctx (by rw [hx, hload.ctxs]; exact hc) now).2⟩
  rw [hrun]
  exact ht.trans hload.teams

/-- A TEAM STARTS: it joins the teams, and its context is Running. -/
theorem startTeam_spec (now : Word) {d : Dev} {c : Nat} (lid : Word) (index threads : Nat) (h : KernelHdr) (depth : Nat) (wave : Option Nat)
    (tasks : List Task) (know : List Nat) (r : Room) (hc : c < d.ctxs.length) :
    let d' := startTeam now d c lid index threads h depth wave tasks know r
    d'.teams = d.teams ++ [newTeam d.nextId c lid index threads h depth wave r] ∧ (d'.ctx c).state = .running := by
  obtain ⟨m, u, ns, cl, p, hflush⟩ := uoFlush_eq d r.core
  rw [startTeam]
  dsimp only
  rw [hflush]
  refine (loadAndRun_spec now _ r.core c h wave.isSome _ ?_).imp (fun ht => ht.trans ?_) id
  · exact hc
  · rfl

/-! ### A team retires (R86, R296) -/

theorem ctx_congr {d e : Dev} (h : e.ctxs = d.ctxs) (c : Nat) : e.ctx c = d.ctx c := by rw [Dev.ctx, Dev.ctx, h]

/-- A team's own resources freed. -/
def teamGone (now : Word) (d : Dev) (t : Team) : Dev :=
  let d := emitTrace (uoFlush d t.core) (sigRec now d t)
  { d with
    teams := d.teams.filter fun u => u.uid != t.uid
    groups := d.groups.filter fun g => !(decide (t.uid < g.uid) && decide (g.uid ≤ t.uid + t.slots.length)) }

/-- The grid of a team that is no wave has one live team less. -/
def leaveGrid (d : Dev) (t : Team) : Dev := match t.wave, d.grid? t.ctx t.lid with
  | none, some g => d.setGrid { g with live := g.live - 1 }
  | _, _ => d

theorem retireTeam_eq (now : Word) (d : Dev) (t : Team) : retireTeam now d t =
    let e := leaveGrid (teamGone now d t) t
    if (e.ctx t.ctx).state = .running ∧ !(e.teams.any fun u => u.ctx == t.ctx) ∧ (e.ctx t.ctx).saved.isEmpty
      then e.setCtx t.ctx { e.ctx t.ctx with state := .resident } else e := rfl

theorem leaveGrid_keeps (d : Dev) (t : Team) : (leaveGrid d t).teams = d.teams ∧ (leaveGrid d t).ctxs = d.ctxs := by
  rw [leaveGrid]
  split
  · exact ⟨rfl, rfl⟩
  · exact ⟨rfl, rfl⟩

theorem teamGone_keeps (now : Word) (d : Dev) (t : Team) :
    (teamGone now d t).teams = d.teams.filter (fun u => u.uid != t.uid) ∧ (teamGone now d t).ctxs = d.ctxs := by
  obtain ⟨m, u, ns, cl, p, hflush⟩ := uoFlush_eq d t.core
  rw [teamGone, hflush]
  exact ⟨rfl, rfl⟩

/-- The device before the context of the retired team is looked at. -/
theorem leaveGrid_teamGone (now : Word) (d : Dev) (t : Team) :
    (leaveGrid (teamGone now d t) t).teams = d.teams.filter (fun u => u.uid != t.uid) ∧ (leaveGrid (teamGone now d t) t).ctxs = d.ctxs := by
  obtain ⟨h1, h2⟩ := leaveGrid_keeps (teamGone now d t) t
  obtain ⟨k1, k2⟩ := teamGone_keeps now d t
  exact ⟨h1.trans k1, h2.trans k2⟩

theorem retireTeam_teams (now : Word) (d : Dev) (t : Team) : ∀ u, u ∈ (retireTeam now d t).teams → u.uid ≠ t.uid := by
  have hall : (retireTeam now d t).teams = d.teams.filter fun u => u.uid != t.uid := by
    rw [retireTeam_eq, ← (leaveGrid_teamGone now d t).1]
    dsimp only
    split <;> rfl
  intro u hu
  rw [hall] at hu
  simpa using (List.mem_filter.1 hu).2

theorem retireTeam_resident (now : Word) {d : Dev} {t : Team} (hc : t.ctx < d.ctxs.length) (hrun : (d.ctx t.ctx).state = .running)
    (honly : ∀ u, u ∈ d.teams → u.ctx = t.ctx → u.uid = t.uid) (hsaved : (d.ctx t.ctx).saved = []) :
    ((retireTeam now d t).ctx t.ctx).state = .resident := by
  rw [retireTeam_eq]
  obtain ⟨hteams, hctxs⟩ := leaveGrid_teamGone now d t
  generalize leaveGrid (teamGone now d t) t = e at hteams hctxs
  have hnone : (e.teams.any fun u => u.ctx == t.ctx) = false := by
    rw [hteams, List.any_eq_false]
    intro u hu hctx
    obtain ⟨hu, hne⟩ := List.mem_filter.1 hu
    exact absurd (honly u hu (by simpa using hctx)) (by simpa using hne)
  dsimp only
  rw [if_pos ⟨by rw [ctx_congr hctxs, hrun], by rw [hnone]; rfl, by rw [ctx_congr hctxs, hsaved]; rfl⟩,
    ctx_setCtx_self (by rw [hctxs]; exact hc)]

/-! ### Placement, retirement and bins -/

theorem exec_teamPlacement_grid {s : State} {q c i : Nat} {g : Grid} {r : Room}
    (h : nextContext ((List.range 64).foldl (reportHeld s.clk.now q) s.dev) q = some (c, .grid g i r)) :
    exec (.teamPlacement q) s = .next (s.withDev (startTeam s.clk.now
      (((List.range 64).foldl (reportHeld s.clk.now q) s.dev).setGrid (takeTeam g q)) c g.lid i (field (g.packet.getD 2 0) 0 11) g.hdr g.depth
      none [] g.know r)) := by
  rw [exec, execTeamPlacement, onDev]
  dsimp only
  rw [h]

theorem exec_teamRetirement_of {s : State} {tm : Nat} {t : Team} (ht : s.dev.team? tm = some t) (hover : teamOver s.dev t = true) :
    exec (.teamRetirement tm) s = .next (s.withDev (retireTeam s.clk.now s.dev t)) := by
  simp only [exec, execTeamRetirement, onDev, ht, hover, if_true]

theorem exec_gridRetirement_of {s : State} {c : Nat} {lid : Word} {g : Grid} (hg : s.dev.grid? c lid = some g) (hover : gridOver s.dev g = true) :
    exec (.gridRetirement c lid) s =
      .next (s.withDev (fireQueues s.clk.now (runNodes s.clk.now (retireGrid s.clk.now s.dev g) c) c)) := by
  simp only [exec, execGridRetirement, onDev, hg, hover, if_true]

theorem gridOver_of {d : Dev} {g : Grid} (hr : g.retired = false) (htodo : g.todo = []) (hlive : g.live = 0)
    (hchildren : ∀ h, h ∈ d.grids → h.ctx = g.ctx → h.parent = some g.lid → h.parentTask = none → h.retired = true) :
    gridOver d g = true := by
  have hnone : (d.grids.any fun h => h.ctx == g.ctx && h.parent == some g.lid && h.parentTask.isNone && !h.retired) = false := by
    rw [List.any_eq_false]
    intro h hh hall
    simp only [Bool.and_eq_true, beq_iff_eq, Option.isNone_iff_eq_none, Bool.not_eq_true'] at hall
    obtain ⟨⟨⟨hctx, hparent⟩, htask⟩, hret⟩ := hall
    rw [hchildren h hh hctx hparent htask] at hret
    cases hret
  rw [gridOver, hnone, hr, htodo, hlive]
  rfl

/-- A bin released whole: its tasks are a wave, and no bin of its key is left. -/
theorem releaseBin_whole (d : Dev) (b : Bin) : let d' := releaseBin d b b.tasks.length
    d'.waves = d.waves ++ [⟨b.ctx, b.queue, b.plaza, b.entry, b.tasks, d.order, false⟩] ∧ d'.order = d.order + 1 ∧
      ∀ c, c ∈ d'.bins ↔ c ∈ d.bins ∧ ¬(c.ctx = b.ctx ∧ c.queue = b.queue ∧ c.plaza = b.plaza ∧ c.entry = b.entry) := by
  dsimp only
  rw [releaseBin, if_pos (Nat.le_refl _), List.take_length]
  refine ⟨rfl, rfl, fun c => ?_⟩
  rw [List.mem_filter]
  refine and_congr_right fun _ => ?_
  rw [Bool.not_eq_true', ← Bool.not_eq_true]
  simp only [Bool.and_eq_true, beq_iff_eq, and_assoc]

/-! ### Expert queues (R249) -/

theorem mayFire_iff (q : Queue) (now : Word) : q.mayFire now = true ↔ q.kind = 3 ∧ q.freeSlotNo ≠ none ∧ 0 < q.tokens ∧
    (q.fld 2 0 12 ≤ q.tokens ∨ q.timedOut now = true ∨ q.fireReq = true) := by
  simp only [Queue.mayFire, Bool.and_eq_true, Bool.or_eq_true, beq_iff_eq, decide_eq_true_eq, Option.isSome_iff_ne_none, and_assoc, or_assoc]

theorem exec_expertFire (c qn : Nat) (s : State) :
    exec (.expertFire c qn) s = .next (s.withDev (fireQueue s.clk.now c qn 1 s.dev)) := rfl

/-- A queue that may fire, asked for one batch, fires one. -/
theorem fireQueue_one {now : Word} {d : Dev} {c qn : Nat} (hx : dispatches (d.ctx c) = true) (hmay : ((d.ctx c).queue qn).mayFire now = true)
    (howed : (d.ctx c).batchOwed qn = false) : fireQueue now c qn 1 d = (fireOnce now d c qn).2 := by
  rw [fireQueue, hx, hmay, howed]
  rw [show (true && true && !false) = true from rfl, if_pos rfl]
  dsimp only
  split <;> rfl

theorem fireQueue_idle {now : Word} {d : Dev} {c qn : Nat} (h : dispatches (d.ctx c) = false ∨ ((d.ctx c).queue qn).mayFire now = false) :
    fireQueue now c qn 1 d = d := by
  rw [fireQueue]
  obtain h | h := h
  · simp [h]
  · simp [h]

/-- The queue once a batch of it has been fired from a slot. -/
def firedQueue (q : Queue) (qn k n : Nat) : Queue :=
  { q with
    entries := dropTokens n q.entries
    seq := q.seq + 1
    last := some (queueLid qn q.seq)
    slots := setAt q.slots k (some (queueLid qn q.seq))
    nextSlot := (k + 1) % q.slots.length
    fireReq := false }

/-- Settles O44: the room by the fold that finds it, a start and a retirement by what they leave, the events by their equations. -/
theorem placementWavesAndExpertQueues : Obligations.PlacementWavesAndExpertQueues := by
  refine ⟨⟨fun s q c g i r h => exec_teamPlacement_grid h, fun s q c w r h => ?_,
      fun now d c lid index threads h depth wave tasks know r hc => startTeam_spec now lid index threads h depth wave tasks know r hc,
      fun d room cores b h => bestRoom_spec h, fun s tm t ht hover => exec_teamRetirement_of ht hover,
      fun now d t => ⟨retireTeam_teams now d t, retireTeam_resident now⟩,
      fun s c lid g hg hr htodo hlive hchildren => exec_gridRetirement_of hg (gridOver_of hr htodo hlive hchildren)⟩,
    fun s c q plaza entry b k ks hb htasks => ⟨fun hdue => ?_, fun hearly => ?_⟩, fun s plaza w hnone hw => ?_,
    fun s plaza hsome => ?_, mayFire_iff, fun s c qn hx hmay howed => ?_, fun s c qn hidle => ?_, fun s c qn hkind htimed => ?_,
    fun now d c qn k event d1 hslot hwrite => ?_⟩
  · rw [exec, execTeamPlacement, onDev]
    dsimp only
    rw [h]
  · obtain ⟨⟨⟨hc, hq⟩, hp⟩, he⟩ : ((b.ctx = c ∧ b.queue = q) ∧ b.plaza = plaza) ∧ b.entry = entry := by simpa using List.find?_some hb
    obtain ⟨hwaves, horder, hbins⟩ := releaseBin_whole s.dev b
    rw [hc, hq, hp, he] at hwaves hbins
    refine ⟨_, ?_, hwaves, horder, hbins⟩
    simp only [exec, execWaveReleaseTimer, onDev, hb, htasks, hdue, if_true]
  · simp only [exec, execWaveReleaseTimer, onDev, hb, htasks, if_neg (Nat.not_le.2 hearly)]
    rfl
  · have hany : (s.dev.waves.any fun v => v.plaza == plaza) = false := List.any_eq_false.2 fun v hv => by simpa using hnone v hv
    simp only [exec, execWaveSteal, onDev, hany, hw, Bool.false_eq_true, if_false]
  · obtain ⟨v, hv, hp⟩ := hsome
    have hany : (s.dev.waves.any fun v => v.plaza == plaza) = true := List.any_eq_true.2 ⟨v, hv, by simpa using hp⟩
    simp only [exec, execWaveSteal, onDev, hany, if_true]
    rfl
  · rw [exec_expertFire, fireQueue_one hx hmay howed]
  · rw [exec_expertFire, fireQueue_idle hidle]
    rfl
  · simp only [exec, execExpertTimer, onDev, hkind, htimed, and_self, if_true]
  · refine ⟨firedQueue ((d.ctx c).queue qn) qn k
      ((((d.ctx c).queue qn).entries.flatMap QEntry.ws).take (((d.ctx c).queue qn).fld 2 12 12)).length,
      ?_, rfl, rfl, rfl, rfl, rfl⟩
    simp only [fireOnce, hslot, hwrite]
    rfl

end Sys2Proof.Machine
end

section
/-!
PROOF of the negation of `FspawnCreatesAHelper`. Its clause on v0 (R106) gives the operand to every active lane within the width of the fibre that
spawns. The helper is as wide as its team's header says, and v0 is written lane by lane within that width; no premise says that the two
widths agree.
-/

namespace Sys2Proof.Machine

/-! ### A fibre of 16 lanes whose team's header says 8 -/

/-- A thread that has just started at the word 0x1000. -/
def startedThread (L : Nat) : Thread := newThread .live 0x1000 L none

/-- The spawning fibre: 16 lanes, one register of its own, which holds 5. -/
def wideFibre : Fibre :=
  { (default : Fibre) with uid := 1, width := 16, nPriv := 1, nAlloc := 8, regs := [.u 5], threads := (List.range 16).map startedThread }

/-- Its team, whose kernel gives a fibre one register and 8 lanes. -/
def narrowTeam : Team :=
  { (default : Team) with uid := 0, hdr := { (default : KernelHdr) with n := 1, width := 8, rf := 1, stack := 1024 } }

/-- The device after reset with that team and that fibre. -/
def mixedDev : Dev := { State.reset.dev with teams := [narrowTeam], fibres := [wideFibre], nextId := 2 }

/-- An issue of the fibre with lane 8 alone active. -/
def mixedIss : Iss :=
  { s := { State.reset with dev := mixedDev }, f := wideFibre, t := narrowTeam, c := ⟨1, 0xFFFF, 0x1000, 0, 0⟩,
    h := ⟨false, 31, 1, false, false, false, false⟩, act := 0x100 }

/-- The device once the fibre has spawned a helper in context 1 at the word 0x2000, with v0 as the operand. -/
def mixedSpawn : Dev := spawn mixedIss mixedDev 0 1 0x2000

/-- The operand holds 5 in lane 8. -/
theorem regLane_wideFibre : regLane mixedDev wideFibre 0 8 = 5 := rfl

/-- The helper has its v0, and lane 8 of it reads 0. -/
theorem v0_mixedSpawn {g : Fibre} (hg : mixedSpawn.fibre? 2 = some g) : HasReg mixedSpawn g 0 ∧ regLane mixedSpawn g 0 8 = 0 := by
  obtain rfl := Option.some.inj hg
  exact ⟨.inr (by decide), rfl⟩

/-- Refutes O18: the clause on a helper's v0 fails for lane 8 of `mixedIss`, which lies within the 16 lanes of the fibre that spawns and past
the 8 of the helper. -/
theorem not_fspawnCreatesAHelper : ¬ Obligations.FspawnCreatesAHelper := by
  intro h
  obtain ⟨g, hg, -, -, -, -, -, -, -, -, -, -, -, hv0, -⟩ := h.2 mixedIss mixedDev wideFibre 0 1 0x2000 rfl rfl rfl (by decide)
  obtain ⟨hreg, hlane⟩ := v0_mixedSpawn hg
  have hop := hv0 hreg 8 rfl (by decide)
  exact absurd (hlane.symm.trans (hop.trans regLane_wideFibre)) (by decide)

end Sys2Proof.Machine
end

section
/-!
PROOF of `FibreBarriers`. An arriving instruction sorts its active lanes into those whose arrival stands and the others (`fbarBody_answers`).
What a wait or the end of a phase acquires goes into the records of threads alone (`OnlyRecords.acquire`, `acquire_fibres_ind`), so that the
fibres of a completed phase are those whose threads `completeFbar` has cleared.
-/

namespace Sys2Proof.Machine

/-! ### What an acquire leaves (R195) -/

theorem acquire_eq (d : Dev) (u : Nat) (m : LaneMask) (host : Bool) (ids know : List Nat) : ∃ hs,
    acquire d u m host ids know = { d with holds := hs } ∨
    ∃ n b sc e, acquire d u m host ids know = knowAfter { d with holds := hs, nextId := n, before := b } u m sc e := by
  obtain ⟨hs, hhs⟩ : ∃ hs, (if (liveIds d ids).isEmpty then d else
      { d with holds := d.holds ++ m.lanes.map fun L => Hold.on u L (liveIds d ids) (if host then .sys else .team) }) =
      { d with holds := hs } := by
    split
    · exact ⟨d.holds, rfl⟩
    · exact ⟨_, rfl⟩
  refine ⟨hs, ?_⟩
  rw [acquire]
  dsimp only
  rw [hhs]
  split
  · exact .inl rfl
  · obtain ⟨b, hb⟩ := addBefore_eq { d with holds := hs, nextId := d.nextId + 1 } (soleEv d.nextId) false know
    exact .inr ⟨d.nextId + 1, b, _, soleEv d.nextId, congrArg (knowAfter · u m _ _) hb⟩

theorem OnlyRecords.knowAfter (d : Dev) (u : Nat) (m : LaneMask) (sc : Scope) (e : Nat) : OnlyRecords d (knowAfter d u m sc e) := by
  rw [Machine.knowAfter]
  split
  · exact .refl d
  · exact .setFibre ‹_› (.onLanes _ _ (fun _ _ => rfl) fun _ _ => rfl)

theorem OnlyRecords.acquire (d : Dev) (u : Nat) (m : LaneMask) (host : Bool) (ids know : List Nat) :
    OnlyRecords d (acquire d u m host ids know) := by
  obtain ⟨hs, h | ⟨n, b, sc, e, h⟩⟩ := acquire_eq d u m host ids know
  · rw [h]
    exact ⟨rfl, rfl, rfl, rfl, rfl, rfl, rfl, fun _ f hf => ⟨f, hf, .refl f⟩⟩
  · rw [h]
    have hbegin : OnlyRecords d { d with holds := hs, nextId := n, before := b } :=
      ⟨rfl, rfl, rfl, rfl, rfl, rfl, rfl, fun _ f hf => ⟨f, hf, .refl f⟩⟩
    exact hbegin.trans (.knowAfter _ u m sc e)

/-- What holds of every fibre, whatever events its threads' later accesses come after, an acquire keeps. -/
theorem acquire_fibres_ind {P : Fibre → Prop} (hP : ∀ f m sc e, P f → P (f.onLanes m fun _ t => t.after false sc e)) {d : Dev}
    (h : ∀ f ∈ d.fibres, P f) (u : Nat) (m : LaneMask) (host : Bool) (ids know : List Nat) :
    ∀ f ∈ (acquire d u m host ids know).fibres, P f := by
  obtain ⟨hs, he | ⟨n, b, sc, e, he⟩⟩ := acquire_eq d u m host ids know
  · rw [he]
    exact h
  · rw [he, knowAfter]
    split
    · exact h
    · rename_i f hf
      intro k hk
      obtain ⟨k', hk', rfl⟩ := List.mem_map.1 hk
      split
      · exact hP f _ _ _ (h f (List.mem_of_find?_eq_some hf))
      · exact h k' hk'

/-! ### Arrivals and waits (R109) -/

theorem onLanes_onLanes (f : Fibre) (m : LaneMask) (g k : Nat → Thread → Thread) :
    (f.onLanes m g).onLanes m k = f.onLanes m fun L t => k L (g L t) := by
  simp only [Fibre.onLanes, Fibre.mapThreads, List.mapIdx_mapIdx, Fibre.mk.injEq, true_and]
  refine congrArg (List.mapIdx · f.threads) (funext fun L => funext fun t => ?_)
  by_cases hm : m.has L = true <;> simp [hm]

/-- The active lanes whose arrival in the open phase stands. -/
def arrivedLanes (x : Iss) : LaneMask := lanesWhere fun L => x.act.has L && (x.f.thread L).fbArr

/-- The issuing fibre with those lanes at the instruction, their arrival held. -/
def heldFib (i : Instr) (x : Iss) : Fibre :=
  (begunFib i x).onLanes (arrivedLanes x) fun _ t =>
    { t with pc := x.c.pc, depth := x.c.depth, wait := .fbarHeld (x.s.dev.group x.f.grp).phase }

theorem exec_fbarArrive (h : Hdr) (s : State) :
    exec (.fbarArrive h) s = issueOn (.fbarArrive h) h s (fbarBody fun _ d _ => d) := rfl

theorem exec_fbarSync (h : Hdr) (s : State) : exec (.fbarSync h) s = issueOn (.fbarSync h) h s (fbarBody fbarWait) := rfl

theorem exec_fbarWait (h : Hdr) (s : State) :
    exec (.fbarWait h) s = issueOn (.fbarWait h) h s (ifActive fun x d => some (.done (fbarWait x d x.act))) := rfl

theorem exec_fstat (h : Hdr) (r : Reg) (s : State) : exec (.fstat h r) s = issueOn (.fstat h r) h s
    (ifActive fun x d => some (.done (sendResult x d true true [r.toNat] 0 fun _ => [statWord x d]))) := rfl

section
variable {i : Instr} {h : Hdr} {s : State} {x : Iss} {after : Iss → Dev → LaneMask → Dev} (hh : hdrOf i = some h)
  (hx : issue? i s = some x) (he : exec i s = issueOn i h s (fbarBody after)) (ha : x.act ≠ 0)
include hh hx he ha

/-- AN ARRIVING INSTRUCTION: the lanes whose arrival stands wait at it, the others arrive. -/
theorem fbarBody_answers : Answers i s (checkFbar (after x (fbarArrive x ((begun i x).setFibre (heldFib i x))
    (x.act &&& ~~~arrivedLanes x)) (x.act &&& ~~~arrivedLanes x)) x.f.grp) := by
  refine active_answers hh hx he ha ?_
  have hheld : (lanesWhere fun L => x.act.has L && ((begunFib i x).thread L).fbArr) = arrivedLanes x :=
    congrArg lanesWhere (funext fun L => by rw [thread_begunFib i x L Thread.fbArr fun _ _ _ _ => rfl])
  simp only [fib_begun hx, hheld, begun_group, begunFib_grp, keepPc, onLanes_onLanes]
  rfl

/-- The same where no active lane's arrival stands. -/
theorem fbarBody_answers_of_none (hnone : ∀ L, x.act.has L = true → (x.f.thread L).fbArr = false) :
    Answers i s (checkFbar (after x (fbarArrive x (begun i x) x.act) x.act) x.f.grp) := by
  have hheld : ∀ L, (arrivedLanes x).has L = false := fun L => by
    rw [arrivedLanes, has_lanesWhere]
    cases hact : x.act.has L with
    | false => simp
    | true => simp [hnone L hact]
  have hfib : heldFib i x = begunFib i x := onLanes_eq_self hheld
  have hgo : x.act &&& ~~~arrivedLanes x = x.act := by
    rw [eq_zero_of_has hheld]
    exact BitVec.and_allOnes
  have := fbarBody_answers hh hx he ha
  rwa [hfib, begun_setFibre_self, hgo] at this

end

/-- An arrival in the open phase stands in the lanes that arrive, which record the phase. -/
theorem fbarArrive_arrives {x : Iss} {d : Dev} {f : Fibre} (m : LaneMask) (hf : d.fibre? x.f.uid = some f) :
    ∃ f', (fbarArrive x d m).fibre? x.f.uid = some f' ∧ ∀ L, L < f.threads.length →
      (f'.thread L).fbArr = (m.has L || (f.thread L).fbArr) ∧
      (f'.thread L).fbRec = if m.has L then some (d.group f.grp).phase else (f.thread L).fbRec := by
  have hfib : x.fib d = f := by rw [Iss.fib, hf]; rfl
  refine ⟨f.onLanes m fun _ t => { t with fbArr := true, fbRec := some (d.group f.grp).phase }, ?_, fun L hL => ?_⟩
  · rw [fbarArrive, hfib]
    exact fibre?_setFibre_of hf rfl
  · rw [thread_onLanes hL]
    cases m.has L <;> simp

/-- The lanes that have recorded the open phase wait for it; the others go on. -/
theorem fbarWait_waits {x : Iss} {d : Dev} {f : Fibre} (m : LaneMask) (hf : d.fibre? x.f.uid = some f) :
    ∃ f', (fbarWait x d m).fibre? x.f.uid = some f' ∧ ∀ L, L < f.threads.length → L < 64 →
      (f'.thread L).wait = if m.has L = true ∧ (f.thread L).fbRec = some (d.group f.grp).phase then .fbar (d.group f.grp).phase
        else (f.thread L).wait := by
  have hfib : x.fib d = f := by rw [Iss.fib, hf]; rfl
  rw [fbarWait, hfib]
  obtain ⟨f', hf', -, -, hkept⟩ := (OnlyRecords.acquire _ f.uid _ false _ _).fibre x.f.uid _
    (fibre?_setFibre_of hf (onLanes_uid f (lanesWhere fun L => m.has L && (f.thread L).fbRec == some (d.group f.grp).phase)
      fun _ t => { t with wait := .fbar (d.group f.grp).phase }))
  refine ⟨f', hf', fun L hL h64 => ?_⟩
  rw [(hkept L).2, thread_onLanes hL, has_lanesWhere]
  simp only [h64, decide_true, Bool.true_and, Bool.and_eq_true, beq_iff_eq]
  split <;> rfl

/-! ### The end of a phase (R109) -/

theorem fbarComplete_iff (d : Dev) (grp : Nat) : fbarComplete d grp = true ↔
    (∃ f t, f ∈ d.fibres ∧ f.grp = grp ∧ t ∈ f.threads ∧ t.life = .live) ∧
      ∀ f t, f ∈ d.fibres → f.grp = grp → t ∈ f.threads → t.life = .live → t.fbArr = true := by
  simp only [fbarComplete, groupFibres, Bool.and_eq_true, List.any_eq_true, List.all_eq_true, List.mem_filter, beq_iff_eq, Bool.or_eq_true,
    bne_iff_ne, ne_eq]
  refine and_congr ⟨?_, ?_⟩ ⟨fun h f t hf hg ht hl => ?_, fun h f hf t ht => ?_⟩
  · rintro ⟨f, ⟨hf, hg⟩, t, ht, hl⟩
    exact ⟨f, t, hf, hg, ht, hl⟩
  · rintro ⟨f, t, hf, hg, ht, hl⟩
    exact ⟨f, ⟨hf, hg⟩, t, ht, hl⟩
  · exact (h f ⟨hf, hg⟩ t ht).resolve_left (not_not_intro hl)
  · exact or_iff_not_imp_left.2 fun hl => h f t hf.1 hf.2 ht (not_not.1 hl)

/-- No thread of the group has an arrival that stands, or waits for the phase. -/
def PhaseOver (grp phase : Nat) (f : Fibre) : Prop :=
  f.grp = grp → ∀ t ∈ f.threads, t.fbArr = false ∧ t.wait ≠ .fbar phase ∧ t.wait ≠ .fbarHeld phase

/-- What a thread's later accesses come after touches neither. -/
theorem PhaseOver.after {grp phase : Nat} {f : Fibre} (m : LaneMask) (sc : Scope) (e : Nat) (h : PhaseOver grp phase f) :
    PhaseOver grp phase (f.onLanes m fun _ t => t.after false sc e) := by
  intro hg t ht
  obtain ⟨L, hL, rfl⟩ := List.mem_mapIdx.1 ht
  have := h hg _ (List.getElem_mem hL)
  split
  · exact this
  · exact this

/-- A thread of the group at the end of a phase: no arrival stands, and a wait for the phase is over. -/
def clearedThread (phase : Nat) (t : Thread) : Thread :=
  { t with fbArr := false, wait := if t.wait == .fbar phase || t.wait == .fbarHeld phase then .none else t.wait }

theorem clearedThread_wait (phase : Nat) (t : Thread) :
    (clearedThread phase t).wait ≠ .fbar phase ∧ (clearedThread phase t).wait ≠ .fbarHeld phase := by
  simp only [clearedThread]
  split
  · exact ⟨Wait.noConfusion, Wait.noConfusion⟩
  · rename_i h
    simpa using h

/-- The fibres of a group whose threads are cleared, and the others. -/
theorem phaseOver_cleared (grp phase : Nat) (f : Fibre) :
    PhaseOver grp phase (if f.grp == grp then f.mapThreads fun _ => clearedThread phase else f) := by
  split
  · intro _ t ht
    obtain ⟨L, hL, rfl⟩ := List.mem_mapIdx.1 ht
    exact ⟨rfl, clearedThread_wait phase _⟩
  · rename_i h
    exact fun hg => absurd (beq_iff_eq.2 hg) h

/-- A group with its next phase open: what the arrivals have released is now for every wait to acquire (R195). -/
def nextFbar (d : Dev) (g : Group) : Group :=
  { g with
    phase := g.phase + 1
    know := dedupNat (g.know ++ g.openKnow)
    ids := dedupNat (liveIds d g.ids ++ g.openIds)
    openKnow := []
    openIds := [] }

/-- The device with the phase over, before the waiting threads acquire. -/
def clearedFbar (d : Dev) (grp : Nat) (g : Group) : Dev :=
  { d.setGroup (nextFbar d g) with
    fibres := d.fibres.map fun f => if f.grp == grp then f.mapThreads fun _ => clearedThread g.phase else f }

section
variable {d : Dev} {grp : Nat} {g : Group} (hg : d.groups.find? (fun h => h.uid == grp) = some g)
include hg

theorem completeFbar_eq : ∃ waits : Fibre → LaneMask, completeFbar d grp = (groupFibres d grp).foldl
    (fun e f => acquire e f.uid (waits f) false (nextFbar d g).ids (nextFbar d g).know) (clearedFbar d grp g) := by
  have hgroup : d.group grp = g := by rw [Dev.group, hg]; rfl
  exact ⟨_, by rw [completeFbar, hgroup]; rfl⟩

/-- The next phase opens. -/
theorem completeFbar_phase : ((completeFbar d grp).group grp).phase = g.phase + 1 := by
  obtain ⟨waits, heq⟩ := completeFbar_eq hg
  have hgroups : (completeFbar d grp).groups = (d.setGroup (nextFbar d g)).groups := by
    rw [heq]
    exact foldl_keeps Dev.groups (fun e (f : Fibre) => (OnlyRecords.acquire e f.uid _ false _ _).groups) _ _
  have hgu : g.uid = grp := by simpa using List.find?_some hg
  have hself : (d.setGroup (nextFbar d g)).group grp = nextFbar d g := group_setGroup_self hg hgu
  rw [Dev.group] at hself
  rw [Dev.group, hgroups, hself]
  rfl

/-- No thread of the group is in the phase that has ended. -/
theorem completeFbar_phaseOver : ∀ f ∈ (completeFbar d grp).fibres, PhaseOver grp g.phase f := by
  obtain ⟨waits, heq⟩ := completeFbar_eq hg
  rw [heq]
  refine List.foldlRecOn (motive := fun e : Dev => ∀ f ∈ e.fibres, PhaseOver grp g.phase f) _ _ (fun f hf => ?_) fun e he k _ =>
    acquire_fibres_ind (fun _ m sc e h => h.after m sc e) he _ _ _ _ _
  obtain ⟨k, -, rfl⟩ := List.mem_map.1 hf
  exact phaseOver_cleared grp g.phase k

end

/-- Settles O19: the arriving instructions by the lemma on their body, `fbar.wait` and `fstat` by theirs; then what each operation does to
threads. -/
theorem fibreBarriers : Obligations.FibreBarriers := by
  refine ⟨⟨fun h s x hx ha => ?_, fun h s x hx ha => ?_, fun h s x hx ha => ?_, fun h s x hx ha hnone => ?_, fun h s x hx ha hnone => ?_,
      fun i h sync s x hi hx ha => ?_, fun h s x hx ha => ?_, fun h r s x hx => ?_⟩,
    fun x d f m => fbarArrive_arrives m, fun x d f m => fbarWait_waits m, fun d grp g hg => ⟨fun hdone => ?_, fun hdone => ?_⟩⟩
  · exact idle_answers rfl hx (exec_fbarArrive h s) ha
  · exact idle_answers rfl hx (exec_fbarSync h s) ha
  · exact idle_answers rfl hx (exec_fbarWait h s) ha
  · exact fbarBody_answers_of_none rfl hx (exec_fbarArrive h s) ha hnone
  · exact fbarBody_answers_of_none rfl hx (exec_fbarSync h s) ha hnone
  · obtain rfl := issue?_s hx
    subst hi
    cases sync with
    | false => exact fbarBody_answers rfl hx (exec_fbarArrive h _) ha
    | true => exact fbarBody_answers rfl hx (exec_fbarSync h _) ha
  · exact active_answers rfl hx (exec_fbarWait h s) ha rfl
  · exact guarded_answers rfl hx (exec_fstat h r s) rfl
  · rw [checkFbar, if_neg (mt (fbarComplete_iff d grp).1 hdone)]
  · rw [checkFbar, if_pos ((fbarComplete_iff d grp).2 hdone)]
    exact ⟨completeFbar_phase hg, fun f t hf hfg ht => completeFbar_phaseOver hg f hf hfg t ht⟩

end Sys2Proof.Machine
end

section
/-!
SUPPORT. Words and integers (R24), the shapes of integer results (R55, R76), and what the bodies that write one register or predicate come
to. The shape of an integer result fits its lanes' values: U where every source is U, and on the affine rows because arithmetic on whole words
is arithmetic on integers mod 2^64. So the register that lands holds them.
-/

namespace Sys2Proof.Machine

/-! ### Words and integers (R24) -/

/-- A number cut to `w` bits is a bit vector's. -/
theorem truncW_eq_toNat (w : Nat) (z : Int) : truncW w z = (BitVec.ofInt w z).toNat := by rw [BitVec.toNat_ofInt, truncW]

/-- Two's complement is a bit vector's. -/
theorem toSigned_eq_toInt (w x : Nat) : toSigned w x = (BitVec.ofNat w x).toInt := by
  have hhalf : x % 2 ^ w < 2 ^ (w - 1) ↔ 2 * (x % 2 ^ w) < 2 ^ w := by
    cases w with
    | zero => simp [Nat.mod_one]
    | succ w => rw [Nat.pow_succ, Nat.succ_sub_one]; omega
  rw [BitVec.toInt_eq_toNat_cond, BitVec.toNat_ofNat, toSigned]
  simp only [hhalf]

/-- A cut integer has no bits beyond the width. -/
theorem truncW_lt (w : Nat) (z : Int) : truncW w z < 2 ^ w := truncW_eq_toNat w z ▸ (BitVec.ofInt w z).isLt

@[simp] theorem truncW_mod (w : Nat) (z : Int) : truncW w z % 2 ^ w = truncW w z := Nat.mod_eq_of_lt (truncW_lt w z)

/-- A word cut from an integer is the integer mod 2^64. -/
theorem ofNat_truncW (z : Int) : BitVec.ofNat 64 (truncW 64 z) = BitVec.ofInt 64 z := by
  rw [truncW_eq_toNat, BitVec.ofNat_toNat, BitVec.setWidth_eq]

/-- A whole word's value is the word mod 2^64. -/
theorem ofInt_intVal {t : ITy} (hw : t.width = 64) (u : Word) : BitVec.ofInt 64 (intVal t u.toNat) = u := by
  unfold intVal
  split
  · rw [hw, toSigned_eq_toInt, BitVec.ofNat_toNat, BitVec.setWidth_eq, BitVec.ofInt_toInt]
  · rw [hw, Nat.mod_eq_of_lt u.isLt, BitVec.ofInt_natCast, BitVec.ofNat_toNat, BitVec.setWidth_eq]

theorem ofInt_sub (m n : Int) : BitVec.ofInt 64 (m - n) = BitVec.ofInt 64 m - BitVec.ofInt 64 n := by
  rw [Int.sub_eq_add_neg, BitVec.ofInt_add, BitVec.ofInt_neg, BitVec.sub_eq_add_neg]

/-! ### Shapes of integer results fit their values (R76) -/

/-- Two sources, and the old destination where it is one. -/
theorem intShape_fits {t : ITy} {rd : Bool} {d : Reg} {a b : Src} {x : Iss} {dv : Dev} (val : Word → Word → Word → Word)
    (hrd : rd = false → ∀ u v w w', val u v w = val u v w') :
    (intShape t rd d a b x dv).Fits fun L =>
      val (intArgs t d a b x dv L).1 (intArgs t d a b x dv L).2.1 (intArgs t d a b x dv L).2.2 := by
  refine allU_fits fun hu L M => ?_
  simp only [intArgs]
  rw [srcVal_of_u (a := a) (hu _ (by simp)) L M, srcVal_of_u (a := b) (hu _ (by simp)) L M]
  cases rd with
  | false => exact hrd rfl _ _ _ _
  | true => rw [regLane_of_plainU (hu _ (by simp)) L M]

/-- A sub-element operation on them. -/
theorem intShape_fits_subs3 {t : ITy} {rd : Bool} {d : Reg} {a b : Src} {x : Iss} {dv : Dev} {w : Nat} {g : Nat → Nat → Nat → Nat × Word}
    (hrd : rd = false → ∀ u v d d', g u v d = g u v d') :
    (intShape t rd d a b x dv).Fits fun L =>
      (subs3 w g (intArgs t d a b x dv L).1 (intArgs t d a b x dv L).2.1 (intArgs t d a b x dv L).2.2).1 :=
  intShape_fits (fun u v d => (subs3 w g u v d).1) fun h u v d d' => by rw [subs3_third (hrd h) u v d d']

/-- One source. -/
theorem intShape1_fits {t : ITy} {a : Src} {x : Iss} {dv : Dev} (val : Word → Word) :
    (intShape1 t a x dv).Fits fun L => val (srcVal dv (x.fib dv) x.t (.int t) L a) :=
  allU_fits fun hu L M => by rw [srcVal_of_u (hu _ (by simp)) L M]

/-- THE AFFINE ROWS: an operation that on whole words is `op`, which is `comb` on bases and strides. -/
theorem affShape_fits_subs3 {t : ITy} {sat : Bool} {d : Reg} {a b : Src} {ok : Sh → Sh → Bool} {x : Iss} {dv : Dev}
    {comb : Word × Word → Word × Word → Word × Word} {g : Nat → Nat → Nat × Word} {op : Word → Word → Word}
    (hg : t.width = 64 → sat = false → ∀ u v : Word, BitVec.ofNat 64 (g u.toNat v.toNat).1 = op u v)
    (hop : ∀ sa sb va vb p q, ok sa sb = true → affOf sa va = some p → affOf sb vb = some q → ∀ L : Word,
      op (p.1 + L * p.2) (q.1 + L * q.2) = (comb p q).1 + L * (comb p q).2) :
    (affShape t sat d a b ok comb x dv).Fits fun L =>
      (subs3 t.width (fun u v _ => g u v) (intArgs t d a b x dv L).1 (intArgs t d a b x dv L).2.1 (intArgs t d a b x dv L).2.2).1 := by
  cases sat with
  | true =>
    have hplain : affShape t true d a b ok comb x dv = intShape t false d a b x dv := by simp [affShape]
    rw [hplain]
    exact intShape_fits_subs3 fun _ _ _ _ _ => rfl
  | false =>
    simp only [subs3_third (g := fun u v _ => g u v) (fun _ _ _ _ => rfl) _ _ _ 0]
    refine affShape_fits (op := fun u v => (subs3 t.width (fun u v _ => g u v) u v 0).1) fun hw sa sb va vb p q hok hp hq L => ?_
    rw [hw, subs3_whole, hg hw rfl, hop sa sb va vb p q hok hp hq]

/-! ### Results and flags -/

/-- A bit of the union of some words is one of theirs. -/
theorem getLsbD_union {α : Type} (f : α → Word) (xs : List α) (b : Nat) :
    (xs.foldl (fun m r => m ||| f r) 0).getLsbD b = true ↔ ∃ r, r ∈ xs ∧ (f r).getLsbD b = true := by
  simp [getLsbD_foldl_or]

/-- The flags of a sub-element operation, one after the other. -/
theorem subs3_snd (w : Nat) (g : Nat → Nat → Nat → Nat × Word) (a b d : Word) : (subs3 w g a b d).2 =
    ((List.range (64 / w)).map fun j => (g (sub a w j) (sub b w j) (sub d w j)).2).foldl (fun m r => m ||| r) 0 := by
  simp only [subs3, nsub, List.foldl_map]

/-- A G result fits anything. -/
theorem g_fits (val : Nat → Word) : Sh.g.Fits val := ⟨fun h => (nomatch h), fun _ _ h => (nomatch h)⟩

/-- One value in all lanes fits U. -/
theorem u_fits (v : Word) : Sh.u.Fits fun _ => v := ⟨fun _ _ _ => rfl, fun _ _ h => (nomatch h)⟩

section
variable {i : Instr} {h : Hdr} {lat : Nat} (hh : hdrOf i = some h)
include hh

/-- A body that writes one register and raises nothing, under a shape that fits. -/
theorem laneWhere_of_vecBody {d : Reg} {sh : Iss → Dev → Sh} {val : Iss → Dev → Nat → Word × Word} {p : Iss → Nat → Word → Prop}
    (he : ∀ s, exec i s = issueOn i h s (vecBody d lat sh val)) (hfl : ∀ x dv L, (val x dv L).2 = 0)
    (hfit : ∀ x dv, (sh x dv).Fits fun L => (val x dv L).1)
    (hp : ∀ s x, issue? i s = some x → ∀ L, x.act.has L = true → p x L (val x (begun i x) L).1) : LaneWhere i d lat p := by
  intro s x hx
  have hlands := vecBody_lands hh hx (he s)
  simp only [hfl, laneFlags_zero] at hlands
  refine ⟨_, hlands, fun L hL => ?_⟩
  rw [laneVal_outReg_of_fits hx (hfit x _) hL]
  exact hp s x hx L hL

/-- A body that writes one predicate and raises nothing. -/
theorem predWhere_of_predBody {q : PredIdx} {val : Iss → Dev → Nat → Bool × Word} {p : Iss → Nat → Bool → Prop}
    (he : ∀ s, exec i s = issueOn i h s (predBody q lat val)) (hfl : ∀ x dv L, (val x dv L).2 = 0)
    (hp : ∀ s x, issue? i s = some x → ∀ L, x.act.has L = true → p x L (val x (begun i x) L).1) : PredWhere i q lat p := by
  intro s x hx
  have hlands := predBody_lands hh hx (he s)
  simp only [hfl, laneFlags_zero] at hlands
  exact ⟨_, hlands, hp s x hx⟩

end

end Sys2Proof.Machine
end

section
/-!
PROOF of `IntegerArithmeticGivesExactResult`. An integer instruction is a sub-element operation whose exact result is wrapped or clamped
(R115), and its flags are IO where a saturation clamps (R24); its shape fits its values.
-/

namespace Sys2Proof.Machine

/-- What an integer operation raises is IO where a saturation clamps (R24). -/
theorem intRes_snd (t : ITy) (sat : Bool) (n : Int) : (intRes t sat n).2 = if sat && decide (satTo t n ≠ n) then fIO else 0 := by
  cases sat <;> simp [intRes]

theorem intRes_fst (t : ITy) (sat : Bool) (n : Int) : (intRes t sat n).1 = truncW t.width (if sat then satTo t n else n) := by
  cases sat <;> rfl

/-- AN INTEGER INSTRUCTION whose lanes are sub-element operations on `A`, `B` and `D` with exact results `f`, under a shape that fits. -/
theorem intResult_of_subs3 {i : Instr} {h : Hdr} {t : ITy} {sat : Bool} {d : Reg} {sh : Iss → Dev → Sh} {A B D : Iss → Dev → Nat → Word}
    {f : Nat → Nat → Nat → Int} {n : Iss → Nat → Nat → Int} (hh : hdrOf i = some h)
    (he : ∀ s, exec i s = issueOn i h s (vecBody d 4 sh fun x dv L =>
      subs3 t.width (fun a b d => intRes t sat (f a b d)) (A x dv L) (B x dv L) (D x dv L)))
    (hfit : ∀ x dv, (sh x dv).Fits fun L => (subs3 t.width (fun a b d => intRes t sat (f a b d)) (A x dv L) (B x dv L) (D x dv L)).1)
    (hn : ∀ s x, issue? i s = some x → ∀ L j, f (sub (A x (begun i x) L) t.width j) (sub (B x (begun i x) L) t.width j)
      (sub (D x (begun i x) L) t.width j) = n x L j) : IntResult i t sat d n := by
  intro s x hx
  have hlands := vecBody_lands hh hx (he s)
  simp only [subs3_snd, intRes_snd, hn s x hx, laneFlags_flagIf] at hlands
  refine ⟨_, hlands, fun L hL j hj => ?_⟩
  rw [laneVal_outReg_of_fits hx (hfit x _) hL, sub_subs3 _ _ _ _ hj]
  simp only [intRes_fst, truncW_mod, hn s x hx]

section
variable {i : Instr} {h : Hdr} {t : ITy} {sat : Bool} {d : Reg} {a b : Src} (hh : hdrOf i = some h)
include hh

/-- AN INTEGER INSTRUCTION on two sources and the old destination. -/
theorem intResult_of_int3 {sh : Iss → Dev → Sh} {f : Int → Int → Int → Int}
    (he : ∀ s, exec i s = issueOn i h s (int3 t d a b sh fun u v w => intRes t sat (f (intVal t u) (intVal t v) (intVal t w))))
    (hfit : ∀ x dv, (sh x dv).Fits fun L => (subs3 t.width (fun u v w => intRes t sat (f (intVal t u) (intVal t v) (intVal t w)))
      (intArgs t d a b x dv L).1 (intArgs t d a b x dv L).2.1 (intArgs t d a b x dv L).2.2).1) :
    IntResult i t sat d fun x L j => f (srcInt x t a L j) (srcInt x t b L j) (regInt x t d L j) := by
  refine intResult_of_subs3 hh he hfit fun s x hx L j => ?_
  simp only [intArgs_begun hx]
  rfl

/-- One whose result is U or G by its sources alone. -/
theorem intResult_of_plain {f : Int → Int → Int}
    (he : ∀ s, exec i s = issueOn i h s (int3 t d a b (intShape t false d a b) fun u v _ => intRes t sat (f (intVal t u) (intVal t v)))) :
    IntResult i t sat d fun x L j => f (srcInt x t a L j) (srcInt x t b L j) :=
  intResult_of_int3 hh (f := fun u v _ => f u v) he fun _ _ => intShape_fits_subs3 fun _ _ _ _ _ => rfl

/-- One of the affine rows, which on whole words is `op`. -/
theorem intResult_of_affine {ok : Sh → Sh → Bool} {comb : Word × Word → Word × Word → Word × Word} {f : Int → Int → Int}
    {op : Word → Word → Word} (hf : ∀ m n, BitVec.ofInt 64 (f m n) = op (BitVec.ofInt 64 m) (BitVec.ofInt 64 n))
    (hop : ∀ sa sb va vb p q, ok sa sb = true → affOf sa va = some p → affOf sb vb = some q → ∀ L : Word,
      op (p.1 + L * p.2) (q.1 + L * q.2) = (comb p q).1 + L * (comb p q).2)
    (he : ∀ s, exec i s = issueOn i h s (int3 t d a b (affShape t sat d a b ok comb)
      fun u v _ => intRes t sat (f (intVal t u) (intVal t v)))) :
    IntResult i t sat d fun x L j => f (srcInt x t a L j) (srcInt x t b L j) := by
  refine intResult_of_int3 hh (f := fun u v _ => f u v) he fun x dv => affShape_fits_subs3 (fun hw hs u v => ?_) hop
  simp only [intRes_fst, hs, Bool.false_eq_true, if_false, hw, ofNat_truncW, hf, ofInt_intVal hw]

/-- AN INTEGER INSTRUCTION on one source. -/
theorem intResult_of_int2 {f : Int → Int} (he : ∀ s, exec i s = issueOn i h s (int2 t d a fun u => intRes t sat (f (intVal t u)))) :
    IntResult i t sat d fun x L j => f (srcInt x t a L j) := by
  refine intResult_of_subs3 hh he (fun x dv => intShape1_fits fun u => (subs3 _ _ u 0 0).1) fun s x hx L j => ?_
  simp only [fib_begun hx, srcVal_begun]
  rfl

end

/-- Settles O1: sums, differences and products by the lemma on the affine rows, the others by those on plain shapes and on one source. -/
theorem integerArithmeticGivesExactResult : Obligations.IntegerArithmeticGivesExactResult := by
  refine ⟨fun h o => ?_, fun h o => ?_, fun h o => ?_, fun h o => ?_, fun h o => ?_, fun h o => ?_, fun h o => ?_, fun h o => ?_,
    fun h o => ?_⟩
  · exact intResult_of_affine (f := (· + ·)) (op := (· + ·)) rfl (fun _ _ => BitVec.ofInt_add _ _)
      (fun _ _ _ _ p q _ _ _ L => affPlus_row p q L) fun s => rfl
  · exact intResult_of_affine (f := (· - ·)) (op := (· - ·)) rfl ofInt_sub
      (fun _ _ _ _ p q _ _ _ L => affMinus_row p q L) fun s => rfl
  · refine intResult_of_affine (f := (· * ·)) (op := (· * ·)) rfl (fun _ _ => BitVec.ofInt_mul _ _)
      (fun _ _ _ _ p q hok hp hq L => affTimes_row ?_ L) fun s => rfl
    simp only [affMul, Bool.or_eq_true, Bool.and_eq_true] at hok
    exact hok.elim (fun h => .inr (affOf_of_isU h.2 hq)) fun h => .inl (affOf_of_isU h.1 hp)
  · exact intResult_of_plain (f := fun u v => (u * v).fdiv ((2 ^ o.t.width : Nat) : Int)) rfl fun s => rfl
  · exact intResult_of_int3 (f := fun u v w => u * v + w) rfl (fun s => rfl) fun _ _ => intShape_fits_subs3 fun h => nomatch h
  · exact intResult_of_int2 (f := fun u => -u) rfl fun s => rfl
  · exact intResult_of_int2 (f := fun u => (u.natAbs : Int)) rfl fun s => rfl
  · exact intResult_of_plain (f := min) rfl fun s => rfl
  · exact intResult_of_plain (f := max) rfl fun s => rfl

end Sys2Proof.Machine
end

section
/-!
PROOF of `ShiftsFieldsAndCounts`. Each operation of the model on one sub-element has the bits that R121 to R123 give it: shifts and fields by
the bits of quotients, remainders and sums of disjoint ranges, signed ones through two's complement, counts and the reversal bit by bit.
-/

namespace Sys2Proof.Machine

/-! ### Sub-element results without flags -/

section
variable {i : Instr} {h : Hdr} {t : ITy} {d : Reg} {a b : Src} (hh : hdrOf i = some h)
include hh

/-- A body whose lanes are sub-element operations `g` on `A`, `B` and `D`, under a shape that fits. -/
theorem subWhere_of_subs3 {w lat : Nat} {sh : Iss → Dev → Sh} {A B D : Iss → Dev → Nat → Word}
    {g : Iss → Dev → Nat → Nat → Nat → Nat → Nat} {p : Iss → Nat → Nat → Nat → Prop}
    (he : ∀ s, exec i s = issueOn i h s (vecBody d lat sh fun x dv L =>
      subs3 w (fun a b d => (g x dv L a b d, 0)) (A x dv L) (B x dv L) (D x dv L)))
    (hfit : ∀ x dv, (sh x dv).Fits fun L => (subs3 w (fun a b d => (g x dv L a b d, 0)) (A x dv L) (B x dv L) (D x dv L)).1)
    (hp : ∀ s x, issue? i s = some x → ∀ L j, p x L j (g x (begun i x) L (sub (A x (begun i x) L) w j) (sub (B x (begun i x) L) w j)
      (sub (D x (begun i x) L) w j) % 2 ^ w)) : SubWhere i w d lat p := by
  refine laneWhere_of_vecBody hh (p := fun x L v => ∀ j, j < 64 / w → p x L j (sub v w j)) he
    (fun _ _ _ => subs3_flags_zero (fun _ _ _ => rfl) _ _ _) hfit fun s x hx L _ j hj => ?_
  rw [sub_subs3 _ _ _ _ hj]
  exact hp s x hx L j

/-- Two integer sources. -/
theorem subWhere_of_int3 {sh : Iss → Dev → Sh} {g : Nat → Nat → Nat} {P : Nat → Nat → Nat → Prop}
    (he : ∀ s, exec i s = issueOn i h s (int3 t d a b sh fun u v _ => (g u v, 0)))
    (hfit : ∀ x dv, (sh x dv).Fits fun L =>
      (subs3 t.width (fun u v _ => (g u v, 0)) (intArgs t d a b x dv L).1 (intArgs t d a b x dv L).2.1 (intArgs t d a b x dv L).2.2).1)
    (hg : ∀ u v, u < 2 ^ t.width → P u v (g u v % 2 ^ t.width)) :
    SubWhere i t.width d 4 fun x L j r => P (srcBits x t a L j) (srcBits x t b L j) r := by
  refine subWhere_of_subs3 hh he hfit fun s x hx L j => ?_
  simp only [intArgs_begun hx]
  exact hg _ _ (Nat.mod_lt _ (by positivity))

/-- Two integer sources whose result is U or G by their shapes. -/
theorem subWhere_of_plain {g : Nat → Nat → Nat} {P : Nat → Nat → Nat → Prop}
    (he : ∀ s, exec i s = issueOn i h s (int3 t d a b (intShape t false d a b) fun u v _ => (g u v, 0)))
    (hg : ∀ u v, u < 2 ^ t.width → P u v (g u v % 2 ^ t.width)) :
    SubWhere i t.width d 4 fun x L j r => P (srcBits x t a L j) (srcBits x t b L j) r :=
  subWhere_of_int3 hh he (fun _ _ => intShape_fits_subs3 fun _ _ _ _ _ => rfl) hg

/-- One integer source. -/
theorem subWhere_of_int2 {g : Nat → Nat} {P : Nat → Nat → Prop} (he : ∀ s, exec i s = issueOn i h s (int2 t d a fun u => (g u, 0)))
    (hg : ∀ u, u < 2 ^ t.width → P u (g u % 2 ^ t.width)) : SubWhere i t.width d 4 fun x L j r => P (srcBits x t a L j) r := by
  refine subWhere_of_subs3 hh he (fun x dv => intShape1_fits fun u => (subs3 _ _ u 0 0).1) fun s x hx L j => ?_
  simp only [fib_begun hx, srcVal_begun]
  exact hg _ (Nat.mod_lt _ (by positivity))

end

/-! ### Two's complement -/

theorem width_pos (t : ITy) : 0 < t.width := by cases t <;> decide

/-- An integer in the signed range of a width is not changed by it. -/
theorem toSigned_truncW {w : Nat} (hw : 0 < w) {z : Int} (h1 : -((2 ^ (w - 1) : Nat) : Int) ≤ z) (h2 : z < ((2 ^ (w - 1) : Nat) : Int)) :
    toSigned w (truncW w z) = z := by
  obtain ⟨w, rfl⟩ := Nat.exists_eq_succ_of_ne_zero hw.ne'
  rw [truncW_eq_toNat, toSigned_eq_toInt, BitVec.ofNat_toNat, BitVec.setWidth_eq, BitVec.toInt_ofInt, Int.bmod_eq_of_le]
  all_goals
    rw [Nat.succ_sub_one] at h1 h2
    rw [Nat.pow_succ]
    omega

theorem toSigned_range {w : Nat} (hw : 0 < w) (x : Nat) :
    -((2 ^ (w - 1) : Nat) : Int) ≤ toSigned w x ∧ toSigned w x < ((2 ^ (w - 1) : Nat) : Int) := by
  obtain ⟨w, rfl⟩ := Nat.exists_eq_succ_of_ne_zero hw.ne'
  have hx : x % 2 ^ (w + 1) < 2 ^ (w + 1) := Nat.mod_lt _ (by positivity)
  rw [toSigned, Nat.succ_sub_one, Nat.succ_eq_add_one]
  rw [Nat.pow_succ] at hx ⊢
  split <;> omega

/-- Sign extension: the bits of the number, then its highest one. -/
theorem testBit_truncW_toSigned {n w k : Nat} (x : Nat) (hk : k < w) :
    (truncW w (toSigned n x)).testBit k = if k < n then x.testBit k else decide (1 ≤ n) && x.testBit (n - 1) := by
  have hext : truncW w (toSigned n x) = ((BitVec.ofNat n x).signExtend w).toNat := by rw [truncW_eq_toNat, toSigned_eq_toInt]; rfl
  rw [hext, BitVec.testBit_toNat, BitVec.getLsbD_signExtend, BitVec.msb_eq_getLsbD_last]
  simp only [hk, decide_true, Bool.true_and, BitVec.getLsbD_ofNat]
  by_cases hkn : k < n
  · simp [hkn]
  · cases n <;> simp [hkn]

/-! ### Shifts (R121) -/

theorem shrSub_lt {w a : Nat} (ha : a < 2 ^ w) (b : Nat) : shrSub w a b < 2 ^ w := (Nat.div_le_self _ _).trans_lt ha

/-- `sar` is the floor of the signed quotient. -/
theorem toSigned_sarSub {w : Nat} (hw : 0 < w) (a b : Nat) :
    toSigned w (sarSub w a b) = (toSigned w a).fdiv ((2 ^ (b % w) : Nat) : Int) := by
  obtain ⟨h1, h2⟩ := toSigned_range hw a
  have hc : (1 : Int) ≤ ((2 ^ (b % w) : Nat) : Int) := by exact_mod_cast Nat.one_le_two_pow
  have hM : (0 : Int) ≤ ((2 ^ (w - 1) : Nat) : Int) := by positivity
  rw [sarSub]
  refine toSigned_truncW hw ?_ ?_ <;> rw [Int.fdiv_eq_ediv_of_nonneg _ (by omega)]
  · rw [Int.le_ediv_iff_mul_le (by omega)]
    nlinarith
  · rw [Int.ediv_lt_iff_lt_mul (by omega)]
    nlinarith

/-- `rot` puts the low bits above the high ones. -/
theorem rotSub_eq {w : Nat} (hw : 0 < w) (a b : Nat) : rotSub w a b = 2 ^ (b % w) * (a % 2 ^ (w - b % w)) + a / 2 ^ (w - b % w) := by
  have hc : b % w < w := Nat.mod_lt _ hw
  have hsplit : 2 ^ w = 2 ^ (b % w) * 2 ^ (w - b % w) := by rw [← Nat.pow_add, Nat.add_sub_cancel' hc.le]
  rw [rotSub, hsplit, Nat.mul_comm a, Nat.mul_mod_mul_left]

theorem testBit_rotSub {w a : Nat} (hw : 0 < w) (ha : a < 2 ^ w) (b : Nat) {k : Nat} (hk : k < w) :
    (rotSub w a b).testBit ((k + b % w) % w) = a.testBit k := by
  have hc : b % w < w := Nat.mod_lt _ hw
  have hhigh : a / 2 ^ (w - b % w) < 2 ^ (b % w) := by
    rw [Nat.div_lt_iff_lt_mul (by positivity), ← Nat.pow_add, Nat.add_sub_cancel' hc.le]
    exact ha
  rw [rotSub_eq hw, Nat.testBit_two_pow_mul_add _ hhigh, Nat.testBit_mod_two_pow, Nat.testBit_div_two_pow]
  by_cases hwrap : k + b % w < w
  · rw [Nat.mod_eq_of_lt hwrap, if_neg (by omega), Nat.add_sub_cancel, decide_eq_true (by omega), Bool.true_and]
  · rw [Nat.mod_eq_sub_mod (by omega), Nat.mod_eq_of_lt (by omega), if_pos (by omega)]
    congr 1
    omega

/-! ### Bit fields (R122) -/

/-- `bfe`: the field's bits, then its highest one for a signed type. -/
theorem testBit_bfeSub (t : ITy) (b : Word) (a : Nat) {k : Nat} (hk : k < t.width) : (bfeSub t b a % 2 ^ t.width).testBit k =
    if k < fieldLen t.width b then a.testBit (field b 0 6 + k)
    else t.signed && decide (1 ≤ fieldLen t.width b) && a.testBit (field b 0 6 + fieldLen t.width b - 1) := by
  rw [Nat.testBit_mod_two_pow, decide_eq_true hk, Bool.true_and, bfeSub]
  generalize fieldLen t.width b = n
  generalize field b 0 6 = pos
  have hfield : ∀ k, (a / 2 ^ pos % 2 ^ n).testBit k = (decide (k < n) && a.testBit (pos + k)) := fun k => by
    rw [Nat.testBit_mod_two_pow, Nat.testBit_div_two_pow, Nat.add_comm]
  split
  · rename_i hsigned
    obtain ⟨hs, hn⟩ := hsigned
    have hlast : pos + (n - 1) = pos + n - 1 := by omega
    rw [testBit_truncW_toSigned _ hk, hfield, hfield, hlast, hs, decide_eq_true hn, decide_eq_true (show n - 1 < n by omega)]
    by_cases hkn : k < n <;> simp [hkn]
  · rename_i hplain
    have hzero : (t.signed && decide (1 ≤ n)) = false := by
      rw [Bool.eq_false_iff]
      simpa using hplain
    rw [hfield, hzero]
    by_cases hkn : k < n <;> simp [hkn]

/-- `bfi`: the low bits of the source between the other bits of the old value. -/
theorem bfiSub_eq (w : Nat) (b : Word) (a d : Nat) : bfiSub w b a d =
    2 ^ field b 0 6 * (2 ^ fieldLen w b * (d / 2 ^ (field b 0 6 + fieldLen w b)) + a % 2 ^ fieldLen w b) + d % 2 ^ field b 0 6 := by
  rw [bfiSub]
  generalize fieldLen w b = n
  generalize field b 0 6 = p
  have hlow := Nat.div_add_mod d (2 ^ p)
  have hhigh := Nat.div_add_mod (d / 2 ^ p) (2 ^ n)
  rw [Nat.div_div_eq_div_mul, ← Nat.pow_add] at hhigh
  generalize d / 2 ^ (p + n) = H at hhigh ⊢
  generalize d / 2 ^ p % 2 ^ n = M at hhigh ⊢
  rw [← hhigh] at hlow
  generalize d % 2 ^ p = l at hlow ⊢
  rw [← hlow]
  have hsum : 2 ^ p * (2 ^ n * H + M) + l = 2 ^ p * (2 ^ n * H) + l + M * 2 ^ p := by ring
  rw [hsum, Nat.add_sub_cancel]
  ring

theorem testBit_bfiSub (w : Nat) (b : Word) (a d : Nat) (k : Nat) : (bfiSub w b a d).testBit k =
    if field b 0 6 ≤ k ∧ k < field b 0 6 + fieldLen w b then a.testBit (k - field b 0 6) else d.testBit k := by
  rw [bfiSub_eq]
  generalize fieldLen w b = n
  generalize field b 0 6 = p
  rw [Nat.testBit_two_pow_mul_add _ (Nat.mod_lt _ (by positivity)), Nat.testBit_two_pow_mul_add _ (Nat.mod_lt _ (by positivity)),
    Nat.testBit_mod_two_pow, Nat.testBit_mod_two_pow, Nat.testBit_div_two_pow]
  by_cases hp : k < p
  · simp [hp]
  by_cases hn : k < p + n
  · have hin : k - p < n := by omega
    simp [hp, hn, hin, Nat.le_of_not_lt hp]
  · have hout : ¬k - p < n := by omega
    have hback : k - p - n + (p + n) = k := by omega
    simp [hp, hn, hout, hback]

/-! ### Counts and reversal (R123) -/

theorem popCount_eq (n x : Nat) : popCount n x = ((List.range n).filter fun k => x.testBit k).length := by
  induction n generalizing x with
  | zero => rfl
  | succ n ih =>
    rw [popCount, ih, List.range_succ_eq_map, List.filter_cons, List.filter_map, Nat.testBit_zero]
    have hrest : ((fun k => x.testBit k) ∘ Nat.succ) = fun k => (x / 2).testBit k := funext fun k => Nat.testBit_succ x k
    obtain h | h := Nat.mod_two_eq_zero_or_one x <;> simp [h, hrest, Nat.add_comm]

theorem popCount_le (n x : Nat) : popCount n x ≤ n := by
  rw [popCount_eq]
  exact (List.length_filter_le _ _).trans List.length_range.le

theorem clzSub_spec (w x : Nat) : clzSub w x ≤ w ∧ (∀ k, k < clzSub w x → x.testBit (w - 1 - k) = false) ∧
    (clzSub w x < w → x.testBit (w - 1 - clzSub w x) = true) := by
  induction w with
  | zero => simp [clzSub]
  | succ w ih =>
    obtain ⟨hle, hzeros, hone⟩ := ih
    have htop : x.testBit w = decide (x / 2 ^ w % 2 = 1) := Nat.testBit_eq_decide_div_mod_eq
    rw [clzSub]
    split
    · rename_i hset
      simp [htop, hset]
    · rename_i hclear
      refine ⟨by omega, fun k hk => ?_, fun hlt => ?_⟩
      · cases k with
        | zero => simp [htop, hclear]
        | succ k =>
          rw [show w + 1 - 1 - (k + 1) = w - 1 - k by omega]
          exact hzeros k (by omega)
      · rw [show w + 1 - 1 - (1 + clzSub w x) = w - 1 - clzSub w x by omega]
        exact hone (by omega)

theorem ctzSub_spec (w x : Nat) : ctzSub w x ≤ w ∧ (∀ k, k < ctzSub w x → x.testBit k = false) ∧
    (ctzSub w x < w → x.testBit (ctzSub w x) = true) := by
  induction w generalizing x with
  | zero => simp [ctzSub]
  | succ w ih =>
    obtain ⟨hle, hzeros, hone⟩ := ih (x / 2)
    rw [ctzSub]
    split
    · rename_i hset
      simp [hset]
    · rename_i hclear
      refine ⟨by omega, fun k hk => ?_, fun hlt => ?_⟩
      · cases k with
        | zero => simp [hclear]
        | succ k =>
          rw [Nat.testBit_succ]
          exact hzeros k (by omega)
      · rw [Nat.add_comm 1, Nat.testBit_succ]
        exact hone (by omega)

theorem brevSub_lt (w x : Nat) : brevSub w x < 2 ^ w := by
  induction w generalizing x with
  | zero => simp [brevSub]
  | succ w ih =>
    have hbit : x % 2 * 2 ^ w ≤ 1 * 2 ^ w := Nat.mul_le_mul_right _ (by omega)
    have hrest := ih (x / 2)
    rw [brevSub, Nat.pow_succ]
    omega

theorem testBit_brevSub {w k : Nat} (x : Nat) (hk : k < w) : (brevSub w x).testBit (w - 1 - k) = x.testBit k := by
  induction w generalizing x k with
  | zero => omega
  | succ w ih =>
    rw [brevSub, Nat.mul_comm, Nat.testBit_two_pow_mul_add _ (brevSub_lt w (x / 2))]
    cases k with
    | zero => simp
    | succ k =>
      rw [if_pos (by omega), Nat.testBit_succ, show w + 1 - 1 - (k + 1) = w - 1 - k by omega]
      exact ih _ (by omega)

/-- A count of bits fits in its sub-element. -/
theorem count_mod {n w : Nat} (h : n ≤ w) : n % 2 ^ w = n := Nat.mod_eq_of_lt (h.trans_lt Nat.lt_two_pow_self)

/-! ### The statement -/

/-- A left shift on whole words. -/
theorem shlSub_whole (u v : Word) : BitVec.ofNat 64 (shlSub 64 u.toNat v.toNat) = u <<< (v.toNat % 64) :=
  BitVec.eq_of_toNat_eq (by simp [shlSub, Nat.shiftLeft_eq])

/-- `bfe` and `bfi` read their second source as a whole word, on the begun device too. -/
theorem fieldSrc_begun {i : Instr} {s : State} {x : Iss} (hx : issue? i s = some x) (t : ITy) (L : Nat) (a : Src) :
    srcVal (begun i x) (x.fib (begun i x)) x.t (.int t) L a = inSrc x t a L := by
  rw [fib_begun hx, srcVal_begun, inSrc]

theorem exec_bfe (h : Hdr) (o : I3) (s : State) : exec (.bfe h o) s = execBfe h o s := rfl

theorem exec_bfi (h : Hdr) (o : I3) (s : State) : exec (.bfi h o) s = execBfi h o s := rfl

/-- Settles O5: each instruction's result in a sub-element by the lemma on its operation. -/
theorem shiftsFieldsAndCounts : Obligations.ShiftsFieldsAndCounts := by
  refine ⟨⟨fun h o => ?_, fun h o => ?_, fun h o => ?_, fun h o => ?_⟩, ⟨fun h o => ?_, fun h o => ?_⟩,
    fun h o => ?_, fun h o => ?_, fun h o => ?_, fun h o => ?_⟩
  · -- `shl`
    refine subWhere_of_int3 (P := fun u v r => r = u * 2 ^ (v % o.t.width) % 2 ^ o.t.width) rfl (fun s => rfl)
      (fun x dv => affShape_fits_subs3 (op := fun u v => u <<< (v.toNat % 64)) (fun hw _ u v => ?_)
        fun _ _ _ _ p q hok hp hq L => affShift_row ?_ L) fun u v _ => Nat.mod_mod _ _
    · simp only [hw, shlSub_whole]
    · simp only [affShl, Bool.and_eq_true] at hok
      exact affOf_of_isU hok.2 hq
  · -- `shr`
    exact subWhere_of_plain (P := fun u v r => r = u / 2 ^ (v % o.t.width)) rfl (fun s => rfl) fun u v hu =>
      Nat.mod_eq_of_lt (shrSub_lt hu v)
  · -- `sar`
    refine subWhere_of_plain (P := fun u v r => toSigned o.t.width r = (toSigned o.t.width u).fdiv ((2 ^ (v % o.t.width) : Nat) : Int)) rfl
      (fun s => rfl) fun u v _ => ?_
    rw [sarSub, truncW_mod]
    exact toSigned_sarSub (width_pos o.t) u v
  · -- `rot`
    refine subWhere_of_plain (P := fun u v r => ∀ k, k < o.t.width → r.testBit ((k + v % o.t.width) % o.t.width) = u.testBit k) rfl
      (fun s => rfl) fun u v hu k hk => ?_
    rw [Nat.testBit_mod_two_pow, decide_eq_true (Nat.mod_lt _ (width_pos o.t)), Bool.true_and]
    exact testBit_rotSub (width_pos o.t) hu v hk
  · -- `bfe`
    refine subWhere_of_subs3 (A := fun x dv L => srcVal dv (x.fib dv) x.t (.int o.t) L o.a) (B := fun _ _ _ => 0) (D := fun _ _ _ => 0)
      (g := fun x dv L u _ _ => bfeSub o.t (srcVal dv (x.fib dv) x.t (.int .n64) L o.b) u) rfl (exec_bfe h o)
      (fun x dv => allU_fits fun hu L M => ?_) fun s x hx L j k hk => ?_
    · rw [srcVal_of_u (a := o.a) (hu _ (by simp)) L M, srcVal_of_u (a := o.b) (hu _ (by simp)) L M]
    · rw [fieldSrc_begun hx, fieldSrc_begun hx]
      exact testBit_bfeSub o.t _ _ hk
  · -- `bfi`
    refine subWhere_of_subs3 (A := fun x dv L => srcVal dv (x.fib dv) x.t (.int o.t) L o.a) (B := fun _ _ _ => 0)
      (D := fun x dv L => regLane dv (x.fib dv) o.d.toNat L)
      (g := fun x dv L u _ d => bfiSub o.t.width (srcVal dv (x.fib dv) x.t (.int .n64) L o.b) u d) rfl (exec_bfi h o)
      (fun x dv => allU_fits fun hu L M => ?_) fun s x hx L j k hk => ?_
    · rw [srcVal_of_u (a := o.a) (hu _ (by simp)) L M, srcVal_of_u (a := o.b) (hu _ (by simp)) L M,
        regLane_of_plainU (hu _ (by simp)) L M]
    · rw [Nat.testBit_mod_two_pow, decide_eq_true hk, Bool.true_and, fieldSrc_begun hx, fieldSrc_begun hx, fib_begun hx, regLane_begun]
      exact testBit_bfiSub o.t.width _ _ _ k
  · -- `popc`
    refine subWhere_of_int2 (P := fun u r => r = ((List.range o.t.width).filter fun k => u.testBit k).length) rfl (fun s => rfl)
      fun u _ => ?_
    rw [count_mod (popCount_le _ _), popCount_eq]
  · -- `clz`
    refine subWhere_of_int2 (P := fun u r => r ≤ o.t.width ∧ (∀ k, k < r → u.testBit (o.t.width - 1 - k) = false) ∧
      (r < o.t.width → u.testBit (o.t.width - 1 - r) = true)) rfl (fun s => rfl) fun u _ => ?_
    rw [count_mod (clzSub_spec _ _).1]
    exact clzSub_spec o.t.width u
  · -- `ctz`
    refine subWhere_of_int2 (P := fun u r => r ≤ o.t.width ∧ (∀ k, k < r → u.testBit k = false) ∧
      (r < o.t.width → u.testBit r = true)) rfl (fun s => rfl) fun u _ => ?_
    rw [count_mod (ctzSub_spec _ _).1]
    exact ctzSub_spec o.t.width u
  · -- `brev`
    refine subWhere_of_int2 (P := fun u r => ∀ k, k < o.t.width → r.testBit (o.t.width - 1 - k) = u.testBit k) rfl (fun s => rfl)
      fun u _ k hk => ?_
    rw [Nat.mod_eq_of_lt (brevSub_lt _ _)]
    exact testBit_brevSub u hk

end Sys2Proof.Machine
end

section
/-!
PROOF of `LogicAndPacking`. The logic instructions act on whole words of the sources they read (R120); bit `i` of `bmix` is sub-element `i`
of width 1. The element that `pack` puts in a sub-element comes from one of the two sources by its place (R128).
-/

namespace Sys2Proof.Machine

/-- A LOGIC INSTRUCTION on two integer sources and the old destination. -/
theorem laneWhere_of_intArgs {i : Instr} {h : Hdr} {t : ITy} {rd : Bool} {d : Reg} {a b : Src} {val : Word → Word → Word → Word}
    {p : Iss → Nat → Word → Prop} (hh : hdrOf i = some h)
    (he : ∀ s, exec i s = issueOn i h s (vecBody d 4 (intShape t rd d a b) fun x dv L =>
      (val (intArgs t d a b x dv L).1 (intArgs t d a b x dv L).2.1 (intArgs t d a b x dv L).2.2, 0)))
    (hrd : rd = false → ∀ u v w w', val u v w = val u v w')
    (hp : ∀ x L, p x L (val (inSrc x t a L) (inSrc x t b L) (inReg x d L))) : LaneWhere i d 4 p := by
  refine laneWhere_of_vecBody hh he (fun _ _ _ => rfl) (fun _ _ => intShape_fits val hrd) fun s x hx L _ => ?_
  simp only [intArgs_begun hx]
  exact hp x L

/-- A bit of a word is its sub-element of width 1. -/
theorem getLsbD_eq_sub (v : Word) (k : Nat) : v.getLsbD k = decide (sub v 1 k = 1) := by
  rw [← BitVec.testBit_toNat, Nat.testBit_eq_decide_div_mod_eq, sub, Nat.one_mul, Nat.pow_one]

/-- A bit of `bmix` is looked up in its truth table. -/
theorem getLsbD_bmixVal (tt : BitVec 8) (a b d : Word) {k : Nat} (hk : k < 64) : (bmixVal tt a b d).getLsbD k =
    tt.getLsbD (4 * (b.getLsbD k).toNat + 2 * (a.getLsbD k).toNat + (d.getLsbD k).toNat) := by
  rw [getLsbD_eq_sub, bmixVal, sub_ofSubs_map (w := 1) _ hk, Nat.mul_comm 4, Nat.mul_comm 2]
  cases tt.getLsbD _ <;> rfl

/-! ### Packing (R128) -/

/-- What `pack` puts in sub-element `j`. -/
def packElem (t : ITy) (sat : Bool) (a b : Word) (j : Nat) : Nat × Word :=
  intRes t sat (intVal (ITy.wide t) (sub (if j < 32 / t.width then a else b) (2 * t.width) (j % (32 / t.width))))

/-- The element is that of the source which the place names, cut or clamped to the narrow type. -/
theorem packElem_eq (x : Iss) (t : ITy) (sat : Bool) (a b : Src) (L j : Nat) :
    packElem t sat (inSrc x (ITy.wide t) a L) (inSrc x (ITy.wide t) b L) j =
      let e := intVal (ITy.wide t) (sub (inSrc x (ITy.wide t) (if j < 32 / t.width then a else b) L) (2 * t.width) (j % (32 / t.width)))
      (truncW t.width (if sat then satTo t e else e), if sat = true ∧ satTo t e ≠ e then fIO else 0) := by
  rw [packElem, ← apply_ite (fun c => inSrc x (ITy.wide t) c L)]
  cases sat <;> simp [intRes]

/-- `pack` puts its elements in order. -/
theorem packVal_eq {t : ITy} (ht : t.width ≤ 32) (sat : Bool) (a b : Word) : packVal t sat a b =
    (BitVec.ofNat 64 (ofSubs t.width ((List.range (64 / t.width)).map fun j => (packElem t sat a b j).1)),
      (List.range (64 / t.width)).foldl (fun m j => m ||| (packElem t sat a b j).2) 0) := by
  have hn : 64 / t.width = 32 / t.width + 32 / t.width := by
    cases t with
    | i64 => exact absurd ht (by decide)
    | n64 => exact absurd ht (by decide)
    | _ => rfl
  have hlow : ∀ j, j ∈ List.range (32 / t.width) → packElem t sat a b j = intRes t sat (intVal (ITy.wide t) (sub a (2 * t.width) j)) := by
    intro j hj
    have hj' := List.mem_range.1 hj
    rw [packElem, if_pos hj', Nat.mod_eq_of_lt hj']
  have hhigh : ∀ j, j ∈ List.range (32 / t.width) →
      packElem t sat a b (32 / t.width + j) = intRes t sat (intVal (ITy.wide t) (sub b (2 * t.width) j)) := by
    intro j hj
    rw [packElem, if_neg (by omega), Nat.add_mod_left, Nat.mod_eq_of_lt (List.mem_range.1 hj)]
  have hall : ((List.range (32 / t.width)).map fun j => intRes t sat (intVal (ITy.wide t) (sub a (2 * t.width) j))) ++
      ((List.range (32 / t.width)).map fun j => intRes t sat (intVal (ITy.wide t) (sub b (2 * t.width) j))) =
      (List.range (64 / t.width)).map (packElem t sat a b) := by
    rw [hn, List.range_add, List.map_append, List.map_map, List.map_congr_left hlow, ← List.map_congr_left hhigh]
    rfl
  rw [packVal]
  dsimp only
  rw [hall, List.map_map, List.foldl_map]
  rfl

theorem exec_pack (h : Hdr) (o : I3s) (s : State) : exec (.pack h o) s = execPack h o s := rfl

/-- `pack` in each lane. -/
theorem subResult_pack (h : Hdr) (o : I3s) (ht : o.t.width ≤ 32) : SubResult (.pack h o) o.t.width o.d 4 fun x L j =>
    packElem o.t o.sat (inSrc x (ITy.wide o.t) o.a L) (inSrc x (ITy.wide o.t) o.b L) j := by
  intro s x hx
  have hlands := vecBody_lands rfl hx (exec_pack h o s)
  have hval : ∀ L, packVal o.t o.sat (intArgs (ITy.wide o.t) o.d o.a o.b x (begun (.pack h o) x) L).1
      (intArgs (ITy.wide o.t) o.d o.a o.b x (begun (.pack h o) x) L).2.1 =
      packVal o.t o.sat (inSrc x (ITy.wide o.t) o.a L) (inSrc x (ITy.wide o.t) o.b L) := fun L => by rw [intArgs_begun hx]; rfl
  refine ⟨_, _, hlands, fun L hL j hj => ?_, fun n => ?_⟩
  · rw [laneVal_outReg_of_fits hx (intShape_fits (fun u v _ => (packVal o.t o.sat u v).1) fun _ _ _ _ _ => rfl) hL, hval, packVal_eq ht,
      sub_ofSubs_map _ hj]
  · simp only [getLsbD_laneFlags, hval, packVal_eq ht, getLsbD_union, List.mem_range]
    exact ⟨fun ⟨L, hL, j, hj, hb⟩ => ⟨L, j, hL, hj, hb⟩, fun ⟨L, j, hL, hj, hb⟩ => ⟨L, hL, j, hj, hb⟩⟩

/-- A widened half of a source, from sub-element `k0` up. -/
theorem subWhere_of_unpk {i : Instr} {h : Hdr} {t : ITy} {d : Reg} {a : Src} {k0 : Nat} (hh : hdrOf i = some h)
    (he : ∀ s, exec i s = issueOn i h s (vecBody d 4 (intShape1 t a) fun x dv L =>
      (unpkVal t k0 (srcVal dv (x.fib dv) x.t (.int t) L a), 0))) :
    SubWhere i (2 * t.width) d 4 fun x L k r => r = truncW (2 * t.width) (srcInt x t a L (k0 + k)) := by
  refine laneWhere_of_vecBody hh (p := fun x L v => ∀ k, k < 64 / (2 * t.width) →
    sub v (2 * t.width) k = truncW (2 * t.width) (srcInt x t a L (k0 + k))) he (fun _ _ _ => rfl)
    (fun _ _ => intShape1_fits (unpkVal t k0)) fun s x hx L _ k hk => ?_
  rw [unpkVal, mapSubs, nsub, sub_ofSubs_map _ hk, truncW_mod, fib_begun hx, srcVal_begun]
  rfl

theorem exec_not (h : Hdr) (o : I2) (s : State) : exec (.not h o) s = execNot h o s := rfl

/-- Settles O4: the logic instructions by the lemma on two sources, `not` by its one; packing and unpacking by theirs. -/
theorem logicAndPacking : Obligations.LogicAndPacking := by
  refine ⟨⟨fun h o => ?_, fun h o => ?_, fun h o => ?_, fun h o => ?_, fun h tt o => ?_⟩, fun h o ht => ?_, fun h o _ => ?_,
    fun h o _ => ?_⟩
  · exact laneWhere_of_intArgs (val := fun u v _ => u &&& v) rfl (fun s => rfl) (fun _ _ _ _ _ => rfl) fun _ _ => rfl
  · exact laneWhere_of_intArgs (val := fun u v _ => u ||| v) rfl (fun s => rfl) (fun _ _ _ _ _ => rfl) fun _ _ => rfl
  · exact laneWhere_of_intArgs (val := fun u v _ => u ^^^ v) rfl (fun s => rfl) (fun _ _ _ _ _ => rfl) fun _ _ => rfl
  · refine laneWhere_of_vecBody rfl (exec_not h o) (fun _ _ _ => rfl) (fun _ _ => intShape1_fits (~~~·)) fun s x hx L _ => ?_
    rw [fib_begun hx, srcVal_begun]
    rfl
  · exact laneWhere_of_intArgs (val := bmixVal tt) rfl (fun s => rfl) (fun h => nomatch h) fun x L k hk => getLsbD_bmixVal tt _ _ _ hk
  · simpa only [packElem_eq] using subResult_pack h o ht
  · simpa using subWhere_of_unpk (i := .unpkLo h o) (k0 := 0) rfl fun s => rfl
  · exact subWhere_of_unpk rfl fun s => rfl

end Sys2Proof.Machine
end

section
/-!
PROOF of `MovesSelectsAndAddresses`. A move keeps its source's shape, which fits the source's values under every type (R55, R76); `movh`
puts bits into a word that is the same in every lane (R124).
-/

namespace Sys2Proof.Machine

/-- A source's own shape fits its values. -/
theorem srcShape_fits (d : Dev) (f : Fibre) (tm : Team) (t : ITy) (a : Src) :
    (srcShape d f (.int t) a).Fits fun L => srcVal d f tm (.int t) L a := by
  refine ⟨fun hu L M => srcVal_of_u (by rw [hu]; rfl) L M, fun b st ha L => ?_⟩
  by_cases hw : t.width = 64
  · exact srcVal_of_a hw ha L
  · -- beside a narrow type only a register without modifiers, or the lane's number, counts as A
    cases a with
    | imm v => cases ha
    | sr n => exact srcVal_of_a (t := .n64) (a := .sr n) rfl (by cases n <;> exact ha) L
    | reg r =>
      cases hv : regOf d f r.idx.toNat with
      | u y => rw [srcShape, hv] at ha; cases hp : r.pat <;> simp [regShape, hp] at ha
      | g vs => rw [srcShape, hv] at ha; cases hp : r.pat <;> simp [regShape, hp] at ha
      | a b' s' =>
        cases habs : r.abs with
        | true => rw [srcShape, hv] at ha; cases hp : r.pat <;> simp [regShape, hp, habs] at ha
        | false =>
          cases hneg : r.neg with
          | false => exact srcReg_of_a hneg habs ha L
          | true =>
            rw [srcShape, hv] at ha
            cases hp : r.pat <;> simp [regShape, hp, habs, hneg] at ha
            cases t with
            | i64 => exact absurd rfl hw
            | n64 => exact absurd rfl hw
            | _ => cases ha

/-- An immediate is its sign-extension in every sub-element (R52). -/
theorem sub_immVal (t : ITy) (v : BitVec 22) {j : Nat} (hj : j < 64 / t.width) :
    sub (immVal (.int t) v) t.width j = truncW t.width v.toInt := by
  have hsign : toSigned 22 v.toNat = v.toInt := by rw [toSigned_eq_toInt, BitVec.ofNat_toNat, BitVec.setWidth_eq]
  rw [immVal, mapSubs, nsub, sub_ofSubs_map _ hj, sextTo64, hsign, Nat.mod_mod, truncW_eq_toNat, BitVec.toNat_ofInt, BitVec.toNat_ofInt]
  cases t <;> simp only [ITy.width] <;> omega

section
variable {i : Instr} {h : Hdr} {d a : Reg} {g : Word → Word} {s : State} {x : Iss} (hh : hdrOf i = some h) (hx : issue? i s = some x)
  (he : exec i s = issueOn i h s (movhBody d a g))
include hh hx he

/-- `movh` with a source that does not count as U is illegal when some lane is active. -/
theorem movh_illegal (hu : x.act ≠ 0 ∧ plainShape s.dev x.f a.toNat ≠ .u) :
    exec i s = .next (finish x (.trap s.dev ⟨2, 0, 0, x.act, 0⟩)) := by
  rw [he]
  refine issueOn_outcome hh hx ?_
  rw [movhBody, fib_begun hx, plainShape_begun, issue?_s hx, if_pos hu, illegal_active hu.1, issue?_s hx]

/-- Otherwise it writes one word, which has the bits that `g` gives to the source's. -/
theorem movh_lands (hu : ¬(x.act ≠ 0 ∧ plainShape s.dev x.f a.toNat ≠ .u)) :
    ∃ w, Lands i s x d.toNat 4 (.u w) 0 ∧ ∀ L, x.act.has L = true → w = g (inReg x a L) := by
  have hbody : movhBody d a g x (begun i x) =
      vecBody d 4 (fun _ _ => .u) (fun x dv L => (g (regLane dv (x.fib dv) a.toNat L), 0)) x (begun i x) := by
    rw [movhBody, fib_begun hx, plainShape_begun, issue?_s hx, if_neg hu]
  have hlands : Lands i s x d.toNat 4 (outReg x .u fun L => g (regLane (begun i x) (x.fib (begun i x)) a.toNat L))
      (laneFlags x fun _ => 0) := by
    refine he.trans (issueOn_answers hh hx (hbody.trans ?_))
    rw [vecBody, putVec, fib_begun hx]
  rw [laneFlags_zero] at hlands
  refine ⟨_, hlands, fun L hL => ?_⟩
  have hshape : (plainShape x.s.dev x.f a.toNat).isU = true := by
    have hu' := Classical.not_not.1 fun hne => hu ⟨ne_zero_of_has hL, hne⟩
    rw [issue?_s hx, hu']
    rfl
  simp only [fib_begun hx, regLane_begun, inReg]
  rw [regLane_of_plainU hshape _ L]

end

/-- A word with some of its bits replaced: those that the mask clears. -/
theorem getLsbD_replaceBits {n lo b : Nat} (w m : Word) (v : BitVec n) (hb : b < 64) (hm : m.getLsbD b = !decide (lo ≤ b ∧ b < lo + n)) :
    ((w &&& m) ||| (v.setWidth 64 <<< lo)).getLsbD b = if lo ≤ b ∧ b < lo + n then v.getLsbD (b - lo) else w.getLsbD b := by
  rw [BitVec.getLsbD_or, BitVec.getLsbD_and, BitVec.getLsbD_shiftLeft, BitVec.getLsbD_setWidth, hm]
  by_cases hlow : lo ≤ b
  · by_cases hhigh : b < lo + n
    · simp [hlow, hhigh, hb, show b - lo < 64 by omega]
    · simp [hlow, hhigh, BitVec.getLsbD_of_ge v (b - lo) (by omega)]
  · simp [hlow, Nat.lt_of_not_le hlow]

theorem getLsbD_movhM (w : Word) (v : BitVec 22) {b : Nat} (hb : b < 64) :
    ((w &&& 0xFFFFF000003FFFFF#64) ||| (v.setWidth 64 <<< 22)).getLsbD b = if 22 ≤ b ∧ b < 44 then v.getLsbD (b - 22) else w.getLsbD b :=
  getLsbD_replaceBits w _ v hb (by revert b; decide)

theorem getLsbD_movhH (w : Word) (v : BitVec 20) {b : Nat} (hb : b < 64) :
    ((w &&& 0x00000FFFFFFFFFFF#64) ||| (v.setWidth 64 <<< 44)).getLsbD b = if 44 ≤ b then v.getLsbD (b - 44) else w.getLsbD b := by
  rw [getLsbD_replaceBits w _ v hb (by revert b; decide)]
  simp only [hb, and_true]

theorem exec_isel (h : Hdr) (p : BitVec 4) (o : I3) (s : State) : exec (.isel h p o) s = execIsel h p o s := rfl

theorem exec_mov (h : Hdr) (o : I2) (s : State) : exec (.mov h o) s = execMov h o s := rfl

theorem exec_movi (h : Hdr) (t : ITy) (d : Reg) (v : BitVec 22) (s : State) : exec (.movi h t d v) s = execMovi h t d v s := rfl

/-- Settles O3: `isel` and the moves by the lemmas on bodies and shapes, `lea` by that on two sources, `movh` by its two cases. -/
theorem movesSelectsAndAddresses : Obligations.MovesSelectsAndAddresses := by
  refine ⟨fun h p o => ?_, fun h o => ?_, fun h o => ?_, fun h t d v => ?_, fun h d a v s x hx => ?_, fun h d a v s x hx => ?_⟩
  · refine laneWhere_of_vecBody rfl (exec_isel h p o) (fun _ _ _ => rfl) (fun _ _ => g_fits _) fun s x hx L _ => ?_
    simp only [intArgs_begun hx, fib_begun hx, predLane_begun]
    rfl
  · exact laneWhere_of_intArgs (val := fun u v _ => u + v <<< o.k.toNat) rfl (fun s => rfl) (fun _ _ _ _ _ => rfl) fun _ _ => rfl
  · refine laneWhere_of_vecBody rfl (exec_mov h o) (fun _ _ _ => rfl) (fun x dv => srcShape_fits dv (x.fib dv) x.t o.t o.a)
      fun s x hx L _ => ?_
    rw [fib_begun hx, srcVal_begun]
    rfl
  · exact laneWhere_of_vecBody rfl (p := fun _ _ w => ∀ j, j < 64 / t.width → sub w t.width j = truncW t.width v.toInt) (exec_movi h t d v)
      (fun _ _ _ => rfl) (fun _ _ => u_fits _) fun s x _ L _ j hj => sub_immVal t v hj
  · split
    · exact movh_illegal rfl hx rfl ‹_›
    · obtain ⟨w, hlands, hw⟩ := movh_lands (i := .movhM h d a v) rfl hx rfl ‹_›
      exact ⟨w, hlands, fun L hL b hb => by rw [hw L hL, getLsbD_movhM _ v hb]⟩
  · split
    · exact movh_illegal rfl hx rfl ‹_›
    · obtain ⟨w, hlands, hw⟩ := movh_lands (i := .movhH h d a v) rfl hx rfl ‹_›
      exact ⟨w, hlands, fun L hL b hb => by rw [hw L hL, getLsbD_movhH _ v hb]⟩

end Sys2Proof.Machine
end

section
/-!
PROOF of `ComparesGiveTheirCondition`. A compare's body gives every sub-element its condition and its flags, whichever kind its destination
is; the conditions of R118 and R133 are then compared with the tables value by value.
-/

namespace Sys2Proof.Machine

/-- A COMPARE on two values of each lane: its condition and its flags in a sub-element are those of `c`. -/
theorem compareResult_of_cmpBody {i : Instr} {h : Hdr} {dst : CmpDst} {w lat : Nat} {us : Iss → Dev → Bool}
    {val : Iss → Dev → Nat → Word × Word} {c : Nat → Nat → Bool × Word} {C : Iss → Nat → Nat → Bool} {fl : Iss → Nat → Nat → Word}
    (hh : hdrOf i = some h) (he : ∀ s, exec i s = issueOn i h s (cmpBody dst w lat us val c))
    (hus : ∀ x dv, us x dv = true → ∀ L M, val x dv L = val x dv M)
    (hc : ∀ s x, issue? i s = some x → ∀ L j, c (sub (val x (begun i x) L).1 w j) (sub (val x (begun i x) L).2 w j) = (C x L j, fl x L j)) :
    CompareResult i dst w lat C fl := by
  intro s x hx
  have hflags : ∀ b, (laneFlags x fun L => ((List.range (nsub w)).map fun j => c (sub (val x (begun i x) L).1 w j)
      (sub (val x (begun i x) L).2 w j)).foldl (fun m r => m ||| r.2) 0).getLsbD b = true ↔
      ∃ L j, x.act.has L = true ∧ j < 64 / w ∧ (fl x L j).getLsbD b = true := fun b => by
    simp only [hc s x hx, List.foldl_map, getLsbD_laneFlags, getLsbD_union, List.mem_range, nsub]
    exact ⟨fun ⟨L, hL, j, hj, hb⟩ => ⟨L, j, hL, hj, hb⟩, fun ⟨L, j, hL, hj, hb⟩ => ⟨L, hL, j, hj, hb⟩⟩
  refine ⟨_, hflags, ?_⟩
  cases dst with
  | pred p any =>
    simp only [cmpBody] at he
    have hlands := predBody_lands hh hx (he s)
    refine ⟨_, hlands, fun L _ => ?_⟩
    simp only [hc s x hx]
    cases any <;> simp [nsub]
  | vec d =>
    simp only [cmpBody] at he
    have hlands := vecBody_lands hh hx (he s)
    refine ⟨_, hlands, fun L hL j hj => ?_⟩
    have hfit : (allU [us x (begun i x)]).Fits fun L => BitVec.ofNat 64 (ofSubs w (((List.range (nsub w)).map fun j =>
        c (sub (val x (begun i x) L).1 w j) (sub (val x (begun i x) L).2 w j)).map fun r => if r.1 then 2 ^ w - 1 else 0)) :=
      allU_fits fun hu L M => by rw [hus x _ (hu _ (by simp)) L M]
    rw [laneVal_outReg_of_fits hx hfit hL]
    simp only [hc s x hx, List.map_map, nsub]
    rw [sub_ofSubs_map _ hj]
    have hpow : 0 < 2 ^ w := by positivity
    cases hC : C x L j with
    | false => simp [hC]
    | true => simp [hC, Nat.mod_eq_of_lt (Nat.sub_lt hpow one_pos)]

/-- The conditions of R118. -/
theorem iCond_eq (c : ICond) (u v : Int) : iCond c u v = match c with
    | .eq => decide (u = v)
    | .ne => decide (u ≠ v)
    | .lt => decide (u < v)
    | .le => decide (u ≤ v)
    | .gt => decide (u > v)
    | .ge => decide (u ≥ v) := by
  cases c with
  | eq => rfl
  | ne => simp only [iCond, bne, decide_not]; rfl
  | lt | le | gt | ge => rfl

theorem isNaN_of_isS {v : FVal} (h : v.isS = true) : v.isNaN = true := by
  cases v with
  | nan => rfl
  | inf => cases h
  | fin => cases h

/-- The conditions of R133 and what they raise: a signalling NaN always, any NaN under an ordering condition. -/
theorem fcmpR_eq (t : FTy) (ftz : Bool) (c : FCond) (p q : Nat) : fcmpR t ftz c p q =
    let u := fval t ftz p
    let v := fval t ftz q
    let un := u.isNaN || v.isNaN
    let cond := match c with
      | .eq => !un && !fless false u v && !fless false v u
      | .ne => un || fless false u v || fless false v u
      | .lt => !un && fless false u v
      | .le => !un && !fless false v u
      | .gt => !un && fless false v u
      | .ge => !un && !fless false u v
      | .un => un
      | .ord => !un
    let loud := match c with
      | .lt | .le | .gt | .ge => true
      | .eq | .ne | .un | .ord => false
    (cond, if u.isS || v.isS || (loud && (u.isNaN || v.isNaN)) then fNV else 0) := by
  -- a signalling NaN is a NaN
  have hs : ((fval t ftz p).isS || (fval t ftz q).isS || ((fval t ftz p).isNaN || (fval t ftz q).isNaN)) =
      ((fval t ftz p).isNaN || (fval t ftz q).isNaN) := by
    have hu := @isNaN_of_isS (fval t ftz p)
    have hv := @isNaN_of_isS (fval t ftz q)
    grind
  cases c with
  | eq => simp [fcmpR, feq, Bool.and_assoc]
  | ne => simp [fcmpR, feq, Bool.or_assoc]
  | lt | le | gt | ge => simp only [fcmpR, Bool.true_and, hs]
  | un | ord => simp [fcmpR]

theorem exec_icmp (h : Hdr) (t : ITy) (c : ICond) (d : CmpDst) (a b : Src) (s : State) :
    exec (.icmp h t c d a b) s = execIcmp h t c d a b s := rfl

theorem exec_fcmp (h : Hdr) (t : FTy) (ftz : Bool) (c : FCond) (d : CmpDst) (a b : FSrc) (s : State) :
    exec (.fcmp h t ftz c d a b) s = execFcmp h t ftz c d a b s := rfl

/-- Settles O6: both by the lemma on compares; a source that counts as U has one value. -/
theorem comparesGiveTheirCondition : Obligations.ComparesGiveTheirCondition := by
  refine ⟨fun h t c d a b => ?_, fun h t ftz c d a b => ?_⟩
  · refine compareResult_of_cmpBody rfl (exec_icmp h t c d a b) (fun x dv hu L M => ?_) fun s x hx L j => ?_
    · obtain ⟨ha, hb⟩ := Bool.and_eq_true_iff.1 hu
      rw [srcVal_of_u ha L M, srcVal_of_u hb L M]
    · rw [fib_begun hx, srcVal_begun, srcVal_begun, iCond_eq]
      rfl
  · refine compareResult_of_cmpBody rfl (exec_fcmp h t ftz c d a b) (fun x dv hu L M => ?_) fun s x hx L j => ?_
    · obtain ⟨ha, hb⟩ := Bool.and_eq_true_iff.1 hu
      rw [fsrcVal_of_u ha L M, fsrcVal_of_u hb L M]
    · rw [fib_begun hx, fsrcVal_begun, fsrcVal_begun, fcmpR_eq]
      rfl

end Sys2Proof.Machine
end

section
/-!
PROOF of `PredicatesVotesAndMatches`. Predicate logic and the moves read each lane's predicates on the begun device as before the issue
(R126, R127); votes and matches are masks of the active lanes (R100).
-/

namespace Sys2Proof.Machine

/-- A predicate source reads as before the issue. -/
theorem pval_begun {i : Instr} {s : State} {x : Iss} (hx : issue? i s = some x) (p : POp) (L : Nat) :
    pval (x.fib (begun i x)) p L = inPred x p L := by
  rw [fib_begun hx, pval, predLane_begun, inPred]

/-- The lanes of a vote are the active ones in which its predicate holds. -/
theorem has_voteLanes {i : Instr} {s : State} {x : Iss} (hx : issue? i s = some x) (p : POp) (M : Nat) :
    (voteLanes x (begun i x) p).has M = (x.act.has M && inPred x p M) := by
  simp only [voteLanes, has_lanesWhere, pval_begun hx]
  cases hM : x.act.has M with
  | false => simp
  | true => simp [lt_of_has hM]

/-- A match's operand reads as before the issue. -/
theorem matchVal_begun {i : Instr} {s : State} {x : Iss} (hx : issue? i s = some x) (a : RegPat) (L : Nat) :
    matchVal x (begun i x) a L = srcReg x.s.dev x.f ⟨a.idx, a.pat, false, false⟩ (.int .n64) L := by
  rw [matchVal, fib_begun hx, srcReg_begun]

/-- Masks are equal when they hold the same lanes. -/
theorem mask_ext {m n : LaneMask} (h : ∀ L, m.has L = n.has L) : m = n := BitVec.eq_of_getLsbD_eq fun L _ => h L

/-- Some lane of the vote. -/
theorem voteLanes_ne_zero_iff {i : Instr} {s : State} {x : Iss} (hx : issue? i s = some x) (p : POp) :
    (voteLanes x (begun i x) p != 0) = true ↔ ∃ M, x.act.has M = true ∧ inPred x p M = true := by
  rw [bne_iff_ne]
  constructor
  · intro hne
    by_contra hno
    refine hne (eq_zero_of_has fun M => ?_)
    rw [has_voteLanes hx, Bool.and_eq_false_iff]
    by_contra hc
    simp only [not_or, Bool.not_eq_false] at hc
    exact hno ⟨M, hc⟩
  · rintro ⟨M, hM, hp⟩
    exact ne_zero_of_has (L := M) (by rw [has_voteLanes hx, hM, hp]; rfl)

/-- Every active lane of the vote. -/
theorem voteLanes_eq_act_iff {i : Instr} {s : State} {x : Iss} (hx : issue? i s = some x) (p : POp) :
    (voteLanes x (begun i x) p == x.act) = true ↔ ∀ M, x.act.has M = true → inPred x p M = true := by
  rw [beq_iff_eq]
  constructor
  · intro heq M hM
    have hv := has_voteLanes hx p M
    rw [heq, hM] at hv
    simpa using hv.symm
  · intro hall
    refine mask_ext fun M => ?_
    rw [has_voteLanes hx]
    cases hM : x.act.has M with
    | false => rfl
    | true => simp [hall M hM]

/-- An integer source of the begun fibre, on the device before. -/
theorem srcVal_begunFib (i : Instr) (x : Iss) (tm : Team) (t : NTy) (L : Nat) (a : Src) :
    srcVal x.s.dev (begunFib i x) tm t L a = srcVal x.s.dev x.f tm t L a := by
  rw [← srcVal_begun i x]
  cases a with
  | reg r => simp only [srcVal, srcReg, regLane, regOf, begun_group]
  | imm v => rfl
  | sr n => cases n <;> simp only [srcVal, sregLane, begun_ctx]

/-- `p2v.all` writes the 24 predicates of a lane. -/
theorem getLsbD_predBits (f : Fibre) (L : Nat) {k : Nat} (hk : k < 64) :
    ((f.thread L).preds.setWidth 64).getLsbD k = (decide (k < 24) && predLane f k L) := by
  rw [BitVec.getLsbD_setWidth, decide_eq_true hk, Bool.true_and, predLane]
  by_cases hp : k < 24
  · simp [hp, show k ≠ 31 by omega]
  · simp [hp, BitVec.getLsbD_of_ge _ k (Nat.le_of_not_lt hp)]

theorem exec_plop (h : Hdr) (tt : BitVec 4) (d : PredIdx) (a b : POp) (s : State) : exec (.plop h tt d a b) s = execPlop h tt d a b s := rfl
theorem exec_p2v (h : Hdr) (d : Reg) (a : POp) (s : State) : exec (.p2v h d a) s = execP2v h d a s := rfl
theorem exec_p2vAll (h : Hdr) (d : Reg) (s : State) : exec (.p2vAll h d) s = execP2vAll h d s := rfl
theorem exec_v2p (h : Hdr) (d : PredIdx) (a : Src) (s : State) : exec (.v2p h d a) s = execV2p h d a s := rfl
theorem exec_v2pAll (h : Hdr) (a : Src) (s : State) : exec (.v2pAll h a) s = execV2pAll h a s := rfl
theorem exec_voteAny (h : Hdr) (d : PredIdx) (p : POp) (s : State) : exec (.voteAny h d p) s = execVoteAny h d p s := rfl
theorem exec_voteAll (h : Hdr) (d : PredIdx) (p : POp) (s : State) : exec (.voteAll h d p) s = execVoteAll h d p s := rfl
theorem exec_voteMask (h : Hdr) (d : Reg) (p : POp) (s : State) : exec (.voteMask h d p) s = execVoteMask h d p s := rfl
theorem exec_matchAny (h : Hdr) (d : Reg) (a : RegPat) (s : State) : exec (.matchAny h d a) s = execMatchAny h d a s := rfl
theorem exec_matchAll (h : Hdr) (d : PredIdx) (a : RegPat) (s : State) : exec (.matchAll h d a) s = execMatchAll h d a s := rfl

/-- Settles O7: predicate logic and moves by the lemmas on bodies, votes and matches by the masks they are. -/
theorem predicatesVotesAndMatches : Obligations.PredicatesVotesAndMatches := by
  refine ⟨⟨fun h tt d a b => ?_, fun h d a => ?_, fun h d => ?_, fun h d a => ?_, fun h a s x hx => ?_⟩,
    fun h d p => ?_, fun h d p => ?_, fun h d p => ?_, fun h d a => ?_, fun h d a => ?_⟩
  · -- `plop`
    refine predWhere_of_predBody rfl (exec_plop h tt d a b) (fun _ _ _ => rfl) fun s x hx L _ => ?_
    rw [pval_begun hx, pval_begun hx, Nat.mul_comm]
  · -- `p2v`
    refine laneWhere_of_vecBody rfl (exec_p2v h d a) (fun _ _ _ => rfl) (fun _ _ => g_fits _) fun s x hx L _ => ?_
    rw [pval_begun hx]
  · -- `p2v.all`
    refine laneWhere_of_vecBody rfl (exec_p2vAll h d) (fun _ _ _ => rfl) (fun _ _ => g_fits _) fun s x hx L _ k hk => ?_
    rw [fib_begun hx, getLsbD_predBits _ _ hk, predLane_begun]
  · -- `v2p`
    refine predWhere_of_predBody rfl (exec_v2p h d a) (fun _ _ _ => rfl) fun s x hx L _ => ?_
    rw [fib_begun hx, srcVal_begun]
    exact Bool.eq_iff_iff.2 (bne_iff_ne.trans decide_eq_true_iff.symm)
  · -- `v2p.all`
    refine (exec_v2pAll h a s).trans (issueOn_answers rfl hx ?_)
    simp only [onFibre, fib_begun hx, srcVal_begunFib, inSrc]
  · -- `vote.any`
    exact predWhere_of_predBody rfl (exec_voteAny h d p) (fun _ _ _ => rfl) fun s x hx _ _ => voteLanes_ne_zero_iff hx p
  · -- `vote.all`
    exact predWhere_of_predBody rfl (exec_voteAll h d p) (fun _ _ _ => rfl) fun s x hx _ _ => voteLanes_eq_act_iff hx p
  · -- `vote.mask`
    exact laneWhere_of_vecBody rfl (exec_voteMask h d p) (fun _ _ _ => rfl) (fun _ _ => g_fits _) fun s x hx _ _ M _ => has_voteLanes hx p M
  · -- `match.any`
    refine laneWhere_of_vecBody rfl (exec_matchAny h d a) (fun _ _ _ => rfl) (fun _ _ => g_fits _) fun s x hx L _ M hM => ?_
    refine (has_lanesWhere _ M).trans ?_
    rw [decide_eq_true hM, Bool.true_and, matchVal_begun hx, matchVal_begun hx]
    rfl
  · -- `match.all`
    refine predWhere_of_predBody rfl (exec_matchAll h d a) (fun _ _ _ => rfl) fun s x hx L hL => ?_
    simp only [List.all_eq_true, Iss.lanes, mem_lanes, beq_iff_eq, matchVal_begun hx]
    exact ⟨fun hall M N hM hN => (hall M hM).trans (hall N hN).symm, fun hall M hM => hall M L hM hL⟩

end Sys2Proof.Machine
end

section
/-!
SUPPORT. Results of a lane sub-element by sub-element, with the flags that each raises (R23, R32): what a body that writes one register, and
one that sends its result on its way, come to; and the shapes of float results, which fit their lanes' values (R55, R76).
-/

namespace Sys2Proof.Machine

/-! ### A lane's sub-elements with their flags -/

/-- A lane's value from its sub-elements of width `w`, and the union of their flags. -/
def laneRes (w : Nat) (f : Nat → Nat × Word) : Word × Word :=
  (BitVec.ofNat 64 (ofSubs w ((List.range (64 / w)).map fun j => (f j).1)), (List.range (64 / w)).foldl (fun m j => m ||| (f j).2) 0)

theorem sub_laneRes {w j : Nat} (f : Nat → Nat × Word) (hj : j < 64 / w) : sub (laneRes w f).1 w j = (f j).1 % 2 ^ w := sub_ofSubs_map _ hj

theorem getLsbD_laneRes {w b : Nat} (f : Nat → Nat × Word) :
    (laneRes w f).2.getLsbD b = true ↔ ∃ j, j < 64 / w ∧ (f j).2.getLsbD b = true := by
  simp only [laneRes, getLsbD_union, List.mem_range]

/-- The form in which the model computes it: a list of results, then their values and flags. -/
theorem laneRes_of_map (w : Nat) (f : Nat → Nat × Word) :
    (BitVec.ofNat 64 (ofSubs w (((List.range (nsub w)).map f).map Prod.fst)), ((List.range (nsub w)).map f).foldl (fun m r => m ||| r.2) 0) =
      laneRes w f := by
  rw [List.map_map, List.foldl_map]
  rfl

/-- A sub-element operation on three words. -/
theorem subs3_eq_laneRes (w : Nat) (g : Nat → Nat → Nat → Nat × Word) (a b d : Word) :
    subs3 w g a b d = laneRes w fun j => g (sub a w j) (sub b w j) (sub d w j) := laneRes_of_map w _

/-- The flags of the active lanes are those of their sub-elements. -/
theorem getLsbD_laneFlags_laneRes {x : Iss} {w : Nat} {val : Nat → Word × Word} {res : Nat → Nat → Nat × Word}
    (hval : ∀ L, val L = laneRes w (res L)) (b : Nat) : (laneFlags x fun L => (val L).2).getLsbD b = true ↔
      ∃ L j, x.act.has L = true ∧ j < 64 / w ∧ (res L j).2.getLsbD b = true := by
  simp only [getLsbD_laneFlags, hval, getLsbD_laneRes]
  exact ⟨fun ⟨L, hL, j, hj, hb⟩ => ⟨L, j, hL, hj, hb⟩, fun ⟨L, j, hL, hj, hb⟩ => ⟨L, hL, j, hj, hb⟩⟩

section
variable {i : Instr} {h : Hdr} {w : Nat} {d : Reg} (hh : hdrOf i = some h)
include hh

/-- A body that writes one register, under a shape that fits. -/
theorem subResult_of_vecBody {lat : Nat} {sh : Iss → Dev → Sh} {val : Iss → Dev → Nat → Word × Word} {res : Iss → Nat → Nat → Nat × Word}
    (he : ∀ s, exec i s = issueOn i h s (vecBody d lat sh val)) (hfit : ∀ x dv, (sh x dv).Fits fun L => (val x dv L).1)
    (hval : ∀ s x, issue? i s = some x → ∀ L, val x (begun i x) L = laneRes w (res x L)) : SubResult i w d lat res := by
  intro s x hx
  refine ⟨_, _, vecBody_lands hh hx (he s), fun L hL j hj => ?_, getLsbD_laneFlags_laneRes (hval s x hx)⟩
  rw [laneVal_outReg_of_fits hx (hfit x _) hL, hval s x hx, sub_laneRes _ hj]

/-- A body that sends its result on its way, as U only when the lanes' values are equal. -/
theorem lateResult_of_sent {uni : Iss → Dev → Bool} {val : Iss → Dev → Nat → Word × Word} {res : Iss → Nat → Nat → Nat × Word}
    (he : ∀ s, exec i s = issueOn i h s fun x dv => some (.done
      (sendResult x dv (uni x dv) true [d.toNat] (laneFlags x fun L => (val x dv L).2) fun L => [(val x dv L).1])))
    (huni : ∀ x dv, uni x dv = true → ∀ L M, (val x dv L).1 = (val x dv M).1)
    (hval : ∀ s x, issue? i s = some x → ∀ L, val x (begun i x) L = laneRes w (res x L)) : LateResult i w d res := by
  intro s x hx
  refine ⟨_, fun L => (val x (begun i x) L).1, _, (he s).trans (issueOn_answers hh hx rfl), fun hu L M _ _ => huni x _ hu L M,
    fun L _ j hj => ?_, getLsbD_laneFlags_laneRes (hval s x hx)⟩
  simp only [hval s x hx, sub_laneRes _ hj]

end

/-! ### Shapes of float results fit their values (R76) -/

/-- Two sources, and the old destination where it is one. -/
theorem fltShape_fits {t : FTy} {rd : Bool} {d : Reg} {a b : FSrc} {x : Iss} {dv : Dev} (val : Word → Word → Word → Word)
    (hrd : rd = false → ∀ u v w w', val u v w = val u v w') :
    (fltShape t rd d a b x dv).Fits fun L =>
      val (fsrcVal dv (x.fib dv) t L a) (fsrcVal dv (x.fib dv) t L b) (regLane dv (x.fib dv) d.toNat L) := by
  refine allU_fits fun hu L M => ?_
  rw [fsrcVal_of_u (a := a) (hu _ (by simp)) L M, fsrcVal_of_u (a := b) (hu _ (by simp)) L M]
  cases rd with
  | false => exact hrd rfl _ _ _ _
  | true => rw [regLane_of_plainU (hu _ (by simp)) L M]

/-- One source. -/
theorem fltShape1_fits {t : FTy} {a : FSrc} {x : Iss} {dv : Dev} (val : Word → Word) :
    (fltShape1 t a x dv).Fits fun L => val (fsrcVal dv (x.fib dv) t L a) :=
  allU_fits fun hu L M => by rw [fsrcVal_of_u (hu _ (by simp)) L M]

end Sys2Proof.Machine
end

section
/-!
PROOF of `FloatResultsAndFlags`. A float instruction is a sub-element operation on its float sources, whose shape fits its values; `fscale`
and `fdot2` differ only in what they read. `fflag` sends the flags before it clears them, and the check at issue is the clause on flights.
-/

namespace Sys2Proof.Machine

section
variable {i : Instr} {h : Hdr} {t : FTy} {d : Reg} {a b : FSrc} (hh : hdrOf i = some h)
include hh

/-- A FLOAT INSTRUCTION on two sources and the old destination, where it is one (`rd`). -/
theorem subResult_of_flt3 {rd : Bool} {g : Nat → Nat → Nat → Nat × Word} (he : ∀ s, exec i s = issueOn i h s (flt3 t rd d a b g))
    (hrd : rd = false → ∀ u v c c', g u v c = g u v c') :
    SubResult i t.width d 6 fun x L j => g (inFlt x t a L j) (inFlt x t b L j) (sub (inReg x d L) t.width j) := by
  refine subResult_of_vecBody hh he
    (fun x dv => fltShape_fits (fun u v c => (subs3 t.width g u v c).1) fun h u v c c' => by rw [subs3_third (hrd h) u v c c'])
    fun s x hx L => ?_
  simp only [fib_begun hx, fsrcVal_begun, regLane_begun, subs3_eq_laneRes]
  rfl

/-- A FLOAT INSTRUCTION on one source. -/
theorem subResult_of_flt2 {g : Nat → Nat × Word} (he : ∀ s, exec i s = issueOn i h s (flt2 t d a g)) :
    SubResult i t.width d 6 fun x L j => g (inFlt x t a L j) := by
  refine subResult_of_vecBody hh he (fun x dv => fltShape1_fits fun u => (subs3 t.width (fun u _ _ => g u) u 0 0).1) fun s x hx L => ?_
  rw [fib_begun hx, fsrcVal_begun, subs3_eq_laneRes]
  rfl

end

/-- `fclass` names one bit of a sub-element (R134). -/
theorem fclassR_lt_width (t : FTy) (u : Nat) : fclassR t u < t.width := by
  have hbit : fclassR t u < 10 := by
    unfold fclassR
    split
    · split <;> decide
    · split <;> decide
    · split_ifs <;> decide
  exact hbit.trans (by cases t <;> decide)

theorem exec_fclass (h : Hdr) (t : FTy) (d : Reg) (a : FSrc) (s : State) : exec (.fclass h t d a) s = execFclass h t d a s := rfl

theorem subWhere_fclass (h : Hdr) (t : FTy) (d : Reg) (a : FSrc) :
    SubWhere (.fclass h t d a) t.width d 6 fun x L j r => r = 2 ^ fclassR t (inFlt x t a L j) := by
  refine subWhere_of_subs3 rfl (exec_fclass h t d a)
    (fun x dv => fltShape1_fits fun u => (subs3 t.width (fun u _ _ => (2 ^ fclassR t u, 0)) u 0 0).1) fun s x hx L j => ?_
  rw [fib_begun hx, fsrcVal_begun, Nat.mod_eq_of_lt (Nat.pow_lt_pow_right one_lt_two (fclassR_lt_width t _))]
  rfl

theorem exec_fscale (h : Hdr) (t : FTy) (rnd : Rnd) (ftz : Bool) (d : Reg) (a : FSrc) (b : Src) (s : State) :
    exec (.fscale h t rnd ftz d a b) s = execFscale h t rnd ftz d a b s := rfl

/-- The integer type of `fscale`'s exponent has the width of the float (R138). -/
theorem width_sintOf_flt (t : FTy) : (sintOf t.width).width = t.width := by cases t <;> rfl

theorem subResult_fscale (h : Hdr) (t : FTy) (rnd : Rnd) (ftz : Bool) (d : Reg) (a : FSrc) (b : Src) :
    SubResult (.fscale h t rnd ftz d a b) t.width d 6 fun x L j =>
      fscaleR t rnd ftz (inFlt x t a L j) (toSigned t.width (srcBits x (sintOf t.width) b L j)) := by
  refine subResult_of_vecBody rfl (exec_fscale h t rnd ftz d a b) (fun x dv => allU_fits fun hu L M => ?_) fun s x hx L => ?_
  · rw [fsrcVal_of_u (hu _ (by simp)) L M, srcVal_of_u (hu _ (by simp)) L M]
  · rw [fib_begun hx, fsrcVal_begun, srcVal_begun, subs3_eq_laneRes]
    simp only [inFlt, srcBits, width_sintOf_flt]

theorem exec_fdot2 (h : Hdr) (bf : Bool) (rnd : Rnd) (ftz : Bool) (d : Reg) (a b : FSrc) (s : State) :
    exec (.fdot2 h bf rnd ftz d a b) s = execFdot2 h bf rnd ftz d a b s := rfl

theorem subResult_fdot2 (h : Hdr) (bf : Bool) (rnd : Rnd) (ftz : Bool) (d : Reg) (a b : FSrc) :
    SubResult (.fdot2 h bf rnd ftz d a b) 32 d 6 fun x L j =>
      let t : FTy := if bf then .bf16 else .f16
      fmaR t .f32 rnd ftz [(inFlt x t a L (2 * j), inFlt x t b L (2 * j)), (inFlt x t a L (2 * j + 1), inFlt x t b L (2 * j + 1))]
        (sub (inReg x d L) 32 j) := by
  refine subResult_of_vecBody rfl (exec_fdot2 h bf rnd ftz d a b)
    (fun x dv => fltShape_fits (fun u v c => (fdot2Lane _ rnd ftz u v c).1) fun h => nomatch h) fun s x hx L => ?_
  rw [fib_begun hx, fsrcVal_begun, fsrcVal_begun, regLane_begun]
  refine (laneRes_of_map 32 _).trans ?_
  cases bf <;> rfl

/-! ### `fflag` (R140) -/

theorem exec_fflag (h : Hdr) (d : Reg) (mask : BitVec 7) (s : State) : exec (.fflag h d mask) s = execFflag h d mask s := rfl

/-- A result sent on its way leaves the issuing fibre as it stands. -/
theorem fib_sendResult (x : Iss) (d : Dev) (uni keep : Bool) (dst : List Nat) (flags : Word) (val : Nat → List Word) :
    x.fib (sendResult x d uni keep dst flags val) = x.fib d := by
  by_cases ha : x.act = 0
  · rw [sendResult, if_pos ha]
  · rw [sendResult_eq ha]
    rfl

/-- An `fflag` that issues finds no flight of its fibre that will raise a flag. -/
theorem not_raises_of_fflag {h : Hdr} {d : Reg} {mask : BitVec 7} {s : State} {x : Iss} (hx : issue? (.fflag h d mask) s = some x)
    {g : Flight} (hg : g ∈ s.dev.flights) (hfib : g.fib = x.f.uid) : g.raises = false := by
  obtain ⟨h', hh, -, hwait, -⟩ := issue?_eq hx
  simp only [waitsAtIssue, hh, Bool.or_eq_false_iff] at hwait
  obtain ⟨⟨-, hblocked⟩, -⟩ := hwait
  simpa [hfib] using List.any_eq_false.1 hblocked g hg

/-- Settles O8: each float instruction by the lemma on what it reads; `fflag` by its two cases and its check at issue. -/
theorem floatResultsAndFlags : Obligations.FloatResultsAndFlags := by
  refine ⟨⟨fun h o => ?_, fun h o => ?_, fun h o => ?_, fun h o => ?_, fun h o => ?_, fun h o => ?_, subWhere_fclass, fun h o => ?_,
    fun h o => ?_, subResult_fscale, subResult_fdot2⟩, fun h d mask s x hx ha => ?_, fun h d mask s x hx ha => ?_,
    fun h d mask s x hx g => not_raises_of_fflag hx⟩
  · exact subResult_of_flt3 (g := fun u v _ => faddR o.t o.rnd o.ftz u v) rfl (fun s => rfl) fun _ _ _ _ _ => rfl
  · exact subResult_of_flt3 (g := fun u v _ => fsubR o.t o.rnd o.ftz u v) rfl (fun s => rfl) fun _ _ _ _ _ => rfl
  · exact subResult_of_flt3 (g := fun u v _ => fmulR o.t o.rnd o.ftz u v) rfl (fun s => rfl) fun _ _ _ _ _ => rfl
  · exact subResult_of_flt3 (g := fun u v c => fmaR o.t o.t o.rnd o.ftz [(u, v)] c) rfl (fun s => rfl) fun h => nomatch h
  · exact subResult_of_flt3 (g := fun u v _ => fminmaxR o.t false o.ftz u v) rfl (fun s => rfl) fun _ _ _ _ _ => rfl
  · exact subResult_of_flt3 (g := fun u v _ => fminmaxR o.t true o.ftz u v) rfl (fun s => rfl) fun _ _ _ _ _ => rfl
  · exact subResult_of_flt2 rfl fun s => rfl
  · exact subResult_of_flt2 rfl fun s => rfl
  · exact idle_answers rfl hx (exec_fflag h d mask s) ha
  · refine active_answers rfl hx (exec_fflag h d mask s) ha ?_
    simp only [fib_sendResult, fib_begun hx, begunFib_fflags]

end Sys2Proof.Machine
end

section
/-!
PROOF of `SpecialFunctionsSendTheirResults`. A variable-latency float instruction sends the sub-element results of its sources on their way;
it counts as U only when both sources do, which then have one value in every lane.
-/

namespace Sys2Proof.Machine

/-- A VARIABLE-LATENCY FLOAT INSTRUCTION (R46). -/
theorem lateResult_of_fltLate {i : Instr} {h : Hdr} {t : FTy} {d : Reg} {a b : FSrc} {g : Nat → Nat → Nat × Word} (hh : hdrOf i = some h)
    (he : ∀ s, exec i s = issueOn i h s (fltLate t d a b g)) :
    LateResult i t.width d fun x L j => g (inFlt x t a L j) (inFlt x t b L j) := by
  refine lateResult_of_sent hh he (fun x dv hu => ?_) fun s x hx L => ?_
  · have hshape : fltShape t false d a b x dv = .u := by
      cases hs : fltShape t false d a b x dv with
      | u => rfl
      | a | g => rw [hs] at hu; cases hu
    exact (fltShape_fits (fun u v _ => (subs3 t.width (fun u v _ => g u v) u v 0).1) fun _ _ _ _ _ => rfl).1 hshape
  · rw [fib_begun hx, fsrcVal_begun, fsrcVal_begun, subs3_eq_laneRes]
    rfl

/-- Settles O10: all by the lemma on variable-latency instructions; a function of one source reads it twice. -/
theorem specialFunctionsSendTheirResults : Obligations.SpecialFunctionsSendTheirResults := by
  refine ⟨fun h o => ?_, fun h o => ?_, fun h o => ?_, fun h o => ?_, fun h o => ?_, fun h o => ?_, fun h o => ?_, fun h o => ?_⟩
  · exact lateResult_of_fltLate rfl fun s => rfl
  · exact lateResult_of_fltLate (g := fun u _ => fsqrtR o.t o.rnd o.ftz u) rfl fun s => rfl
  · exact lateResult_of_fltLate (g := fun u _ => approxR .rcp o.t o.ftz u) rfl fun s => rfl
  · exact lateResult_of_fltLate (g := fun u _ => approxR .rsq o.t o.ftz u) rfl fun s => rfl
  · exact lateResult_of_fltLate (g := fun u _ => approxR .exp2 o.t o.ftz u) rfl fun s => rfl
  · exact lateResult_of_fltLate (g := fun u _ => approxR .log2 o.t o.ftz u) rfl fun s => rfl
  · exact lateResult_of_fltLate (g := fun u _ => approxR .sin o.t o.ftz u) rfl fun s => rfl
  · exact lateResult_of_fltLate (g := fun u _ => approxR .cos o.t o.ftz u) rfl fun s => rfl

end Sys2Proof.Machine
end

section
/-!
SUPPORT. A sub-element put in a word (R67): which bits it writes, and what the sub-elements then are.
-/

namespace Sys2Proof.Machine

/-- The bits of a sub-element. -/
theorem testBit_sub (v : Word) (w j k : Nat) : (sub v w j).testBit k = (decide (k < w) && v.getLsbD (w * j + k)) := by
  rw [sub, Nat.testBit_mod_two_pow, Nat.testBit_div_two_pow, BitVec.testBit_toNat, Nat.add_comm]

/-- `put` writes the bits of its sub-element and leaves the others. -/
theorem getLsbD_put (v : Word) (w j x : Nat) {n : Nat} (hn : n < 64) :
    (put v w j x).getLsbD n = if w * j ≤ n ∧ n < w * j + w then x.testBit (n - w * j) else v.getLsbD n := by
  -- the word as its bits above, in and below the sub-element
  set hi := v.toNat / 2 ^ (w * j) / 2 ^ w
  set lo := v.toNat % 2 ^ (w * j)
  have hlo : lo < 2 ^ (w * j) := Nat.mod_lt _ (by positivity)
  have hmid : ∀ y, y % 2 ^ w < 2 ^ w := fun y => Nat.mod_lt _ (by positivity)
  have hsub : sub v w j < 2 ^ w := hmid _
  have hv : v.toNat = 2 ^ (w * j) * (2 ^ w * hi + sub v w j) + lo := by rw [sub, Nat.div_add_mod, Nat.div_add_mod]
  have hput : v.toNat - sub v w j * 2 ^ (w * j) + x % 2 ^ w * 2 ^ (w * j) = 2 ^ (w * j) * (2 ^ w * hi + x % 2 ^ w) + lo := by
    rw [hv, Nat.mul_add, Nat.mul_comm (sub v w j), Nat.mul_comm (x % 2 ^ w)]
    generalize 2 ^ (w * j) * sub v w j = S
    rw [show 2 ^ (w * j) * (2 ^ w * hi) + S + lo - S = 2 ^ (w * j) * (2 ^ w * hi) + lo by omega, Nat.mul_add]
    omega
  have hbit : ∀ y, y < 2 ^ w → (2 ^ (w * j) * (2 ^ w * hi + y) + lo).testBit n =
      if n < w * j then lo.testBit n else if n - w * j < w then y.testBit (n - w * j) else hi.testBit (n - w * j - w) := fun y hy => by
    rw [Nat.testBit_two_pow_mul_add _ hlo, Nat.testBit_two_pow_mul_add _ hy]
  rw [put, BitVec.getLsbD_ofNat, decide_eq_true hn, Bool.true_and, hput, hbit _ (hmid x), ← BitVec.testBit_toNat, hv, hbit _ hsub,
    Nat.testBit_mod_two_pow]
  by_cases hbelow : n < w * j
  · simp [hbelow]
  · by_cases hin : n - w * j < w
    · simp [hbelow, hin, show w * j ≤ n ∧ n < w * j + w by omega]
    · simp [hbelow, hin, show ¬n < w * j + w by omega]

/-- The bits of two different sub-elements lie apart. -/
theorem mem_sub_iff {w j k n : Nat} (hn : n < w) : (w * j ≤ w * k + n ∧ w * k + n < w * j + w) ↔ k = j := by
  constructor
  · rintro ⟨h1, h2⟩
    have hj : j < k + 1 := Nat.lt_of_mul_lt_mul_left (a := w) (by rw [Nat.mul_succ]; omega)
    have hk : k < j + 1 := Nat.lt_of_mul_lt_mul_left (a := w) (by rw [Nat.mul_succ]; omega)
    omega
  · rintro rfl
    omega

/-- The bits of a sub-element of a word lie in the word. -/
theorem sub_bit_lt {w k n : Nat} (hk : k < 64 / w) (hn : n < w) : w * k + n < 64 :=
  calc w * k + n < w * (k + 1) := by rw [Nat.mul_succ]; omega
    _ ≤ w * (64 / w) := Nat.mul_le_mul_left _ hk
    _ ≤ 64 := Nat.mul_div_le 64 w

/-- The sub-elements of a word in which one was put. -/
theorem sub_put (v : Word) (w j x : Nat) {k : Nat} (hk : k < 64 / w) : sub (put v w j x) w k = if k = j then x % 2 ^ w else sub v w k := by
  refine Nat.eq_of_testBit_eq fun n => ?_
  rw [testBit_sub, apply_ite (fun y => Nat.testBit y n), Nat.testBit_mod_two_pow, testBit_sub]
  by_cases hn : n < w
  · rw [getLsbD_put _ _ _ _ (sub_bit_lt hk hn)]
    simp only [mem_sub_iff hn, decide_eq_true hn, Bool.true_and]
    split
    · rename_i hkj
      rw [hkj, Nat.add_sub_cancel_left]
    · rfl
  · simp [hn]

/-- The sub-elements of a word in which a run of `n` was put, the first at `off`. -/
theorem sub_foldl_put (v : Word) (w off n : Nat) (f : Nat → Nat) {k : Nat} (hk : k < 64 / w) :
    sub ((List.range n).foldl (fun v j => put v w (j + off) (f j)) v) w k =
      if off ≤ k ∧ k < off + n then f (k - off) % 2 ^ w else sub v w k := by
  induction n with
  | zero => rw [if_neg (by omega)]; rfl
  | succ n ih =>
    rw [List.range_succ, List.foldl_append, List.foldl_cons, List.foldl_nil, sub_put _ _ _ _ hk, ih]
    by_cases hlast : k = n + off
    · rw [if_pos hlast, if_pos (by omega), hlast, Nat.add_sub_cancel]
    · rw [if_neg hlast]
      simp only [show (off ≤ k ∧ k < off + n) ↔ (off ≤ k ∧ k < off + (n + 1)) by omega]

end Sys2Proof.Machine
end

section
/-!
PROOF of `ConversionsReadAndWriteTheirElements`. One lane of a conversion puts a run of elements into a word: over zeros where the elements do
not become narrower, and then the run fills the word; over the old destination where they do (R136).
-/

namespace Sys2Proof.Machine

/-- The elements a conversion reads and writes: as many as both words hold (R136). -/
def convCount (sw tw : Nat) : Nat := min (64 / sw) (64 / tw)

/-- How far up the elements read lie: a widening conversion with `.hi` reads the upper part of its source. -/
def convFrom (sw tw : Nat) (hi : Bool) : Nat := if sw < tw ∧ hi = true then convCount sw tw else 0

/-- How far up the elements written lie: a narrowing conversion with `.hi` writes the upper part of its destination. -/
def convTo (sw tw : Nat) (hi : Bool) : Nat := if tw < sw ∧ hi = true then convCount sw tw else 0

/-- One lane of a conversion, element by element. -/
theorem convLane_eq (sw tw : Nat) (hi : Bool) (g : Nat → Nat × Word) (a d : Word) :
    convLane sw tw hi g a d =
      ((List.range (convCount sw tw)).foldl (fun v j => put v tw (j + convTo sw tw hi) (g (sub a sw (j + convFrom sw tw hi))).1)
        (if tw < sw then d else 0),
      (List.range (convCount sw tw)).foldl (fun m j => m ||| (g (sub a sw (j + convFrom sw tw hi))).2) 0) := by
  have hfrom : ∀ j, (if sw < tw then j + (if hi then min (nsub sw) (nsub tw) else 0) else j) = j + convFrom sw tw hi := fun j => by
    unfold convFrom convCount nsub
    by_cases h : sw < tw <;> cases hi <;> simp [h]
  have hto : (if tw < sw then (if hi then min (nsub sw) (nsub tw) else 0) else 0) = convTo sw tw hi := by
    unfold convTo convCount nsub
    by_cases h : tw < sw <;> cases hi <;> simp [h]
  simp only [convLane, hfrom, hto, List.foldl_map]
  refine Prod.ext (List.foldl_ext _ _ _ fun v j hj => ?_) rfl
  have hj' : j < min (nsub sw) (nsub tw) := List.mem_range.1 hj
  simp [hj']

section
variable {sw tw : Nat} {hi : Bool} (g : Nat → Nat × Word) (a d : Word)

/-- An element that is written. -/
theorem sub_convLane_written {j : Nat} (hj : j < convCount sw tw) (hto : j + convTo sw tw hi < 64 / tw) :
    sub (convLane sw tw hi g a d).1 tw (j + convTo sw tw hi) = (g (sub a sw (j + convFrom sw tw hi))).1 % 2 ^ tw := by
  rw [convLane_eq, sub_foldl_put _ _ _ _ _ hto, if_pos (by omega), Nat.add_sub_cancel]

/-- An element that is not written keeps its old value; there is none where the elements do not become narrower. -/
theorem sub_convLane_kept (hsw : 0 < sw) {k : Nat} (hk : k < 64 / tw) (hkept : ∀ j, j < convCount sw tw → k ≠ j + convTo sw tw hi) :
    sub (convLane sw tw hi g a d).1 tw k = sub d tw k := by
  have hnarrow : tw < sw := by
    by_contra hwide
    have hall : convCount sw tw = 64 / tw := Nat.min_eq_right (Nat.div_le_div_left (Nat.le_of_not_lt hwide) hsw)
    exact hkept k (hall ▸ hk) (by rw [convTo, if_neg (fun h => hwide h.1)]; rfl)
  rw [convLane_eq, sub_foldl_put _ _ _ _ _ hk, if_neg, if_pos hnarrow]
  rintro ⟨h1, h2⟩
  exact hkept (k - convTo sw tw hi) (by omega) (by omega)

/-- The old destination matters only to a narrowing conversion. -/
theorem convLane_of_widening (h : ¬tw < sw) (d' : Word) : convLane sw tw hi g a d = convLane sw tw hi g a d' := by
  simp only [convLane, if_neg h]

end

/-- The upper part of a narrowing conversion's destination holds as many elements as the source. -/
theorem convTo_add_lt {sw tw j : Nat} (hi : Bool) (h2 : tw < sw → 64 / sw * 2 ≤ 64 / tw) (hj : j < convCount sw tw) :
    j + convTo sw tw hi < 64 / tw := by
  have hle : convCount sw tw ≤ 64 / tw := Nat.min_le_right _ _
  have hle' : convCount sw tw ≤ 64 / sw := Nat.min_le_left _ _
  unfold convTo
  split
  · rename_i h
    have := h2 h.1
    omega
  · omega

/-- A CONVERSION. -/
theorem convResult_of_convBody {i : Instr} {h : Hdr} {sw tw : Nat} {hi : Bool} {d : Reg} {us : Iss → Dev → Bool} {src : Iss → Dev → Nat → Word}
    {g : Nat → Nat × Word} {S : Iss → Nat → Nat → Nat} (hh : hdrOf i = some h) (hsw : 0 < sw) (h2 : tw < sw → 64 / sw * 2 ≤ 64 / tw)
    (he : ∀ s, exec i s = issueOn i h s (convBody sw tw hi d us src g))
    (hus : ∀ x dv, us x dv = true → ∀ L M, src x dv L = src x dv M)
    (hsrc : ∀ s x, issue? i s = some x → ∀ L j, sub (src x (begun i x) L) sw j = S x L j) : ConvResult i sw tw hi d S g := by
  intro s x hx
  have hfit : ∀ dv, (allU [us x dv, decide (sw ≤ tw) || (plainShape dv (x.fib dv) d.toNat).isU]).Fits fun L =>
      (convLane sw tw hi g (src x dv L) (regLane dv (x.fib dv) d.toNat L)).1 := fun dv => allU_fits fun hu L M => by
    rw [hus x dv (hu _ (by simp)) L M]
    by_cases hnarrow : tw < sw
    · have hd := hu _ (List.mem_cons_of_mem _ List.mem_cons_self)
      rw [decide_eq_false (Nat.not_le.2 hnarrow), Bool.false_or] at hd
      rw [regLane_of_plainU hd L M]
    · rw [convLane_of_widening g _ _ hnarrow]
  have hfrom : ∀ j, (if sw < tw ∧ hi = true then j + min (64 / sw) (64 / tw) else j) = j + convFrom sw tw hi := fun j => by
    unfold convFrom convCount; split <;> rfl
  have hto : ∀ j, (if tw < sw ∧ hi = true then j + min (64 / sw) (64 / tw) else j) = j + convTo sw tw hi := fun j => by
    unfold convTo convCount; split <;> rfl
  have hlane : ∀ L, regLane (begun i x) (x.fib (begun i x)) d.toNat L = inReg x d L := fun L => by rw [fib_begun hx, regLane_begun, inReg]
  refine ⟨_, _, vecBody_lands hh hx (he s), fun L hL => ⟨fun j hj => ?_, fun k hk hkept => ?_⟩, fun b => ?_⟩
  · rw [laneVal_outReg_of_fits hx (hfit _) hL]
    simp only [hfrom, hto]
    rw [sub_convLane_written g _ _ hj (convTo_add_lt hi h2 hj), hsrc s x hx]
  · simp only [hto] at hkept
    rw [laneVal_outReg_of_fits hx (hfit _) hL, hlane, sub_convLane_kept g _ _ hsw hk hkept]
  · simp only [hfrom, getLsbD_laneFlags, convLane_eq, getLsbD_union, List.mem_range, hsrc s x hx]
    exact ⟨fun ⟨L, hL, j, hj, hb⟩ => ⟨L, j, hL, hj, hb⟩, fun ⟨L, j, hL, hj, hb⟩ => ⟨L, hL, j, hj, hb⟩⟩

/-! ### Widths -/

/-- The widths of the numeric types. -/
def IsWidth (w : Nat) : Prop := w = 8 ∨ w = 16 ∨ w = 32 ∨ w = 64

theorem isWidth_int (t : ITy) : IsWidth t.width := by cases t <;> simp [IsWidth, ITy.width]

theorem isWidth_flt (t : FTy) : IsWidth t.width := by cases t <;> simp [IsWidth, FTy.width]

theorem IsWidth.pos {w : Nat} (h : IsWidth w) : 0 < w := by
  obtain rfl | rfl | rfl | rfl := h <;> decide

/-- A word holds at least twice as many elements of a smaller width. -/
theorem IsWidth.twice_le {sw tw : Nat} (hs : IsWidth sw) (ht : IsWidth tw) : tw < sw → 64 / sw * 2 ≤ 64 / tw := by
  obtain rfl | rfl | rfl | rfl := hs <;> obtain rfl | rfl | rfl | rfl := ht <;> decide

theorem exec_fcvt (h : Hdr) (s' : FTy) (hi : Bool) (o : F2) (s : State) : exec (.fcvt h s' hi o) s = execFcvt h s' hi o s := rfl

theorem exec_f2i (h : Hdr) (t : ITy) (s' : FTy) (hi : Bool) (rnd : Rnd) (ftz : Bool) (d : Reg) (a : FSrc) (s : State) :
    exec (.f2i h t s' hi rnd ftz d a) s = execF2i h t s' hi rnd ftz d a s := rfl

theorem exec_i2f (h : Hdr) (t : FTy) (s' : ITy) (hi : Bool) (rnd : Rnd) (ftz : Bool) (d : Reg) (a : Src) (s : State) :
    exec (.i2f h t s' hi rnd ftz d a) s = execI2f h t s' hi rnd ftz d a s := rfl

/-- Settles O9: all by the lemma on conversions; a source that counts as U has one value. -/
theorem conversionsReadAndWriteTheirElements : Obligations.ConversionsReadAndWriteTheirElements := by
  refine ⟨fun h s' hi o => ?_, fun h t s' hi rnd ftz d a => ?_, fun h t s' hi rnd ftz d a => ?_⟩
  · exact convResult_of_convBody rfl (isWidth_flt s').pos ((isWidth_flt s').twice_le (isWidth_flt o.t)) (exec_fcvt h s' hi o)
      (fun _ _ => fsrcVal_of_u) fun s x hx L j => by rw [fib_begun hx, fsrcVal_begun]; rfl
  · exact convResult_of_convBody rfl (isWidth_flt s').pos ((isWidth_flt s').twice_le (isWidth_int t)) (exec_f2i h t s' hi rnd ftz d a)
      (fun _ _ => fsrcVal_of_u) fun s x hx L j => by rw [fib_begun hx, fsrcVal_begun]; rfl
  · exact convResult_of_convBody rfl (isWidth_int s').pos ((isWidth_int s').twice_le (isWidth_flt t)) (exec_i2f h t s' hi rnd ftz d a)
      (fun _ _ => srcVal_of_u) fun s x hx L j => by rw [fib_begun hx, srcVal_begun]; rfl

end Sys2Proof.Machine
end

section
/-!
SUPPORT for cross-lane operations (R141 to R144): lanes in logical order, a word built by puts of which the last wins, and the combination
of a set of elements.
-/

namespace Sys2Proof.Machine

/-! ### Sorting by a key (R168) -/

section
variable {α : Type} (key : α → Nat)

theorem mem_insertBy {x y : α} {l : List α} : y ∈ insertBy key x l ↔ y = x ∨ y ∈ l := by
  induction l with
  | nil => simp [insertBy]
  | cons z zs ih =>
    rw [insertBy]
    split
    · rw [List.mem_cons]
    · rw [List.mem_cons, List.mem_cons, ih]
      exact or_left_comm

theorem mem_sortBy {y : α} {l : List α} : y ∈ sortBy key l ↔ y ∈ l := by
  have hfold : ∀ (l acc : List α), y ∈ l.foldl (fun acc x => insertBy key x acc) acc ↔ y ∈ l ∨ y ∈ acc := fun l => by
    induction l with
    | nil => simp
    | cons x xs ih =>
      intro acc
      rw [List.foldl_cons, ih, mem_insertBy, List.mem_cons]
      tauto
  rw [sortBy, hfold]
  simp

/-- One value before another in a stable sort of a list ordered by `R`. -/
def KeyLt (R : α → α → Prop) (a b : α) : Prop := key a < key b ∨ (key a = key b ∧ R a b)

variable {key} {R : α → α → Prop}

theorem pairwise_insertBy {x : α} {l : List α} (hl : l.Pairwise (KeyLt key R)) (hx : ∀ y, y ∈ l → R y x) :
    (insertBy key x l).Pairwise (KeyLt key R) := by
  induction l with
  | nil => simp [insertBy]
  | cons y ys ih =>
    rw [insertBy]
    obtain ⟨hy, hys⟩ := List.pairwise_cons.1 hl
    split
    · rename_i hlt
      refine List.pairwise_cons.2 ⟨fun z hz => .inl ?_, hl⟩
      obtain rfl | hz := List.mem_cons.1 hz
      · exact hlt
      · exact hlt.trans_le ((hy z hz).elim Nat.le_of_lt fun h => h.1.le)
    · rename_i hge
      refine List.pairwise_cons.2 ⟨fun z hz => ?_, ih hys fun z hz => hx z (List.mem_cons_of_mem _ hz)⟩
      obtain rfl | hz := (mem_insertBy key).1 hz
      · exact (Nat.lt_or_eq_of_le (Nat.le_of_not_lt hge)).imp_right fun h => ⟨h, hx y List.mem_cons_self⟩
      · exact hy z hz

/-- A stable sort keeps the order of equal keys. -/
theorem pairwise_sortBy {l : List α} (hl : l.Pairwise R) : (sortBy key l).Pairwise (KeyLt key R) := by
  have hfold : ∀ (l acc : List α), l.Pairwise R → acc.Pairwise (KeyLt key R) → (∀ a, a ∈ acc → ∀ b, b ∈ l → R a b) →
      (l.foldl (fun acc x => insertBy key x acc) acc).Pairwise (KeyLt key R) := fun l => by
    induction l with
    | nil => exact fun acc _ hacc _ => hacc
    | cons x xs ih =>
      intro acc hl hacc hR
      obtain ⟨hx, hxs⟩ := List.pairwise_cons.1 hl
      refine ih _ hxs (pairwise_insertBy hacc fun y hy => hR y hy x List.mem_cons_self) fun a ha b hb => ?_
      obtain rfl | ha := (mem_insertBy key).1 ha
      · exact hx b hb
      · exact hR a ha b (List.mem_cons_of_mem _ hb)
  exact hfold l [] hl List.Pairwise.nil (by simp)

end

/-- The last of an ordered list is the one that none goes beyond. -/
theorem getLast?_of_greatest {α : Type} {R : α → α → Prop} (hanti : ∀ a b, R a b → R b a → a = b) {l : List α} (hl : l.Pairwise R) {q : α}
    (hq : q ∈ l) (hmax : ∀ p, p ∈ l → R p q) : l.getLast? = some q := by
  induction l using List.reverseRecOn with
  | nil => cases hq
  | append_singleton l z _ =>
    obtain ⟨-, -, hz⟩ := List.pairwise_append.1 hl
    rw [List.getLast?_concat]
    obtain hq' | hq' := List.mem_append.1 hq
    · rw [hanti q z (hz q hq' z (List.mem_singleton.2 rfl)) (hmax z (by simp))]
    · rw [List.mem_singleton.1 hq']

/-! ### A word built by puts -/

/-- Of the values put in one sub-element the last stays. -/
theorem sub_foldl_put_last {α : Type} (pos val : α → Nat) (xs : List α) (v : Word) {w k : Nat} (hk : k < 64 / w) :
    sub (xs.foldl (fun v p => put v w (pos p) (val p)) v) w k =
      (((xs.filter fun p => pos p == k).getLast?).map fun p => val p % 2 ^ w).getD (sub v w k) := by
  induction xs using List.reverseRecOn with
  | nil => rfl
  | append_singleton xs p ih =>
    rw [List.foldl_append, List.foldl_cons, List.foldl_nil, sub_put _ _ _ _ hk, ih, List.filter_append]
    by_cases hp : k = pos p
    · simp [hp]
    · simp [hp, Ne.symm hp]

/-- A word with the bits of a mask replaced, in a sub-element that the mask covers. -/
theorem sub_masked_of_ones {v o m : Word} {w k : Nat} (hk : k < 64 / w) (hm : sub m w k = 2 ^ w - 1) :
    sub ((v &&& m) ||| (o &&& ~~~m)) w k = sub v w k := by
  refine Nat.eq_of_testBit_eq fun n => ?_
  by_cases hn : n < w
  · have hbit : m.getLsbD (w * k + n) = true := by
      have := testBit_sub m w k n
      rw [hm, Nat.testBit_two_pow_sub_one] at this
      simpa [hn] using this.symm
    rw [testBit_sub, testBit_sub, BitVec.getLsbD_or, BitVec.getLsbD_and, BitVec.getLsbD_and, BitVec.getLsbD_not, hbit]
    simp [sub_bit_lt hk hn]
  · simp [testBit_sub, hn]

/-- In one that it leaves free. -/
theorem sub_masked_of_zero {v o m : Word} {w k : Nat} (hk : k < 64 / w) (hm : sub m w k = 0) :
    sub ((v &&& m) ||| (o &&& ~~~m)) w k = sub o w k := by
  refine Nat.eq_of_testBit_eq fun n => ?_
  by_cases hn : n < w
  · have hbit : m.getLsbD (w * k + n) = false := by
      have := testBit_sub m w k n
      rw [hm, Nat.zero_testBit] at this
      simpa [hn] using this.symm
    rw [testBit_sub, testBit_sub, BitVec.getLsbD_or, BitVec.getLsbD_and, BitVec.getLsbD_and, BitVec.getLsbD_not, hbit]
    simp [sub_bit_lt hk hn]
  · simp [testBit_sub, hn]

/-! ### The combination of a set (R144) -/

/-- A fold that keeps the element of the least key. -/
theorem foldl_least (key : Nat → Int) (xs : List Nat) (a : Nat) :
    let r := xs.foldl (fun acc v => if key v < key acc then v else acc) a
    r ∈ a :: xs ∧ ∀ u, u ∈ a :: xs → key r ≤ key u := by
  induction xs generalizing a with
  | nil => simp
  | cons x xs ih =>
    obtain ⟨hmem, hle⟩ := ih (if key x < key a then x else a)
    rw [List.foldl_cons]
    -- the two first elements are met by the one that the fold goes on with
    have hgoes : key (if key x < key a then x else a) ≤ key a ∧ key (if key x < key a then x else a) ≤ key x := by split <;> omega
    have hfirst := hle _ List.mem_cons_self
    refine ⟨?_, fun u hu => ?_⟩
    · obtain h | h := List.mem_cons.1 hmem
      · rw [h]; split <;> simp
      · simp [h]
    · obtain rfl | hu := List.mem_cons.1 hu
      · exact hfirst.trans hgoes.1
      · obtain rfl | hu := List.mem_cons.1 hu
        · exact hfirst.trans hgoes.2
        · exact hle u (List.mem_cons_of_mem _ hu)

theorem testBit_foldl_and (k : Nat) (xs : List Nat) (a : Nat) :
    (xs.foldl (fun acc v => acc &&& v) a).testBit k = true ↔ a.testBit k = true ∧ ∀ u, u ∈ xs → u.testBit k = true := by
  induction xs generalizing a with
  | nil => simp
  | cons x xs ih => simp [ih, Nat.testBit_and, and_assoc]

theorem testBit_foldl_or (k : Nat) (xs : List Nat) (a : Nat) :
    (xs.foldl (fun acc v => acc ||| v) a).testBit k = true ↔ a.testBit k = true ∨ ∃ u, u ∈ xs ∧ u.testBit k = true := by
  induction xs generalizing a with
  | nil => simp
  | cons x xs ih => simp [ih, Nat.testBit_or, or_assoc]

/-- The exclusive or counts the set bits. -/
theorem testBit_foldl_xor (k : Nat) (xs : List Nat) (a : Nat) :
    (xs.foldl (fun acc v => acc ^^^ v) a).testBit k = true ↔
      ((a.testBit k).toNat + (xs.filter fun u => u.testBit k).length) % 2 = 1 := by
  induction xs generalizing a with
  | nil => cases h : a.testBit k <;> simp [h]
  | cons x xs ih =>
    rw [List.foldl_cons, ih, Nat.testBit_xor, List.filter_cons]
    cases a.testBit k <;> cases x.testBit k <;> simp <;> omega

section
variable (t : NTy) (i : ITy) (rnd : Rnd) (ftz sat : Bool) (v : Nat) (vs : List Nat)

theorem combine_add_int : combine .add (.int i) rnd ftz sat (v :: vs) = intRes i sat ((v :: vs).map (intVal i)).sum := by
  have hsum : (v :: vs).foldl (fun acc v => acc + intVal i v) 0 = ((v :: vs).map (intVal i)).sum := by
    rw [List.sum_eq_foldl, List.foldl_map]
  rw [← hsum]
  rfl

/-- The least element; its key is what the type reads. -/
theorem combine_min_int : let r := combine .min (.int i) rnd ftz sat (v :: vs)
    r.1 ∈ v :: vs ∧ r.2 = 0 ∧ ∀ u, u ∈ v :: vs → intVal i r.1 ≤ intVal i u := by
  obtain ⟨hmem, hle⟩ := foldl_least (intVal i) (v :: vs) v
  exact ⟨(List.mem_cons.1 hmem).elim (fun h => List.mem_cons.2 (.inl h)) id, rfl, fun u hu => hle u (List.mem_cons_of_mem _ hu)⟩

/-- The greatest element is the least under the opposite key. -/
theorem combine_max_int : let r := combine .max (.int i) rnd ftz sat (v :: vs)
    r.1 ∈ v :: vs ∧ r.2 = 0 ∧ ∀ u, u ∈ v :: vs → intVal i u ≤ intVal i r.1 := by
  have hleast := foldl_least (fun u => -intVal i u) (v :: vs) v
  simp only [neg_lt_neg_iff, neg_le_neg_iff] at hleast
  obtain ⟨hmem, hle⟩ := hleast
  exact ⟨(List.mem_cons.1 hmem).elim (fun h => List.mem_cons.2 (.inl h)) id, rfl, fun u hu => hle u (List.mem_cons_of_mem _ hu)⟩

theorem combine_and : combine .and t rnd ftz sat (v :: vs) = ((v :: vs).foldl (fun acc u => acc &&& u) v, 0) := by cases t <;> rfl

theorem combine_or : combine .or t rnd ftz sat (v :: vs) = ((v :: vs).foldl (fun acc u => acc ||| u) 0, 0) := by cases t <;> rfl

theorem combine_xor : combine .xor t rnd ftz sat (v :: vs) = ((v :: vs).foldl (fun acc u => acc ^^^ u) 0, 0) := by cases t <;> rfl

/-- The clauses on the combination. -/
theorem combine_bits (k : Nat) :
    ((combine .and t rnd ftz sat (v :: vs)).1.testBit k = true ↔ ∀ u, u ∈ v :: vs → u.testBit k = true) ∧
    ((combine .or t rnd ftz sat (v :: vs)).1.testBit k = true ↔ ∃ u, u ∈ v :: vs ∧ u.testBit k = true) ∧
    ((combine .xor t rnd ftz sat (v :: vs)).1.testBit k = true ↔ ((v :: vs).filter fun u => u.testBit k).length % 2 = 1) := by
  rw [combine_and, combine_or, combine_xor, testBit_foldl_and, testBit_foldl_or, testBit_foldl_xor]
  refine ⟨and_iff_right_of_imp fun h => h v List.mem_cons_self, ?_, ?_⟩
  · simp
  · simp

end

end Sys2Proof.Machine
end

section
/-!
PROOF of `CrossLaneMovesAndCombinations`. An `lpull` reads one row of all lanes; `lred` and `lscan` combine the lanes' elements at each place.
The pushes of an `lpush` are listed in the order in which later ones win, so the last of those that aim at an element is the one that beats
them all, and the mask of the write covers the elements that some push aims at (R143).
-/

namespace Sys2Proof.Machine

/-! ### Elements of rows -/

/-- An index operand has the width of the elements (R141). -/
theorem width_indexTy (t : NTy) : (indexTy t).width = t.width := by
  cases t with
  | int i => rfl
  | flt f => cases f <;> rfl

theorem sub_mod_two_pow (v : Word) (w j : Nat) : sub v w j % 2 ^ w = sub v w j := Nat.mod_mod _ _

theorem exec_lpull (h : Hdr) (t : NTy) (d : Reg) (a b : Src) (s : State) : exec (.lpull h t d a b) s = execLpull h t d a b s := rfl

theorem subWhere_lpull (h : Hdr) (t : NTy) (d : Reg) (a b : Src) : SubWhere (.lpull h t d a b) t.width d 8 fun x L j r =>
    let S := 64 / t.width
    let k := inNum x (indexTy t) b L j % (x.f.width * S)
    r = inNum x t a (k / S) (k % S) := by
  refine laneWhere_of_vecBody rfl (p := fun x L v => ∀ j, j < 64 / t.width → sub v t.width j =
      inNum x t a (inNum x (indexTy t) b L j % (x.f.width * (64 / t.width)) / (64 / t.width))
        (inNum x (indexTy t) b L j % (x.f.width * (64 / t.width)) % (64 / t.width)))
    (exec_lpull h t d a b) (fun _ _ _ => rfl) (fun _ _ => g_fits _) fun s x hx L _ j hj => ?_
  simp only [fib_begun hx, srcVal_begun, begunFib_width, mapSubs, nsub, rowElem]
  rw [sub_ofSubs_map _ hj, sub_mod_two_pow]
  simp only [inNum, width_indexTy]

/-- What a lane's combination comes to. -/
theorem combineLanes_begun {i : Instr} {s : State} {x : Iss} (hx : issue? i s = some x) (op : RedOp) (t : NTy) (rnd : Rnd) (ftz sat : Bool)
    (a : Src) (ls : List Nat) : combineLanes x (begun i x) op t rnd ftz sat a ls =
      laneRes t.width fun j => combine op t rnd ftz sat (ls.map fun M => inNum x t a M j) := by
  simp only [combineLanes, fib_begun hx, srcVal_begun, List.map_map (l := ls)]
  exact laneRes_of_map t.width fun j => combine op t rnd ftz sat (ls.map fun M => inNum x t a M j)

theorem exec_lred (h : Hdr) (op : RedOp) (t : NTy) (rnd : Rnd) (ftz sat : Bool) (d : Reg) (a : Src) (s : State) :
    exec (.lred h op t rnd ftz sat d a) s = execLred h op t rnd ftz sat d a s := rfl

theorem exec_lscan (h : Hdr) (op : RedOp) (ex : Bool) (t : NTy) (rnd : Rnd) (ftz sat : Bool) (d : Reg) (a : Src) (s : State) :
    exec (.lscan h op ex t rnd ftz sat d a) s = execLscan h op ex t rnd ftz sat d a s := rfl

/-! ### The pushes of an `lpush` in order (R143) -/

/-- Sub-element `j` of active lane `L` is pushed to sub-element `k` of lane `M`, which holds a thread. -/
def Aims (x : Iss) (t : NTy) (b : Src) (L j M k : Nat) : Prop :=
  x.act.has L = true ∧ M < 64 ∧ j < 64 / t.width ∧ (x.f.thread M).life ≠ .empty ∧
    inNum x (indexTy t) b L j % (x.f.width * (64 / t.width)) = M * (64 / t.width) + k ∧ k < 64 / t.width

theorem Aims.active {x : Iss} {t : NTy} {b : Src} {L j M k : Nat} (h : Aims x t b L j M k) : x.act ≠ 0 := by
  obtain ⟨hL, -⟩ := h
  exact ne_zero_of_has hL

theorem Aims.bounds {x : Iss} {t : NTy} {b : Src} {L j M k : Nat} (h : Aims x t b L j M k) : M < 64 ∧ k < 64 / t.width := by
  obtain ⟨-, hM, -, -, -, hk⟩ := h
  exact ⟨hM, hk⟩

/-- The order in which later pushes win. -/
def Beats (x : Iss) (L j L' j' : Nat) : Prop :=
  logicalOf x.f L < logicalOf x.f L' ∨ (logicalOf x.f L = logicalOf x.f L' ∧ (L < L' ∨ (L = L' ∧ j ≤ j')))

/-- The pushed elements, lane and sub-element, in that order. -/
def pushSrcs (x : Iss) (t : NTy) : List (Nat × Nat) :=
  (logicalOrder x.f x.lanes).flatMap fun L => (List.range (64 / t.width)).map fun j => (L, j)

theorem mem_pushSrcs {x : Iss} {t : NTy} {L j : Nat} : (L, j) ∈ pushSrcs x t ↔ x.act.has L = true ∧ j < 64 / t.width := by
  simp [pushSrcs, logicalOrder, mem_sortBy, Iss.lanes, mem_lanes]

/-- The lanes of a mask rise. -/
theorem pairwise_lanes (m : LaneMask) : m.lanes.Pairwise (· < ·) := List.pairwise_lt_range.filter _

theorem pairwise_pushSrcs (x : Iss) (t : NTy) : (pushSrcs x t).Pairwise fun p q => Beats x p.1 p.2 q.1 q.2 := by
  refine List.pairwise_flatMap.2 ⟨fun L _ => ?_, (pairwise_sortBy (pairwise_lanes x.act)).imp fun {L L'} hlt p hp q hq => ?_⟩
  · exact List.pairwise_map.2 (List.pairwise_lt_range.imp fun hlt => .inr ⟨rfl, .inr ⟨rfl, hlt.le⟩⟩)
  · obtain ⟨j, -, rfl⟩ := List.mem_map.1 hp
    obtain ⟨j', -, rfl⟩ := List.mem_map.1 hq
    exact hlt.imp_right fun h => ⟨h.1, .inl h.2⟩

theorem beats_antisymm (x : Iss) (p q : Nat × Nat) (hpq : Beats x p.1 p.2 q.1 q.2) (hqp : Beats x q.1 q.2 p.1 p.2) : p = q := by
  unfold Beats at hpq hqp
  exact Prod.ext (by omega) (by omega)

/-- The row element a push aims at. -/
def pushTo (x : Iss) (t : NTy) (b : Src) (p : Nat × Nat) : Nat := inNum x (indexTy t) b p.1 p.2 % (x.f.width * (64 / t.width))

/-- The pushes that aim at a lane, if it holds a thread. -/
def pushesInto (x : Iss) (t : NTy) (b : Src) (M : Nat) : List (Nat × Nat) :=
  ((pushSrcs x t).filter fun p => (x.f.thread (pushTo x t b p / (64 / t.width))).life != .empty).filter
    fun p => pushTo x t b p / (64 / t.width) == M

/-- Those among them that aim at one of its elements. -/
theorem mem_pushesInto_iff {x : Iss} {t : NTy} {b : Src} {L j M k : Nat} (hM : M < 64) (hk : k < 64 / t.width) :
    (L, j) ∈ ((pushesInto x t b M).filter fun p => pushTo x t b p % (64 / t.width) == k) ↔ Aims x t b L j M k := by
  have hdest : (pushTo x t b (L, j) / (64 / t.width) = M ∧ pushTo x t b (L, j) % (64 / t.width) = k) ↔
      pushTo x t b (L, j) = M * (64 / t.width) + k := by
    rw [Nat.div_mod_unique (by omega : 0 < 64 / t.width)]
    constructor
    · rintro ⟨h, -⟩; rw [← h, Nat.mul_comm M, Nat.add_comm]
    · intro h; exact ⟨by rw [h, Nat.mul_comm M, Nat.add_comm], hk⟩
  simp only [pushesInto, List.mem_filter, beq_iff_eq, bne_iff_ne, mem_pushSrcs, Aims]
  constructor
  · rintro ⟨⟨⟨⟨hL, hj⟩, hlife⟩, hdiv⟩, hmod⟩
    rw [hdiv] at hlife
    exact ⟨hL, hM, hj, hlife, hdest.1 ⟨hdiv, hmod⟩, hk⟩
  · rintro ⟨hL, -, hj, hlife, hto, -⟩
    obtain ⟨hdiv, hmod⟩ := hdest.2 hto
    exact ⟨⟨⟨⟨hL, hj⟩, by rwa [hdiv]⟩, hdiv⟩, hmod⟩

/-! ### The write of an `lpush` -/

/-- A lane with the pushes into it put one after the other. -/
def putPushes (x : Iss) (t : NTy) (b : Src) (val : Nat × Nat → Nat) (M : Nat) : Word :=
  (pushesInto x t b M).foldl (fun v p => put v t.width (pushTo x t b p % (64 / t.width)) (val p)) 0

/-- What an `lpush` leaves to land: the elements put in each lane, and the mask of those that were put. -/
def pushWrite (x : Iss) (t : NTy) (d : Reg) (a b : Src) : PendW :=
  { land := x.s.clk.cycle + 8, reg := d.toNat, path := x.c.lanes,
    lanes := LaneMask.ofLanes (((pushSrcs x t).filter fun p => (x.f.thread (pushTo x t b p / (64 / t.width))).life != .empty).map
      fun p => pushTo x t b p / (64 / t.width))
    full := false, val := .g ((List.range x.f.width).map (putPushes x t b fun p => inNum x t a p.1 p.2)),
    bits := (List.range x.f.width).map (putPushes x t b fun _ => 2 ^ t.width - 1), pc := x.c.pc, after := [] }

/-- A lane of the write is one that some push aims at. -/
theorem has_pushWrite (x : Iss) (t : NTy) (d : Reg) (a b : Src) {M : Nat} (hM : M < 64) :
    (pushWrite x t d a b).lanes.has M = true ↔ ∃ L j k, Aims x t b L j M k := by
  simp only [pushWrite, has_ofLanes, decide_eq_true_eq, List.mem_map]
  constructor
  · rintro ⟨⟨⟨L, j⟩, hp, hdiv⟩, -⟩
    have hj := (mem_pushSrcs.1 (List.mem_of_mem_filter hp)).2
    refine ⟨L, j, _, (mem_pushesInto_iff hM (Nat.mod_lt _ (by omega))).1 (List.mem_filter.2 ⟨?_, beq_self_eq_true _⟩)⟩
    exact List.mem_filter.2 ⟨hp, beq_iff_eq.2 hdiv⟩
  · rintro ⟨L, j, k, haim⟩
    have hmem := (mem_pushesInto_iff hM haim.bounds.2).2 haim
    obtain ⟨hp, hdiv⟩ := List.mem_filter.1 (List.mem_of_mem_filter hmem)
    exact ⟨⟨(L, j), hp, beq_iff_eq.1 hdiv⟩, hM⟩

/-- A lane of a write of some bits: its value where the mask covers it, the old lane elsewhere. -/
theorem lane_over {p : PendW} {vals masks : Nat → Word} {n M : Nat} (hval : p.val = .g ((List.range n).map vals))
    (hbits : p.bits = (List.range n).map masks) (hM : M < n) (old : VReg) :
    (p.over old).lane M = (vals M &&& masks M) ||| (old.lane M &&& ~~~masks M) := by
  have hsome : ¬p.bits.isEmpty = true := by
    rw [hbits, List.isEmpty_iff, List.map_eq_nil_iff, List.range_eq_nil]
    omega
  have hlane : p.val.lane M = vals M := by rw [hval]; simp [VReg.lane, hM]
  rw [PendW.over, if_neg hsome, VReg.lane, List.getD_eq_getElem?_getD, List.getElem?_mapIdx, hbits]
  simp [hM, hlane]

/-- What the puts leave in a sub-element: the value of the last one. -/
theorem sub_putPushes (x : Iss) (t : NTy) (b : Src) (val : Nat × Nat → Nat) (M : Nat) {k : Nat} (hk : k < 64 / t.width) :
    sub (putPushes x t b val M) t.width k =
      ((((pushesInto x t b M).filter fun p => pushTo x t b p % (64 / t.width) == k).getLast?).map fun p => val p % 2 ^ t.width).getD 0 := by
  rw [putPushes, sub_foldl_put_last _ _ _ _ hk]
  simp [sub]

section
variable {x : Iss} {t : NTy} (d : Reg) (a : Src) {b : Src} (old : VReg) {M k : Nat} (hMw : M < x.f.width) (hM : M < 64)
  (hk : k < 64 / t.width)
include hMw hM hk

/-- THE WINNER: an element that pushes aim at takes the value of the one that beats the others. -/
theorem sub_over_of_winner {L j : Nat} (haim : Aims x t b L j M k) (hmax : ∀ L' j', Aims x t b L' j' M k → Beats x L' j' L j) :
    sub (((pushWrite x t d a b).over old).lane M) t.width k = inNum x t a L j := by
  have hlast : ((pushesInto x t b M).filter fun p => pushTo x t b p % (64 / t.width) == k).getLast? = some (L, j) := by
    refine getLast?_of_greatest (beats_antisymm x) ?_ ((mem_pushesInto_iff hM hk).2 haim) fun p hp =>
      hmax p.1 p.2 ((mem_pushesInto_iff hM hk).1 hp)
    exact (((pairwise_pushSrcs x t).filter _).filter _).filter _
  have hones : (2 ^ t.width - 1) % 2 ^ t.width = 2 ^ t.width - 1 := Nat.mod_eq_of_lt (Nat.sub_lt (by positivity) one_pos)
  rw [lane_over (p := pushWrite x t d a b) rfl rfl hMw, sub_masked_of_ones hk]
  · rw [sub_putPushes x t b _ M hk, hlast]
    exact sub_mod_two_pow _ _ _
  · rw [sub_putPushes x t b _ M hk, hlast]
    exact hones

/-- An element that no push aims at keeps what the register holds when the write lands. -/
theorem sub_over_of_unaimed (hno : ∀ L j, ¬Aims x t b L j M k) :
    sub (((pushWrite x t d a b).over old).lane M) t.width k = sub (old.lane M) t.width k := by
  have hnone : ((pushesInto x t b M).filter fun p => pushTo x t b p % (64 / t.width) == k) = [] :=
    List.eq_nil_iff_forall_not_mem.2 fun p hp => hno p.1 p.2 ((mem_pushesInto_iff hM hk).1 hp)
  rw [lane_over (p := pushWrite x t d a b) rfl rfl hMw, sub_masked_of_zero hk]
  rw [sub_putPushes x t b _ M hk, hnone]
  rfl

end

/-! ### What an `lpush` answers -/

theorem exec_lpush (h : Hdr) (t : NTy) (d : Reg) (a b : Src) (s : State) : exec (.lpush h t d a b) s = execLpush h t d a b s := rfl

/-- The logical index of a lane is as before the issue. -/
theorem logicalOf_begunFib (i : Instr) (x : Iss) (L : Nat) : logicalOf (begunFib i x) L = logicalOf x.f L := by
  simp only [logicalOf, thread_begunFib i x L Thread.task (fun _ _ _ _ => rfl), thread_begunFib i x 0 Thread.logical (fun _ _ _ _ => rfl)]

/-- The model's list of pushes. -/
theorem pushes_begun {i : Instr} {s : State} {x : Iss} (hx : issue? i s = some x) (t : NTy) (a b : Src) :
    pushes x (begun i x) t a b = (pushSrcs x t).map fun p => (pushTo x t b p, inNum x t a p.1 p.2) := by
  have hlog : logicalOf (begunFib i x) = logicalOf x.f := funext (logicalOf_begunFib i x)
  simp only [pushes, fib_begun hx, srcVal_begun, begunFib_width, logicalOrder, hlog, pushSrcs, List.map_flatMap, List.map_map, nsub, pushTo,
    inNum, width_indexTy, Function.comp_def]

/-- With some lane active, `lpush` leaves its write to land, unless no push has a lane or the destination is `vz`. -/
theorem lpush_answers {h : Hdr} {t : NTy} {d : Reg} {a b : Src} {s : State} {x : Iss} (hx : issue? (.lpush h t d a b) s = some x)
    (ha : x.act ≠ 0) : Answers (.lpush h t d a b) s
      (if (pushWrite x t d a b).lanes = 0 ∨ d = 255#8 then begun (.lpush h t d a b) x
      else (begun (.lpush h t d a b) x).setFibre
        { begunFib (.lpush h t d a b) x with pendW := x.f.pendW ++ [pushWrite x t d a b] }) := by
  refine active_answers rfl hx (exec_lpush h t d a b s) ha ?_
  have hlife : ∀ M, ((begunFib (.lpush h t d a b) x).thread M).life = (x.f.thread M).life := fun M =>
    thread_begunFib _ x M Thread.life (fun _ _ _ _ => rfl)
  simp only [pushes_begun hx, fib_begun hx, hlife, begunFib_width, begunFib_pendW, nsub, List.filter_map, List.map_map, List.foldl_map,
    Function.comp_def]
  exact (apply_ite (fun dv => some (Res.done dv)) ((pushWrite x t d a b).lanes = 0 ∨ d = 255#8) _ _).symm

/-- Settles O11: `lpull`, `lred` and `lscan` by the lemmas on bodies, `lpush` by its write, the combination by its equations. -/
theorem crossLaneMovesAndCombinations : Obligations.CrossLaneMovesAndCombinations := by
  refine ⟨⟨subWhere_lpull, fun h t d a b s x hx => ?_, fun h op t rnd ftz sat d a => ?_, fun h op ex t rnd ftz sat d a => ?_⟩,
    fun op t rnd ftz sat => rfl, fun t rnd ftz sat v vs => combine_add_int t rnd ftz sat v vs,
    fun t rnd ftz sat v vs => combine_min_int t rnd ftz sat v vs, fun t rnd ftz sat v vs => combine_max_int t rnd ftz sat v vs,
    fun t rnd ftz sat v vs k => combine_bits t rnd ftz sat v vs k⟩
  · -- `lpush`
    by_cases ha : x.act = 0
    · refine .inl ⟨.inr fun L j M k haim => ?_, idle_answers rfl hx (exec_lpush h t d a b s) ha⟩
      exact Aims.active haim ha
    · have hanswers := lpush_answers hx ha
      by_cases hd : d = 255#8
      · rw [if_pos (.inr hd)] at hanswers
        exact .inl ⟨.inl hd, hanswers⟩
      by_cases hlanes : (pushWrite x t d a b).lanes = 0
      · rw [if_pos (.inl hlanes)] at hanswers
        refine .inl ⟨.inr fun L j M k haim => ?_, hanswers⟩
        exact ne_zero_of_has ((has_pushWrite x t d a b (Aims.bounds haim).1).2 ⟨L, j, k, haim⟩) hlanes
      · rw [if_neg (by tauto)] at hanswers
        refine .inr ⟨hd, pushWrite x t d a b, by rw [pushWrite, issue?_s hx], rfl, rfl, rfl, rfl,
          fun M hM => has_pushWrite x t d a b hM, hanswers, fun old M hMw hM _ k hk => ⟨fun L j haim hmax => ?_, fun hno => ?_⟩⟩
        · exact sub_over_of_winner d a old hMw hM hk haim hmax
        · exact sub_over_of_unaimed d a old hMw hM hk hno
  · exact subResult_of_vecBody rfl (exec_lred h op t rnd ftz sat d a) (fun _ _ => g_fits _) fun s x hx L =>
      combineLanes_begun hx op t rnd ftz sat a _
  · exact subResult_of_vecBody rfl (exec_lscan h op ex t rnd ftz sat d a) (fun _ _ => g_fits _) fun s x hx L =>
      combineLanes_begun hx op t rnd ftz sat a _

end Sys2Proof.Machine
end

section
/-!
SUPPORT for random bits (R145): the model's ChaCha8 keeps its state as a list of numbers; step by step that list is the list of a state of 32-bit
words, of which each step of a quarter-round changes two.
-/

namespace Sys2Proof.Machine

/-- A state of 16 words as the model lists it. -/
def stateList (f : Nat → BitVec 32) : List Nat := (List.range 16).map fun n => (f n).toNat

theorem getD_stateList (f : Nat → BitVec 32) {n : Nat} (hn : n < 16) : (stateList f).getD n 0 = (f n).toNat := by
  simp [stateList, hn]

theorem setAt_stateList (f : Nat → BitVec 32) (n : Nat) (v : BitVec 32) :
    setAt (stateList f) n v.toNat = stateList (Function.update f n v) := by
  rw [setAt_eq_set]
  refine List.ext_getElem (by simp [stateList]) fun k _ _ => ?_
  rw [List.getElem_set]
  simp only [stateList, List.getElem_map, List.getElem_range, Function.update_apply, eq_comm (a := k)]
  exact (apply_ite BitVec.toNat _ _ _).symm

/-- The model's rotation is the bit vector's. -/
theorem rotl32_toNat {k : Nat} (hk : k < 32) (x : BitVec 32) : rotl32 k x.toNat = (x.rotateLeft k).toNat := by
  have hsplit : x.toNat * 2 ^ k % 2 ^ 32 = 2 ^ k * (x.toNat % 2 ^ (32 - k)) := by
    rw [← Nat.mul_mod_mul_left, ← pow_add, Nat.add_sub_cancel' hk.le, Nat.mul_comm]
  have hlow : x.toNat / 2 ^ (32 - k) < 2 ^ k := by
    rw [Nat.div_lt_iff_lt_mul (by positivity), ← pow_add, Nat.add_sub_cancel' hk.le]
    exact x.isLt
  rw [BitVec.toNat_rotateLeft, Nat.mod_eq_of_lt hk, Nat.shiftLeft_eq, Nat.shiftRight_eq_div_pow, rotl32, Nat.mod_eq_of_lt x.isLt, hsplit,
    ← Nat.two_pow_add_eq_or_of_lt hlow]

/-- One step of a quarter-round: word `y` is added to word `x`, and word `z` is combined with that and rotated by `k`. -/
def rfcStep (x y z k : Nat) (f : Nat → BitVec 32) : Nat → BitVec 32 :=
  Function.update (Function.update f x (f x + f y)) z ((f z ^^^ (f x + f y)).rotateLeft k)

/-- The model's step. -/
def listStep (s : List Nat) (x y z k : Nat) : List Nat :=
  setAt (setAt s x ((s.getD x 0 + s.getD y 0) % 2 ^ 32)) z
    (rotl32 k (Nat.xor ((setAt s x ((s.getD x 0 + s.getD y 0) % 2 ^ 32)).getD z 0) ((setAt s x ((s.getD x 0 + s.getD y 0) % 2 ^ 32)).getD x 0)))

theorem listStep_stateList (f : Nat → BitVec 32) {x y z k : Nat} (hx : x < 16) (hy : y < 16) (hz : z < 16) (hxz : x ≠ z) (hk : k < 32) :
    listStep (stateList f) x y z k = stateList (rfcStep x y z k f) := by
  have hsum : ((stateList f).getD x 0 + (stateList f).getD y 0) % 2 ^ 32 = (f x + f y).toNat := by
    rw [getD_stateList f hx, getD_stateList f hy, BitVec.toNat_add]
  have hxor : Nat.xor (f z).toNat (f x + f y).toNat = (f z ^^^ (f x + f y)).toNat := rfl
  rw [listStep, hsum, setAt_stateList, getD_stateList _ hz, getD_stateList _ hx, Function.update_self, Function.update_of_ne hxz.symm, hxor,
    rotl32_toNat hk, setAt_stateList]
  rfl

/-- A quarter-round is four steps, in the model and in the RFC. -/
theorem quarter_eq_steps (s : List Nat) (a b c d : Nat) :
    quarter s a b c d = listStep (listStep (listStep (listStep s a b d 16) c d b 12) a b d 8) c d b 7 := rfl

theorem rfcQuarter_eq_steps (f : Nat → BitVec 32) {a b c d : Nat} (h : [a, b, c, d].Nodup) :
    rfcQuarter a b c d f = rfcStep c d b 7 (rfcStep a b d 8 (rfcStep c d b 12 (rfcStep a b d 16 f))) := by
  simp only [List.nodup_cons, List.mem_cons, List.not_mem_nil, or_false, not_or, not_false_eq_true, List.nodup_nil, and_true] at h
  obtain ⟨⟨hab, hac, had⟩, ⟨hbc, hbd⟩, hcd⟩ := h
  -- each word is asked for by its index, and both sides answer the same
  funext n
  simp only [rfcQuarter, rfcStep, Function.update_apply, hab, hac, had, hbc, hbd, hcd, Ne.symm hab, Ne.symm hac, Ne.symm had, Ne.symm hbc,
    Ne.symm hbd, Ne.symm hcd, if_true, if_false]
  split_ifs <;> simp_all

theorem quarter_stateList (f : Nat → BitVec 32) {a b c d : Nat} (h : [a, b, c, d].Nodup) (hlt : ∀ n, n ∈ [a, b, c, d] → n < 16) :
    quarter (stateList f) a b c d = stateList (rfcQuarter a b c d f) := by
  rw [rfcQuarter_eq_steps f h]
  simp only [List.nodup_cons, List.mem_cons, List.not_mem_nil, or_false, not_or, not_false_eq_true, List.nodup_nil, and_true] at h
  obtain ⟨⟨-, -, had⟩, ⟨hbc, -⟩, -⟩ := h
  have ha := hlt a (by simp)
  have hb := hlt b (by simp)
  have hc := hlt c (by simp)
  have hd := hlt d (by simp)
  rw [quarter_eq_steps, listStep_stateList f ha hb hd had (by decide), listStep_stateList _ hc hd hb (Ne.symm hbc) (by decide),
    listStep_stateList _ ha hb hd had (by decide), listStep_stateList _ hc hd hb (Ne.symm hbc) (by decide)]

theorem doubleRound_stateList (f : Nat → BitVec 32) : doubleRound (stateList f) = stateList (rfcDouble f) := by
  simp only [doubleRound, List.foldl_cons, List.foldl_nil]
  rw [quarter_stateList f (by decide) (by decide), quarter_stateList _ (by decide) (by decide), quarter_stateList _ (by decide) (by decide),
    quarter_stateList _ (by decide) (by decide), quarter_stateList _ (by decide) (by decide), quarter_stateList _ (by decide) (by decide),
    quarter_stateList _ (by decide) (by decide), quarter_stateList _ (by decide) (by decide)]
  rfl

/-- The two halves of a word. -/
theorem low_half (v : Word) : (v.extractLsb' 0 32).toNat = v.toNat % 2 ^ 32 := by
  rw [BitVec.extractLsb'_toNat, Nat.shiftRight_zero]

theorem high_half (v : Word) : (v.extractLsb' 32 32).toNat = v.toNat / 2 ^ 32 := by
  rw [BitVec.extractLsb'_toNat, Nat.shiftRight_eq_div_pow, Nat.mod_eq_of_lt]
  have := v.isLt
  omega

/-- The state that the model begins on (R145). -/
theorem stateList_rfcInit (seed idx : Word) : stateList (rfcInit seed idx) =
    [0x61707865, 0x3320646E, 0x79622D32, 0x6B206574, seed.toNat % 2 ^ 32, seed.toNat / 2 ^ 32, 0, 0, 0, 0, 0, 0,
      idx.toNat / 8 % 2 ^ 32, idx.toNat / 8 / 2 ^ 32, 0, 0] := by
  have hblk : (idx / 8).toNat = idx.toNat / 8 := BitVec.toNat_udiv
  rw [← low_half, ← high_half, ← hblk, ← low_half, ← high_half]
  rfl

/-- The model's block is that of the RFC's rounds. -/
theorem chacha8_eq_rfcWords (seed idx : Word) :
    chacha8 seed idx = rfcWord seed idx (2 * (idx.toNat % 8) + 1) ++ rfcWord seed idx (2 * (idx.toNat % 8)) := by
  have hword : ∀ n, n < 16 → ((stateList (rfcDouble (rfcDouble (rfcDouble (rfcDouble (rfcInit seed idx)))))).getD n 0 +
      (stateList (rfcInit seed idx)).getD n 0) % 2 ^ 32 = (rfcWord seed idx n).toNat := fun n hn => by
    rw [getD_stateList _ hn, getD_stateList _ hn, rfcWord, BitVec.toNat_add]
  have hq : idx.toNat % 8 < 8 := Nat.mod_lt _ (by decide)
  simp only [chacha8, ← stateList_rfcInit, doubleRound_stateList]
  rw [hword _ (by omega), hword _ (by omega)]
  refine BitVec.eq_of_toNat_eq ?_
  have hlow := (rfcWord seed idx (2 * (idx.toNat % 8))).isLt
  have hhigh := (rfcWord seed idx (2 * (idx.toNat % 8) + 1)).isLt
  rw [BitVec.toNat_append, ← Nat.shiftLeft_add_eq_or_of_lt hlow, Nat.shiftLeft_eq, BitVec.toNat_ofNat, Nat.mod_eq_of_lt (by omega)]
  ring

end Sys2Proof.Machine
end

section
/-!
SUPPORT for random floats and blocks: a significand that a format holds is encoded exactly, zero too; the fields of a block in the layout of
R33; what `dqnt` makes of an element (R37).
-/

namespace Sys2Proof.Machine

/-! ### Exact encodings -/

/-- A number of at most the format's precision, within its exponents, zero or not. -/
structure Held (t : FTy) (m : Nat) (e : ℤ) : Prop where
  prec : m < 2 ^ (FTy.frac t + 1)
  low : 1 - (FTy.bias t : ℤ) - FTy.frac t ≤ e
  high : binade m e ≤ FTy.bias t

theorem Held.fits {t : FTy} {m : Nat} {e : ℤ} (h : Held t m e) (hm : m ≠ 0) : Fits t false m e := by
  have hlog : m.log2 < FTy.frac t + 1 := (Nat.log2_lt hm).2 h.prec
  have hlow := h.low
  refine ⟨hm, ?_, h.high, fun hf => nomatch hf⟩
  unfold ulpExp binade
  omega

/-- It is encoded exactly. -/
theorem Held.encodes {t : FTy} {m : Nat} {e : ℤ} (h : Held t m e) (neg : Bool) :
    Encodes t (roundTo t .rn false neg m e).1 neg (m * 2 ^ e) := by
  by_cases hm : m = 0
  · subst hm
    rw [roundTo_zero]
    exact ⟨0, _, fval_signBit t neg, by simp⟩
  · exact ((h.fits hm).encodes neg).1

/-- In a word of the format. -/
theorem Held.lt {t : FTy} {m : Nat} {e : ℤ} (h : Held t m e) (neg : Bool) : (roundTo t .rn false neg m e).1 < 2 ^ t.width := by
  by_cases hm : m = 0
  · subst hm
    rw [roundTo_zero]
    exact signBit_add_lt t neg (c := 0) (by positivity)
  · have hcode := (h.fits hm).code_lt_inf .rn neg
    rw [(h.fits hm).kept_eq] at hcode
    rw [(h.fits hm).roundTo_eq]
    exact signBit_add_lt t neg (hcode.trans (inf_lt t))

/-- A number of `p + 1` bits whose greatest binade the format holds. -/
theorem held_of_lt {t : FTy} {n p : Nat} {e : ℤ} (hn : n < 2 ^ (p + 1)) (hp : p ≤ FTy.frac t) (hlow : 1 - (FTy.bias t : ℤ) - FTy.frac t ≤ e)
    (hhigh : p + e ≤ FTy.bias t) : Held t n e := by
  have hlog : n.log2 ≤ p := by
    by_cases h : n = 0
    · rw [h, Nat.log2_zero]; exact Nat.zero_le p
    · exact Nat.lt_succ_iff.1 ((Nat.log2_lt h).2 hn)
  refine ⟨hn.trans_le (Nat.pow_le_pow_right (by decide) (by omega)), hlow, ?_⟩
  unfold binade
  omega

theorem encodes_rndF32Val (y : Word) {j : Nat} (hj : j < 2) :
    Encodes .f32 (sub (rndF32Val y) 32 j) false ((sub y 32 j / 2 ^ 8 : Nat) * 2 ^ (-24 : ℤ)) := by
  have hheld : Held .f32 (sub y 32 j / 2 ^ 8) (-24) := by
    have hlt : sub y 32 j < 2 ^ 32 := Nat.mod_lt _ (by decide)
    exact held_of_lt (p := 23) (by omega) (by decide) (by decide) (by decide)
  have hlt := hheld.lt false
  have hsub : sub (rndF32Val y) 32 j = (roundTo .f32 .rn false false (sub y 32 j / 2 ^ 8) (-24)).1 :=
    (sub_ofSubs_map _ hj).trans (Nat.mod_eq_of_lt hlt)
  rw [hsub]
  exact hheld.encodes false

theorem encodes_rndF64Val (y : Word) {j : Nat} (hj : j < 1) :
    Encodes .f64 (sub (rndF64Val y) 64 j) false ((y.toNat / 2 ^ 11 : Nat) * 2 ^ (-53 : ℤ)) := by
  have hheld : Held .f64 (y.toNat / 2 ^ 11) (-53) :=
    held_of_lt (p := 52) (by have := y.isLt; omega) (by decide) (by decide) (by decide)
  have hlt := hheld.lt false
  obtain rfl : j = 0 := by omega
  have hwhole : sub (rndF64Val y) 64 0 = (roundTo .f64 .rn false false (y.toNat / 2 ^ 11) (-53)).1 := by
    rw [sub, rndF64Val, Nat.mul_zero, Nat.pow_zero, Nat.div_one, BitVec.toNat_ofNat, Nat.mod_mod]
    exact Nat.mod_eq_of_lt hlt
  rw [hwhole]
  exact hheld.encodes false

/-! ### The layout of a block (R33) -/

/-- A field of the lower part of a number. -/
theorem field_below {x n j w : Nat} (r : Nat) (hx : x < 2 ^ n) (h : j + w ≤ n) : (2 ^ n * r + x) / 2 ^ j % 2 ^ w = x / 2 ^ j % 2 ^ w := by
  refine Nat.eq_of_testBit_eq fun k => ?_
  simp only [Nat.testBit_mod_two_pow, Nat.testBit_div_two_pow, Nat.testBit_two_pow_mul_add _ hx]
  by_cases hk : k < w
  · rw [if_pos (by omega)]
  · simp [hk]

/-- A field of the upper part. -/
theorem field_above {x n : Nat} (r j : Nat) (hx : x < 2 ^ n) : (2 ^ n * r + x) / 2 ^ (n + j) = r / 2 ^ j := by
  rw [pow_add, ← Nat.div_div_eq_div_mul, Nat.add_comm, Nat.add_mul_div_left _ _ (by positivity), Nat.div_eq_of_lt hx, Nat.zero_add]

/-- The magnitude and the sign of an element are the parts of its bits. -/
theorem element_fields (y p bm : Nat) : y / 2 ^ p % 2 ^ (bm + 1) % 2 ^ bm = y / 2 ^ p % 2 ^ bm ∧
    y / 2 ^ p % 2 ^ (bm + 1) / 2 ^ bm = y / 2 ^ (p + bm) % 2 := by
  constructor
  · exact Nat.mod_mod_of_dvd _ (Nat.pow_dvd_pow 2 (Nat.le_succ bm))
  · rw [pow_succ, Nat.mod_mul_right_div_self, Nat.div_div_eq_div_mul, ← pow_add]

/-- A block in the order of R33: the exponent below the scale bits below the elements. -/
theorem bondPack_eq (bm E : Nat) (mus : List Bool) (els : List (Bool × Nat)) : bondPack bm E mus els =
    2 ^ 8 * (2 ^ 8 * ofSubs (bm + 1) (els.map fun x => x.2 + if x.1 then 2 ^ bm else 0) + ofSubs 1 (mus.map Bool.toNat)) + E := by
  rw [bondPack]
  ring

section
variable {bm E : Nat} {mus : List Bool} {els : List (Bool × Nat)} (hE : E < 2 ^ 8) (hmus : mus.length = 8)

theorem ofSubs_mus_lt {mus : List Bool} (hmus : mus.length = 8) : ofSubs 1 (mus.map Bool.toNat) < 2 ^ 8 := by
  simpa [hmus] using ofSubs_lt 1 (mus.map Bool.toNat)

include hE in
theorem bondPack_exponent : bondPack bm E mus els % 256 = E := by
  rw [bondPack_eq, show 256 = 2 ^ 8 from rfl, Nat.mul_add_mod]
  exact Nat.mod_eq_of_lt hE

include hE hmus

theorem bondPack_mu {j : Nat} (hj : j < 8) : bondPack bm E mus els / 2 ^ (8 + j) % 2 = (mus.getD j false).toNat := by
  have hfield := field_below (ofSubs (bm + 1) (els.map fun x => x.2 + if x.1 then 2 ^ bm else 0)) (j := j) (w := 1)
    (ofSubs_mus_lt hmus) (by omega)
  have hdigit := ofSubs_sub 1 (mus.map Bool.toNat) j (by simpa [hmus] using hj)
  rw [pow_one] at hfield
  rw [Nat.one_mul, pow_one] at hdigit
  rw [bondPack_eq, field_above _ j hE, hfield, hdigit]
  have hget : (mus.map Bool.toNat).getD j 0 = (mus.getD j false).toNat := by simp [hmus, hj]
  rw [hget]
  cases mus.getD j false <;> rfl

/-- The bits of an element. -/
theorem bondPack_element {i : Nat} (hi : i < els.length) (hM : (els.getD i (false, 0)).2 < 2 ^ bm) :
    bondPack bm E mus els / 2 ^ (16 + (bm + 1) * i) % 2 ^ (bm + 1) =
      (els.getD i (false, 0)).2 + if (els.getD i (false, 0)).1 then 2 ^ bm else 0 := by
  have hget : (els.map fun x => x.2 + if x.1 then 2 ^ bm else 0).getD i 0 =
      (els.getD i (false, 0)).2 + if (els.getD i (false, 0)).1 then 2 ^ bm else 0 := by simp [hi]
  rw [bondPack_eq, show 16 + (bm + 1) * i = 8 + (8 + (bm + 1) * i) by omega, field_above _ _ hE, field_above _ _ (ofSubs_mus_lt hmus),
    ofSubs_sub _ _ i (by simpa using hi), hget]
  refine Nat.mod_eq_of_lt ?_
  rw [pow_succ]
  split <;> omega

theorem bondPack_magnitude {i : Nat} (hi : i < els.length) (hM : (els.getD i (false, 0)).2 < 2 ^ bm) :
    bondPack bm E mus els / 2 ^ (16 + (bm + 1) * i) % 2 ^ bm = (els.getD i (false, 0)).2 := by
  rw [← (element_fields _ _ _).1, bondPack_element hE hmus hi hM]
  split
  · rw [Nat.add_mod_right, Nat.mod_eq_of_lt hM]
  · exact Nat.mod_eq_of_lt hM

theorem bondPack_sign {i : Nat} (hi : i < els.length) (hM : (els.getD i (false, 0)).2 < 2 ^ bm) :
    bondPack bm E mus els / 2 ^ (16 + (bm + 1) * i + bm) % 2 = (els.getD i (false, 0)).1.toNat := by
  rw [← (element_fields _ _ _).2, bondPack_element hE hmus hi hM]
  cases (els.getD i (false, 0)).1 with
  | true => rw [if_pos rfl, Nat.add_div_right _ (by positivity), Nat.div_eq_of_lt hM]; rfl
  | false => exact Nat.div_eq_of_lt (by simpa using hM)

theorem bondPack_lt (hels : els.length = 16) : bondPack bm E mus els < 2 ^ (16 + 16 * (bm + 1)) := by
  have hlt := ofSubs_lt (bm + 1) (els.map fun x => x.2 + if x.1 then 2 ^ bm else 0)
  rw [List.length_map, hels, Nat.mul_comm] at hlt
  have hmu := ofSubs_mus_lt hmus
  rw [bondPack_eq, pow_add]
  generalize 2 ^ (16 * (bm + 1)) = P at hlt ⊢
  omega

end

/-! ### `dqnt` of an element (R33, R35, R37) -/

/-- The magnitudes of an element type have at most 7 bits (R33). -/
def IsBond (bm : Nat) : Prop := bm = 2 ∨ bm = 4 ∨ bm = 7

theorem IsBond.range {bm : Nat} (h : IsBond bm) : 2 ≤ bm ∧ bm ≤ 7 := by
  obtain rfl | rfl | rfl := h <;> decide

/-- An element of a block that is no NaN is a number that `f32` holds. -/
theorem held_element {bm E mu M : Nat} (hbm : IsBond bm) (hE : E < 255) (hmu : mu < 2) (hM : M < 2 ^ bm) :
    Held .f32 M ((E : Int) - 127 - mu - ((bm : Int) - 1)) := by
  obtain ⟨h2, h7⟩ := hbm.range
  obtain ⟨p, rfl⟩ : ∃ p, bm = p + 1 := ⟨bm - 1, by omega⟩
  refine held_of_lt hM ?_ ?_ ?_
  · simp only [FTy.frac, FTy.prec]; omega
  · simp only [FTy.bias, FTy.frac, FTy.prec]; omega
  · simp only [FTy.bias]; omega

theorem isDqnt_dqntR {bm : Nat} (hbm : IsBond bm) (blk i : Nat) : IsDqnt bm blk i (dqntR bm blk i) := by
  obtain ⟨hmag, hsign⟩ := element_fields blk (16 + (bm + 1) * i) bm
  have hbits : blk % 256 < 256 := Nat.mod_lt _ (by decide)
  by_cases h0 : blk % 256 = 0
  · have hval : dqntR bm blk i = 0 := by
      simp only [dqntR, bondVal, h0, if_true]
      rfl
    exact ⟨by rw [hval]; decide, fun _ => hval, fun h => by omega, fun h => absurd h0 h⟩
  by_cases h255 : blk % 256 = 255
  · have hval : dqntR bm blk i = 0x7FC00000 := by
      simp only [dqntR, bondVal, h255, if_true]
      rfl
    exact ⟨by rw [hval]; decide, fun h => absurd h h0, fun _ => hval, fun _ h => absurd h255 h⟩
  · have hheld : Held .f32 (blk / 2 ^ (16 + (bm + 1) * i) % 2 ^ bm)
        (((blk % 256 : Nat) : Int) - 127 - (blk / 2 ^ (8 + i / 2) % 2 : Nat) - ((bm : Int) - 1)) :=
      held_element hbm (by omega) (Nat.mod_lt _ (by decide)) (Nat.mod_lt _ (by positivity))
    have hval : dqntR bm blk i = (roundTo .f32 .rn false (blk / 2 ^ (16 + (bm + 1) * i + bm) % 2 == 1)
        (blk / 2 ^ (16 + (bm + 1) * i) % 2 ^ bm)
        (((blk % 256 : Nat) : Int) - 127 - (blk / 2 ^ (8 + i / 2) % 2 : Nat) - ((bm : Int) - 1))).1 := by
      simp only [dqntR, bondVal, h0, h255, if_false, roundVal, hmag, hsign]
    refine ⟨by rw [hval]; exact hheld.lt _, fun h => absurd h h0, fun h => absurd h h255, fun _ _ => ?_⟩
    rw [hval]
    exact hheld.encodes _

end Sys2Proof.Machine
end

section
/-!
SUPPORT for quantising (R36): the parts of a block by names of their own. Each binade of the inputs is found by the numbers in it, so the
exponent is that of the greatest magnitude; an element's magnitude is the rounding to nearest of its input over the scale of its pair, which is
unique; and what it raises is read off that rounding.
-/

namespace Sys2Proof.Machine

/-! ### The parts of a block -/

/-- The binades of the finite inputs that are not zero. -/
def binadesOf (vs : List FVal) : List Int :=
  vs.filterMap fun v => match v with
    | .fin _ m e => if m = 0 then none else some (binade m e)
    | _ => none

/-- Whether some input is an infinity. -/
def hasInf (vs : List FVal) : Bool := vs.any fun v => v == .inf false || v == .inf true

/-- The exponent of a block whose inputs are not all zero. -/
def bondExponent (vs : List FVal) : Nat :=
  if (binadesOf vs).isEmpty then 254
  else (min 254 (max 1 ((binadesOf vs).foldl (fun a x => max a x) (((binadesOf vs).head?).getD 0) + 127))).toNat

/-- The exponent of the last place of the elements of a pair without its scale bit. -/
def lastPlace (bm E : Nat) : Int := (E : Int) - 127 - ((bm : Int) - 1)

/-- The rounded magnitude of an input, not yet clamped. -/
def roundedMag (bm E : Nat) (v : FVal) (mu : Bool) : Nat :=
  match v with
  | .fin _ m e => rneDy m (e - lastPlace bm E + if mu then 1 else 0)
  | _ => 2 ^ bm - 1

/-- Whether an input can stand under a scale bit. -/
def fitsScaled (bm E : Nat) (v : FVal) : Bool :=
  match v with
  | .fin _ _ _ => decide (roundedMag bm E v true ≤ 2 ^ bm - 1)
  | _ => false

/-- The scale bits of a block. -/
def bondMus (bm E : Nat) (vs : List FVal) : List Bool :=
  (List.range 8).map fun j => fitsScaled bm E (vs.getD (2 * j) (.fin false 0 0)) && fitsScaled bm E (vs.getD (2 * j + 1) (.fin false 0 0))

/-- An element, sign and magnitude, with its flags. -/
def bondElem (bm E : Nat) (mu : Bool) (v : FVal) : (Bool × Nat) × Word :=
  match v with
  | .fin s m e =>
    ((s, min (roundedMag bm E v mu) (2 ^ bm - 1)),
      (if 2 ^ bm - 1 < roundedMag bm E v mu then fQS else 0) |||
      (if decide (min (roundedMag bm E v mu) (2 ^ bm - 1) * 2 ^ 400 =
        m * 2 ^ (400 + (e - lastPlace bm E + if mu then 1 else 0)).toNat) then 0 else fNX) |||
      (if min (roundedMag bm E v mu) (2 ^ bm - 1) = 0 ∧ m ≠ 0 then fUF else 0))
  | .inf s => ((s, 2 ^ bm - 1), fQS)
  | .nan s => ((s, 2 ^ bm - 1), fNV)

/-- The elements of a block. -/
def bondElems (bm E : Nat) (mus : List Bool) (vs : List FVal) : List ((Bool × Nat) × Word) :=
  (List.range 16).map fun i => bondElem bm E (mus.getD (i / 2) false) (vs.getD i (.fin false 0 0))

/-- The values of the inputs. -/
def bondInputs (ftz : Bool) (xs : List Nat) : List FVal := xs.map (fval .f32 ftz)

/-- A block by its parts: NaN, all zero, or exponent, scale bits and elements. -/
theorem qntCore_eq (bm : Nat) (ftz : Bool) (xs : List Nat) : qntCore bm ftz xs =
    if (bondInputs ftz xs).any FVal.isNaN then (255, List.replicate 8 false, List.replicate 16 (false, 2 ^ bm - 1), fNV)
    else if (binadesOf (bondInputs ftz xs)).isEmpty && !hasInf (bondInputs ftz xs) then
      (0, List.replicate 8 false, List.replicate 16 (false, 0), 0)
    else
      (bondExponent (bondInputs ftz xs), bondMus bm (bondExponent (bondInputs ftz xs)) (bondInputs ftz xs),
        (bondElems bm (bondExponent (bondInputs ftz xs)) (bondMus bm (bondExponent (bondInputs ftz xs)) (bondInputs ftz xs))
          (bondInputs ftz xs)).map Prod.fst,
        (bondElems bm (bondExponent (bondInputs ftz xs)) (bondMus bm (bondExponent (bondInputs ftz xs)) (bondInputs ftz xs))
          (bondInputs ftz xs)).foldl (fun m x => m ||| x.2) 0) := rfl

/-! ### The exponent -/

theorem abs_ratOf_fin (s : Bool) (m : Nat) (e : ℤ) : |ratOf (.fin s m e)| = m * 2 ^ e := by
  have habs : |(m : ℚ) * 2 ^ e| = m * 2 ^ e := abs_of_nonneg (by positivity)
  cases s
  · rw [ratOf, if_neg (by decide), one_mul, habs]
  · rw [ratOf, if_pos rfl, neg_one_mul, neg_mul, abs_neg, habs]

/-- A binade is one that holds the magnitude of some input. -/
theorem mem_binadesOf {vs : List FVal} {k : ℤ} :
    k ∈ binadesOf vs ↔ ∃ v, v ∈ vs ∧ (2 : ℚ) ^ k ≤ |ratOf v| ∧ |ratOf v| < 2 ^ (k + 1) := by
  have hbounds : ∀ {m : Nat} (e : ℤ), m ≠ 0 → (2 : ℚ) ^ binade m e ≤ m * 2 ^ e ∧ (m : ℚ) * 2 ^ e < 2 ^ (binade m e + 1) := by
    intro m e hm
    refine ⟨(Rat.cast_le (K := ℝ)).1 ?_, (Rat.cast_lt (K := ℝ)).1 ?_⟩
    · push_cast; exact two_zpow_binade_le e hm
    · push_cast; exact lt_two_zpow_binade m e
  simp only [binadesOf, List.mem_filterMap]
  refine exists_congr fun v => and_congr_right fun _ => ?_
  cases v with
  | nan | inf => simp [ratOf, not_le.2 (zpow_pos (two_pos (α := ℚ)) k)]
  | fin s m e =>
    rw [abs_ratOf_fin]
    by_cases hm : m = 0
    · simp [hm, not_le.2 (zpow_pos (two_pos (α := ℚ)) k)]
    · obtain ⟨h1, h2⟩ := hbounds e hm
      simp only [hm, if_false, Option.some.injEq]
      constructor
      · rintro rfl; exact ⟨h1, h2⟩
      · rintro ⟨h3, h4⟩
        have h5 := (zpow_lt_zpow_iff_right₀ one_lt_two).1 (h3.trans_lt h2)
        have h6 := (zpow_lt_zpow_iff_right₀ one_lt_two).1 (h1.trans_lt h4)
        omega

/-- A fold of maxima is the greatest member. -/
theorem foldl_max_greatest (xs : List ℤ) (a : ℤ) :
    xs.foldl (fun a x => max a x) a ∈ a :: xs ∧ ∀ x, x ∈ a :: xs → x ≤ xs.foldl (fun a x => max a x) a := by
  induction xs generalizing a with
  | nil => simp
  | cons x xs ih =>
    obtain ⟨hmem, hle⟩ := ih (max a x)
    rw [List.foldl_cons]
    have hfirst := hle _ List.mem_cons_self
    refine ⟨?_, fun y hy => ?_⟩
    · obtain h | h := List.mem_cons.1 hmem
      · rw [h]
        obtain h' | h' := max_choice a x <;> simp [h']
      · simp [h]
    · obtain rfl | hy := List.mem_cons.1 hy
      · exact (le_max_left _ _).trans hfirst
      · obtain rfl | hy := List.mem_cons.1 hy
        · exact (le_max_right _ _).trans hfirst
        · exact hle y (List.mem_cons_of_mem _ hy)

theorem bondExponent_le (vs : List FVal) : bondExponent vs ≤ 254 := by
  unfold bondExponent
  split
  · exact le_rfl
  · omega

/-- Without a finite input that is not zero the exponent is the greatest. -/
theorem bondExponent_of_zero {vs : List FVal} (h : ∀ v, v ∈ vs → |ratOf v| = 0) : bondExponent vs = 254 := by
  have hnone : binadesOf vs = [] := List.eq_nil_iff_forall_not_mem.2 fun k hk => by
    obtain ⟨v, hv, hlow, -⟩ := mem_binadesOf.1 hk
    rw [h v hv] at hlow
    exact absurd hlow (not_le.2 (by positivity))
  rw [bondExponent, hnone]
  rfl

/-- Otherwise it is that of the binade of the greatest magnitude, clamped. -/
theorem bondExponent_of_greatest {vs : List FVal} {v : FVal} {k : ℤ} (hv : v ∈ vs) (hmax : ∀ u, u ∈ vs → |ratOf u| ≤ |ratOf v|)
    (hlow : (2 : ℚ) ^ k ≤ |ratOf v|) (hhigh : |ratOf v| < 2 ^ (k + 1)) : (bondExponent vs : ℤ) = min 254 (max 1 (k + 127)) := by
  have hk : k ∈ binadesOf vs := mem_binadesOf.2 ⟨v, hv, hlow, hhigh⟩
  have hgreatest : (binadesOf vs).foldl (fun a x => max a x) (((binadesOf vs).head?).getD 0) = k := by
    obtain ⟨b, bs, hcons⟩ := List.exists_cons_of_ne_nil (List.ne_nil_of_mem hk)
    obtain ⟨hmem, hle⟩ := foldl_max_greatest (binadesOf vs) b
    have hhead : ((binadesOf vs).head?).getD 0 = b := by rw [hcons]; rfl
    have hmem' : (binadesOf vs).foldl (fun a x => max a x) b ∈ binadesOf vs := by
      refine (List.mem_cons.1 hmem).elim (fun h => ?_) id
      rw [h, hcons]
      exact List.mem_cons_self
    rw [hhead]
    refine le_antisymm ?_ (hle k (List.mem_cons_of_mem _ hk))
    obtain ⟨u, hu, hu1, -⟩ := mem_binadesOf.1 hmem'
    have hlt := (zpow_lt_zpow_iff_right₀ one_lt_two).1 ((hu1.trans (hmax u hu)).trans_lt hhigh)
    omega
  have hsome : ¬(binadesOf vs).isEmpty = true := by
    rw [List.isEmpty_iff]
    exact List.ne_nil_of_mem hk
  rw [bondExponent, if_neg hsome, hgreatest]
  omega

/-! ### Rounded magnitudes -/

/-- A rounding to nearest is unique: of two neighbours at the same distance only one is even. -/
theorem RoundsTo.nearest_unique {neg : Bool} {y : ℝ} {n n' : ℕ} (h : RoundsTo .rn neg y n) (h' : RoundsTo .rn neg y n') : n = n' := by
  obtain ⟨hle, heven⟩ := h
  obtain ⟨hle', heven'⟩ := h'
  by_contra hne
  have hapart : ∀ a b : ℕ, a < b → |y - a| ≤ 1 / 2 → |y - b| ≤ 1 / 2 → |y - a| = 1 / 2 ∧ |y - b| = 1 / 2 ∧ b = a + 1 := by
    intro a b hab ha hb
    have hab' : (a : ℝ) + 1 ≤ b := by exact_mod_cast hab
    obtain ⟨ha1, ha2⟩ := abs_le.1 ha
    obtain ⟨hb1, hb2⟩ := abs_le.1 hb
    have hya : y - a = 1 / 2 := by linarith
    have hyb : y - b = -(1 / 2) := by linarith
    have hb : (b : ℝ) = a + 1 := by linarith
    exact ⟨by rw [hya, abs_of_pos (by norm_num)], by rw [hyb, abs_neg, abs_of_pos (by norm_num)], by exact_mod_cast hb⟩
  obtain hlt | hlt := Nat.lt_or_gt_of_ne hne
  · obtain ⟨h1, h2, h3⟩ := hapart n n' hlt hle hle'
    have := heven h1
    have := heven' h2
    omega
  · obtain ⟨h1, h2, h3⟩ := hapart n' n hlt hle' hle
    have := heven' h1
    have := heven h2
    omega

theorem bondScale_eq (bm E : Nat) (mu : Bool) : bondScale bm E mu.toNat = 2 ^ (lastPlace bm E - (if mu then 1 else 0)) := by
  rw [bondScale, lastPlace]
  cases mu
  · simp
  · congr 1
    simp only [Bool.toNat_true, if_true]
    push_cast
    ring

/-- An input over the scale of its pair. -/
theorem over_bondScale (bm E : Nat) (mu s : Bool) (m : Nat) (e : ℤ) :
    |ratOf (.fin s m e)| / bondScale bm E mu.toNat = m * 2 ^ (e - lastPlace bm E + if mu then 1 else 0) := by
  rw [abs_ratOf_fin, bondScale_eq, mul_div_assoc, ← zpow_sub₀ two_ne_zero]
  congr 2
  ring

/-- The rounded magnitude is the rounding to nearest of that. -/
theorem roundsTo_roundedMag (bm E : Nat) (mu s : Bool) (m : Nat) (e : ℤ) :
    RoundsTo .rn false (|ratOf (.fin s m e)| / bondScale bm E mu.toNat : ℚ) (roundedMag bm E (.fin s m e) mu) := by
  have hrounds := roundsTo_rndTo .rn false m (e - lastPlace bm E + if mu then 1 else 0) 0
  rw [zpow_zero, div_one] at hrounds
  rw [over_bondScale]
  push_cast
  exact hrounds

/-- Whether a value is an infinity. -/
def IsInf (v : FVal) : Prop := v = .inf true ∨ v = .inf false

theorem not_isInf_fin (s : Bool) (m : Nat) (e : ℤ) : ¬IsInf (.fin s m e) := by simp [IsInf]

theorem isInf_inf (s : Bool) : IsInf (.inf s) := by cases s <;> simp [IsInf]

/-- A value that is no NaN and no infinity has its parts. -/
theorem eq_fin_of_not {v : FVal} (hnan : v.isNaN = false) (hinf : ¬IsInf v) : ∃ s m e, v = .fin s m e := by
  cases v with
  | nan => cases hnan
  | inf s => exact absurd (isInf_inf s) hinf
  | fin s m e => exact ⟨s, m, e, rfl⟩

/-- The scale bit of a pair asks of each input that it is finite and rounds to a magnitude of the type. -/
theorem fitsScaled_iff {bm E : Nat} {v : FVal} (hnan : v.isNaN = false) : fitsScaled bm E v = true ↔
    ¬IsInf v ∧ ∃ n, RoundsTo .rn false (|ratOf v| / bondScale bm E 1 : ℚ) n ∧ n ≤ 2 ^ bm - 1 := by
  cases v with
  | nan => cases hnan
  | inf s => simp [fitsScaled, isInf_inf]
  | fin s m e =>
    have hrounds := roundsTo_roundedMag bm E true s m e
    simp only [fitsScaled, decide_eq_true_eq, not_isInf_fin, not_false_eq_true, true_and]
    exact ⟨fun h => ⟨_, hrounds, h⟩, fun ⟨n, hn, hle⟩ => hrounds.nearest_unique hn ▸ hle⟩

/-! ### Elements and their flags -/

/-- An element's magnitude is clamped. -/
theorem bondElem_magnitude {bm E : Nat} {mu : Bool} {v : FVal} : (bondElem bm E mu v).1.2 = min (roundedMag bm E v mu) (2 ^ bm - 1) := by
  cases v with
  | nan | inf => simp [bondElem, roundedMag]
  | fin => rfl

/-- An infinity stands as the greatest magnitude. -/
theorem bondElem_magnitude_of_inf {bm E : Nat} {mu : Bool} {v : FVal} (h : IsInf v) : (bondElem bm E mu v).1.2 = 2 ^ bm - 1 := by
  obtain rfl | rfl := h <;> rfl

theorem bondElem_magnitude_lt (bm E : Nat) (mu : Bool) (v : FVal) : (bondElem bm E mu v).1.2 < 2 ^ bm := by
  have := Nat.two_pow_pos bm
  rw [bondElem_magnitude]
  omega

/-- The sign of a value that is no NaN is the sign bit of its encoding. -/
theorem bondElem_sign {ftz : Bool} {x : Nat} (bm E : Nat) (mu : Bool) (hnan : (fval .f32 ftz x).isNaN = false) :
    (bondElem bm E mu (fval .f32 ftz x)).1.1.toNat = x / 2 ^ 31 % 2 := by
  have hbit : ((x / 2 ^ 31 % 2 == 1) : Bool).toNat = x / 2 ^ 31 % 2 := by
    obtain h | h := Nat.mod_two_eq_zero_or_one (x / 2 ^ 31) <;> rw [h] <;> rfl
  rw [← hbit]
  congr 1
  rw [fval_eq_fieldsVal] at hnan ⊢
  unfold fieldsVal at hnan ⊢
  split
  · rename_i hexp
    rw [if_pos hexp] at hnan
    split
    · rfl
    · rename_i hfrac
      rw [if_neg hfrac] at hnan
      cases hnan
  · split <;> rfl

theorem getLsbD_fQS (n : Nat) : fQS.getLsbD n = decide (n = 6) := by
  rw [show fQS = 1#64 <<< 6 from by decide, getLsbD_one_shiftLeft]
  exact decide_eq_decide.2 (by omega)

theorem getLsbD_fNX (n : Nat) : fNX.getLsbD n = decide (n = 4) := by
  rw [show fNX = 1#64 <<< 4 from by decide, getLsbD_one_shiftLeft]
  exact decide_eq_decide.2 (by omega)

theorem getLsbD_fUF (n : Nat) : fUF.getLsbD n = decide (n = 3) := by
  rw [show fUF = 1#64 <<< 3 from by decide, getLsbD_one_shiftLeft]
  exact decide_eq_decide.2 (by omega)

/-- A flag raised under a condition. -/
theorem getLsbD_ite {P : Prop} [Decidable P] (fl : Word) (n : Nat) :
    (if P then fl else 0).getLsbD n = true ↔ P ∧ fl.getLsbD n = true := by
  split <;> simp [*]

theorem getLsbD_ite_not {P : Prop} [Decidable P] (fl : Word) (n : Nat) :
    (if P then 0 else fl).getLsbD n = true ↔ ¬P ∧ fl.getLsbD n = true := by
  split <;> simp [*]

/-- An element is exact when its magnitude times its scale is the input: the model compares multiples of `2^-400`, below every last place. -/
theorem exact_iff {bm E M m : Nat} {mu s : Bool} {e : ℤ} (h : -400 ≤ e - lastPlace bm E) :
    M * 2 ^ 400 = m * 2 ^ (400 + (e - lastPlace bm E + if mu then 1 else 0)).toNat ↔
      (M : ℚ) * bondScale bm E mu.toNat = |ratOf (.fin s m e)| := by
  have hd : 0 ≤ 400 + (e - lastPlace bm E + if mu then 1 else 0) := by split <;> omega
  rw [← eq_div_iff (by rw [bondScale_eq]; positivity), over_bondScale]
  generalize e - lastPlace bm E + (if mu then 1 else 0) = d at hd ⊢
  have hpow : (2 : ℚ) ^ (400 + d).toNat = 2 ^ 400 * 2 ^ d := by
    rw [← zpow_natCast, Int.toNat_of_nonneg hd, zpow_add₀ two_ne_zero]
    norm_cast
  rw [← Nat.cast_inj (R := ℚ), Nat.cast_mul, Nat.cast_mul, Nat.cast_pow, Nat.cast_pow, Nat.cast_ofNat, hpow, mul_left_comm,
    mul_comm (M : ℚ)]
  exact mul_right_inj' (pow_ne_zero _ two_ne_zero)

/-- What an element raises. -/
theorem getLsbD_bondElem {bm E : Nat} {mu : Bool} {v : FVal} (hnan : v.isNaN = false)
    (hlow : ∀ s m e, v = .fin s m e → -400 ≤ e - lastPlace bm E) (n : Nat) : (bondElem bm E mu v).2.getLsbD n = true ↔
      (n = 6 ∧ (IsInf v ∨ 2 ^ bm - 1 < roundedMag bm E v mu)) ∨
      (n = 4 ∧ ¬IsInf v ∧ ((bondElem bm E mu v).1.2 : ℚ) * bondScale bm E mu.toNat ≠ |ratOf v|) ∨
      (n = 3 ∧ ¬IsInf v ∧ (bondElem bm E mu v).1.2 = 0 ∧ |ratOf v| ≠ 0) := by
  cases v with
  | nan => cases hnan
  | inf s => simp [bondElem, isInf_inf, getLsbD_fQS]
  | fin s m e =>
    have hzero : |ratOf (.fin s m e)| ≠ 0 ↔ m ≠ 0 := by
      rw [abs_ratOf_fin, ne_eq, mul_eq_zero, or_iff_left (by positivity), Nat.cast_eq_zero]
    have hexact := exact_iff (bm := bm) (E := E) (M := min (roundedMag bm E (.fin s m e) mu) (2 ^ bm - 1)) (m := m) (mu := mu) (s := s)
      (hlow s m e rfl)
    rw [bondElem_magnitude, hzero]
    simp only [bondElem, BitVec.getLsbD_or, Bool.or_eq_true, getLsbD_ite, getLsbD_ite_not, getLsbD_fQS, getLsbD_fNX, getLsbD_fUF,
      not_isInf_fin, not_false_eq_true, true_and, false_or, decide_eq_true_eq, hexact, or_assoc, and_comm (a := n = _)]

end Sys2Proof.Machine
end

section
/-!
PROOF of `RandomBitsAndQuantising`. The block of `rnd` is that of the RFC's rounds, and its floats are exact; a quantised block is NaN, zero or
made of its parts, each of which meets its clause of R36; the groups are read on the begun device as before the issue.
-/

namespace Sys2Proof.Machine

/-! ### A quantised block (R36) -/

section
variable {bm : Nat} {ftz : Bool} {xs : List Nat} (hlen : xs.length = 16)
include hlen

theorem getD_bondInputs {i : Nat} (hi : i < 16) : (bondInputs ftz xs).getD i (.fin false 0 0) = fval .f32 ftz (xs.getD i 0) := by
  simp [bondInputs, hlen, hi]

/-- The inputs are the values of the sixteen encodings. -/
theorem mem_bondInputs {v : FVal} : v ∈ bondInputs ftz xs ↔ ∃ i, i < 16 ∧ v = fval .f32 ftz (xs.getD i 0) := by
  rw [bondInputs, List.mem_map]
  constructor
  · rintro ⟨x, hx, rfl⟩
    obtain ⟨i, hi, rfl⟩ := List.mem_iff_getElem.1 hx
    exact ⟨i, hlen ▸ hi, by rw [List.getD_eq_getElem _ _ hi]⟩
  · rintro ⟨i, hi, rfl⟩
    have hi' : i < xs.length := hlen ▸ hi
    exact ⟨xs[i], List.getElem_mem hi', by rw [List.getD_eq_getElem _ _ hi']⟩

theorem any_isNaN_iff : (bondInputs ftz xs).any FVal.isNaN = true ↔ ∃ i, i < 16 ∧ (fval .f32 ftz (xs.getD i 0)).isNaN = true := by
  rw [List.any_eq_true]
  exact ⟨fun ⟨v, hv, hnan⟩ => by obtain ⟨i, hi, rfl⟩ := (mem_bondInputs hlen).1 hv; exact ⟨i, hi, hnan⟩,
    fun ⟨i, hi, hnan⟩ => ⟨_, (mem_bondInputs hlen).2 ⟨i, hi, rfl⟩, hnan⟩⟩

/-- No finite input that is not zero and no infinity: every input that is no NaN is a zero. -/
theorem zeros_iff (hnan : ¬∃ i, i < 16 ∧ (fval .f32 ftz (xs.getD i 0)).isNaN = true) :
    ((binadesOf (bondInputs ftz xs)).isEmpty && !hasInf (bondInputs ftz xs)) = true ↔
      ∀ i, i < 16 → finite (fval .f32 ftz (xs.getD i 0)) = true ∧ |ratOf (fval .f32 ftz (xs.getD i 0))| = 0 := by
  have hinf : hasInf (bondInputs ftz xs) = true ↔ ∃ i, i < 16 ∧ IsInf (fval .f32 ftz (xs.getD i 0)) := by
    simp only [hasInf, List.any_eq_true, Bool.or_eq_true, beq_iff_eq]
    exact ⟨fun ⟨v, hv, h⟩ => by obtain ⟨i, hi, rfl⟩ := (mem_bondInputs hlen).1 hv; exact ⟨i, hi, h.symm⟩,
      fun ⟨i, hi, h⟩ => ⟨_, (mem_bondInputs hlen).2 ⟨i, hi, rfl⟩, h.symm⟩⟩
  rw [Bool.and_eq_true, List.isEmpty_iff, Bool.not_eq_true', ← Bool.not_eq_true, hinf]
  constructor
  · rintro ⟨hnone, hno⟩ i hi
    obtain ⟨s, m, e, hv⟩ := eq_fin_of_not (v := fval .f32 ftz (xs.getD i 0)) (Bool.eq_false_iff.2 fun h => hnan ⟨i, hi, h⟩)
      fun h => hno ⟨i, hi, h⟩
    refine ⟨by rw [hv]; rfl, ?_⟩
    by_contra hne
    obtain ⟨k, hk⟩ := exists_mem_Ico_zpow (lt_of_le_of_ne (abs_nonneg _) (Ne.symm hne)) (one_lt_two (α := ℚ))
    have hmem : k ∈ binadesOf (bondInputs ftz xs) := mem_binadesOf.2 ⟨_, (mem_bondInputs hlen).2 ⟨i, hi, rfl⟩, hk⟩
    rw [hnone] at hmem
    cases hmem
  · intro hall
    refine ⟨List.eq_nil_iff_forall_not_mem.2 fun k hk => ?_, fun ⟨i, hi, h⟩ => ?_⟩
    · obtain ⟨v, hv, hlow, -⟩ := mem_binadesOf.1 hk
      obtain ⟨i, hi, rfl⟩ := (mem_bondInputs hlen).1 hv
      rw [(hall i hi).2] at hlow
      exact absurd hlow (not_le.2 (by positivity))
    · obtain ⟨hfin, -⟩ := hall i hi
      obtain h | h := h <;> rw [h] at hfin <;> cases hfin

end

/-! ### A block made of its parts -/

/-- The scale bit of a pair of inputs. -/
def muOf (bm : Nat) (vs : List FVal) (j : Nat) : Bool := (bondMus bm (bondExponent vs) vs).getD j false

/-- The element made of an input. -/
def elemOf (bm : Nat) (vs : List FVal) (i : Nat) : (Bool × Nat) × Word :=
  bondElem bm (bondExponent vs) (muOf bm vs (i / 2)) (vs.getD i (.fin false 0 0))

/-- The block and the flags of inputs that are no NaN and not all zero. -/
def madeBlock (bm : Nat) (vs : List FVal) : Nat × Word :=
  (bondPack bm (bondExponent vs) (bondMus bm (bondExponent vs) vs)
    ((bondElems bm (bondExponent vs) (bondMus bm (bondExponent vs) vs) vs).map Prod.fst),
    (bondElems bm (bondExponent vs) (bondMus bm (bondExponent vs) vs) vs).foldl (fun m x => m ||| x.2) 0)

section
variable (bm : Nat) (vs : List FVal)

theorem bondExponent_lt : bondExponent vs < 2 ^ 8 := (bondExponent_le vs).trans_lt (by decide)

theorem length_bondMus : (bondMus bm (bondExponent vs) vs).length = 8 := by simp [bondMus]

theorem length_bondElems :
    ((bondElems bm (bondExponent vs) (bondMus bm (bondExponent vs) vs) vs).map Prod.fst).length = 16 := by simp [bondElems]

theorem getD_bondElems {i : Nat} (hi : i < 16) :
    ((bondElems bm (bondExponent vs) (bondMus bm (bondExponent vs) vs) vs).map Prod.fst).getD i (false, 0) = (elemOf bm vs i).1 := by
  simp [bondElems, elemOf, muOf, hi]

theorem muOf_eq {j : Nat} (hj : j < 8) : muOf bm vs j = (fitsScaled bm (bondExponent vs) (vs.getD (2 * j) (.fin false 0 0)) &&
    fitsScaled bm (bondExponent vs) (vs.getD (2 * j + 1) (.fin false 0 0))) := by
  simp [muOf, bondMus, hj]

theorem madeBlock_lt : (madeBlock bm vs).1 < 2 ^ (16 + 16 * (bm + 1)) :=
  bondPack_lt (bondExponent_lt vs) (length_bondMus bm vs) (length_bondElems bm vs)

theorem madeBlock_exponent : (madeBlock bm vs).1 % 256 = bondExponent vs := bondPack_exponent (bondExponent_lt vs)

theorem madeBlock_mu {j : Nat} (hj : j < 8) : (madeBlock bm vs).1 / 2 ^ (8 + j) % 2 = (muOf bm vs j).toNat :=
  bondPack_mu (bondExponent_lt vs) (length_bondMus bm vs) hj

theorem madeBlock_magnitude {i : Nat} (hi : i < 16) :
    (madeBlock bm vs).1 / 2 ^ (16 + (bm + 1) * i) % 2 ^ bm = (elemOf bm vs i).1.2 := by
  have hget := getD_bondElems bm vs hi
  rw [madeBlock, bondPack_magnitude (bondExponent_lt vs) (length_bondMus bm vs) (length_bondElems bm vs ▸ hi), hget]
  rw [hget]
  exact bondElem_magnitude_lt _ _ _ _

theorem madeBlock_sign {i : Nat} (hi : i < 16) :
    (madeBlock bm vs).1 / 2 ^ (16 + (bm + 1) * i + bm) % 2 = (elemOf bm vs i).1.1.toNat := by
  have hget := getD_bondElems bm vs hi
  rw [madeBlock, bondPack_sign (bondExponent_lt vs) (length_bondMus bm vs) (length_bondElems bm vs ▸ hi), hget]
  rw [hget]
  exact bondElem_magnitude_lt _ _ _ _

/-- A flag of a block is one that some element raises. -/
theorem getLsbD_madeBlock (n : Nat) : (madeBlock bm vs).2.getLsbD n = true ↔ ∃ i, i < 16 ∧ (elemOf bm vs i).2.getLsbD n = true := by
  rw [madeBlock, getLsbD_union]
  simp only [bondElems, List.mem_map, List.mem_range]
  exact ⟨fun ⟨r, ⟨i, hi, hr⟩, h⟩ => ⟨i, hi, by subst hr; exact h⟩, fun ⟨i, hi, h⟩ => ⟨_, ⟨i, hi, rfl⟩, h⟩⟩

end

/-! ### The three kinds of block (R36) -/

/-- An `f32` input has no place so low that the model's test of exactness would miss it. -/
theorem lastPlace_range {bm : Nat} (hbm : IsBond bm) {ftz : Bool} {x : Nat} (vs : List FVal) (s : Bool) (m : Nat) (e : ℤ)
    (h : fval .f32 ftz x = .fin s m e) : -400 ≤ e - lastPlace bm (bondExponent vs) := by
  obtain ⟨h2, -⟩ := hbm.range
  have hE := bondExponent_le vs
  have he : -149 ≤ e := by
    obtain ⟨-, rfl⟩ | ⟨-, -, hlow, -⟩ := fval_fin_range h
    · decide
    · exact hlow
  unfold lastPlace
  omega

theorem isQnt_nan {bm : Nat} {ftz : Bool} {xs : List Nat} (hlen : xs.length = 16)
    (hnan : ∃ i, i < 16 ∧ (fval .f32 ftz (xs.getD i 0)).isNaN = true) : IsQnt bm ftz xs (qntR bm ftz xs) := by
  have hres : qntR bm ftz xs = (bondPack bm 255 (List.replicate 8 false) (List.replicate 16 (false, 2 ^ bm - 1)), fNV) := by
    rw [qntR, qntCore_eq, if_pos ((any_isNaN_iff hlen).2 hnan)]
  have hE : 255 < 2 ^ 8 := by decide
  have htop : 2 ^ bm - 1 < 2 ^ bm := Nat.sub_lt (by positivity) one_pos
  have hget : ∀ {i}, i < 16 → (List.replicate 16 (false, 2 ^ bm - 1)).getD i (false, 0) = (false, 2 ^ bm - 1) :=
    fun hi => List.getD_replicate _ hi
  rw [hres]
  refine ⟨bondPack_lt hE rfl rfl, fun _ => ⟨bondPack_exponent hE, fun j hj => ?_, fun i hi => ⟨?_, ?_⟩, rfl⟩,
    fun hzeros => ?_, fun h => absurd hnan h⟩
  · dsimp only
    rw [bondPack_mu hE rfl hj, List.getD_replicate _ hj]
    rfl
  · dsimp only
    rw [bondPack_sign hE rfl hi (by rw [hget hi]; exact htop), hget hi]
    rfl
  · dsimp only
    rw [bondPack_magnitude hE rfl hi (by rw [hget hi]; exact htop), hget hi]
  · obtain ⟨i, hi, h⟩ := hnan
    obtain ⟨hfin, -⟩ := hzeros i hi
    obtain ⟨s, m, e, hv⟩ : ∃ s m e, fval .f32 ftz (xs.getD i 0) = .fin s m e := finite_iff.1 hfin
    rw [hv] at h
    cases h

theorem ofSubs_zeros (w n : Nat) : ofSubs w (List.replicate n 0) = 0 := by
  induction n with
  | zero => rfl
  | succ n ih => rw [List.replicate_succ, ofSubs, ih, Nat.zero_mod, Nat.mul_zero]

theorem isQnt_zero {bm : Nat} {ftz : Bool} {xs : List Nat} (hlen : xs.length = 16)
    (hnan : ¬∃ i, i < 16 ∧ (fval .f32 ftz (xs.getD i 0)).isNaN = true)
    (hzeros : ∀ i, i < 16 → finite (fval .f32 ftz (xs.getD i 0)) = true ∧ |ratOf (fval .f32 ftz (xs.getD i 0))| = 0) :
    IsQnt bm ftz xs (qntR bm ftz xs) := by
  have hres : qntR bm ftz xs = (0, 0) := by
    rw [qntR, qntCore_eq, if_neg (mt (any_isNaN_iff hlen).1 hnan), if_pos ((zeros_iff hlen hnan).2 hzeros)]
    simp only [bondPack_eq, List.map_replicate, Bool.toNat_false, Bool.false_eq_true, if_false, Nat.add_zero, ofSubs_zeros, Nat.mul_zero]
  rw [hres]
  exact ⟨by positivity, fun h => absurd h hnan, fun _ => rfl, fun _ h => absurd hzeros h⟩

/-- Three conditions that hold of some of the elements. -/
theorem exists_lt_or₃ {N : Nat} {A B C : Prop} {P Q R : Nat → Prop} :
    (∃ i, i < N ∧ ((A ∧ P i) ∨ (B ∧ Q i) ∨ (C ∧ R i))) ↔
      (A ∧ ∃ i, i < N ∧ P i) ∨ (B ∧ ∃ i, i < N ∧ Q i) ∨ (C ∧ ∃ i, i < N ∧ R i) := by
  simp only [and_or_left, exists_or, and_left_comm (b := A), and_left_comm (b := B), and_left_comm (b := C), exists_and_left]

theorem isQnt_other {bm : Nat} (hbm : IsBond bm) {ftz : Bool} {xs : List Nat} (hlen : xs.length = 16)
    (hnan : ¬∃ i, i < 16 ∧ (fval .f32 ftz (xs.getD i 0)).isNaN = true)
    (hzeros : ¬∀ i, i < 16 → finite (fval .f32 ftz (xs.getD i 0)) = true ∧ |ratOf (fval .f32 ftz (xs.getD i 0))| = 0) :
    IsQnt bm ftz xs (qntR bm ftz xs) := by
  have hres : qntR bm ftz xs = madeBlock bm (bondInputs ftz xs) := by
    rw [qntR, qntCore_eq, if_neg (mt (any_isNaN_iff hlen).1 hnan), if_neg (mt (zeros_iff hlen hnan).1 hzeros)]
    rfl
  have hno : ∀ {i}, i < 16 → (fval .f32 ftz (xs.getD i 0)).isNaN = false := fun hi => Bool.eq_false_iff.2 fun h => hnan ⟨_, hi, h⟩
  have helem : ∀ {i}, i < 16 → elemOf bm (bondInputs ftz xs) i = bondElem bm (bondExponent (bondInputs ftz xs))
      (muOf bm (bondInputs ftz xs) (i / 2)) (fval .f32 ftz (xs.getD i 0)) := fun hi => by rw [elemOf, getD_bondInputs hlen hi]
  rw [hres]
  refine ⟨madeBlock_lt bm _, fun h => absurd h hnan, fun h => absurd h hzeros, fun _ _ => ?_⟩
  rw [madeBlock_exponent]
  refine ⟨fun hzero => ?_, fun i k hi hmax hlow hhigh => ?_, fun j hj => ?_, fun i hi => ⟨?_, fun hinf => ?_⟩,
    fun i => roundedMag bm (bondExponent (bondInputs ftz xs)) (fval .f32 ftz (xs.getD i 0)) (muOf bm (bondInputs ftz xs) (i / 2)),
    fun i hi hinf => ⟨?_, ?_⟩, fun n => ?_⟩
  · refine bondExponent_of_zero fun v hv => ?_
    obtain ⟨i, hi, rfl⟩ := (mem_bondInputs hlen).1 hv
    exact hzero i hi
  · refine bondExponent_of_greatest ((mem_bondInputs hlen).2 ⟨i, hi, rfl⟩) (fun u hu => ?_) hlow hhigh
    obtain ⟨j, hj, rfl⟩ := (mem_bondInputs hlen).1 hu
    exact hmax j hj
  · dsimp only
    rw [madeBlock_mu bm _ hj, muOf_eq bm _ hj, getD_bondInputs hlen (by omega), getD_bondInputs hlen (by omega), Bool.toNat_eq_one,
      Bool.and_eq_true, fitsScaled_iff (hno (by omega)), fitsScaled_iff (hno (by omega))]
    constructor
    · rintro ⟨h1, h2⟩ i (rfl | rfl)
      · exact h1
      · exact h2
    · exact fun h => ⟨h _ (.inl rfl), h _ (.inr rfl)⟩
  · dsimp only
    rw [madeBlock_sign bm _ hi, helem hi, bondElem_sign bm _ _ (hno hi)]
  · dsimp only
    rw [madeBlock_magnitude bm _ hi, helem hi]
    exact bondElem_magnitude_of_inf hinf
  · obtain ⟨s, m, e, hv⟩ := eq_fin_of_not (hno hi) hinf
    dsimp only
    rw [madeBlock_mu bm _ (by omega), hv]
    exact roundsTo_roundedMag bm _ _ s m e
  · dsimp only
    rw [madeBlock_magnitude bm _ hi, helem hi, bondElem_magnitude]
  · rw [getLsbD_madeBlock]
    refine (exists_congr fun i => and_congr_right fun hi => ?_).trans exists_lt_or₃
    dsimp only
    rw [madeBlock_mu bm _ (by omega : i / 2 < 8), madeBlock_magnitude bm _ hi, helem hi]
    exact getLsbD_bondElem (hno hi) (lastPlace_range hbm _) n

/-- A quantised block meets R36. -/
theorem isQnt_qntR {bm : Nat} (hbm : IsBond bm) (ftz : Bool) {xs : List Nat} (hlen : xs.length = 16) : IsQnt bm ftz xs (qntR bm ftz xs) := by
  by_cases hnan : ∃ i, i < 16 ∧ (fval .f32 ftz (xs.getD i 0)).isNaN = true
  · exact isQnt_nan hlen hnan
  by_cases hzeros : ∀ i, i < 16 → finite (fval .f32 ftz (xs.getD i 0)) = true ∧ |ratOf (fval .f32 ftz (xs.getD i 0))| = 0
  · exact isQnt_zero hlen hnan hzeros
  · exact isQnt_other hbm hlen hnan hzeros

/-! ### The instructions -/

theorem exec_rnd (h : Hdr) (d : Reg) (a b : Src) (s : State) : exec (.rnd h d a b) s = execRnd h d a b s := rfl
theorem exec_rndF32 (h : Hdr) (d : Reg) (a b : Src) (s : State) : exec (.rndF32 h d a b) s = execRndF32 h d a b s := rfl
theorem exec_rndF64 (h : Hdr) (d : Reg) (a b : Src) (s : State) : exec (.rndF64 h d a b) s = execRndF64 h d a b s := rfl

/-- A body of random bits gives each lane a function of its block's words. -/
theorem laneWhere_of_rndBody {i : Instr} {h : Hdr} {d : Reg} {a b : Src} {g : Word → Word} {p : Iss → Nat → Word → Prop} (hh : hdrOf i = some h)
    (he : ∀ s, exec i s = issueOn i h s (rndBody d a b g)) (hp : ∀ x L, p x L (g (chacha8 (inSrc x .n64 a L) (inSrc x .n64 b L)))) :
    LaneWhere i d 8 p := by
  refine laneWhere_of_vecBody hh he (fun _ _ _ => rfl) (fun _ _ => g_fits _) fun s x hx L _ => ?_
  simp only [fib_begun hx, srcVal_begun]
  exact hp x L

theorem exec_qnt (h : Hdr) (t : BTy) (rnd : Rnd) (ftz : Bool) (d a : Reg) (s : State) :
    exec (.qnt h t rnd ftz d a) s = execQnt h t rnd ftz d a s := rfl

theorem exec_dqnt (h : Hdr) (t : BTy) (rnd : Rnd) (ftz : Bool) (d a : Reg) (s : State) :
    exec (.dqnt h t rnd ftz d a) s = execDqnt h t rnd ftz d a s := rfl

/-- A lane of a block as `qnt` makes it of the eight registers of its source. -/
def qntLane (s : State) (x : Iss) (t : BTy) (ftz : Bool) (a : Reg) (L : Nat) : Nat × Word :=
  qntR t.m ftz ((List.range 16).map fun k => sub (regLane s.dev x.f (a.toNat + k / 2) L) 32 (k % 2))

/-- A lane's elements as `dqnt` makes them of a block. -/
def dqntLane (s : State) (x : Iss) (t : BTy) (a : Reg) (L : Nat) : Nat :=
  ofSubs 32 ((List.range 16).map fun k =>
    dqntR t.m (ofSubs 64 ((List.range t.regs).map fun n => (regLane s.dev x.f (a.toNat + n) L).toNat)) k)

section
variable {h : Hdr} {t : BTy} {rnd : Rnd} {ftz : Bool} {d a : Reg} {s : State} {x : Iss}

/-- The whole source is read before any write (R146). -/
theorem qnt_answers (hx : issue? (.qnt h t rnd ftz d a) s = some x) : Answers (.qnt h t rnd ftz d a) s
    ((begun (.qnt h t rnd ftz d a) x).setFibre (raise (pushGroup x (begunFib (.qnt h t rnd ftz d a) x) d.toNat t.regs 8
      fun L => (qntLane s x t ftz a L).1) (laneFlags x fun L => (qntLane s x t ftz a L).2))) := by
  refine (exec_qnt h t rnd ftz d a s).trans (issueOn_answers rfl hx ?_)
  simp only [fib_begun hx, regLane_begun, issue?_s hx, qntLane]

theorem dqnt_answers (hx : issue? (.dqnt h t rnd ftz d a) s = some x) : Answers (.dqnt h t rnd ftz d a) s
    ((begun (.dqnt h t rnd ftz d a) x).setFibre (pushGroup x (begunFib (.dqnt h t rnd ftz d a) x) d.toNat 8 8 (dqntLane s x t a))) := by
  refine (exec_dqnt h t rnd ftz d a s).trans (issueOn_answers rfl hx ?_)
  simp only [fib_begun hx, regLane_begun, issue?_s hx, groupVal]
  rfl

end

/-- Settles O12: random bits by the lemma on their body, blocks by R36 and R37 above, the groups by what their bodies answer. -/
theorem randomBitsAndQuantising : Obligations.RandomBitsAndQuantising := by
  refine ⟨fun h d a b => ?_, fun h d a b => ?_, fun h d a b => ?_, fun seed idx => chacha8_eq_rfcWords seed idx,
    fun bm ftz xs hbm hlen _ => isQnt_qntR hbm ftz hlen, fun bm blk i hbm _ => isDqnt_dqntR hbm blk i,
    fun h t rnd ftz d a s x hx => ?_, fun h t rnd ftz d a s x hx => ?_⟩
  · exact laneWhere_of_rndBody rfl (exec_rnd h d a b) fun x L => rfl
  · exact laneWhere_of_rndBody rfl (p := fun x L v => ∀ j, j < 64 / 32 → Encodes .f32 (sub v 32 j) false
      ((sub (chacha8 (inSrc x .n64 a L) (inSrc x .n64 b L)) 32 j / 2 ^ 8 : Nat) * 2 ^ (-24 : ℤ)))
      (exec_rndF32 h d a b) fun x L j hj => encodes_rndF32Val _ hj
  · exact laneWhere_of_rndBody rfl (p := fun x L v => ∀ j, j < 64 / 64 → Encodes .f64 (sub v 64 j) false
      (((chacha8 (inSrc x .n64 a L) (inSrc x .n64 b L)).toNat / 2 ^ 11 : Nat) * 2 ^ (-53 : ℤ)))
      (exec_rndF64 h d a b) fun x L j hj => encodes_rndF64Val _ hj
  · exact ⟨_, qnt_answers hx, fun b => getLsbD_laneFlags x _ b⟩
  · refine ⟨_, dqnt_answers hx, fun L k hk => ?_⟩
    rw [dqntLane, ofSubs_sub _ _ k (by simpa using hk)]
    simp [hk]

end Sys2Proof.Machine
end
